-- ==== Sys2Proof/Word.lean ====
section
/-! DEFINITION. The word types of the Drisel 9 (R4) and their plainest arithmetic. -/

namespace Sys2Proof

/-- A byte (R4). -/
abbrev Byte := BitVec 8
/-- A half (R4). -/
abbrev W16 := BitVec 16
/-- A word (R4). -/
abbrev W32 := BitVec 32
/-- A dword (R4). -/
abbrev W64 := BitVec 64

end Sys2Proof
end

