-- ==== Sys2Proof/Config.lean ====
section
/-! DEFINITION. What the manual leaves open and the model fixes in no way: values without a body, which no proof can
see (log 17), and the two published standards the manual names without giving (log 8). -/

namespace Sys2Proof

/-- A value the manual leaves unspecified, fresh for each use: applied to the counter `State.free` (log 17). -/
opaque Config.freeByte : Nat → Byte

/-- The SM3 digest of a byte string: 32 bytes (R340, R341; log 8). -/
opaque Config.sm3 : List Byte → List Byte

/-- Whether a signature over a digest is valid under an SM2 public key: key, digest, signature (R340; log 8). -/
opaque Config.sm2Verify : List Byte → List Byte → List Byte → Bool

/-- The key digest fused into the device (R340; log 8). -/
opaque Config.fusedKey : List Byte

/-- The device's SM2 identity public key, 64 bytes (R341; log 8). -/
opaque Config.identityKey : List Byte

/-- The device's SM2 signature over a digest, 64 bytes (R341; log 8). -/
opaque Config.sm2Sign : List Byte → List Byte

end Sys2Proof
end

