-- ==== Sys2Proof/Syntax.lean ====
section
/-! DEFINITION. The abstract syntax: one constructor of `Instr` per row of spec/opcode_table.json. The rows
with an encoding come first (CTL, then the wide strands); the rows without one are the part's own steps
(spec/95_what_each_step_holds.md), whose arguments say which unit takes the step. -/

namespace Sys2Proof

/-- The four strands of a core, in the order of STRAND.KIND (R59). -/
inductive Strand | ctl | fet | exe | emi
deriving DecidableEq, Repr

/-- Type codes 0 to 11, in the order of R12. -/
inductive Elem | f32 | b16 | e8 | l8 | l16 | i32 | i16 | i8 | i6 | n32 | n16 | n8
deriving DecidableEq, Repr

/-- Matrix operand formats fa and fb (R12). -/
inductive MFmt | l8 | l16 | e8 | b16
deriving DecidableEq, Repr

/-- The three slot types of vector arithmetic (R184, R190). -/
inductive VTy | f32 | i32 | n32
deriving DecidableEq, Repr

/-- The two log types of R198. -/
inductive LogTy | l8 | l16
deriving DecidableEq, Repr

/-- Order codes (R12, R242). -/
inductive Order | rlx | acq | rel | ar
deriving DecidableEq, Repr

/-- Scope codes (R12, R235). -/
inductive Scope | core | clu | die | dev | sys
deriving DecidableEq, Repr

/-- Cache codes (R249). -/
inductive Cache | normal | stream | keep | bypass | home
deriving DecidableEq, Repr

/-- CTL access sizes (R12, R131). -/
inductive Size | b | h | w | d
deriving DecidableEq, Repr

/-- Conditions 0 to 11 of CMP, CMPI and ABR (R123). -/
inductive Cond | eq | ne | lt | ge | le | gt | ltn | gen | len | gtn | bs | bc
deriving DecidableEq, Repr

/-- Conditions of VCMP (R195). -/
inductive VCond | eq | ne | lt | ge | le | gt | un
deriving DecidableEq, Repr

/-- Operations of ATOM (R250). -/
inductive AtomOp | add | and | or | xor | min | max | minn | maxn | xchg
deriving DecidableEq, Repr

/-- Kinds of FENCE (R254). -/
inductive FenceKind | full | acq | rel
deriving DecidableEq, Repr

/-- Timeline contexts (R255). -/
inductive TlCtx | fa | mx | ea | sq
deriving DecidableEq, Repr

/-- Operations of the reductions and the scan (R203). -/
inductive RedOp | add | min | max | and | or | xor
deriving DecidableEq, Repr

/-- Operations of STRED (R225). -/
inductive StredOp | store | add | min | max
deriving DecidableEq, Repr

/-- Operations of KOP (R204). -/
inductive KOpc | and | or | xor | andn | not
deriving DecidableEq, Repr

/-- Addressing modes of LDVT (R214). -/
inductive LdvtMode | direct | trans | stack
deriving DecidableEq, Repr

/-- The token clause of a wide instruction: POP and PUSH in R13's strand order. -/
structure Clause where
  pop  : BitVec 3
  push : BitVec 3
deriving DecidableEq, Repr

/-- The shift amount of ASHL and ASHR (R135). -/
inductive AShift | reg (ab : BitVec 5) | imm (n : BitVec 6)
deriving DecidableEq, Repr

/-- The shift amount of VSHL, VSHR and VSRA (R193). -/
inductive VShift | reg (vb : BitVec 9) | imm (n : BitVec 5)
deriving DecidableEq, Repr

/-- The source of VMOVI (R205). -/
inductive MoviSrc | reg (a : BitVec 5) | imm (i : BitVec 24)
deriving DecidableEq, Repr

/-- The source of KMOV (R204). -/
inductive KSrc | copy (ka : BitVec 3) | ones | zeros
deriving DecidableEq, Repr

/-- The A operand of a matrix product (R53, R169). -/
inductive ASrc | handle (h : BitVec 6) | va (a : BitVec 5) | bank (b : BitVec 4)
deriving DecidableEq, Repr

/-- The B operand of a matrix product (R53, R169). -/
inductive BSrc | handle (h : BitVec 6) | va (a : BitVec 5)
deriving DecidableEq, Repr

/-- The destination of MDRAIN (R54, R181). -/
inductive Dest | tile (hd : BitVec 6) | vregs (v : BitVec 9) | store (a : BitVec 5) | add (a : BitVec 5)
deriving DecidableEq, Repr

/-- The blocking and the non-blocking form of a stream instruction, with its predicate (R267, R272). -/
inductive Block | blocking | nb (p : BitVec 3)
deriving DecidableEq, Repr

/-- Where an uncorrectable error strikes (R333). -/
inductive ErrSite
  | mem (pa : Nat) | tile (core off : Nat) | folio (core idx : Nat) | tokens (core q : Nat) | control (core : Nat)
deriving DecidableEq, Repr

/-- One constructor per row of spec/opcode_table.json. -/
inductive Instr where
  -- CTL: SYS (R45, R315)
  | nop | halt | yield | wfe
  | trap (n : BitVec 6)
  | eret
  | psave (d a b : BitVec 6)
  | prest (d a b : BitVec 6)
  | tlbi (a b : BitVec 6)
  | keyrev (d a b : BitVec 6)
  | icflush
  | slipr (d : BitVec 6)
  | preempt (d a : BitVec 6)
  -- CTL: CSR access (R133)
  | csrr (d : BitVec 6) (c : BitVec 12)
  | csrw (a : BitVec 6) (c : BitVec 12)
  -- CTL: integer operations (R119)
  | add (d a b : BitVec 6)
  | sub (d a b : BitVec 6)
  | mul (d a b : BitVec 6)
  | mulh (d a b : BitVec 6)
  | mulhn (d a b : BitVec 6)
  | div (d a b : BitVec 6)
  | divn (d a b : BitVec 6)
  | rem (d a b : BitVec 6)
  | remn (d a b : BitVec 6)
  | and (d a b : BitVec 6)
  | or (d a b : BitVec 6)
  | xor (d a b : BitVec 6)
  | andn (d a b : BitVec 6)
  | shl (d a b : BitVec 6)
  | shr (d a b : BitVec 6)
  | sra (d a b : BitVec 6)
  | rot (d a b : BitVec 6)
  | min (d a b : BitVec 6)
  | max (d a b : BitVec 6)
  | minn (d a b : BitVec 6)
  | maxn (d a b : BitVec 6)
  | clz (d a : BitVec 6)
  | ctz (d a : BitVec 6)
  | popc (d a : BitVec 6)
  | bswap (d a : BitVec 6)
  -- CTL: immediates and constants (R121, R122)
  | addi (d a : BitVec 6) (i : BitVec 14)
  | andi (d a : BitVec 6) (i : BitVec 14)
  | ori (d a : BitVec 6) (i : BitVec 14)
  | xori (d a : BitVec 6) (i : BitVec 14)
  | shli (d a : BitVec 6) (n : BitVec 6)
  | shri (d a : BitVec 6) (n : BitVec 6)
  | srai (d a : BitVec 6) (n : BitVec 6)
  | muli (d a : BitVec 6) (i : BitVec 14)
  | li (d : BitVec 6) (i : BitVec 20)
  | lik (d : BitVec 6) (k : BitVec 2) (i : BitVec 16)
  -- CTL: compares, predicates, select (R123 to R125)
  | cmp (pd : BitVec 3) (cc : Cond) (a b : BitVec 6)
  | cmpi (pd : BitVec 3) (cc : Cond) (a : BitVec 6) (i : BitVec 12)
  | pand (d a b : BitVec 3)
  | por (d a b : BitVec 3)
  | pxor (d a b : BitVec 3)
  | pandn (d a b : BitVec 3)
  | pnot (d a : BitVec 3)
  | pfrom (d : BitVec 3) (a : BitVec 6) (n : BitVec 6)
  | pto (d : BitVec 6) (a : BitVec 3)
  | sel (d a b : BitVec 6) (inv : Bool) (p : BitVec 3)
  | lea (d a b : BitVec 6) (disp : BitVec 5) (sh : BitVec 3)
  -- CTL: branches and the loop (R126, R127, R130)
  | br (p : BitVec 3) (off : BitVec 22)
  | brn (p : BitVec 3) (off : BitVec 22)
  | call (off : BitVec 26)
  | jr (a : BitVec 6)
  | ret
  | callr (a : BitVec 6)
  | loop (a : BitVec 6) (n : BitVec 6)
  -- CTL: memory (R131, R250 to R254)
  | lds (d a : BitVec 6) (off : BitVec 12) (z : Size)
  | sts (s a : BitVec 6) (off : BitVec 12) (z : Size)
  | atom (op : AtomOp) (dword : Bool) (d a b : BitVec 6)
  | cas (dword : Bool) (d a b : BitVec 6)
  | ldfe (d a : BitVec 6)
  | ldf (d a : BitVec 6)
  | stfe (a b : BitVec 6)
  | stf (a b : BitVec 6)
  | feprobe (d a : BitVec 6)
  | fence (kind : FenceKind) (scope : Scope)
  -- CTL: tokens, timelines, barrier (R32, R255, R78); e is the peer FET, EXE or EMI
  | tkpush (e : BitVec 2)
  | tkpushv (a : BitVec 6) (e : BitVec 2)
  | tkpop (e : BitVec 2)
  | tkpopv (d : BitVec 6) (e : BitVec 2)
  | tkcnt (d : BitVec 6) (e : BitVec 2)
  | tlread (d : BitVec 6) (x : TlCtx)
  | tlwait (x : TlCtx) (a : BitVec 6)
  | tlwaitp (p : BitVec 3) (x : TlCtx) (a : BitVec 6)
  | dbar (l : BitVec 3)
  /-- Event: a phase-close notice reaches core `core` (R40). -/
  | dbarNotice (core level : Nat)
  -- CTL: launches (R73 to R77)
  | launch (d a : BitVec 6)
  | lstat (d a : BitVec 6)
  | lcancel (d a : BitVec 6)
  | done
  -- CTL: values (R104)
  | talloc (d a b : BitVec 6) (t : Elem)
  | dup (d a : BitVec 6)
  | drop (a : BitVec 6)
  | tcount (d a : BitVec 6)
  | tinfo (d a : BitVec 6)
  | tlde (d a b : BitVec 6)
  | hmov (d a : BitVec 6) (restrict : Bool) (keep : BitVec 4)
  | hnull (a : BitVec 6)
  | hcmp (d a b : BitVec 6)
  | hget (d a : BitVec 6)
  | hput (d a : BitVec 6)
  | uniq (d a : BitVec 6)
  | upde (d a b c : BitVec 6) (z : Size)
  -- CTL: streams (R267)
  | sopen (d a b : BitVec 6)
  | spush (a b : BitVec 6) (nb : Block)
  | spushh (n a b : BitVec 6) (nb : Block)
  | spop (d a : BitVec 6) (nb : Block)
  | spoph (d a n : BitVec 6) (nb : Block)
  | sstat (d a : BitVec 6)
  | sclose (a : BitVec 6)
  -- CTL: galley windows and ownership tokens (R104, R299)
  | gopen (d a : BitVec 6)
  | gseal (a : BitVec 6)
  | gwait (a : BitVec 6)
  | racq (d a : BitVec 6)
  | rrel (a : BitVec 6)
  | mod (o : Order) (s : Scope) (c : Cache)
  -- Wide strands: the common set (R49)
  | nopWide (c : Clause)
  | aadd (c : Clause) (ad aa ab : BitVec 5)
  | asub (c : Clause) (ad aa ab : BitVec 5)
  | amul (c : Clause) (ad aa ab : BitVec 5)
  | aand (c : Clause) (ad aa ab : BitVec 5)
  | aaddi (c : Clause) (ad aa : BitVec 5) (i : BitVec 32)
  | ashl (c : Clause) (ad aa : BitVec 5) (n : AShift)
  | ashr (c : Clause) (ad aa : BitVec 5) (n : AShift) (arith : Bool)
  | ali (c : Clause) (ad : BitVec 5) (i : BitVec 32)
  | alih (c : Clause) (ad : BitVec 5) (i : BitVec 32)
  | abr (c : Clause) (aa ab : BitVec 5) (cc : Cond) (off : BitVec 20)
  | aj (c : Clause) (off : BitVec 20)
  | aloop (aa : BitVec 5) (len : BitVec 7)
  | aend (c : Clause)
  | tkv (c : Clause) (ad aa : BitVec 5) (send recv : Bool)
  | acsrr (c : Clause) (ad : BitVec 5) (n : BitVec 12)
  | acsrw (c : Clause) (aa : BitVec 5) (n : BitVec 12)
  | rep (c : Clause) (cnt : BitVec 6) (sd sa sb sc : BitVec 4)
  | modWide (o : Order) (s : Scope) (k : Cache)
  | tlwaitWide (c : Clause) (x : TlCtx) (aa : BitVec 5)
  -- FET (R51)
  | ldt (c : Clause) (t : Elem) (hd : BitVec 6) (base idx : BitVec 5) (off : BitVec 20)
  | ldv (c : Clause) (t : Elem) (vd : BitVec 9) (base idx : BitVec 5) (off : BitVec 20)
  | ldva (c : Clause) (t : Elem) (vd : BitVec 9) (base idx : BitVec 5) (off : BitVec 20)
  | ldvt (c : Clause) (t : Elem) (vd : BitVec 9) (h : BitVec 6) (row0 col0 : BitVec 9) (mode : LdvtMode) (packed : Bool)
  | gath (c : Clause) (t : Elem) (k : BitVec 3) (vd va : BitVec 9) (ab : BitVec 5)
  | btgath (c : Clause) (t : Elem) (k : BitVec 3) (vd va : BitVec 9) (aT aP : BitVec 5)
  | cec (c : Clause) (base : BitVec 5) (off : BitVec 20)
  | cedup (c : Clause) (base : BitVec 5) (off : BitVec 20)
  | cecol (c : Clause) (hd : BitVec 6) (base : BitVec 5) (off : BitVec 20)
  | pref (c : Clause) (base : BitVec 5) (off : BitVec 20)
  | rrot (c : Clause) (hd hs : BitVec 6) (ra : BitVec 5)
  | gwaitf (c : Clause) (hs : BitVec 6)
  | spopv (c : Clause) (vd : BitVec 9) (h : BitVec 6) (n : BitVec 4)
  | ldk (c : Clause) (k : BitVec 3) (base : BitVec 5) (off : BitVec 20)
  -- EXE: vector instructions (R190 to R205)
  | vadd (c : Clause) (t : VTy) (k : BitVec 3) (sat : Bool) (vd va vb : BitVec 9)
  | vsub (c : Clause) (t : VTy) (k : BitVec 3) (sat : Bool) (vd va vb : BitVec 9)
  | vmul (c : Clause) (t : VTy) (k : BitVec 3) (sat : Bool) (vd va vb : BitVec 9)
  | vfma (c : Clause) (t : VTy) (k : BitVec 3) (sat : Bool) (vd va vb vc : BitVec 9)
  | vfnma (c : Clause) (t : VTy) (k : BitVec 3) (sat : Bool) (vd va vb vc : BitVec 9)
  | vmin (c : Clause) (t : VTy) (k : BitVec 3) (vd va vb : BitVec 9)
  | vmax (c : Clause) (t : VTy) (k : BitVec 3) (vd va vb : BitVec 9)
  | vabs (c : Clause) (t : VTy) (k : BitVec 3) (sat : Bool) (vd va : BitVec 9)
  | vneg (c : Clause) (t : VTy) (k : BitVec 3) (sat : Bool) (vd va : BitVec 9)
  | vrcp (c : Clause) (k : BitVec 3) (vd va : BitVec 9)
  | vrsq (c : Clause) (k : BitVec 3) (vd va : BitVec 9)
  | vexp2 (c : Clause) (k : BitVec 3) (vd va : BitVec 9)
  | vlog2 (c : Clause) (k : BitVec 3) (vd va : BitVec 9)
  | vcmp (c : Clause) (t : VTy) (cc : VCond) (k kd : BitVec 3) (va vb : BitVec 9)
  | vsel (c : Clause) (k : BitVec 3) (vd va vb : BitVec 9)
  | vmov (c : Clause) (k : BitVec 3) (vd va : BitVec 9)
  | vand (c : Clause) (k : BitVec 3) (vd va vb : BitVec 9)
  | vor (c : Clause) (k : BitVec 3) (vd va vb : BitVec 9)
  | vxor (c : Clause) (k : BitVec 3) (vd va vb : BitVec 9)
  | vshl (c : Clause) (k : BitVec 3) (vd va : BitVec 9) (n : VShift)
  | vshr (c : Clause) (k : BitVec 3) (vd va : BitVec 9) (n : VShift)
  | vsra (c : Clause) (k : BitVec 3) (vd va : BitVec 9) (n : VShift)
  | vmovi (c : Clause) (vd : BitVec 9) (src : MoviSrc)
  | viota (c : Clause) (vd : BitVec 9) (a : BitVec 5) (step : BitVec 24)
  | vcvt (c : Clause) (dst src : Elem) (k : BitVec 3) (sat : Bool) (vd va : BitVec 9)
  | vlcvt (c : Clause) (t : LogTy) (k : BitVec 3) (sat : Bool) (vd va : BitVec 9)
  | vlexp (c : Clause) (t : LogTy) (k : BitVec 3) (vd va : BitVec 9)
  | vlmul (c : Clause) (t : LogTy) (k : BitVec 3) (sat : Bool) (vd va vb : BitVec 9)
  | vpack6 (c : Clause) (sat : Bool) (vd va : BitVec 9)
  | vunpk6 (c : Clause) (vd va : BitVec 9)
  | vcmpr (c : Clause) (t : VTy) (kd : BitVec 3) (vd va : BitVec 9)
  | vexpd (c : Clause) (k : BitVec 3) (vd va : BitVec 9)
  | vrotr (c : Clause) (k : BitVec 3) (vd va : BitVec 9) (n : BitVec 6)
  | vrotc (c : Clause) (k : BitVec 3) (vd va : BitVec 9) (n : BitVec 4)
  | vbcr (c : Clause) (k : BitVec 3) (vd va : BitVec 9) (n : BitVec 6)
  | vbcc (c : Clause) (k : BitVec 3) (vd va : BitVec 9) (n : BitVec 4)
  | vredr (c : Clause) (t : VTy) (op : RedOp) (k : BitVec 3) (vd va : BitVec 9)
  | vredc (c : Clause) (t : VTy) (op : RedOp) (k : BitVec 3) (vd va : BitVec 9)
  | vscnr (c : Clause) (t : VTy) (op : RedOp) (excl : Bool) (k : BitVec 3) (vd va : BitVec 9)
  | kop (c : Clause) (op : KOpc) (kd ka kb : BitVec 3)
  | kmov (c : Clause) (kd : BitVec 3) (src : KSrc)
  | blend (c : Clause) (bank : BitVec 4) (back : Bool)
  | vtoa (c : Clause) (ad : BitVec 5) (va : BitVec 9) (row : BitVec 4) (col : BitVec 6) (sext : Bool)
  | atov (c : Clause) (vd : BitVec 9) (a : BitVec 5) (row : BitVec 4) (col : BitVec 6)
  -- EXE: the matrix engine (R52 to R54); m, n and k hold the field values M−1, N−1 and K/16−1
  | mlease (c : Clause) (g : Bool)
  | mrel (c : Clause)
  | mma (c : Clause) (fa fb : MFmt) (g z0 sc : Bool) (a : ASrc) (b : BSrc) (m n k zcol : BitVec 9) (zrow : BitVec 7)
      (hsa hsb : BitVec 6)
  | mmag (c : Clause) (fa fb : MFmt) (g z0 sc : Bool) (a : ASrc) (hb hc : BitVec 6) (grp : BitVec 4)
      (m n k zcol : BitVec 9) (zrow : BitVec 7) (hsa hy : BitVec 6)
  | mzero (c : Clause) (m n : BitVec 9) (zrow : BitVec 7) (zcol : BitVec 9)
  | mdrain (c : Clause) (dest : Dest) (t : Elem) (sat clip z : Bool) (scl : Option (BitVec 5)) (m n : BitVec 9)
      (zrow : BitVec 7) (zcol : BitVec 9)
  | mstat (c : Clause) (ad : BitVec 5) (clr : Bool)
  | mrowp (c : Clause) (ad : BitVec 5) (set : Option (BitVec 5))
  -- EMI (R51)
  | stv (c : Clause) (t : Elem) (sat : Bool) (hd : BitVec 6) (va : BitVec 9) (idx : BitVec 5)
  | stt (c : Clause) (t : Elem) (hs : BitVec 6) (base idx : BitVec 5) (off : BitVec 20)
  | stva (c : Clause) (t : Elem) (sat : Bool) (vd : BitVec 9) (base idx : BitVec 5) (off : BitVec 20)
  | scat (c : Clause) (t : Elem) (k : BitVec 3) (sat : Bool) (va vb : BitVec 9) (ab : BitVec 5)
  | stred (c : Clause) (t : Elem) (op : StredOp) (sat : Bool) (vd : BitVec 9) (base idx : BitVec 5) (off : BitVec 20)
  | spushv (c : Clause) (vd : BitVec 9) (h : BitVec 6) (n : BitVec 4)
  | stk (c : Clause) (k : BitVec 3) (base : BitVec 5) (off : BitVec 20)
  -- Events: register writes with behaviour of their own
  | fpcWrite (core : Nat) (st : Strand) (v : W64)
  | moddefWrite (core : Nat) (st : Strand) (v : W64)
  | ptbaseWrite (core : Nat) (v : W64)
  | mrowpWrite (core : Nat) (v : W64)
  | presslenWrite (v : W64)
  | ctxidWrite (core : Nat) (v : W64)
  | vfidWrite (core : Nat) (v : W64)
  -- Events: the Dealer
  | dispatch (die : Nat)
  | readinessFill (pa : Nat)
  | launchRecord (ctx : Nat)
  | launchRetire (id : Nat)
  | pressPeriod
  | budgetHold (die cls res : Nat)
  -- Events: counts (k is the message's place among those in flight)
  | delta (k : Nat)
  | deltaRefusalTrap (core : Nat)
  | weightMessage (k : Nat)
  -- Events: the matrix engine
  | leaseGrant (cluster : Nat)
  | leaseExpiry (core : Nat)
  | leaseRevoke (core : Nat)
  | gangLeaseTimeout (cluster : Nat)
  | matrixCmdStart (core : Nat)
  | matrixCmdComplete (core : Nat)
  -- Events: engines; n is the operation's number in its timeline context
  | tileFillComplete (core n : Nat)
  | stvComplete (core n : Nat)
  | sttComplete (core n : Nat)
  | stredComplete (core n : Nat)
  | cecComplete (core n : Nat)
  | cedupComplete (core n : Nat)
  | collectiveComplete (id : Nat)
  | rrotComplete (core n : Nat)
  | copyOnWrite (k : Nat)
  -- Events: traps and pre-emption
  | trapEntry (core : Nat)
  | monitorEntry (core : Nat)
  | cellStop (core : Nat)
  | prestPlace (k : Nat)
  | gangRestore (k : Nat)
  -- Events: RAS
  | stopPress (core bank : Nat)
  | stopPressEnd (core : Nat)
  | rasWindow (core : Nat)
  | uncorrectable (site : ErrSite)
  -- Events: streams
  | streamItemArrival (k : Nat)
  | streamRefill (core k : Nat)
  | streamStop (k : Nat)
  | streamGo (k : Nat)
  | streamRebind (k : Nat)
  | streamRebindAck (k : Nat)
  | orphanNotice (k : Nat)
  -- Events: packets (k is the packet's place among those that have arrived)
  | pktRead (k : Nat)
  | pktWrite (k : Nat)
  | pktRmw (k : Nat)
  | pktCas (k : Nat)
  | pktReadData (k : Nat)
  | pktAcknowledge (k : Nat)
  | pktRefuse (k : Nat)
  | pktToken (k : Nat)
  | pktCollectiveData (k : Nat)
  | pktBad (k : Nat)
  | retransmit (k : Nat)
  | deviceLost (dev : Nat)
  | linkReplay (port : Nat)
  | linkUp (port id : Nat)
  | hostPacket (k : Nat)
  -- Events: host commands and the package
  | cfgRead (addr : W64)
  | cfgWrite (addr v : W64)
  | bootctl (v : W64)
  | firmwareStaging (i : Nat) (v : W64)
  | budgetTableWrite (i : Nat) (v : W64)
  | contextEnable (ctx : Nat)
  | contextDisable (ctx : Nat)
  | lsOpen (ctx : Nat) (stock : W64)
  | lsClose (ctx : Nat)
  | wake (core : Nat)
  | attest (n0 n1 n2 n3 : W64)
  | coreReset (core : Nat)
  | rollback
  | deviceReset (straps : BitVec 8)
  | thermWarn
  | thermTrip
  | powerCap
  | watchdog (core : Nat)
  | scrubUe (pa : Nat)
  | illegalEncoding
  | storePerformed (core : Nat) (st : Strand)
  | dieCopyUpdate (die addr : Nat)
  | loadReturn (core k : Nat)
  | sideArrayClear (k : Nat)
  | hbmCorrection (row : Nat)
deriving DecidableEq, Repr

end Sys2Proof
end

