-- ==== Sys2Proof/WellFormed.lean ====
section
/-! DEFINITION. Which terms of `Instr` stand for an instruction of the part: the operand ranges and option
combinations the encoding rules allow (R6, R12, R48, R55 and the field tables of the entries), and in which
strand each instruction may be fetched (R51). An event is well formed when it names units the device has. -/

namespace Sys2Proof

/-- The CSR numbers of R58. -/
def csrNumbers : List Nat :=
  [0x000, 0x001, 0x002, 0x003, 0x010, 0x011, 0x012, 0x013, 0x020, 0x021, 0x030, 0x031,
   0x040, 0x041, 0x042, 0x043, 0x044, 0x045, 0x046, 0x047,
   0x100, 0x101, 0x102, 0x103, 0x104, 0x105, 0x106, 0x110, 0x111, 0x112, 0x120, 0x121, 0x122, 0x130]

/-- A CSR number R58 lists. -/
def csrListed (n : BitVec 12) : Bool := csrNumbers.contains n.toNat

/-- A CSR some mode may write: every listed one but STRAND and RASCNT (R58). -/
def csrWritable (n : BitVec 12) : Bool := csrListed n && n != 0x002 && n != 0x120

/-- A V register field (R48). -/
def vOk (v : BitVec 9) : Bool := v.toNat < 384

/-- A handle destination: H0 is refused in every form that produces a handle (R89). -/
def hDst (h : BitVec 6) : Bool := h != 0

/-- A destination mask: K0 is refused (R195, R200, R204, R220). -/
def kDst (k : BitVec 3) : Bool := k != 0

/-- SAT goes with I32 and N32 only (R190). -/
def satInt (t : VTy) (sat : Bool) : Bool := !sat || t != .f32

/-- The types VCVT converts (R197). -/
def cvtTy (t : Elem) : Bool := t != .l8 && t != .l16

/-- The types a drain accepts (R181). -/
def drainTy (d : Dest) (t : Elem) : Bool :=
  match d with
  | .add _ => t == .f32 || t == .b16
  | _ => t == .f32 || t == .b16 || t == .e8 || t == .l8 || t == .l16

/-- The A operand's field: an address pair is registers 1 to 30, a bank 0 to 11 (R53). -/
def ASrc.wf : ASrc → Bool
  | .handle _ => true
  | .va a => 1 ≤ a.toNat && a.toNat ≤ 30
  | .bank b => b.toNat < 12

/-- The B operand's field (R53). -/
def BSrc.wf : BSrc → Bool
  | .handle _ => true
  | .va a => 1 ≤ a.toNat && a.toNat ≤ 30

/-- The V registers of a drain fit the file (R181) and its tile is not H0 (R89); m and n are the fields M−1 and N−1. -/
def Dest.wf (d : Dest) (m n : BitVec 9) : Bool :=
  match d with
  | .vregs v => vOk v && v.toNat + (m.toNat / 16 + 1) * (n.toNat / 64 + 1) ≤ 384
  | .tile h => hDst h
  | .store _ | .add _ => true

/-- The operations a reduction accepts with a type (R203). -/
def redOk (t : VTy) (op : RedOp) : Bool :=
  match op with
  | .add | .min | .max => true
  | .and | .or | .xor => t != .f32

/-- The types and the SAT bit STRED accepts (R225). -/
def stredOk (t : Elem) (op : StredOp) (sat : Bool) : Bool :=
  match op with
  | .store => t != .i6
  | _ => (t == .f32 || t == .b16 || t == .i32 || t == .n32) && !sat

/-- A core number of the device (R70). -/
def coreOk (c : Nat) : Bool := c < 128

/-- The field ranges and option combinations of each instruction; for an event, the units it names. -/
def Instr.wf : Instr → Bool
  | .csrr _ c | .acsrr _ _ c => csrListed c
  | .csrw _ c | .acsrw _ _ c => csrWritable c
  | .cmpi _ cc _ i => (cc != .bs && cc != .bc) || i.toNat < 64
  | .tkpush e | .tkpushv _ e | .tkpop e | .tkpopv _ e | .tkcnt _ e => e != 3
  | .dbar l => 1 ≤ l.toNat && l.toNat ≤ 4
  | .hmov d _ r keep => hDst d && (!r || keep.toNat < 8)
  | .talloc d _ _ _ | .dup d _ | .uniq d _ | .upde d _ _ _ _ | .hput d _ | .gopen d _ => hDst d
  | .ldt _ _ hd _ _ _ | .rrot _ hd _ _ => hDst hd
  | .sopen d _ b => d != b && d != 0 && b != 0
  | .spush _ b _ => b.toNat ≤ 56
  | .spushh n _ b _ => 1 ≤ n.toNat && n.toNat ≤ 8 && b.toNat + n.toNat ≤ 64
  | .spop d _ _ => 1 ≤ d.toNat && d.toNat ≤ 56
  | .spoph d _ n _ => hDst d && 1 ≤ n.toNat && n.toNat ≤ 8 && d.toNat + n.toNat ≤ 64
  | .tkv c ad aa send recv =>
      (!recv || c.pop == 1 || c.pop == 2 || c.pop == 4) && (!send || c.push != 0) &&
        (recv || ad == 0) && (send || aa == 0)
  | .ldv _ _ v _ _ _ | .ldva _ _ v _ _ _ => vOk v
  | .ldvt _ t v _ _ _ _ packed => vOk v && (!packed || t == .i6)
  | .gath _ t _ vd va _ => vOk vd && vOk va && t != .i6
  | .btgath _ t _ vd va _ aP => vOk vd && vOk va && t != .i6 && 1 ≤ aP.toNat && aP.toNat ≤ 30
  | .spopv _ v _ _ | .spushv _ v _ _ => vOk v
  | .ldk _ k _ _ => kDst k
  | .vadd _ t _ sat vd va vb | .vsub _ t _ sat vd va vb | .vmul _ t _ sat vd va vb =>
      vOk vd && vOk va && vOk vb && satInt t sat
  | .vfma _ t _ sat vd va vb vc | .vfnma _ t _ sat vd va vb vc =>
      vOk vd && vOk va && vOk vb && vOk vc && satInt t sat
  | .vmin _ _ _ vd va vb | .vmax _ _ _ vd va vb => vOk vd && vOk va && vOk vb
  | .vabs _ t _ sat vd va | .vneg _ t _ sat vd va => vOk vd && vOk va && satInt t sat
  | .vrcp _ _ vd va | .vrsq _ _ vd va | .vexp2 _ _ vd va | .vlog2 _ _ vd va => vOk vd && vOk va
  | .vcmp _ t cc _ kd va vb => kDst kd && vOk va && vOk vb && (cc != .un || t == .f32)
  | .vsel _ _ vd va vb => vOk vd && vOk va && vOk vb
  | .vmov _ _ vd va => vOk vd && vOk va
  | .vand _ _ vd va vb | .vor _ _ vd va vb | .vxor _ _ vd va vb => vOk vd && vOk va && vOk vb
  | .vshl _ _ vd va n | .vshr _ _ vd va n | .vsra _ _ vd va n =>
      vOk vd && vOk va && (match n with | .reg vb => vOk vb | .imm _ => true)
  | .vmovi _ vd _ => vOk vd
  | .viota _ vd _ _ => vOk vd
  | .vcvt _ dst src _ sat vd va =>
      cvtTy dst && cvtTy src && vOk vd && vOk va && (!sat || (dst != .f32 && dst != .b16))
  | .vlcvt _ _ _ _ vd va | .vlexp _ _ _ vd va => vOk vd && vOk va
  | .vlmul _ _ _ _ vd va vb => vOk vd && vOk va && vOk vb
  | .vpack6 _ _ vd va | .vunpk6 _ vd va => vOk vd && vOk va
  | .vcmpr _ t kd vd va => kDst kd && vOk vd && vOk va && t != .n32
  | .vexpd _ _ vd va => vOk vd && vOk va
  | .vrotr _ _ vd va _ | .vbcr _ _ vd va _ => vOk vd && vOk va
  | .vrotc _ _ vd va _ | .vbcc _ _ vd va _ => vOk vd && vOk va
  | .vredr _ t op _ vd va | .vredc _ t op _ vd va => vOk vd && vOk va && redOk t op
  | .vscnr _ _ op _ _ vd va => vOk vd && vOk va && (op == .add || op == .min || op == .max)
  | .kop _ op kd _ kb => kDst kd && (op != .not || kb == 0)
  | .kmov _ kd _ => kDst kd
  | .blend _ bank _ => bank.toNat < 12
  | .vtoa _ _ va _ _ _ => vOk va
  | .atov _ vd _ _ _ => vOk vd
  | .mma _ _ _ _ _ sc a b _ _ _ _ _ hsa hsb => a.wf && b.wf && (sc || (hsa == 0 && hsb == 0))
  | .mmag _ _ _ _ _ sc a hb _ grp _ _ _ _ _ hsa hy =>
      a.wf && hb.toNat + grp.toNat ≤ 63 && (sc || (hsa == 0 && hy == 0)) && (!sc || hy.toNat + grp.toNat ≤ 63)
  | .mdrain _ d t _ _ _ _ m n _ _ => drainTy d t && d.wf m n
  | .stv _ _ _ hd va _ => hDst hd && vOk va
  | .stva _ _ _ vd _ _ _ => vOk vd
  | .scat _ t _ _ va vb _ => vOk va && vOk vb && t != .i6
  | .stred _ t op sat vd _ _ _ => vOk vd && stredOk t op sat
  | .dbarNotice core _ | .fpcWrite core _ _ | .moddefWrite core _ _ | .ptbaseWrite core _ | .mrowpWrite core _
  | .ctxidWrite core _ | .vfidWrite core _ | .deltaRefusalTrap core | .leaseExpiry core | .leaseRevoke core
  | .matrixCmdStart core | .matrixCmdComplete core | .tileFillComplete core _ | .stvComplete core _
  | .sttComplete core _ | .stredComplete core _ | .cecComplete core _ | .cedupComplete core _
  | .rrotComplete core _ | .trapEntry core | .monitorEntry core | .cellStop core | .stopPressEnd core
  | .rasWindow core | .streamRefill core _ | .wake core | .coreReset core | .watchdog core
  | .storePerformed core _ | .loadReturn core _ => coreOk core
  | .stopPress core bank => coreOk core && bank < 256
  | .dispatch die | .dieCopyUpdate die _ => die < 2
  | .budgetHold die cls res => die < 2 && cls < 64 && res < 8
  | .leaseGrant cl | .gangLeaseTimeout cl => cl < 32
  | .launchRecord ctx | .contextEnable ctx | .contextDisable ctx | .lsOpen ctx _ | .lsClose ctx => ctx < 512
  | .linkReplay p | .linkUp p _ => p < 32
  | .deviceLost d => d < 256
  | _ => true

/-- The strand a core's instruction is fetched by (R51): CTL words only by CTL, the common wide set by FET,
EXE and EMI, the others by their own strand; events by none. -/
def Instr.inStrand (st : Strand) : Instr → Bool
  | .nopWide _ | .aadd .. | .asub .. | .amul .. | .aand .. | .aaddi .. | .ashl .. | .ashr .. | .ali .. | .alih ..
  | .abr .. | .aj .. | .aloop .. | .aend _ | .tkv .. | .acsrr .. | .acsrw .. | .rep .. | .modWide ..
  | .tlwaitWide .. => st != .ctl
  | .ldt .. | .ldv .. | .ldva .. | .ldvt .. | .gath .. | .btgath .. | .cec .. | .cedup .. | .cecol .. | .pref ..
  | .rrot .. | .gwaitf .. | .spopv .. | .ldk .. => st == .fet
  | .vadd .. | .vsub .. | .vmul .. | .vfma .. | .vfnma .. | .vmin .. | .vmax .. | .vabs .. | .vneg .. | .vrcp ..
  | .vrsq .. | .vexp2 .. | .vlog2 .. | .vcmp .. | .vsel .. | .vmov .. | .vand .. | .vor .. | .vxor .. | .vshl ..
  | .vshr .. | .vsra .. | .vmovi .. | .viota .. | .vcvt .. | .vlcvt .. | .vlexp .. | .vlmul .. | .vpack6 ..
  | .vunpk6 .. | .vcmpr .. | .vexpd .. | .vrotr .. | .vrotc .. | .vbcr .. | .vbcc .. | .vredr .. | .vredc ..
  | .vscnr .. | .kop .. | .kmov .. | .blend .. | .vtoa .. | .atov .. | .mlease .. | .mrel .. | .mma .. | .mmag ..
  | .mzero .. | .mdrain .. | .mstat .. | .mrowp .. => st == .exe
  | .stv .. | .stt .. | .stva .. | .scat .. | .stred .. | .spushv .. | .stk .. => st == .emi
  | .nop | .halt | .yield | .wfe | .trap _ | .eret | .psave .. | .prest .. | .tlbi .. | .keyrev .. | .icflush
  | .slipr _ | .preempt .. | .csrr .. | .csrw .. | .add .. | .sub .. | .mul .. | .mulh .. | .mulhn .. | .div ..
  | .divn .. | .rem .. | .remn .. | .and .. | .or .. | .xor .. | .andn .. | .shl .. | .shr .. | .sra .. | .rot ..
  | .min .. | .max .. | .minn .. | .maxn .. | .clz .. | .ctz .. | .popc .. | .bswap .. | .addi .. | .andi .. | .ori ..
  | .xori .. | .shli .. | .shri .. | .srai .. | .muli .. | .li .. | .lik .. | .cmp .. | .cmpi .. | .pand .. | .por ..
  | .pxor .. | .pandn .. | .pnot .. | .pfrom .. | .pto .. | .sel .. | .lea .. | .br .. | .brn .. | .call _ | .jr _
  | .ret | .callr _ | .loop .. | .lds .. | .sts .. | .atom .. | .cas .. | .ldfe .. | .ldf .. | .stfe .. | .stf ..
  | .feprobe .. | .fence .. | .tkpush _ | .tkpushv .. | .tkpop _ | .tkpopv .. | .tkcnt .. | .tlread .. | .tlwait ..
  | .tlwaitp .. | .dbar _ | .launch .. | .lstat .. | .lcancel .. | .done | .talloc .. | .dup .. | .drop _ | .tcount ..
  | .tinfo .. | .tlde .. | .hmov .. | .hnull _ | .hcmp .. | .hget .. | .hput .. | .uniq .. | .upde .. | .sopen ..
  | .spush .. | .spushh .. | .spop .. | .spoph .. | .sstat .. | .sclose _ | .gopen .. | .gseal _ | .gwait _
  | .racq .. | .rrel _ | .mod .. => st == .ctl
  | _ => false

end Sys2Proof
end

