-- ==== Sys2Proof/Decode.lean ====
section
/-! DEFINITION. The decoder of CTL words (R43 to R46 and the entries) and of wide words (R47 to R54), total on
any bits, and after it the encoder written from the same tables. A word that is no instruction (R55) decodes to
`none`; the step then takes the ILLEGAL_OP trap. -/

namespace Sys2Proof

/-! ### Field access -/

/-- The `n` bits of `w` from bit `lo` up. -/
def fld {w : Nat} (x : BitVec w) (lo n : Nat) : BitVec n := BitVec.ofNat n (x.toNat / 2 ^ lo)

/-- A field that must be zero, or a condition an encoding must meet (R55). -/
def req (b : Bool) : Option Unit := if b then some () else none

/-! ### Codes -/

def Elem.code : Elem → BitVec 4
  | .f32 => 0 | .b16 => 1 | .e8 => 2 | .l8 => 3 | .l16 => 4 | .i32 => 5 | .i16 => 6 | .i8 => 7 | .i6 => 8
  | .n32 => 9 | .n16 => 10 | .n8 => 11

/-- Type codes (R12); 12 to 15 are illegal (R48). -/
def Elem.ofCode (c : BitVec 4) : Option Elem :=
  match c.toNat with
  | 0 => some .f32 | 1 => some .b16 | 2 => some .e8 | 3 => some .l8 | 4 => some .l16 | 5 => some .i32
  | 6 => some .i16 | 7 => some .i8 | 8 => some .i6 | 9 => some .n32 | 10 => some .n16 | 11 => some .n8
  | _ => none

def MFmt.code : MFmt → BitVec 2
  | .l8 => 0 | .l16 => 1 | .e8 => 2 | .b16 => 3

/-- fa and fb (R12, R53). -/
def MFmt.ofCode (c : BitVec 2) : MFmt :=
  match c.toNat with
  | 0 => .l8 | 1 => .l16 | 2 => .e8 | _ => .b16

def VTy.code : VTy → BitVec 4
  | .f32 => 0 | .i32 => 5 | .n32 => 9

/-- The types of vector arithmetic (R190). -/
def VTy.ofCode (c : BitVec 4) : Option VTy :=
  match c.toNat with
  | 0 => some .f32 | 5 => some .i32 | 9 => some .n32 | _ => none

def LogTy.code : LogTy → BitVec 4
  | .l8 => 3 | .l16 => 4

/-- The types of the log instructions (R198). -/
def LogTy.ofCode (c : BitVec 4) : Option LogTy :=
  match c.toNat with
  | 3 => some .l8 | 4 => some .l16 | _ => none

def Order.code : Order → BitVec 3
  | .rlx => 0 | .acq => 1 | .rel => 2 | .ar => 3

/-- Order codes; 4 to 7 are illegal (R46). -/
def Order.ofCode (c : BitVec 3) : Option Order :=
  match c.toNat with
  | 0 => some .rlx | 1 => some .acq | 2 => some .rel | 3 => some .ar | _ => none

def Scope.code : Scope → BitVec 3
  | .core => 0 | .clu => 1 | .die => 2 | .dev => 3 | .sys => 4

/-- Scope codes; 5 to 7 are illegal (R46). -/
def Scope.ofCode (c : BitVec 3) : Option Scope :=
  match c.toNat with
  | 0 => some .core | 1 => some .clu | 2 => some .die | 3 => some .dev | 4 => some .sys | _ => none

def Cache.code : Cache → BitVec 3
  | .normal => 0 | .stream => 1 | .keep => 2 | .bypass => 3 | .home => 4

/-- Cache codes; 5 to 7 are illegal (R46). -/
def Cache.ofCode (c : BitVec 3) : Option Cache :=
  match c.toNat with
  | 0 => some .normal | 1 => some .stream | 2 => some .keep | 3 => some .bypass | 4 => some .home | _ => none

def Size.code : Size → BitVec 2
  | .b => 0 | .h => 1 | .w => 2 | .d => 3

/-- Access sizes of the M format (R12). -/
def Size.ofCode (c : BitVec 2) : Size :=
  match c.toNat with
  | 0 => .b | 1 => .h | 2 => .w | _ => .d

/-- The size codes of UPDE, fm of the Q format (R45). -/
def Size.qcode : Size → BitVec 2
  | .w => 0 | .d => 1 | .h => 2 | .b => 3

def Size.ofQcode (c : BitVec 2) : Size :=
  match c.toNat with
  | 0 => .w | 1 => .d | 2 => .h | _ => .b

def Cond.code : Cond → BitVec 4
  | .eq => 0 | .ne => 1 | .lt => 2 | .ge => 3 | .le => 4 | .gt => 5 | .ltn => 6 | .gen => 7 | .len => 8
  | .gtn => 9 | .bs => 10 | .bc => 11

/-- Conditions 0 to 11 (R45, R48). -/
def Cond.ofCode (c : BitVec 4) : Option Cond :=
  match c.toNat with
  | 0 => some .eq | 1 => some .ne | 2 => some .lt | 3 => some .ge | 4 => some .le | 5 => some .gt
  | 6 => some .ltn | 7 => some .gen | 8 => some .len | 9 => some .gtn | 10 => some .bs | 11 => some .bc
  | _ => none

def VCond.code : VCond → BitVec 4
  | .eq => 0 | .ne => 1 | .lt => 2 | .ge => 3 | .le => 4 | .gt => 5 | .un => 6

/-- Conditions of VCMP (R195). -/
def VCond.ofCode (c : BitVec 4) : Option VCond :=
  match c.toNat with
  | 0 => some .eq | 1 => some .ne | 2 => some .lt | 3 => some .ge | 4 => some .le | 5 => some .gt
  | 6 => some .un | _ => none

def AtomOp.code : AtomOp → BitVec 4
  | .add => 0 | .and => 1 | .or => 2 | .xor => 3 | .min => 4 | .max => 5 | .minn => 6 | .maxn => 7 | .xchg => 8

/-- ATOM operations 0 to 8 (R45). -/
def AtomOp.ofCode (c : BitVec 4) : Option AtomOp :=
  match c.toNat with
  | 0 => some .add | 1 => some .and | 2 => some .or | 3 => some .xor | 4 => some .min | 5 => some .max
  | 6 => some .minn | 7 => some .maxn | 8 => some .xchg | _ => none

def FenceKind.code : FenceKind → BitVec 2
  | .full => 0 | .acq => 1 | .rel => 2

/-- FENCE kinds (R45). -/
def FenceKind.ofCode (c : BitVec 2) : Option FenceKind :=
  match c.toNat with
  | 0 => some .full | 1 => some .acq | 2 => some .rel | _ => none

def TlCtx.code : TlCtx → BitVec 2
  | .fa => 0 | .mx => 1 | .ea => 2 | .sq => 3

/-- Timeline contexts (R45). -/
def TlCtx.ofCode (c : BitVec 2) : TlCtx :=
  match c.toNat with
  | 0 => .fa | 1 => .mx | 2 => .ea | _ => .sq

def RedOp.code : RedOp → BitVec 3
  | .add => 0 | .min => 1 | .max => 2 | .and => 3 | .or => 4 | .xor => 5

/-- Operations of the reductions (R203). -/
def RedOp.ofCode (c : BitVec 3) : Option RedOp :=
  match c.toNat with
  | 0 => some .add | 1 => some .min | 2 => some .max | 3 => some .and | 4 => some .or | 5 => some .xor
  | _ => none

def StredOp.code : StredOp → BitVec 2
  | .store => 0 | .add => 1 | .min => 2 | .max => 3

/-- Operations of STRED (R225). -/
def StredOp.ofCode (c : BitVec 2) : StredOp :=
  match c.toNat with
  | 0 => .store | 1 => .add | 2 => .min | _ => .max

def KOpc.code : KOpc → BitVec 7
  | .and => 0 | .or => 1 | .xor => 2 | .andn => 3 | .not => 4

/-- KOP operations (R204). -/
def KOpc.ofCode (c : BitVec 7) : Option KOpc :=
  match c.toNat with
  | 0 => some .and | 1 => some .or | 2 => some .xor | 3 => some .andn | 4 => some .not | _ => none

def LdvtMode.code : LdvtMode → BitVec 2
  | .direct => 0 | .trans => 1 | .stack => 2

/-- LDVT modes; 3 is illegal (R214). -/
def LdvtMode.ofCode (c : BitVec 2) : Option LdvtMode :=
  match c.toNat with
  | 0 => some .direct | 1 => some .trans | 2 => some .stack | _ => none

/-- A flag bit. -/
def bit (b : Bool) : BitVec 1 := BitVec.ofBool b

/-- A one-bit field as a flag. -/
def flag (b : BitVec 1) : Bool := b == 1

/-- The non-blocking bits fn[7:4] of R267. -/
def Block.code : Block → BitVec 4
  | .blocking => 0
  | .nb p => BitVec.ofNat 4 (8 + p.toNat)

def Block.ofCode (c : BitVec 4) : Option Block :=
  if c.toNat ≥ 8 then some (.nb (BitVec.ofNat 3 c.toNat)) else if c == 0 then some .blocking else none

/-! ### CTL -/

/-- SYS, opcode 0x00 (R129, R315, R297, R298, R80). -/
def decodeSys (d a b : BitVec 6) (fn : Nat) : Option Instr :=
  match fn with
  | 0x00 => do req (d == 0 && a == 0 && b == 0); some .nop
  | 0x01 => do req (d == 0 && a == 0 && b == 0); some .halt
  | 0x02 => do req (d == 0 && a == 0 && b == 0); some .yield
  | 0x03 => do req (d == 0 && a == 0 && b == 0); some .wfe
  | 0x04 => do req (d == 0 && a == 0); some (.trap b)
  | 0x05 => do req (d == 0 && a == 0 && b == 0); some .eret
  | 0x06 => some (.psave d a b)
  | 0x07 => some (.prest d a b)
  | 0x08 => do req (d == 0); some (.tlbi a b)
  | 0x09 => some (.keyrev d a b)
  | 0x0A => do req (d == 0 && a == 0 && b == 0); some .icflush
  | 0x0B => do req (a == 0 && b == 0); some (.slipr d)
  | 0x0C => do req (b == 0); some (.preempt d a)
  | _ => none

/-- INT, opcode 0x03 (R119). -/
def decodeInt (d a b : BitVec 6) (fn : Nat) : Option Instr :=
  match fn with
  | 0x00 => some (.add d a b)
  | 0x01 => some (.sub d a b)
  | 0x02 => some (.mul d a b)
  | 0x03 => some (.mulh d a b)
  | 0x04 => some (.mulhn d a b)
  | 0x05 => some (.div d a b)
  | 0x06 => some (.divn d a b)
  | 0x07 => some (.rem d a b)
  | 0x08 => some (.remn d a b)
  | 0x10 => some (.and d a b)
  | 0x11 => some (.or d a b)
  | 0x12 => some (.xor d a b)
  | 0x13 => some (.andn d a b)
  | 0x14 => some (.shl d a b)
  | 0x15 => some (.shr d a b)
  | 0x16 => some (.sra d a b)
  | 0x17 => some (.rot d a b)
  | 0x18 => some (.min d a b)
  | 0x19 => some (.max d a b)
  | 0x1A => some (.minn d a b)
  | 0x1B => some (.maxn d a b)
  | 0x20 => do req (b == 0); some (.clz d a)
  | 0x21 => do req (b == 0); some (.ctz d a)
  | 0x22 => do req (b == 0); some (.popc d a)
  | 0x23 => do req (b == 0); some (.bswap d a)
  | _ => none

/-- PLOG, opcode 0x10 (R124); predicates use bits [2:0] of a field, bits [5:3] are zero (R44). -/
def decodePlog (fn : Nat) (w : BitVec 32) : Option Instr :=
  match fn with
  | 0 => do req (fld w 23 3 == 0 && fld w 17 3 == 0 && fld w 11 3 == 0)
            some (.pand (fld w 20 3) (fld w 14 3) (fld w 8 3))
  | 1 => do req (fld w 23 3 == 0 && fld w 17 3 == 0 && fld w 11 3 == 0)
            some (.por (fld w 20 3) (fld w 14 3) (fld w 8 3))
  | 2 => do req (fld w 23 3 == 0 && fld w 17 3 == 0 && fld w 11 3 == 0)
            some (.pxor (fld w 20 3) (fld w 14 3) (fld w 8 3))
  | 3 => do req (fld w 23 3 == 0 && fld w 17 3 == 0 && fld w 11 3 == 0)
            some (.pandn (fld w 20 3) (fld w 14 3) (fld w 8 3))
  | 4 => do req (fld w 23 3 == 0 && fld w 17 3 == 0 && fld w 11 3 == 0 && fld w 8 3 == 0)
            some (.pnot (fld w 20 3) (fld w 14 3))
  | 5 => do req (fld w 23 3 == 0); some (.pfrom (fld w 20 3) (fld w 14 6) (fld w 8 6))
  | 6 => do req (fld w 17 3 == 0 && fld w 11 3 == 0 && fld w 8 3 == 0); some (.pto (fld w 20 6) (fld w 14 3))
  | _ => none

/-- JR, opcode 0x15 (R127). -/
def decodeJr (d a b : BitVec 6) (fn : Nat) : Option Instr :=
  match fn with
  | 0 => do req (d == 0 && b == 0); some (.jr a)
  | 1 => do req (d == 0 && a == 0 && b == 0); some .ret
  | 2 => do req (d == 0 && b == 0); some (.callr a)
  | _ => none

/-- FE, opcode 0x1B (R252). -/
def decodeFe (d a b : BitVec 6) (fn : Nat) : Option Instr :=
  match fn with
  | 0 => do req (b == 0); some (.ldfe d a)
  | 1 => do req (b == 0); some (.ldf d a)
  | 2 => do req (d == 0); some (.stfe a b)
  | 3 => do req (d == 0); some (.stf a b)
  | 4 => do req (b == 0); some (.feprobe d a)
  | _ => none

/-- TOK, opcode 0x1D (R32): operation in fn[4:2], peer in fn[1:0]. -/
def decodeTok (op : Nat) (d a : BitVec 6) (e : BitVec 2) : Option Instr :=
  match op with
  | 0 => do req (d == 0 && a == 0); some (.tkpush e)
  | 1 => do req (d == 0); some (.tkpushv a e)
  | 2 => do req (d == 0 && a == 0); some (.tkpop e)
  | 3 => do req (a == 0); some (.tkpopv d e)
  | 4 => do req (a == 0); some (.tkcnt d e)
  | _ => none

/-- TL, opcode 0x1E (R45): operation in fn[3:2], context in fn[1:0]. -/
def decodeTl (op : Nat) (x : TlCtx) (w : BitVec 32) : Option Instr :=
  match op with
  | 0 => do req (fld w 14 6 == 0); some (.tlread (fld w 20 6) x)
  | 1 => do req (fld w 23 3 == 0 && fld w 20 3 == 0); some (.tlwait x (fld w 14 6))
  | 2 => do req (fld w 23 3 == 0); some (.tlwaitp (fld w 20 3) x (fld w 14 6))
  | _ => none

/-- LAUNCH, opcode 0x20 (R45). -/
def decodeLaunch (d a b : BitVec 6) (fn : Nat) : Option Instr :=
  match fn with
  | 0 => do req (b == 0); some (.launch d a)
  | 1 => do req (b == 0); some (.lstat d a)
  | 2 => do req (b == 0); some (.lcancel d a)
  | 3 => do req (d == 0 && a == 0 && b == 0); some .done
  | _ => none

/-- VAL, opcode 0x22 (R104); HMOV's b holds a zero bit, restrict, and the rights kept. -/
def decodeVal (fn : Nat) (w : BitVec 32) : Option Instr :=
  let d := fld w 20 6
  let a := fld w 14 6
  let b5 := fld w 13 1
  let b4 := fld w 12 1
  let b3 := fld w 8 4
  match fn with
  | 0 => do req (b5 == 0 && b4 == 0 && b3 == 0); some (.dup d a)
  | 1 => do req (d == 0 && b5 == 0 && b4 == 0 && b3 == 0); some (.drop a)
  | 2 => do req (b5 == 0 && b4 == 0 && b3 == 0); some (.tcount d a)
  | 3 => do req (b5 == 0 && b4 == 0 && b3 == 0); some (.tinfo d a)
  | 4 => some (.tlde d a (fld w 8 6))
  | 5 => do req (b5 == 0); some (.hmov d a (flag b4) b3)
  | 6 => do req (d == 0 && b5 == 0 && b4 == 0 && b3 == 0); some (.hnull a)
  | 7 => some (.hcmp d a (fld w 8 6))
  | 8 => do req (b5 == 0 && b4 == 0 && b3 == 0); some (.hget d a)
  | 9 => do req (b5 == 0 && b4 == 0 && b3 == 0); some (.hput d a)
  | 10 => do req (b5 == 0 && b4 == 0 && b3 == 0); some (.uniq d a)
  | _ => none

/-- STRM, opcode 0x24 (R267): operation in fn[3:0], the non-blocking bits in fn[7:4]. -/
def decodeStrm (op : Nat) (d a b : BitVec 6) (nb : Block) : Option Instr :=
  match op with
  | 0 => do req (nb == .blocking); some (.sopen d a b)
  | 1 => do req (d == 0); some (.spush a b nb)
  | 2 => some (.spushh d a b nb)
  | 3 => do req (b == 0); some (.spop d a nb)
  | 4 => some (.spoph d a b nb)
  | 5 => do req (nb == .blocking && b == 0); some (.sstat d a)
  | 6 => do req (nb == .blocking && d == 0 && b == 0); some (.sclose a)
  | _ => none

/-- WIN, opcode 0x25 (R104, R299). -/
def decodeWin (d a b : BitVec 6) (fn : Nat) : Option Instr :=
  match fn with
  | 0 => do req (b == 0); some (.gopen d a)
  | 1 => do req (d == 0 && b == 0); some (.gseal a)
  | 2 => do req (d == 0 && b == 0); some (.gwait a)
  | 3 => do req (b == 0); some (.racq d a)
  | 4 => do req (d == 0 && b == 0); some (.rrel a)
  | _ => none

/-- The fields of a CTL word, by opcode (R45), before the operand ranges are checked. -/
def rawCtlOp (op : Nat) (w : BitVec 32) : Option Instr :=
  let d := fld w 20 6
  let a := fld w 14 6
  let b := fld w 8 6
  let fn := fld w 0 8
  match op with
  | 0x00 => decodeSys d a b fn.toNat
  | 0x01 => do req (a == 0 && fld w 12 2 == 0); some (.csrr d (fld w 0 12))
  | 0x02 => do req (d == 0 && fld w 12 2 == 0); some (.csrw a (fld w 0 12))
  | 0x03 => decodeInt d a b fn.toNat
  | 0x04 => some (.addi d a (fld w 0 14))
  | 0x05 => some (.andi d a (fld w 0 14))
  | 0x06 => some (.ori d a (fld w 0 14))
  | 0x07 => some (.xori d a (fld w 0 14))
  | 0x08 => do req (fld w 6 8 == 0); some (.shli d a (fld w 0 6))
  | 0x09 => do req (fld w 6 8 == 0); some (.shri d a (fld w 0 6))
  | 0x0A => do req (fld w 6 8 == 0); some (.srai d a (fld w 0 6))
  | 0x0B => some (.muli d a (fld w 0 14))
  | 0x0C => some (.li d (fld w 0 20))
  | 0x0D => do req (fld w 16 2 == 0); some (.lik d (fld w 18 2) (fld w 0 16))
  | 0x0E => do
      req (fld w 22 1 == 0 && fld w 0 6 == 0)
      let cc ← Cond.ofCode (fld w 18 4)
      some (.cmp (fld w 23 3) cc (fld w 12 6) (fld w 6 6))
  | 0x0F => do
      req (fld w 22 1 == 0)
      let cc ← Cond.ofCode (fld w 18 4)
      req ((cc != .bs && cc != .bc) || (fld w 0 12).toNat < 64)
      some (.cmpi (fld w 23 3) cc (fld w 12 6) (fld w 0 12))
  | 0x10 => decodePlog fn.toNat w
  | 0x11 => do req (fld w 4 4 == 0); some (.sel d a b (flag (fld w 3 1)) (fld w 0 3))
  | 0x12 => some (.lea d a b (fld w 3 5) (fld w 0 3))
  | 0x13 => some (if flag (fld w 22 1) then .brn (fld w 23 3) (fld w 0 22) else .br (fld w 23 3) (fld w 0 22))
  | 0x14 => some (.call (fld w 0 26))
  | 0x15 => decodeJr d a b fn.toNat
  | 0x16 => do req (d == 0 && fld w 6 8 == 0); some (.loop a (fld w 0 6))
  | 0x17 => some (.lds d a (fld w 2 12) (Size.ofCode (fld w 0 2)))
  | 0x18 => some (.sts d a (fld w 2 12) (Size.ofCode (fld w 0 2)))
  | 0x19 => do
      req (fld w 5 3 == 1)
      let op ← AtomOp.ofCode (fld w 0 4)
      some (.atom op (flag (fld w 4 1)) d a b)
  | 0x1A => do req (fld w 5 3 == 1 && fld w 0 4 == 0); some (.cas (flag (fld w 4 1)) d a b)
  | 0x1B => decodeFe d a b fn.toNat
  | 0x1C => do
      req (d == 0 && a == 0 && b == 0 && fld w 5 3 == 0)
      let k ← FenceKind.ofCode (fld w 3 2)
      let s ← Scope.ofCode (fld w 0 3)
      some (.fence k s)
  | 0x1D => do req (b == 0 && fld w 5 3 == 0); decodeTok (fld w 2 3).toNat d a (fld w 0 2)
  | 0x1E => do req (b == 0 && fld w 4 4 == 0); decodeTl (fld w 2 2).toNat (TlCtx.ofCode (fld w 0 2)) w
  | 0x1F => do req (d == 0 && a == 0 && b == 0 && fld w 3 5 == 0); some (.dbar (fld w 0 3))
  | 0x20 => decodeLaunch d a b fn.toNat
  | 0x21 => do
      req (fld w 4 4 == 0)
      let t ← Elem.ofCode (fld w 0 4)
      some (.talloc d a b t)
  | 0x22 => decodeVal fn.toNat w
  | 0x23 => some (.upde d a b (fld w 2 6) (Size.ofQcode (fld w 0 2)))
  | 0x24 => do let nb ← Block.ofCode (fld w 4 4); decodeStrm (fld w 0 4).toNat d a b nb
  | 0x25 => decodeWin d a b fn.toNat
  | 0x3E => do
      req (fld w 0 17 == 0)
      let o ← Order.ofCode (fld w 23 3)
      let s ← Scope.ofCode (fld w 20 3)
      let c ← Cache.ofCode (fld w 17 3)
      some (.mod o s c)
  | _ => none

/-- The fields of a CTL word, before the operand ranges are checked. -/
def rawCtl (w : BitVec 32) : Option Instr := rawCtlOp (fld w 26 6).toNat w

/-- The instruction a CTL word holds, or none for an illegal encoding (R55). -/
def decodeCtl (w : BitVec 32) : Option Instr := (rawCtl w).filter Instr.wf

/-! ### Wide words -/

/-- POP and PUSH of a wide word (R47). -/
def clauseOf (w : BitVec 64) : Clause := ⟨fld w 53 3, fld w 50 3⟩

/-- The common wide set, opcodes 0x00 to 0x1F (R49). -/
def rawCommon (op : Nat) (w : BitVec 64) : Option Instr :=
  let c := clauseOf w
  let ad := fld w 45 5
  let aa := fld w 40 5
  let ab := fld w 35 5
  let imm := fld w 3 32
  let fn := fld w 0 3
  let off := fld w 16 20
  match op with
  | 0x00 => do req (ad == 0 && aa == 0 && ab == 0 && imm == 0 && fn == 0); some (.nopWide c)
  | 0x01 => do req (imm == 0 && fn == 0); some (.aadd c ad aa ab)
  | 0x02 => do req (imm == 0 && fn == 0); some (.asub c ad aa ab)
  | 0x03 => do req (ab == 0 && fn == 0); some (.aaddi c ad aa imm)
  | 0x04 => do req (imm == 0 && fn == 0); some (.amul c ad aa ab)
  | 0x05 => do
      req (fld w 2 1 == 0 && fld w 1 1 == 0 && fld w 9 26 == 0)
      if flag (fld w 0 1) then do req (ab == 0); some (.ashl c ad aa (.imm (fld w 3 6)))
      else do req (fld w 3 6 == 0); some (.ashl c ad aa (.reg ab))
  | 0x06 => do
      req (fld w 2 1 == 0 && fld w 9 26 == 0)
      if flag (fld w 0 1) then do req (ab == 0); some (.ashr c ad aa (.imm (fld w 3 6)) (flag (fld w 1 1)))
      else do req (fld w 3 6 == 0); some (.ashr c ad aa (.reg ab) (flag (fld w 1 1)))
  | 0x07 => do req (imm == 0 && fn == 0); some (.aand c ad aa ab)
  | 0x08 => do req (aa == 0 && ab == 0 && fn == 0); some (.ali c ad imm)
  | 0x09 => do req (aa == 0 && ab == 0 && fn == 0); some (.alih c ad imm)
  | 0x0A => do
      req (fld w 0 16 == 0)
      let cc ← Cond.ofCode (fld w 36 4)
      some (.abr c ad aa cc off)
  | 0x0B => do req (ad == 0 && aa == 0 && fld w 36 4 == 0 && fld w 0 16 == 0); some (.aj c off)
  | 0x0C => do req (c == ⟨0, 0⟩ && fld w 0 38 == 0); some (.aloop ad (fld w 38 7))
  | 0x0D => do req (ad == 0 && aa == 0 && ab == 0 && imm == 0 && fn == 0); some (.aend c)
  | 0x0E => do req (ab == 0 && imm == 0 && fld w 2 1 == 0); some (.tkv c ad aa (flag (fld w 1 1)) (flag (fld w 0 1)))
  | 0x0F => do req (aa == 0 && ab == 0 && fld w 15 20 == 0 && fn == 0); some (.acsrr c ad (fld w 3 12))
  | 0x10 => do req (ad == 0 && ab == 0 && fld w 15 20 == 0 && fn == 0); some (.acsrw c aa (fld w 3 12))
  | 0x11 => do
      req (fld w 0 28 == 0)
      some (.rep c (fld w 44 6) (fld w 40 4) (fld w 36 4) (fld w 32 4) (fld w 28 4))
  | 0x12 => do
      req (c == ⟨0, 0⟩ && fld w 0 41 == 0)
      let o ← Order.ofCode (fld w 47 3)
      let s ← Scope.ofCode (fld w 44 3)
      let k ← Cache.ofCode (fld w 41 3)
      some (.modWide o s k)
  | 0x13 => do
      req (ad == 0 && ab == 0 && imm == 0 && fld w 2 1 == 0)
      some (.tlwaitWide c (TlCtx.ofCode (fld w 0 2)) aa)
  | _ => none

/-- FET's own words (R51, R212 to R220, R230, R275). -/
def rawFet (op : Nat) (w : BitVec 64) : Option Instr :=
  let c := clauseOf w
  let vd := fld w 41 9
  let hi := fld w 47 3
  let hd := fld w 41 6
  let base := fld w 36 5
  let idx := fld w 31 5
  let off := fld w 11 20
  let x := fld w 0 7
  let k := fld w 11 3
  match op with
  | 0x20 => do req (hi == 0 && x == 0); let t ← Elem.ofCode (fld w 7 4); some (.ldt c t hd base idx off)
  | 0x21 => do req (x == 0); let t ← Elem.ofCode (fld w 7 4); some (.ldv c t vd base idx off)
  | 0x22 => do req (x == 0); let t ← Elem.ofCode (fld w 7 4); some (.ldva c t vd base idx off)
  | 0x23 => do
      req (fld w 38 3 == 0 && fld w 26 6 == 0 && fld w 3 1 == 0)
      let t ← Elem.ofCode (fld w 4 4)
      let m ← LdvtMode.ofCode (fld w 0 2)
      some (.ldvt c t vd (fld w 32 6) (fld w 8 9) (fld w 17 9) m (flag (fld w 2 1)))
  | 0x24 => do
      req (fld w 23 9 == 0 && fld w 14 9 == 0 && fld w 5 2 == 0)
      let t ← Elem.ofCode (fld w 7 4)
      some (.gath c t k vd (fld w 32 9) (fld w 0 5))
  | 0x25 => do
      req (fld w 28 4 == 0 && fld w 19 4 == 0 && x == 0)
      let t ← Elem.ofCode (fld w 7 4)
      some (.btgath c t k vd (fld w 32 9) (fld w 23 5) (fld w 14 5))
  | 0x26 => do req (vd == 0 && idx == 0 && fld w 7 4 == 0 && x == 0); some (.cec c base off)
  | 0x27 => do req (vd == 0 && idx == 0 && fld w 7 4 == 0 && x == 0); some (.cedup c base off)
  | 0x28 => do req (hi == 0 && idx == 0 && fld w 7 4 == 0 && x == 0); some (.cecol c hd base off)
  | 0x29 => do req (vd == 0 && idx == 0 && fld w 7 4 == 0 && x == 0); some (.pref c base off)
  | 0x2A => do
      req (fld w 28 5 == 0 && fld w 23 5 == 0 && fld w 7 16 == 0 && x == 0)
      some (.rrot c (fld w 44 6) (fld w 38 6) (fld w 33 5))
  | 0x2B => do
      req (fld w 44 6 == 0 && fld w 33 5 == 0 && fld w 28 5 == 0 && fld w 23 5 == 0 && fld w 7 16 == 0 && x == 0)
      some (.gwaitf c (fld w 38 6))
  | 0x2C => do
      req (fld w 38 3 == 0 && fld w 12 20 == 0 && fld w 4 4 == 0 && fld w 0 4 == 0)
      some (.spopv c vd (fld w 32 6) (fld w 8 4))
  | 0x2D => do
      req (fld w 44 6 == 0 && idx == 0 && fld w 7 4 == 0 && x == 0)
      some (.ldk c (fld w 41 3) base off)
  | _ => none

/-- The arithmetic arms of EXE in the VV format, opcodes 0x50 to 0x65 (R190 to R196). -/
def rawVecA (op : Nat) (w : BitVec 64) : Option Instr :=
  let c := clauseOf w
  let vd := fld w 41 9
  let va := fld w 32 9
  let vb := fld w 23 9
  let vc := fld w 14 9
  let k := fld w 11 3
  let ty := fld w 7 4
  let xh := fld w 1 6
  let sat := flag (fld w 0 1)
  match op with
  | 0x50 => do req (vc == 0 && xh == 0); let t ← VTy.ofCode ty; some (.vadd c t k sat vd va vb)
  | 0x51 => do req (vc == 0 && xh == 0); let t ← VTy.ofCode ty; some (.vsub c t k sat vd va vb)
  | 0x52 => do req (vc == 0 && xh == 0); let t ← VTy.ofCode ty; some (.vmul c t k sat vd va vb)
  | 0x53 => do req (xh == 0); let t ← VTy.ofCode ty; some (.vfma c t k sat vd va vb vc)
  | 0x54 => do req (xh == 0); let t ← VTy.ofCode ty; some (.vfnma c t k sat vd va vb vc)
  | 0x55 => do req (vc == 0 && fld w 0 7 == 0); let t ← VTy.ofCode ty; some (.vmin c t k vd va vb)
  | 0x56 => do req (vc == 0 && fld w 0 7 == 0); let t ← VTy.ofCode ty; some (.vmax c t k vd va vb)
  | 0x57 => do req (vb == 0 && vc == 0 && xh == 0); let t ← VTy.ofCode ty; some (.vabs c t k sat vd va)
  | 0x58 => do req (vb == 0 && vc == 0 && xh == 0); let t ← VTy.ofCode ty; some (.vneg c t k sat vd va)
  | 0x59 => do req (vb == 0 && vc == 0 && ty == 0 && fld w 0 7 == 0); some (.vrcp c k vd va)
  | 0x5A => do req (vb == 0 && vc == 0 && ty == 0 && fld w 0 7 == 0); some (.vrsq c k vd va)
  | 0x5B => do req (vb == 0 && vc == 0 && ty == 0 && fld w 0 7 == 0); some (.vexp2 c k vd va)
  | 0x5C => do req (vb == 0 && vc == 0 && ty == 0 && fld w 0 7 == 0); some (.vlog2 c k vd va)
  | 0x5D => do
      req (fld w 44 6 == 0 && vc == 0 && fld w 4 3 == 0)
      let t ← VTy.ofCode ty
      let cc ← VCond.ofCode (fld w 0 4)
      some (.vcmp c t cc k (fld w 41 3) va vb)
  | 0x5E => do req (vc == 0 && ty == 0 && fld w 0 7 == 0); some (.vsel c k vd va vb)
  | 0x5F => do req (vb == 0 && vc == 0 && ty == 0 && fld w 0 7 == 0); some (.vmov c k vd va)
  | 0x60 => do req (vc == 0 && ty == 0 && fld w 0 7 == 0); some (.vand c k vd va vb)
  | 0x61 => do req (vc == 0 && ty == 0 && fld w 0 7 == 0); some (.vor c k vd va vb)
  | 0x62 => do req (vc == 0 && ty == 0 && fld w 0 7 == 0); some (.vxor c k vd va vb)
  | 0x63 => do
      req (vc == 0 && ty == 0 && fld w 6 1 == 0)
      if flag (fld w 5 1) then do req (vb == 0); some (.vshl c k vd va (.imm (fld w 0 5)))
      else do req (fld w 0 5 == 0); some (.vshl c k vd va (.reg vb))
  | 0x64 => do
      req (vc == 0 && ty == 0 && fld w 6 1 == 0)
      if flag (fld w 5 1) then do req (vb == 0); some (.vshr c k vd va (.imm (fld w 0 5)))
      else do req (fld w 0 5 == 0); some (.vshr c k vd va (.reg vb))
  | 0x65 => do
      req (vc == 0 && ty == 0 && fld w 6 1 == 0)
      if flag (fld w 5 1) then do req (vb == 0); some (.vsra c k vd va (.imm (fld w 0 5)))
      else do req (fld w 0 5 == 0); some (.vsra c k vd va (.reg vb))
  | _ => none

/-- KMOV's source, by X (R204). -/
def decodeKSrc (x : Nat) (ka : BitVec 3) : Option KSrc :=
  match x with
  | 0 => some (.copy ka)
  | 1 => do req (ka == 0); some .ones
  | 2 => do req (ka == 0); some .zeros
  | _ => none

/-- The other vector words of EXE, opcodes 0x66 to 0x7C (R197 to R205, R173). -/
def rawVecB (op : Nat) (w : BitVec 64) : Option Instr :=
  let c := clauseOf w
  let vd := fld w 41 9
  let va := fld w 32 9
  let vb := fld w 23 9
  let vc := fld w 14 9
  let k := fld w 11 3
  let ty := fld w 7 4
  let xh := fld w 1 6
  let sat := flag (fld w 0 1)
  match op with
  | 0x66 => do
      req (fld w 37 4 == 0 && fld w 4 4 == 0 && fld w 1 3 == 0)
      if flag (fld w 0 1) then do req (fld w 32 5 == 0); some (.vmovi c vd (.imm (fld w 8 24)))
      else do req (fld w 8 24 == 0); some (.vmovi c vd (.reg (fld w 32 5)))
  | 0x67 => do
      req (fld w 37 4 == 0 && fld w 4 4 == 0 && fld w 0 4 == 0)
      some (.viota c vd (fld w 32 5) (fld w 8 24))
  | 0x68 => do
      req (vb == 0 && vc == 0 && fld w 5 2 == 0)
      let dst ← Elem.ofCode ty
      let src ← Elem.ofCode (fld w 0 4)
      some (.vcvt c dst src k (flag (fld w 4 1)) vd va)
  | 0x69 => do req (vb == 0 && vc == 0 && xh == 0); let t ← LogTy.ofCode ty; some (.vlcvt c t k sat vd va)
  | 0x6A => do req (vb == 0 && vc == 0 && fld w 0 7 == 0); let t ← LogTy.ofCode ty; some (.vlexp c t k vd va)
  | 0x6B => do req (vc == 0 && xh == 0); let t ← LogTy.ofCode ty; some (.vlmul c t k sat vd va vb)
  | 0x6C => do req (vb == 0 && vc == 0 && k == 0 && ty == 8 && xh == 0); some (.vpack6 c sat vd va)
  | 0x6D => do req (vb == 0 && vc == 0 && k == 0 && ty == 8 && fld w 0 7 == 0); some (.vunpk6 c vd va)
  | 0x6E => do req (vb == 0 && vc == 0 && fld w 0 7 == 0); let t ← VTy.ofCode ty; some (.vcmpr c t k vd va)
  | 0x6F => do req (vb == 0 && vc == 0 && ty == 0 && fld w 0 7 == 0); some (.vexpd c k vd va)
  | 0x70 => do req (vb == 0 && vc == 0 && ty == 0 && fld w 6 1 == 0); some (.vrotr c k vd va (fld w 0 6))
  | 0x71 => do req (vb == 0 && vc == 0 && ty == 0 && fld w 4 3 == 0); some (.vrotc c k vd va (fld w 0 4))
  | 0x72 => do req (vb == 0 && vc == 0 && ty == 0 && fld w 6 1 == 0); some (.vbcr c k vd va (fld w 0 6))
  | 0x73 => do req (vb == 0 && vc == 0 && ty == 0 && fld w 4 3 == 0); some (.vbcc c k vd va (fld w 0 4))
  | 0x74 => do
      req (vb == 0 && vc == 0 && fld w 4 3 == 0 && fld w 3 1 == 0)
      let t ← VTy.ofCode ty
      let op ← RedOp.ofCode (fld w 0 3)
      some (.vredr c t op k vd va)
  | 0x75 => do
      req (vb == 0 && vc == 0 && fld w 4 3 == 0 && fld w 3 1 == 0)
      let t ← VTy.ofCode ty
      let op ← RedOp.ofCode (fld w 0 3)
      some (.vredc c t op k vd va)
  | 0x76 => do
      req (vb == 0 && vc == 0 && fld w 4 3 == 0)
      let t ← VTy.ofCode ty
      let op ← RedOp.ofCode (fld w 0 3)
      some (.vscnr c t op (flag (fld w 3 1)) k vd va)
  | 0x78 => do
      req (fld w 44 6 == 0 && fld w 35 6 == 0 && fld w 26 6 == 0 && vc == 0 && k == 0 && ty == 0)
      let op ← KOpc.ofCode (fld w 0 7)
      some (.kop c op (fld w 41 3) (fld w 32 3) (fld w 23 3))
  | 0x79 => do
      req (fld w 44 6 == 0 && fld w 35 6 == 0 && vb == 0 && vc == 0 && k == 0 && ty == 0)
      let src ← decodeKSrc (fld w 0 7).toNat (fld w 32 3)
      some (.kmov c (fld w 41 3) src)
  | 0x7A => do
      req (vd == 0 && va == 0 && fld w 12 20 == 0 && fld w 4 4 == 0 && fld w 1 3 == 0)
      some (.blend c (fld w 8 4) (flag (fld w 0 1)))
  | 0x7B => do
      req (fld w 46 4 == 0 && fld w 18 14 == 0 && fld w 4 4 == 0 && fld w 1 3 == 0)
      some (.vtoa c (fld w 41 5) va (fld w 14 4) (fld w 8 6) (flag (fld w 0 1)))
  | 0x7C => do
      req (fld w 37 4 == 0 && fld w 18 14 == 0 && fld w 4 4 == 0 && fld w 0 4 == 0)
      some (.atov c vd (fld w 32 5) (fld w 14 4) (fld w 8 6))
  | _ => none

/-- The A operand's field, by AS (R53); its high bits are zero where it is shorter than six bits. -/
def decodeA (as : BitVec 2) (spec : BitVec 6) : Option ASrc :=
  match as.toNat with
  | 0 => some (.handle spec)
  | 1 => if spec.toNat < 32 then some (.va (BitVec.ofNat 5 spec.toNat)) else none
  | 2 => if spec.toNat < 16 then some (.bank (BitVec.ofNat 4 spec.toNat)) else none
  | _ => none

/-- The B operand's field, by BV (R53). -/
def decodeB (bv : BitVec 1) (spec : BitVec 6) : Option BSrc :=
  if flag bv then (if spec.toNat < 32 then some (.va (BitVec.ofNat 5 spec.toNat)) else none)
  else some (.handle spec)

/-- The destination of MDRAIN; the fields it leaves unused are zero (R54). -/
def decodeDest (sel : Nat) (hd : BitVec 6) (vb : BitVec 9) (sh : BitVec 5) : Option Dest :=
  match sel with
  | 0 => do req (vb == 0 && sh == 0); some (.tile hd)
  | 1 => do req (hd == 0 && sh == 0); some (.vregs vb)
  | 2 => do req (hd == 0 && vb == 0); some (.store sh)
  | _ => do req (hd == 0 && vb == 0); some (.add sh)

/-- The matrix words of EXE, opcodes 0xA0 to 0xA7 (R52 to R54); `v` is the second dword. -/
def rawMatrix (op : Nat) (w v : BitVec 64) : Option Instr :=
  let c := clauseOf w
  match op with
  | 0xA0 => do req (fld w 46 4 == 0 && fld w 0 45 == 0); some (.mlease c (flag (fld w 45 1)))
  | 0xA1 => do req (fld w 0 50 == 0); some (.mrel c)
  | 0xA2 => do
      req (fld w 0 4 == 0 && fld v 0 33 == 0)
      let a ← decodeA (fld w 41 2) (fld v 58 6)
      let b ← decodeB (fld w 40 1) (fld v 52 6)
      some (.mma c (MFmt.ofCode (fld w 48 2)) (MFmt.ofCode (fld w 46 2)) (flag (fld w 45 1)) (flag (fld w 44 1))
        (flag (fld w 43 1)) a b (fld w 31 9) (fld w 22 9) (fld w 13 9) (fld w 4 9) (fld v 33 7) (fld v 46 6)
        (fld v 40 6))
  | 0xA3 => do
      req (fld w 40 1 == 0 && fld v 0 27 == 0)
      let a ← decodeA (fld w 41 2) (fld v 58 6)
      some (.mmag c (MFmt.ofCode (fld w 48 2)) (MFmt.ofCode (fld w 46 2)) (flag (fld w 45 1)) (flag (fld w 44 1))
        (flag (fld w 43 1)) a (fld v 52 6) (fld v 46 6) (fld w 0 4) (fld w 31 9) (fld w 22 9) (fld w 13 9)
        (fld w 4 9) (fld v 33 7) (fld v 40 6) (fld v 27 6))
  | 0xA4 => do
      req (fld w 40 10 == 0 && fld w 13 2 == 0 && fld w 0 4 == 0)
      some (.mzero c (fld w 31 9) (fld w 22 9) (fld w 15 7) (fld w 4 9))
  | 0xA5 => do
      req (fld w 0 6 == 0 && fld v 0 39 == 0)
      let t ← Elem.ofCode (fld w 44 4)
      let hd := fld v 58 6
      let vb := fld v 49 9
      let sh := fld v 39 5
      let d ← decodeDest (fld w 48 2).toNat hd vb sh
      let scl ← if flag (fld w 42 1) then some (some (fld v 44 5)) else do req (fld v 44 5 == 0); some none
      some (.mdrain c d t (flag (fld w 43 1)) (flag (fld w 41 1)) (flag (fld w 6 1)) scl (fld w 32 9) (fld w 23 9)
        (fld w 16 7) (fld w 7 9))
  | 0xA6 => do req (fld w 1 44 == 0); some (.mstat c (fld w 45 5) (flag (fld w 0 1)))
  | 0xA7 => do
      req (fld w 1 39 == 0)
      if flag (fld w 0 1) then some (.mrowp c (fld w 45 5) (some (fld w 40 5)))
      else do req (fld w 40 5 == 0); some (.mrowp c (fld w 45 5) none)
  | _ => none

/-- EMI's own words (R51, R215, R220 to R225, R275). -/
def rawEmi (op : Nat) (w : BitVec 64) : Option Instr :=
  let c := clauseOf w
  let vd := fld w 41 9
  let hi := fld w 47 3
  let hd := fld w 41 6
  let base := fld w 36 5
  let idx := fld w 31 5
  let off := fld w 11 20
  match op with
  | 0xC0 => do
      req (hi == 0 && base == 0 && fld w 20 11 == 0 && fld w 1 6 == 0)
      let t ← Elem.ofCode (fld w 7 4)
      some (.stv c t (flag (fld w 0 1)) hd (fld w 11 9) idx)
  | 0xC1 => do req (hi == 0 && fld w 0 7 == 0); let t ← Elem.ofCode (fld w 7 4); some (.stt c t hd base idx off)
  | 0xC2 => do
      req (fld w 1 6 == 0)
      let t ← Elem.ofCode (fld w 7 4)
      some (.stva c t (flag (fld w 0 1)) vd base idx off)
  | 0xC3 => do
      req (vd == 0 && fld w 14 9 == 0 && fld w 6 1 == 0)
      let t ← Elem.ofCode (fld w 7 4)
      some (.scat c t (fld w 11 3) (flag (fld w 5 1)) (fld w 32 9) (fld w 23 9) (fld w 0 5))
  | 0xC4 => do
      req (fld w 3 4 == 0)
      let t ← Elem.ofCode (fld w 7 4)
      some (.stred c t (StredOp.ofCode (fld w 0 2)) (flag (fld w 2 1)) vd base idx off)
  | 0xC5 => do
      req (fld w 38 3 == 0 && fld w 12 20 == 0 && fld w 4 4 == 0 && fld w 0 4 == 0)
      some (.spushv c vd (fld w 32 6) (fld w 8 4))
  | 0xC6 => do
      req (fld w 44 6 == 0 && idx == 0 && fld w 7 4 == 0 && fld w 0 7 == 0)
      some (.stk c (fld w 41 3) base off)
  | _ => none

/-- The words of one wide strand by opcode range (R51); CTL fetches none of them. -/
def rawWideOp (st : Strand) (op : Nat) (w v : BitVec 64) : Option Instr :=
  if op < 0x20 then (if st == .ctl then none else rawCommon op w)
  else if op < 0x50 then (if st == .fet then rawFet op w else none)
  else if op < 0x66 then (if st == .exe then rawVecA op w else none)
  else if op < 0xA0 then (if st == .exe then rawVecB op w else none)
  else if op < 0xC0 then (if st == .exe then rawMatrix op w v else none)
  else if op < 0xF0 then (if st == .emi then rawEmi op w else none)
  else none

/-- The words of one wide strand, before the operand ranges are checked. -/
def rawWide (st : Strand) (w v : BitVec 64) : Option Instr := rawWideOp st (fld w 56 8).toNat w v

/-- The instruction a wide word holds in a strand; `v` is the dword after it, which only the two-word matrix
instructions read (R42). -/
def decodeWide (st : Strand) (w v : BitVec 64) : Option Instr := (rawWide st w v).filter Instr.wf

/-- The two-word matrix instructions (R42). -/
def twoWord (w : BitVec 64) : Bool :=
  (fld w 56 8).toNat == 0xA2 || (fld w 56 8).toNat == 0xA3 || (fld w 56 8).toNat == 0xA5

/-- Whether word 0 of a two-word matrix instruction allows one: by its own bits alone it is no illegal encoding (R53 to
R55). -/
def wordZeroOk (w : BitVec 64) : Bool :=
  match (fld w 56 8).toNat with
  | 0xA2 => fld w 0 4 == 0 && fld w 41 2 != 3
  | 0xA3 => fld w 40 1 == 0 && fld w 41 2 != 3
  | 0xA5 =>
    fld w 0 6 == 0 &&
      (match Elem.ofCode (fld w 44 4) with
       | none => false
       | some t => drainTy (if fld w 48 2 == 3 then .add 0 else .store 0) t)
  | _ => false

/-- A word of EXE that is the first of a two-word matrix instruction (R42). -/
def firstOfTwo (st : Strand) (w : BitVec 64) : Bool := st == .exe && twoWord w && wordZeroOk w

/-! ### The encoder -/

/-- A field of an encoding: its width and its bits. -/
abbrev Field := (n : Nat) × BitVec n

/-- A field. -/
def fd {n : Nat} (x : BitVec n) : Field := ⟨n, x⟩

/-- `acc` with a field below it. -/
def cat (acc : Nat) (f : Field) : Nat := acc * 2 ^ f.1 + f.2.toNat

/-- A word from its fields, the highest first. -/
def pack (w : Nat) (fs : List Field) : BitVec w := BitVec.ofNat w (fs.foldl cat 0)

/-- The R format (R43). -/
def encR (op d a b : BitVec 6) (fn : BitVec 8) : BitVec 32 := pack 32 [fd op, fd d, fd a, fd b, fd fn]

/-- The I format (R43). -/
def encI (op d a : BitVec 6) (i : BitVec 14) : BitVec 32 := pack 32 [fd op, fd d, fd a, fd i]

/-- A shift by a number (R121). -/
def encSh (op d a n : BitVec 6) : BitVec 32 := pack 32 [fd op, fd d, fd a, fd 0#8, fd n]

/-- PLOG with three predicates (R124). -/
def encP (d a b : BitVec 3) (fn : BitVec 8) : BitVec 32 :=
  pack 32 [fd 0x10#6, fd 0#3, fd d, fd 0#3, fd a, fd 0#3, fd b, fd fn]

/-- STRM (R267). -/
def encS (d a b : BitVec 6) (nb : Block) (fn : BitVec 4) : BitVec 32 :=
  pack 32 [fd 0x24#6, fd d, fd a, fd b, fd nb.code, fd fn]

/-- The word of a CTL instruction; zero for any other. -/
def encodeCtl : Instr → BitVec 32
  | .nop => encR 0x00 0 0 0 0x00
  | .halt => encR 0x00 0 0 0 0x01
  | .yield => encR 0x00 0 0 0 0x02
  | .wfe => encR 0x00 0 0 0 0x03
  | .trap n => encR 0x00 0 0 n 0x04
  | .eret => encR 0x00 0 0 0 0x05
  | .psave d a b => encR 0x00 d a b 0x06
  | .prest d a b => encR 0x00 d a b 0x07
  | .tlbi a b => encR 0x00 0 a b 0x08
  | .keyrev d a b => encR 0x00 d a b 0x09
  | .icflush => encR 0x00 0 0 0 0x0A
  | .slipr d => encR 0x00 d 0 0 0x0B
  | .preempt d a => encR 0x00 d a 0 0x0C
  | .csrr d c => pack 32 [fd 0x01#6, fd d, fd 0#6, fd 0#2, fd c]
  | .csrw a c => pack 32 [fd 0x02#6, fd 0#6, fd a, fd 0#2, fd c]
  | .add d a b => encR 0x03 d a b 0x00
  | .sub d a b => encR 0x03 d a b 0x01
  | .mul d a b => encR 0x03 d a b 0x02
  | .mulh d a b => encR 0x03 d a b 0x03
  | .mulhn d a b => encR 0x03 d a b 0x04
  | .div d a b => encR 0x03 d a b 0x05
  | .divn d a b => encR 0x03 d a b 0x06
  | .rem d a b => encR 0x03 d a b 0x07
  | .remn d a b => encR 0x03 d a b 0x08
  | .and d a b => encR 0x03 d a b 0x10
  | .or d a b => encR 0x03 d a b 0x11
  | .xor d a b => encR 0x03 d a b 0x12
  | .andn d a b => encR 0x03 d a b 0x13
  | .shl d a b => encR 0x03 d a b 0x14
  | .shr d a b => encR 0x03 d a b 0x15
  | .sra d a b => encR 0x03 d a b 0x16
  | .rot d a b => encR 0x03 d a b 0x17
  | .min d a b => encR 0x03 d a b 0x18
  | .max d a b => encR 0x03 d a b 0x19
  | .minn d a b => encR 0x03 d a b 0x1A
  | .maxn d a b => encR 0x03 d a b 0x1B
  | .clz d a => encR 0x03 d a 0 0x20
  | .ctz d a => encR 0x03 d a 0 0x21
  | .popc d a => encR 0x03 d a 0 0x22
  | .bswap d a => encR 0x03 d a 0 0x23
  | .addi d a i => encI 0x04 d a i
  | .andi d a i => encI 0x05 d a i
  | .ori d a i => encI 0x06 d a i
  | .xori d a i => encI 0x07 d a i
  | .shli d a n => encSh 0x08 d a n
  | .shri d a n => encSh 0x09 d a n
  | .srai d a n => encSh 0x0A d a n
  | .muli d a i => encI 0x0B d a i
  | .li d i => pack 32 [fd 0x0C#6, fd d, fd i]
  | .lik d k i => pack 32 [fd 0x0D#6, fd d, fd k, fd 0#2, fd i]
  | .cmp pd cc a b => pack 32 [fd 0x0E#6, fd pd, fd 0#1, fd cc.code, fd a, fd b, fd 0#6]
  | .cmpi pd cc a i => pack 32 [fd 0x0F#6, fd pd, fd 0#1, fd cc.code, fd a, fd i]
  | .pand d a b => encP d a b 0
  | .por d a b => encP d a b 1
  | .pxor d a b => encP d a b 2
  | .pandn d a b => encP d a b 3
  | .pnot d a => encP d a 0 4
  | .pfrom d a n => pack 32 [fd 0x10#6, fd 0#3, fd d, fd a, fd n, fd 5#8]
  | .pto d a => pack 32 [fd 0x10#6, fd d, fd 0#3, fd a, fd 0#3, fd 0#3, fd 6#8]
  | .sel d a b inv p => pack 32 [fd 0x11#6, fd d, fd a, fd b, fd 0#4, fd (bit inv), fd p]
  | .lea d a b disp sh => pack 32 [fd 0x12#6, fd d, fd a, fd b, fd disp, fd sh]
  | .br p off => pack 32 [fd 0x13#6, fd p, fd 0#1, fd off]
  | .brn p off => pack 32 [fd 0x13#6, fd p, fd 1#1, fd off]
  | .call off => pack 32 [fd 0x14#6, fd off]
  | .jr a => encR 0x15 0 a 0 0
  | .ret => encR 0x15 0 0 0 1
  | .callr a => encR 0x15 0 a 0 2
  | .loop a n => encSh 0x16 0 a n
  | .lds d a off z => pack 32 [fd 0x17#6, fd d, fd a, fd off, fd z.code]
  | .sts s a off z => pack 32 [fd 0x18#6, fd s, fd a, fd off, fd z.code]
  | .atom op dw d a b => pack 32 [fd 0x19#6, fd d, fd a, fd b, fd 1#3, fd (bit dw), fd op.code]
  | .cas dw d a b => pack 32 [fd 0x1A#6, fd d, fd a, fd b, fd 1#3, fd (bit dw), fd 0#4]
  | .ldfe d a => encR 0x1B d a 0 0
  | .ldf d a => encR 0x1B d a 0 1
  | .stfe a b => encR 0x1B 0 a b 2
  | .stf a b => encR 0x1B 0 a b 3
  | .feprobe d a => encR 0x1B d a 0 4
  | .fence k s => pack 32 [fd 0x1C#6, fd 0#6, fd 0#6, fd 0#6, fd 0#3, fd k.code, fd s.code]
  | .tkpush e => pack 32 [fd 0x1D#6, fd 0#6, fd 0#6, fd 0#6, fd 0#3, fd 0#3, fd e]
  | .tkpushv a e => pack 32 [fd 0x1D#6, fd 0#6, fd a, fd 0#6, fd 0#3, fd 1#3, fd e]
  | .tkpop e => pack 32 [fd 0x1D#6, fd 0#6, fd 0#6, fd 0#6, fd 0#3, fd 2#3, fd e]
  | .tkpopv d e => pack 32 [fd 0x1D#6, fd d, fd 0#6, fd 0#6, fd 0#3, fd 3#3, fd e]
  | .tkcnt d e => pack 32 [fd 0x1D#6, fd d, fd 0#6, fd 0#6, fd 0#3, fd 4#3, fd e]
  | .tlread d x => pack 32 [fd 0x1E#6, fd d, fd 0#6, fd 0#6, fd 0#4, fd 0#2, fd x.code]
  | .tlwait x a => pack 32 [fd 0x1E#6, fd 0#3, fd 0#3, fd a, fd 0#6, fd 0#4, fd 1#2, fd x.code]
  | .tlwaitp p x a => pack 32 [fd 0x1E#6, fd 0#3, fd p, fd a, fd 0#6, fd 0#4, fd 2#2, fd x.code]
  | .dbar l => pack 32 [fd 0x1F#6, fd 0#6, fd 0#6, fd 0#6, fd 0#5, fd l]
  | .launch d a => encR 0x20 d a 0 0
  | .lstat d a => encR 0x20 d a 0 1
  | .lcancel d a => encR 0x20 d a 0 2
  | .done => encR 0x20 0 0 0 3
  | .talloc d a b t => pack 32 [fd 0x21#6, fd d, fd a, fd b, fd 0#4, fd t.code]
  | .dup d a => pack 32 [fd 0x22#6, fd d, fd a, fd 0#1, fd 0#1, fd 0#4, fd 0#8]
  | .drop a => pack 32 [fd 0x22#6, fd 0#6, fd a, fd 0#1, fd 0#1, fd 0#4, fd 1#8]
  | .tcount d a => pack 32 [fd 0x22#6, fd d, fd a, fd 0#1, fd 0#1, fd 0#4, fd 2#8]
  | .tinfo d a => pack 32 [fd 0x22#6, fd d, fd a, fd 0#1, fd 0#1, fd 0#4, fd 3#8]
  | .tlde d a b => encR 0x22 d a b 4
  | .hmov d a r keep => pack 32 [fd 0x22#6, fd d, fd a, fd 0#1, fd (bit r), fd keep, fd 5#8]
  | .hnull a => pack 32 [fd 0x22#6, fd 0#6, fd a, fd 0#1, fd 0#1, fd 0#4, fd 6#8]
  | .hcmp d a b => encR 0x22 d a b 7
  | .hget d a => pack 32 [fd 0x22#6, fd d, fd a, fd 0#1, fd 0#1, fd 0#4, fd 8#8]
  | .hput d a => pack 32 [fd 0x22#6, fd d, fd a, fd 0#1, fd 0#1, fd 0#4, fd 9#8]
  | .uniq d a => pack 32 [fd 0x22#6, fd d, fd a, fd 0#1, fd 0#1, fd 0#4, fd 10#8]
  | .upde d a b c z => pack 32 [fd 0x23#6, fd d, fd a, fd b, fd c, fd z.qcode]
  | .sopen d a b => encS d a b .blocking 0
  | .spush a b nb => encS 0 a b nb 1
  | .spushh n a b nb => encS n a b nb 2
  | .spop d a nb => encS d a 0 nb 3
  | .spoph d a n nb => encS d a n nb 4
  | .sstat d a => encS d a 0 .blocking 5
  | .sclose a => encS 0 a 0 .blocking 6
  | .gopen d a => encR 0x25 d a 0 0
  | .gseal a => encR 0x25 0 a 0 1
  | .gwait a => encR 0x25 0 a 0 2
  | .racq d a => encR 0x25 d a 0 3
  | .rrel a => encR 0x25 0 a 0 4
  | .mod o s c => pack 32 [fd 0x3E#6, fd o.code, fd s.code, fd c.code, fd 0#17]
  | _ => 0

/-- SV (R47). -/
def encSV (op : BitVec 8) (c : Clause) (ad aa ab : BitVec 5) (imm : BitVec 32) (fn : BitVec 3) : BitVec 64 :=
  pack 64 [fd op, fd c.pop, fd c.push, fd ad, fd aa, fd ab, fd imm, fd fn]

/-- ASHL and ASHR (R135). -/
def encASh (op : BitVec 8) (c : Clause) (ad aa : BitVec 5) (n : AShift) (arith : Bool) : BitVec 64 :=
  match n with
  | .reg ab => pack 64 [fd op, fd c.pop, fd c.push, fd ad, fd aa, fd ab, fd 0#26, fd 0#6, fd 0#1, fd (bit arith), fd 0#1]
  | .imm i => pack 64 [fd op, fd c.pop, fd c.push, fd ad, fd aa, fd 0#5, fd 0#26, fd i, fd 0#1, fd (bit arith), fd 1#1]

/-- ABR (R47). -/
def encABR (op : BitVec 8) (c : Clause) (aa ab : BitVec 5) (cc : BitVec 4) (off : BitVec 20) : BitVec 64 :=
  pack 64 [fd op, fd c.pop, fd c.push, fd aa, fd ab, fd cc, fd off, fd 0#16]

/-- MEM with a V register (R47). -/
def encMEM (op : BitVec 8) (c : Clause) (vd : BitVec 9) (base idx : BitVec 5) (off : BitVec 20) (t : BitVec 4)
    (x : BitVec 7) : BitVec 64 :=
  pack 64 [fd op, fd c.pop, fd c.push, fd vd, fd base, fd idx, fd off, fd t, fd x]

/-- MEM with an H register (R47). -/
def encMEMh (op : BitVec 8) (c : Clause) (hd : BitVec 6) (base idx : BitVec 5) (off : BitVec 20) (t : BitVec 4) :
    BitVec 64 :=
  pack 64 [fd op, fd c.pop, fd c.push, fd 0#3, fd hd, fd base, fd idx, fd off, fd t, fd 0#7]

/-- MEM with a mask (R220). -/
def encMEMk (op : BitVec 8) (c : Clause) (k : BitVec 3) (base : BitVec 5) (off : BitVec 20) : BitVec 64 :=
  pack 64 [fd op, fd c.pop, fd c.push, fd 0#6, fd k, fd base, fd 0#5, fd off, fd 0#4, fd 0#7]

/-- SPOPV and SPUSHV (R275). -/
def encSPV (op : BitVec 8) (c : Clause) (vd : BitVec 9) (h : BitVec 6) (n : BitVec 4) : BitVec 64 :=
  pack 64 [fd op, fd c.pop, fd c.push, fd vd, fd 0#3, fd h, fd 0#20, fd n, fd 0#4, fd 0#4]

/-- VV with the X field whole (R47). -/
def encVV (op : BitVec 8) (c : Clause) (vd va vb vc : BitVec 9) (k : BitVec 3) (t : BitVec 4) (x : BitVec 7) :
    BitVec 64 :=
  pack 64 [fd op, fd c.pop, fd c.push, fd vd, fd va, fd vb, fd vc, fd k, fd t, fd x]

/-- VV with a SAT bit in X[0] (R190, R198, R199). -/
def encVVs (op : BitVec 8) (c : Clause) (vd va vb vc : BitVec 9) (k : BitVec 3) (t : BitVec 4) (sat : Bool) :
    BitVec 64 :=
  pack 64 [fd op, fd c.pop, fd c.push, fd vd, fd va, fd vb, fd vc, fd k, fd t, fd 0#6, fd (bit sat)]

/-- The shifts of R193. -/
def encVSh (op : BitVec 8) (c : Clause) (vd va : BitVec 9) (k : BitVec 3) (n : VShift) : BitVec 64 :=
  match n with
  | .reg vb => pack 64 [fd op, fd c.pop, fd c.push, fd vd, fd va, fd vb, fd 0#9, fd k, fd 0#4, fd 0#1, fd 0#1, fd 0#5]
  | .imm i => pack 64 [fd op, fd c.pop, fd c.push, fd vd, fd va, fd 0#9, fd 0#9, fd k, fd 0#4, fd 0#1, fd 1#1, fd i]

/-- VROTR and VBCR (R202). -/
def encRot6 (op : BitVec 8) (c : Clause) (vd va : BitVec 9) (k : BitVec 3) (n : BitVec 6) : BitVec 64 :=
  pack 64 [fd op, fd c.pop, fd c.push, fd vd, fd va, fd 0#9, fd 0#9, fd k, fd 0#4, fd 0#1, fd n]

/-- VROTC and VBCC (R202). -/
def encRot4 (op : BitVec 8) (c : Clause) (vd va : BitVec 9) (k : BitVec 3) (n : BitVec 4) : BitVec 64 :=
  pack 64 [fd op, fd c.pop, fd c.push, fd vd, fd va, fd 0#9, fd 0#9, fd k, fd 0#4, fd 0#3, fd n]

/-- The reductions and the scan (R203). -/
def encRed (op : BitVec 8) (c : Clause) (vd va : BitVec 9) (k : BitVec 3) (t : VTy) (excl : Bool) (o : RedOp) :
    BitVec 64 :=
  pack 64 [fd op, fd c.pop, fd c.push, fd vd, fd va, fd 0#9, fd 0#9, fd k, fd t.code, fd 0#3, fd (bit excl), fd o.code]

/-- AS of word 0 (R53). -/
def ASrc.sel : ASrc → BitVec 2
  | .handle _ => 0 | .va _ => 1 | .bank _ => 2

/-- The a-spec field (R53). -/
def ASrc.spec : ASrc → BitVec 6
  | .handle h => h | .va a => BitVec.ofNat 6 a.toNat | .bank b => BitVec.ofNat 6 b.toNat

/-- BV of word 0 (R53). -/
def BSrc.sel : BSrc → BitVec 1
  | .handle _ => 0 | .va _ => 1

/-- The hb field (R53). -/
def BSrc.spec : BSrc → BitVec 6
  | .handle h => h | .va a => BitVec.ofNat 6 a.toNat

/-- The destination code of R54. -/
def Dest.sel : Dest → BitVec 2
  | .tile _ => 0 | .vregs _ => 1 | .store _ => 2 | .add _ => 3

/-- hd of R54's word 1. -/
def Dest.hd : Dest → BitVec 6
  | .tile h => h | .vregs _ | .store _ | .add _ => 0

/-- The V base of R54's word 1. -/
def Dest.vb : Dest → BitVec 9
  | .vregs v => v | .tile _ | .store _ | .add _ => 0

/-- The shape register of R54's word 1. -/
def Dest.sh : Dest → BitVec 5
  | .store a | .add a => a | .tile _ | .vregs _ => 0

/-- The first dword of a wide instruction; zero for any other. -/
def encodeWide : Instr → BitVec 64
  | .nopWide c => encSV 0x00 c 0 0 0 0 0
  | .aadd c ad aa ab => encSV 0x01 c ad aa ab 0 0
  | .asub c ad aa ab => encSV 0x02 c ad aa ab 0 0
  | .amul c ad aa ab => encSV 0x04 c ad aa ab 0 0
  | .aand c ad aa ab => encSV 0x07 c ad aa ab 0 0
  | .aaddi c ad aa i => encSV 0x03 c ad aa 0 i 0
  | .ashl c ad aa n => encASh 0x05 c ad aa n false
  | .ashr c ad aa n ar => encASh 0x06 c ad aa n ar
  | .ali c ad i => encSV 0x08 c ad 0 0 i 0
  | .alih c ad i => encSV 0x09 c ad 0 0 i 0
  | .abr c aa ab cc off => encABR 0x0A c aa ab cc.code off
  | .aj c off => encABR 0x0B c 0 0 0 off
  | .aloop aa len => pack 64 [fd 0x0C#8, fd 0#3, fd 0#3, fd aa, fd len, fd 0#38]
  | .aend c => encSV 0x0D c 0 0 0 0 0
  | .tkv c ad aa send recv =>
      pack 64 [fd 0x0E#8, fd c.pop, fd c.push, fd ad, fd aa, fd 0#5, fd 0#32, fd 0#1, fd (bit send), fd (bit recv)]
  | .acsrr c ad n => pack 64 [fd 0x0F#8, fd c.pop, fd c.push, fd ad, fd 0#5, fd 0#5, fd 0#20, fd n, fd 0#3]
  | .acsrw c aa n => pack 64 [fd 0x10#8, fd c.pop, fd c.push, fd 0#5, fd aa, fd 0#5, fd 0#20, fd n, fd 0#3]
  | .rep c cnt sd sa sb sc =>
      pack 64 [fd 0x11#8, fd c.pop, fd c.push, fd cnt, fd sd, fd sa, fd sb, fd sc, fd 0#28]
  | .modWide o s k => pack 64 [fd 0x12#8, fd 0#3, fd 0#3, fd o.code, fd s.code, fd k.code, fd 0#41]
  | .tlwaitWide c x aa =>
      pack 64 [fd 0x13#8, fd c.pop, fd c.push, fd 0#5, fd aa, fd 0#5, fd 0#32, fd 0#1, fd x.code]
  | .ldt c t hd base idx off => encMEMh 0x20 c hd base idx off t.code
  | .ldv c t vd base idx off => encMEM 0x21 c vd base idx off t.code 0
  | .ldva c t vd base idx off => encMEM 0x22 c vd base idx off t.code 0
  | .ldvt c t vd h row0 col0 m packed =>
      pack 64 [fd 0x23#8, fd c.pop, fd c.push, fd vd, fd 0#3, fd h, fd 0#6, fd col0, fd row0, fd t.code, fd 0#1,
        fd (bit packed), fd m.code]
  | .gath c t k vd va ab =>
      pack 64 [fd 0x24#8, fd c.pop, fd c.push, fd vd, fd va, fd 0#9, fd 0#9, fd k, fd t.code, fd 0#2, fd ab]
  | .btgath c t k vd va aT aP =>
      pack 64 [fd 0x25#8, fd c.pop, fd c.push, fd vd, fd va, fd 0#4, fd aT, fd 0#4, fd aP, fd k, fd t.code, fd 0#7]
  | .cec c base off => encMEM 0x26 c 0 base 0 off 0 0
  | .cedup c base off => encMEM 0x27 c 0 base 0 off 0 0
  | .cecol c hd base off => encMEMh 0x28 c hd base 0 off 0
  | .pref c base off => encMEM 0x29 c 0 base 0 off 0 0
  | .rrot c hd hs ra =>
      pack 64 [fd 0x2A#8, fd c.pop, fd c.push, fd hd, fd hs, fd ra, fd 0#5, fd 0#5, fd 0#16, fd 0#7]
  | .gwaitf c hs =>
      pack 64 [fd 0x2B#8, fd c.pop, fd c.push, fd 0#6, fd hs, fd 0#5, fd 0#5, fd 0#5, fd 0#16, fd 0#7]
  | .spopv c vd h n => encSPV 0x2C c vd h n
  | .ldk c k base off => encMEMk 0x2D c k base off
  | .vadd c t k sat vd va vb => encVVs 0x50 c vd va vb 0 k t.code sat
  | .vsub c t k sat vd va vb => encVVs 0x51 c vd va vb 0 k t.code sat
  | .vmul c t k sat vd va vb => encVVs 0x52 c vd va vb 0 k t.code sat
  | .vfma c t k sat vd va vb vc => encVVs 0x53 c vd va vb vc k t.code sat
  | .vfnma c t k sat vd va vb vc => encVVs 0x54 c vd va vb vc k t.code sat
  | .vmin c t k vd va vb => encVV 0x55 c vd va vb 0 k t.code 0
  | .vmax c t k vd va vb => encVV 0x56 c vd va vb 0 k t.code 0
  | .vabs c t k sat vd va => encVVs 0x57 c vd va 0 0 k t.code sat
  | .vneg c t k sat vd va => encVVs 0x58 c vd va 0 0 k t.code sat
  | .vrcp c k vd va => encVV 0x59 c vd va 0 0 k 0 0
  | .vrsq c k vd va => encVV 0x5A c vd va 0 0 k 0 0
  | .vexp2 c k vd va => encVV 0x5B c vd va 0 0 k 0 0
  | .vlog2 c k vd va => encVV 0x5C c vd va 0 0 k 0 0
  | .vcmp c t cc k kd va vb =>
      pack 64 [fd 0x5D#8, fd c.pop, fd c.push, fd 0#6, fd kd, fd va, fd vb, fd 0#9, fd k, fd t.code, fd 0#3, fd cc.code]
  | .vsel c k vd va vb => encVV 0x5E c vd va vb 0 k 0 0
  | .vmov c k vd va => encVV 0x5F c vd va 0 0 k 0 0
  | .vand c k vd va vb => encVV 0x60 c vd va vb 0 k 0 0
  | .vor c k vd va vb => encVV 0x61 c vd va vb 0 k 0 0
  | .vxor c k vd va vb => encVV 0x62 c vd va vb 0 k 0 0
  | .vshl c k vd va n => encVSh 0x63 c vd va k n
  | .vshr c k vd va n => encVSh 0x64 c vd va k n
  | .vsra c k vd va n => encVSh 0x65 c vd va k n
  | .vmovi c vd src =>
      match src with
      | .reg a => pack 64 [fd 0x66#8, fd c.pop, fd c.push, fd vd, fd 0#4, fd a, fd 0#24, fd 0#4, fd 0#3, fd 0#1]
      | .imm i => pack 64 [fd 0x66#8, fd c.pop, fd c.push, fd vd, fd 0#4, fd 0#5, fd i, fd 0#4, fd 0#3, fd 1#1]
  | .viota c vd a step => pack 64 [fd 0x67#8, fd c.pop, fd c.push, fd vd, fd 0#4, fd a, fd step, fd 0#4, fd 0#4]
  | .vcvt c dst src k sat vd va =>
      pack 64 [fd 0x68#8, fd c.pop, fd c.push, fd vd, fd va, fd 0#9, fd 0#9, fd k, fd dst.code, fd 0#2, fd (bit sat),
        fd src.code]
  | .vlcvt c t k sat vd va => encVVs 0x69 c vd va 0 0 k t.code sat
  | .vlexp c t k vd va => encVV 0x6A c vd va 0 0 k t.code 0
  | .vlmul c t k sat vd va vb => encVVs 0x6B c vd va vb 0 k t.code sat
  | .vpack6 c sat vd va => encVVs 0x6C c vd va 0 0 0 8 sat
  | .vunpk6 c vd va => encVV 0x6D c vd va 0 0 0 8 0
  | .vcmpr c t kd vd va => encVV 0x6E c vd va 0 0 kd t.code 0
  | .vexpd c k vd va => encVV 0x6F c vd va 0 0 k 0 0
  | .vrotr c k vd va n => encRot6 0x70 c vd va k n
  | .vrotc c k vd va n => encRot4 0x71 c vd va k n
  | .vbcr c k vd va n => encRot6 0x72 c vd va k n
  | .vbcc c k vd va n => encRot4 0x73 c vd va k n
  | .vredr c t op k vd va => encRed 0x74 c vd va k t false op
  | .vredc c t op k vd va => encRed 0x75 c vd va k t false op
  | .vscnr c t op excl k vd va => encRed 0x76 c vd va k t excl op
  | .kop c op kd ka kb =>
      pack 64 [fd 0x78#8, fd c.pop, fd c.push, fd 0#6, fd kd, fd 0#6, fd ka, fd 0#6, fd kb, fd 0#9, fd 0#3, fd 0#4,
        fd op.code]
  | .kmov c kd src =>
      match src with
      | .copy ka => pack 64 [fd 0x79#8, fd c.pop, fd c.push, fd 0#6, fd kd, fd 0#6, fd ka, fd 0#9, fd 0#9, fd 0#3, fd 0#4, fd 0#7]
      | .ones => pack 64 [fd 0x79#8, fd c.pop, fd c.push, fd 0#6, fd kd, fd 0#6, fd 0#3, fd 0#9, fd 0#9, fd 0#3, fd 0#4, fd 1#7]
      | .zeros => pack 64 [fd 0x79#8, fd c.pop, fd c.push, fd 0#6, fd kd, fd 0#6, fd 0#3, fd 0#9, fd 0#9, fd 0#3, fd 0#4, fd 2#7]
  | .blend c bank back =>
      pack 64 [fd 0x7A#8, fd c.pop, fd c.push, fd 0#9, fd 0#9, fd 0#20, fd bank, fd 0#4, fd 0#3, fd (bit back)]
  | .vtoa c ad va row col sext =>
      pack 64 [fd 0x7B#8, fd c.pop, fd c.push, fd 0#4, fd ad, fd va, fd 0#14, fd row, fd col, fd 0#4, fd 0#3, fd (bit sext)]
  | .atov c vd a row col =>
      pack 64 [fd 0x7C#8, fd c.pop, fd c.push, fd vd, fd 0#4, fd a, fd 0#14, fd row, fd col, fd 0#4, fd 0#4]
  | .mlease c g => pack 64 [fd 0xA0#8, fd c.pop, fd c.push, fd 0#4, fd (bit g), fd 0#45]
  | .mrel c => pack 64 [fd 0xA1#8, fd c.pop, fd c.push, fd 0#50]
  | .mma c fa fb g z0 sc a b m n k zcol _ _ _ =>
      pack 64 [fd 0xA2#8, fd c.pop, fd c.push, fd fa.code, fd fb.code, fd (bit g), fd (bit z0), fd (bit sc), fd a.sel,
        fd b.sel, fd m, fd n, fd k, fd zcol, fd 0#4]
  | .mmag c fa fb g z0 sc a _ _ grp m n k zcol _ _ _ =>
      pack 64 [fd 0xA3#8, fd c.pop, fd c.push, fd fa.code, fd fb.code, fd (bit g), fd (bit z0), fd (bit sc), fd a.sel,
        fd 0#1, fd m, fd n, fd k, fd zcol, fd grp]
  | .mzero c m n zrow zcol =>
      pack 64 [fd 0xA4#8, fd c.pop, fd c.push, fd 0#10, fd m, fd n, fd zrow, fd 0#2, fd zcol, fd 0#4]
  | .mdrain c d t sat clip z scl m n zrow zcol =>
      pack 64 [fd 0xA5#8, fd c.pop, fd c.push, fd d.sel, fd t.code, fd (bit sat), fd (bit scl.isSome), fd (bit clip),
        fd m, fd n, fd zrow, fd zcol, fd (bit z), fd 0#6]
  | .mstat c ad clr => pack 64 [fd 0xA6#8, fd c.pop, fd c.push, fd ad, fd 0#44, fd (bit clr)]
  | .mrowp c ad set =>
      pack 64 [fd 0xA7#8, fd c.pop, fd c.push, fd ad, fd (set.getD 0), fd 0#39, fd (bit set.isSome)]
  | .stv c t sat hd va idx =>
      pack 64 [fd 0xC0#8, fd c.pop, fd c.push, fd 0#3, fd hd, fd 0#5, fd idx, fd 0#11, fd va, fd t.code, fd 0#6,
        fd (bit sat)]
  | .stt c t hs base idx off => encMEMh 0xC1 c hs base idx off t.code
  | .stva c t sat vd base idx off =>
      pack 64 [fd 0xC2#8, fd c.pop, fd c.push, fd vd, fd base, fd idx, fd off, fd t.code, fd 0#6, fd (bit sat)]
  | .scat c t k sat va vb ab =>
      pack 64 [fd 0xC3#8, fd c.pop, fd c.push, fd 0#9, fd va, fd vb, fd 0#9, fd k, fd t.code, fd 0#1, fd (bit sat), fd ab]
  | .stred c t op sat vd base idx off =>
      pack 64 [fd 0xC4#8, fd c.pop, fd c.push, fd vd, fd base, fd idx, fd off, fd t.code, fd 0#4, fd (bit sat), fd op.code]
  | .spushv c vd h n => encSPV 0xC5 c vd h n
  | .stk c k base off => encMEMk 0xC6 c k base off
  | _ => 0

/-- The second dword of a two-word matrix instruction (R53, R54); zero for any other. -/
def encodeSecond : Instr → BitVec 64
  | .mma _ _ _ _ _ _ a b _ _ _ _ zrow hsa hsb =>
      pack 64 [fd a.spec, fd b.spec, fd hsa, fd hsb, fd zrow, fd 0#33]
  | .mmag _ _ _ _ _ _ a hb hc _ _ _ _ _ zrow hsa hy =>
      pack 64 [fd a.spec, fd hb, fd hc, fd hsa, fd zrow, fd hy, fd 0#27]
  | .mdrain _ d _ _ _ _ scl _ _ _ _ =>
      pack 64 [fd d.hd, fd d.vb, fd (scl.getD 0), fd d.sh, fd 0#39]
  | _ => 0

/-! ### The host's question -/

/-- The strand that fetches a wide opcode when only the table's bits are given (log 19). -/
def strandOfOpcode (op : Nat) : Strand :=
  if 0x50 ≤ op && op < 0xC0 then .exe else if 0xC0 ≤ op then .emi else .fet

/-- The instruction the decoder reads from an instruction whose bits are `w`: up to 32 bits a CTL word, more a
wide word, whose second dword is bits 127 to 64. -/
def decodeTableWord (nbits w : Nat) : Option Instr :=
  if nbits ≤ 32 then decodeCtl (BitVec.ofNat 32 w)
  else
    let w0 := BitVec.ofNat 64 w
    decodeWide (strandOfOpcode (fld w0 56 8).toNat) w0 (BitVec.ofNat 64 (w / 2 ^ 64))

end Sys2Proof
end

