-- ==== Sys2Proof/Machine/Map.lean ====
section
/-! DEFINITION. Finite maps with a default, as plain data in one canonical form: keys strictly rising, no entry
equal to the default. Memory, register files, tile stores and the per-core and per-context records are such maps.
Association lists without a default (`look`, `put`, `del`) serve where absence itself means something. -/

namespace Sys2Proof.Machine

/-- Keys and values, keys rising. -/
abbrev SMap (α : Type) := List (Nat × α)

/-- The value at key `k`; an unlisted key reads as `d`. -/
def mget {α : Type} (d : α) : SMap α → Nat → α
  | [], _ => d
  | (a, v) :: m, k => if a = k then v else mget d m k

/-- The association list with key `k` holding `v`, keys kept rising. -/
def put {α : Type} (k : Nat) (v : α) : List (Nat × α) → List (Nat × α)
  | [] => [(k, v)]
  | (a, x) :: m => if k < a then (k, v) :: (a, x) :: m else if k = a then (k, v) :: m else (a, x) :: put k v m

/-- The association list without key `k`. -/
def del {α : Type} (k : Nat) (m : List (Nat × α)) : List (Nat × α) := m.filter (fun p => p.1 != k)

/-- The map with key `k` holding `x`, in canonical form: writing the default removes the entry. -/
def mset {α : Type} [DecidableEq α] (d : α) (m : SMap α) (k : Nat) (x : α) : SMap α :=
  if x = d then del k m else put k x m

/-- Every key of `m` lies above `lo`, keys rise, and no value is the default. -/
def mwfFrom {α : Type} [DecidableEq α] (d : α) : Nat → SMap α → Bool
  | _, [] => true
  | lo, (a, v) :: m => lo ≤ a && v != d && mwfFrom d (a + 1) m

/-- The canonical form. -/
def mwf {α : Type} [DecidableEq α] (d : α) (m : SMap α) : Bool := mwfFrom d 0 m

/-- The values at `n` keys from `k` up. -/
def mgets {α : Type} (d : α) (m : SMap α) (k : Nat) : Nat → List α
  | 0 => []
  | n + 1 => mget d m k :: mgets d m (k + 1) n

/-- The map with a list of values written from key `k` up. -/
def msets {α : Type} [DecidableEq α] (d : α) (m : SMap α) (k : Nat) : List α → SMap α
  | [] => m
  | x :: xs => msets d (mset d m k x) (k + 1) xs

/-- The entries of a function on keys `k` to `k + n − 1`, in canonical form. -/
def mofFn {α : Type} [DecidableEq α] (d : α) (f : Nat → α) (k : Nat) : Nat → SMap α
  | 0 => []
  | n + 1 => if f k = d then mofFn d f (k + 1) n else (k, f k) :: mofFn d f (k + 1) n

/-- The map without the keys `lo ≤ k < hi`. -/
def mclear {α : Type} (m : SMap α) (lo hi : Nat) : SMap α := m.filter (fun p => p.1 < lo || hi ≤ p.1)

/-- The entries with keys `lo ≤ k < hi`, their keys lowered by `lo`. -/
def mslice {α : Type} (m : SMap α) (lo hi : Nat) : SMap α :=
  (m.filter (fun p => lo ≤ p.1 && p.1 < hi)).map (fun p => (p.1 - lo, p.2))

/-- The entries of a slice put back at `lo`, replacing what `[lo, lo + n)` held. -/
def msplice {α : Type} (m : SMap α) (lo n : Nat) (sl : SMap α) : SMap α :=
  m.filter (fun p => p.1 < lo) ++ (sl.filter (fun p => p.1 < n)).map (fun p => (p.1 + lo, p.2)) ++
    m.filter (fun p => lo + n ≤ p.1)

/-- The value of key `k` in an association list, if it has one. -/
def look {α : Type} (k : Nat) : List (Nat × α) → Option α
  | [] => none
  | (a, v) :: m => if a = k then some v else look k m

/-- Membership in a rising list of keys. -/
def inSet (k : Nat) (m : List Nat) : Bool := m.contains k

/-- A rising list of keys with `k`. -/
def addSet (k : Nat) : List Nat → List Nat
  | [] => [k]
  | a :: m => if k < a then k :: a :: m else if k = a then a :: m else a :: addSet k m

/-- A list of keys without `k`. -/
def delSet (k : Nat) (m : List Nat) : List Nat := m.filter (· != k)

/-- Bytes as a little-endian number (R5). -/
def leNat : List Byte → Nat
  | [] => 0
  | b :: bs => b.toNat + 256 * leNat bs

/-- The `n` little-endian bytes of a number (R5). -/
def leBytes : Nat → Nat → List Byte
  | 0, _ => []
  | n + 1, v => BitVec.ofNat 8 v :: leBytes n (v / 256)

/-- The first element that satisfies `p`, with its place. -/
def findIdx {α : Type} (p : α → Bool) (l : List α) : Option (Nat × α) :=
  let i := l.findIdx p
  (l[i]?).map (fun x => (i, x))

/-- The first `k < n` with `p (base + k)`. -/
def firstFrom (p : Nat → Bool) (base : Nat) : Nat → Option Nat
  | 0 => none
  | n + 1 => if p base then some base else firstFrom p (base + 1) n

end Sys2Proof.Machine
end

