-- ==== Sys2Proof/Machine/State.lean ====
section
/-! DEFINITION. The state of one Drisel 9 device, as plain data: every register, record, queue and message the
spec gives it, and the reasons a step can stop. Finite maps (Machine/Map.lean) list only what differs from their
default. Rules are cited at each record. -/

namespace Sys2Proof.Machine

/-- Modes (R304). -/
inductive Mode | u | s | m
deriving DecidableEq, Repr

/-- Memory attributes of an access (R249). -/
structure Attr where
  o : Order
  s : Scope
  c : Cache
deriving DecidableEq, Repr

/-- A token (R25). -/
structure Token where
  valued : Bool
  value : W64
deriving DecidableEq, Repr

/-- A loop that runs (R36, R130): first body address, body length in words, passes left with the one that runs,
and the loop buffer: the words captured, none for one that could not be fetched yet. -/
structure LoopSt where
  start : W64
  len : Nat
  left : W64
  body : List (Option W64)
deriving DecidableEq, Repr

/-- A repetition that runs (R37, R38): the address of its first repeated word, the issue now due, the count, the
four steps and the captured FPC (R160). -/
structure RepSt where
  at_ : W64
  idx : Nat
  count : Nat
  sd : BitVec 4
  sa : BitVec 4
  sb : BitVec 4
  sc : BitVec 4
  fpc : W32
deriving DecidableEq, Repr

/-- A MOD prefix in force for the next word (R46, R50), with the prefix's address. -/
structure Pre where
  at_ : W64
  attr : Attr
deriving DecidableEq, Repr

/-- What a window access of the instruction being issued has brought back so far (R209, R294): the answer of
part `n`, bytes or a refusal cause. -/
structure Answer where
  n : Nat
  bytes : List Byte
  cause : Nat
deriving DecidableEq, Repr

/-- A load performed ahead of its instruction (R240): the 8-byte granule, its contents at the home then, and the
registers that have since taken a value from a later load, from which its address may not come (64 stands for the V
registers). -/
structure Ahead where
  g : Nat
  v : W64
  tnt : List Nat
deriving DecidableEq, Repr

/-- One strand of a core (R20, R22); CTL leaves the A file unused. `asked` counts the requests its issued instruction
has sent and `got` their answers, `took` the tokens it popped at issue (R26), and `opt` the choices of its issue.
`rel` is 1 while its instruction waits in a release for
posted writes, 2 once a device that one of them went to is lost (R247). `ic` is its instruction cache (R20, R321),
`ahead` the loads performed ahead (R240), and `acqC` and `acqW` the cycle after its last acquire at core scope and at a wider
one, its own or one that reached it through its core (R242, R247). -/
structure StrandSt where
  pc : W64
  fpc : W32
  moddef : W32
  a : Vector W64 32
  loop : Option LoopSt
  rep : Option RepSt
  pre : Option Pre
  ended : Bool
  asked : Nat
  got : List Answer
  took : List (Nat × Token)
  opt : Nat
  rel : Nat
  ic : List (Nat × W64)
  ahead : List Ahead
  acqC : Nat
  acqW : Nat
deriving DecidableEq, Repr

/-- The slots of a V register that are not zero, by lane 64·r + c (R184). -/
abbrev VReg := SMap W32

/-- A mark on a timeline context (R311): the operation that stopped, 0 for none, the cause, address, information. -/
structure Mark where
  op : Nat
  cause : Nat
  addr : W64
  info : W64
deriving DecidableEq, Repr

/-- A timeline context (R255): dispatch base, operations numbered, those not complete, the mark, and whether its
engine stands behind a fault until ERET; `reach` gives for each scope, core to sys, the number of the first operation of
that scope or a wider one, 0 for none. -/
structure Tl where
  base : Nat
  issued : Nat
  out : List Nat
  mark : Option Mark
  stopped : Bool
  reach : Vector Nat 5
deriving DecidableEq, Repr

/-- An asynchronous operation (R209 to R211, R164): its number, the instruction that made it, the FPC and the
attributes captured at issue, the captured registers and slots (the first of `args` is the tile it produces, or null),
the element, copy or row it has reached, the handles it pins, whether it has started, the answers its window requests
have brought back, and the cell it belongs to: context, class, launch, and the core's count of cells, 0 while the cell is
out in an image (R323). `back` says that its rows are taken from the last (R245). -/
structure Op where
  n : Nat
  i : Instr
  st : Strand
  fpc : W32
  attr : Attr
  args : List W64
  data : SMap W32
  pos : Nat
  pins : List W64
  started : Bool
  asked : Nat
  got : List Answer
  ctx : Nat
  cls : Nat
  launch : W64
  cell : Nat
  back : Bool
deriving DecidableEq, Repr

/-- Galley states (R90). -/
inductive GState | free | filling | full | draining
deriving DecidableEq, Repr

/-- A folio record (R90), rows, columns and galleys in full; `ctx` is the tile's context (VALUE_CTX, R314),
`drains` the number of draining operations under way (R219), and `dead` says that the engine that was filling the tile
has given up (R311). -/
structure Folio where
  count : Nat
  state : GState
  fmt : Elem
  used : Bool
  win : Bool
  rows : Nat
  cols : Nat
  first : Nat
  ngal : Nat
  gen : Nat
  expc : Nat
  expw : Nat
  ctx : Nat
  drains : Nat
  dead : Bool
deriving DecidableEq, Repr

/-- A galley (R92, R93): in use, by which folio, and the context of the tile it last held. -/
structure Gal where
  busy : Bool
  folio : Nat
  ctx : Nat
deriving DecidableEq, Repr

/-- Lease states (R166). -/
inductive LState | none | req | held
deriving DecidableEq, Repr

/-- A core's lease (R166, R168): state, gang, the cycle of the request or the grant, commands accepted, the last cycle
of activity, a request to make again (R317), and whether an MLEASE of EXE waits for the grant. -/
structure Lease where
  st : LState
  gang : Bool
  since : Nat
  used : Nat
  idle : Nat
  again : Bool
  asking : Bool
deriving DecidableEq, Repr

/-- An item of a stream (R261); `poison` marks poisoned words (R333). -/
structure Item where
  words : List W64
  mask : BitVec 8
  poison : Bool
deriving DecidableEq, Repr

/-- The name of an anchor: device, core, index (R259). -/
structure Anchor where
  dev : Nat
  core : Nat
  idx : Nat
deriving DecidableEq, Repr

/-- A write end at its core (R262, R265): next push number, credit, limit, the location it is bound to,
whether STOP holds it, the stock's exponent, whether the other end is in transit, and the orphan cause, 0 for none. -/
structure WEnd where
  anc : Anchor
  push : Nat
  credit : Nat
  lim : Nat
  toDev : Nat
  toCore : Nat
  held : Bool
  k : Nat
  moving : Bool
  orphan : Nat
deriving DecidableEq, Repr

/-- A read end at its core (R262 to R265): POP, QTOP, its hardware queue if hot, the queued items, the orphan
cause, the push number at which the writer closed, whether STOP stands, pops since the last GO, the stock's exponent, whether
the other end is in transit, and whether an item of a stock on another device has been asked for. A cold end of such a stock
keeps in `q` the items that have been brought to its core. -/
structure REnd where
  anc : Anchor
  pop : Nat
  qtop : Nat
  hq : Option Nat
  q : List Item
  orphan : Nat
  final : Option Nat
  stop : Bool
  sinceGo : Nat
  k : Nat
  moving : Bool
  fetching : Bool
deriving DecidableEq, Repr

/-- A write in the core's store path (R237, R239): strand, physical address, bytes, poison, and whether the narrow
loads of die 0 and of die 1 see it before its home does (R232, R238). -/
structure StoreOp where
  st : Strand
  pa : Nat
  bytes : List Byte
  poison : Bool
  seen0 : Bool
  seen1 : Bool
deriving DecidableEq, Repr

/-- An LDS whose value has not returned (R131, R240): its destination, place, size and attributes, and the bytes it
found at issue, which it returns if poison overtakes it (R132). -/
structure LoadOp where
  d : BitVec 6
  pa : Nat
  n : Nat
  attr : Attr
  was : List Byte
deriving DecidableEq, Repr

/-- A translation held by a TLB (R288, R290): context, virtual page base, log2 of the page size, the leaf entry and
its physical place, whether the page is shared. -/
structure TlbEnt where
  ctx : Nat
  va : Nat
  bits : Nat
  leaf : W64
  leafPa : Nat
  shared : Bool
deriving DecidableEq, Repr

/-- A refused delta that is not yet raised (R97): cause, handle, strand, the cycle it falls due, and whether it was
issued in S mode. -/
structure Refused where
  cause : Nat
  handle : W64
  st : Strand
  due : Nat
  fromS : Bool
deriving DecidableEq, Repr

/-- The resume point of CTL while it runs in S or M mode (R307, R317). -/
structure Held where
  pc : W64
  loop : Option LoopSt
deriving DecidableEq, Repr

/-- A trap (R310, R311): cause, data address, information, the next word's address where TRAPPC names that, and the
timeline context it was marked on. -/
structure Trap where
  cause : Nat
  addr : W64
  info : W64
  next : Option W64
  actx : Option Nat
deriving DecidableEq, Repr

/-- One core (R20 to R25) with its units. `cell` counts the cells the core has held; `raised` is a trap of one of its strands whose entry waits for the
instructions the other strands have issued (R307 step 2), or a stop that PREEMPT asked for (R322). `preempted` says
that its engines are stopped for pre-emption or a PSAVE (R323), `transit` lists the ends detached with them (R282),
`origins` gives folio, generation and ORIGIN of its tiles that an image recorded (R325), `lastimg` the address of the
image of generation `lastgen` (R325). -/
structure Core where
  ctl : StrandSt
  fet : StrandSt
  exe : StrandSt
  emi : StrandSt
  s : Vector W64 64
  p : BitVec 8
  h : Vector W64 64
  k : Vector (BitVec 1024) 8
  v : SMap VReg
  vPend : List Nat
  lent : BitVec 12
  tq : Vector (List Token) 12
  tokPoison : List Nat
  live : Bool
  cell : Nat
  mode : Mode
  heldS : Held
  heldM : Held
  shS : Vector W64 8
  shM : Vector W64 8
  tl : Vector Tl 4
  ops : Vector (List Op) 4
  folio : SMap Folio
  folioPoison : List Nat
  gal : SMap Gal
  store : SMap Byte
  storePoison : List Nat
  pins : List (W64 × Nat)
  owedWeights : List W64
  quarter : SMap W32
  mstat : W64
  mrowp : Nat
  lease : Lease
  trapvec : W64
  trapcause : W64
  trappc : W64
  trapaddr : W64
  trapinfo : W64
  savedst : W64
  monvec : W64
  launchid : W64
  budcls : W64
  dmemb : Vector W64 4
  ctxid : W64
  vfid : W64
  ordinal : Nat
  phase : Vector Nat 4
  arrived : BitVec 4
  notified : BitVec 4
  latch : Bool
  gang : Bool
  lastgen : Nat
  lastimg : W64
  dirtyV : BitVec 384
  dirtyS : BitVec 16
  dirtyG : BitVec 512
  refused : List Refused
  stepArm : Bool
  preempted : Bool
  transit : List W64
  origins : List (Nat × Nat × W64)
  raised : Option (Strand × Trap)
  stores : List StoreOp
  loads : List LoadOp
  dc : List (Nat × W64)
  btb : List (Nat × Nat)
  tlb : List TlbEnt
  wends : List WEnd
  rends : List REnd
  wallowOut : Vector Nat 8
  rascnt : W64
  raswin : Nat
  raswinNext : Nat
  winStart : Nat
  rasthr : Nat
  bankCnt : SMap Nat
  withdrawn : List Nat
  freeze : Nat
  out : Bool
  stopped : Bool
deriving DecidableEq, Repr

/-- One context (R337, R61, R286, R296): its configuration entry, its CSRs, and what the device holds of its
context block until TLBI (R293, R297), its launch stream and the host port that opened it (R339). -/
structure Ctx where
  en : Bool
  entryPtbase : W64
  dmembDef : Vector W64 4
  ptbase : W64
  wallow : Vector Nat 8
  inst : Nat
  wins : List (Nat × List W64)
  exps : List (Nat × List W64)
  ls : Option Anchor
  lsPort : Nat
deriving DecidableEq, Repr

/-- One cluster (R166, R168, R288): the position that held the last lease, the cycle of the first request of a gang
that has not formed. -/
structure Cluster where
  last : Nat
  gangAt : Option Nat
  tlb : List TlbEnt
deriving DecidableEq, Repr

/-- Launch states (R74). -/
inductive LnState | waiting | running | cancelling | faulted
deriving DecidableEq, Repr

/-- An end the stream plan places (R71, R281): core, H register, handle. -/
structure PlanEnd where
  core : Nat
  h : Nat
  handle : W64
deriving DecidableEq, Repr

/-- A readiness word's base and strides (R64). -/
structure Ready where
  base : W64
  stride : List Int
deriving DecidableEq, Repr

/-- A handle preload (R66). -/
structure Preload where
  addr : W64
  rows : Nat
  cols : Nat
  fmt : Elem
deriving DecidableEq, Repr

/-- A launch in its slots (R64, R69, R75): the copied record, the walk's cursor (the lowest undispatched ordinal)
with the ordinals already dispatched beyond it, iterations done, cells done of unfinished gang iterations, the
cells that are out, the devices that have placed some of them, the core of the last dispatch per die, cores that have had a cell, and the cells PREEMPT
awaits. -/
structure Launch where
  id : Nat
  ctx : Nat
  slot0 : Option Nat
  slot1 : Option Nat
  gang : Bool
  prio : Nat
  cls : Nat
  walk : Nat
  ext : List Nat
  members : BitVec 128
  base : List W64
  entry : List W32
  ready : List Ready
  params : W64
  complete : W64
  doms : List (Nat × W64)
  ends : List PlanEnd
  preload : List Preload
  st : LnState
  cursor : Nat
  ahead : List Nat
  disp : Nat
  done : Nat
  gangDone : List (Nat × Nat)
  outCells : Nat
  away : List Nat
  last0 : Option Nat
  last1 : Option Nat
  visited : List Nat
  awaited : List Nat
deriving DecidableEq, Repr

/-- A packet (R302); the payload in bytes. `port` is the port it came in by, 32 for the device's own loop, and 62 or 63 for a packet
of a host that the device has taken as its own. -/
structure Packet where
  port : Nat
  dst : Nat
  src : Nat
  cls : Nat
  op : Nat
  seq : Nat
  wid : Nat
  key : Nat
  off : Nat
  len : Nat
  core : Nat
  det : Bool
  payload : List Byte
deriving DecidableEq, Repr

/-- The kinds of parked full/empty operation (R248). -/
inductive FeKind | ldf | ldfe | stfe
deriving DecidableEq, Repr

/-- A parked operation at a sync word's home (R248): the core whose CTL waits, the kind, the granule, the value
of an STFE, the destination of a load, its ordering, and the request packet of a strand elsewhere. -/
structure Park where
  core : Nat
  kind : FeKind
  pa : Nat
  value : W64
  d : BitVec 6
  attr : Attr
  remote : Option Packet
deriving DecidableEq, Repr

/-- A readiness watch (R68). -/
structure Watch where
  launch : Nat
  pa : Nat
  seen : Bool
deriving DecidableEq, Repr

/-- What a delta is for (R96 to R98): a DUP with its destination register, a drop or consumed reference, a pin of
operation `n` of a context, or its unpin. -/
inductive DeltaFor | dup (d : BitVec 6) | drop | pin (x : TlCtx) (n : Nat) | unpin (x : TlCtx) (n : Nat)
deriving DecidableEq, Repr

/-- A message in flight inside the device (R96, R100, R262, R265, R276, R277, R279, R40). -/
inductive Msg
  /-- A delta from a strand of `src` on the tile of `h`, issued at cycle `at_`. -/
  | delta (src : Nat) (st : Strand) (h : W64) (amount : Int) (why : DeltaFor) (at_ : Nat) (inS : Bool)
  /-- A proxy's weight on its way home. -/
  | weight (src : Nat) (st : Strand) (h : W64)
  /-- Item `s` of a stream, with the pusher's core, its SQ number (of another device: the number of its packet), and
  its device. -/
  | item (a : Anchor) (s : Nat) (it : Item) (toCore : Nat) (src : Nat) (sq : Nat) (srcDev : Nat)
  /-- STOP to the write end. -/
  | stop (a : Anchor) (toCore : Nat)
  /-- GO, carrying POP, to the write end. -/
  | go (a : Anchor) (toCore : Nat) (pop : Nat)
  /-- The anchor binds the writer at `toCore` to another location, with the limit there and whether the read end is in
  transit. -/
  | rebind (a : Anchor) (toCore : Nat) (dev core : Nat) (hot moving : Bool) (old : Nat)
  /-- The writer's acknowledgement, to the old location. -/
  | rebound (a : Anchor) (toCore : Nat)
  /-- The anchor's orphan notice to an end's core: read end or write end, the cause, the final push number where it is
  known. -/
  | orphan (a : Anchor) (toCore : Nat) (read : Bool) (cause : Nat) (final : Option Nat)
  /-- An end that lay in a discarded item or in a killed cell is closed, with its counter, the number of the first item
  that its queue did not hold, and a cause. -/
  | closeEnd (a : Anchor) (write : Bool) (counter : Option Nat) (top cause : Nat)
  /-- The anchor learns to which device an end in transit has gone. -/
  | gone (a : Anchor) (write : Bool) (dev : Nat)
  /-- The survivor learns that the other end is in transit, or has landed. -/
  | moving (a : Anchor) (toCore : Nat) (read on : Bool)
  /-- A phase-close notice. -/
  | notice (core level : Nat)
deriving DecidableEq, Repr

/-- The pages of a given-base stock, read-only while its stream is open (R260). -/
structure StockRange where
  ctx : Nat
  va : Nat
  len : Nat
  anc : Anchor
deriving DecidableEq, Repr

/-- A copy-on-write under way (R291): context, virtual page, the leaf entry's place, the shared frame and the frame popped for the copy. -/
structure Cow where
  ctx : Nat
  va : Nat
  leafPa : Nat
  frame : Nat
  fresh : Nat
deriving DecidableEq, Repr

/-- A barrier phase (R40): level, domain id, phase, the fixed CNT, arrivals recorded, waiting cores. -/
structure Phase where
  level : Nat
  did : Nat
  phase : Nat
  cnt : Nat
  arrived : Nat
  waiting : List Nat
  bad : List Nat
deriving DecidableEq, Repr

/-- What a request in the retransmission buffer is for (R294, R296, R303). -/
inductive ReqFor
  /-- Part `n` of a load or RMW of a strand, which waits for the answer. -/
  | answer (core : Nat) (st : Strand) (n : Nat)
  /-- The withdrawal of the full/empty operation that a core's CTL parked at another device's home (R248, R307). -/
  | withdraw (core : Nat)
  /-- A strand's read-modify-write through window `w`, by the core's cell of that count (R296). -/
  | rmw (core : Nat) (st : Strand) (w cell : Nat)
  /-- A proxy's weight on its way to another device's home (R100). -/
  | weight (core : Nat) (st : Strand)
  /-- A part posted through window `w` by an instruction or engine of a strand, with its address. -/
  | posted (core : Nat) (st : Strand) (w : Nat) (va : W64) (cell ctx : Nat) (launch : W64)
  /-- Part `part` of what operation `n` of a core's timeline context `x` asked for. -/
  | engine (core x n part : Nat)
  /-- A write or a reduction through window `w` whose answer operation `n` of a core's timeline context waits for. -/
  | ask (core x n w : Nat)
  /-- A part posted by operation `n` of a core's timeline context, through window `w`. -/
  | enginePost (core x n w : Nat) (va : W64) (cell ctx : Nat) (launch : W64)
  /-- Item `n` of a stock on another device, for a core's read end; the strand whose pop asks for it, and the number of
  that request. -/
  | fetch (core : Nat) (a : Anchor) (n : Nat) (who : Option (Strand × Nat))
  /-- An item of a push numbered in SQ at a core. -/
  | item (core sq : Nat)
  /-- An item forwarded for another device's core: its device and the packet it came in. -/
  | relay (dev seq : Nat)
  /-- Part `part` of what a placement asks for: the image's issuing device, context and address (R277, R328). -/
  | place (dev ctx : Nat) (image : W64) (part : Nat)
  /-- The detach of an end that a stopped cell of a core held (R276, R282). -/
  | detach (core : Nat)
  /-- A PREST's request to another device's Dealer (R328). -/
  | prest (ctx : Nat) (image : W64) (core : Nat)
  /-- Stream traffic, responses, management, collectives; for a re-originated host packet the host's port plus 64 times
  its tag (R334). -/
  | other (port : Nat)
deriving DecidableEq, Repr

/-- A packet sent and not acknowledged (R303), with the port that last carried it. -/
structure OutPkt where
  pkt : Packet
  why : ReqFor
  sent : Nat
  first : Nat
  port : Option Nat
deriving DecidableEq, Repr

/-- The fabric side of the device (R300 to R303); `wire` holds the packets put on its ports, oldest first, each with the
port. -/
structure Net where
  outs : List OutPkt
  inbox : List Packet
  nextOut : List (Nat × Nat)
  nextIn : List (Nat × Nat)
  up : List Nat
  ids : List (Nat × Nat)
  replays : List (Nat × Nat)
  lost : List Nat
  bad : Nat
  wire : List (Nat × Packet)
deriving DecidableEq, Repr

/-- A placement request at a Dealer (R328, R329): the issuing device, context and core, the newest image's address,
the chain's contents as one image, the target core or any, ENTRY, the position if the cell is of a gang iteration, its
launch and ordinal, and what the placement has asked of other devices. -/
structure Place where
  dev : Nat
  ctx : Nat
  src : Nat
  image : W64
  img : SMap Byte
  core : Nat
  any : Bool
  entry : Bool
  gang : Option Nat
  launch : W64
  ordinal : Nat
  asked : Nat
  got : List Answer
deriving DecidableEq, Repr

/-- A token held of another device's region (R299): the device, the window id, the region, the die that is its home, and
the bytes written there and not yet written back, by offset of the export. -/
structure Borrowed where
  dev : Nat
  wid : Nat
  region : Nat
  die : Nat
  lines : List (Nat × Byte)
deriving DecidableEq, Repr

/-- A region lent to another device with its ownership token (R299): window id, region of 2 MiB of the export, the
holder, and the exporting context's addresses it covers. -/
structure Lent where
  wid : Nat
  region : Nat
  holder : Nat
  va : Nat
  len : Nat
deriving DecidableEq, Repr

/-- A member's part of a collective (R231): device, parameters, and its source elements. -/
structure CollPart where
  dev : Nat
  op : Nat
  t : Elem
  n : Nat
  rows : BitVec 16
  cols : BitVec 16
  data : List Byte
deriving DecidableEq, Repr

/-- A collective being joined (R231): id, the parts known, the local operation that joined (core, number), the cause
of its failure, and how many collectives of the id have ended here. -/
structure Coll where
  id : Nat
  parts : List CollPart
  joined : Option (Nat × Nat)
  failed : Option Nat
  ended : Nat
deriving DecidableEq, Repr

/-- Whose turn it is: the issuing core and strand, and the choice the turn makes among what the spec allows. -/
structure Who where
  core : Nat
  st : Strand
  choice : Nat
deriving DecidableEq, Repr

/-- A coming turn (log 1): a strand issues, the part takes one of its own steps, a load of a strand is performed ahead
of its instruction (R240), a write in a core's store path comes to be seen by the narrow loads of a die (R238), or the
outside world acts: a
packet arrives, another device's cells arrive at a level-4 phase, a host connects, or time passes. -/
inductive Turn
  | issue (core : Nat) (st : Strand) (choice : Nat)
  | event (e : Instr)
  | ahead (core : Nat) (st : Strand) (va : W64)
  | seen (core k die : Nat)
  | packet (p : Packet)
  | arrival (did phase cnt : Nat)
  | tick (n : Nat)
deriving DecidableEq, Repr

/-- A gang iteration that has been next on a die (R70): its launch, and the cluster reserved for it once one is free. -/
structure Reserve where
  die : Nat
  launch : Nat
  cluster : Option Nat
deriving DecidableEq, Repr

/-- The whole device. `gangTo` gives, for a gang iteration of saved cells (launch, ordinal), the device that restores
it, or 256 once it is disposed of (R329); `ships` holds the parts of images that other devices send (R328). -/
structure State where
  dev : Nat
  boot : Nat
  bootFail : Nat
  fwVersion : W64
  fwDigest : List Byte
  rollback : W64
  cores : SMap Core
  ctxs : SMap Ctx
  clusters : SMap Cluster
  mem : SMap Byte
  full : List Nat
  poison : List Nat
  parks : List Park
  watches : List Watch
  copy0 : List (Nat × W64)
  copy1 : List (Nat × W64)
  cows : List Cow
  launches : List Launch
  nextLaunch : Nat
  rr : SMap Nat
  resv : List Reserve
  budget : SMap W64
  budgetNext : List (Nat × W64)
  used : SMap Nat
  debt : SMap Nat
  holds : List Nat
  slips0 : List W64
  slips1 : List W64
  lost0 : Bool
  lost1 : Bool
  presscnt : W64
  presslen : Nat
  presslenNext : Nat
  periodStart : Nat
  phases : List Phase
  lentTok : List Lent
  heldTok : List Borrowed
  msgs : List Msg
  stocks : List StockRange
  clears : List (Anchor × Nat)
  net : Net
  places : List Place
  gangTo : List (W64 × Nat × Nat)
  ships : List (Nat × Nat × W64 × SMap Byte)
  colls : List Coll
  resp : List (Nat × List W64)
  mgmt : List (List W64)
  rows : SMap Nat
  tripped : Bool
  capped : Bool
  cycle : Nat
  agenda : List Turn
  cur : Who
  free : Nat
deriving DecidableEq, Repr

/-- Why the machine stops without a next state. -/
inductive Fault
  /-- Raised by `step` when the agenda gives, as an event, an instruction or a step that only happens inside another
  (a register write, an illegal word, a class held), or names a unit the device does not have: no such turn exists.
  Safe. -/
  | noSuchTurn
deriving DecidableEq, Repr

/-- Why an instruction has no meaning in the model. -/
inductive Refusal
  /-- Raised by no arm once every instruction has its meaning; the mnemonic is that of the opcode table. Safe. -/
  | notModelled (mnemonic : String)
deriving DecidableEq, Repr

/-- The result of a step. -/
abbrev Res := Host.Outcome State Fault Refusal

/-! ### Reset -/

def StrandSt.init : StrandSt :=
  { pc := 0, fpc := 0, moddef := 0x18, a := Vector.replicate 32 0, loop := none, rep := none, pre := none,
    ended := false, asked := 0, got := [], took := [], opt := 0, rel := 0, ic := [], ahead := [], acqC := 0, acqW := 0 }

def Tl.init : Tl := { base := 0, issued := 0, out := [], mark := none, stopped := false, reach := Vector.replicate 5 0 }

def Folio.init : Folio :=
  { count := 0, state := .free, fmt := .f32, used := false, win := false, rows := 0, cols := 0, first := 0,
    ngal := 0, gen := 0, expc := 0, expw := 0, ctx := 0, drains := 0, dead := false }

def Gal.init : Gal := { busy := false, folio := 0, ctx := 0 }

def Lease.init : Lease := { st := .none, gang := false, since := 0, used := 0, idle := 0, again := false, asking := false }

/-- A core right after reset (R22, R90, R255, R306, R307, R309, R331; log 3). -/
def Core.init : Core :=
  { ctl := .init, fet := .init, exe := .init, emi := .init
    s := Vector.replicate 64 0, p := 1, h := Vector.replicate 64 0
    k := (Vector.replicate 8 0).set 0 (BitVec.allOnes 1024)
    v := [], vPend := [], lent := 0, tq := Vector.replicate 12 [], tokPoison := []
    live := false, cell := 0, mode := .u, heldS := ⟨0, none⟩, heldM := ⟨0, none⟩
    shS := Vector.replicate 8 0, shM := Vector.replicate 8 0
    tl := Vector.replicate 4 .init, ops := Vector.replicate 4 []
    folio := [], folioPoison := [], gal := [], store := [], storePoison := [], pins := [], owedWeights := []
    quarter := [], mstat := 0, mrowp := 0, lease := .init
    trapvec := 0, trapcause := 0, trappc := 0, trapaddr := 0, trapinfo := 0, savedst := 0, monvec := 0
    launchid := 0, budcls := 0, dmemb := Vector.replicate 4 0, ctxid := 0, vfid := 0, ordinal := 0
    phase := Vector.replicate 4 0, arrived := 0, notified := 0, latch := false, gang := false
    lastgen := 0, lastimg := 0, dirtyV := 0, dirtyS := 0, dirtyG := 0, refused := [], stepArm := false, preempted := false
    transit := [], origins := [], raised := none
    stores := [], loads := [], dc := [], btb := [], tlb := [], wends := [], rends := []
    wallowOut := Vector.replicate 8 0
    rascnt := 0, raswin := 2 ^ 32, raswinNext := 2 ^ 32, winStart := 0, rasthr := 3, bankCnt := [], withdrawn := []
    freeze := 0, out := false, stopped := false }

/-- A context right after reset (R286, R296, R337). -/
def Ctx.init : Ctx :=
  { en := false, entryPtbase := 0, dmembDef := Vector.replicate 4 0, ptbase := 0, wallow := Vector.replicate 8 256,
    inst := 0, wins := [], exps := [], ls := none, lsPort := 0 }

/-- A cluster right after reset: the pointer stands as if position 3 had held the last lease (R166). -/
def Cluster.init : Cluster := { last := 3, gangAt := none, tlb := [] }

def Net.init : Net :=
  { outs := [], inbox := [], nextOut := [], nextIn := [], up := [], ids := [], replays := [], lost := [], bad := 0,
    wire := [] }

/-- The device right after reset (R81, R79, R166, R285, R336, R340; logs 2, 3 and 4). -/
def State.reset : State :=
  { dev := 0, boot := 0, bootFail := 0, fwVersion := 0, fwDigest := List.replicate 32 0, rollback := 0
    cores := [], ctxs := [], clusters := [], mem := [], full := [], poison := [], parks := [], watches := []
    copy0 := [], copy1 := [], cows := [], launches := [], nextLaunch := 1, rr := [], resv := []
    budget := [], budgetNext := [], used := [], debt := [], holds := [], slips0 := [], slips1 := []
    lost0 := false, lost1 := false, presscnt := 0, presslen := 65536, presslenNext := 65536, periodStart := 0
    phases := [], lentTok := [], heldTok := [], msgs := [], stocks := [], clears := [], net := .init, places := [], gangTo := [], ships := [], colls := [], resp := []
    mgmt := [], rows := [], tripped := false, capped := false, cycle := 0, agenda := [], cur := ⟨0, .ctl, 0⟩
    free := 0 }

/-- What an unlisted byte of memory reads as (log 2). -/
def memDefault : Byte := 0

/-- Memory is in canonical form. -/
abbrev Memory.wf (m : SMap Byte) : Prop := mwf memDefault m = true

end Sys2Proof.Machine
end

