-- ==== Sys2Proof/Machine/Ops.lean ====
section
/-! DEFINITION. The named operations over the registers of a core: reading and writing every register file, tokens,
the choice of the next word, charging a budget, taking a trap and returning from one, and the frame in which every
instruction issues and finishes. -/

namespace Sys2Proof

def Strand.code : Strand → Nat | .ctl => 0 | .fet => 1 | .exe => 2 | .emi => 3
def Strand.ofCode : Nat → Strand | 0 => .ctl | 1 => .fet | 2 => .exe | _ => .emi
def TlCtx.idx : TlCtx → Nat | .fa => 0 | .mx => 1 | .ea => 2 | .sq => 3
/-- Whether an order code acquires on a read part, or releases on a write part (R242). -/
def Order.acqs : Order → Bool | .acq | .ar => true | _ => false
def Order.rels : Order → Bool | .rel | .ar => true | _ => false

/-- The three other strands of a strand, in R13's order. -/
def Strand.others : Strand → List Strand
  | .ctl => [.fet, .exe, .emi] | .fet => [.ctl, .exe, .emi] | .exe => [.ctl, .fet, .emi] | .emi => [.ctl, .fet, .exe]

/-- The strands a POP or PUSH field names (R13, R47). -/
def Strand.named (st : Strand) (f : BitVec 3) : List Strand :=
  ((st.others.zip [f.getLsbD 2, f.getLsbD 1, f.getLsbD 0]).filter (·.2)).map (·.1)

/-- Bytes of the issuing strand's word. -/
def Strand.size : Strand → Nat | .ctl => 4 | _ => 8

end Sys2Proof

namespace Sys2Proof.Machine

/-! ### Cells of the state -/

/-- Entry `i` of a vector, `d` past its end. -/
def vget {α : Type} {n : Nat} (d : α) (v : Vector α n) (i : Nat) : α := (v[i]?).getD d

/-- The vector with entry `i` set; nothing past its end. -/
def vset {α : Type} {n : Nat} (v : Vector α n) (i : Nat) (x : α) : Vector α n := v.setIfInBounds i x

def State.core (s : State) (c : Nat) : Core := mget .init s.cores c
def State.setCore (s : State) (c : Nat) (k : Core) : State := { s with cores := mset .init s.cores c k }
def State.modCore (s : State) (c : Nat) (f : Core → Core) : State := s.setCore c (f (s.core c))
def State.ctx (s : State) (c : Nat) : Ctx := mget .init s.ctxs c
def State.modCtx (s : State) (c : Nat) (f : Ctx → Ctx) : State := { s with ctxs := mset .init s.ctxs c (f (s.ctx c)) }
def State.cluster (s : State) (c : Nat) : Cluster := mget .init s.clusters c
def State.modCluster (s : State) (c : Nat) (f : Cluster → Cluster) : State :=
  { s with clusters := mset .init s.clusters c (f (s.cluster c)) }

/-- The issuing core. -/
def State.me (s : State) : Core := s.core s.cur.core
def State.modMe (s : State) (f : Core → Core) : State := s.modCore s.cur.core f

def Core.strand (k : Core) : Strand → StrandSt
  | .ctl => k.ctl | .fet => k.fet | .exe => k.exe | .emi => k.emi
def Core.setStrand (k : Core) (st : Strand) (x : StrandSt) : Core :=
  match st with
  | .ctl => { k with ctl := x } | .fet => { k with fet := x } | .exe => { k with exe := x } | .emi => { k with emi := x }
def Core.modStrand (k : Core) (st : Strand) (f : StrandSt → StrandSt) : Core := k.setStrand st (f (k.strand st))

/-- The issuing strand. -/
def State.my (s : State) : StrandSt := s.me.strand s.cur.st
def State.modMy (s : State) (f : StrandSt → StrandSt) : State := s.modMe (fun k => k.modStrand s.cur.st f)

def Mode.code : Mode → Nat | .u => 0 | .s => 1 | .m => 2
def Mode.ofCode : Nat → Mode | 0 => .u | 1 => .s | _ => .m

/-- The die of a core (R70). -/
def dieOf (c : Nat) : Nat := c / 64
/-- The cluster of a core, 0 to 15 on die 0 and 16 to 31 on die 1 (R70). -/
def clusterOf (c : Nat) : Nat := 16 * (c / 64) + 4 * (c % 64 / 16) + c % 8 / 2
/-- A core's position in its cluster (R70). -/
def posOf (c : Nat) : Nat := 2 * (c % 64 / 8 % 2) + c % 2
/-- The core at a position of a cluster (R70). -/
def coreAt (cl q : Nat) : Nat := 64 * (cl / 16) + 8 * (2 * (cl % 16 / 4) + q / 2) + 2 * (cl % 4) + q % 2

/-- The mode in which the issuing strand runs (R304). -/
def State.mode (s : State) : Mode := if s.cur.st = .ctl then s.me.mode else .u

/-- The issuing cell's context (R61). -/
def Core.ctxOf (k : Core) : Nat := (fld k.ctxid 0 9).toNat
/-- The budget class charged (R81). -/
def Core.cls (k : Core) : Nat := (fld k.budcls 0 6).toNat
/-- The issuing cell's launch on its own device (R81). -/
def Core.launchNo (k : Core) : Nat := (fld k.launchid 0 24).toNat

/-! ### Registers (R22, R62) -/

def Core.rS (k : Core) (r : BitVec 6) : W64 := if r = 0 then 0 else vget 0 k.s r.toNat
def Core.wS (k : Core) (r : BitVec 6) (v : W64) : Core := if r = 0 then k else { k with s := vset k.s r.toNat v }
def Core.rP (k : Core) (p : BitVec 3) : Bool := p == 0 || k.p.getLsbD p.toNat
def Core.wP (k : Core) (p : BitVec 3) (v : Bool) : Core :=
  if p = 0 then k else
    { k with p := BitVec.ofNat 8 (k.p.toNat - (if k.p.getLsbD p.toNat then 2 ^ p.toNat else 0) +
        (if v then 2 ^ p.toNat else 0)) }
def Core.rH (k : Core) (r : BitVec 6) : W64 := if r = 0 then 0 else vget 0 k.h r.toNat
def Core.wH (k : Core) (r : BitVec 6) (v : W64) : Core := if r = 0 then k else { k with h := vset k.h r.toNat v }
def Core.rA (k : Core) (st : Strand) (r : BitVec 5) : W64 := if r = 0 then 0 else vget 0 (k.strand st).a r.toNat
def Core.wA (k : Core) (st : Strand) (r : BitVec 5) (v : W64) : Core :=
  if r = 0 then k else k.modStrand st (fun x => { x with a := vset x.a r.toNat v })
def Core.rK (k : Core) (r : BitVec 3) : BitVec 1024 :=
  if r = 0 then BitVec.allOnes 1024 else vget 0 k.k r.toNat
def Core.wK (k : Core) (r : BitVec 3) (v : BitVec 1024) : Core := if r = 0 then k else { k with k := vset k.k r.toNat v }
def Core.rV (k : Core) (v : Nat) : VReg := mget [] k.v v
/-- A write of a V register sets its dirty bit (R326). -/
def Core.wV (k : Core) (v : Nat) (x : VReg) : Core :=
  { k with v := mset [] k.v v x, dirtyV := k.dirtyV ||| BitVec.ofNat 384 (2 ^ v) }

def State.rS (s : State) (r : BitVec 6) : W64 := s.me.rS r
def State.wS (s : State) (r : BitVec 6) (v : W64) : State := s.modMe (·.wS r v)
def State.rP (s : State) (p : BitVec 3) : Bool := s.me.rP p
def State.wP (s : State) (p : BitVec 3) (v : Bool) : State := s.modMe (·.wP p v)
def State.rH (s : State) (r : BitVec 6) : W64 := s.me.rH r
def State.wH (s : State) (r : BitVec 6) (v : W64) : State := s.modMe (·.wH r v)
def State.rA (s : State) (r : BitVec 5) : W64 := s.me.rA s.cur.st r
def State.wA (s : State) (r : BitVec 5) (v : W64) : State := s.modMe (·.wA s.cur.st r v)

/-- A number as a dword; as R62 has it, the low bits are kept. -/
def w64 (n : Nat) : W64 := BitVec.ofNat 64 n
def w64i (v : Int) : W64 := BitVec.ofInt 64 v
/-- Sign extension of a field to a dword (R62). -/
def sext64 {n : Nat} (x : BitVec n) : W64 := x.signExtend 64

/-! ### Memory attributes (R46, R50, R60, R249) -/

/-- The attributes a MODDEF value stands for (R60). -/
def attrOf (m : W32) : Attr :=
  ⟨(Order.ofCode (fld m 0 3)).getD .rlx, (Scope.ofCode (fld m 3 3)).getD .dev, (Cache.ofCode (fld m 6 3)).getD .normal⟩

/-- MODDEF after a write of `v`: a field given an unassigned code keeps its value (R60). -/
def moddefWrite (old : W32) (v : W64) : W32 :=
  let o := if (Order.ofCode (fld v 0 3)).isSome then fld v 0 3 else fld old 0 3
  let c := if (Scope.ofCode (fld v 3 3)).isSome then fld v 3 3 else fld old 3 3
  let k := if (Cache.ofCode (fld v 6 3)).isSome then fld v 6 3 else fld old 6 3
  BitVec.ofNat 32 (o.toNat + 8 * c.toNat + 64 * k.toNat)

/-- The attributes of the issuing instruction's accesses: its prefix's, or MODDEF's (R249). -/
def State.attr (s : State) : Attr :=
  match s.my.pre with
  | some p => p.attr
  | none => attrOf s.my.moddef

/-! ### Stops of an instruction -/

/-- What ends an instruction without its finishing: a trap, in the state with the effects that stand, or a wait, in
the state with what the wait has already done. -/
inductive Stop
  | trap (t : Trap) (s : State)
  | wait (s : State)
deriving DecidableEq, Repr

abbrev Try := Except Stop

/-- TRAP(code), with a data address (R63). -/
def trapAt {α : Type} (s : State) (cause : Nat) (addr : W64) : Try α := .error (.trap ⟨cause, addr, 0, none, none⟩ s)
/-- TRAP(code) (R63). -/
def trap {α : Type} (s : State) (cause : Nat) : Try α := trapAt s cause 0
/-- TRAP(code) with a value for TRAPINFO (R310). -/
def trapInfo {α : Type} (s : State) (cause : Nat) (info : W64) : Try α := .error (.trap ⟨cause, 0, info, none, none⟩ s)
/-- UNCORRECTABLE, with the address of the poisoned data and the bank that holds them, 0 for memory (R310, R333, log 93). -/
def trapBad {α : Type} (s : State) (addr : W64) (bank : Nat) : Try α :=
  .error (.trap ⟨0xB0, addr, w64 bank, none, none⟩ s)
/-- WAIT_UNTIL whose condition does not hold (R63). -/
def block {α : Type} (s : State) : Try α := .error (.wait s)
/-- TRAP(code) if a condition holds. -/
def trapIf (s : State) (b : Bool) (cause : Nat) : Try Unit := if b then trap s cause else .ok ()
/-- WAIT_UNTIL(b). -/
def waitFor (s : State) (b : Bool) : Try Unit := if b then .ok () else block s
/-- A privileged instruction in U mode traps with PRIV_ACCESS (R315). -/
def needPriv (s : State) : Try Unit := trapIf s (s.mode == .u) 0x02

/-! ### Tokens (R25, R26, R30) -/

/-- The queue X→Y among the 12 (R25). -/
def qIdx (x y : Strand) : Nat := 3 * x.code + (if x.code < y.code then y.code - 1 else y.code)

def Core.queue (k : Core) (x y : Strand) : List Token := vget [] k.tq (qIdx x y)
def Core.setQueue (k : Core) (x y : Strand) (q : List Token) : Core := { k with tq := vset k.tq (qIdx x y) q }

/-- A token filled into X→Y; one for CTL sets the event latch (R320). -/
def Core.push (k : Core) (x y : Strand) (t : Token) : Core :=
  let k := k.setQueue x y (k.queue x y ++ [t])
  if y = .ctl then { k with latch := true } else k

/-- The head of X→Y removed. -/
def Core.pop (k : Core) (x y : Strand) : Core := k.setQueue x y (k.queue x y).tail

/-- A use of a poisoned token queue (R333). -/
def checkTok (s : State) (q : Nat) : Try Unit := if s.me.tokPoison.contains q then trapBad s 0 77 else .ok ()

/-! ### The next word (R36, R38) -/

/-- A strand after its word of `size` bytes, in execution order (R36): the next word, or a body's first word with a
pass less. -/
def StrandSt.advance (x : StrandSt) (word size : Nat) : StrandSt :=
  let pc := x.pc + w64 size
  match x.loop with
  | none => { x with pc := pc }
  | some l =>
    if pc = l.start + w64 (l.len * word) then
      if l.left.toNat ≤ 1 then { x with pc := pc, loop := none }
      else { x with pc := l.start, loop := some { l with left := l.left - 1 } }
    else { x with pc := pc }

/-- A strand after an issue of its word: the next issue of a repetition, or the next word (R38). -/
def StrandSt.next (x : StrandSt) (word size : Nat) : StrandSt :=
  match x.rep with
  | some r =>
    if r.idx + 1 < r.count then { x with pc := r.at_, rep := some { r with idx := r.idx + 1 } }
    else { x.advance word size with rep := none }
  | none => x.advance word size

/-- A taken branch or jump ends the loop (R36). -/
def StrandSt.jump (x : StrandSt) (pc : W64) : StrandSt := { x with pc := pc, loop := none, rep := none }

/-- Nothing of an instruction that did not finish stays: the strand stands at its first word, or at its prefix
(R46, R307). -/
def StrandSt.settle (x : StrandSt) : StrandSt :=
  { x with pc := (match x.pre with | some p => p.at_ | none => x.pc), pre := none, asked := 0, got := [], took := [],
           rel := 0, ahead := [] }

/-- The instruction of a strand has finished or is withdrawn: nothing of its requests stays. -/
def StrandSt.clear (x : StrandSt) : StrandSt := { x with pre := none, asked := 0, got := [], took := [], rel := 0 }

/-! ### Budgets (R79) -/

/-- The key of an account: die, class, resource. -/
def acct (die cls res : Nat) : Nat := 512 * die + 8 * cls + res

/-- A class's budget of this period for a resource, less its debt; none if unlimited (R79). -/
def State.allow (s : State) (die cls res : Nat) : Option Nat :=
  let b := mget (BitVec.allOnes 64) s.budget (8 * cls + res)
  if b = BitVec.allOnes 64 then none else some (b.toNat - mget 0 s.debt (acct die cls res))

/-- Whether a class is held on a die (R79). -/
def State.held (s : State) (die cls : Nat) : Bool := s.holds.contains (64 * die + cls)

/-- A slip record (R80). -/
def slipRec (s : State) (die cls res : Nat) (lost : Bool) : W64 :=
  w64 ((s.presscnt.toNat % 2 ^ 24) * 2 ^ 40 + ((s.cycle - s.periodStart) % 2 ^ 24) * 2 ^ 16 + cls * 64 + res * 8 +
    die * 4 + (if lost then 2 else 0) + 1)

/-- A slip stored in a die's log of 64, or lost (R80). -/
def State.slip (s : State) (die cls res : Nat) : State :=
  if die = 0 then
    if s.slips0.length < 64 then { s with slips0 := s.slips0 ++ [slipRec s die cls res s.lost0], lost0 := false }
    else { s with lost0 := true }
  else
    if s.slips1.length < 64 then { s with slips1 := s.slips1 ++ [slipRec s die cls res s.lost1], lost1 := false }
    else { s with lost1 := true }

/-- A class ran out of a resource: it is held until the end of the period, with a slip for that resource (R79). -/
def State.exhaust (s : State) (die cls res : Nat) : State :=
  { s.slip die cls res with holds := addSet (64 * die + cls) s.holds }

/-- A charge of `n` units; the one that reaches the budget exhausts it (R79). -/
def State.charge (s : State) (die cls res n : Nat) : State :=
  match s.allow die cls res with
  | none => s
  | some b =>
    let was := mget 0 s.used (acct die cls res)
    let s := { s with used := mset 0 s.used (acct die cls res) (was + n) }
    if was < b && b ≤ was + n then s.exhaust die cls res else s

/-- A charge to a core's cell: on the issuing core's die, to its class (R79). -/
def State.chargeCore (s : State) (c res n : Nat) : State := s.charge (dieOf c) (s.core c).cls res n

/-! ### Taking a trap and returning (R305 to R317) -/

/-- S56 to S63 (R307). -/
def Core.upper (k : Core) : Vector W64 8 := Vector.ofFn (fun i => vget 0 k.s (56 + i.val))
def Core.setUpper (k : Core) (u : Vector W64 8) : Core :=
  { k with s := Vector.ofFn (fun i => if i.val < 56 then vget 0 k.s i.val else vget 0 u (i.val - 56)) }

/-- SAVEDST's fields (R309). -/
def stLIVE : Nat := 15
def stDET : Nat := 14
def stPEND : Nat := 13
def stSTEP : Nat := 12

/-- The word with a bit set or cleared. -/
def setBit (w : W64) (i : Nat) (b : Bool) : W64 :=
  if w.getLsbD i = b then w else if b then w + w64 (2 ^ i) else w - w64 (2 ^ i)

/-- TRAPCAUSE (R309). -/
def causeWord (st : Strand) (frm : Mode) (t : Trap) : W64 :=
  w64 ((match t.actx with | some x => 2 ^ 15 + x * 2 ^ 12 | none => 0) + st.code * 2 ^ 10 + frm.code * 2 ^ 8 +
    t.cause % 256)

/-- The address a strand resumes at after a trap of its own (R310). -/
def resumePc (x : StrandSt) (t : Trap) : W64 := t.next.getD x.settle.pc

/-- Every strand of a core stops at an instruction boundary (R307 step 2): prefixes, parked FE operations and waits
are withdrawn; a lease request stays (R166). -/
def stopStrands (c : Nat) (s : State) : State :=
  { s.modCore c (fun k =>
      { k with ctl := k.ctl.settle, fet := k.fet.settle, exe := k.exe.settle, emi := k.emi.settle,
               raised := none, btb := [] }) with
    parks := s.parks.filter (fun p => p.core != c || p.remote.isSome) }

/-- The monitor save area of a core (R285, R336). -/
def saveArea (c : Nat) : Nat := 0x10400000 + 4096 * c

/-- A dword of physical memory. -/
def State.rd64 (s : State) (pa : Nat) : W64 := w64 (leNat (mgets memDefault s.mem pa 8))
def State.wr64 (s : State) (pa : Nat) (v : W64) : State := { s with mem := msets memDefault s.mem pa (leBytes 8 v.toNat) }
def State.rd32 (s : State) (pa : Nat) : W32 := BitVec.ofNat 32 (leNat (mgets memDefault s.mem pa 4))
def State.wr32 (s : State) (pa : Nat) (v : W32) : State := { s with mem := msets memDefault s.mem pa (leBytes 4 v.toNat) }

/-- Entry into S mode (R307). -/
def enterS (c : Nat) (st : Strand) (t : Trap) (s : State) : State :=
  let pc := resumePc ((s.core c).strand st) t
  (stopStrands c s).modCore c (fun k =>
    let k := k.modStrand st (fun x => { x with pc := pc })
    let held : Held := ⟨k.ctl.pc, k.ctl.loop⟩
    let k := { k with
      trapcause := causeWord st k.mode t, trappc := pc, trapaddr := t.addr, trapinfo := t.info,
      savedst := setBit (w64 ((k.savedst.toNat / 4 % 2 ^ 13) * 4 + k.mode.code)) stLIVE true,
      heldS := held, stepArm := false, mode := .s,
      shS := k.upper }
    { (k.setUpper (s.core c).shS) with
      ctl := { k.ctl with pc := k.trapvec &&& 0x000FFFFFFFFFFFFC, loop := none } })

/-- A checkstop: every strand and engine of the core stops and the core leaves dispatch; MONITOR_ENTRY then kills
its cell (R312). -/
def checkstop (c : Nat) (s : State) : State :=
  { (stopStrands c s).modCore c (fun k =>
      { k with stopped := true, out := true, raised := some (.ctl, ⟨0xB2, 0, 0, none, none⟩) }) with
    mgmt := s.mgmt ++ [[w64 (0xB2 + s.dev * 2 ^ 8 + c * 2 ^ 16), 0, 0, s.presscnt]] }

/-- Whether the monitor's handler can be fetched: it lies in memory (R306, R312). -/
def memOk (pa : Nat) : Bool := pa < 0x2CB4178000 || (0x3000000000 ≤ pa && pa < 0x5CB4178000)

/-- Entry into M mode (R306): the record goes to the core's save area (log 6), S56 to S63 to the M-mode shadow set,
CTL continues at MONVEC. -/
def enterM (c : Nat) (st : Strand) (t : Trap) (s : State) : State :=
  let k0 := s.core c
  let pc := resumePc (k0.strand st) t
  let h := k0.monvec &&& 0x000FFFFFFFFFFFFC
  if !memOk h.toNat then checkstop c s
  else
    let s := (stopStrands c s).modCore c (fun k =>
      let k := k.modStrand st (fun x => { x with pc := pc })
      let k := { k with heldM := ⟨k.ctl.pc, k.ctl.loop⟩, mode := .m, shM := k.upper, stepArm := false }
      { (k.setUpper k0.shM) with ctl := { k.ctl with pc := h, loop := none } })
    let a := saveArea c
    ((((s.wr64 a (w64 (2 ^ stLIVE + k0.mode.code))).wr64 (a + 8) (causeWord st k0.mode t)).wr64 (a + 16) pc).wr64
      (a + 24) t.addr).wr64 (a + 32) t.info

/-- Whether a cause enters M mode from U mode (R305). -/
def toMonitor (cause : Nat) : Bool := 0xB1 ≤ cause && cause ≤ 0xBF

/-- The entry of a trap, by the mode in which it arises (R305). -/
def enter (c : Nat) (st : Strand) (t : Trap) (s : State) : State :=
  match (s.core c).mode with
  | .u => if toMonitor t.cause then enterM c st t s else enterS c st t s
  | .s => enterM c st t s
  | .m => if t.cause = 0x0B then enterM c st t s else checkstop c s

/-- Whether no instruction that another strand of the core has issued is unfinished (R307 step 2). -/
def quiet (k : Core) (st : Strand) : Bool :=
  k.loads.isEmpty && st.others.all (fun x => (k.strand x).asked == 0)

/-- TAKING A TRAP of a strand: at once where nothing is unfinished, else as soon as it is (TRAP_ENTRY). A trap that
arises while PREEMPT stops the cell is taken, with PEND set; beside a trap that waits, another has no effect and
arises again (R308). -/
def takeTrap (c : Nat) (st : Strand) (t : Trap) (s : State) : State :=
  let go (s : State) : State :=
    if quiet (s.core c) st then enter c st t s
    else s.modCore c (fun k => { k.modStrand st StrandSt.settle with raised := some (st, t) })
  match (s.core c).raised with
  | none => go s
  | some (_, r) =>
    if r.cause = 0xA0 then
      go (s.modCore c (fun k => { k with raised := none, savedst := setBit k.savedst stPEND true }))
    else s.modCore c (fun k => k.modStrand st StrandSt.settle)

/-! ### Issue and finish -/

/-- The resource of a strand's issue (R79): CTL, FET, EXE, EMI. -/
def issueRes (st : Strand) : Nat := st.code

/-- CTL's instruction finished: the strand goes on, its issue is charged, and a single step traps (R317). -/
def finishCtl (c : Nat) (jump : Bool) (armed : Bool) (s : State) : State :=
  let s := (s.modCore c (fun k => k.modStrand .ctl (fun x =>
    (if jump then x else x.advance 4 4).clear))).chargeCore c 0 1
  if armed && (s.core c).stepArm then
    takeTrap c .ctl ⟨0x05, 0, 0, some (s.core c).ctl.pc, none⟩ (s.modCore c (fun k => { k with stepArm := false }))
  else s

/-- The outcome of an instruction: a trap is taken (a NEXT state), a wait leaves the strand where it is. -/
def settle (c : Nat) (st : Strand) (r : Try State) : Res :=
  match r with
  | .ok s => .next s
  | .error (.trap t s) => .next (takeTrap c st t s)
  | .error (.wait s) => .next s

/-- The choices of the turn at which an instruction issues stay with it while it waits for answers. -/
def noteTurn (was : State) (r : Try State) : Try State :=
  match r with
  | .error (.wait s) =>
    .error (.wait (if was.my.asked = 0 && s.my.asked ≠ 0 then s.modMy (fun x => { x with opt := s.cur.choice }) else s))
  | r => r

/-- A CTL instruction: its effect, then the next word. -/
def runCtl (s : State) (b : State → Try State) : Res :=
  settle s.cur.core .ctl (noteTurn s ((b s).map (finishCtl s.cur.core false s.me.stepArm)))

/-- A CTL instruction that sets the pc itself. -/
def runJump (s : State) (b : State → Try State) : Res :=
  settle s.cur.core .ctl ((b s).map (finishCtl s.cur.core true s.me.stepArm))

/-- The POP and PUSH conditions of a wide instruction, whose own check comes first where it has one (R26, R56). An
instruction that has issued has met them. -/
def clauseReady (c : Clause) (s : State) (first : Try Unit := .ok ()) : Try Unit := do
  let st := s.cur.st
  let k := s.me
  let pops := st.named c.pop
  let pushes := st.named c.push
  if s.my.asked = 0 then
    if pops.any (fun x => k.tokPoison.contains (qIdx x st)) then
      first
      trapBad s 0 77
    waitFor s (pops.all (fun x => !(k.queue x st).isEmpty) && pushes.all (fun y => (k.queue st y).length < 16))

/-- POP heads removed (R26). -/
def popHeads (c : Clause) (s : State) : State :=
  s.modMe (fun k => (s.cur.st.named c.pop).foldl (fun k x => k.pop x s.cur.st) k)

/-- An instruction issues without finishing: its POP heads are removed and kept beside it, with its turn's choices. The
entries it reserves are its own: no other instruction pushes to these queues before it finishes (R25, R26). -/
def takeHeads (c : Clause) (s : State) : State :=
  let st := s.cur.st
  let heads := (st.named c.pop).map (fun x => (qIdx x st, (s.me.queue x st).headD ⟨false, 0⟩))
  (popHeads c s).modMy (fun x => { x with took := heads, opt := s.cur.choice })

/-- The tokens of an instruction that traps after its issue are in their queues as before (R31). -/
def untake (s : State) : State :=
  s.modMe (fun k => { k.modStrand s.cur.st (fun x => { x with took := [] }) with
    tq := s.my.took.foldl (fun q p => vset q p.1 (p.2 :: vget [] q p.1)) k.tq })

/-- POP heads removed, unless the issue removed them, and PUSH entries filled with `t` at finish (R26, R35). -/
def clauseDone (c : Clause) (t : Token) (s : State) : State :=
  let st := s.cur.st
  (if s.my.took.isEmpty then popHeads c s else s).modMe (fun k => (st.named c.push).foldl (fun k y => k.push st y t) k)

/-- A wide instruction finished. -/
def finishWide (words : Nat) (jump : Bool) (s : State) : State :=
  (s.modMy (fun x => (if jump then x else x.next 8 (8 * words)).clear)).chargeCore s.cur.core (issueRes s.cur.st) 1

/-- An effect that never stops. -/
def always (f : State → State) (s : State) : Try State := .ok (f s)

/-- A fresh unspecified byte string (log 17). -/
def State.freeBytes (s : State) (n : Nat) : List Byte × State :=
  ((List.range n).map (fun i => Config.freeByte (s.free + i)), { s with free := s.free + n })

end Sys2Proof.Machine
end

