-- ==== Sys2Proof/Machine/Mem.lean ====
section
/-! DEFINITION. Memory: the address space (R284, R285), page tables (R286, R287), page counts and copy-on-write
(R289 to R292), events (R313), the homes, the store path and the copies (R236 to R242), poison (R333), windows
and posted writes (R293 to R296), packets sent (R302, R303). -/

namespace Sys2Proof.Machine

/-! ### Physical memory (R285) -/

/-- Device-reserved memory. -/
def reservedPa (pa : Nat) : Bool := pa < 0x20000000 || (0x3000000000 ≤ pa && pa < 0x3000400000)
/-- Beyond the device's memory. -/
def beyond (pa : Nat) : Bool := !memOk pa || reservedPa pa
/-- The die that is a location's home (R236). -/
def homeDie (pa : Nat) : Nat := if pa < 0x3000000000 then 0 else 1

def State.bytes (s : State) (pa n : Nat) : List Byte := mgets memDefault s.mem pa n
/-- Whether any 8-byte granule of a range is poisoned (R333). -/
def State.bad (s : State) (pa n : Nat) : Bool := s.poison.any (fun g => pa < 8 * g + 8 && 8 * g < pa + n)
/-- Poison of a range after a write: a full overwrite clears a granule, a write of poisoned data poisons it (R333). -/
def poisonAfter (old : List Nat) (pa n : Nat) (p : Bool) : List Nat :=
  if p then (List.range ((pa + n + 7) / 8 - pa / 8)).foldl (fun m i => addSet (pa / 8 + i) m) old
  else old.filter (fun g => !(pa ≤ 8 * g && 8 * g + 8 ≤ pa + n))
/-- The tag of the 8-byte word at a physical address (R248). -/
def State.isFull (s : State) (pa : Nat) : Bool := s.full.contains (pa / 8)
def State.setFull (s : State) (pa : Nat) (b : Bool) : State :=
  { s with full := if b then addSet (pa / 8) s.full else delSet (pa / 8) s.full }

/-! ### Copies (R237): a die's copies of lines homed on the other die, a core's CTL data cache -/

/-- Copies of the granules a write or a read from home touches, made current. -/
def refresh (s : State) (pa n : Nat) (m : List (Nat × W64)) : List (Nat × W64) :=
  m.map (fun p => if pa < 8 * p.1 + 8 && 8 * p.1 < pa + n then (p.1, s.rd64 (8 * p.1)) else p)
def State.copies (s : State) (die : Nat) : List (Nat × W64) := if die = 0 then s.copy0 else s.copy1
def State.setCopies (s : State) (die : Nat) (m : List (Nat × W64)) : State :=
  if die = 0 then { s with copy0 := m } else { s with copy1 := m }
/-- The copies a core loads from, made current over a range. -/
def State.refreshFor (s : State) (c pa n : Nat) : State :=
  if (s.copies (dieOf c)).isEmpty && (s.core c).dc.isEmpty then s
  else
    (s.setCopies (dieOf c) (refresh s pa n (s.copies (dieOf c)))).modCore c (fun k => { k with dc := refresh s pa n k.dc })
/-- A die's copies over a range, and those its cores hold, made current. -/
def State.refreshDie (s : State) (die pa n : Nat) : State :=
  (s.cores.filter (fun q => dieOf q.1 = die)).foldl (fun s q => s.refreshFor q.1 pa n)
    (s.setCopies die (refresh s pa n (s.copies die)))
/-- Bytes as copies hold them, home bytes where there is no copy. -/
def viaCopies (s : State) (m : List (Nat × W64)) (pa n : Nat) : List Byte :=
  (List.range n).map (fun i =>
    match look ((pa + i) / 8) m with
    | some w => fld w (8 * ((pa + i) % 8)) 8
    | none => mget memDefault s.mem (pa + i))

/-- Whether a queued store touches a range. -/
def StoreOp.hits (o : StoreOp) (pa n : Nat) : Bool := o.pa < pa + n && pa < o.pa + o.bytes.length
/-- Whether the narrow loads of a die already see a queued store (R238). -/
def StoreOp.seen (o : StoreOp) (die : Nat) : Bool := if die = 0 then o.seen0 else o.seen1
/-- The writes to a range that a die's narrow loads see before their home does, of the cores other than `c` (R238). -/
def State.seenWrites (s : State) (c die pa n : Nat) : List StoreOp :=
  ((s.cores.filter (fun q => q.1 != c)).map (fun q => q.2.stores.filter (fun o => o.seen die && o.hits pa n))).flatten
/-- Bytes with writes laid over them, the oldest first. -/
def forward (ops : List StoreOp) (pa : Nat) (bs : List Byte) : List Byte :=
  ops.foldl (fun bs o =>
    bs.zipIdx.map (fun p => if o.pa ≤ pa + p.2 && pa + p.2 < o.pa + o.bytes.length then
      o.bytes.getD (pa + p.2 - o.pa) 0 else p.1)) bs

/-- A write performed at its home, in its coherence order (R236): bytes, poison, and the writer's own copies. -/
def performWrite (s : State) (c pa : Nat) (bs : List Byte) (p : Bool) : State :=
  ({ s with mem := msets memDefault s.mem pa bs, poison := poisonAfter s.poison pa bs.length p }).refreshFor c pa
    bs.length

/-! ### Translation (R284 to R288) -/

/-- Regions of the 52-bit space (R284). -/
inductive Region | page | window (w off : Nat) | tile (core off : Nat) | none
deriving DecidableEq, Repr

def regionOf (va : Nat) : Region :=
  if va < 0xE000000000000 then .page
  else if va < 0xE000000000000 + 2 ^ 48 then .window ((va - 0xE000000000000) / 2 ^ 45) (va % 2 ^ 45)
  else if 0xF000000000000 ≤ va && va < 0xF000000000000 + 2 ^ 30 then
    .tile ((va - 0xF000000000000) / 2 ^ 23) (va % 2 ^ 23)
  else .none

/-- The root table of a context. -/
def State.root (s : State) (ctx : Nat) : Nat := (s.ctx ctx).ptbase.toNat / 65536 % 2 ^ 36 * 65536

/-- A page-table entry read at its home: PAGE_ABSENT, PT_BAD, or the entry (R287). -/
def pte (s : State) (pa : Nat) : Except Nat W64 :=
  let e := s.rd64 pa
  if s.bad pa 8 then .error 0xB0
  else if !e.getLsbD 0 then .error 0x20
  else if fld e 52 12 != 0 || fld e 8 4 != 0 then .error 0x25
  else if beyond (e.toNat / 4096 * 4096) then .error 0x25
  else .ok e

/-- The leaf of a virtual page, its place and the log2 of the page size (R286, R287). -/
def walk (s : State) (ctx va : Nat) : Except Nat (W64 × Nat × Nat) := do
  let root := s.root ctx
  if beyond root || beyond (root + 65535) then .error 0x2B
  let next (e : W64) : Nat := e.toNat / 4096 * 4096
  let e0 ← pte s (root + 8 * (va / 2 ^ 39 % 8192))
  if !e0.getLsbD 1 then .error 0x25
  let e1 ← pte s (next e0 + 8 * (va / 2 ^ 30 % 512))
  if !e1.getLsbD 1 then .error 0x25
  let p2 := next e1 + 8 * (va / 2 ^ 21 % 512)
  let e2 ← pte s p2
  if !e2.getLsbD 1 then
    if fld e2 12 9 != 0 then .error 0x25 else pure (e2, p2, 21)
  else
    let p3 := next e2 + 8 * (va / 2 ^ 12 % 512)
    let e3 ← pte s p3
    if e3.getLsbD 1 then .error 0x25
    else if e3.getLsbD 7 then
      if e3.toNat / 4096 % 16 != va / 4096 % 16 then .error 0x25 else pure (e3, p3, 16)
    else pure (e3, p3, 12)

/-- The frame number of a leaf's page: that of its first frame (R289). -/
def frameOf (leaf : W64) (bits : Nat) : Nat := leaf.toNat % 2 ^ 52 / 2 ^ bits * 2 ^ bits / 4096

/-- The place of a frame's page count, if the frame belongs to the context (R292). -/
def countPa (s : State) (ctx frame : Nat) : Option Nat :=
  let root := s.root ctx
  let lo := (s.rd64 (root + 0xE118)).toNat % 2 ^ 40
  let hi := (s.rd64 (root + 0xE120)).toNat % 2 ^ 40
  if lo ≤ frame && frame ≤ hi then some ((s.rd64 (root + 0xE110)).toNat + 4 * (frame - lo)) else none

/-- A frame's count; 0 is read as 1; a frame outside the context's range is not counted (R289, R290). -/
def pageCount (s : State) (ctx frame : Nat) : Nat :=
  match countPa s ctx frame with
  | none => 1
  | some a => let n := (s.rd32 a).toNat % 2 ^ 24; if n = 0 then 1 else n

/-- The physical address of a virtual one through a translation. -/
def paOf (e : TlbEnt) (va : Nat) : Nat := e.leaf.toNat % 2 ^ 52 / 2 ^ e.bits * 2 ^ e.bits + va % 2 ^ e.bits

/-- A translation that leads where there is memory; a large page's leaf may map more than there is (R285, log 91). -/
def inMemory (e : TlbEnt) (va : Nat) : Except Nat TlbEnt := if beyond (paOf e va) then .error 0x25 else .ok e

/-- Whether a frame's count has LOCK set (R289, R291). -/
def countLocked (s : State) (ctx frame : Nat) : Bool :=
  match countPa s ctx frame with
  | none => false
  | some a => (s.rd32 a).getLsbD 31

/-- The translation of a page of the page region, walked afresh (R284, R288, R290). -/
def walkEnt (s : State) (ctx va : Nat) : Except Nat TlbEnt := do
  if 0xE000000000000 ≤ va then .error 0x20
  let (leaf, leafPa, bits) ← walk s ctx va
  inMemory { ctx, va := va / 2 ^ bits * 2 ^ bits, bits, leaf, leafPa,
             shared := 1 < pageCount s ctx (frameOf leaf bits) } va

/-- Choices of a turn: bit 0 uses copies where they may serve, bit 1 makes them, bit 2 leaves a load outstanding,
bit 3 uses a TLB's translation, bit 4 keeps the walked one, bit 5 takes what was loaded ahead, bit 6 halts an engine
behind a row, bit 7 takes its rows from the last (log 16). An issued
instruction keeps the choices of the turn it issued in. -/
def State.choice (s : State) (b : Nat) : Bool := (if s.my.asked = 0 then s.cur.choice else s.my.opt) / 2 ^ b % 2 = 1

/-- A TLB's translation of an address (R288). -/
def inTlb (m : List TlbEnt) (ctx va : Nat) : Option TlbEnt :=
  m.find? (fun e => e.ctx = ctx && e.va = va / 2 ^ e.bits * 2 ^ e.bits)

/-- The translation an access uses: a held one where the turn chooses it, else a walk. -/
def ent (s : State) (c ctx va : Nat) : Except Nat TlbEnt :=
  if s.choice 3 then
    match inTlb (s.core c).tlb ctx va with
    | some e => inMemory e va
    | none =>
      match inTlb (s.cluster (clusterOf c)).tlb ctx va with
      | some e => inMemory e va
      | none => walkEnt s ctx va
  else walkEnt s ctx va

/-- A walked translation kept in the core TLB (512) and the cluster TLB (8,192) where the turn chooses so. -/
def keepEnt (s : State) (c : Nat) (e : TlbEnt) : State :=
  if s.choice 4 then
    (s.modCore c (fun k => { k with tlb := (e :: k.tlb).take 512 })).modCluster (clusterOf c)
      (fun k => { k with tlb := (e :: k.tlb).take 8192 })
  else s

/-- Permissions (R287): the cause of a refusal. -/
def permit (leaf : W64) (md : Mode) (write fetch : Bool) : Option Nat :=
  if write && !leaf.getLsbD 3 then some 0x21
  else if md == .u && !leaf.getLsbD 5 then some 0x22
  else if fetch && !leaf.getLsbD 4 then some 0x22
  else if !write && !fetch && !leaf.getLsbD 2 then some 0x22
  else none

/-- A translated address: physical, the page's tagged attribute, and the translation where there is one. -/
structure Tr where
  pa : Nat
  tag : Bool
  ent : Option TlbEnt
deriving DecidableEq, Repr

/-- Whether an address of a context lies in a region whose token another device holds (R299). -/
def lentAway (s : State) (ctx va : Nat) : Bool :=
  s.lentTok.any (fun t => t.holder != s.dev % 256 && t.wid / 16 = ctx && t.va ≤ va && va < t.va + t.len)

/-- Translation of an address below the windows (R284, R287); in M mode every address is physical (R306). The pages
of an open stream's given-base stock are read-only (R260). -/
def xlate (s : State) (c ctx : Nat) (md : Mode) (va : Nat) (write fetch : Bool) : Except Nat Tr :=
  if md == .m then (if memOk va then .ok ⟨va, false, none⟩ else .error 0x20)
  else
    match ent s c ctx va with
    | .error e => .error e
    | .ok e =>
      match permit e.leaf md write fetch with
      | some cause => .error cause
      | none =>
        if write && s.stocks.any (fun r => r.ctx = ctx && r.va ≤ va && va < r.va + r.len) then .error 0x21
        else if lentAway s ctx va then .error 0x92
        else .ok ⟨paOf e va, e.leaf.getLsbD 6, some e⟩

/-- Translations of a page dropped on the whole device, as TLBI of kind 0 (R297). -/
def tlbDrop (s : State) (p : TlbEnt → Bool) : State :=
  { s with cores := s.cores.map (fun q => (q.1, { q.2 with tlb := q.2.tlb.filter (fun e => !p e) })),
           clusters := s.clusters.map (fun q => (q.1, { q.2 with tlb := q.2.tlb.filter (fun e => !p e) })) }

/-- The maps of cores and clusters back in canonical form after `tlbDrop`. -/
def canon {α : Type} [DecidableEq α] (d : α) (m : SMap α) : SMap α := m.filter (fun p => p.2 ≠ d)

/-- TLBI of kind 0 (R297). -/
def tlbiPage (s : State) (ctx va : Nat) : State :=
  let s := tlbDrop s (fun e => e.ctx = ctx && e.va = va / 2 ^ e.bits * 2 ^ e.bits)
  { s with cores := canon .init s.cores, clusters := canon .init s.clusters }

/-- TLBI of kind 1 (R297). -/
def tlbiCtx (s : State) (ctx : Nat) : State :=
  let s := tlbDrop s (fun e => e.ctx = ctx)
  { s with cores := canon .init s.cores, clusters := canon .init s.clusters }

/-- TLBI of kind 2 (R297): held window descriptors and export entries. -/
def tlbiWin (s : State) (ctx : Nat) : State := s.modCtx ctx (fun x => { x with wins := [], exps := [] })

/-- TLBI of kind 3 (R297): kinds 1 and 2 and every block translation buffer. -/
def tlbiAll (s : State) (ctx : Nat) : State :=
  let s := tlbiWin (tlbiCtx s ctx) ctx
  { s with cores := canon .init (s.cores.map (fun q => (q.1, { q.2 with btb := [] }))) }

/-! ### The free-page stack and copy-on-write (R290 to R292) -/

/-- The top frame of the free-page stack: COW_EMPTY, STACK_BAD, or its address. -/
def popFrame (s : State) (ctx : Nat) : Except Nat (Nat × State) :=
  let root := s.root ctx
  let w := s.rd64 (root + 0xE108)
  let top := w.toNat % 2 ^ 32
  if top = 0 then .error 0x23
  else
    let f := (s.rd64 ((s.rd64 (root + 0xE100)).toNat + 8 * (top - 1))).toNat
    if f % 4096 ≠ 0 || beyond f || (countPa s ctx (f / 4096)).isNone then .error 0x29
    else .ok (f, s.wr64 (root + 0xE108) (w - 1))

/-- A frame pushed on the stack; a full stack refuses it (R292). -/
def pushFrame (s : State) (ctx f : Nat) : Option State :=
  let root := s.root ctx
  let w := s.rd64 (root + 0xE108)
  let top := w.toNat % 2 ^ 32
  if top = w.toNat / 2 ^ 32 then none
  else some ((s.wr64 ((s.rd64 (root + 0xE100)).toNat + 8 * top) (w64 f)).wr64 (root + 0xE108) (w + 1))

/-- Copy-on-write begun (R291): LOCK set and a frame popped. -/
def cowStart (s : State) (e : TlbEnt) : Except Nat State :=
  let frame := frameOf e.leaf e.bits
  match countPa s e.ctx frame with
  | none => .error 0x28
  | some a =>
    match popFrame s e.ctx with
    | .error c => .error c
    | .ok (f, s) =>
      .ok { s.wr32 a (s.rd32 a ||| 0x80000000) with
        cows := s.cows ++ [{ ctx := e.ctx, va := e.va, leafPa := e.leafPa, frame, fresh := f }] }

/-- The granules of a page moved to another, in the rising list of those that bear a mark. -/
def moveMarks (l : List Nat) (src fresh : Nat) : List Nat :=
  ((l.filter (fun g => !(fresh ≤ 8 * g && 8 * g < fresh + 4096))) ++
    ((l.filter (fun g => src ≤ 8 * g && 8 * g < src + 4096)).map (fun g => g - src / 8 + fresh / 8))).foldl
    (fun m g => addSet g m) []

/-- The page of a copy-on-write copied with its tags and poison (R291). -/
def cowCopy (w : Cow) (s : State) : State :=
  { s with
    mem := msplice s.mem w.fresh 4096 (mslice s.mem (w.frame * 4096) (w.frame * 4096 + 4096)),
    full := moveMarks s.full (w.frame * 4096) w.fresh, poison := moveMarks s.poison (w.frame * 4096) w.fresh,
    cows := s.cows.filter (fun x => x != w) }

/-- The page remapped: its leaf names the fresh frame (R291). -/
def cowMap (w : Cow) (s : State) : State :=
  let leaf := s.rd64 w.leafPa
  tlbiPage (s.wr64 w.leafPa (w64 (leaf.toNat % 4096 + w.fresh + leaf.toNat / 2 ^ 52 * 2 ^ 52))) w.ctx w.va

/-- A frame's count written, where the frame has one. -/
def putCount (o : Option Nat) (f : W32 → W32) (s : State) : State :=
  match o with
  | some a => s.wr32 a (f (s.rd32 a))
  | none => s

/-- Copy-on-write performed (R291): the page copied, remapped, the counts changed. -/
def cowFinish (s : State) (w : Cow) : State :=
  let s := cowCopy w s
  let s := cowMap w (putCount (countPa s w.ctx (w.fresh / 4096)) (fun _ => 1) s)
  putCount (countPa s w.ctx w.frame) (fun x => (x &&& 0x7FFFFFFF) - 1) s

/-- What a write through a translation meets (R290, R291): it proceeds, it waits for a copy-on-write (begun here or
under way), or it is refused with a cause and TRAPINFO. -/
inductive WriteOk | go | waits (s : State) | no (cause : Nat) (info : W64)
deriving DecidableEq, Repr

def writeOk (s : State) (e : Option TlbEnt) : WriteOk :=
  match e with
  | none => .go
  | some e =>
    let frame := frameOf e.leaf e.bits
    if !e.shared || pageCount s e.ctx frame ≤ 1 then .go
    else if e.bits ≠ 12 then .no 0x21 1
    else if countLocked s e.ctx frame then .waits s
    else
      match cowStart s e with
      | .error c => .no c 0
      | .ok s => .waits s

/-- The same for a write of an engine or of the device's own, which makes the copy at once: the state and whether a copy
was made, or nothing while software holds LOCK. -/
def writeNow (s : State) (e : Option TlbEnt) : Except Nat (Option (State × Bool)) :=
  match writeOk s e with
  | .go => .ok (some (s, false))
  | .no c _ => .error c
  | .waits s =>
    match e with
    | none => .ok none
    | some e =>
      match s.cows.find? (fun w => w.ctx = e.ctx && w.frame = frameOf e.leaf e.bits) with
      | some w => .ok (some (cowFinish s w, true))
      | none => .ok none

/-- A write of the device for a context, at a page address, in supervisor rights or those of `md`: the place,
copy-on-write done. A page whose LOCK software holds is not written (log 92). -/
def devPlace (s : State) (ctx va : Nat) (md : Mode := .s) : Except Nat (State × Nat) := do
  let e ← walkEnt s ctx va
  match permit e.leaf md true false with
  | some c => .error c
  | none =>
    match ← writeNow s (some e) with
    | none => .error 0x21
    | some (s, false) => pure (s, paOf e va)
    | some (s, true) =>
      let e ← walkEnt s ctx va
      pure (s, paOf e va)

/-! ### Events (R313) -/

/-- Dword 0 of an event record. -/
def eventHead (s : State) (cause core launch : Nat) : W64 :=
  w64 (cause + s.dev * 2 ^ 8 + core * 2 ^ 16 + launch % 2 ^ 24 * 2 ^ 24)

/-- An event of a context: written to its ring, or counted in LOST; causes routed to M mode go to the management
log (R313, R314). -/
def event (s : State) (ctx cause core launch : Nat) (addr info : W64) : State :=
  let rec0 := [eventHead s cause core launch, addr, info, s.presscnt]
  if toMonitor cause then { s with mgmt := s.mgmt ++ [rec0] }
  else
    let root := s.root ctx
    if beyond root || beyond (root + 65535) then s
    else
      let w := (s.rd64 (root + 0xE208)).toNat
      let n := w % 32
      let tail := (s.rd64 (root + 0xE210)).toNat
      let head := (s.rd64 (root + 0xE218)).toNat
      let lost := s.wr64 (root + 0xE220) (s.rd64 (root + 0xE220) + 1)
      if n < 4 || 16 < n then lost
      else if (tail + 2 ^ 64 - head) % 2 ^ 64 = 2 ^ n then lost
      else
        let va := w / 4096 % 2 ^ 40 * 4096 + 32 * (tail % 2 ^ n)
        if 0xE000000000000 ≤ va then lost
        else
          match devPlace s ctx va with
          | .error _ => lost
          | .ok (s, pa) =>
            let s := { s with mem := msets memDefault s.mem pa ((rec0.map (fun (d : W64) => leBytes 8 d.toNat)).flatten),
                              poison := poisonAfter s.poison pa 32 false }
            s.wr64 (root + 0xE210) (w64 (tail + 1))

/-! ### Release and acquire (R237, R242, R244) -/

/-- Whether a strand's deltas and weight messages are all answered (R96, R100); the unpins of its operations are not its
own. -/
def deltasDone (s : State) (c : Nat) (st : Strand) : Bool :=
  s.msgs.all (fun m => match m with
    | .delta _ _ _ _ (.unpin _ _) _ _ => true
    | .delta src st' _ _ _ _ _ => !(src == c && st' == st)
    | .weight src st' _ => !(src == c && st' == st)
    | _ => true) &&
    s.net.outs.all (fun o => match o.why with
    | .weight src st' => !(src == c && st' == st)
    | _ => true)

/-- Whether a posted part is one that a strand has made, or one it may have observed: its core's before an acquire
of the strand, another core's before an acquire beyond its core (R242, R247). -/
def owed (c : Nat) (st : Strand) (x : StrandSt) (o : OutPkt) : Bool :=
  match o.why with
  | .posted src st' _ _ _ _ _ => if src = c then st' == st || o.first < x.acqC else o.first < x.acqW
  | .rmw src st' _ _ => if src = c then st' == st || o.first < x.acqC else o.first < x.acqW
  | _ => false

/-- What a release at a scope waits for (R237, R242, R247); a refused delta of the strand traps here, in the mode it was
issued in (R97). -/
def release (s : State) (sc : Scope) : Try Unit := do
  let c := s.cur.core
  let st := s.cur.st
  match s.me.refused.find? (fun r => r.st == st && r.fromS == (s.mode != .u)) with
  | some r =>
    .error (.trap ⟨r.cause, 0, r.handle, none, none⟩ (s.modMe (fun k => { k with refused := k.refused.filter (· != r) })))
  | none =>
    waitFor s (deltasDone s c st)
    waitFor s (sc == .core || s.me.stores.isEmpty)
    waitFor s (sc == .core || s.cores.all (fun q => q.1 == c || q.2.stores.all (fun o => !o.seen (dieOf c))))
    if sc == .sys && s.my.rel = 2 then trap s 0x93
    if sc == .sys && s.net.outs.any (owed c st s.my) then .error (.wait (s.modMy (fun x => { x with rel := 1 })))

/-- What an acquire at a scope makes the strand see: older copies are no longer served to its core (R242). -/
def acquireAt (c : Nat) (sc : Scope) (s : State) : State :=
  match sc with
  | .core => s
  | .clu | .die => if (s.core c).dc.isEmpty then s else s.modCore c (fun k => { k with dc := [] })
  | .dev | .sys =>
    let s := if (s.core c).dc.isEmpty then s else s.modCore c (fun k => { k with dc := [] })
    if (s.copies (dieOf c)).isEmpty then s else s.setCopies (dieOf c) []

/-- What a strand has observed after an acquire: no load of it is performed ahead of the acquire, and posted writes of
its core, or of every core, may be among what it has observed (R240, R242, R247). -/
def observe (c : Nat) (st : Strand) (sc : Scope) (s : State) : State :=
  s.modCore c (fun k =>
    let w := ([Strand.ctl, .fet, .exe, .emi].map (fun y => (k.strand y).acqW)).foldl max 0
    k.modStrand st (fun x =>
      { x with ahead := [], acqC := s.cycle + 1, acqW := if sc == .core then w else s.cycle + 1 }))

/-- An acquire of the issuing strand; FET's empties the block translation buffer (R217). -/
def acquire (s : State) (sc : Scope) : State :=
  observe s.cur.core s.cur.st sc (acquireAt s.cur.core sc
    (if s.cur.st == .fet && !s.me.btb.isEmpty then s.modMe (fun k => { k with btb := [] }) else s))

/-- The release part of an access with a write part (R242). -/
def relPart (s : State) (a : Attr) : Try Unit := if a.o.rels then release s a.s else .ok ()
/-- The acquire part of an access with a read part (R242). -/
def acqPart (s : State) (a : Attr) : State := if a.o.acqs then acquire s a.s else s

/-! ### Wide instructions (R26) -/

/-- An issued wide instruction that does not finish in its turn: its POP heads are gone from their queues (R26), until it
traps or asks anew (R31). -/
def runWaits (c : Clause) (was : State) (r : Try State) : Try State :=
  match r with
  | .error (.wait s) =>
    .error (.wait (if was.my.asked = 0 then (if s.my.asked = 0 then s else takeHeads c s)
      else if s.my.asked = 0 then untake s else s))
  | .error (.trap t s) => .error (.trap t (if s.my.took.isEmpty then s else untake s))
  | r => r

/-- A wide instruction of one or two words with its token clause (R26), and its own check that comes before those of its
tokens (R56): nothing is popped unless it issues. A push is a release at core scope, a pop an acquire (R28). -/
def runWideFirst (words : Nat) (jump : Bool) (c : Clause) (first : State → Try Unit) (s : State) (b : State → Try State) :
    Res :=
  settle s.cur.core s.cur.st (do
    clauseReady c s (first s)
    if c.push != 0 && s.my.asked = 0 then release s .core
    let s' ← runWaits c s (b (if c.pop != 0 && s.my.asked = 0 then acquire s .core else s))
    pure (finishWide words jump (clauseDone c ⟨false, 0⟩ s')))

/-- A wide instruction of one or two words. -/
def runWideN (words : Nat) (jump : Bool) (c : Clause) (s : State) (b : State → Try State) : Res :=
  runWideFirst words jump c (fun _ => .ok ()) s b

/-- A wide instruction of one word. -/
def runWide (c : Clause) (s : State) (b : State → Try State) : Res := runWideN 1 false c s b

/-! ### Loads and stores at a physical place (R236 to R241) -/

/-- Whether a granule lies in a range. -/
def inRange (g pa n : Nat) : Bool := pa < 8 * g + 8 && 8 * g < pa + n

/-- What was loaded ahead in a range and the turn takes (R240). -/
def State.aheadOf (s : State) (pa n : Nat) : List Ahead :=
  if s.choice 5 then s.my.ahead.filter (fun e => inRange e.g pa n) else []

/-- Bytes with what was loaded ahead in their place. -/
def overAhead (es : List Ahead) (pa : Nat) (bs : List Byte) : List Byte :=
  if es.isEmpty then bs
  else bs.zipIdx.map (fun p => match es.find? (fun e => e.g = (pa + p.2) / 8) with
    | some e => fld e.v (8 * ((pa + p.2) % 8)) 8
    | none => p.1)

/-- A strand whose loads of a range are performed in order from here on: nothing loaded ahead there stays, but for
`keep` (R236). -/
def dropAhead (c : Nat) (st : Strand) (pa n : Nat) (keep : List Ahead) (s : State) : State :=
  if ((s.core c).strand st).ahead.isEmpty then s
  else s.modCore c (fun k => k.modStrand st (fun x =>
    { x with ahead := x.ahead.filter (fun e => !inRange e.g pa n || keep.contains e) }))

/-- Whether an access may be served from a die's home cache (R237). -/
def Attr.near (a : Attr) : Bool := (a.s == .core || a.s == .clu || a.s == .die) && a.c != .home
/-- Whether an access may be served from the core's store path (R237). -/
def Attr.own (a : Attr) : Bool := a.s == .core && a.c != .home

/-- Where a load's bytes come from before the store paths' are laid over them (R237, R249): the copies that may serve it
where the turn chooses them, else the home, which the core's copies then follow; and the copies it makes. No copy that
the strand may load from later is older than what it has loaded (R236). -/
def loadBase (s : State) (a : Attr) (pa n : Nat) : List Byte × State :=
  let die := dieOf s.cur.core
  let ctl := s.cur.st == .ctl
  let served := a.near && s.choice 0
  let m := if a.own && ctl then s.me.dc ++ s.copies die else s.copies die
  let bs := if served then viaCopies s m pa n else s.bytes pa n
  let now (g : Nat) : W64 := if served then w64 (leNat (viaCopies s m (8 * g) 8)) else s.rd64 (8 * g)
  let s :=
    if !served then s.refreshFor s.cur.core pa n
    else if ctl && !s.me.dc.isEmpty then
      s.modMe (fun k => { k with dc := k.dc.map (fun p => if inRange p.1 pa n then (p.1, now p.1) else p) })
    else s
  if s.choice 1 && a.c != .bypass && a.c != .home then
    let g := pa / 8
    let s := if a.near && !served && homeDie pa ≠ die then s.setCopies die (put g (now g) (s.copies die)) else s
    (bs, if ctl && a.c == .normal then s.modMe (fun k => { k with dc := (put g (now g) k.dc).take 8192 }) else s)
  else (bs, s)

/-- A load of a strand at its scope (R237) from a virtual address: the value and the state with the copies it leaves. It waits while the core's
store path, or a write that its die's narrow loads see early, holds a write to the bytes that it may not take (R236),
and while it would take one that an outstanding load of CTL holds back (R241). -/
def loadAt (s : State) (a : Attr) (va : W64) (pa n : Nat) : Try (List Byte × State) := do
  let c := s.cur.core
  let st := s.cur.st
  let early := s.seenWrites c (dieOf c) pa n
  let mine := s.me.stores.filter (·.hits pa n)
  let es := s.aheadOf pa n
  waitFor s (if a.own then st == .ctl || s.me.loads.isEmpty || mine.all (fun o => o.st != .ctl) else mine.isEmpty)
  waitFor s (a.near || early.isEmpty)
  match s.poison.find? (fun g => inRange g pa n && !es.any (fun e => e.g = g) && mine.isEmpty) with
  | some g => trapBad s (va + w64 (8 * g - pa)) 0
  | none => pure ()
  let (base, s) := loadBase s a pa n
  pure (overAhead es pa (forward mine pa (if a.near then forward early pa base else base)), dropAhead c st pa n es s)

/-- A synchronous store leaves for its home (R239). -/
def queueStore (s : State) (pa : Nat) (bs : List Byte) (p : Bool) : State :=
  (dropAhead s.cur.core s.cur.st pa bs.length [] s).modMe (fun k =>
    { k with stores := k.stores ++ [{ st := s.cur.st, pa, bytes := bs, poison := p, seen0 := false, seen1 := false }] })

/-- A read-modify-write waits until the strand's earlier stores, the core's to the bytes, and those its die's loads see
early are performed, and one that writes for CTL until its earlier loads have their values (R236, R239, R241). -/
def rmwReady (s : State) (pa n : Nat) (writes : Bool) : Try Unit :=
  waitFor s (!(s.me.stores.any (fun o => o.st == s.cur.st || o.hits pa n)) &&
    (s.seenWrites s.cur.core (dieOf s.cur.core) pa n).isEmpty && (!writes || s.cur.st != .ctl || s.me.loads.isEmpty))

/-- HBM bytes charged (R79, log 11). -/
def chargeHbm (s : State) (n : Nat) : State := s.chargeCore s.cur.core 5 n

/-! ### Windows (R293 to R296) -/

/-- A window descriptor as the device holds it, fetched on first use (R293, R297). -/
def winDesc (s : State) (ctx w : Nat) : Except Nat (List W64 × State) :=
  match look w (s.ctx ctx).wins with
  | some d => .ok (d, s)
  | none =>
    let root := s.root ctx
    if beyond root || beyond (root + 65535) then .error 0x2B
    else
      let d := (List.range 4).map (fun i => s.rd64 (root + 0xE000 + 32 * w + 8 * i))
      .ok (d, s.modCtx ctx (fun x => { x with wins := put w d x.wins }))

/-- What a window access travels with: target device, window id, key. -/
structure WinTo where
  dev : Nat
  wid : Nat
  key : Nat
deriving DecidableEq, Repr

/-- The checks of an access of `n` bytes at an offset of a window, with the rights it needs, to read, to write, or both
(R293). A nonzero reserved field is WIN_DESC_BAD: of R6, by which a memory record's reserved fields are ignored, and R314,
which names them as that cause, the model follows R314 (DEDUCED, log 78). -/
def winCheck (d : List W64) (off n : Nat) (read write : Bool) : Except Nat WinTo :=
  let d0 := d.getD 0 0
  let d1 := d.getD 1 0
  let d2 := d.getD 2 0
  if !d0.getLsbD 0 then .error 0x26
  else if fld d0 29 35 != 0 || fld d0 3 5 != 0 || 2 ^ 45 < d1.toNat || d1.toNat % 4096 ≠ 0 || fld d2 32 32 != 0 ||
      d.getD 3 0 != 0 then .error 0x2E
  else if d1.toNat < off + n then .error 0x20
  else if (write && !d0.getLsbD 2) || (read && !d0.getLsbD 1) then .error 0x22
  else .ok ⟨(fld d0 8 8).toNat, (fld d0 16 13).toNat, (fld d2 0 32).toNat⟩

/-- The parts of a range: every 256-byte boundary of the offset splits it (R295); `fuel` bounds their number. -/
def partsOf : Nat → Nat → Nat → List (Nat × Nat)
  | 0, _, _ => []
  | fuel + 1, off, n =>
    if n = 0 then []
    else
      let m := min n (256 - off % 256)
      (off, m) :: partsOf fuel (off + m) (n - m)

/-- The row port to a device's column and the column port to its row (R300). -/
def rowPort (dev dst : Nat) : Nat := (dst % 16 + 31 - dev % 16) % 16
def colPort (dev dst : Nat) : Nat := 15 + (dst / 16 % 16 + 31 - dev / 16 % 16) % 16

/-- The ports of a device's minimal routes to another (R303). -/
def minimalPorts (dev dst : Nat) : List Nat :=
  if dev / 16 % 16 = dst / 16 % 16 then [rowPort dev dst] else if dev % 16 = dst % 16 then [colPort dev dst]
  else [rowPort dev dst, colPort dev dst]

/-- The port a packet leaves by, and whether that is a detour (R303): a minimal one that is up, the other of two by bit 8 of
the turn's choice; or, where none is up, or all are congested as bit 9 says, another device of the row or column, once. -/
def routeOf (s : State) (dst : Nat) (det : Bool) (avoid : Option Nat) : Option (Nat × Bool) :=
  let up := s.net.up.filter (fun q => q < 30 && some q != avoid)
  let min := minimalPorts (s.dev % 256) dst
  let live := min.filter up.contains
  let live := if s.cur.choice / 256 % 2 = 1 then live.reverse else live
  let round := up.filter (fun q => !min.contains q)
  match live with
  | q :: _ =>
    if s.cur.choice / 512 % 2 = 1 && !det && !round.isEmpty then
      some (round.getD (s.cur.choice / 1024 % round.length) q, true)
    else some (q, det)
  | [] => if det then none else (round[s.cur.choice / 1024 % max 1 round.length]?).map (fun q => (q, true))

/-- A packet put on a port, or into the device's own port logic (R293); with the port. -/
def putOut (s : State) (p : Packet) (avoid : Option Nat) : Option Nat × State :=
  if p.dst = s.dev % 256 then
    (none, { s with net := { s.net with inbox := s.net.inbox ++ [({ p with port := 32 } : Packet)] } })
  else
    match (routeOf s p.dst p.det avoid).orElse (fun _ => routeOf s p.dst p.det none) with
    | none => (none, s)
    | some (q, det) => (some q, { s with net := { s.net with wire := s.net.wire ++ [(q, { p with det })] } })

/-- What a response answers: its OFF field holds the number and the class of the request (log 12). -/
def answerKey (cls seq : Nat) : Nat := cls * 2 ^ 32 + seq
/-- The acknowledgement of a response: not numbered and not kept (log 36). -/
def Packet.last (p : Packet) : Bool := p.cls = 1 && p.op = 5 && p.off / 2 ^ 32 = 1

/-- A packet enters the device's sending side (R302, R303): numbered, kept until acknowledged, and sent. -/
def pushPkt (s : State) (p : Packet) (why : ReqFor) : State :=
  if p.last then (putOut s { p with src := s.dev % 256, det := false } none).2
  else
    let key := p.dst * 4 + p.cls
    let seq := (look key s.net.nextOut).getD 0
    let p : Packet := { p with src := s.dev % 256, seq, det := false }
    let (port, s) := putOut s p none
    { s with net := { s.net with
      nextOut := put key ((seq + 1) % 2 ^ 32) s.net.nextOut,
      outs := s.net.outs ++ [(⟨p, why, s.cycle, s.cycle, port⟩ : OutPkt)] } }

/-- A packet sent for a core, its flits charged to the core's class (R79). -/
def sendRaw (s : State) (core : Nat) (p : Packet) (why : ReqFor) : State :=
  (pushPkt s { p with core } why).chargeCore core 7 (32 * (1 + (p.payload.length + 31) / 32))

/-- One more or one fewer part of a core outstanding to a window (R296). -/
def outUp (core w : Nat) (s : State) : State :=
  s.modCore core (fun k => { k with wallowOut := vset k.wallowOut w (vget 0 k.wallowOut w + 1) })
def outDown (core w : Nat) (s : State) : State :=
  s.modCore core (fun k => { k with wallowOut := vset k.wallowOut w (vget 0 k.wallowOut w - 1) })

/-! ### Held regions (R299) -/

/-- The token this device holds of the region that a window access goes to. -/
def heldOf (s : State) (p : Packet) : Option Borrowed :=
  let fn := (p.payload.headD 0).toNat
  if p.cls = 0 && (p.op ≤ 1 || p.op = 3 || (p.op = 2 && (fn < 32 || 64 ≤ fn && fn < 96))) then
    s.heldTok.find? (fun t => t.dev = p.dst && t.wid = p.wid && t.region = p.off / 2 ^ 21)
  else none

/-- A held region with other bytes not yet written back. -/
def setLines (s : State) (t : Borrowed) (l : List (Nat × Byte)) : State :=
  { s with heldTok := s.heldTok.map (fun x =>
      if x.dev = t.dev && x.wid = t.wid && x.region = t.region then { x with lines := l } else x) }

/-- The bytes of a held region that are not written back, in runs. -/
def lineRuns (t : Borrowed) (lo n : Nat) : List (Nat × List Byte) :=
  ((List.range n).foldl (fun (acc : List (Nat × List Byte)) i =>
    match look (lo + i) t.lines with
    | none => acc
    | some b =>
      match acc with
      | (o, bs) :: r => if o + bs.length = lo + i then (o, bs ++ [b]) :: r else (lo + i, [b]) :: acc
      | [] => [(lo + i, [b])]) []).reverse

/-- What a write-back that a request brings about is for: a part posted by who makes the request. -/
def backFor (s : State) (why : ReqFor) : Option (Nat × ReqFor) :=
  let at_ (c : Nat) : Nat × Nat × W64 := ((s.core c).cell, (s.core c).ctxOf, (s.core c).launchid)
  match why with
  | .rmw c st w _ => some (w, .posted c st w 0 (at_ c).1 (at_ c).2.1 (at_ c).2.2)
  | .ask c x n w => some (w, .enginePost c x n w 0 (at_ c).1 (at_ c).2.1 (at_ c).2.2)
  | _ => none

/-- Bytes of a held region written back to the target's home (R299). -/
def writeBack (s : State) (t : Borrowed) (like : Packet) (lo n : Nat) (why : Option (Nat × ReqFor)) : State :=
  (lineRuns t lo n).foldl (fun s q =>
    let p : Packet := { like with op := 1, off := q.1, len := q.2.length - 1, payload := q.2 }
    match why with
    | some (w, y) => sendRaw (outUp like.core w s) like.core p y
    | none => sendRaw s like.core p (.other 32))
    (setLines s t (t.lines.filter (fun q => q.1 < lo || lo + n ≤ q.1)))

/-- The bytes a window read brings, with those of a held region that are not yet written back (R299). -/
def heldOver (s : State) (p : Packet) (bs : List Byte) : List Byte :=
  match heldOf s p with
  | none => bs
  | some t => if p.op = 0 then bs.zipIdx.map (fun b => (look (p.off + b.2) t.lines).getD b.1) else bs

/-- A packet sent for a core. Where this device holds the region's token, a posted write is performed here, its part done at
once, and what a read-modify-write touches is written back before it (R299). -/
def sendPkt (s : State) (core : Nat) (p : Packet) (why : ReqFor) : State :=
  match heldOf s p with
  | none => sendRaw s core p why
  | some t =>
    let keep (w : Nat) : State :=
      outDown core w (setLines s t ((p.payload.zipIdx).foldl (fun l b => put (p.off + b.2) b.1 l) t.lines))
    match why with
    | .posted _ _ w _ _ _ _ => keep w
    | .enginePost _ _ _ w _ _ _ _ => keep w
    | _ => if p.op = 0 then sendRaw s core p why
           else sendRaw (writeBack s t { p with core } (p.off / 8 * 8) 16 (backFor s why)) core p why

/-- A response to a packet: its operation, the answered number and class in OFF, and what it brings (R302, log 12); to a
host it leaves by the host's port (R334). -/
def reply (s : State) (p : Packet) (op : Nat) (body : List Byte) : State :=
  if 62 ≤ p.port then
    { s with resp := s.resp ++ [(p.port - 32, w64 (p.seq * 65536 + p.cls * 256 + op) ::
      (List.range ((body.length + 7) / 8)).map (fun i => w64 (leNat ((body.drop (8 * i)).take 8))))] }
  else
    pushPkt s { port := 32, dst := p.src, src := 0, cls := 1, op, seq := 0, wid := 0, key := 0, off := answerKey p.cls p.seq,
                len := body.length - 1, core := p.core, det := false, payload := body } (.other 32)

/-- A request packet (R302). -/
def reqPkt (t : WinTo) (op off len : Nat) (payload : List Byte) : Packet :=
  { port := 32, dst := t.dev, src := 0, cls := 0, op, seq := 0, wid := t.wid, key := t.key, off, len := len - 1,
    core := 0, det := false, payload }

/-- The first of the answers that refuse, in the order of their requests. -/
def firstRefusal : List Answer → Option Answer
  | [] => none
  | a :: l =>
    match firstRefusal l with
    | none => if a.cause = 0 then none else some a
    | some b => if a.cause = 0 || b.n ≤ a.n then some b else some a

/-- The answers of `n` requests of an instruction whose first `k` requests have been answered: sent once, then waited
for; a refusal traps with its cause and the address `va` gives its request (R294). -/
def askParts (s : State) (va : Nat → W64) (k n : Nat) (send : State → State) : Try (List (List Byte)) :=
  if n = 0 then .ok []
  else if s.my.asked ≤ k then .error (.wait ((send s).modMy (fun x => { x with asked := k + n })))
  else if s.my.got.length < s.my.asked then block s
  else
    match firstRefusal s.my.got with
    | some a => trapAt s a.cause (va (a.n - k))
    | none => .ok ((List.range n).map (fun i =>
        match s.my.got.find? (fun a => a.n = k + i) with | some a => a.bytes | none => []))

/-- The same with one address for all. -/
def askNext (s : State) (va : W64) (k n : Nat) (send : State → State) : Try (List (List Byte)) :=
  askParts s (fun _ => va) k n send

/-- The answers of an instruction's first requests. -/
def askAll (s : State) (va : W64) (send : State → Nat × State) : Try (List (List Byte)) :=
  askNext s va 0 (send s).1 (fun s => (send s).2)

/-- A window read of a range, by parts (R295), after `k` answers. -/
def winReadAt (s : State) (va : W64) (w off n k : Nat) : Try (List Byte × State) := do
  match winDesc s s.me.ctxOf w with
  | .error c => trapAt s c va
  | .ok (d, s) =>
    match winCheck d off n true false with
    | .error c => trapAt s c va
    | .ok t =>
      if s.net.lost.contains t.dev then trapAt s 0x93 va
      let parts := partsOf (n / 256 + 2) off n
      let bs ← askParts s (fun i => va + w64 ((parts.getD i (off, 0)).1 - off)) k parts.length (fun s => parts.zipIdx.foldl (fun s p =>
        sendPkt s s.cur.core (reqPkt t 0 p.1.1 p.1.2 []) (.answer s.cur.core s.cur.st (k + p.2))) s)
      pure (bs.flatten, s)

/-- A window read of a range. -/
def winRead (s : State) (va : W64) (w off n : Nat) : Try (List Byte × State) := winReadAt s va w off n 0

/-- One request to a window whose answer the strand waits for: an RMW, CAS or FE instruction, with the rights it needs
(R250, R252, R293). It counts as a part until its answer returns (R296). -/
def winAsk (s : State) (va : W64) (w off n op : Nat) (read write : Bool) (payload : List Byte) :
    Try (List Byte × State) := do
  match winDesc s s.me.ctxOf w with
  | .error c => trapAt s c va
  | .ok (d, s) =>
    match winCheck d off n read write with
    | .error c => trapAt s c va
    | .ok t =>
      if s.net.lost.contains t.dev then trapAt s 0x93 va
      if s.my.asked = 0 then
        waitFor s (vget 0 s.me.wallowOut w < vget 256 (s.ctx s.me.ctxOf).wallow w)
      let bs ← askAll s va (fun s =>
        (1, sendPkt (outUp s.cur.core w s)
              s.cur.core (reqPkt t op off (max 1 payload.length) payload)
              (.rmw s.cur.core s.cur.st w s.me.cell)))
      pure (bs.flatten, s)

/-- Posted parts: the bytes and the offset of each. -/
def cutParts (parts : List (Nat × Nat)) (off : Nat) (bs : List Byte) : List (Nat × List Byte) :=
  parts.map (fun p => (p.1, (bs.drop (p.1 - off)).take p.2))

/-- A posted write to a window (R247, R296): all parts if LIMIT has room, else as acknowledgements return; the
strand's `asked` counts what it has sent. -/
def winPost (s : State) (va : W64) (w off : Nat) (bs : List Byte) : Try State := do
  match winDesc s s.me.ctxOf w with
  | .error c => trapAt s c va
  | .ok (d, s) =>
    match winCheck d off bs.length false true with
    | .error c => trapAt s c va
    | .ok t =>
      let parts := cutParts (partsOf (bs.length / 256 + 2) off bs.length) off bs
      let limit := vget 256 (s.ctx s.me.ctxOf).wallow w
      let out := vget 0 s.me.wallowOut w
      let done := s.my.asked
      waitFor s (out + parts.length ≤ limit || (limit < parts.length && (out = 0 || 0 < done)) || parts.length ≤ done)
      let room := limit - out
      let now := (parts.drop done).take room
      let s := now.foldl (fun s p =>
        sendPkt (outUp s.cur.core w s) s.cur.core
          (reqPkt t 1 p.1 p.2.length p.2) (.posted s.cur.core s.cur.st w va s.me.cell s.me.ctxOf s.me.launchid)) s
      if done + now.length < parts.length then
        .error (.wait (s.modMy (fun x => { x with asked := done + now.length })))
      else pure s

/-! ### Tile windows (R92) -/

/-- Whether core `c`'s galley belongs to a tile of a context (R92). -/
def galleyOf (s : State) (c g ctx : Nat) : Bool :=
  let x := mget .init (s.core c).gal g
  x.busy && x.ctx = ctx

/-- Bytes of a core's tile store. -/
def tileBytes (s : State) (c off n : Nat) : List Byte := mgets 0 (s.core c).store off n
/-- Bytes of the tile window as a context sees them (R92). -/
def tileWin (s : State) (ctx c off n : Nat) : List Byte :=
  (List.range n).map (fun i => if galleyOf s c ((off + i) / 16384) ctx then mget 0 (s.core c).store (off + i) else 0)
/-- The first poisoned granule of a range of a tile store. -/
def tileBadAt (s : State) (c off n : Nat) : Option Nat := (s.core c).storePoison.find? (inRange · off n)
/-- Poison of the tile store in a range. -/
def tileBad (s : State) (c off n : Nat) : Bool := (tileBadAt s c off n).isSome
/-- The first poisoned granule of a range that a context sees: of other galleys it sees zeros (R92, R333). -/
def tileWinBad (s : State) (ctx c off n : Nat) : Option Nat :=
  (s.core c).storePoison.find? (fun g => inRange g off n && galleyOf s c (8 * g / 16384) ctx)
/-- The bank of a tile store's byte (R331). -/
def tileBank (off : Nat) : Nat := 12 + off / 16384 / 16
/-- Bytes written to a tile store; galleys written are dirty (R326). -/
def tileWrite (s : State) (c off : Nat) (bs : List Byte) (p : Bool) : State :=
  if bs.isEmpty then s
  else
    s.modCore c (fun k => { k with
      store := msets 0 k.store off bs,
      storePoison := poisonAfter k.storePoison off bs.length p,
      dirtyG := (List.range ((off + bs.length - 1) / 16384 + 1 - off / 16384)).foldl
        (fun d i => d ||| BitVec.ofNat 512 (2 ^ (off / 16384 + i))) k.dirtyG })

/-! ### Accesses of an instruction at a virtual address (R131, R208, R284) -/

/-- The first checks of an address: PAGE_ABSENT above 52 bits, MISALIGNED (R131). -/
def addrOk (s : State) (va : W64) (align : Nat) : Try Unit := do
  if fld va 52 12 != 0 then trapAt s 0x20 va
  if va.toNat % align ≠ 0 then trapAt s 0x24 va

/-- An aligned read of at most 8 bytes, or of a range within one page: pages, tile window and fabric windows. -/
def readVa (s : State) (va : W64) (n : Nat) : Try (List Byte × State) := do
  let a := s.attr
  let ctx := s.me.ctxOf
  match (if s.mode == .m then Region.page else regionOf va.toNat) with
  | .none => trapAt s 0x20 va
  | .window w off => winRead s va w off n
  | .tile c off =>
    match tileWinBad s ctx c off n with
    | some g => trapBad s (va + w64 (8 * g - off)) (tileBank (8 * g))
    | none =>
      if lentAway s ctx va.toNat then trapAt s 0x92 va
      pure (tileWin s ctx c off n, s)
  | .page =>
    match xlate s s.cur.core ctx s.mode va.toNat false false with
    | .error e => trapAt s e va
    | .ok t =>
      let (bs, s) ← loadAt s a va t.pa n
      let s := match t.ent with | some e => keepEnt s s.cur.core e | none => s
      pure (bs, chargeHbm s n)

/-- Where a synchronous write of an instruction goes, checked and with copy-on-write done (R290, R291). -/
def writePlace (s : State) (va : W64) : Try (Tr × State) := do
  match xlate s s.cur.core s.me.ctxOf s.mode va.toNat true false with
  | .error e => trapAt s e va
  | .ok t =>
    match writeOk s t.ent with
    | .no c info => .error (.trap ⟨c, va, info, none, none⟩ s)
    | .waits s => block s
    | .go => pure (t, match t.ent with | some e => keepEnt s s.cur.core e | none => s)

/-- A store of at most 8 aligned bytes, or of a range within one page. -/
def writeVa (s : State) (va : W64) (bs : List Byte) : Try State := do
  match (if s.mode == .m then Region.page else regionOf va.toNat) with
  | .none => trapAt s 0x20 va
  | .tile _ _ => trapAt s 0x21 va
  | .window w off => winPost s va w off bs
  | .page =>
    let (t, s) ← writePlace s va
    pure (chargeHbm (queueStore s t.pa bs false) bs.length)

/-- A range read by its 8-byte words in an instruction's address space, after `k` answers of windows: the bytes, the
state and the answers used. -/
def readSpan (s : State) (va : W64) (n k : Nat) : Try (List Byte × State × Nat) :=
  match (if s.mode == .m then Region.page else regionOf va.toNat) with
  | .window w off => do
    let (bs, s) ← winReadAt s va w off n k
    pure (bs, s, k + (partsOf (n / 256 + 2) off n).length)
  | _ =>
    (List.range ((n + 7) / 8)).foldlM (fun (acc : List Byte × State × Nat) i => do
      match (if s.mode == .m then Region.page else regionOf (va.toNat + 8 * i)) with
      | .window _ _ => trapAt s 0x20 (va + w64 (8 * i))
      | _ =>
        let (bs, s') ← readVa acc.2.1 (va + w64 (8 * i)) 8
        pure (acc.1 ++ bs, s', k)) ([], s, k)

end Sys2Proof.Machine
end

