-- ==== Sys2Proof/Machine/Operands.lean ====
section
/-! DEFINITION. The operand forms: second operands and conditions of CTL and the wide scalars (R119 to R127, R134 to
R137), effective addresses (R131), the register fields REP steps (R37), and fetching code (R42, R284, R321). -/

namespace Sys2Proof.Machine

/-! ### Integer functions (R119, R120) -/

/-- The signed quotient truncated toward zero, and its remainder (R119, R120). -/
def sdiv64 (a b : W64) : W64 := w64i (a.toInt.tdiv b.toInt)
def srem64 (a b : W64) : W64 := w64i (a.toInt.tmod b.toInt)
def udiv64 (a b : W64) : W64 := w64 (a.toNat / b.toNat)
def urem64 (a b : W64) : W64 := w64 (a.toNat % b.toNat)
/-- High halves of the 128-bit products. -/
def mulhS (a b : W64) : W64 := w64i (a.toInt * b.toInt / 2 ^ 64)
def mulhU (a b : W64) : W64 := w64 (a.toNat * b.toNat / 2 ^ 64)
def minS (a b : W64) : W64 := if a.toInt ≤ b.toInt then a else b
def maxS (a b : W64) : W64 := if a.toInt ≤ b.toInt then b else a
def minU (a b : W64) : W64 := if a.toNat ≤ b.toNat then a else b
def maxU (a b : W64) : W64 := if a.toNat ≤ b.toNat then b else a
/-- A shift amount: bits [5:0] (R120). -/
def amt (b : W64) : Nat := b.toNat % 64
def shl64 (a : W64) (n : Nat) : W64 := w64 (a.toNat * 2 ^ n)
def shr64 (a : W64) (n : Nat) : W64 := w64 (a.toNat / 2 ^ n)
def sra64 (a : W64) (n : Nat) : W64 := w64i (a.toInt / 2 ^ n)
def rot64 (a : W64) (n : Nat) : W64 := w64 (a.toNat * 2 ^ n % 2 ^ 64 + a.toNat * 2 ^ n / 2 ^ 64)
/-- Leading zeros: 64 less the length of the number. -/
def clz64 (a : W64) : W64 := w64 (64 - (if a.toNat = 0 then 0 else Nat.log2 a.toNat + 1))
/-- The lowest set bit from `i` up, in `fuel` places. -/
def ctzFrom (a : W64) (i : Nat) : Nat → Nat
  | 0 => i
  | fuel + 1 => if a.getLsbD i then i else ctzFrom a (i + 1) fuel
def ctz64 (a : W64) : W64 := w64 (ctzFrom a 0 64)
/-- Set bits among the lowest `n`. -/
def popFrom (a : W64) : Nat → Nat
  | 0 => 0
  | n + 1 => popFrom a n + (if a.getLsbD n then 1 else 0)
def popc64 (a : W64) : W64 := w64 (popFrom a 64)
def bswap64 (a : W64) : W64 := w64 (leNat (leBytes 8 a.toNat).reverse)

/-! ### Conditions (R123) -/

/-- Condition `cc` on x and y. -/
def condOn (cc : Cond) (x y : W64) : Bool :=
  match cc with
  | .eq => x == y
  | .ne => x != y
  | .lt => x.toInt < y.toInt
  | .ge => y.toInt ≤ x.toInt
  | .le => x.toInt ≤ y.toInt
  | .gt => y.toInt < x.toInt
  | .ltn => x.toNat < y.toNat
  | .gen => y.toNat ≤ x.toNat
  | .len => x.toNat ≤ y.toNat
  | .gtn => y.toNat < x.toNat
  | .bs => x.getLsbD (amt y)
  | .bc => !x.getLsbD (amt y)

/-- CMPI's second operand: sign-extended for cc 0 to 5, zero-extended above (R123). -/
def cmpImm (cc : Cond) (i : BitVec 12) : W64 :=
  match cc with
  | .eq | .ne | .lt | .ge | .le | .gt => sext64 i
  | _ => i.setWidth 64

/-! ### Sizes and addresses (R131) -/

def Size.log : Size → Nat | .b => 0 | .h => 1 | .w => 2 | .d => 3
def sizeBytes (z : Size) : Nat := 2 ^ (Size.log z)

/-- The effective address of LDS and STS (R131). -/
def eaM (base : W64) (off : BitVec 12) (z : Size) : W64 := base + w64i (off.toInt * sizeBytes z)

/-- A branch target: the word's own address plus a number of words (R126, R137). -/
def target (pc : W64) (word : Nat) {n : Nat} (off : BitVec n) : W64 := pc + w64i (off.toInt * word)

/-- The amount of ASHL and ASHR (R135). -/
def ashAmt (s : State) (n : AShift) : Nat :=
  match n with
  | .reg ab => amt (s.rA ab)
  | .imm i => i.toNat

/-- The element at a lane: V registers are dealt out by row and column, 64·r + c (R184). -/
def lane (r c : Nat) : Nat := 64 * r + c

/-! ### Fetching code (R42, R284, R321) -/

/-- A word of code of a strand at an address: PAGE_ABSENT, PAGE_PERM, the walk's causes, POISON_CODE; an earlier copy
of its instruction cache of 32 KiB where the turn chooses it (R20; log 16). -/
def codeWord (s : State) (c : Nat) (st : Strand) (md : Mode) (va : W64) (n : Nat) : Except Nat (Nat × State) :=
  if fld va 52 12 != 0 then .error 0x20
  else if md != .m && 0xE000000000000 ≤ va.toNat then .error 0x22
  else
    match xlate s c (s.core c).ctxOf md va.toNat false true with
    | .error e => .error e
    | .ok t =>
      if s.bad t.pa n then .error 0xB3
      else
        let s := match t.ent with | some e => keepEnt s c e | none => s
        let g := t.pa / 8
        let ic := ((s.core c).strand st).ic
        let got := if s.choice 0 then leNat (viaCopies s ic t.pa n) else leNat (s.bytes t.pa n)
        let s := if s.choice 1 && (look g ic).isNone then
            s.modCore c (fun k => k.modStrand st (fun x => { x with ic := (put g (s.rd64 (8 * g)) x.ic).take 4096 }))
          else s
        .ok (got, s)

/-- The dwords or words of a loop body, as far as they can be fetched when the loop issues (R36, R130). -/
def bodyWords (s : State) (c : Nat) (st : Strand) (md : Mode) (va : W64) : Nat → List (Option W64)
  | 0 => []
  | n + 1 =>
    (match codeWord s c st md va st.size with
      | .error _ => none
      | .ok (w, _) => some (w64 w)) :: bodyWords s c st md (va + w64 st.size) n

/-- The place in the loop buffer of a word of the body that runs. -/
def bodyPlace (x : StrandSt) (size : Nat) (va : W64) : Option (Nat × LoopSt) :=
  match x.loop with
  | none => none
  | some l =>
    if va.toNat < l.start.toNat || l.len ≤ (va.toNat - l.start.toNat) / size then none
    else some ((va.toNat - l.start.toNat) / size, l)

/-- The word a strand issues next: from the loop buffer while its loop runs, else from memory; a word of the body that the
loop could not fetch is captured when it is (R36, R130). -/
def nextWord (s : State) (c : Nat) (st : Strand) (md : Mode) (va : W64) : Except Nat (Nat × State) :=
  let mem := codeWord s c st md va st.size
  match bodyPlace ((s.core c).strand st) st.size va with
  | none => mem
  | some (i, l) =>
    match l.body.getD i none with
    | some w => .ok (w.toNat, s)
    | none =>
      match mem with
      | .error e => .error e
      | .ok (w, s) => .ok (w, s.modCore c (fun k => k.modStrand st (fun x =>
          { x with loop := some { l with body := l.body.set i (some (w64 w)) } })))

/-! ### REP's fields (R37, R38) -/

/-- A register field of a target: its lowest bit, its width, and the registers of its file. -/
structure RegField where
  lo : Nat
  width : Nat
  regs : Nat
deriving DecidableEq, Repr

def fVd : Option RegField := some ⟨41, 9, 384⟩
def fVa : Option RegField := some ⟨32, 9, 384⟩
def fVb : Option RegField := some ⟨23, 9, 384⟩
def fVc : Option RegField := some ⟨14, 9, 384⟩
def fHd : Option RegField := some ⟨41, 6, 64⟩
def fBase : Option RegField := some ⟨36, 5, 32⟩
def fIdx : Option RegField := some ⟨31, 5, 32⟩
def fAd : Option RegField := some ⟨45, 5, 32⟩
def fAa : Option RegField := some ⟨40, 5, 32⟩
def fAb : Option RegField := some ⟨35, 5, 32⟩
def fKd : Option RegField := some ⟨41, 3, 8⟩
def fKa : Option RegField := some ⟨32, 3, 8⟩
def fKb : Option RegField := some ⟨23, 3, 8⟩
def fVaH : Option RegField := some ⟨32, 6, 64⟩
def fVaA : Option RegField := some ⟨32, 5, 32⟩

/-- The fields REP steps in a target, in step order; none for a field the format lacks or the instruction leaves
unused. A V field that names a K, H or A register by its low bits is stepped in that file (R37, R38, R48, R186). -/
def repFields : Instr → List (Option RegField)
  | .aadd .. | .asub .. | .amul .. | .aand .. => [fAd, fAa, fAb, none]
  | .aaddi .. => [fAd, fAa, none, none]
  | .ashl _ _ _ n | .ashr _ _ _ n _ => [fAd, fAa, (match n with | .reg _ => fAb | .imm _ => none), none]
  | .ali .. | .alih .. | .acsrr .. => [fAd, none, none, none]
  | .acsrw .. | .tlwaitWide .. => [none, fAa, none, none]
  | .tkv _ _ _ send recv => [(if recv then fAd else none), (if send then fAa else none), none, none]
  | .ldt .. => [fHd, fBase, fIdx, none]
  | .ldv .. | .ldva .. => [fVd, fBase, fIdx, none]
  | .cec .. | .cedup .. | .pref .. => [none, fBase, none, none]
  | .cecol _ hd .. => [(if hd = 0 then none else fHd), fBase, none, none]
  | .ldk .. | .stk .. => [fKd, fBase, none, none]
  | .ldvt .. | .spopv .. | .spushv .. => [fVd, fVaH, none, none]
  | .gath .. => [fVd, fVa, none, none]
  | .btgath .. => [fVd, fVa, some ⟨23, 5, 32⟩, some ⟨14, 5, 32⟩]
  | .rrot .. => [some ⟨44, 6, 64⟩, some ⟨38, 6, 64⟩, some ⟨33, 5, 32⟩, none]
  | .gwaitf .. => [none, some ⟨38, 6, 64⟩, none, none]
  | .vadd .. | .vsub .. | .vmul .. | .vmin .. | .vmax .. | .vsel .. | .vand .. | .vor .. | .vxor .. | .vlmul .. =>
      [fVd, fVa, fVb, none]
  | .vfma .. | .vfnma .. => [fVd, fVa, fVb, fVc]
  | .vcmp .. => [fKd, fVa, fVb, none]
  | .kop _ o _ _ _ => [fKd, fKa, (if o = KOpc.not then none else fKb), none]
  | .kmov _ _ src => [fKd, (match src with | .copy _ => fKa | _ => none), none, none]
  | .vshl _ _ _ _ n | .vshr _ _ _ _ n | .vsra _ _ _ _ n =>
      [fVd, fVa, (match n with | .reg _ => fVb | .imm _ => none), none]
  | .vabs .. | .vneg .. | .vrcp .. | .vrsq .. | .vexp2 .. | .vlog2 .. | .vmov .. | .vcvt .. | .vlcvt .. | .vlexp ..
  | .vpack6 .. | .vunpk6 .. | .vcmpr .. | .vexpd .. | .vrotr .. | .vrotc .. | .vbcr .. | .vbcc .. | .vredr ..
  | .vredc .. | .vscnr .. => [fVd, fVa, none, none]
  | .vmovi _ _ src => [fVd, (match src with | .reg _ => fVaA | .imm _ => none), none, none]
  | .viota .. => [fVd, fVaA, none, none]
  | .vtoa .. => [some ⟨41, 5, 32⟩, fVa, none, none]
  | .atov .. => [fVd, fVaA, none, none]
  | .stv .. => [fHd, none, fIdx, none]
  | .stt .. => [fHd, fBase, fIdx, none]
  | .stva .. | .stred .. => [fVd, fBase, fIdx, none]
  | .scat .. => [none, fVa, fVb, none]
  | _ => [none, none, none, none]

/-- The field's value at issue `i`, if it stays in its file (R38). -/
def stepped (f : RegField) (w : W64) (step : BitVec 4) (i : Nat) : Option Nat :=
  let v : Int := (w.toNat / 2 ^ f.lo % 2 ^ f.width : Nat) + step.toInt * i
  if v < 0 || v ≥ f.regs then none else some v.toNat

/-- Whether a step is allowed through the last issue of a repetition. -/
def stepOk (fd : Option RegField) (w : W64) (step : BitVec 4) (count : Nat) : Bool :=
  match fd with
  | none => step == 0
  | some f => (stepped f w step 0).isSome && (stepped f w step (count - 1)).isSome

/-- Word 0 of the target with its fields stepped for issue `i`. -/
def stepWord (fs : List (Option RegField)) (steps : List (BitVec 4)) (i : Nat) (w : W64) : W64 :=
  (fs.zip steps).foldl (fun w p =>
    match p.1 with
    | none => w
    | some f =>
      match stepped f w p.2 i with
      | none => w
      | some v => w64 (w.toNat - w.toNat / 2 ^ f.lo % 2 ^ f.width * 2 ^ f.lo + v * 2 ^ f.lo)) w

/-- The word of a strand with the fields of its repetition stepped for the issue now due (R37, R38). -/
def repWord (st : Strand) (x : StrandSt) (w : W64) : W64 :=
  match x.rep with
  | none => w
  | some r =>
    match decodeWide st w 0 with
    | none => w
    | some i => stepWord (repFields i) [r.sd, r.sa, r.sb, r.sc] r.idx w

/-- What REP may not repeat (R38): REP, ALOOP, AEND, ABR, AJ, a two-word matrix instruction, MOD. -/
def repBanned : Instr → Bool
  | .rep .. | .aloop .. | .aend _ | .abr .. | .aj .. | .mma .. | .mmag .. | .mdrain .. | .modWide .. => true
  | _ => false

/-- The targets of a CTL prefix (R46): LDS, STS, ATOM, CAS, FE. -/
def ctlMemTarget : Instr → Bool
  | .lds .. | .sts .. | .atom .. | .cas .. | .ldfe .. | .ldf .. | .stfe .. | .stf .. | .feprobe .. => true
  | _ => false

/-- The targets of a wide prefix (R50). -/
def wideMemTarget : Instr → Bool
  | .ldt .. | .ldv .. | .ldva .. | .ldvt .. | .gath .. | .btgath .. | .cec .. | .cedup .. | .cecol .. | .pref ..
  | .ldk .. | .stv .. | .stt .. | .stva .. | .scat .. | .stred .. | .stk .. => true
  | .mma _ _ _ _ _ _ a b .. => (match a with | .va _ => true | _ => false) || (match b with | .va _ => true | _ => false)
  | .mmag _ _ _ _ _ _ a .. => (match a with | .va _ => true | _ => false)
  | .mdrain _ d .. => (match d with | .store _ | .add _ => true | _ => false)
  | _ => false

end Sys2Proof.Machine
end

