-- ==== Sys2Proof/Machine/Branch.lean ====
section
/-! DEFINITION. Branches, calls, jumps and loops of CTL and of the wide strands, MOD and REP (R36 to R38, R46, R50,
R126, R127, R130, R137, R138, R76). -/

namespace Sys2Proof.Machine

/-- CTL goes to a target (R126). -/
def goCtl (s : State) (pc : W64) : State := s.modMe (fun k => { k with ctl := k.ctl.jump pc })

/-- CTL goes on after its word. -/
def stepCtl (s : State) : State := s.modMe (fun k => { k with ctl := k.ctl.advance 4 4 })

/-- A branch on a predicate (R126). -/
def branch (p : BitVec 3) (inv : Bool) (off : BitVec 22) (s : State) : Res :=
  runJump s (always (fun s => if s.rP p != inv then goCtl s (target s.me.ctl.pc 4 off) else stepCtl s))

def execBr (p : BitVec 3) (off : BitVec 22) (s : State) : Res := branch p false off s
def execBrn (p : BitVec 3) (off : BitVec 22) (s : State) : Res := branch p true off s

def execCall (off : BitVec 26) (s : State) : Res :=
  runJump s (always (fun s => goCtl (s.wS 63 (s.me.ctl.pc + 4)) (target s.me.ctl.pc 4 off)))

/-- A jump through a register: PC_ALIGN at the jump, the target read before the link is written (R127). -/
def jumpTo (link : Bool) (t : W64) (s : State) : Try State := do
  if t.toNat % 4 ≠ 0 then trapAt s 0x01 t
  pure (goCtl (if link then s.wS 63 (s.me.ctl.pc + 4) else s) t)

def execJr (a : BitVec 6) (s : State) : Res := runJump s (fun s => jumpTo false (s.rS a) s)
def execRet (s : State) : Res := runJump s (fun s => jumpTo false (s.rS 63) s)
def execCallr (a : BitVec 6) (s : State) : Res := runJump s (fun s => jumpTo true (s.rS a) s)

/-! ### Loops (R36, R130, R138) -/

/-- What a CTL body may not hold (R36): a LOOP. Its last word may be a MOD, which traps at the prefix (R130). -/
def ctlBodyBad (ws : List (Option W64)) : Bool :=
  ws.any (fun o => match o with
    | none => false
    | some w => match decodeCtl (w.setWidth 32) with | some (.loop ..) => true | _ => false)

/-- What a wide body may not hold (R36): ALOOP, AEND, a REP as its last word, a two-word instruction cut by its end. The
second word of a two-word instruction is none of its words; a word that cannot be fetched holds nothing. -/
def wideBodyBad (st : Strand) : List (Option W64) → Bool
  | [] => false
  | none :: ws => wideBodyBad st ws
  | some w :: ws =>
    if firstOfTwo st w then (match ws with | [] => true | _ :: ws' => wideBodyBad st ws')
    else
      match decodeWide st w 0 with
      | some (.aloop ..) | some (.aend _) => true
      | some (.rep ..) => ws.isEmpty || wideBodyBad st ws
      | _ => wideBodyBad st ws

/-- A loop entered, or skipped with a count of zero. -/
def enterLoop (x : StrandSt) (word len : Nat) (count : W64) (body : List (Option W64)) : StrandSt :=
  let start := x.pc + w64 word
  if count = 0 then x.jump (start + w64 (len * word))
  else { x with pc := start, loop := some { start, len, left := count, body } }

def execLoop (a n : BitVec 6) (s : State) : Res :=
  runJump s (fun s => do
    let len := n.toNat + 1
    let body := bodyWords s s.cur.core .ctl s.mode (s.me.ctl.pc + 4) len
    trapIf s (s.me.ctl.loop.isSome || ctlBodyBad body) 0x00
    pure (s.modMe (fun k => { k with ctl := enterLoop k.ctl 4 len (s.rS a) body })))

/-- ALOOP (R138). A length of 65 to 127 is LOOP_LONG whatever the words after it hold: no buffer could hold that body, and
the model does not examine it, though R36 gives a body that holds ALOOP or AEND the cause ILLEGAL_OP (DESIGN CHOICE, log
79). -/
def execAloop (aa : BitVec 5) (len : BitVec 7) (s : State) : Res :=
  runWideN 1 true ⟨0, 0⟩ s (fun s => do
    let n := len.toNat
    let body := bodyWords s s.cur.core s.cur.st .u (s.my.pc + 8) n
    trapIf s (s.my.loop.isSome || (n ≤ 64 && wideBodyBad s.cur.st body)) 0x00
    trapIf s (n = 0 || 64 < n) 0x06
    pure (s.modMy (fun x => enterLoop x 8 n (s.rA aa) body)))

/-! ### Branches of the wide strands (R137) -/

/-- The strand goes to a target, or on after its word. -/
def wideGo (taken : Bool) (off : BitVec 20) (s : State) : State :=
  s.modMy (fun x => if taken then x.jump (target x.pc 8 off) else x.advance 8 8)

def execAbr (c : Clause) (aa ab : BitVec 5) (cc : Cond) (off : BitVec 20) (s : State) : Res :=
  runWideN 1 true c s (always (fun s => wideGo (condOn cc (s.rA aa) (s.rA ab)) off s))

def execAj (c : Clause) (off : BitVec 20) (s : State) : Res := runWideN 1 true c s (always (wideGo true off))

/-! ### MOD (R46, R50) -/

/-- Whether a loop body ends right after the strand's word (R46). -/
def atBodyEnd (x : StrandSt) (word : Nat) : Bool :=
  match x.loop with
  | none => false
  | some l => x.pc + w64 word == l.start + w64 (l.len * word)

/-- The prefix takes effect for the next word. -/
def setPre (a : Attr) (word : Nat) (x : StrandSt) : StrandSt :=
  { x with pre := some ⟨x.pc, a⟩, pc := x.pc + w64 word }

/-- The prefix's target is fetched with it: a word it may not stand before is ILLEGAL_OP at the prefix. -/
def modTarget (s : State) (ok : Nat → Bool) (word : Nat) : Try Unit :=
  if s.my.pre.isSome || atBodyEnd s.my word then trap s 0x00
  else
    match nextWord s s.cur.core s.cur.st s.mode (s.my.pc + w64 word) with
    | .error e => trapAt s e (s.my.pc + w64 word)
    | .ok (w, _) => trapIf s (!ok w) 0x00

def execMod (o : Order) (sc : Scope) (c : Cache) (s : State) : Res :=
  settle s.cur.core .ctl (do
    modTarget s (fun w => match decodeCtl (BitVec.ofNat 32 w) with | some i => ctlMemTarget i | none => false) 4
    pure (s.modMe (fun k => { k with ctl := setPre ⟨o, sc, c⟩ 4 k.ctl })))

/-- A wide word read as an instruction of the issuing strand: its second dword is fetched where the first is that of a
two-word instruction (R42, R55); or the cause and the address of that fetch's fault. -/
def wideAt (s : State) (w : W64) (va : W64) : Except (Nat × W64) (Option Instr × State) :=
  if firstOfTwo s.cur.st w then
    match nextWord s s.cur.core s.cur.st .u (va + 8) with
    | .error e => .error (e, va + 8)
    | .ok (v, s) => .ok (decodeWide s.cur.st w (w64 v), s)
  else .ok (decodeWide s.cur.st w 0, s)

/-- The same of a word that is looked at ahead, none where its second dword cannot be fetched. -/
def widePeek (s : State) (w : Nat) (va : W64) : Option Instr :=
  match wideAt s (w64 w) va with | .ok (i, _) => i | .error _ => none

/-- The prefix's target is fetched with it, both its dwords if it has two (R50). -/
def execModWide (o : Order) (sc : Scope) (c : Cache) (s : State) : Res :=
  settle s.cur.core s.cur.st (do
    modTarget s (fun _ => true) 8
    let va := s.my.pc + 8
    match nextWord s s.cur.core s.cur.st .u va with
    | .error e => trapAt s e va
    | .ok (w, s1) =>
      match wideAt s1 (w64 w) va with
      | .error (e, at_) => trapAt s e at_
      | .ok (i, _) => trapIf s (!(match i with | some i => wideMemTarget i | none => false)) 0x00
    pure (s.modMy (setPre ⟨o, sc, c⟩ 8)))

/-! ### REP (R37, R38) -/

/-- The repetition's target: the word after REP, or after the prefix that follows it. -/
def repTarget (s : State) : Option (W64 × Nat) :=
  match nextWord s s.cur.core s.cur.st .u (s.my.pc + 8) with
  | .error _ => none
  | .ok (w, _) =>
    match widePeek s w (s.my.pc + 8) with
    | some (.modWide ..) =>
      match nextWord s s.cur.core s.cur.st .u (s.my.pc + 16) with
      | .error _ => none
      | .ok (w2, _) => some (s.my.pc + 16, w2)
    | _ => some (s.my.pc + 8, w)

/-- Whether a word has an opcode REP may not repeat, or the format of MOD (R38). -/
def repOpBad (w : Nat) : Bool :=
  [0x0A, 0x0B, 0x0C, 0x0D, 0x11, 0x12, 0xA2, 0xA3, 0xA5].contains (w / 2 ^ 56)

/-- The repetition's misuse, before issue 0 (R38). -/
def repBad (s : State) (c : Clause) (count : Nat) (steps : List (BitVec 4)) : Bool :=
  c.pop != 0 || c.push != 0 ||
  match repTarget s with
  | none => false
  | some (va, w) =>
    repOpBad w ||
    match widePeek s w va with
    | none => false
    | some i => repBanned i || !((repFields i).zip steps).all (fun p => stepOk p.1 (w64 w) p.2 count)

def execRep (c : Clause) (cnt : BitVec 6) (sd sa sb sc : BitVec 4) (s : State) : Res :=
  settle s.cur.core s.cur.st (do
    trapIf s (repBad s c (cnt.toNat + 1) [sd, sa, sb, sc]) 0x04
    pure ((s.modMy (fun x =>
      { x with pc := x.pc + 8,
               rep := some { at_ := x.pc + 8, idx := 0, count := cnt.toNat + 1, sd, sa, sb, sc, fpc := x.fpc } })).chargeCore
      s.cur.core (issueRes s.cur.st) 1))

/-- The end of a wide strand's part of the cell (R76). -/
def execAend (c : Clause) (s : State) : Res :=
  runWide c s (always (fun s => s.modMy (fun x => { x with ended := true })))

end Sys2Proof.Machine
end

