-- ==== Sys2Proof/Machine/Num.lean ====
section
/-! DEFINITION. The numbers of the device: exact dyadic reals, rounding to F32, B16 and E8 (R63, R144, R145, R154,
R157, R158), log codes and the published antilog table (R146 to R153), reciprocal, root, power and logarithm (R194),
and the flags of FPC (R159). -/

namespace Sys2Proof.Machine

/-- Exception flags in the order of TRAPINFO[5:0] (R162): LS, NV, DZ, OF, UF, NX. -/
abbrev Flags := BitVec 6

def flNX : Flags := 0x01
def flUF : Flags := 0x02
def flOF : Flags := 0x04
def flDZ : Flags := 0x08
def flNV : Flags := 0x10
def flLS : Flags := 0x20

/-- A flag set or not. -/
def flIf (b : Bool) (f : Flags) : Flags := if b then f else 0

/-- Rounding modes, FPC.RM (R159). -/
inductive RM | rne | rtz | rup | rdn
deriving DecidableEq, Repr

/-- A real with a sign of its own (for zero), of magnitude `m · 2^e`. -/
structure Dy where
  neg : Bool
  m : Nat
  e : Int
deriving DecidableEq, Repr

/-- What a floating-point code stands for (R144). -/
inductive Fv | nan | inf (neg : Bool) | fin (d : Dy)
deriving DecidableEq, Repr

/-- A binary format: precision, exponent of its least subnormal bit, and the exponent above its largest value. -/
structure Fmt where
  p : Nat
  emin : Int
  emax : Int
deriving DecidableEq, Repr

def fmtF32 : Fmt := ⟨24, -149, 128⟩
def fmtB16 : Fmt := ⟨8, -133, 128⟩
/-- E8 with its grid extended by one step, 480 (R154). -/
def fmtE8 : Fmt := ⟨4, -9, 9⟩

/-- The value of a binary code whose fields are given (R144). -/
def fvOf (neg : Bool) (ebits frac expMax emin p : Nat) : Fv :=
  if ebits = expMax then (if frac = 0 then .inf neg else .nan)
  else if ebits = 0 then .fin ⟨neg, frac, -(emin : Int)⟩
  else .fin ⟨neg, frac + 2 ^ (p - 1), (ebits : Int) - 1 - emin⟩

/-- An F32 code's value. -/
def f32v (w : W32) : Fv :=
  fvOf (w.getLsbD 31) ((w.toNat / 2 ^ 23) % 256) (w.toNat % 2 ^ 23) 255 149 24

/-- The F32 code of a B16 code (R143). -/
def b16Slot (h : Nat) : W32 := BitVec.ofNat 32 (h % 65536 * 65536)

/-- An E8 code's value (R145). -/
def e8v (b : Nat) : Fv :=
  let n := b % 128
  if n = 127 then .nan
  else if n / 8 = 0 then .fin ⟨128 ≤ b % 256, n, -9⟩
  else .fin ⟨128 ≤ b % 256, n % 8 + 8, (n / 8 : Nat) - 10⟩

def nan32 : W32 := 0x7FC00000

def isNan : Fv → Bool | .nan => true | _ => false
def isFin : Fv → Bool | .fin _ => true | _ => false

/-- Bits of a number; 0 for 0. -/
def bitLen (n : Nat) : Nat := if n = 0 then 0 else Nat.log2 n + 1

/-- A magnitude rounded to a multiple of `2^q`: the multiple and whether it is inexact. `st` says that the true
magnitude lies strictly between `m · 2^e` and `(m+1) · 2^e`. -/
def roundAt (mode : RM) (neg : Bool) (m : Nat) (e : Int) (st : Bool) (q : Int) : Nat × Bool :=
  if q ≤ e then (m * 2 ^ (e - q).toNat, st)
  else
    let sh := (q - e).toNat
    let n := m / 2 ^ sh
    let r := m % 2 ^ sh
    let half := 2 ^ (sh - 1)
    let inex := r != 0 || st
    let up := match mode with
      | .rne => r > half || (r = half && (st || n % 2 = 1))
      | .rtz => false
      | .rup => inex && !neg
      | .rdn => inex && neg
    (if up then n + 1 else n, inex)

/-- The outcome of one rounding: the magnitude's code, overflow, inexactness, and tininess after rounding. -/
structure Rounded where
  code : Nat
  ovf : Bool
  inex : Bool
  tiny : Bool
deriving DecidableEq, Repr

/-- A magnitude rounded once to a format; subnormals are kept. -/
def roundMag (f : Fmt) (mode : RM) (neg : Bool) (m : Nat) (e : Int) (st : Bool) : Rounded :=
  if m = 0 then ⟨0, false, false, false⟩
  else
    let top := e + bitLen m
    let qn := top - f.p
    let q := if qn < f.emin then f.emin else qn
    let (n, inex) := roundAt mode neg m e st q
    let (n1, _) := roundAt mode neg m e st qn
    let tiny := qn < f.emin && (bitLen n1 : Int) + qn < f.emin + f.p
    let code := (q - f.emin).toNat * 2 ^ (f.p - 1) + n
    let ovf := code ≥ (f.emax - f.emin - f.p + 1).toNat * 2 ^ (f.p - 1) + 2 ^ (f.p - 1)
    ⟨code, ovf, inex, tiny⟩

/-- Whether overflow in a mode gives infinity rather than the largest finite value (IEEE 754). -/
def overInf (mode : RM) (neg : Bool) : Bool :=
  match mode with
  | .rne => true
  | .rtz => false
  | .rup => !neg
  | .rdn => neg

/-- A finite real rounded to F32 (R63), with OF, UF and NX; flush to zero under `ftz` (R158). -/
def rndFin (f : Fmt) (infCode : Nat) (sbit : Nat) (mode : RM) (ftz : Bool) (neg : Bool) (m : Nat) (e : Int)
    (st : Bool) : Nat × Flags :=
  let r := roundMag f mode neg m e st
  let s := if neg then sbit else 0
  if r.ovf then (s + (if overInf mode neg then infCode else infCode - 1), flOF ||| flNX)
  else if ftz && r.code != 0 && r.code < 2 ^ (f.p - 1) then (s, flUF ||| flNX)
  else (s + r.code, flIf r.inex flNX ||| flIf (r.tiny && r.inex) flUF)

/-- RND32 of a value (R63, R187). -/
def rnd32 (mode : RM) (ftz : Bool) (x : Fv) : W32 × Flags :=
  match x with
  | .nan => (nan32, 0)
  | .inf neg => (if neg then 0xFF800000 else 0x7F800000, 0)
  | .fin d =>
    let r := rndFin fmtF32 0x7F800000 0x80000000 mode ftz d.neg d.m d.e false
    (BitVec.ofNat 32 r.1, r.2)

/-- RNE32 (R63). -/
def rne32 (x : Fv) : W32 := (rnd32 .rne false x).1

/-- A value rounded to B16 in a mode (R154), with OF, UF and NX. -/
def rndB16 (mode : RM) (ftz : Bool) (x : Fv) : Nat × Flags :=
  match x with
  | .nan => (0x7FC0, 0)
  | .inf neg => (if neg then 0xFF80 else 0x7F80, 0)
  | .fin d => rndFin fmtB16 0x7F80 0x8000 mode ftz d.neg d.m d.e false

/-- Range events of a conversion (R150, R154). -/
inductive Ev | none | sat | high | low
deriving DecidableEq, Repr

/-- NRW8: the E8 code, its event, whether it is inexact, and whether it is an E8 subnormal (R154). -/
structure Nrw where
  code : Nat
  ev : Ev
  inex : Bool
  sub : Bool
deriving DecidableEq, Repr

/-- NRW8(x, mode, sat) (R154). An infinite value counts as beyond the grid. -/
def nrw8 (mode : RM) (sat : Bool) (x : Fv) : Nrw :=
  let big (neg : Bool) : Nrw :=
    if sat then ⟨(if neg then 0xFE else 0x7E), .sat, true, false⟩ else ⟨0x7F, .high, true, false⟩
  match x with
  | .nan => ⟨0x7F, .none, false, false⟩
  | .inf neg => big neg
  | .fin d =>
    let r := roundMag fmtE8 mode d.neg d.m d.e false
    if r.code ≥ 127 then big d.neg
    else
      let s := if d.neg then 0x80 else 0
      ⟨s + r.code, if r.code = 0 && d.m != 0 then .low else .none, r.inex, r.code != 0 && r.code < 8⟩

/-! ### Exact arithmetic -/

/-- A signed integer times a power of two, as a magnitude with a sign; a zero takes sign `z`. -/
def dyOf (z : Bool) (v : Int) (e : Int) : Dy := if v = 0 then ⟨z, 0, e⟩ else ⟨v < 0, v.natAbs, e⟩

def Dy.int (d : Dy) : Int := if d.neg then -(d.m : Int) else d.m

/-- The exact sum; a zero sum of unlike signs is +0, or −0 when rounding down (IEEE 754). -/
def dyAdd (mode : RM) (a b : Dy) : Dy :=
  let e := min a.e b.e
  let v := a.int * 2 ^ (a.e - e).toNat + b.int * 2 ^ (b.e - e).toNat
  dyOf (if a.m = 0 && b.m = 0 && a.neg == b.neg then a.neg else mode == .rdn) v e

def dyMul (a b : Dy) : Dy := ⟨a.neg != b.neg, a.m * b.m, a.e + b.e⟩

def Fv.negate : Fv → Fv
  | .nan => .nan
  | .inf n => .inf (!n)
  | .fin d => .fin { d with neg := !d.neg }

/-- An exact sum of two values, with NV for unlike infinities (R187). -/
def fvAdd (mode : RM) (a b : Fv) : Fv × Flags :=
  match a, b with
  | .nan, _ | _, .nan => (.nan, 0)
  | .inf s, .inf t => if s == t then (.inf s, 0) else (.nan, flNV)
  | .inf s, .fin _ => (.inf s, 0)
  | .fin _, .inf t => (.inf t, 0)
  | .fin x, .fin y => (.fin (dyAdd mode x y), 0)

/-- An exact product, with NV for zero times infinity (R187). -/
def fvMul (a b : Fv) : Fv × Flags :=
  match a, b with
  | .nan, _ | _, .nan => (.nan, 0)
  | .inf s, .inf t => (.inf (s != t), 0)
  | .inf s, .fin y => if y.m = 0 then (.nan, flNV) else (.inf (s != y.neg), 0)
  | .fin x, .inf t => if x.m = 0 then (.nan, flNV) else (.inf (x.neg != t), 0)
  | .fin x, .fin y => (.fin (dyMul x y), 0)

/-- An F32 input under DAZ (R158). -/
def daz32 (daz : Bool) (w : W32) : Fv :=
  match f32v w with
  | .fin d => if daz && d.m < 2 ^ 23 then .fin { d with m := 0 } else .fin d
  | v => v

/-- −1, 0 or 1 as `a` is below, equal to or above `b`; both finite, zeros equal. -/
def dyCmp (a b : Dy) : Int :=
  let e := min a.e b.e
  let x := a.int * 2 ^ (a.e - e).toNat
  let y := b.int * 2 ^ (b.e - e).toNat
  if x < y then -1 else if x = y then 0 else 1

/-- Exact comparison of two values that are no NaN. -/
def fvCmp (a b : Fv) : Int :=
  match a, b with
  | .fin x, .fin y => dyCmp x y
  | .inf s, .inf t => if s == t then 0 else if s then -1 else 1
  | .inf s, _ => if s then -1 else 1
  | _, .inf t => if t then 1 else -1
  | _, _ => 0

/-! ### Logs -/

/-- C[k] of the published antilog table (R148). -/
def patC (k : Nat) : Nat :=
  match k with
  | 0 => 8388608 | 1 => 9147842 | 2 => 9975792 | 3 => 10878679
  | 4 => 11863283 | 5 => 12937002 | 6 => 14107901 | _ => 15384775

/-- F[f] of the published antilog table (R148). -/
def patF (f : Nat) : Nat :=
  match f with
  | 0 => 32768 | 1 => 32946 | 2 => 33125 | 3 => 33305 | 4 => 33486 | 5 => 33667 | 6 => 33850 | 7 => 34034
  | 8 => 34219 | 9 => 34405 | 10 => 34591 | 11 => 34779 | 12 => 34968 | 13 => 35158 | 14 => 35349 | _ => 35541

/-- What a log code stands for (R146). -/
inductive Lv | zero | nar | num (neg : Bool) (l : Int)
deriving DecidableEq, Repr

/-- An L16 code (R146). -/
def l16v (c : Nat) : Lv :=
  let f := c % 32768
  let neg := 32768 ≤ c % 65536
  if f = 16384 then (if neg then .nar else .zero)
  else .num neg (if 16384 ≤ f then (f : Int) - 32768 else f)

/-- An L8 code (R146). -/
def l8v (c : Nat) : Lv :=
  let f := c % 128
  let neg := 128 ≤ c % 256
  if f = 64 then (if neg then .nar else .zero)
  else .num neg (if 64 ≤ f then (f : Int) - 128 else f)

/-- The L16 code of a log value whose field is in range (R146). -/
def l16c : Lv → Nat
  | .zero => 0x4000
  | .nar => 0xC000
  | .num neg l => (if neg then 32768 else 0) + (l % 32768).toNat

/-- The L8 code of a log value whose field is in range (R146). -/
def l8c : Lv → Nat
  | .zero => 0x40
  | .nar => 0xC0
  | .num neg l => (if neg then 128 else 0) + (l % 128).toNat

/-- A field held to the range of its width under `sat` (R150): `lim` is 16,383 or 63. -/
def lrange (lim : Int) (sat neg : Bool) (l : Int) : Lv × Ev :=
  if l > lim then (if sat then (.num neg lim, .sat) else (.nar, .high))
  else if l < -lim then (if sat then (.num neg (-lim), .sat) else (.zero, .low))
  else (.num neg l, .none)

/-- The integer nearest `k · log2 (m · 2^e)`; no tie can occur (R150). -/
def lnear (k : Nat) (m : Nat) (e : Int) : Int := (Nat.log2 (m ^ (2 * k)) + 1) / 2 + k * e

/-- LNS16 and LNS8 (R150): `k` is 128 or 8, `lim` 16,383 or 63. -/
def lns (k : Nat) (lim : Int) (sat : Bool) (x : Fv) : Lv × Ev :=
  match x with
  | .nan => (.nar, .none)
  | .inf neg => lrange lim sat neg (lim + 1)
  | .fin d => if d.m = 0 then (.zero, .none) else lrange lim sat d.neg (lnear k d.m d.e)

def lns16 (sat : Bool) (x : Fv) : Lv × Ev := lns 128 16383 sat x
def lns8 (sat : Bool) (x : Fv) : Lv × Ev := lns 8 63 sat x

/-- Widening an L8 value to an L16 one (R152). -/
def lwiden : Lv → Lv
  | .num neg l => .num neg (16 * l)
  | v => v

/-- Narrowing an L16 value to an L8 one, ties to the even field (R152). -/
def lnarrow (sat : Bool) : Lv → Lv × Ev
  | .num neg l =>
    let q := l / 16
    let r := l % 16
    lrange 63 sat neg (if r > 8 || (r = 8 && q % 2 = 1) then q + 1 else q)
  | v => (v, .none)

/-- The exact value of an L16 value (R147). -/
def lval (v : Lv) : Fv :=
  match v with
  | .zero => .fin ⟨false, 0, 0⟩
  | .nar => .nan
  | .num neg l =>
    let r := (l % 128).toNat
    .fin ⟨neg, patC (r / 16) * patF (r % 16), l / 128 - 38⟩

/-- LIN32 of an L16 value (R149). -/
def lin32 (v : Lv) : W32 := rne32 (lval v)

/-! ### Reciprocal, root, power, logarithm (R194) -/

/-- The largest `r` below `2^(k+1)`, at least `r0`, with `r² ≤ n`, deciding bits `k` to 0. -/
def isqrtGo (n : Nat) : Nat → Nat → Nat
  | r, 0 => if (r + 1) * (r + 1) ≤ n then r + 1 else r
  | r, k + 1 => isqrtGo n (if (r + 2 ^ (k + 1)) * (r + 2 ^ (k + 1)) ≤ n then r + 2 ^ (k + 1) else r) k

/-- The integer square root. -/
def isqrt (n : Nat) : Nat := isqrtGo n 0 (bitLen n / 2)

/-- A real given as `m · 2^e` and a sticky bit, rounded to F32 under a mode. -/
def rndApprox (mode : RM) (ftz neg : Bool) (m : Nat) (e : Int) (st : Bool) : W32 × Flags :=
  let r := rndFin fmtF32 0x7F800000 0x80000000 mode ftz neg m e st
  (BitVec.ofNat 32 r.1, r.2)

/-- VRCP of a value (R194). -/
def fRcp (mode : RM) (ftz : Bool) (x : Fv) : W32 × Flags :=
  match x with
  | .nan => (nan32, 0)
  | .inf neg => (if neg then 0x80000000 else 0, 0)
  | .fin d =>
    if d.m = 0 then (if d.neg then 0xFF800000 else 0x7F800000, flDZ)
    else rndApprox mode ftz d.neg (2 ^ 80 / d.m) (-80 - d.e) (2 ^ 80 % d.m != 0)

/-- VRSQ of a value (R194). -/
def fRsq (mode : RM) (ftz : Bool) (x : Fv) : W32 × Flags :=
  match x with
  | .nan => (nan32, 0)
  | .inf neg => if neg then (nan32, flNV) else (0, 0)
  | .fin d =>
    if d.m = 0 then (if d.neg then 0xFF800000 else 0x7F800000, flDZ)
    else if d.neg then (nan32, flNV)
    else
      let odd := d.e % 2 = 1
      let m := if odd then 2 * d.m else d.m
      let e := if odd then d.e - 1 else d.e
      let r := isqrt (2 ^ 160 / m)
      rndApprox mode ftz false r (-80 - e / 2) (r * r * m != 2 ^ 160)

/-- `2^(2^-i) · 2^128` for i = 1 on, by repeated square roots, multiplied together where `f` has the bit `2^-i`:
`root` is `2^(2^-(i-1))`, `acc` the product so far, both with 128 fraction bits. -/
def expGo (f n : Nat) : Nat → Nat → Nat → Nat
  | 0, _, acc => acc
  | k + 1, root, acc =>
    let root' := isqrt (root * 2 ^ 128)
    let i := n - k
    let acc' := if f / 2 ^ (n - i) % 2 = 1 then acc * root' / 2 ^ 128 else acc
    expGo f n k root' acc'

/-- VEXP2 of a value (R194): the fraction of `a` to 60 bits, with the rest below rounding's reach (log 15). -/
def fExp2 (mode : RM) (ftz : Bool) (x : Fv) : W32 × Flags :=
  match x with
  | .nan => (nan32, 0)
  | .inf neg => (if neg then 0 else 0x7F800000, 0)
  | .fin d =>
    if d.m = 0 then (0x3F800000, 0)
    else if d.e + bitLen d.m < -30 then
      rndApprox mode ftz false (if d.neg then 2 ^ 100 - 1 else 2 ^ 100) (-100) true
    else if d.e + bitLen d.m > 10 then
      (if d.neg then rndApprox mode ftz false 1 (-1000) true else rndApprox mode ftz false (2 ^ 100) 100 true)
    else
      let a : Int := if d.e + 60 < 0 then d.int / 2 ^ (-(d.e + 60)).toNat else d.int * 2 ^ (d.e + 60).toNat
      let n := a / 2 ^ 60
      let f := (a % 2 ^ 60).toNat
      if f = 0 then rndApprox mode ftz false (2 ^ 100) (n - 100) false
      else rndApprox mode ftz false (expGo f 60 60 (2 ^ 129) (2 ^ 128)) (n - 128) true

/-- The first `n` bits of log2 of `x / 2^255`, `x` in `[2^255, 2^256)`, by squaring. -/
def logGo : Nat → Nat → Nat → Nat
  | 0, _, acc => acc
  | n + 1, x, acc =>
    let y := x * x
    if y ≥ 2 ^ 511 then logGo n (y / 2 ^ 256) (2 * acc + 1) else logGo n (y / 2 ^ 255) (2 * acc)

/-- VLOG2 of a value (R194): 120 fraction bits (log 15). -/
def fLog2 (mode : RM) (ftz : Bool) (x : Fv) : W32 × Flags :=
  match x with
  | .nan => (nan32, 0)
  | .inf neg => if neg then (nan32, flNV) else (0x7F800000, 0)
  | .fin d =>
    if d.m = 0 then (0xFF800000, flDZ)
    else if d.neg then (nan32, flNV)
    else
      let k := Nat.log2 d.m
      let e := d.e + k
      if d.m = 2 ^ k then rndApprox mode ftz (e < 0) (e.natAbs) 0 false
      else
        let fr := logGo 120 (d.m * 2 ^ (255 - k)) 0
        let t : Int := e * 2 ^ 120 + fr
        if t < 0 then rndApprox mode ftz true (t.natAbs - 1) (-120) true else rndApprox mode ftz false t.toNat (-120) true

/-! ### Integers of a width -/

/-- A number's low `w` bits as a signed integer. -/
def sextN (w n : Nat) : Int :=
  let v := n % 2 ^ w
  if 2 * v < 2 ^ w then v else (v : Int) - 2 ^ w

/-- A slot as a signed integer. -/
def sInt (x : W32) : Int := x.toInt

/-- An integer's low 32 bits. -/
def slotOf (v : Int) : W32 := BitVec.ofInt 32 v

/-- The integer nearest to a finite real in a mode, with inexactness. -/
def rndInt (mode : RM) (d : Dy) : Int × Bool :=
  let (n, inex) := roundAt mode d.neg d.m d.e false 0
  (if d.neg then -(n : Int) else n, inex)

/-- A value clamped between two bounds. -/
def clampI (lo hi v : Int) : Int := if v < lo then lo else if v > hi then hi else v

end Sys2Proof.Machine
end

