-- ==== Sys2Proof/Machine/Flags.lean ====
section
/-! DEFINITION. FPC: rounding mode, flushes, sticky flags and trap enables (R158 to R162), and the sticky flags of
MSTAT (R182). -/

namespace Sys2Proof.Machine

/-- FPC.RM (R159). -/
def rmOf (f : W32) : RM :=
  match (fld f 0 2).toNat with
  | 0 => .rne | 1 => .rtz | 2 => .rup | _ => .rdn
def dazOf (f : W32) : Bool := f.getLsbD 2
def ftzOf (f : W32) : Bool := f.getLsbD 3

/-- The sticky bits of flags raised: NX at 9 up to NV at 13, LS at 15 (R159). -/
def stickyOf (f : Flags) : W32 := BitVec.ofNat 32 (f.toNat % 32 * 2 ^ 9 + f.toNat / 32 * 2 ^ 15)
/-- The enabled exceptions: NXE at 4 up to NVE at 8, LSE at 14 (R159). -/
def enablesOf (f : W32) : Flags := BitVec.ofNat 6 (f.toNat / 16 % 32 + f.toNat / 2 ^ 14 % 2 * 32)
/-- FPC with flags ORed into it (R161). -/
def orFlags (fpc : W32) (f : Flags) : W32 := fpc ||| stickyOf f

/-- The FPC an instruction computes with: a repetition's captured one, or the strand's (R160). -/
def State.fpcNow (s : State) : W32 := match s.my.rep with | some r => r.fpc | none => s.my.fpc

/-- The cause of the enabled exceptions among flags, if any: FP_TRAP, or LOG_RANGE for LS alone (R162). -/
def fpCause (fpc : W32) (f : Flags) : Option (Nat × W64) :=
  let e := f &&& enablesOf fpc
  if enablesOf fpc = 0 || e = 0 then none else some (if e = 0x20 then 0x12 else 0x11, e.setWidth 64)

/-- Flags of a synchronous instruction: an enabled one traps in the state before it, else they are ORed into FPC
(R161, R162). -/
def raise (s0 : State) (f : Flags) (s : State) : Try State :=
  match fpCause s0.fpcNow f with
  | some (c, info) => trapInfo s0 c info
  | none => .ok (s.modMy (fun x => { x with fpc := orFlags x.fpc f }))

/-- MSTAT's flags (R182). -/
def msNAR : W64 := 0x01
def msLOSS : W64 := 0x02
def msOVF : W64 := 0x04
def msUFL : W64 := 0x08
def msSAT : W64 := 0x10
def msREV : W64 := 0x20

end Sys2Proof.Machine
end

