-- ==== Sys2Proof/Machine/Csr.lean ====
section
/-! DEFINITION. Control and status registers (R58 to R61 and the rules R58 names): rights, reads, writes, the CSR
instructions of CTL and of the wide strands, and the register writes whose effect the table gives as steps of their
own. -/

namespace Sys2Proof.Machine

/-! ### Rights (R58) -/

/-- Whether a mode may read a CSR. -/
def csrMayRead (md : Mode) (n : Nat) : Bool :=
  if n = 0x106 then md == .m
  else if (0x100 ≤ n && n ≤ 0x105) || n = 0x111 || (0x120 ≤ n && n ≤ 0x122) then md != .u
  else true

/-- Whether a mode may write a CSR. -/
def csrMayWrite (md : Mode) (n : Nat) : Bool :=
  if n = 0x000 || n = 0x001 then true
  else if n = 0x020 || n = 0x021 || n = 0x106 || n = 0x110 || n = 0x112 || n = 0x121 || n = 0x122 || n = 0x130 then
    md == .m
  else md != .u

/-! ### Reads -/

/-- STRAND (R59). -/
def strandWord (s : State) (c : Nat) (st : Strand) : W64 :=
  w64 (s.dev % 256 * 2 ^ 16 + c / 64 * 2 ^ 8 + c % 64 * 4 + st.code)

/-- The value CSRR reads; reserved bits read 0 (R133). Between a write of PRESSLEN or RASWIN and the boundary from which
it applies, the spec does not say what reads back: the model reads the length still in force (DESIGN CHOICE, log 82). -/
def csrRead (s : State) (c : Nat) (st : Strand) (n : Nat) : W64 :=
  let k := s.core c
  let x := k.strand st
  match n with
  | 0x000 => x.fpc.setWidth 64
  | 0x001 => x.moddef.setWidth 64
  | 0x002 => strandWord s c st
  | 0x003 => k.launchid
  | 0x020 => s.presscnt
  | 0x021 => w64 s.presslen
  | 0x030 => k.mstat
  | 0x031 => w64 k.mrowp
  | 0x100 => k.trapvec
  | 0x101 => k.trapcause
  | 0x102 => k.trappc
  | 0x103 => k.trapaddr
  | 0x104 => k.trapinfo
  | 0x105 => k.savedst
  | 0x106 => k.monvec
  | 0x110 => k.ctxid
  | 0x111 => (s.ctx k.ctxOf).ptbase
  | 0x112 => k.vfid
  | 0x120 => k.rascnt
  | 0x121 => w64 k.raswin
  | 0x122 => w64 k.rasthr
  | 0x130 => k.budcls
  | _ =>
    if 0x010 ≤ n && n ≤ 0x013 then vget 0 k.dmemb (n - 0x010)
    else if 0x040 ≤ n && n ≤ 0x047 then
      w64 (vget 0 k.wallowOut (n - 0x040) * 2 ^ 32 + vget 256 (s.ctx k.ctxOf).wallow (n - 0x040))
    else 0

/-! ### Writes -/

/-- FPC written: its defined bits (R159). -/
def setFpc (c : Nat) (st : Strand) (v : W64) (s : State) : State :=
  s.modCore c (fun k => k.modStrand st (fun x => { x with fpc := v.setWidth 32 &&& 0xFFFF }))
/-- MODDEF written (R60). -/
def setModdef (c : Nat) (st : Strand) (v : W64) (s : State) : State :=
  s.modCore c (fun k => k.modStrand st (fun x => { x with moddef := moddefWrite x.moddef v }))
/-- PTBASE written, which acts as TLBI of kind 3 for the context (R286). -/
def setPtbase (c : Nat) (v : W64) (s : State) : State :=
  let x := (s.core c).ctxOf
  tlbiAll (s.modCtx x (fun y => { y with ptbase := v &&& 0x000FFFFFFFFF0000 })) x
/-- MROWP written: only while the matrix queue is stopped, and only 0 to 512 fits the field's meaning (R183). -/
def setMrowp (c : Nat) (v : W64) (s : State) : State :=
  let t := vget .init (s.core c).tl 1
  if t.stopped || t.mark.isSome then s.modCore c (fun k => { k with mrowp := v.toNat % 1024 }) else s
/-- PRESSLEN written: from the next period boundary; outside 4,096 to 2^24 ignored (R81). -/
def setPresslen (v : W64) (s : State) : State :=
  let n := v.toNat % 2 ^ 32
  if 4096 ≤ n && n ≤ 2 ^ 24 then { s with presslenNext := n } else s
/-- CTXID written in M mode, with VFID (R61). -/
def setCtxid (c : Nat) (v : W64) (s : State) : State :=
  s.modCore c (fun k => { k with ctxid := v &&& 0x0000FFFFFFFF01FF, vfid := v &&& 0x1FF })
/-- VFID written in M mode, with CTXID.CTX (R61). -/
def setVfid (c : Nat) (v : W64) (s : State) : State :=
  s.modCore c (fun k => { k with vfid := v &&& 0x1FF, ctxid := (k.ctxid &&& 0xFFFFFFFFFFFFFE00) ||| (v &&& 0x1FF) })

/-- A CSR write by a strand of core `c`: the writable fields take the matching bits (R133). A write of RASTHR with THR 0,
outside R331's 1 to 255, is ignored (DESIGN CHOICE, log 83). -/
def csrWrite (c : Nat) (st : Strand) (n : Nat) (v : W64) (s : State) : State :=
  match n with
  | 0x000 => setFpc c st v s
  | 0x001 => setModdef c st v s
  | 0x003 => s.modCore c (fun k => { k with launchid := v &&& 0xFFFFFFFF })
  | 0x020 => { s with presscnt := v }
  | 0x021 => setPresslen v s
  | 0x030 => s.modCore c (fun k => { k with mstat := v &&& 0x3F })
  | 0x031 => setMrowp c v s
  | 0x100 => s.modCore c (fun k => { k with trapvec := v &&& 0x000FFFFFFFFFFFFC })
  | 0x101 => s.modCore c (fun k => { k with trapcause := v &&& 0xBFFF })
  | 0x102 => s.modCore c (fun k => { k with trappc := v })
  | 0x103 => s.modCore c (fun k => { k with trapaddr := v })
  | 0x104 => s.modCore c (fun k => { k with trapinfo := v })
  | 0x105 => s.modCore c (fun k => { k with savedst := (k.savedst &&& 0xFFFFFFFFFFFFCFFF) ||| (v &&& 0x3000) })
  | 0x106 => s.modCore c (fun k => { k with monvec := v &&& 0x000FFFFFFFFFFFFC })
  | 0x110 => setCtxid c v s
  | 0x111 => setPtbase c v s
  | 0x112 => setVfid c v s
  | 0x121 => if 2 ^ 16 ≤ v.toNat then s.modCore c (fun k => { k with raswinNext := v.toNat }) else s
  | 0x122 => if v.toNat % 256 ≠ 0 then s.modCore c (fun k => { k with rasthr := v.toNat % 256 }) else s
  | 0x130 => s.modCore c (fun k => { k with budcls := v &&& 0x73F })
  | _ =>
    if 0x010 ≤ n && n ≤ 0x013 then s.modCore c (fun k => { k with dmemb := vset k.dmemb (n - 0x010) v })
    else if 0x040 ≤ n && n ≤ 0x047 then
      let l := v.toNat % 65536
      if 1 ≤ l && l ≤ 4096 then s.modCtx (s.core c).ctxOf (fun x => { x with wallow := vset x.wallow (n - 0x040) l })
      else s
    else s

/-! ### The instructions (R133, R139) -/

/-- The right of the issuing strand to read a CSR, or PRIV_ACCESS. -/
def csrReadOk (n : BitVec 12) (s : State) : Try Unit := trapIf s (!csrMayRead s.mode n.toNat) 0x02

/-- The right to write it. -/
def csrWriteOk (n : BitVec 12) (s : State) : Try Unit := trapIf s (!csrMayWrite s.mode n.toNat) 0x02

/-- A CSR read for the issuing strand, or PRIV_ACCESS. -/
def readCsr (s : State) (n : BitVec 12) : Try W64 := do
  csrReadOk n s
  pure (csrRead s s.cur.core s.cur.st n.toNat)

/-- A CSR write for the issuing strand, or PRIV_ACCESS. -/
def writeCsr (s : State) (n : BitVec 12) (v : W64) : Try State := do
  csrWriteOk n s
  pure (csrWrite s.cur.core s.cur.st n.toNat v s)

def execCsrr (d : BitVec 6) (n : BitVec 12) (s : State) : Res :=
  runCtl s (fun s => do pure (s.wS d (← readCsr s n)))
def execCsrw (a : BitVec 6) (n : BitVec 12) (s : State) : Res := runCtl s (fun s => writeCsr s n (s.rS a))
def execAcsrr (c : Clause) (ad : BitVec 5) (n : BitVec 12) (s : State) : Res :=
  runWideFirst 1 false c (csrReadOk n) s (fun s => do pure (s.wA ad (← readCsr s n)))
def execAcsrw (c : Clause) (aa : BitVec 5) (n : BitVec 12) (s : State) : Res :=
  runWideFirst 1 false c (csrWriteOk n) s (fun s => writeCsr s n (s.rA aa))

/-! ### The register writes as steps of their own (R160, R60, R286, R183, R81, R61, R338) -/

def execFpcWrite (core : Nat) (st : Strand) (v : W64) (s : State) : Res := .next (setFpc core st v s)
def execModdefWrite (core : Nat) (st : Strand) (v : W64) (s : State) : Res := .next (setModdef core st v s)
def execPtbaseWrite (core : Nat) (v : W64) (s : State) : Res := .next (setPtbase core v s)
def execMrowpWrite (core : Nat) (v : W64) (s : State) : Res := .next (setMrowp core v s)
def execPresslenWrite (v : W64) (s : State) : Res := .next (setPresslen v s)
def execCtxidWrite (core : Nat) (v : W64) (s : State) : Res := .next (setCtxid core v s)
def execVfidWrite (core : Nat) (v : W64) (s : State) : Res := .next (setVfid core v s)

end Sys2Proof.Machine
end

