-- ==== Sys2Proof/Machine/Access.lean ====
section
/-! DEFINITION. CTL's memory instructions: LDS, STS (R131, R132), ATOM, CAS (R250, R251), the full/empty instructions
and the park list (R248, R252, R253), ownership tokens (R299); and the steps by which writes, copies and outstanding
loads come to be performed (R236, R237, R240, R291). -/

namespace Sys2Proof.Machine

/-! ### LDS and STS (R131, R132) -/

/-- R131's checks: MISALIGNED, then PAGE_ABSENT. -/
def ldsCheck (s : State) (ea : W64) (z : Size) : Try Unit := do
  if ea.toNat % sizeBytes z ≠ 0 then trapAt s 0x24 ea
  if fld ea 52 12 != 0 then trapAt s 0x20 ea

/-- The value a load outstanding at a core returns: through the core's store path and caches at core scope, from
home or the die's copy else, with the writes its die's narrow loads see early (R237). -/
def loadNow (s : State) (c : Nat) (l : LoadOp) : List Byte :=
  let k := s.core c
  let copies := if l.attr.own then k.dc ++ s.copies (dieOf c) else s.copies (dieOf c)
  let base := if l.attr.near && s.choice 0 then viaCopies s copies l.pa l.n else s.bytes l.pa l.n
  let base := if l.attr.near then forward (s.seenWrites c (dieOf c) l.pa l.n) l.pa base else base
  if l.attr.own then forward k.stores l.pa base else base

/-- Whether an outstanding load may be performed now (R236). -/
def loadMay (s : State) (c : Nat) (l : LoadOp) : Bool :=
  (l.attr.own || !((s.core c).stores.any (·.hits l.pa l.n))) &&
    (l.attr.near || (s.seenWrites c (dieOf c) l.pa l.n).isEmpty)

/-- A relaxed LDS whose data return later (R240): every fault is found now. -/
def ldsLater (s : State) (d : BitVec 6) (ea : W64) (z : Size) : Try State :=
  match xlate s s.cur.core s.me.ctxOf s.mode ea.toNat false false with
  | .error e => trapAt s e ea
  | .ok t =>
    let l : LoadOp := { d, pa := t.pa, n := sizeBytes z, attr := s.attr, was := [] }
    if s.bad t.pa (sizeBytes z) then trapBad s ea 0
    else if !loadMay s s.cur.core l then block s
    else .ok (chargeHbm (s.modMe (fun k => { k with
      loads := k.loads ++ [{ l with was := loadNow s s.cur.core l }] })) (sizeBytes z))

def execLds (d a : BitVec 6) (off : BitVec 12) (z : Size) (s : State) : Res :=
  runCtl s (fun s => do
    let ea := eaM (s.rS a) off z
    ldsCheck s ea z
    let at_ := s.attr
    if s.choice 2 && at_.o == .rlx && s.mode != .m && regionOf ea.toNat == .page then ldsLater s d ea z
    else
      let (bs, s) ← readVa s ea (sizeBytes z)
      pure ((acqPart s at_).wS d (w64 (leNat bs))))

def execSts (s0 a : BitVec 6) (off : BitVec 12) (z : Size) (s : State) : Res :=
  runCtl s (fun s => do
    let ea := eaM (s.rS a) off z
    ldsCheck s ea z
    relPart s s.attr
    writeVa s ea (leBytes (sizeBytes z) (s.rS s0).toNat))

/-- The data of an outstanding LDS return (R131), no load ahead of it staying (R236). A poisoned granule is one that was
sound when the LDS issued: it returns what it found then, for every fault of an LDS is precise (R132). -/
def execLoadReturn (core k : Nat) (s : State) : Res :=
  match (s.core core).loads[k]? with
  | none => .next s
  | some l =>
    if !loadMay s core l then .next s
    else
      let bs := if s.bad l.pa l.n then l.was else loadNow s core l
      let s := s.modCore core (fun x => { x with loads := x.loads.eraseIdx k })
      .next ((dropAhead core .ctl l.pa l.n [] (s.refreshFor core l.pa l.n)).modCore core (·.wS l.d (w64 (leNat bs))))

/-! ### ATOM and CAS (R250, R251) -/

/-- The value an ATOM writes, on `8·n` bits. -/
def rmwValue (op : AtomOp) (n : Nat) (old x : Nat) : Nat :=
  let m := 2 ^ (8 * n)
  let sg (v : Nat) : Int := if m / 2 ≤ v then (v : Int) - m else v
  match op with
  | .add => (old + x) % m
  | .and => old &&& x
  | .or => old ||| x
  | .xor => old ^^^ x
  | .min => if sg old ≤ sg x then old else x
  | .max => if sg old ≤ sg x then x else old
  | .minn => Nat.min old x
  | .maxn => Nat.max old x
  | .xchg => x

def atomCode : AtomOp → Nat
  | .add => 0 | .and => 1 | .or => 2 | .xor => 3 | .min => 4 | .max => 5 | .minn => 6 | .maxn => 7 | .xchg => 8

/-- A read-modify-write performed at a home of this device, with the writer's core (R236): the old bytes. `f` gives
the value written, if any. -/
def rmwAt (c pa n : Nat) (f : Nat → Option Nat) (s : State) : List Byte × State :=
  let bs := s.bytes pa n
  match f (leNat bs) with
  | some v => (bs, performWrite s c pa (leBytes n v) false)
  | none => (bs, s.refreshFor c pa n)

/-- The right to read a page address. -/
def mayRead (s : State) (ea : W64) : Try Unit :=
  match xlate s s.cur.core s.me.ctxOf s.mode ea.toNat false false with
  | .error e => trapAt s e ea
  | .ok _ => .ok ()

/-- An RMW of an instruction on `n` bytes: at its home here, or at a window's target. -/
def rmwVa (s : State) (ea : W64) (n : Nat) (f : Nat → Option Nat) (op : Nat) (payload : List Byte) :
    Try (List Byte × State) := do
  if fld ea 52 12 != 0 then trapAt s 0x20 ea
  if ea.toNat % n ≠ 0 then trapAt s 0x24 ea
  let a := s.attr
  match (if s.mode == .m then Region.page else regionOf ea.toNat) with
  | .none => trapAt s 0x20 ea
  | .tile _ _ => trapAt s 0x21 ea
  | .window w off =>
    if s.my.asked = 0 then relPart s a
    let (bs, s) ← winAsk s ea w off n op true true payload
    pure (bs, acqPart s a)
  | .page =>
    mayRead s ea
    let (t, s) ← writePlace s ea
    relPart s a
    rmwReady s t.pa n true
    if s.bad t.pa n then trapBad s ea 0
    let (bs, s) := rmwAt s.cur.core t.pa n f (dropAhead s.cur.core s.cur.st t.pa n [] s)
    pure (bs, chargeHbm (acqPart s a) n)

def execAtom (op : AtomOp) (dword : Bool) (d a b : BitVec 6) (s : State) : Res :=
  runCtl s (fun s => do
    let n := if dword then 8 else 4
    let x := (s.rS b).toNat % 2 ^ (8 * n)
    let (bs, s) ← rmwVa s (s.rS a) n (fun old => some (rmwValue op n old x)) 2
      ([BitVec.ofNat 8 (atomCode op), BitVec.ofNat 8 n] ++ leBytes 8 x)
    pure (s.wS d (w64 (leNat bs))))

def execCas (dword : Bool) (d a b : BitVec 6) (s : State) : Res :=
  runCtl s (fun s => do
    let n := if dword then 8 else 4
    let want := (s.rS d).toNat % 2 ^ (8 * n)
    let x := (s.rS b).toNat % 2 ^ (8 * n)
    let (bs, s) ← rmwVa s (s.rS a) n (fun old => if old = want then some x else none) 3
      ([BitVec.ofNat 8 n] ++ leBytes 8 want ++ leBytes 8 x)
    pure (s.wS d (w64 (leNat bs))))

/-! ### Full/empty (R248, R252, R253) -/

/-- A parked operation completes: its CTL finishes, or its strand elsewhere is answered. -/
def unpark (p : Park) (bs : List Byte) (s : State) : State :=
  let s := { s with parks := s.parks.erase p }
  match p.remote with
  | some q => reply s q 4 bs
  | none =>
    let s := if p.attr.o.acqs then observe p.core .ctl p.attr.s (acquireAt p.core p.attr.s s) else s
    let s := match p.kind with
      | .stfe => dropAhead p.core .ctl p.pa 8 [] s
      | _ => s.modCore p.core (·.wS p.d (w64 (leNat bs)))
    finishCtl p.core false (s.core p.core).stepArm s

/-- The oldest parked operation of a granule that its tag lets complete (R248). -/
def wakeable (s : State) (pa : Nat) : Option Park :=
  s.parks.find? (fun p => p.pa = pa / 8 * 8 && (if s.isFull pa then p.kind != .stfe else p.kind == .stfe))

/-- R248's steps, repeated until none applies. -/
def wakeParks (pa : Nat) : Nat → State → State
  | 0, s => s
  | fuel + 1, s =>
    match wakeable s pa with
    | none => s
    | some p =>
      let bs := s.bytes (pa / 8 * 8) 8
      match p.kind with
      | .ldf => wakeParks pa fuel (unpark p bs s)
      | .ldfe => wakeParks pa fuel (unpark p bs (s.setFull pa false))
      | .stfe => wakeParks pa fuel (unpark p [] ((performWrite s p.core (pa / 8 * 8) (leBytes 8 p.value.toNat) false).setFull pa true))

/-- A word filled at its home (R75, R253), and the parked operations that this lets complete. -/
def fillWord (c pa : Nat) (v : W64) (s : State) : State :=
  let s := (performWrite s c (pa / 8 * 8) (leBytes 8 v.toNat) false).setFull pa true
  wakeParks pa (s.parks.length + 1) s

/-- A word emptied, or its parks served after a change. -/
def emptyWord (pa : Nat) (s : State) : State :=
  let s := s.setFull pa false
  wakeParks pa (s.parks.length + 1) s

/-- The functions of a full/empty request (R252). -/
inductive FeOp | ldfe | ldf | stfe | stf | probe
deriving DecidableEq, Repr

def FeOp.code : FeOp → Nat | .ldfe => 16 | .ldf => 17 | .stfe => 18 | .stf => 19 | .probe => 20
/-- Whether the operation writes the word or its tag, and whether it reads the word. -/
def FeOp.writes : FeOp → Bool | .ldf | .probe => false | _ => true
def FeOp.reads : FeOp → Bool | .stf | .stfe => false | _ => true

/-- The order of an operation: loads at least acquire, stores at least release (R252). -/
def feAttr (f : FeOp) (a : Attr) : Attr :=
  match f with
  | .ldfe | .ldf => { a with o := if a.o.rels then .ar else .acq }
  | .stfe | .stf => { a with o := if a.o.acqs then .ar else .rel }
  | .probe => a

/-- One full/empty operation at the word's home, or none if it parks (R253): the answer and the state. -/
def feAt (c : Nat) (f : FeOp) (pa : Nat) (v : W64) (s : State) : Option (List Byte × State) :=
  let bs := s.bytes pa 8
  match f with
  | .probe => some (leBytes 8 (if s.isFull pa then 1 else 0), s)
  | .ldf => if s.isFull pa then some (bs, s) else none
  | .ldfe => if s.isFull pa then some (bs, emptyWord pa s) else none
  | .stf => some ([], fillWord c pa v s)
  | .stfe => if s.isFull pa then none else some ([], fillWord c pa v s)

/-- The kind under which an operation parks. -/
def FeOp.kind : FeOp → FeKind | .ldfe => .ldfe | .ldf => .ldf | _ => .stfe

/-- A full/empty instruction: the data it returns. -/
def feVa (s : State) (f : FeOp) (ea : W64) (v : W64) (d : BitVec 6) : Try (List Byte × State) := do
  let c := s.cur.core
  let a := feAttr f s.attr
  if s.parks.any (fun p => p.core = c && p.remote.isNone) then block s
  if fld ea 52 12 != 0 then trapAt s 0x20 ea
  if ea.toNat % 8 ≠ 0 then trapAt s 0x24 ea
  match (if s.mode == .m then Region.tile 0 0 else regionOf ea.toNat) with
  | .none => trapAt s 0x20 ea
  | .tile _ _ => trapAt s 0x70 ea
  | .window w off =>
    if s.my.asked = 0 then relPart s a
    let (bs, s) ← winAsk s ea w off 8 2 f.reads f.writes ([BitVec.ofNat 8 f.code, 8] ++ leBytes 8 v.toNat)
    pure (bs, acqPart s a)
  | .page =>
    match ent s c s.me.ctxOf ea.toNat with
    | .error e => trapAt s e ea
    | .ok e =>
      if !e.leaf.getLsbD 6 then trapAt s 0x70 ea
      if f.reads then mayRead s ea
      let (t, s) ← (if f.writes then writePlace s ea
        else match xlate s c s.me.ctxOf s.mode ea.toNat false false with
          | .error e => trapAt s e ea
          | .ok t => pure (t, s))
      relPart s a
      rmwReady s t.pa 8 f.writes
      if s.bad t.pa 8 && f != .stf && f != .stfe then trapBad s ea 0
      match feAt c f t.pa v (dropAhead c s.cur.st t.pa 8 [] s) with
      | some (bs, s) => pure (bs, chargeHbm (acqPart s a) 8)
      | none => block { s with parks := s.parks ++ [(⟨c, f.kind, t.pa, v, d, a, none⟩ : Park)] }

def execLdfe (d a : BitVec 6) (s : State) : Res :=
  runCtl s (fun s => do let (bs, s) ← feVa s .ldfe (s.rS a) 0 d; pure (s.wS d (w64 (leNat bs))))
def execLdf (d a : BitVec 6) (s : State) : Res :=
  runCtl s (fun s => do let (bs, s) ← feVa s .ldf (s.rS a) 0 d; pure (s.wS d (w64 (leNat bs))))
def execStfe (a b : BitVec 6) (s : State) : Res :=
  runCtl s (fun s => do let (_, s) ← feVa s .stfe (s.rS a) (s.rS b) 0; pure s)
def execStf (a b : BitVec 6) (s : State) : Res :=
  runCtl s (fun s => do let (_, s) ← feVa s .stf (s.rS a) (s.rS b) 0; pure s)
def execFeprobe (d a : BitVec 6) (s : State) : Res :=
  runCtl s (fun s => do let (bs, s) ← feVa s .probe (s.rS a) 0 d; pure (s.wS d (w64 (leNat bs))))

/-! ### Ownership tokens (R299) -/

/-- The target, the window, its offset and the descriptor's state of a token instruction's address. -/
def tokenWin (s : State) (ea : W64) : Try (WinTo × Nat × Nat × State) := do
  match (if fld ea 52 12 != 0 then Region.none else regionOf ea.toNat) with
  | .window w off =>
    match winDesc s s.me.ctxOf w with
    | .error c => trapAt s c ea
    | .ok (d, s) =>
      match winCheck d off 1 true false with
      | .error c => trapAt s c ea
      | .ok t =>
        if s.net.lost.contains t.dev then trapAt s 0x93 ea
        pure (t, w, off, s)
  | _ => trapAt s 0x20 ea

/-- A token request, or a return, on the region of an offset: what the target answers. -/
def tokenAsk (s : State) (ea : W64) (t : WinTo) (off : Nat) (release : Bool) : Try Nat := do
  let bs ← askAll s ea (fun s =>
    let s := sendPkt s s.cur.core (reqPkt t 9 off 1 [if release then 1 else 0]) (.answer s.cur.core s.cur.st 0)
    (1, if release then { s with heldTok := s.heldTok.filter (fun x => !(x.dev = t.dev && x.wid = t.wid && x.region = off / 2 ^ 21)) }
        else s))
  pure (leNat (bs.flatten.take 1))

/-- The token this device holds of a region. -/
def tokenOf (s : State) (t : WinTo) (off : Nat) : Option Borrowed :=
  s.heldTok.find? (fun x => x.dev = t.dev && x.wid = t.wid && x.region = off / 2 ^ 21)

/-- RACQ (R299): the region's home moves to the issuing core's die. -/
def execRacq (d a : BitVec 6) (s : State) : Res :=
  runCtl s (fun s => do
    let (t, _, off, s) ← tokenWin s (s.rS a)
    let v ← tokenAsk s (s.rS a) t off false
    let s := s.modMy (fun x => { x with got := [] })
    pure ((if v = 0 && (tokenOf s t off).isNone then
      { s with heldTok := s.heldTok ++ [⟨t.dev, t.wid, off / 2 ^ 21, dieOf s.cur.core, []⟩] } else s).wS d (w64 v)))

/-- The lines of a held region written back as the window's limit allows (R296, R299). -/
def linesBack (s : State) (t : WinTo) (w : Nat) (x : Borrowed) : State :=
  let room := vget 256 (s.ctx s.me.ctxOf).wallow w - vget 0 s.me.wallowOut w
  let why : ReqFor := .posted s.cur.core s.cur.st w 0 s.me.cell s.me.ctxOf s.me.launchid
  let runs := ((x.lines.map (fun q => q.1 / 256)).eraseDups.map (fun b => lineRuns x (256 * b) 256)).flatten
  (runs.take room).foldl (fun s q =>
    match tokenOf s t (x.region * 2 ^ 21) with
    | none => s
    | some y => writeBack s y ({ reqPkt t 1 q.1 q.2.length q.2 with core := s.cur.core } : Packet) q.1 q.2.length (some (w, why))) s

/-- RREL (R299): every line written back, a release, then the token's return. -/
def execRrel (a : BitVec 6) (s : State) : Res :=
  runCtl s (fun s => do
    let (t, w, off, s) ← tokenWin s (s.rS a)
    if s.my.asked ≠ 0 then
      let _ ← tokenAsk s (s.rS a) t off true
      pure s
    else
      match tokenOf s t off with
      | none => pure s
      | some x =>
        if !x.lines.isEmpty then .error (.wait (linesBack s t w x))
        else do
          release s .sys
          let _ ← tokenAsk s (s.rS a) t off true
          pure s)

/-! ### Withdrawal at another device's home (R248, R307) -/

/-- Whether a request is a full/empty operation of a core's CTL. -/
def isFeAsk (c : Nat) (o : OutPkt) : Bool :=
  match o.why with
  | .rmw c' .ctl _ _ => c' = c && o.pkt.op = 2 && (let n := (o.pkt.payload.headD 0).toNat; 16 ≤ n && n ≤ 20)
  | _ => false

/-- The full/empty operation that a core's CTL has parked at another device's home is withdrawn there, by a request that
names its packet; it ends as withdrawn, or with the answer that came first. -/
def withdrawFe (c : Nat) (s : State) : State :=
  if s.net.outs.any (fun o => match o.why with | .withdraw c' => c' = c | _ => false) then s
  else
    match s.net.outs.find? (isFeAsk c) with
    | none => s
    | some o => sendPkt s c { port := 32, dst := o.pkt.dst, src := 0, cls := 0, op := 2, seq := 0, wid := 0, key := 0, off := 0,
                              len := 8, core := 0, det := false, payload := (59 : Byte) :: leBytes 8 o.pkt.seq } (.withdraw c)

/-! ### Writes and copies on their way (R236, R237, R239, R291) -/

/-- The first write of a strand in a core's store path, if none before it touches its bytes. -/
def nextStore (k : Core) (st : Strand) : Option (Nat × StoreOp) :=
  match findIdx (fun o => o.st == st) k.stores with
  | none => none
  | some (i, o) => if (k.stores.take i).any (·.hits o.pa o.bytes.length) then none else some (i, o)

/-- A write in the store path, if it may be performed now: the first of its strand, after CTL's loads where it is
CTL's (R241), and after the writes to its bytes that a die's narrow loads already see (R236). -/
def performable (s : State) (core : Nat) (st : Strand) : Option (Nat × StoreOp) :=
  match nextStore (s.core core) st with
  | none => none
  | some (i, o) =>
    if (st == .ctl && !(s.core core).loads.isEmpty) ||
        !(s.seenWrites core 0 o.pa o.bytes.length ++ s.seenWrites core 1 o.pa o.bytes.length).isEmpty then none
    else some (i, o)

/-- A synchronous write is performed at its home (R236, R239). -/
def execStorePerformed (core : Nat) (st : Strand) (s : State) : Res :=
  match performable s core st with
  | none => .next s
  | some (i, o) =>
    let s := performWrite (s.modCore core (fun k => { k with stores := k.stores.eraseIdx i })) core o.pa o.bytes o.poison
    let s := if o.seen0 then s.refreshDie 0 o.pa o.bytes.length else s
    .next (if o.seen1 then s.refreshDie 1 o.pa o.bytes.length else s)

/-- A write in a core's store path comes to be seen by the narrow loads of a die before its home does (R232, R238): one
that may be performed, and to whose bytes no other write is seen early. -/
def comeSeen (core k die : Nat) (s : State) : State :=
  match (s.core core).stores[k]? with
  | none => s
  | some o =>
    match performable s core o.st with
    | none => s
    | some (i, _) =>
      if i ≠ k then s
      else s.modCore core (fun c => { c with
        stores := c.stores.set k (if die = 0 then { o with seen0 := true } else { o with seen1 := true }) })

/-- A load of a strand is performed ahead of its instruction, at the granule's home (R240): nothing of the store paths or
of CTL's outstanding loads touches it. -/
def loadAhead (core : Nat) (st : Strand) (va : W64) (s : State) : State :=
  let k := s.core core
  if !k.live || k.mode == .m || (st != .ctl && k.mode != .u) || (k.strand st).ended then s
  else
    match xlate s core k.ctxOf (if st == .ctl then k.mode else .u) va.toNat false false with
    | .error _ => s
    | .ok t =>
      let g := t.pa / 8
      if s.bad (8 * g) 8 || k.stores.any (·.hits (8 * g) 8) || k.loads.any (fun l => inRange g l.pa l.n) ||
          !(s.seenWrites core (dieOf core) (8 * g) 8).isEmpty then s
      else s.modCore core (fun k => k.modStrand st (fun x =>
        { x with ahead := x.ahead.filter (fun e => e.g ≠ g) ++ [⟨g, s.rd64 (8 * g), []⟩] }))

/-- A die's copy of a granule, and its cores' cached copies, are brought up to date (R236, R237). -/
def execDieCopyUpdate (die addr : Nat) (s : State) : Res :=
  let g := addr / 8
  let now (m : List (Nat × W64)) : List (Nat × W64) := if (look g m).isSome then put g (s.rd64 (8 * g)) m else m
  let s' := s.setCopies die (now (s.copies die))
  .next { s' with cores := canon .init (s'.cores.map (fun q =>
    if dieOf q.1 = die then (q.1, { q.2 with dc := now q.2.dc }) else q)) }

/-- A copy-on-write is performed (R291). -/
def execCopyOnWrite (k : Nat) (s : State) : Res :=
  match s.cows[k]? with
  | none => .next s
  | some w => .next (cowFinish s w)

end Sys2Proof.Machine
end

