-- ==== Sys2Proof/Machine/Timeline.lean ====
section
/-! DEFINITION. Timelines (R255, R256, R311), FENCE (R254), the domain barrier (R40, R78) and its notice. -/

namespace Sys2Proof.Machine

/-! ### Timelines -/

def Core.tlOf (k : Core) (x : TlCtx) : Tl := vget .init k.tl x.idx
def Core.setTl (k : Core) (x : TlCtx) (t : Tl) : Core := { k with tl := vset k.tl x.idx t }

/-- The least of a list of numbers, from `m`. -/
def leastOf (m : Nat) (l : List Nat) : Nat := l.foldl min m

/-- TL(ctx): every operation numbered at or below it has completed (R63, R255). -/
def Tl.done (t : Tl) : Nat := match t.out with | [] => t.issued | n :: l => leastOf n l - 1

/-- A mark becomes a trap with ASYNC and CTX, and is cleared (R311). -/
def raiseMark (x : TlCtx) (s : State) : Try Unit :=
  match (s.me.tlOf x).mark with
  | none => .ok ()
  | some m => .error (.trap ⟨m.cause, m.addr, m.info, none, some x.idx⟩
      (s.modMe (fun k => k.setTl x { k.tlOf x with mark := none })))

def Scope.ofIdx : Nat → Scope | 0 => .core | 1 => .clu | 2 => .die | 3 => .dev | _ => .sys
def Scope.idx : Scope → Nat | .core => 0 | .clu => 1 | .die => 2 | .dev => 3 | .sys => 4

/-- The widest scope among the operations numbered up to `n`, none if there is none (R255). -/
def Tl.widest (t : Tl) (n : Nat) : Option Scope :=
  ([4, 3, 2, 1, 0].find? (fun i => vget 0 t.reach i ≠ 0 && vget 0 t.reach i ≤ n)).map Scope.ofIdx

/-- A new operation, numbered, with its scope (R255). -/
def Tl.next (t : Tl) (sc : Scope) : Tl :=
  { t with issued := t.issued + 1, out := t.out ++ [t.issued + 1],
           reach := Vector.ofFn (fun i =>
             if i.val ≤ Scope.idx sc && vget 0 t.reach i.val = 0 then t.issued + 1 else vget 0 t.reach i.val) }

/-- Every effect of the operations numbered up to `n` acquired, each at its own scope: the widest of them takes in the
others (R242, R255). -/
def tlAcquire (x : TlCtx) (n : Nat) (s : State) : State :=
  match (s.me.tlOf x).widest n with
  | none => s
  | some sc => acquire s sc

/-- TLWAIT (R255). -/
def tlWait (x : TlCtx) (n : W64) (s : State) : Try State := do
  raiseMark x s
  waitFor s (n.toNat ≤ (s.me.tlOf x).done)
  pure (tlAcquire x n.toNat s)

def execTlread (d : BitVec 6) (x : TlCtx) (s : State) : Res :=
  runCtl s (always (fun s => s.wS d (w64 (s.me.tlOf x).base)))
def execTlwait (x : TlCtx) (a : BitVec 6) (s : State) : Res := runCtl s (fun s => tlWait x (s.rS a) s)
def execTlwaitp (p : BitVec 3) (x : TlCtx) (a : BitVec 6) (s : State) : Res :=
  runCtl s (fun s => do
    raiseMark x s
    let t := (s.rS a).toNat ≤ (s.me.tlOf x).done
    pure ((if t then tlAcquire x (s.rS a).toNat s else s).wP p t))
def execTlwaitWide (c : Clause) (x : TlCtx) (aa : BitVec 5) (s : State) : Res := runWide c s (fun s => tlWait x (s.rA aa) s)

/-- A new operation numbered in a context of the issuing core (R255): its number and the state. -/
def number (x : TlCtx) (s : State) : Nat × State :=
  let t := s.me.tlOf x
  (t.issued + 1, s.modMe (fun k => k.setTl x (t.next s.attr.s)))

/-- An operation complete: its number leaves the outstanding ones, and the event latch is set (R255, R320). -/
def complete (c : Nat) (x : TlCtx) (n : Nat) (s : State) : State :=
  s.modCore c (fun k => { k.setTl x { k.tlOf x with out := (k.tlOf x).out.filter (· != n) } with latch := true })

/-- A fault marks a context and stops its engine behind it; a context holds one mark, a later failure is an event
(R311). -/
def mark (c : Nat) (x : TlCtx) (op cause : Nat) (addr info : W64) (s : State) : State :=
  let k := s.core c
  match (k.tlOf x).mark with
  | some _ => event s k.ctxOf cause c k.launchNo addr info
  | none => s.modCore c (fun k => k.setTl x { k.tlOf x with mark := some ⟨op, cause, addr, info⟩, stopped := true })

/-! ### FENCE (R254) -/

def execFence (kind : FenceKind) (sc : Scope) (s : State) : Res :=
  runCtl s (fun s => do
    waitFor s (deltasDone s s.cur.core .ctl)
    if kind != .acq then release s sc
    pure (if kind != .rel then acquire s sc else s))

/-! ### DBAR (R40, R78) -/

/-- The scope of a domain level (R40). -/
def levelScope (l : Nat) : Scope := if l = 1 then .clu else if l ≤ 3 then .dev else .sys

/-- The record of a phase. -/
def phaseOf (s : State) (l did ph : Nat) : Option Phase :=
  s.phases.find? (fun p => p.level = l && p.did = did && p.phase = ph)

def setPhase (s : State) (p : Phase) : State :=
  { s with phases := p :: s.phases.filter (fun q => !(q.level = p.level && q.did = p.did && q.phase = p.phase)) }

/-- A closed phase's waiting cells get their notices (R40). -/
def closePhase (s : State) (p : Phase) : State :=
  if p.arrived = p.cnt + 1 then
    { setPhase s { p with waiting := [] } with msgs := s.msgs ++ p.waiting.map (fun c => .notice c p.level) }
  else setPhase s p

/-- What an arrival with its CNT meets: 0 recorded, else the cause of its trap (R40). An arrival with another CNT at a
phase that has recorded all its arrivals fits DBAR_MISMATCH and DBAR_OVER both; the rule gives them no order, and the
model compares CNT first (DESIGN CHOICE, log 80). -/
def arrive (s : State) (l did ph cnt : Nat) (who : List Nat) : Nat × State :=
  match phaseOf s l did ph with
  | none => (0, closePhase s { level := l, did, phase := ph, cnt, arrived := 1, waiting := who, bad := [] })
  | some p =>
    if p.cnt ≠ cnt then (0x71, setPhase s { p with bad := p.bad ++ p.waiting, waiting := [] })
    else if p.arrived = p.cnt + 1 then (0x72, s)
    else (0, closePhase s { p with arrived := p.arrived + 1, waiting := p.waiting ++ who })

def bit4 (b : BitVec 4) (i : Nat) (v : Bool) : BitVec 4 :=
  if v then b ||| BitVec.ofNat 4 (2 ^ i) else b &&& ~~~(BitVec.ofNat 4 (2 ^ i))

def execDbar (lv : BitVec 3) (s : State) : Res :=
  runCtl s (fun s => do
    let l := lv.toNat
    let c := s.cur.core
    let k := s.me
    let dm := vget 0 k.dmemb (l - 1)
    trapIf s (!dm.getLsbD 63) 0x00
    let did := (fld dm 32 16).toNat
    let cnt := (fld dm 48 15).toNat
    let ph := vget 0 k.phase (l - 1)
    if !k.arrived.getLsbD (l - 1) then
      release s (levelScope l)
      let (cause, s) := arrive s l did ph cnt [c]
      if cause ≠ 0 then trap s cause
      else block (s.modMe (fun k => { k with arrived := bit4 k.arrived (l - 1) true }))
    else if k.notified.getLsbD (l - 1) then
      pure ((acquire s (levelScope l)).modMe (fun k =>
        { k with phase := vset k.phase (l - 1) ((ph + 1) % 65536), arrived := bit4 k.arrived (l - 1) false,
                 notified := bit4 k.notified (l - 1) false }))
    else
      match phaseOf s l did ph with
      | none => block s
      | some p =>
        if p.bad.contains c then trap (setPhase s { p with bad := p.bad.filter (· != c) }) 0x71
        else if p.waiting.contains c || s.msgs.any (fun m => match m with | .notice x y => x == c && y == l | _ => false)
        then block s
        else block (closePhase s { p with waiting := p.waiting ++ [c] }))

/-- A phase-close notice reaches a core (R40). -/
def execDbarNotice (core level : Nat) (s : State) : Res :=
  let is (m : Msg) : Bool := match m with | .notice x y => x == core && y == level | _ => false
  if s.msgs.any is then
    .next ({ s with msgs := s.msgs.filter (fun m => !is m) }.modCore core (fun k =>
      { k with notified := bit4 k.notified (level - 1) true }))
  else .next s

end Sys2Proof.Machine
end

