-- ==== Sys2Proof/Machine/Folio.lean ====
section
/-! DEFINITION. Handles, folio records, galleys and counts (R87 to R103, R206): the shared operations of every
instruction and engine that names a tile. -/

namespace Sys2Proof.Machine

/-! ### Formats (R206) -/

/-- Bits of an element. -/
def ebits (t : Elem) : Nat :=
  match t with
  | .f32 | .i32 | .n32 => 32
  | .b16 | .l16 | .i16 | .n16 => 16
  | .e8 | .l8 | .i8 | .n8 => 8
  | .i6 => 6
/-- Bytes of a row of `c` elements. -/
def rowBytes (t : Elem) (c : Nat) : Nat := c * ebits t / 8
/-- The alignment of addresses and strides: e, with 1 for I6 (R208). -/
def ealign (t : Elem) : Nat := if t = .i6 then 1 else ebits t / 8
/-- A shape a tile may have: 1 to 512 each way, I6 in whole bytes (R106, R206). -/
def shapeOk (t : Elem) (rows cols : Nat) : Bool :=
  1 ≤ rows && rows ≤ 512 && 1 ≤ cols && cols ≤ 512 && (t != .i6 || cols % 4 = 0)
/-- Galleys of a tile (R91). -/
def galleys (t : Elem) (rows cols : Nat) : Nat := (rowBytes t (rows * cols) + 16383) / 16384
/-- The type of a code (R12). -/
def elemOf (n : Nat) : Elem := (Elem.ofCode (BitVec.ofNat 4 n)).getD .f32
/-- Whether a raw element is read with its sign (R109). -/
def isSigned (t : Elem) : Bool := t == .i32 || t == .i16 || t == .i8 || t == .i6

/-- Element `i` of packed bytes (R91, R206). -/
def elemAt (get : Nat → Byte) (t : Elem) (i : Nat) : Nat :=
  let bit := ebits t * i
  leNat ((List.range 4).map (fun j => get (bit / 8 + j))) / 2 ^ (bit % 8) % 2 ^ ebits t

/-- A byte with `n` bits from `lo` replaced by those of `v`. -/
def patch (b : Byte) (lo n v : Nat) : Byte :=
  BitVec.ofNat 8 (b.toNat - b.toNat / 2 ^ lo % 2 ^ n * 2 ^ lo + v % 2 ^ n * 2 ^ lo)

/-! ### Handles (R87, R88) -/

def hKind (h : W64) : Nat := (fld h 61 3).toNat
def hDev (h : W64) : Nat := (fld h 53 8).toNat
def hCore (h : W64) : Nat := (fld h 46 7).toNat
def hFolio (h : W64) : Nat := (fld h 32 14).toNat
def hGen (h : W64) : Nat := (fld h 20 12).toNat
def hWeight (h : W64) : Nat := (fld h 4 16).toNat
def hRights (h : W64) : Nat := (fld h 0 4).toNat
def isNull (h : W64) : Bool := hKind h = 0
def isTile (h : W64) : Bool := hKind h = 1
def isEnd (h : W64) : Bool := hKind h = 2 || hKind h = 3
/-- Fields no handle may have (R88). -/
def hBad (h : W64) : Bool := 4 ≤ hKind h || 17 < hWeight h || 8 ≤ hRights h
/-- A handle from its fields. -/
def mkHandle (kind dev core folio gen weight rights : Nat) : W64 :=
  w64 (kind * 2 ^ 61 + dev % 256 * 2 ^ 53 + core % 128 * 2 ^ 46 + folio % 2 ^ 14 * 2 ^ 32 + gen % 4096 * 2 ^ 20 +
    weight % 65536 * 16 + rights % 16)
def hSetWeight (h : W64) (w : Nat) : W64 := w64 (h.toNat - hWeight h * 16 + w % 65536 * 16)
def hSetRights (h : W64) (r : Nat) : W64 := w64 (h.toNat - hRights h + r % 16)
/-- The name of a tile, as its proxies share it whatever their weight and rights: the key of a pin record (R98). -/
def hTile (h : W64) : W64 := mkHandle 1 (hDev h) (hCore h) (hFolio h) (hGen h) 0 0
/-- Whether the tile's home is this device. -/
def homeHere (s : State) (h : W64) : Bool := hDev h = s.dev % 256
/-- A reference counted at its home (R87). -/
def counted (h : W64) : Bool := hWeight h = 0

/-! ### Folios and galleys (R90 to R93) -/

def State.folio (s : State) (c f : Nat) : Folio := mget .init (s.core c).folio f
def State.setFolio (s : State) (c f : Nat) (x : Folio) : State :=
  s.modCore c (fun k => { k with folio := mset .init k.folio f x })
def State.gal (s : State) (c g : Nat) : Gal := mget .init (s.core c).gal g
def State.setGals (s : State) (c first n : Nat) (f : Gal → Gal) : State :=
  s.modCore c (fun k => { k with
    gal := (List.range n).foldl (fun m i => mset .init m (first + i) (f (mget .init m (first + i)))) k.gal })
def Folio.bytes (x : Folio) : Nat := rowBytes x.fmt (x.rows * x.cols)

/-- Whether a galley may be allocated: free, and its bank not withdrawn (R91, R331). -/
def galFree (k : Core) (g : Nat) : Bool := !(mget .init k.gal g).busy && !k.withdrawn.contains (12 + g / 16)

/-- The lowest run of `n` free galleys (R91). -/
def freeRun (k : Core) (n : Nat) : Option Nat :=
  firstFrom (fun g => (List.range n).all (fun i => galFree k (g + i))) 0 (513 - n)

/-- Galleys emptied: bytes and poison cleared. -/
def clearGals (c first n : Nat) (s : State) : State :=
  s.modCore c (fun k => { k with
    store := mclear k.store (16384 * first) (16384 * (first + n)),
    storePoison := k.storePoison.filter (fun g => 8 * g < 16384 * first || 16384 * (first + n) ≤ 8 * g),
    dirtyG := (List.range n).foldl (fun d i => d ||| BitVec.ofNat 512 (2 ^ (first + i))) k.dirtyG })

/-- The bytes past a tile's last element read as zero (R91). -/
def clearTail (c : Nat) (x : Folio) (s : State) : State :=
  let lo := 16384 * x.first + x.bytes
  let hi := 16384 * (x.first + x.ngal)
  s.modCore c (fun k => { k with
    store := mclear k.store lo hi, storePoison := k.storePoison.filter (fun g => 8 * g < lo || hi ≤ 8 * g) })

/-- A new tile (R91): its record and galleys, COUNT 1; contents cleared on demand and wherever the galleys held
another context's tile (R245), the bytes past the last element always. -/
def newTile (c ctx : Nat) (t : Elem) (rows cols : Nat) (st : GState) (win clear : Bool) (s : State) :
    Option (Nat × State) :=
  let k := s.core c
  let n := galleys t rows cols
  match firstFrom (fun f => !(mget .init k.folio f).used) 0 16384, freeRun k n with
  | some f, some g =>
    let old := s.folio c f
    let mine := (List.range n).all (fun i => (s.gal c (g + i)).ctx = ctx)
    let s := if clear || !mine then clearGals c g n s else s
    let s := s.setGals c g n (fun _ => { busy := true, folio := f, ctx })
    let x := { Folio.init with
      count := 1, state := st, fmt := t, used := true, win := win,
      rows := rows, cols := cols, first := g, ngal := n, gen := old.gen, ctx := ctx }
    some (f, (clearTail c x s).setFolio c f x)
  | _, _ => none

/-- The handle of a tile homed on a core of this device. -/
def handleOf (s : State) (c f : Nat) : W64 := mkHandle 1 s.dev c f (s.folio c f).gen 0 7

/-- A record released as COUNT reaches 0 (R93): the generation moves on; the galleys are freed, but those of an
engine's fill under way only when the engine completes (marked by a folio number no record has). -/
def freeTile (c f : Nat) (s : State) : State :=
  let x := s.folio c f
  let late := x.state == .filling && !x.win && !x.dead
  let s := s.setGals c x.first x.ngal (fun g => if late then { g with folio := 16384 + f } else { g with busy := false, folio := 0 })
  s.setFolio c f { Folio.init with gen := (x.gen + 1) % 4096 }

/-- COUNT lowered at the home (R95). -/
def countDown (c f n : Nat) (s : State) : State :=
  let x := s.folio c f
  if x.count ≤ n then freeTile c f s else s.setFolio c f { x with count := x.count - n }

/-- A delta applied at the home, or the cause of its refusal (R97). -/
def applyDelta (c f gen : Nat) (amount : Int) (s : State) : Except Nat State :=
  let x := s.folio c f
  if !x.used || x.gen ≠ gen then .error 0x31
  else if x.count + amount > 2 ^ 24 - 1 then .error 0x32
  else if x.count + amount ≤ 0 then .ok (freeTile c f s)
  else .ok (s.setFolio c f { x with count := (x.count + amount).toNat })

/-- A proxy's weight returned at the home (R100). -/
def returnWeight (c f gen w : Nat) (s : State) : State :=
  let x := s.folio c f
  if !x.used || x.gen ≠ gen then s
  else if x.expw ≤ w then
    if x.count ≤ x.expc then freeTile c f s
    else s.setFolio c f { x with expw := 0, expc := 0, count := x.count - x.expc }
  else s.setFolio c f { x with expw := x.expw - w }

/-- The weight a proxy stands for: 2^(WEIGHT−1) (R87). -/
def weightOf (h : W64) : Nat := 2 ^ (hWeight h - 1)

/-! ### Checks (R105) -/

/-- The device's own check of a tile's record: poison, STALE_HANDLE, VALUE_CTX (R105, R333, R314). -/
def recordCheck (s : State) (ctx : Nat) (h : W64) : Option Nat :=
  let k := s.core (hCore h)
  let x := s.folio (hCore h) (hFolio h)
  if k.folioPoison.contains (hFolio h) then some 0xB0
  else if !x.used || x.gen ≠ hGen h then some 0x31
  else if x.ctx ≠ ctx then some 0x3C
  else none

/-- Steps 1 to 3 of R105: the bits of the handle. -/
def handleBits (h : W64) (right : Nat) : Option Nat :=
  if isNull h then some 0x30
  else if !isTile h || hBad h then some 0x34
  else if hRights h / 2 ^ right % 2 = 0 then some 0x35
  else none

/-- Steps 1 and 2 alone, for the instructions that need no right. -/
def handleKind (h : W64) : Option Nat :=
  if isNull h then some 0x30 else if !isTile h || hBad h then some 0x34 else none

/-- The first failing check as a trap; poison of a record is that of the folio store's bank (R310, R331). -/
def orTrap (s : State) (e : Option Nat) : Try Unit :=
  match e with
  | some c => if c = 0xB0 then trapBad s 0 44 else trap s c
  | none => .ok ()

/-- R105 for a tile of this device; a tile of another device is checked at its home. -/
def checkTile (s : State) (h : W64) (bits : Option Nat) : Try Unit := do
  orTrap s bits
  if homeHere s h then orTrap s (recordCheck s s.me.ctxOf h)

/-- R89: a live destination. -/
def destFree (s : State) (d : BitVec 6) (a : Option (BitVec 6)) : Try Unit :=
  trapIf s (a != some d && !isNull (s.rH d)) 0x38

/-! ### References given up and taken (R96, R98, R100) -/

/-- A message posted. -/
def State.post (s : State) (m : Msg) : State := { s with msgs := s.msgs ++ [m] }

/-- Whether a strand's issue runs in S mode (R97). -/
def inS (s : State) : Bool := s.mode != .u

/-- A proxy's weight returned, once no local pin holds it (R98, R100). -/
def postWeight (c : Nat) (st : Strand) (h : W64) (s : State) : State :=
  if (s.core c).pins.any (fun p => p.1 == hTile h) then
    s.modCore c (fun k => { k with owedWeights := k.owedWeights ++ [h] })
  else s.post (.weight c st h)

/-- A proxy that lands on its tile's home device becomes a local reference (R101). -/
def landHandle (s : State) (h : W64) : State × W64 :=
  if isTile h && !counted h && homeHere s h then
    match applyDelta (hCore h) (hFolio h) (hGen h) 1 s with
    | .ok s => (returnWeight (hCore h) (hFolio h) (hGen h) (weightOf h) s, hSetWeight h 0)
    | .error _ => (s, h)
  else (s, h)

/-- The H registers of a core that hold proxies of a tile of this device converted (R101). -/
def landAll (c : Nat) (h : W64) (s : State) : State :=
  (List.range 64).foldl (fun s i =>
    let g := vget 0 (s.core c).h i
    if isTile g && !counted g && hTile g == hTile h then
      let q := landHandle s g
      q.1.modCore c (fun k => { k with h := vset k.h i q.2 })
    else s) s

/-- A reference of a tile given up by a strand of a core (R95, R96, R100). -/
def giveUp (c : Nat) (st : Strand) (h : W64) (sup : Bool) (s : State) : State :=
  if !counted h then postWeight c st h s
  else if homeHere s h && hCore h = c then
    if (s.folio c (hFolio h)).used && (s.folio c (hFolio h)).gen = hGen h then countDown c (hFolio h) 1 s else s
  else s.post (.delta c st h (-1) .drop s.cycle sup)

/-- The pin record of a proxy's tile, one higher. -/
def pinMore (h : W64) (k : Core) : Core :=
  { k with pins := if k.pins.any (fun p => p.1 == hTile h) then
                     k.pins.map (fun p => if p.1 == hTile h then (p.1, p.2 + 1) else p)
                   else k.pins ++ [(hTile h, 1)] }

/-- The pin record of a proxy's tile, one lower. -/
def pinLess (h : W64) (k : Core) : Core :=
  { k with pins := (k.pins.map (fun p => if p.1 == hTile h then (p.1, p.2 - 1) else p)).filter (fun p => p.2 ≠ 0) }

/-- A pin taken at issue for operation `n` of a context (R98). -/
def takePin (x : TlCtx) (n : Nat) (h : W64) (s : State) : Try State :=
  let c := s.cur.core
  if !counted h then .ok (s.modMe (pinMore h))
  else if homeHere s h && hCore h = c then
    let f := s.folio c (hFolio h)
    if f.count ≥ 2 ^ 24 - 1 then trap s 0x32 else .ok (s.setFolio c (hFolio h) { f with count := f.count + 1 })
  else .ok (s.post (.delta c s.cur.st h 1 (.pin x n) s.cycle (inS s)))

/-- A pin of operation `n` of a context released as it completes (R98). A record that reaches zero lets go of the weights
that waited for it, and proxies restored on their tile's home device become local references (R101). -/
def unpin (c : Nat) (st : Strand) (x : TlCtx) (n : Nat) (h : W64) (s : State) : State :=
  if !counted h then
    let s := s.modCore c (pinLess h)
    if (s.core c).pins.any (fun p => p.1 == hTile h) then s
    else
      let owed := (s.core c).owedWeights.filter (fun g => hTile g == hTile h)
      let s := owed.foldl (fun s g => s.post (.weight c st g))
        (s.modCore c (fun k => { k with owedWeights := k.owedWeights.filter (fun g => hTile g != hTile h) }))
      if homeHere s h then landAll c h s else s
  else if homeHere s h && hCore h = c then
    if (s.folio c (hFolio h)).used && (s.folio c (hFolio h)).gen = hGen h then countDown c (hFolio h) 1 s else s
  else s.post (.delta c st h (-1) (.unpin x n) s.cycle false)

/-- Whether a pin of an operation is still on its way to its home (R97). -/
def pinPending (s : State) (c : Nat) (x : TlCtx) (n : Nat) : Bool :=
  s.msgs.any (fun m => match m with | .delta c' _ _ _ (.pin y n') _ _ => c' == c && y == x && n' == n | _ => false)

/-- Whether an unpin of an operation is still on its way to its home (R86, R98). -/
def unpinPending (s : State) (c : Nat) (x : TlCtx) (n : Nat) : Bool :=
  s.msgs.any (fun m => match m with | .delta c' _ _ _ (.unpin y n') _ _ => c' == c && y == x && n' == n | _ => false)

/-- An operation that has released its pins is reported complete, once every unpin has been applied at its home
(R86, R98). -/
def report (c : Nat) (x : TlCtx) (n : Nat) (s : State) : State := if unpinPending s c x n then s else complete c x n s

/-! ### Requests to a home on another device (log 12) -/

/-- A request to a tile's home as one packet (log 12). -/
def homePkt (h : W64) (fn : Nat) (arg : List Byte) : Packet :=
  { port := 32, dst := hDev h, src := 0, cls := 0, op := 2, seq := 0, wid := 0, key := 0, off := 0, len := 8 + arg.length,
    core := 0, det := false, payload := BitVec.ofNat 8 fn :: leBytes 8 h.toNat ++ arg }

/-- A request about a tile, function `fn`, with operands, to the device that is its home: HOME_LOST if that device
is lost. -/
def askHome (s : State) (h : W64) (fn : Nat) (args : List (List Byte)) : Try (List (List Byte)) := do
  if s.net.lost.contains (hDev h) then trap s 0x3B
  askAll s 0 (fun s => (args.length, args.zipIdx.foldl (fun s p =>
    sendPkt s s.cur.core (homePkt h fn p.1) (.answer s.cur.core s.cur.st p.2)) s))

/-- A folio record as its three dwords (R90). -/
def folioWords (x : Folio) : List W64 :=
  let st := match x.state with | .free => 0 | .filling => 1 | .full => 2 | .draining => 3
  if x.used then
    [w64 (x.count + st * 2 ^ 24 + x.fmt.code.toNat * 2 ^ 26 + 2 ^ 30 + (if x.win then 2 ^ 31 else 0) +
        (x.rows - 1) * 2 ^ 32 + (x.cols - 1) * 2 ^ 41 + x.first * 2 ^ 50),
     w64 (x.ngal - 1 + x.gen * 2 ^ 6 + x.expc * 2 ^ 18), w64 x.expw]
  else [0, w64 (x.gen * 64), 0]

/-- The record three dwords stand for. -/
def folioFrom (ctx : Nat) (d0 d1 d2 : W64) : Folio :=
  let st := match (fld d0 24 2).toNat with | 0 => GState.free | 1 => .filling | 2 => .full | _ => .draining
  { count := (fld d0 0 24).toNat, state := st, fmt := elemOf (fld d0 26 4).toNat, used := d0.getLsbD 30,
    win := d0.getLsbD 31, rows := (fld d0 32 9).toNat + 1, cols := (fld d0 41 9).toNat + 1,
    first := (fld d0 50 9).toNat, ngal := (fld d1 0 6).toNat + 1, gen := (fld d1 6 12).toNat,
    expc := (fld d1 18 24).toNat, expw := (fld d2 0 32).toNat, ctx, drains := 0, dead := false }

/-- The home record of a tile wherever it is, read by the issuing strand. -/
def readRecord (s : State) (h : W64) : Try Folio :=
  if homeHere s h then .ok (s.folio (hCore h) (hFolio h))
  else do
    let bs := (← askHome s h 34 [[]]).flatten
    pure (folioFrom s.me.ctxOf (w64 (leNat (bs.take 8))) (w64 (leNat ((bs.drop 8).take 8))) (w64 (leNat (bs.drop 16))))

/-- Bytes of a tile's contents from an offset: this device's tile stores. -/
def contentsAt (s : State) (c : Nat) (x : Folio) (off n : Nat) : List Byte :=
  tileBytes s c (16384 * x.first + off) n

/-- Writes a tile's bytes. -/
def writeContents (s : State) (c : Nat) (x : Folio) (off : Nat) (bs : List Byte) (p : Bool) : State :=
  tileWrite s c (16384 * x.first + off) bs p

/-- A draining operation of a tile begins: it is DRAINING (R93, R219). -/
def drainOn (c f : Nat) (s : State) : State :=
  let x := s.folio c f
  s.setFolio c f { x with state := .draining, drains := x.drains + 1 }

/-- A draining operation ends: the tile is FULL once none is left (R93, R219). -/
def drainOff (h : W64) (s : State) : State :=
  let c := hCore h
  let f := hFolio h
  let x := s.folio c f
  if x.used && x.gen = hGen h && x.state == .draining then
    s.setFolio c f { x with state := if x.drains ≤ 1 then .full else .draining, drains := x.drains - 1 }
  else s

/-- The waiting of readers and updaters (R94). -/
def readable (x : Folio) : Bool := x.state != .filling

/-- The tile a producing engine completes becomes FULL, its tail reads zero, and its core's latch is set (R91, R93,
R320). A tile whose record was released meanwhile frees its galleys, and the data are discarded. -/
def fillDone (c f gen first ngal : Nat) (s : State) : State :=
  let x := s.folio c f
  if x.used && x.gen = gen then
    let s := s.setFolio c f { x with state := .full, win := false }
    clearTail c x (s.modCore c (fun k => { k with latch := true }))
  else
    (clearGals c first ngal s).setGals c first ngal (fun g => if g.folio = 16384 + f then { g with busy := false, folio := 0 } else g)

end Sys2Proof.Machine
end

