-- ==== Sys2Proof/Machine/StreamOps.lean ====
section
/-! DEFINITION. Anchors, stocks and ends of streams (R259 to R266, R274, R276 to R280): the shared operations of the
stream instructions and of the stream units' own steps. -/

namespace Sys2Proof.Machine

/-! ### Anchor records (R259, R285) -/

/-- The place of an anchor record of this device. -/
def anchorPa (a : Anchor) : Nat :=
  (if a.core < 64 then 0x10000000 + 65536 * a.core else 0x3000000000 + 65536 * (a.core - 64)) + 64 * (a.idx % 1024)

/-- A field of a dword replaced. -/
def setField (w : W64) (lo n v : Nat) : W64 :=
  w64 (w.toNat - w.toNat / 2 ^ lo % 2 ^ n * 2 ^ lo + v % 2 ^ n * 2 ^ lo)

def State.anc (s : State) (a : Anchor) (i : Nat) : W64 := s.rd64 (anchorPa a + 8 * i)
def State.setAnc (s : State) (a : Anchor) (i : Nat) (v : W64) : State := s.wr64 (anchorPa a + 8 * i) v
def State.ancField (s : State) (a : Anchor) (i lo n : Nat) : Nat := (fld (s.anc a i) lo n).toNat
def State.setAncField (s : State) (a : Anchor) (i lo n v : Nat) : State := s.setAnc a i (setField (s.anc a i) lo n v)

def ancUsed (s : State) (a : Anchor) : Bool := s.ancField a 5 12 1 = 1
def ancGen (s : State) (a : Anchor) : Nat := s.ancField a 5 0 12
def ancK (s : State) (a : Anchor) : Nat := s.ancField a 4 0 5
def ancCtx (s : State) (a : Anchor) : Nat := s.ancField a 5 16 9
/-- WST and RST: 0 live, 1 in transit, 2 closed. -/
def ancWst (s : State) (a : Anchor) : Nat := s.ancField a 2 16 2
def ancRst (s : State) (a : Anchor) : Nat := s.ancField a 3 21 2
def ancCold (s : State) (a : Anchor) : Bool := s.ancField a 3 20 1 = 1
/-- Whether an anchor lies on this device. -/
def ancHere (s : State) (a : Anchor) : Bool := a.dev = s.dev % 256
/-- Poison in an anchor record (R333). -/
def ancBad (s : State) (a : Anchor) : Bool := s.bad (anchorPa a) 64

/-- The anchor an end's handle names. -/
def anchorOf (h : W64) : Anchor := ⟨hDev h, hCore h, hFolio h⟩

/-! ### The stock (R260) -/

/-- Frames' worth of stock bytes. -/
def stockFrames (k : Nat) : Nat := (2 ^ k * 66 + 4095) / 4096

/-- The list frame that holds entry `i`, walking `n` links. -/
def listFrame (s : State) (pa : Nat) : Nat → Nat
  | 0 => pa
  | n + 1 => listFrame s (s.rd64 (pa + 8 * 511)).toNat n

/-! ### Messages to a place (R302; log 12) -/

/-- Dwords of a byte string. -/
def dwOf (n : Nat) (bs : List Byte) : List W64 := (List.range n).map (fun i => w64 (leNat ((bs.drop (8 * i)).take 8)))

/-- A stream message's bytes in a packet: a tag, the anchor and its numbers. -/
def msgBytes (tag : Nat) (a : Anchor) (ns : List Nat) (ws : List W64) : List Byte :=
  [BitVec.ofNat 8 tag, BitVec.ofNat 8 a.dev, BitVec.ofNat 8 a.core] ++ leBytes 2 a.idx ++
    (ns.map (leBytes 8)).flatten ++ (ws.map (fun (w : W64) => leBytes 8 w.toNat)).flatten

/-- A stream message as a packet's payload. -/
def msgPayload : Msg → List Byte
  | .item a n it tc src sq _ => msgBytes 0 a [n, tc, src, sq, it.mask.toNat + (if it.poison then 256 else 0)] it.words
  | .stop a tc => msgBytes 1 a [tc] []
  | .go a tc p => msgBytes 2 a [tc, p] []
  | .rebind a tc d c hot mv old => msgBytes 3 a [tc, d, c, (if hot then 1 else 0) + (if mv then 2 else 0), old] []
  | .rebound a tc => msgBytes 4 a [tc] []
  | .orphan a tc rd cause fin => msgBytes 5 a [tc, (if rd then 1 else 0), cause, (match fin with | some n => n + 1 | none => 0)] []
  | .closeEnd a w n top cause => msgBytes 6 a [(if w then 1 else 0), n.getD 0, (if n.isSome then 1 else 0), cause, top] []
  | .gone a w d => msgBytes 7 a [(if w then 1 else 0), d] []
  | .moving a tc rd on => msgBytes 8 a [tc, (if rd then 1 else 0), (if on then 1 else 0)] []
  | _ => []

/-- The stream message a payload holds, from device `src` in packet `seq`. -/
def msgOf (src seq : Nat) (bs : List Byte) : Option Msg :=
  let b (i : Nat) : Nat := (bs.getD i 0).toNat
  let a : Anchor := ⟨b 1, b 2, b 3 + 256 * b 4⟩
  let n (i : Nat) : Nat := leNat ((bs.drop (5 + 8 * i)).take 8)
  match b 0 with
  | 0 => some (.item a (n 0) { words := (List.range 8).map (fun i => w64 (n (5 + i))), mask := BitVec.ofNat 8 (n 4),
                               poison := n 4 / 256 % 2 = 1 } (n 1) (n 2) seq src)
  | 1 => some (.stop a (n 0))
  | 2 => some (.go a (n 0) (n 1))
  | 3 => some (.rebind a (n 0) (n 1) (n 2) (n 3 % 2 = 1) (n 3 / 2 = 1) (n 4))
  | 4 => some (.rebound a (n 0))
  | 5 => some (.orphan a (n 0) (n 1 = 1) (n 2) (if n 3 = 0 then none else some (n 3 - 1)))
  | 6 => some (.closeEnd a (n 0 = 1) (if n 2 = 1 then some (n 1) else none) (n 4) (n 3))
  | 7 => some (.gone a (n 0 = 1) (n 1))
  | 8 => some (.moving a (n 0) (n 1 = 1) (n 2 = 1))
  | _ => none

/-- A stream message sent to a device: posted inside this one, a class-2 packet to another. -/
def sendMsg (s : State) (dev core : Nat) (m : Msg) (why : ReqFor) : State :=
  if dev = s.dev % 256 then s.post m
  else
    let op := match m with | .item .. => 7 | _ => 8
    let bs := msgPayload m
    sendPkt s core { port := 32, dst := dev, src := 0, cls := 2, op, seq := 0, wid := 0, key := 0, off := 0,
                     len := bs.length - 1, core, det := false, payload := bs } why

/-! ### Stock bytes and slots (R260, R262) -/

/-- Whether a stock is of own frames, and its base (R259, R260). -/
def ancOwn (s : State) (a : Anchor) : Bool := (s.anc a 4).getLsbD 5
def ancBase (s : State) (a : Anchor) : Nat := (fld (s.anc a 4) 12 40).toNat * 4096

/-- The place of a stock byte among own frames, by the frame list (R260). -/
def ownPa (s : State) (a : Anchor) (off : Nat) : Nat :=
  (s.rd64 (listFrame s (ancBase s a) (off / 4096 / 511) + 8 * (off / 4096 % 511))).toNat + off % 4096

/-- The physical place of a stock byte for reading: by the frame list, or through the context's page tables as an engine
reaches it (R260). -/
def stockPa (s : State) (a : Anchor) (off : Nat) : Except Nat Nat :=
  if ancOwn s a then .ok (ownPa s a off)
  else
    match walkEnt s (ancCtx s a) (ancBase s a + off) with
    | .ok e => (match permit e.leaf .u false false with | some c => .error c | none => .ok (paOf e (ancBase s a + off)))
    | .error c => .error c

/-- The same for writing, with copy-on-write done. -/
def stockPlace (s : State) (a : Anchor) (off : Nat) : Except Nat (State × Nat) :=
  if ancOwn s a then .ok (s, ownPa s a off) else devPlace s (ancCtx s a) (ancBase s a + off) .u

/-- Places of slot `j`'s words and of its side half. -/
def slotPa (s : State) (a : Anchor) (j : Nat) : Except Nat Nat := stockPa s a (64 * j)
def sidePa (s : State) (a : Anchor) (j : Nat) : Except Nat Nat := stockPa s a (64 * 2 ^ ancK s a + 2 * j)

/-- Whether a side half has been cleared (R260). -/
def halfReady (s : State) (a : Anchor) (j : Nat) : Bool :=
  s.clears.all (fun p => p.1 != a || j < p.2)

/-- A slot's side half, EMPTY until it has been cleared. -/
def sideOf (s : State) (a : Anchor) (j : Nat) : Nat :=
  if halfReady s a j then
    match sidePa s a j with
    | .ok pa => leNat (s.bytes pa 2)
    | .error _ => 0
  else 0
def slotFull (s : State) (a : Anchor) (j : Nat) : Bool := sideOf s a j / 256 % 2 = 1
/-- The slot of item `n`. -/
def slotOfItem (s : State) (a : Anchor) (n : Nat) : Nat := n % 2 ^ ancK s a

/-- The item in a FULL slot. -/
def slotItem (s : State) (a : Anchor) (j : Nat) : Item :=
  match slotPa s a j with
  | .ok pa => { words := (List.range 8).map (fun i => s.rd64 (pa + 8 * i)), mask := BitVec.ofNat 8 (sideOf s a j),
                poison := s.bad pa 64 }
  | .error _ => { words := List.replicate 8 0, mask := 0, poison := false }

/-- An item written to a slot, which becomes FULL. -/
def slotWrite (s : State) (a : Anchor) (j : Nat) (it : Item) : Except Nat State := do
  let (s, pa) ← stockPlace s a (64 * j)
  let (s, pb) ← stockPlace s a (64 * 2 ^ ancK s a + 2 * j)
  .ok { s with
    mem := msets memDefault (msets memDefault s.mem pa ((it.words.map (fun (w : W64) => leBytes 8 w.toNat)).flatten)) pb
      (leBytes 2 (it.mask.toNat + 256)),
    poison := poisonAfter s.poison pa 64 it.poison }

/-- Whether a stream unit meets a translation fault at a slot (R260). -/
def stockFault (s : State) (a : Anchor) (j : Nat) : Bool :=
  match slotPa s a j, stockPlace s a (64 * 2 ^ ancK s a + 2 * j) with
  | .ok _, .ok _ => false
  | _, _ => true

/-- The anchor's orphan notice to an end that is live (R279). -/
def tellEnd (s : State) (a : Anchor) (read : Bool) (cause : Nat) (final : Option Nat) : State :=
  if read then
    if ancRst s a = 0 then
      sendMsg s (s.ancField a 3 0 8) a.core (.orphan a (s.ancField a 3 8 7) true cause final) (.other 0)
    else s
  else if ancWst s a = 0 then
    sendMsg s (s.ancField a 2 0 8) a.core (.orphan a (s.ancField a 2 8 7) false cause none) (.other 0)
  else s

/-- A stream unit has met a translation fault: both ends are orphaned with cause 2, and stay (R260, R279). -/
def orphanBoth (a : Anchor) (s : State) : State :=
  if !ancUsed s a || s.ancField a 5 14 2 ≠ 0 then s
  else tellEnd (tellEnd (s.setAncField a 5 14 2 2) a true 2 none) a false 2 none

/-- A slot emptied. -/
def slotClear (s : State) (a : Anchor) (j : Nat) : State :=
  match stockPlace s a (64 * 2 ^ ancK s a + 2 * j) with
  | .ok (s, pb) => { s with mem := msets memDefault s.mem pb (leBytes 2 0) }
  | .error _ => orphanBoth a s

/-- The FULL slots of a stock. -/
def stockCount (s : State) (a : Anchor) : Nat := ((List.range (2 ^ ancK s a)).filter (slotFull s a)).length

/-! ### Ends at their cores -/

def Core.wend (k : Core) (a : Anchor) : Option WEnd := k.wends.find? (fun e => e.anc == a)
def Core.rend (k : Core) (a : Anchor) : Option REnd := k.rends.find? (fun e => e.anc == a)
def Core.setWend (k : Core) (e : WEnd) : Core := { k with wends := k.wends.map (fun x => if x.anc == e.anc then e else x) }
def Core.setRend (k : Core) (e : REnd) : Core := { k with rends := k.rends.map (fun x => if x.anc == e.anc then e else x) }

/-- Whether a hardware queue of a core is free and not withdrawn (R262, R331). -/
def queueFree (k : Core) (q : Nat) : Bool := !k.withdrawn.contains (45 + q) && k.rends.all (fun e => e.hq != some q)
/-- The lowest free hardware queue of a core. -/
def freeQueue (k : Core) : Option Nat := firstFrom (queueFree k) 0 32

/-- The queue each adopted end of a list takes: the read ends in turn, while there are free ones (R277). -/
def withQueues : List Nat → List W64 → List (W64 × Option Nat)
  | _, [] => []
  | qs, h :: hs => if hKind h = 3 then (h, qs.head?) :: withQueues qs.tail hs else (h, none) :: withQueues qs hs
def queuesFor (k : Core) (hs : List W64) : List (W64 × Option Nat) :=
  withQueues ((List.range 32).filter (queueFree k)) hs

/-- The limit of a stream (R265). -/
def limitOf (k : Nat) (hot : Bool) : Nat := if hot then 2 ^ k + 32 else 2 ^ k

/-- Whether the write end may assign `n` more numbers (R265). -/
def WEnd.room (e : WEnd) (n : Nat) : Bool := !e.held && e.push + n ≤ e.credit + e.lim

/-- A core's SQ operation reported complete: here, or by the acknowledgement of its packet. -/
def pushDone (s : State) (src sq srcDev : Nat) : State :=
  if srcDev = s.dev % 256 then (if sq ≠ 0 then complete src .sq sq s else s)
  else pushPkt s { port := 32, dst := srcDev, src := 0, cls := 1, op := 5, seq := 0, wid := 0, key := 0, off := answerKey 2 sq, len := 0,
                   core := src, det := false, payload := [] } (.other 32)

/-- The core and record of a stream's read end, where it is live on the anchor's device. -/
def readerHere (s : State) (a : Anchor) : Option (Nat × REnd) :=
  if ancRst s a = 0 && s.ancField a 3 0 8 = s.dev % 256 then
    ((s.core (s.ancField a 3 8 7)).rend a).map (fun e => (s.ancField a 3 8 7, e))
  else none

/-- A message of the read side to the write end: to its core, or to the anchor, which passes it on (R265). -/
def toWriter (s : State) (a : Anchor) (c : Nat) (m : Nat → Msg) : State :=
  if ancHere s a then
    if ancWst s a = 0 then sendMsg s (s.ancField a 2 0 8) c (m (s.ancField a 2 8 7)) (.other 0) else s
  else sendMsg s a.dev c (m a.core) (.other 0)

/-! ### Handles in items (R99, R101) -/

/-- The words that hold handles. -/
def itemHandles (it : Item) : List W64 := (it.words.zipIdx.filter (fun p => it.mask.getLsbD p.2)).map (·.1)

/-- A handle of a discarded item: a tile is dropped, an end is closed with cause 1 (R274). -/
def discardHandle (c : Nat) (s : State) (h : W64) : State :=
  if isTile h then giveUp c .ctl h false s
  else if isEnd h then sendMsg s (hDev h) c (.closeEnd (anchorOf h) (hKind h = 2) none 0 1) (.other 0)
  else s
def discardItem (c : Nat) (it : Item) (s : State) : State := (itemHandles it).foldl (discardHandle c) s

/-- A proxy in an item that is placed on its tile's home device becomes a local reference (R101). The weight of one whose
core holds a pin record returns once that is zero (R98). -/
def landIn (src : Option Nat) (s : State) (h : W64) : State × W64 :=
  match src with
  | none => landHandle s h
  | some c =>
    if isTile h && !counted h && homeHere s h && (s.core c).pins.any (fun p => p.1 == hTile h) then
      match applyDelta (hCore h) (hFolio h) (hGen h) 1 s with
      | .ok s => (postWeight c .ctl h s, hSetWeight h 0)
      | .error _ => (s, h)
    else landHandle s h
/-- An item's handles changed one by one. -/
def mapHandles (f : State → W64 → State × W64) (s : State) (it : Item) : State × Item :=
  let r := it.words.zipIdx.foldl (fun (acc : State × List W64) p =>
    if it.mask.getLsbD p.2 then let q := f acc.1 p.1; (q.1, acc.2 ++ [q.2]) else (acc.1, acc.2 ++ [p.1])) (s, [])
  (r.1, { it with words := r.2 })
def landItem (src : Option Nat) (s : State) (it : Item) : State × Item := mapHandles (landIn src) s it

/-- A local reference that leaves for another device becomes an export and a proxy of weight 2^16 (R99). -/
def exportHandle (s : State) (h : W64) : State × W64 :=
  if isTile h && counted h && homeHere s h then
    let x := s.folio (hCore h) (hFolio h)
    (s.setFolio (hCore h) (hFolio h) { x with expc := x.expc + 1, expw := x.expw + 2 ^ 16 }, hSetWeight h 17)
  else (s, h)
/-- An item leaves for a device: its local references are exported, and the anchors of the ends in it learn where they
go (R99, R279). -/
def exportItem (dev : Nat) (s : State) (it : Item) : State × Item :=
  mapHandles (fun s h =>
    if isEnd h then (sendMsg s (hDev h) 0 (.gone (anchorOf h) (hKind h = 2) dev) (.other 0), h) else exportHandle s h) s it

/-- An item sent on its way for a pusher: exported where it leaves the device. -/
def sendItemFor (s : State) (a : Anchor) (n : Nat) (it : Item) (dev core src sq srcDev : Nat) : State :=
  if dev = s.dev % 256 then s.post (.item a n it core src sq srcDev)
  else
    let (s, it) := exportItem dev s it
    sendMsg s dev src (.item a n it core src sq s.dev) (if srcDev = s.dev % 256 then .item src sq else .relay srcDev sq)

/-- An item of a core of this device sent on its way. -/
def sendItem (s : State) (a : Anchor) (n : Nat) (it : Item) (dev core src sq : Nat) : State :=
  sendItemFor s a n it dev core src sq (s.dev % 256)

/-! ### Close, release, orphan (R259, R274, R279) -/

/-- Items of a stream on their way inside this device. -/
def inFlight (s : State) (a : Anchor) : Bool :=
  s.msgs.any (fun m => match m with | .item b .. => b == a | _ => false)

/-- An OWN stock's frames given back: `n` frames of the list from entry `i`, then the list frames (R259, R292). -/
def giveFrame (s : State) (ctx f : Nat) : State :=
  match pushFrame s ctx f with
  | some s => s
  | none => event s ctx 0x2C 0 0 (w64 f) 0
def giveStock (s : State) (a : Anchor) : State :=
  let base := (fld (s.anc a 4) 12 40).toNat * 4096
  let f := stockFrames (ancK s a)
  let fs := (List.range f).map (fun i => (s.rd64 (listFrame s base (i / 511) + 8 * (i % 511))).toNat)
  let ls := (List.range ((f + 510) / 511)).map (fun i => listFrame s base i)
  (fs ++ ls).foldl (fun s f => giveFrame s (ancCtx s a) f) s

/-- The anchor released once both ends are closed and nothing is on its way (R259). -/
def releaseAnchor (a : Anchor) (s : State) : State :=
  if ancUsed s a && ancWst s a = 2 && ancRst s a = 2 && !inFlight s a then
    let s := if (s.anc a 4).getLsbD 5 then giveStock s a else s
    let gen := (ancGen s a + 1) % 4096
    let s := (List.range 8).foldl (fun s i => s.setAnc a i 0) s
    { s.setAnc a 5 (w64 gen) with
      stocks := s.stocks.filter (fun r => r.anc != a), clears := s.clears.filter (fun p => p.1 != a) }
  else s

/-- Every FULL slot's item discarded, in number order from number `n` (R274). -/
def discardStock (a : Anchor) (n : Nat) (s : State) : State :=
  (List.range (2 ^ ancK s a)).foldl (fun s i =>
    let j := slotOfItem s a (n + i)
    if slotFull s a j then discardItem a.core (slotItem s a j) (slotClear s a j) else s) s

/-- The anchor records the close of an end with its final counter and the first cause, and notifies the other
(R274, R279). Without a counter the recorded one stands: it is exact where the end was in transit. `top` is the first
number that a read end's queue did not hold. -/
def anchorClose (s : State) (a : Anchor) (write : Bool) (counter : Option Nat) (top cause : Nat) : State :=
  if !ancUsed s a then s
  else
    let s := if s.ancField a 5 14 2 = 0 then s.setAncField a 5 14 2 cause else s
    if write then
      let exact := counter.isSome || ancWst s a = 1
      let s := match counter with | some n => s.setAnc a 0 (w64 n) | none => s
      let s := s.setAncField a 2 16 2 2
      releaseAnchor a (tellEnd s a true cause (if exact then some (s.anc a 0).toNat else none))
    else
      let s := match counter with | some n => s.setAnc a 1 (w64 n) | none => s
      let s := tellEnd (s.setAncField a 3 21 2 2) a false cause none
      releaseAnchor a (discardStock a (if counter.isSome then top else (s.anc a 1).toNat) s)

/-- An end taken from its core to be closed: what its queue held is discarded; its counter, and the first number that the
queue did not hold (R274). -/
def takeEnd (c : Nat) (h : W64) (s : State) : Option Nat × Nat × State :=
  let a := anchorOf h
  let k := s.core c
  if hKind h = 2 then
    ((k.wend a).map (·.push), 0, s.modCore c (fun k => { k with wends := k.wends.filter (fun e => e.anc != a) }))
  else
    match k.rend a with
    | none => (none, 0, s)
    | some e =>
      (some e.pop, e.pop + e.q.length, e.q.foldl (fun s it => discardItem c it s)
        (s.modCore c (fun k => { k with rends := k.rends.filter (fun e => e.anc != a) })))

/-- An end held by a core is closed with a cause (R274). -/
def closeEndAt (c : Nat) (h : W64) (cause : Nat) (s : State) : State :=
  let a := anchorOf h
  let (cnt, top, s) := takeEnd c h s
  if ancHere s a then anchorClose s a (hKind h = 2) cnt top cause
  else sendMsg s a.dev c (.closeEnd a (hKind h = 2) cnt top cause) (.other 0)

/-! ### Requests about anchors on other devices (log 12): 48 fetch, 49 spill, 50 detach, 51 adopt, 52 check, 53 close -/

/-- A request about an end to its anchor's device. -/
def anchorPkt (fn : Nat) (h : W64) (args : List Byte) : Packet :=
  { port := 32, dst := hDev h, src := 0, cls := 0, op := 2, seq := 0, wid := 0, key := 0, off := 0, len := 8 + args.length,
    core := 0, det := false, payload := BitVec.ofNat 8 fn :: leBytes 8 h.toNat ++ args }

/-- Whether a core holds the end of a handle. -/
def holdsEnd (k : Core) (h : W64) : Bool :=
  isEnd h && (if hKind h = 2 then (k.wend (anchorOf h)).isSome else (k.rend (anchorOf h)).isSome)

/-- The checks of an end (R257, R268): `want` is the kind it must have, 2 write, 3 read, 0 either. An anchor on another
device is checked there, as request `k` of the instruction; the requests the instruction has then made. -/
def endCheck (s : State) (h : W64) (want : Nat) (k : Nat := 0) : Try Nat := do
  if isNull h then trap s 0x30
  if !isEnd h || hBad h || (want ≠ 0 && hKind h ≠ want) then trap s 0x34
  let a := anchorOf h
  if ancHere s a then
    if ancBad s a then trapBad s 0 0
    if !ancUsed s a || ancGen s a ≠ hGen h || !holdsEnd s.me h then trap s 0x31
    pure k
  else if s.net.lost.contains a.dev then
    trapIf s (!holdsEnd s.me h) 0x31
    pure k
  else
    let _ ← askNext s 0 k 1 (fun s =>
      sendPkt s s.cur.core (anchorPkt 52 h []) (.answer s.cur.core s.cur.st k))
    trapIf s (!holdsEnd s.me h) 0x31
    pure (k + 1)

/-- SCLOSE of a handle by CTL: it finishes once the anchor has recorded the close (R274). -/
def sclose (h : W64) (s : State) : Try State := do
  let a := anchorOf h
  if ancHere s a || s.net.lost.contains a.dev then
    let _ ← endCheck s h 0
    pure (closeEndAt s.cur.core h 1 s)
  else
    let k ← if s.my.asked ≤ 1 then endCheck s h 0 else pure 1
    let _ ← askNext s 0 k 1 (fun s =>
      let (cnt, top, s) := takeEnd s.cur.core h s
      sendPkt s s.cur.core (anchorPkt 53 h (leBytes 8 (cnt.getD 0) ++ leBytes 8 top)) (.answer s.cur.core s.cur.st k))
    pure s

/-- DROP, HNULL and DONE of a handle at a core (R77, R107, R112): a tile dropped, an end closed. -/
def letGo (c : Nat) (st : Strand) (cause : Nat) (sup : Bool) (h : W64) (s : State) : State :=
  if isTile h then giveUp c st h sup s
  else if isEnd h then closeEndAt c h cause s
  else s

/-! ### Placement (R262) -/

/-- The STOP message of a read side whose placed items, `n` of them in stock, reach the limit (R265). A write end in
transit has none to take it, and stops at its credit when it lands. -/
def stopAt (s : State) (c : Nat) (e : REnd) (n : Nat) : State :=
  if !e.stop && limitOf e.k e.hq.isSome ≤ e.q.length + n then
    toWriter (s.modCore c (fun k => k.setRend { e with stop := true })) e.anc c (.stop e.anc)
  else s

/-- The check for STOP once an item has been placed at this device's anchor (R265). -/
def stopCheck (s : State) (a : Anchor) : State :=
  match readerHere s a with
  | some (c, e) => if e.stop then s else stopAt s c e (stockCount s a)
  | none =>
    if ancRst s a = 1 && stockCount s a = 2 ^ ancK s a then toWriter s a a.core (.stop a) else s

/-- Whether an item of a lower number bound for the same slot is still on its way inside this device: it goes first
(R262). -/
def slotAhead (s : State) (a : Anchor) (n : Nat) : Bool :=
  s.msgs.any (fun m => match m with
    | .item b n' .. => b == a && n' < n && n' % 2 ^ ancK s a = n % 2 ^ ancK s a
    | _ => false)

/-- The place of an item in its own device, for handles that land. -/
def itemFrom (s : State) (src srcDev : Nat) : Option Nat := if srcDev = s.dev % 256 then some src else none

/-- An item at its anchor's device for its stock slot: written once the slot is EMPTY and cleared; discarded where the read
end is closed, or where the unit meets a translation fault (R260, R262, R274). None where it must wait. -/
def placeStock (s : State) (a : Anchor) (n : Nat) (it : Item) (c src sq srcDev : Nat) : Option State :=
  let lost (s : State) : State := pushDone (discardItem c it s) src sq srcDev
  let j := slotOfItem s a n
  if !ancUsed s a then some (lost s)
  else if ancRst s a = 2 then some (releaseAnchor a (lost s))
  else if stockFault s a j then some (orphanBoth a (lost s))
  else if slotAhead s a n || !halfReady s a j || slotFull s a j then none
  else
    let (s', it') := landItem (itemFrom s src srcDev) s it
    match slotWrite s' a j it' with
    | .error _ => some (orphanBoth a (lost s))
    | .ok s' => some (stopCheck (pushDone s' src sq srcDev) a)

/-- An item arrives at core `c` of this device (R262, R276): placed in the queue or in stock, or forwarded to the anchor.
None where it must wait, one that has been asked for from stock among them. -/
def arriveItem (s : State) (a : Anchor) (n : Nat) (it : Item) (c src sq srcDev : Nat) : Option State :=
  let stock : Option State :=
    if ancHere s a then placeStock s a n it c src sq srcDev
    else some (sendItemFor s a n it a.dev a.core src sq srcDev)
  match (s.core c).rend a with
  | some e =>
    if e.hq.isSome && n = e.qtop && e.q.length < 32 then
      if e.fetching then none
      else
        let (s, it) := landItem (itemFrom s src srcDev) s it
        let s := pushDone (s.modCore c (fun k => k.setRend { e with q := e.q ++ [it], qtop := n + 1 })) src sq srcDev
        some (if ancHere s a then stopCheck s a else s)
    else stock
  | none => stock

/-- A queued item written back to its slot (R276). One 2^k later that holds the slot gives way and waits for it; a half not
yet cleared is waited for. -/
def spillItem (a : Anchor) (n : Nat) (it : Item) (s : State) : State :=
  let j := slotOfItem s a n
  let back (s : State) (n : Nat) (it : Item) : State := s.post (.item a n it a.core a.core 0 (s.dev % 256))
  if stockFault s a j then orphanBoth a (discardItem a.core it s)
  else if !halfReady s a j then back s n it
  else
    let was := slotItem s a j
    match slotWrite s a j it with
    | .error _ => orphanBoth a (discardItem a.core it s)
    | .ok s' => if slotFull s a j then back s' (n + 2 ^ ancK s a) was else s'

/-! ### Detach and adopt (R276, R277) -/

/-- The writer bound to another location, where it is live (R276, R277). -/
def rebindWriter (s : State) (a : Anchor) (dev core : Nat) (hot moving : Bool) (old : Nat) : State :=
  if ancWst s a = 0 then
    sendMsg s (s.ancField a 2 0 8) a.core (.rebind a (s.ancField a 2 8 7) dev core hot moving old) (.other 0)
  else s

/-- The anchor's POP raised to a number that a GO carried or a write end's credit had (R277). -/
def popAtLeast (a : Anchor) (n : Nat) (s : State) : State := s.setAnc a 1 (w64 (max (s.anc a 1).toNat n))

/-- The anchor's part of a detach (R276); a write end leaves its credit, the last number that GO sent it, with it. -/
def anchorDetach (s : State) (a : Anchor) (write : Bool) (counter credit : Nat) : State :=
  if write then
    let s := popAtLeast a credit ((s.setAnc a 0 (w64 counter)).setAncField a 2 16 2 1)
    if ancRst s a = 0 then sendMsg s (s.ancField a 3 0 8) a.core (.moving a (s.ancField a 3 8 7) true true) (.other 0) else s
  else
    let old := s.ancField a 3 8 7
    let s := ((popAtLeast a counter s).setAncField a 3 21 2 1).setAncField a 3 20 1 1
    rebindWriter s a a.dev a.core false true old

/-- An end taken from its core to travel: its counter, a write end's credit, and a read end's queue with the numbers. -/
def leaveCore (c : Nat) (h : W64) (s : State) : Option (Nat × Nat × List (Item × Nat) × State) :=
  let a := anchorOf h
  let k := s.core c
  if hKind h = 2 then
    (k.wend a).map (fun e => (e.push, e.credit, [],
      s.modCore c (fun k => { k with wends := k.wends.filter (fun x => x.anc != a) })))
  else
    (k.rend a).map (fun e => (e.pop, 0, e.q.zipIdx.map (fun p => (p.1, e.pop + p.2)),
      s.modCore c (fun k => { k with rends := k.rends.filter (fun x => x.anc != a) })))

/-- An end leaves a core of its anchor's device (R276): its counter is recorded, a read end's queue is spilled to its
slots. -/
def detachHere (c : Nat) (h : W64) (s : State) : State :=
  match leaveCore c h s with
  | none => s
  | some (n, credit, q, s) =>
    anchorDetach (q.foldl (fun s p => spillItem (anchorOf h) p.2 p.1 s) s) (anchorOf h) (hKind h = 2) n credit

/-- An item's bytes in a request or answer. -/
def itemBytes (it : Item) : List Byte :=
  BitVec.ofNat 8 it.mask.toNat :: (if it.poison then 1 else 0) :: (it.words.map (fun (w : W64) => leBytes 8 w.toNat)).flatten
def itemOf (bs : List Byte) : Item :=
  { words := (List.range 8).map (fun i => w64 (leNat ((bs.drop (2 + 8 * i)).take 8))), mask := bs.getD 0 0,
    poison := bs.getD 1 0 ≠ 0 }

/-- The same with the anchor on another device: its queue goes there item by item ahead of the request (log 12). -/
def detachAway (c : Nat) (h : W64) (why : ReqFor) (s : State) : State :=
  match leaveCore c h s with
  | none => s
  | some (n, credit, q, s) =>
    let s := q.foldl (fun s p =>
      let (s, it) := exportItem (hDev h) s p.1
      sendPkt s c (anchorPkt 49 h (leBytes 8 p.2 ++ itemBytes it)) (.other 0)) s
    sendPkt s c (anchorPkt 50 h (leBytes 8 n ++ leBytes 8 credit)) why

/-- An end leaves a core; the answer of an anchor on another device is for `why`. -/
def detachEnd (c : Nat) (why : ReqFor) (h : W64) (s : State) : State :=
  if ancHere s (anchorOf h) then detachHere c h s else detachAway c h why s

/-- What an adopting core learns from the anchor: counter, exponent, POP, where the read end is and whether it is hot,
whether the other end moves, cause, final push number, and whether every slot of the stock is FULL. -/
structure Landing where
  counter : Nat
  k : Nat
  pop : Nat
  rdev : Nat
  rcore : Nat
  rhot : Bool
  moving : Bool
  cause : Nat
  final : Option Nat
  full : Bool
deriving DecidableEq, Repr

/-- What adoption at another device's anchor answers, as bytes and back. -/
def landBytes (l : Landing) : List Byte :=
  ([l.counter, l.k, l.pop, l.rdev, l.rcore, (if l.rhot then 1 else 0) + (if l.full then 2 else 0), (if l.moving then 1 else 0),
    l.cause, (match l.final with | some n => n + 1 | none => 0)].map (leBytes 8)).flatten
def landOf (bs : List Byte) : Landing :=
  let n (i : Nat) : Nat := leNat ((bs.drop (8 * i)).take 8)
  { counter := n 0, k := n 1, pop := n 2, rdev := n 3, rcore := n 4, rhot := n 5 % 2 = 1, full := n 5 / 2 = 1,
    moving := n 6 = 1, cause := n 7, final := if n 8 = 0 then none else some (n 8 - 1) }

/-- The anchor's part of an adoption by a core of a device, with the queue a read end takes there (R277). -/
def anchorAdopt (s : State) (a : Anchor) (write : Bool) (dev core : Nat) (hq : Option Nat) : Landing × State :=
  let land : Landing :=
    { counter := (s.anc a (if write then 0 else 1)).toNat, k := ancK s a, pop := (s.anc a 1).toNat,
      rdev := if ancRst s a = 0 then s.ancField a 3 0 8 else a.dev,
      rcore := if ancRst s a = 0 then s.ancField a 3 8 7 else a.core,
      rhot := ancRst s a = 0 && !ancCold s a,
      moving := if write then ancRst s a = 1 else ancWst s a = 1,
      cause := s.ancField a 5 14 2,
      final := if ancWst s a = 2 && s.ancField a 5 14 2 ≠ 3 then some (s.anc a 0).toNat else none,
      full := !write && stockCount s a = 2 ^ ancK s a }
  if write then
    let s := ((s.setAncField a 2 0 8 dev).setAncField a 2 8 7 core).setAncField a 2 16 2 0
    (land, if ancRst s a = 0 then
        sendMsg s (s.ancField a 3 0 8) a.core (.moving a (s.ancField a 3 8 7) true false) (.other 0) else s)
  else
    let s := ((((s.setAncField a 3 0 8 dev).setAncField a 3 8 7 core).setAncField a 3 15 5 (hq.getD 0)).setAncField a 3 20 1
      (if hq.isSome then 0 else 1)).setAncField a 3 21 2 0
    (land, rebindWriter s a dev core hq.isSome false a.core)

/-- An adopted end at its new core (R277). -/
def landEnd (c : Nat) (a : Anchor) (write : Bool) (hq : Option Nat) (l : Landing) (s : State) : State :=
  s.modCore c (fun k =>
    if write then
      { k with wends := k.wends ++ [{ anc := a, push := l.counter, credit := l.pop, lim := limitOf l.k l.rhot,
                                      toDev := l.rdev, toCore := l.rcore, held := false, k := l.k, moving := l.moving,
                                      orphan := l.cause }] }
    else
      { k with rends := k.rends ++ [{ anc := a, pop := l.counter, qtop := l.counter, hq, q := [], orphan := l.cause,
                                      final := l.final, stop := l.full, sinceGo := 0, k := l.k, moving := l.moving,
                                      fetching := false }] })

/-- Adoption of an end of this device's anchor by a core of this device. -/
def adoptHere (c : Nat) (h : W64) (hq : Option Nat) (s : State) : State :=
  let a := anchorOf h
  let (l, s) := anchorAdopt s a (hKind h = 2) (s.dev % 256) c hq
  landEnd c a (hKind h = 2) hq l s

/-- Whether the adoption of an end asks its anchor's device (R277): not of one that is lost. -/
def asksAway (s : State) (h : W64) : Bool := isEnd h && !ancHere s (anchorOf h) && !s.net.lost.contains (hDev h)

/-- Requests for the adoption of the ends of a list whose anchors lie on other devices, after `k` answers (R277). -/
def askAdopt (s : State) (hs : List (W64 × Option Nat)) (k : Nat) : Try (List (List Byte)) :=
  let away := hs.filter (fun p => asksAway s p.1)
  askNext s 0 k away.length (fun s => away.zipIdx.foldl (fun s p =>
    sendPkt s s.cur.core { anchorPkt 51 p.1.1 (leBytes 8 (match p.1.2 with | some q => q + 1 | none => 0)) with core := s.cur.core }
      (.answer s.cur.core s.cur.st (k + p.2))) s)

/-- Each end of a list adopted by a core, where an anchor here still awaits it; answers of anchors on other devices are
given in order (R277, R282). An end whose anchor's device is lost is orphaned with cause 3 (R279). -/
def adoptList (c : Nat) (hs : List (W64 × Option Nat)) (answers : List (List Byte)) (s : State) : State :=
  (hs.foldl (fun (acc : State × List (List Byte)) p =>
    let h := p.1
    let a := anchorOf h
    if !isEnd h then acc
    else if ancHere acc.1 a then
      (if ancUsed acc.1 a && ancGen acc.1 a = hGen h && (if hKind h = 2 then ancWst acc.1 a else ancRst acc.1 a) = 1 then
        adoptHere c h p.2 acc.1 else acc.1, acc.2)
    else
      let hq := p.2.filter (queueFree (acc.1.core c))
      if asksAway acc.1 h then (landEnd c a (hKind h = 2) hq (landOf (acc.2.headD [])) acc.1, acc.2.tail)
      else (landEnd c a (hKind h = 2) hq { landOf [] with cause := 3 } acc.1, acc.2)) (s, answers)).1

end Sys2Proof.Machine
end

