-- ==== Sys2Proof/Machine/Stream.lean ====
section
/-! DEFINITION. The stream instructions of CTL (R257, R267 to R275) and the stream units' steps (R262 to R265, R276,
R277, R279). SPOPV and SPUSHV move the slots of one V register. -/

namespace Sys2Proof.Machine

/-! ### SOPEN (R269) -/

/-- Own frames for a stock (R260): popped one by one, the frame list written. -/
def popFrames (s : State) (ctx : Nat) : Nat → Except Nat (List Nat × State)
  | 0 => .ok ([], s)
  | n + 1 =>
    match popFrame s ctx with
    | .error c => .error c
    | .ok (f, s) =>
      match popFrames s ctx n with
      | .error c => .error c
      | .ok (fs, s) => .ok (f :: fs, s)

/-- The frame list: entry `i` of list frame ⌊i/511⌋, and the links (R260). -/
def writeList (s : State) (ls fs : List Nat) : State :=
  let s := fs.zipIdx.foldl (fun s p => s.wr64 (ls.getD (p.2 / 511) 0 + 8 * (p.2 % 511)) (w64 p.1)) s
  ls.zipIdx.foldl (fun s p => s.wr64 (p.1 + 8 * 511) (w64 (ls.getD (p.2 + 1) 0))) s

/-- The lowest free anchor of a core. -/
def freeAnchor (s : State) (c : Nat) : Option Anchor :=
  (firstFrom (fun i => !ancUsed s ⟨s.dev % 256, c, i⟩) 0 1024).map (fun i => ⟨s.dev % 256, c, i⟩)

/-- An anchor record of a new stream whose ends stand at two cores of this device (R259, R269, R281). -/
def writeAnchor (s : State) (a : Anchor) (ctx k base : Nat) (own : Bool) (wdev wcore rcore : Nat) (hq : Option Nat) :
    State :=
  let gen := ancGen s a
  let s := s.setAnc a 0 0
  let s := s.setAnc a 1 0
  let s := s.setAnc a 2 (w64 (wdev + wcore * 256))
  let s := s.setAnc a 3 (w64 (s.dev % 256 + rcore * 256 + (hq.getD 0) * 2 ^ 15 + (if hq.isNone then 2 ^ 20 else 0)))
  let s := s.setAnc a 4 (w64 (k + (if own then 32 else 0) + base / 4096 % 2 ^ 40 * 4096))
  let s := s.setAnc a 5 (w64 (gen + 2 ^ 12 + ctx * 2 ^ 16))
  { s with clears := s.clears ++ [(a, 0)] }

/-- The handle of an end of an anchor of this device. -/
def endHandle (s : State) (a : Anchor) (kind : Nat) : W64 := mkHandle kind a.dev a.core a.idx (ancGen s a) 0 7

/-- Both ends of a new stream at their cores. -/
def placeEnds (s : State) (a : Anchor) (k wcore rcore : Nat) (hq : Option Nat) : State :=
  let dev := s.dev % 256
  let s := s.modCore wcore (fun c => { c with wends := c.wends ++
    [{ anc := a, push := 0, credit := 0, lim := limitOf k hq.isSome, toDev := dev, toCore := rcore, held := false, k,
       moving := false, orphan := 0 }] })
  s.modCore rcore (fun c => { c with rends := c.rends ++
    [{ anc := a, pop := 0, qtop := 0, hq, q := [], orphan := 0, final := none, stop := false, sinceGo := 0, k,
       moving := false, fetching := false }] })

/-- A stock for a new stream: own frames, or a given base whose pages are checked by `place`. The dword-4 base. -/
def takeStock (s : State) (ctx k : Nat) : Except Nat (Nat × State) :=
  let f := stockFrames k
  let l := (f + 510) / 511
  match popFrames s ctx (f + l) with
  | .error c => .error c
  | .ok (fs, s) => .ok (fs.headD 0, writeList s (fs.take l) (fs.drop l))

/-- The pages of a given base, each translated for writing by the issuing strand (R269). -/
def basePages (s : State) (base : Nat) : Nat → Try State
  | 0 => .ok s
  | n + 1 => do
    let va := w64 (base + 4096 * n)
    if 0xE000000000000 ≤ va.toNat then trapAt s 0x20 va
    let (_, s) ← writePlace s va
    basePages s base n

def execSopen (d a b : BitVec 6) (s : State) : Res :=
  runCtl s (fun s => do
    trapIf s (!isNull (s.rH d) || !isNull (s.rH b)) 0x38
    let x := s.rS a
    let k := x.toNat % 32
    let base := x.toNat / 4096 % 2 ^ 40 * 4096
    let ctx := s.me.ctxOf
    trapIf s (k < 6 || 20 < k || fld x 5 7 != 0 || fld x 52 12 != 0 || base % (2 ^ k * 64) ≠ 0) 0x64
    match freeAnchor s s.cur.core with
    | none => trap s 0x61
    | some an =>
      let s0 := s
      let (own, s) ← (if base = 0 then
          match takeStock s ctx k with
          | .error c => trap s0 c
          | .ok (p, s) => pure (p, s)
        else do
          let s ← basePages s base (stockFrames k)
          pure (base, { s with stocks := s.stocks ++ [(⟨ctx, base, stockFrames k * 4096, an⟩ : StockRange)] }))
      let hq := freeQueue s.me
      let s := writeAnchor s an ctx k own (base = 0) (s.dev % 256) s.cur.core s.cur.core hq
      let s := placeEnds s an k s.cur.core s.cur.core hq
      pure ((s.wH d (endHandle s an 2)).wH b (endHandle s an 3)))

/-! ### Pushing (R270, R272, R280) -/

/-- The next push number of an end here and its number in SQ (R258, R262). -/
def numberPush (a : Anchor) (s : State) : Nat × Nat × State :=
  let n := ((s.me.wend a).map (·.push)).getD 0
  let (sq, s) := number .sq s
  (n, sq, s.modMe (fun k => match k.wend a with | some e => k.setWend { e with push := e.push + 1 } | none => k))

/-- A numbered item sent to the current binding, or discarded where the stream is orphaned (R262, R280). -/
def sendPushed (a : Anchor) (it : Item) (n sq : Nat) (s : State) : State :=
  let c := s.cur.core
  match s.me.wend a with
  | none => complete c .sq sq (discardItem c it s)
  | some e => if e.orphan ≠ 0 then complete c .sq sq (discardItem c it s) else sendItem s a n it e.toDev e.toCore c sq

/-- An item numbered in SQ and sent, or discarded where the stream is orphaned. -/
def pushItem (a : Anchor) (it : Item) (s : State) : State :=
  let (n, sq, s) := numberPush a s
  sendPushed a it n sq s

/-- The outcome of a form that may be non-blocking: its predicate, and what it does (R272). -/
def nbResult (nb : Block) (ok : Bool) (s : State) : State :=
  match nb with | .blocking => s | .nb p => s.wP p ok

/-- What a push meets: false where a non-blocking form fails. -/
def mayPush (s : State) (a : Anchor) (n : Nat) (nb : Block) : Try Bool :=
  match s.me.wend a with
  | none => .ok false
  | some e =>
    match nb with
    | .nb _ => .ok (e.orphan = 0 && e.room n)
    | .blocking => do
      waitFor s (e.orphan ≠ 0 || e.room n)
      pure true

def execSpush (a b : BitVec 6) (nb : Block) (s : State) : Res :=
  runCtl s (fun s => do
    let h := s.rH a
    let _ ← endCheck s h 2
    raiseMark .sq s
    if ← mayPush s (anchorOf h) 1 nb then
      release s .sys
      let ws := (List.range 8).map (fun i => s.rS (b + BitVec.ofNat 6 i))
      pure (nbResult nb true (pushItem (anchorOf h) { words := ws, mask := 0, poison := false } s))
    else pure (nbResult nb false s))

/-- The check of one handle to be pushed (R270), after `k` requests; a tile or an anchor of another device is checked at
its home. The requests then made. -/
def pushable (s : State) (h : W64) (k : Nat) (x : W64) : Try Nat := do
  if isNull x then trap s 0x30
  if hBad x then trap s 0x34
  if hRights x / 4 % 2 = 0 then trap s 0x35
  if isEnd x then
    if anchorOf x == anchorOf h then trap s 0x62
    endCheck s x 0 k
  else if homeHere s x then
    orTrap s (recordCheck s s.me.ctxOf x)
    pure k
  else
    if s.net.lost.contains (hDev x) then trap s 0x3B
    let _ ← askNext s 0 k 1 (fun s => sendPkt s s.cur.core (homePkt x 34 []) (.answer s.cur.core s.cur.st k))
    pure (k + 1)

/-- The pushed handles leave their registers, and the item that holds them goes (R270). No count changes and no pin is
taken: R98 lists tile pushes among the instructions that pin, R261 and R270 have no count change (DESIGN CHOICE,
log 85). -/
def pushHandles (a : Anchor) (regs : List (BitVec 6)) (xs : List W64) (n sq : Nat) (nb : Block) (s : State) : State :=
  let it : Item := { words := xs ++ List.replicate (8 - xs.length) 0, mask := BitVec.ofNat 8 (2 ^ xs.length - 1), poison := false }
  nbResult nb true (sendPushed a it n sq (regs.foldl (fun s r => s.wH r 0) s))

/-- SPUSHH (R270). At issue the item is numbered and each end detached; where anchors on other devices must acknowledge
that, the numbers stay with the instruction as an answer of its own (number 255) and it finishes with the last
acknowledgement. -/
def execSpushh (n a b : BitVec 6) (nb : Block) (s : State) : Res :=
  runCtl s (fun s => do
    let h := s.rH a
    let regs := (List.range n.toNat).map (fun i => b + BitVec.ofNat 6 i)
    let xs := regs.map s.rH
    match s.my.got.find? (fun g => g.n = 255) with
    | some g =>
      waitFor s (s.my.asked ≤ s.my.got.length)
      pure (pushHandles (anchorOf h) regs xs (leNat (g.bytes.take 8)) (leNat (g.bytes.drop 8)) nb s)
    | none =>
      let k ← endCheck s h 2
      let k ← xs.foldlM (pushable s h) k
      raiseMark .sq s
      if ← mayPush s (anchorOf h) 1 nb then
        release s .sys
        let (num, sq, s) := numberPush (anchorOf h) s
        let ends := xs.filter isEnd
        let away := (ends.filter (fun x => !ancHere s (anchorOf x))).length
        let s := ends.zipIdx.foldl (fun s p => detachEnd s.cur.core (.answer s.cur.core s.cur.st (k + p.2)) p.1 s) s
        if away = 0 then pure (pushHandles (anchorOf h) regs xs num sq nb s)
        else .error (.wait (s.modMy (fun x =>
          { x with asked := k + away + 1, got := x.got ++ [⟨255, leBytes 8 num ++ leBytes 8 sq, 0⟩] })))
      else pure (nbResult nb false s))

/-! ### Popping (R271, R272) -/

/-- The next `n` items of a read end, if all are placed and at hand. -/
def nextItems (s : State) (e : REnd) (n : Nat) : Option (List Item) :=
  if n ≤ e.q.length then some (e.q.take n)
  else if e.hq.isNone && ancHere s e.anc then
    if (List.range n).all (fun i => slotFull s e.anc (slotOfItem s e.anc (e.pop + i))) then
      some ((List.range n).map (fun i => slotItem s e.anc (slotOfItem s e.anc (e.pop + i))))
    else none
  else none

/-- Whether the next `n` items are placed, in the queue or in a stock of this device. -/
def placedNext (s : State) (e : REnd) (n : Nat) : Bool :=
  (List.range n).all (fun i =>
    i < e.q.length || (ancHere s e.anc && slotFull s e.anc (slotOfItem s e.anc (e.pop + i))))

/-- Whether fewer than `n` items remain of an orphaned stream (R271, R275, R280): by the final push number where it is
known, else when none is placed. Of a stock on another device that is known only by asking. -/
def drained (s : State) (e : REnd) (n : Nat) : Bool :=
  e.orphan ≠ 0 &&
    (match e.final with
     | some f => f < e.pop + n
     | none => (ancHere s e.anc || s.net.lost.contains e.anc.dev) && !placedNext s e n)

/-- The credit a pop returns: GO to the writer, through the anchor where that is elsewhere (R265). -/
def sendGo (c : Nat) (e : REnd) (s : State) : State :=
  if e.stop || 8 ≤ e.sinceGo then
    let s := s.modCore c (fun k => k.setRend { e with stop := false, sinceGo := 0 })
    if ancHere s e.anc && ancWst s e.anc = 1 then popAtLeast e.anc e.pop s
    else toWriter s e.anc c (fun tc => .go e.anc tc e.pop)
  else s

/-- One item taken: the queue's head, or a cold end's slot (R263, R264). -/
def takeItem (c : Nat) (a : Anchor) (s : State) : State :=
  match (s.core c).rend a with
  | none => s
  | some e =>
    let s := if e.q.isEmpty then slotClear s a (slotOfItem s a e.pop) else s
    let e' := { e with pop := e.pop + 1, q := e.q.tail, qtop := max e.qtop (e.pop + 1), sinceGo := e.sinceGo + 1 }
    sendGo c e' (s.modCore c (fun k => k.setRend e'))

/-- Item `e.qtop` of a stock on another device asked for (R263, R264; log 12). -/
def sendFetch (c : Nat) (e : REnd) (who : Option (Strand × Nat)) (s : State) : State :=
  sendPkt (s.modCore c (fun k => k.setRend { e with fetching := true })) c
    (anchorPkt 48 (mkHandle 3 e.anc.dev e.anc.core e.anc.idx 0 0 7) (leBytes 8 e.qtop)) (.fetch c e.anc e.qtop who)

/-- The requests of the issuing instruction from number `k` on forgotten: it asks again (R63). -/
def askAgain {α : Type} (k : Nat) (s : State) : Try α :=
  .error (.wait (s.modMy (fun x => { x with asked := k, got := x.got.filter (fun g => g.n < k) })))

/-- A pop of a cold end whose stock lies on another device (R264), after `k` requests: the slot is asked for, and found
FULL, or EMPTY. -/
def popAway (s : State) (e : REnd) (nb : Block) (k : Nat) : Try (Option (List Item)) := do
  waitFor s (s.my.asked > k || !e.fetching)
  let bs := (← askNext s 0 k 1 (sendFetch s.cur.core e (some (s.cur.st, k)))).flatten
  if bs.headD 0 = 0 then
    match nb with
    | .nb _ => pure none
    | .blocking => if e.orphan ≠ 0 && e.final.isNone then trap s 0x60 else askAgain k s
  else askAgain k s

/-- What a pop of `n` items meets: the items, none where a non-blocking form fails (R271, R272). A translation fault of
the stock orphans the stream (R260). -/
def mayPop (s : State) (a : Anchor) (n : Nat) (nb : Block) (k : Nat) : Try (Option (List Item)) :=
  match s.me.rend a with
  | none => .ok none
  | some e =>
    match nextItems s e n with
    | some its => .ok (some its)
    | none =>
      if drained s e n then (match nb with | .nb _ => .ok none | .blocking => trap s 0x60)
      else if e.hq.isNone && !ancHere s a then popAway s e nb k
      else
        match nb with
        | .nb _ => .ok none
        | .blocking =>
          if e.hq.isNone && stockFault s a (slotOfItem s a e.pop) then block (orphanBoth a s) else block s

/-- An item of a pop with its mask and poison checked (R271, R333). -/
def itemOk (s : State) (e : Option REnd) (it : Item) (mask : Nat) : Try Unit := do
  trapIf s (it.mask.toNat ≠ mask) 0x63
  if it.poison then trapBad s 0 (match e.bind (·.hq) with | some q => 45 + q | none => 0)

def execSpop (d a : BitVec 6) (nb : Block) (s : State) : Res :=
  runCtl s (fun s => do
    let h := s.rH a
    let k ← endCheck s h 3
    match ← mayPop s (anchorOf h) 1 nb k with
    | none => pure (nbResult nb false s)
    | some its =>
      let it := its.headD { words := [], mask := 0, poison := false }
      itemOk s (s.me.rend (anchorOf h)) it 0
      let s := acquire (takeItem s.cur.core (anchorOf h) s) .sys
      pure (nbResult nb true (it.words.zipIdx.foldl (fun s p => s.wS (d + BitVec.ofNat 6 p.2) p.1) s)))

/-- SPOPH (R271); each end it pops is adopted by the issuing core (R277). -/
def execSpoph (d a n : BitVec 6) (nb : Block) (s : State) : Res :=
  runCtl s (fun s => do
    let h := s.rH a
    let k ← endCheck s h 3
    match ← mayPop s (anchorOf h) 1 nb k with
    | none => pure (nbResult nb false s)
    | some its =>
      let it := its.headD { words := [], mask := 0, poison := false }
      itemOk s (s.me.rend (anchorOf h)) it (2 ^ n.toNat - 1)
      let regs := (List.range n.toNat).map (fun i => d + BitVec.ofNat 6 i)
      trapIf s (regs.any (fun r => !isNull (s.rH r))) 0x38
      let xs := it.words.take n.toNat
      let hs := queuesFor s.me (xs.filter isEnd)
      let answers ← askAdopt s hs k
      let s := acquire (takeItem s.cur.core (anchorOf h) s) .sys
      let s := adoptList s.cur.core hs answers s
      pure (nbResult nb true ((regs.zip xs).foldl (fun s p => s.wH p.1 p.2) s)))

/-! ### SSTAT and SCLOSE (R273, R274) -/

/-- Whether every item numbered before the writer closed is placed, with `n` of a stock's slots FULL: from then on the
stream is orphaned (R274). -/
def REnd.gone (e : REnd) (n : Nat) : Bool :=
  e.orphan ≠ 0 && (match e.final with | some f => f ≤ e.qtop + n | none => true)

/-- SSTAT's word, with `n` FULL slots of the stock (R273). -/
def sstatWord (s : State) (h : W64) (n : Nat) : W64 :=
  let a := anchorOf h
  if hKind h = 2 then
    match s.me.wend a with
    | none => 0
    | some e => w64 (e.push % 2 ^ 24 * 2 ^ 40 + (e.push - e.credit) % 2 ^ 24 * 2 ^ 16 + e.k * 2 ^ 11 +
        (if e.moving then 16 else 0) + (if e.room 1 then 0 else 8) + e.orphan * 2 + (if e.orphan ≠ 0 then 1 else 0))
  else
    match s.me.rend a with
    | none => 0
    | some e => w64 (e.pop % 2 ^ 24 * 2 ^ 40 + (e.q.length + n) % 2 ^ 24 * 2 ^ 16 + e.k * 2 ^ 11 +
        (if e.hq.isNone then 32 else 0) + (if e.moving then 16 else 0) + (if e.gone n then e.orphan * 2 + 1 else 0))

/-- The FULL slots of an end's stock: of another device's, as the check at its anchor answers. -/
def stockOfEnd (s : State) (h : W64) : Nat :=
  if ancHere s (anchorOf h) then (if hKind h = 3 then stockCount s (anchorOf h) else 0)
  else leNat ((s.my.got.headD ⟨0, [], 0⟩).bytes)

def execSstat (d a : BitVec 6) (s : State) : Res :=
  runCtl s (fun s => do
    let h := s.rH a
    if isNull h then pure (s.wS d 0)
    else
      let _ ← endCheck s h 0
      pure (s.wS d (sstatWord s h (stockOfEnd s h))))

def execSclose (a : BitVec 6) (s : State) : Res :=
  runCtl s (fun s => do pure ((← sclose (s.rH a) s).wH a 0))

/-! ### SPOPV and SPUSHV (R275) -/

/-- A vector access to a lent bank (R23, R173). -/
def bankOk (s : State) (v : Nat) : Try Unit := trapIf s (s.me.lent.getLsbD (v / 32)) 0x55
/-- A pending register holds the vector instruction back (R24). -/
def notPending (s : State) (v : Nat) : Try Unit := waitFor s (!s.me.vPend.contains v)

/-- The slots an item's words take in row `j`. -/
def itemSlot (it : Item) (i : Nat) : W32 := (fld (it.words.getD (i / 2) 0) (32 * (i % 2)) 32)

def execSpopv (c : Clause) (vd : BitVec 9) (h : BitVec 6) (n : BitVec 4) (s : State) : Res :=
  runWide c s (fun s => do
    let x := s.rH h
    let cnt := n.toNat + 1
    let k ← endCheck s x 3
    bankOk s vd.toNat
    notPending s vd.toNat
    match ← mayPop s (anchorOf x) cnt .blocking k with
    | none => block s
    | some its =>
      its.forM (fun it => itemOk s (s.me.rend (anchorOf x)) it 0)
      let s := acquire ((List.range cnt).foldl (fun s _ => takeItem s.cur.core (anchorOf x) s) s) .sys
      pure (s.modMe (fun k => k.wV vd.toNat (mofFn 0 (fun l =>
        if l / 64 < cnt && l % 64 < 16 then itemSlot (its.getD (l / 64) ⟨[], 0, false⟩) (l % 64) else 0) 0 1024))))

def execSpushv (c : Clause) (vd : BitVec 9) (h : BitVec 6) (n : BitVec 4) (s : State) : Res :=
  runWide c s (fun s => do
    let x := s.rH h
    let cnt := n.toNat + 1
    let _ ← endCheck s x 2
    bankOk s vd.toNat
    notPending s vd.toNat
    raiseMark .sq s
    let _ ← mayPush s (anchorOf x) cnt .blocking
    release s .sys
    let v := s.me.rV vd.toNat
    pure ((List.range cnt).foldl (fun s j =>
      pushItem (anchorOf x) ⟨(List.range 8).map (fun i =>
        w64 ((mget 0 v (lane j (2 * i))).toNat + (mget 0 v (lane j (2 * i + 1))).toNat * 2 ^ 32)), 0, false⟩ s) s))

/-! ### The stream units' steps -/

/-- The anchor a stream message concerns, where its order matters: control messages about one stream are taken in
the order sent. -/
def ctlOf : Msg → Option Anchor
  | .stop a _ | .go a _ _ | .rebind a .. | .rebound a _ | .orphan a .. | .closeEnd a .. | .moving a .. | .gone a .. => some a
  | _ => none

/-- Message `k`, if no earlier control message concerns its stream. -/
def msgAt (s : State) (k : Nat) : Option Msg :=
  match s.msgs[k]? with
  | none => none
  | some m =>
    match ctlOf m with
    | none => some m
    | some a => if (s.msgs.take k).any (fun x => ctlOf x == some a) then none else some m

def dropMsg (s : State) (k : Nat) : State := { s with msgs := s.msgs.eraseIdx k }

/-- An item arrives (R262). -/
def execStreamItemArrival (k : Nat) (s : State) : Res :=
  match s.msgs[k]? with
  | some (.item a n it c src sq srcDev) => .next ((arriveItem (dropMsg s k) a n it c src sq srcDev).getD s)
  | _ => .next s

/-- The refill of a hot read end (R263), from a stock here or on another device; a translation fault orphans the stream. -/
def execStreamRefill (core k : Nat) (s : State) : Res :=
  match (s.core core).rends[k]? with
  | none => .next s
  | some e =>
    if e.hq.isSome && e.q.length < 32 then
      if ancHere s e.anc then
        let j := slotOfItem s e.anc e.qtop
        if stockFault s e.anc j then .next (orphanBoth e.anc s)
        else if slotFull s e.anc j then
          .next ((slotClear s e.anc j).modCore core (fun c =>
            c.setRend { e with q := e.q ++ [slotItem s e.anc j], qtop := e.qtop + 1 }))
        else .next s
      else if e.fetching || s.net.lost.contains e.anc.dev then .next s
      else .next (sendFetch core e none s)
    else .next s

/-- A message to a write end that is not at core `c` goes on from its anchor to where it lives (R265). -/
def passOn (s : State) (a : Anchor) (c : Nat) (m : Nat → Msg) : State :=
  if ancHere s a && ancUsed s a && ancWst s a = 0 && !(s.ancField a 2 0 8 = s.dev % 256 && s.ancField a 2 8 7 = c) then
    sendMsg s (s.ancField a 2 0 8) a.core (m (s.ancField a 2 8 7)) (.other 0)
  else s

/-- A STOP or GO of a launch stream goes out by the host port that holds its write end (R283, R339; log 59). -/
def toHost (a : Anchor) (m : Msg) (s : State) : State :=
  match s.ctxs.find? (fun q => q.2.ls == some a) with
  | none => s
  | some q => { s with resp := s.resp ++ [(q.2.lsPort, w64 (2 * 256 + 8) :: dwOf (((msgPayload m).length + 7) / 8) (msgPayload m))] }

/-- STOP at the write end (R265). -/
def execStreamStop (k : Nat) (s : State) : Res :=
  match msgAt s k with
  | some (.stop a c) =>
    let s' := dropMsg s k
    match (s.core c).wend a with
    | some e => .next (toHost a (.stop a c) (s'.modCore c (fun x => x.setWend { e with held := true })))
    | none => .next (passOn s' a c (.stop a))
  | _ => .next s

/-- GO at the write end, or at the anchor of a write end that is elsewhere or in transit (R265, R277). -/
def execStreamGo (k : Nat) (s : State) : Res :=
  match msgAt s k with
  | some (.go a c p) =>
    let s' := dropMsg s k
    match (s.core c).wend a with
    | some e =>
      let cr := max e.credit p
      .next (toHost a (.go a c p) (s'.modCore c (fun x => x.setWend { e with
        credit := cr, held := e.held && e.credit + e.lim ≤ e.push && cr + e.lim ≤ e.push })))
    | none =>
      if ancHere s a && ancUsed s a && ancWst s a = 1 then .next (popAtLeast a p s')
      else .next (passOn s' a c (fun tc => .go a tc p))
  | _ => .next s

/-- The writer is bound to another location and acknowledges it (R276, R277). -/
def execStreamRebind (k : Nat) (s : State) : Res :=
  match msgAt s k with
  | some (.rebind a c dev core hot mv old) =>
    let s' := (dropMsg s k).modCore c (fun x => match x.wend a with
      | some e => x.setWend { e with toDev := dev, toCore := core, lim := limitOf e.k hot, moving := mv }
      | none => x)
    .next (sendMsg s' a.dev c (.rebound a old) (.other 0))
  | _ => .next s

/-- The acknowledgement ends forwarding at the old location (R277). -/
def execStreamRebindAck (k : Nat) (s : State) : Res :=
  match msgAt s k with
  | some (.rebound _ _) => .next (dropMsg s k)
  | _ => .next s

/-- Whether the notice of a writer's close may be given to a read end whose stock is here: every numbered item is placed
(R274). -/
def noticeDue (s : State) (e : REnd) (fin : Option Nat) : Bool :=
  !ancHere s e.anc || { e with orphan := 1, final := fin }.gone (stockCount s e.anc)

/-- An orphan notice reaches the survivor's core and sets its event latch; the close of an end that had no core reaches
its anchor; the survivor learns where the other end is, and an anchor where its end in transit is (R274, R279, R320). -/
def execOrphanNotice (k : Nat) (s : State) : Res :=
  match msgAt s k with
  | some (.orphan a c rd cause fin) =>
    let s' := dropMsg s k
    if rd then
      match (s.core c).rend a with
      | none => .next s'
      | some e =>
        if noticeDue s e fin then
          .next (s'.modCore c (fun x => { x.setRend { e with
            orphan := if e.orphan = 0 then cause else e.orphan, final := fin } with latch := true }))
        else .next s
    else
      .next (s'.modCore c (fun x => match x.wend a with
        | some e => { x.setWend { e with orphan := if e.orphan = 0 then cause else e.orphan } with latch := true }
        | none => x))
  | some (.closeEnd a w n top cause) =>
    .next (if ancHere s a then anchorClose (dropMsg s k) a w n top cause else dropMsg s k)
  | some (.gone a w dev) =>
    let s' := dropMsg s k
    .next (if ancHere s a && ancUsed s a && (if w then ancWst s a else ancRst s a) = 1 then
        s'.setAncField a (if w then 2 else 3) 0 8 dev else s')
  | some (.moving a c rd on) =>
    .next ((dropMsg s k).modCore c (fun x =>
      if rd then match x.rend a with | some e => x.setRend { e with moving := on } | none => x
      else match x.wend a with | some e => x.setWend { e with moving := on } | none => x))
  | _ => .next s

/-- The background clearing of a side array reaches the next 256 bytes (R260). -/
def execSideArrayClear (k : Nat) (s : State) : Res :=
  match s.clears[k]? with
  | none => .next s
  | some (a, n) =>
    let hi := min (n + 128) (2 ^ ancK s a)
    if stockFault s a n then .next (orphanBoth a { s with clears := s.clears.filter (fun p => p.1 != a) })
    else
    let s' := (List.range (hi - n)).foldl (fun s i => slotClear s a (n + i)) s
    .next { s' with clears := if hi = 2 ^ ancK s a then s.clears.filter (fun p => p.1 != a)
                              else s.clears.map (fun p => if p.1 == a then (a, hi) else p) }

end Sys2Proof.Machine
end

