-- ==== Sys2Proof/Machine/Value.lean ====
section
/-! DEFINITION. The value instructions (R82 to R86, R104 to R117) and the messages that carry counts (R96, R97, R100):
TALLOC to GWAIT in CTL, GWAITF in FET, DELTA, DELTA_REFUSAL_TRAP, WEIGHT_MESSAGE. -/

namespace Sys2Proof.Machine

/-! ### The operand tile -/

/-- Whether the issuing core is the tile's home. -/
def atHome (s : State) (h : W64) : Bool := homeHere s h && hCore h = s.cur.core

/-- R105 for an instruction that retires before a home elsewhere can check step 4 (R97). -/
def checkMine (s : State) (h : W64) (bits : Option Nat) : Try Unit := do
  orTrap s bits
  if atHome s h then orTrap s (recordCheck s s.me.ctxOf h)

/-- Whether an operation produces the tile of a handle: a producing operation's first argument is its tile. -/
def Op.makes (o : Op) (h : W64) : Bool :=
  let d := o.args.headD 0
  isTile d && hCore d = hCore h && hFolio d = hFolio h && hGen d = hGen h

/-- A galley wait on a tile that a stopped operation of the issuing core produces raises the mark (R211). -/
def raiseMaker (s : State) (h : W64) : Try Unit :=
  [TlCtx.fa, .mx, .ea].forM (fun x =>
    if ((vget [] s.me.ops x.idx).any (·.makes h)) && (s.me.tlOf x).mark.isSome then raiseMark x s else pure ())

/-- Waits while a tile of this device is FILLING (R94); a tile freed meanwhile is stale. -/
def waitFilled (s : State) (h : W64) : Try Unit := do
  orTrap s (recordCheck s s.me.ctxOf h)
  if !readable (s.folio (hCore h) (hFolio h)) then
    raiseMaker s h
    block s

/-- R102. -/
def soleRef (s : State) (h : W64) : Bool :=
  atHome s h && counted h && hRights h / 2 % 2 = 1 && (s.folio (hCore h) (hFolio h)).count = 1

/-- The contents of a tile on another device, in 256-byte parts, asked for after `k` answers. -/
def farContents (s : State) (h : W64) (k n : Nat) : Try (List Byte) := do
  let bs ← askNext s 0 k ((n + 255) / 256) (fun s => (List.range ((n + 255) / 256)).foldl (fun s i =>
    sendPkt s s.cur.core (homePkt h 35 (leBytes 8 (256 * i))) (.answer s.cur.core s.cur.st (k + i))) s)
  pure (bs.flatten.take n)

/-! ### Allocation (R106, R114) -/

/-- A new tile's handle in H[d], or GALLEY_EMPTY. -/
def allocTo (d : BitVec 6) (t : Elem) (rows cols : Nat) (st : GState) (win : Bool) (s : State) : Try State :=
  match newTile s.cur.core s.me.ctxOf t rows cols st win true s with
  | none => trap s 0x40
  | some (f, s') => .ok (s'.wH d (handleOf s' s.cur.core f))

def execTalloc (d a b : BitVec 6) (t : Elem) (s : State) : Res :=
  runCtl s (fun s => do
    destFree s d none
    let r := (s.rS a).toNat
    let c := (s.rS b).toNat
    trapIf s (!shapeOk t r c) 0x37
    allocTo d t r c .full false s)

def execGopen (d a : BitVec 6) (s : State) : Res :=
  runCtl s (fun s => do
    destFree s d none
    let x := s.rS a
    let r := (fld x 0 16).toNat
    let c := (fld x 16 16).toNat
    let f := (fld x 32 4).toNat
    trapIf s (11 < f || fld x 36 28 != 0 || !shapeOk (elemOf f) r c) 0x37
    release s .sys
    allocTo d (elemOf f) r c .filling true s)

/-! ### DUP and DROP (R100, R107) -/

def execDup (d a : BitVec 6) (s : State) : Res :=
  runCtl s (fun s => do
    let h := s.rH a
    trapIf s (isNull h) 0x30
    trapIf s (isEnd h) 0x33
    checkMine s h (handleKind h)
    destFree s d none
    if hWeight h = 1 then
      let _ ← askHome s h 33 [[]]
      pure (s.wH d (hSetWeight h 17))
    else if !counted h then
      let g := hSetWeight h (hWeight h - 1)
      pure ((s.wH a g).wH d g)
    else if atHome s h then
      let x := s.folio (hCore h) (hFolio h)
      trapIf s (2 ^ 24 - 1 ≤ x.count) 0x32
      pure ((s.setFolio (hCore h) (hFolio h) { x with count := x.count + 1 }).wH d h)
    else pure ((s.post (.delta s.cur.core .ctl h 1 (.dup d) s.cycle (inS s))).wH d h))

/-- What a register holds let go of (R107, R112): a stream end is closed as SCLOSE closes it, a tile's reference given
up. -/
def letGoReg (a : BitVec 6) (s : State) : Try State := do
  let h := s.rH a
  if isEnd h && !hBad h then pure ((← sclose h s).wH a 0)
  else
    checkMine s h (handleKind h)
    pure ((giveUp s.cur.core .ctl h (inS s) s).wH a 0)

def execDrop (a : BitVec 6) (s : State) : Res :=
  runCtl s (fun s => do
    trapIf s (isNull (s.rH a)) 0x30
    letGoReg a s)

/-! ### TCOUNT, TINFO, TLDE (R85, R108, R109) -/

/-- A snapshot of the record a handle names. -/
def snapshot (s : State) (h : W64) : Try Folio := do
  checkTile s h (handleKind h)
  readRecord s h

def execTcount (d a : BitVec 6) (s : State) : Res :=
  runCtl s (fun s => do
    let h := s.rH a
    if isNull h then pure (s.wS d 0)
    else do
      let x ← snapshot s h
      pure (s.wS d (w64 x.count)))

/-- TINFO's word (R108). -/
def infoWord (x : Folio) : W64 :=
  let st := match x.state with | .free => 0 | .filling => 1 | .full => 2 | .draining => 3
  w64 (x.ngal * 2 ^ 48 + x.first * 2 ^ 39 + (if x.win then 2 ^ 38 else 0) + st * 2 ^ 36 + x.fmt.code.toNat * 2 ^ 32 +
    x.cols * 2 ^ 16 + x.rows)

def execTinfo (d a : BitVec 6) (s : State) : Res :=
  runCtl s (fun s => do
    let h := s.rH a
    if isNull h then pure (s.wS d 0)
    else do
      let x ← snapshot s h
      pure (s.wS d (infoWord x)))

/-- Element `i` of a tile of this device. -/
def tileElem (s : State) (c : Nat) (x : Folio) (i : Nat) : Nat :=
  elemAt (fun j => mget 0 (s.core c).store (16384 * x.first + j)) x.fmt i

/-- Whether an element's bytes are poisoned. -/
def elemBad (s : State) (c : Nat) (x : Folio) (i : Nat) : Bool :=
  tileBad s c (16384 * x.first + ebits x.fmt * i / 8) ((ebits x.fmt + 7) / 8)

/-- A raw element as a dword (R109). -/
def elemWord (t : Elem) (v : Nat) : W64 :=
  if isSigned t && 2 ^ (ebits t - 1) ≤ v then w64i ((v : Int) - 2 ^ ebits t) else w64 v

def execTlde (d a b : BitVec 6) (s : State) : Res :=
  runCtl s (fun s => do
    let h := s.rH a
    let i := (s.rS b).toNat
    checkTile s h (handleBits h 0)
    if homeHere s h then
      let x := s.folio (hCore h) (hFolio h)
      trapIf s (x.rows * x.cols ≤ i) 0x36
      waitFilled s h
      if elemBad s (hCore h) x i then trapBad s 0 (tileBank (16384 * x.first + ebits x.fmt * i / 8))
      pure (s.wS d (elemWord x.fmt (tileElem s (hCore h) x i)))
    else do
      let bs ← askHome s h 38 [leBytes 8 i]
      if bs.flatten.isEmpty then .error (.wait (s.modMy (fun x => { x with asked := 0, got := [] })))
      pure (s.wS d (w64 (leNat (bs.flatten.take 8)))))

/-! ### UPDE and UNIQ (R110, R111) -/

/-- Whether UPDE's size fits a format. -/
def upSize (z : Size) (t : Elem) : Bool :=
  match z with
  | .b => t == .e8 || t == .l8 || t == .i8 || t == .n8
  | .h => t == .b16 || t == .l16 || t == .i16 || t == .n16
  | .w | .d => t == .f32 || t == .i32 || t == .n32

/-- Tile-store contents moved between two cores' galleys with their poison (R333). -/
def copyGals (s : State) (c first n c' first' : Nat) : State :=
  let k := s.core c
  let g := 2048 * first
  let g' := 2048 * first'
  s.modCore c' (fun k' => { k' with
    store := msplice k'.store (16384 * first') (16384 * n) (mslice k.store (16384 * first) (16384 * (first + n))),
    storePoison := (k'.storePoison.filter (fun x => x < g' || g' + 2048 * n ≤ x)) ++
      (k.storePoison.filter (fun x => g ≤ x && x < g + 2048 * n)).map (fun x => x - g + g'),
    dirtyG := (List.range n).foldl (fun d i => d ||| BitVec.ofNat 512 (2 ^ (first' + i))) k'.dirtyG })

/-- Where UPDE writes: one element, or two. -/
def writeElems (c : Nat) (x : Folio) (z : Size) (i : Nat) (v : W64) (s : State) : State :=
  writeContents s c x (ebits x.fmt / 8 * i) (leBytes (sizeBytes z) v.toNat) false

/-- UPDE and UNIQ: H[a] consumed, H[d] the sole reference of its contents, `edit` the element written. -/
def update (d a : BitVec 6) (edit : Option (Size × Nat × W64)) (s : State) : Try State := do
  let h := s.rH a
  let c := s.cur.core
  checkTile s h (handleBits h 0)
  let x ← readRecord s h
  destFree s d (some a)
  match edit with
  | none => pure ()
  | some (z, i, _) =>
    let n := x.rows * x.cols
    trapIf s (!upSize z x.fmt || n ≤ i || (z == .d && (i % 2 = 1 || n ≤ i + 1))) 0x36
  let write (c' : Nat) (y : Folio) (s : State) : State :=
    match edit with | none => s | some (z, i, v) => writeElems c' y z i v s
  if homeHere s h then
    waitFilled s h
    waitFor s (!soleRef s h || x.state == .full)
  let clear (s : State) : State := if d = a then s else s.wH a 0
  if soleRef s h then
    pure ((clear (write c x s)).wH d h)
  else
    let bs ← (if homeHere s h then pure [] else do
      if x.state == .filling then .error (.wait (s.modMy (fun x => { x with asked := 0, got := [] })))
      farContents s h 1 x.bytes)
    match newTile c s.me.ctxOf x.fmt x.rows x.cols .full false true s with
    | none => trap s 0x40
    | some (f, s) =>
      let y := s.folio c f
      let s := if homeHere s h then copyGals s (hCore h) x.first x.ngal c y.first
        else writeContents s c y 0 bs false
      let s := giveUp c .ctl h (inS s) (write c y s)
      pure ((clear s).wH d (handleOf s c f))

def execUpde (d a b c : BitVec 6) (z : Size) (s : State) : Res :=
  runCtl s (fun s => update d a (some (z, (s.rS b).toNat, s.rS c)) s)
def execUniq (d a : BitVec 6) (s : State) : Res := runCtl s (update d a none)

/-! ### HMOV, HNULL, HCMP, HGET, HPUT (R112, R113) -/

/-- HMOV (R112). It moves any handle as it is, one with R88's invalid fields too: R88 traps on such an operand and R112
moves any handle (DESIGN CHOICE, log 84). -/
def execHmov (d a : BitVec 6) (restrict : Bool) (keep : BitVec 4) (s : State) : Res :=
  runCtl s (fun s => do
    let h := s.rH a
    destFree s d (some a)
    let g := if restrict then hSetRights h (hRights h &&& keep.toNat) else h
    pure ((if d = a then s else s.wH a 0).wH d g))

def execHnull (a : BitVec 6) (s : State) : Res :=
  runCtl s (fun s => if isNull (s.rH a) then .ok s else letGoReg a s)

/-- HCMP's word (R113). -/
def hcmpWord (x y : W64) : W64 :=
  w64 ((if x = y then 1 else 0) +
    (if hKind x = hKind y && hDev x = hDev y && hCore x = hCore y && hFolio x = hFolio y && hGen x = hGen y then 2 else 0) +
    (if hDev x = hDev y && hCore x = hCore y then 4 else 0))

def execHcmp (d a b : BitVec 6) (s : State) : Res := runCtl s (always (fun s => s.wS d (hcmpWord (s.rH a) (s.rH b))))
def execHget (d a : BitVec 6) (s : State) : Res := runCtl s (always (fun s => s.wS d (s.rH a)))
def execHput (d a : BitVec 6) (s : State) : Res :=
  runCtl s (fun s => do
    needPriv s
    pure (s.wH d (s.rS a)))

/-! ### GSEAL, GWAIT, GWAITF (R116, R117) -/

/-- A GOPEN tile sealed at its home, or GALLEY_STATE. -/
def sealTile (c f : Nat) (s : State) : Option State :=
  let x := s.folio c f
  if x.win && x.state == .filling then
    some ((s.setFolio c f { x with win := false, state := .full }).modCore c (fun k => { k with latch := true }))
  else none

def execGseal (a : BitVec 6) (s : State) : Res :=
  runCtl s (fun s => do
    let h := s.rH a
    checkTile s h (handleBits h 1)
    release s .sys
    if homeHere s h then
      match sealTile (hCore h) (hFolio h) s with
      | none => trap s 0x42
      | some s => pure s
    else do
      let _ ← askHome s h 36 [[]]
      pure s)

/-- GWAIT and GWAITF: a tile of another device is polled at its home. -/
def gwaitOn (h : W64) (s : State) : Try State := do
  checkTile s h (handleKind h)
  if homeHere s h then waitFilled s h
  else
    let bs := (← askHome s h 37 [[]]).flatten
    if bs.headD 0 = 1 then .error (.wait (s.modMy (fun x => { x with asked := 0, got := [] })))
  pure (acquire s .sys)

def execGwait (a : BitVec 6) (s : State) : Res := runCtl s (fun s => gwaitOn (s.rH a) s)
def execGwaitf (c : Clause) (hs : BitVec 6) (s : State) : Res := runWide c s (fun s => gwaitOn (s.rH hs) s)

/-! ### Messages that carry counts (R95 to R97, R100) -/

/-- Whether message `k` is the oldest from its source to its home among deltas and weights. -/
def oldestCount (s : State) (k src : Nat) (h : W64) : Bool :=
  !((s.msgs.take k).any (fun m =>
    match m with
    | .delta src' _ h' _ _ _ _ => src' == src && hDev h' == hDev h && hCore h' == hCore h
    | .weight src' _ h' => src' == src && hDev h' == hDev h && hCore h' == hCore h
    | _ => false))

/-- Whether a pin of an operation on one tile is still on its way to its home. -/
def pinOnWay (s : State) (c : Nat) (x : TlCtx) (n : Nat) (h : W64) : Bool :=
  s.msgs.any (fun m => match m with
    | .delta c' _ h' _ (.pin y n') _ _ => c' == c && y == x && n' == n && h' == h
    | _ => false)

/-- An operation whose pin on `but` was refused, taken out of its context: the pins that count released, those on their way
taken back when they arrive, its number complete (R97). -/
def dropOp (c : Nat) (x : TlCtx) (n : Nat) (but : W64) (s : State) : State :=
  match (vget [] (s.core c).ops x.idx).find? (fun o => o.n = n) with
  | none => s
  | some o =>
    let s := (o.pins.filter (fun h => h != but && !pinOnWay s c x n h)).foldl (fun s h => unpin c o.st x n h s) s
    report c x n (s.modCore c (fun k => { k with ops := vset k.ops x.idx ((vget [] k.ops x.idx).filter (fun o => o.n ≠ n)) }))

/-- A refused delta back at its core (R97): a pin's operation fails, a DUP's register is nulled, the refusal is held
until it falls due; a refused unpin has no taker. -/
def refuseDelta (src : Nat) (st : Strand) (h : W64) (why : DeltaFor) (at_ : Nat) (sup : Bool) (cause : Nat) (s : State) :
    State :=
  let hold (s : State) : State := s.modCore src (fun k => { k with
    refused := k.refused ++ [{ cause, handle := h, st, due := at_ + 64, fromS := sup }] })
  match why with
  | .pin x n => mark src x 0 cause 0 h (dropOp src x n h s)
  | .dup d => hold (if (s.core src).rH d = h then s.modCore src (·.wH d 0) else s)
  | .drop => hold s
  | .unpin x n => report src x n s

/-- A delta reaches its home (R95, R96); a count held at another device's home by an unweighted handle is refused. A
pin whose operation failed meanwhile is taken back. -/
def execDelta (k : Nat) (s : State) : Res :=
  match s.msgs[k]? with
  | some (.delta src st h amount why at_ sup) =>
    if !oldestCount s k src h then .next s
    else
      let s := { s with msgs := s.msgs.eraseIdx k }
      if !homeHere s h then .next (refuseDelta src st h why at_ sup 0x31 s)
      else
        match applyDelta (hCore h) (hFolio h) (hGen h) amount s with
        | .error cause => .next (refuseDelta src st h why at_ sup cause s)
        | .ok s =>
          match why with
          | .pin x n =>
            if (vget [] (s.core src).ops x.idx).any (fun o => o.n = n) then .next s
            else .next (s.post (.delta src st h (-1) (.unpin x n) s.cycle false))
          | .unpin x n => .next (report src x n s)
          | _ => .next s
  | _ => .next s

/-- A refusal that has fallen due (R97): in U mode the cell's, in S mode the supervisor's own. -/
def execDeltaRefusalTrap (core : Nat) (s : State) : Res :=
  let k := s.core core
  let may (r : Refused) : Bool := if k.mode == .u then r.due ≤ s.cycle || r.fromS else r.fromS
  match k.refused.find? may with
  | none => .next s
  | some r =>
    if k.live && !k.stopped && k.raised.isNone && (k.strand r.st).asked = 0 then
      .next (takeTrap core r.st ⟨r.cause, 0, r.handle, none, none⟩
        (s.modCore core (fun k => { k with refused := k.refused.filter (· != r) })))
    else .next s

/-- A proxy's weight reaches its home (R100): here, or as a request to the home's device (log 12). -/
def execWeightMessage (k : Nat) (s : State) : Res :=
  match s.msgs[k]? with
  | some (.weight src st h) =>
    if !oldestCount s k src h then .next s
    else
      let s := { s with msgs := s.msgs.eraseIdx k }
      if homeHere s h then .next (returnWeight (hCore h) (hFolio h) (hGen h) (weightOf h) s)
      else .next (sendPkt s src (homePkt h 32 []) (.weight src st))
  | _ => .next s

end Sys2Proof.Machine
end

