-- ==== Sys2Proof/Machine/Engine.lean ====
section
/-! DEFINITION. What the fetch, emit, copy and matrix engines share: elements in slots (R143, R155, R206, R207),
checked ranges of a synchronous vector access (R208, R209, R295), asynchronous operations from their numbering to
their completion, fault or abandonment (R98, R209 to R211, R311), and the engines' own accesses to memory. -/

namespace Sys2Proof.Machine

/-! ### Elements and slots -/

/-- The slot form of a raw element (R143). -/
def widen (t : Elem) (raw : Nat) : W32 :=
  match t with
  | .f32 | .i32 | .n32 => BitVec.ofNat 32 raw
  | .b16 => b16Slot raw
  | .e8 => rne32 (e8v raw)
  | .l8 => BitVec.ofNat 32 (l16c (lwiden (l8v raw)))
  | .l16 | .n16 | .n8 => BitVec.ofNat 32 raw
  | .i16 => slotOf (sextN 16 raw)
  | .i8 => slotOf (sextN 8 raw)
  | .i6 => slotOf (sextN 6 raw)

/-- The zero of a type in a slot (R207). -/
def zeroOf (t : Elem) : W32 := if t == .l8 || t == .l16 then 0x4000 else 0

/-- An E8 result with the flags of FPC (R155). -/
def e8Flags (ftz : Bool) (r : Nrw) : Nat × Flags :=
  match r.ev with
  | .sat => (r.code, flLS ||| flIf r.inex flNX)
  | .high => (r.code, flOF ||| flIf r.inex flNX)
  | .low => (r.code, flUF ||| flNX)
  | .none => if ftz && r.sub then (r.code / 128 * 128, flUF ||| flNX) else (r.code, flIf r.inex flNX)

/-- Narrowing a slot under an FPC (R155, R158): the raw element and its flags. -/
def narrow (fpc : W32) (sat : Bool) (t : Elem) (w : W32) : Nat × Flags :=
  match t with
  | .f32 | .i32 | .n32 => (w.toNat, 0)
  | .b16 => rndB16 (rmOf fpc) (ftzOf fpc) (daz32 (dazOf fpc) w)
  | .e8 => e8Flags (ftzOf fpc) (nrw8 (rmOf fpc) sat (daz32 (dazOf fpc) w))
  | .l16 => (w.toNat % 65536, 0)
  | .l8 => let r := lnarrow sat (l16v (w.toNat % 65536)); (l8c r.1, flIf (r.2 != .none) flLS)
  | .i16 | .n16 => (w.toNat % 65536, 0)
  | .i8 | .n8 => (w.toNat % 256, 0)
  | .i6 => (w.toNat % 64, 0)

/-- Raw elements as the bytes of a row (R206). -/
def packRow (t : Elem) (xs : List Nat) : List Byte :=
  leBytes (rowBytes t xs.length) (xs.foldr (fun x acc => x % 2 ^ ebits t + acc * 2 ^ ebits t) 0)
/-- The `n` raw elements of a row's bytes. -/
def unpackRow (t : Elem) (n : Nat) (bs : List Byte) : List Nat :=
  let v := leNat bs
  (List.range n).map (fun i => v / 2 ^ (ebits t * i) % 2 ^ ebits t)

/-- Registers of a block (R207). -/
def nreg (rows cols : Nat) : Nat := (rows + 15) / 16 * ((cols + 63) / 64)
/-- R207's limits of a register block. -/
def blockOk (base rows cols : Nat) : Bool := nreg rows cols ≤ 32 && base + nreg rows cols ≤ 384
/-- The register and slot of an element of a block (R207). -/
def blockAt (cols r c : Nat) : Nat × Nat := (r / 16 * ((cols + 63) / 64) + c / 64, lane (r % 16) (c % 64))

/-- The registers of a block written from a function of the element, zeros of the type outside (R207). -/
def fillBlock (base rows cols : Nat) (z : W32) (f : Nat → Nat → W32) (k : Core) : Core :=
  (List.range (nreg rows cols)).foldl (fun k i =>
    let r0 := i / ((cols + 63) / 64) * 16
    let c0 := i % ((cols + 63) / 64) * 64
    k.wV (base + i) (mofFn 0 (fun l =>
      if r0 + l / 64 < rows && c0 + l % 64 < cols then f (r0 + l / 64) (c0 + l % 64) else z) 0 1024)) k

/-- The slot of a block's element. -/
def blockSlot (k : Core) (base cols r c : Nat) : W32 :=
  let p := blockAt cols r c
  mget 0 (k.rV (base + p.1)) p.2

/-- The registers a vector instruction names: none lent, none pending (R23, R24). -/
def vecOk (s : State) (vs : List Nat) : Try Unit := do
  vs.forM (bankOk s)
  vs.forM (notPending s)
def blockRegs (base rows cols : Nat) : List Nat := (List.range (nreg rows cols)).map (base + ·)

/-! ### Checked ranges of synchronous instructions (R208, R209, R295) -/

/-- The parts of a range at 4 KiB boundaries; `fuel` bounds their number. -/
def pageParts : Nat → Nat → Nat → List (Nat × Nat)
  | 0, _, _ => []
  | fuel + 1, va, n =>
    if n = 0 then []
    else
      let m := min n (4096 - va % 4096)
      (va, m) :: pageParts fuel (va + m) (n - m)
def pagesOf (va n : Nat) : List (Nat × Nat) := pageParts (n / 4096 + 2) va n

/-- The bytes of a window, none where it is absent (R284, R293). -/
def winSize (s : State) (ctx w : Nat) : Nat :=
  match winDesc s ctx w with
  | .ok (d, _) => if (d.getD 0 0).getLsbD 0 then (d.getD 1 0).toNat else 0
  | .error _ => 0

/-- Whether the bytes of a range lie in two windows, or partly in one (R208, R295). -/
def straddles (s : State) (ctx va n : Nat) : Bool :=
  0 < n && 0xE000000000000 < va + n && va < 0xE000000000000 + 2 ^ 48 && (List.range 8).any (fun w =>
    let lo := 0xE000000000000 + 2 ^ 45 * w
    let hi := lo + winSize s ctx w
    va < hi && lo < va + n && !(lo ≤ va && va + n ≤ hi))

/-- The first poisoned granule of a range of memory. -/
def badAt (s : State) (pa n : Nat) : Option Nat := s.poison.find? (inRange · pa n)

/-- A part of a range within 4 KiB and outside the windows checked for reading (R209). -/
def readOkPart (s : State) (va n : Nat) : Try Unit :=
  match regionOf va with
  | .none | .window _ _ => trapAt s 0x20 (w64 va)
  | .tile c off =>
    if lentAway s s.me.ctxOf va then trapAt s 0x92 (w64 va)
    else
      match tileWinBad s s.me.ctxOf c off n with
      | some g => trapBad s (w64 (va + 8 * g - off)) (tileBank (8 * g))
      | none => .ok ()
  | .page =>
    match xlate s s.cur.core s.me.ctxOf s.mode va false false with
    | .error e => trapAt s e (w64 va)
    | .ok t =>
      match (if s.me.stores.any (·.hits t.pa n) then none else badAt s t.pa n) with
      | some g => trapBad s (w64 (va + 8 * g - t.pa)) 0
      | none => .ok ()

/-- A range of one instruction, a multiple of `al`, checked for reading (R209): every fault the device detects, the lowest
address first. -/
def readOk (s : State) (al va n : Nat) : Try State :=
  if va % al ≠ 0 then trapAt s 0x24 (w64 va)
  else
    match regionOf va with
    | .window w off =>
      match winDesc s s.me.ctxOf w with
      | .error e => trapAt s e (w64 va)
      | .ok (d, s) =>
        match winCheck d off n true false with
        | .error e => trapAt s e (w64 va)
        | .ok t => if s.net.lost.contains t.dev then trapAt s 0x93 (w64 va) else .ok s
    | _ => do
      (pagesOf va n).forM (fun p => readOkPart s p.1 p.2)
      pure s

/-- The bytes of checked ranges, after `k` answers of windows: the windows' parts asked for together, the rest read
here; with the answers used. -/
def readSome (s : State) (k : Nat) (rs : List (Nat × Nat)) (al : Nat := 1) : Try (List (List Byte) × State × Nat) := do
  let s ← rs.foldlM (fun (s : State) r => readOk s al r.1 r.2) s
  let parts : List (Nat × Nat × Nat) := (rs.map (fun r => match regionOf r.1 with
    | .window w off => (partsOf (r.2 / 256 + 2) off r.2).map (fun p => (w, p))
    | _ => [])).flatten
  let at_ (i : Nat) : W64 := let p := parts.getD i (0, 0, 0); w64 (0xE000000000000 + 2 ^ 45 * p.1 + p.2.1)
  let far ← askParts s at_ k parts.length (fun s => parts.zipIdx.foldl (fun s p =>
    match winDesc s s.me.ctxOf p.1.1 with
    | .error _ => s
    | .ok (d, s) =>
      match winCheck d p.1.2.1 p.1.2.2 true false with
      | .error _ => s
      | .ok t => sendPkt s s.cur.core (reqPkt t 0 p.1.2.1 p.1.2.2 []) (.answer s.cur.core s.cur.st (k + p.2))) s)
  let r ← rs.foldlM (fun (acc : List (List Byte) × List (List Byte) × State) r => do
    match regionOf r.1 with
    | .window _ off =>
      let n := (partsOf (r.2 / 256 + 2) off r.2).length
      pure (acc.1 ++ [(acc.2.1.take n).flatten], acc.2.1.drop n, acc.2.2)
    | _ =>
      let q ← (pagesOf r.1 r.2).foldlM (fun (a : List Byte × State) p => do
        let (bs, s) ← readVa a.2 (w64 p.1) p.2
        pure (a.1 ++ bs, s)) (([], acc.2.2) : List Byte × State)
      pure (acc.1 ++ [q.1], acc.2.1, q.2)) (([], far, s) : List (List Byte) × List (List Byte) × State)
  pure (r.1, r.2.2, k + parts.length)

/-- The bytes of an instruction's ranges, with its acquire. -/
def readRanges (s : State) (rs : List (Nat × Nat)) (al : Nat := 1) : Try (List (List Byte) × State) := do
  let (bs, s, _) ← readSome s 0 rs al
  pure (bs, acqPart s s.attr)

/-- A range of one instruction, a multiple of `al`, checked for writing, copy-on-write done (R209, R290). -/
def writeOkRange (s : State) (al va n : Nat) : Try State :=
  if va % al ≠ 0 then trapAt s 0x24 (w64 va)
  else
    match regionOf va with
    | .window w off =>
      match winDesc s s.me.ctxOf w with
      | .error e => trapAt s e (w64 va)
      | .ok (d, s) =>
        match winCheck d off n false true with
        | .error e => trapAt s e (w64 va)
        | .ok t => if s.net.lost.contains t.dev then trapAt s 0x93 (w64 va) else .ok s
    | _ =>
      (pagesOf va n).foldlM (fun (s : State) p =>
        match regionOf p.1 with
        | .none | .window _ _ => trapAt s 0x20 (w64 p.1)
        | .tile _ _ => trapAt s 0x21 (w64 p.1)
        | .page => do
          let (_, s) ← writePlace s (w64 p.1)
          pure s) s

/-- A part to post: window, offset, bytes, address. -/
structure Part where
  w : Nat
  off : Nat
  bytes : List Byte
  va : Nat
deriving DecidableEq, Repr

/-- Whether a core may start posting parts (R296): each window has room for all of them, or is idle. -/
def mayPost (s : State) (ps : List Part) : Bool :=
  (List.range 8).all (fun w =>
    let n := (ps.filter (fun p => p.w = w)).length
    let out := vget 0 s.me.wallowOut w
    n = 0 || out + n ≤ vget 256 (s.ctx s.me.ctxOf).wallow w || (vget 256 (s.ctx s.me.ctxOf).wallow w < n && out = 0))

/-- Parts sent in order while their windows have room: how many went. -/
def postParts (s : State) : List Part → Nat × State
  | [] => (0, s)
  | p :: ps =>
    let ctx := s.me.ctxOf
    if vget 256 (s.ctx ctx).wallow p.w ≤ vget 0 s.me.wallowOut p.w then (0, s)
    else
      match winDesc s ctx p.w with
      | .error _ => (0, s)
      | .ok (d, s) =>
        match winCheck d p.off p.bytes.length false true with
        | .error _ => (0, s)
        | .ok t =>
          let s := sendPkt (outUp s.cur.core p.w s)
            s.cur.core (reqPkt t 1 p.off p.bytes.length p.bytes) (.posted s.cur.core s.cur.st p.w (w64 p.va) s.me.cell s.me.ctxOf
              s.me.launchid)
          let r := postParts s ps
          (r.1 + 1, r.2)

/-- The writes of a synchronous instruction (R209, R296): all checked first, window parts posted in order, the rest in
the core's store path as it finishes. -/
def writeRanges (s : State) (rs : List (Nat × List Byte)) (al : Nat := 1) : Try State := do
  if s.my.asked = 0 then relPart s s.attr
  let s ← rs.foldlM (fun (s : State) r => writeOkRange s al r.1 r.2.length) s
  let parts := (rs.map (fun r => match regionOf r.1 with
    | .window w off => (cutParts (partsOf (r.2.length / 256 + 2) off r.2.length) off r.2).map (fun p =>
        (⟨w, p.1, p.2, r.1 + (p.1 - off)⟩ : Part))
    | _ => [])).flatten
  let gone := s.my.asked
  waitFor s (0 < gone || mayPost s parts)
  let (n, s) := postParts s (parts.drop gone)
  if gone + n < parts.length then .error (.wait (s.modMy (fun x => { x with asked := gone + n })))
  rs.foldlM (fun (s : State) r =>
    match regionOf r.1 with
    | .window _ _ => .ok s
    | _ =>
      (pagesOf r.1 r.2.length).foldlM (fun (s : State) p => do
        let (t, s) ← writePlace s (w64 p.1)
        pure (chargeHbm (queueStore s t.pa ((r.2.drop (p.1 - r.1)).take p.2) false) p.2)) s) s

/-! ### Asynchronous operations -/

def Core.opsOf (k : Core) (x : TlCtx) : List Op := vget [] k.ops x.idx
def Core.setOps (k : Core) (x : TlCtx) (l : List Op) : Core := { k with ops := vset k.ops x.idx l }
/-- The operation, changed. -/
def setOp (c : Nat) (x : TlCtx) (o : Op) (s : State) : State :=
  s.modCore c (fun k => k.setOps x ((k.opsOf x).map (fun p => if p.n = o.n then o else p)))
/-- Operation `n` of a context. -/
def opAt (s : State) (c : Nat) (x : TlCtx) (n : Nat) : Option Op := ((s.core c).opsOf x).find? (fun o => o.n = n)

/-- A new operation numbered in a context of a core for its cell. -/
def enqueue (c : Nat) (x : TlCtx) (i : Instr) (st : Strand) (fpc : W32) (a : Attr) (args : List W64) (data : SMap W32)
    (pins : List W64) (s : State) : State :=
  let k := s.core c
  let t := k.tlOf x
  let o : Op := { n := t.issued + 1, i, st, fpc, attr := a, args, data, pos := 0, pins, started := false, asked := 0,
                  got := [], ctx := k.ctxOf, cls := k.cls, launch := k.launchid, cell := k.cell, back := false }
  s.modCore c (fun k => (k.setTl x (t.next a.s)).setOps x (k.opsOf x ++ [o]))

/-- The issuing strand's asynchronous instruction accepted: pins taken, a number given (R98, R211). One whose pin traps has
taken none (R103). -/
def issueOp (x : TlCtx) (i : Instr) (args : List W64) (data : SMap W32) (pins : List W64) (s : State) : Try State :=
  match pins.foldlM (fun (s : State) h => takePin x ((s.me.tlOf x).issued + 1) h s) s with
  | .error (.trap t _) => .error (.trap t s)
  | .error e => .error e
  | .ok s => .ok (enqueue s.cur.core x i s.cur.st s.fpcNow s.attr args data pins s)

/-- Whether an operation's cell has ended (R311). -/
def opLate (s : State) (c : Nat) (o : Op) : Bool := (s.core c).cell != o.cell || !(s.core c).live

/-- A launch of this device enters the faulted state (R75): the event, and the ends it still holds are closed. -/
def faultLaunch (id : Nat) (s : State) : State :=
  match s.launches.find? (fun l => l.id = id) with
  | none => s
  | some l =>
    if l.st == .cancelling || l.st == .faulted then s
    else
      let s := l.ends.foldl (fun s e => closeEndAt e.core e.handle 2 s) s
      event { s with launches := s.launches.map (fun x => if x.id = id then { x with st := .faulted, ends := [] } else x),
                     watches := s.watches.filter (fun w => w.launch ≠ id) } l.ctx 0xA3 0 id 0 0

/-- A request to another device's Dealer (log 12). -/
def dealerPkt (dev code : Nat) (args : List Nat) : Packet :=
  { port := 32, dst := dev, src := 0, cls := 0, op := 2, seq := 0, wid := 0, key := 0, off := 0, len := 8 * args.length,
    core := 0, det := false, payload := BitVec.ofNat 8 code :: (args.map (leBytes 8)).flatten }

/-- The same for a launch reference as LAUNCHID holds it; the device that holds the launch is told (R75, R77). -/
def faultRef (s : State) (launch : W64) : State :=
  let dev := (fld launch 24 8).toNat
  let id := (fld launch 0 24).toNat
  if dev = s.dev % 256 then faultLaunch id s else sendPkt s 0 (dealerPkt dev 56 [id]) (.other 0)

/-- An operation taken out of its queue with its pins released. -/
def dropPins (c : Nat) (x : TlCtx) (o : Op) (s : State) : State :=
  o.pins.foldl (fun s h => unpin c o.st x o.n h s)
    (s.modCore c (fun k => k.setOps x ((k.opsOf x).filter (fun p => p.n ≠ o.n))))

/-- The tile an abandoned operation was filling has no producer any more (R311): its galleys are free once its
last reference is dropped. -/
def abandonTile (h : W64) (s : State) : State :=
  let c := hCore h
  let f := hFolio h
  let x := s.folio c f
  if isTile h && homeHere s h then
    if x.used && x.gen = hGen h then s.setFolio c f { x with dead := true }
    else
      s.modCore c (fun k => { k with gal := k.gal.foldl (fun m p =>
        if p.2.folio = 16384 + f then mset .init m p.1 { p.2 with busy := false, folio := 0 } else m) k.gal })
  else s

/-- The source of an operation that drains it is let go, here or by a message to its home (R219). -/
def undrain (c : Nat) (o : Op) (s : State) : State :=
  match o.i with
  | .rrot .. =>
    let h := o.args.getD 1 0
    if o.pos = 0 then s
    else if homeHere s h then drainOff h s
    else sendPkt s c (homePkt h 42 []) (.other 32)
  | _ => s

/-- An operation abandoned: counted complete, nothing more written (R97, R311). -/
def abandonOp (c : Nat) (x : TlCtx) (o : Op) (s : State) : State :=
  let s := undrain c o s
  abandonTile (o.args.headD 0) (report c x o.n (dropPins c x o s))

/-- The cause that CE_LATE gives: the underlying one of CE_FAULT. -/
def lateCause (cause : Nat) (info : W64) : W64 := if cause = 0x80 then info &&& 0xFF else w64 cause

/-- A fault of a cell that has ended (R77, R311). -/
def lateFault (c : Nat) (x : TlCtx) (o : Op) (cause : Nat) (addr info : W64) (s : State) : State :=
  let s := abandonOp c x o s
  let s := s.modCore c (fun k => k.setTl x { k.tlOf x with stopped := false, mark := none })
  event (faultRef s o.launch) o.ctx 0x83 c (fld o.launch 0 24).toNat addr (lateCause cause info)

/-- An operation faults (R211): its context is marked and stops at it, or it is settled without a trap. -/
def opFault (c : Nat) (x : TlCtx) (o : Op) (cause : Nat) (addr info : W64) (s : State) : State :=
  if opLate s c o then lateFault c x o cause addr info s else mark c x o.n cause addr info s

/-- CE_FAULT with its underlying cause (R211). -/
def ceFault (c : Nat) (x : TlCtx) (o : Op) (cause : Nat) (addr : W64) (s : State) : State :=
  opFault c x o 0x80 addr (w64 (cause % 256)) s

/-- An operation's flags at its completion (R161, R162): ORed into the FPC of the strand that issued it, and an
enabled one marks the context behind it. -/
def opFlags (c : Nat) (x : TlCtx) (o : Op) (f : Flags) (s : State) : State :=
  if f = 0 || opLate s c o then s
  else
    let s := s.modCore c (fun k => k.modStrand o.st (fun y => { y with fpc := orFlags y.fpc f }))
    match fpCause o.fpc f with
    | none => s
    | some (cause, info) => mark c x 0 cause 0 info s

/-- An operation completes (R86): it unpins, then reports once the unpins are applied. A read part with acq acquires for
its core here (R242). -/
def finishOp (c : Nat) (x : TlCtx) (o : Op) (s : State) : State :=
  report c x o.n (dropPins c x o (if o.attr.o.acqs then acquireAt c o.attr.s s else s))

/-- Whether parts that an operation has posted are not yet acknowledged (R86, R247). -/
def partsOut (s : State) (c : Nat) (x : TlCtx) (n : Nat) : Bool :=
  s.net.outs.any (fun o => match o.why with | .enginePost c' x' n' .. => c' = c && x' = x.idx && n' = n | _ => false)

/-- A choice that the last turn leaves to the engines (log 16). -/
def State.pick (s : State) (b : Nat) : Bool := s.cur.choice / 2 ^ b % 2 = 1

/-- Charged to an operation's class on the issuing core's die (R79). -/
def chargeOp (c : Nat) (o : Op) (res n : Nat) (s : State) : State := s.charge (dieOf c) o.cls res n

/-- Whether an operation may run now: its context is not stopped before it, its pins are counted, the writes of its
core are performed (R209), and its class is not held before it starts (R79). -/
def mayRun (s : State) (c : Nat) (x : TlCtx) (o : Op) : Bool :=
  let k := s.core c
  !(k.tlOf x).stopped && (k.tlOf x).mark.isNone && !pinPending s c x o.n && k.stores.isEmpty && k.freeze = 0 && !k.stopped && !s.tripped &&
    (o.started || !s.held (dieOf c) o.cls)

/-! ### Engine accesses -/

/-- What stops an engine's access: a fault with its address, or a wait. -/
inductive EStop
  | fault (cause : Nat) (addr : W64) (s : State)
  | wait (s : State)
deriving DecidableEq, Repr

abbrev ETry := Except EStop

def eFault {α : Type} (s : State) (cause va : Nat) : ETry α := .error (.fault cause (w64 va) s)

/-- The part of an operation's work under way continues, or what stopped it is settled. -/
def settleOp (c : Nat) (x : TlCtx) (n : Nat) (fault : Op → Nat → W64 → State → State) (r : ETry State) : State :=
  match r with
  | .ok s => s
  | .error (.wait s) => s
  | .error (.fault cause va s) => match opAt s c x n with | some o => fault o cause va s | none => s

/-- The operation as it now stands in its queue. -/
def nowOp (s : State) (c : Nat) (x : TlCtx) (o : Op) : Op := (opAt s c x o.n).getD o

/-- The answers of an operation's requests: sent once, then waited for; a refusal faults with the address `va` gives its
request (R294). -/
def opAsk (s : State) (c : Nat) (x : TlCtx) (o : Op) (va : Nat → Nat) (n : Nat) (send : State → State) :
    ETry (List (List Byte) × State) :=
  let o := nowOp s c x o
  if n = 0 then .ok ([], s)
  else if o.asked = 0 then .error (.wait (setOp c x { o with asked := n, started := true } (send s)))
  else if o.got.length < o.asked then .error (.wait s)
  else
    match firstRefusal o.got with
    | some a => .error (.fault a.cause (w64 (va a.n)) (setOp c x { o with asked := 0, got := [] } s))
    | none => .ok ((List.range n).map (fun i => match o.got.find? (fun a => a.n = i) with | some a => a.bytes | none => []),
        setOp c x { o with asked := 0, got := [] } s)

/-- Per byte, whether memory is poisoned there. -/
def badBytes (gs : List Nat) (pa n : Nat) : List Bool := (List.range n).map (fun i => gs.contains ((pa + i) / 8))

/-- Poisoned data that an engine uses: a fault with the address of the first (R209, R333). -/
def noPoison (s : State) (va : Nat) (ps : List Bool) : ETry Unit :=
  match ps.findIdx? id with
  | some i => eFault s 0xB0 (va + i)
  | none => .ok ()

/-- The translation of an operation's access through the TLBs of its core and cluster (R288). -/
def opEnt (s : State) (c : Nat) (o : Op) (va : Nat) (write : Bool) : ETry TlbEnt :=
  if 0xE000000000000 ≤ va then eFault s 0x20 va
  else
    match ent s c o.ctx va with
    | .error e => eFault s e va
    | .ok e =>
      match permit e.leaf .u write false with
      | some e => eFault s e va
      | none => if lentAway s o.ctx va then eFault s 0x92 va else .ok e

/-- Bytes of memory read for an operation at a page address, in the rights of a U-mode strand. -/
def opPage (s : State) (c : Nat) (o : Op) (va n : Nat) : ETry (List Byte × List Bool × State) := do
  let e ← opEnt s c o va false
  let pa := paOf e va
  let bs := if o.attr.near && s.pick 0 then viaCopies s (s.copies (dieOf c)) pa n else s.bytes pa n
  pure (if o.attr.near then forward (s.seenWrites c (dieOf c) pa n) pa bs else bs, badBytes s.poison pa n, keepEnt s c e)

/-- A part of a range within 4 KiB and outside the windows, read for an operation. -/
def opReadPart (s : State) (c : Nat) (o : Op) (va n : Nat) : ETry (List Byte × List Bool × State) :=
  match regionOf va with
  | .none | .window _ _ => eFault s 0x20 va
  | .tile k off =>
    if lentAway s o.ctx va then eFault s 0x92 va
    else .ok (tileWin s o.ctx k off n, (List.range n).map (fun i => (tileWinBad s o.ctx k (off + i) 1).isSome), s)
  | .page => opPage s c o va n

/-- A contiguous range read for an operation: its bytes and their poison. -/
def opRead (s : State) (c : Nat) (x : TlCtx) (o : Op) (va n : Nat) : ETry (List Byte × List Bool × State) :=
  match regionOf va with
  | .window w off =>
    match winDesc s o.ctx w with
    | .error e => eFault s e va
    | .ok (d, s) =>
      match winCheck d off n true false with
      | .error e => eFault s e va
      | .ok t =>
        if s.net.lost.contains t.dev then eFault s 0x93 va
        else do
          let parts := partsOf (n / 256 + 2) off n
          let (bs, s) ← opAsk s c x o (fun i => va + (parts.getD i (off, 0)).1 - off) parts.length (fun s =>
            parts.zipIdx.foldl (fun s p => sendPkt s c (reqPkt t 0 p.1.1 p.1.2 []) (.engine c x.idx o.n p.2)) s)
          pure (bs.flatten, List.replicate n false, s)
  | _ => do
    let r ← (pagesOf va n).foldlM (fun (a : List Byte × List Bool × State) p => do
      let (bs, ps, s) ← opReadPart a.2.2 c o p.1 p.2
      pure (a.1 ++ bs, a.2.1 ++ ps, s)) (([], [], s) : List Byte × List Bool × State)
    pure (r.1, r.2.1, chargeOp c o 5 n r.2.2)

/-- Poison after a write of bytes with their own poison (R333). -/
def poisonBytes (old : List Nat) (pa : Nat) (ps : List Bool) : List Nat :=
  (ps.zipIdx.filter (·.1)).foldl (fun m p => addSet ((pa + p.2) / 8) m) (poisonAfter old pa ps.length false)

/-- The place of an operation's write at a page address, copy-on-write done. -/
def opPlace (s : State) (c : Nat) (o : Op) (va : Nat) : ETry (Nat × State) := do
  let e ← opEnt s c o va true
  if s.stocks.any (fun r => r.ctx = o.ctx && r.va ≤ va && va < r.va + r.len) then eFault s 0x21 va
  match writeNow s (some e) with
  | .error c => eFault s c va
  | .ok none => .error (.wait s)
  | .ok (some (s, false)) => pure (paOf e va, keepEnt s c e)
  | .ok (some (s, true)) =>
    match walkEnt s o.ctx va with
    | .error e => eFault s e va
    | .ok e => pure (paOf e va, keepEnt s c e)

/-- Posted parts of an operation, sent as the window's limit allows (R296); `asked` counts those gone. -/
def opPost (s : State) (c : Nat) (x : TlCtx) (o : Op) (va w off : Nat) (t : WinTo) (bs : List Byte) : ETry State :=
  let o := nowOp s c x o
  let parts := cutParts (partsOf (bs.length / 256 + 2) off bs.length) off bs
  let limit := vget 256 (s.ctx o.ctx).wallow w
  let out := vget 0 (s.core c).wallowOut w
  let now := (parts.drop o.asked).take (limit - out)
  let s := now.foldl (fun s p =>
    sendPkt (outUp c w s) c
      (reqPkt t 1 p.1 p.2.length p.2) (.enginePost c x.idx o.n w (w64 (va + (p.1 - off))) o.cell o.ctx o.launch)) s
  if o.asked + now.length < parts.length then
    .error (.wait (setOp c x { o with asked := o.asked + now.length, started := true } s))
  else .ok (setOp c x { o with asked := 0 } s)

/-- A contiguous range written for an operation, at its homes (R236). -/
def opWrite (s : State) (c : Nat) (x : TlCtx) (o : Op) (va : Nat) (bs : List Byte) (ps : List Bool) : ETry State :=
  match regionOf va with
  | .window w off =>
    match winDesc s o.ctx w with
    | .error e => eFault s e va
    | .ok (d, s) =>
      match winCheck d off bs.length false true with
      | .error e => eFault s e va
      | .ok t => if s.net.lost.contains t.dev then eFault s 0x93 va else opPost s c x o va w off t bs
  | _ => do
    let places ← (pagesOf va bs.length).foldlM (fun (a : List (Nat × Nat × Nat) × State) p =>
      match regionOf p.1 with
      | .none | .window _ _ => eFault a.2 0x20 p.1
      | .tile _ _ => eFault a.2 0x21 p.1
      | .page => do
        let q ← opPlace a.2 c o p.1
        pure (a.1 ++ [(q.1, p.1 - va, p.2)], q.2)) (([], s) : List (Nat × Nat × Nat) × State)
    let s := places.1.foldl (fun (s : State) q =>
      let s' := performWrite s c q.1 ((bs.drop q.2.1).take q.2.2) false
      { s' with poison := poisonBytes s'.poison q.1 ((ps.drop q.2.1).take q.2.2) }) places.2
    pure (chargeOp c o 5 bs.length s)

/-- Bytes of a tile written by an engine with their poison. -/
def tilePut (c off : Nat) (bs : List Byte) (ps : List Bool) (s : State) : State :=
  (tileWrite s c off bs false).modCore c (fun k => { k with storePoison := poisonBytes k.storePoison off ps })

/-- The rows of an operation from the one it has reached: each row's work, then the next (R211). The turn's choices take
the rows from the last, and let the engine halt behind a row, so that a raw load may meet any part of a fill (R245). -/
def opRows (c : Nat) (x : TlCtx) (rows : Nat) (row : Nat → Op → State → ETry State) : Nat → Nat → State → ETry State
  | 0, _, s => .ok s
  | fuel + 1, n, s =>
    match opAt s c x n with
    | none => .ok s
    | some o =>
      if rows ≤ o.pos then .ok s
      else do
        let s ← row o.pos o s
        let s := setOp c x { nowOp s c x o with pos := o.pos + 1, started := true } s
        if s.pick 6 then pure s else opRows c x rows row fuel n s

/-- The whole operation: its rows, then its end once what it posted is acknowledged (R86). -/
def runRows (c : Nat) (x : TlCtx) (o : Op) (rows : Nat) (row : Nat → Op → State → ETry State) (fin : Op → State → State)
    (s : State) : State :=
  settleOp c x o.n (fun o cause va s => ceFault c x o cause va s) (do
    let s ← opRows c x rows row (rows + 1) o.n s
    pure (match opAt s c x o.n with
      | some o => if rows ≤ o.pos && !partsOut s c x o.n then fin o s else s
      | none => s))

/-- The row an engine takes at place `p` of `rows`. -/
def Op.row (o : Op) (rows p : Nat) : Nat := if o.back then rows - 1 - p else p

/-- The order of an operation's rows chosen as it starts (R245). -/
def startRows (c : Nat) (x : TlCtx) (o : Op) (s : State) : State :=
  if o.started || o.pos ≠ 0 then s else setOp c x { o with back := s.pick 7 } s

end Sys2Proof.Machine
end

