-- ==== Sys2Proof/Machine/Lanes.lean ====
section
/-! DEFINITION. What one lane of a vector instruction computes (R190 to R203), as functions of slots: arithmetic in
the three slot types, comparisons, conversions, log operations, six-bit strings, ranks, combinations. -/

namespace Sys2Proof.Machine

/-! ### Arithmetic (R187, R190 to R192) -/

/-- A result under FPC: the rounded slot with the operation's own flags and the rounding's. -/
def roundFp (fpc : W32) (x : Fv × Flags) : W32 × Flags :=
  let r := rnd32 (rmOf fpc) (ftzOf fpc) x.1
  (r.1, r.2 ||| x.2)

def fpIn (fpc : W32) (w : W32) : Fv := daz32 (dazOf fpc) w
def fpAdd (fpc : W32) (a b : W32) : W32 × Flags := roundFp fpc (fvAdd (rmOf fpc) (fpIn fpc a) (fpIn fpc b))
def fpSub (fpc : W32) (a b : W32) : W32 × Flags := roundFp fpc (fvAdd (rmOf fpc) (fpIn fpc a) (fpIn fpc b).negate)
def fpMul (fpc : W32) (a b : W32) : W32 × Flags := roundFp fpc (fvMul (fpIn fpc a) (fpIn fpc b))
/-- a·b + c with one rounding, the product negated for VFNMA (R190, R191). -/
def fpFma (fpc : W32) (neg : Bool) (a b c : W32) : W32 × Flags :=
  let p := fvMul (fpIn fpc a) (fpIn fpc b)
  let q := if neg then p.1.negate else p.1
  let r := fvAdd (rmOf fpc) q (fpIn fpc c)
  roundFp fpc (r.1, r.2 ||| p.2)

/-- The order of F32 codes that are no NaN, −0 below +0 (R192). -/
def f32Key (w : W32) : Int := if w.getLsbD 31 then -(w.toNat % 2 ^ 31 : Nat) - 1 else w.toNat
def isNan32 (w : W32) : Bool := isNan (f32v w)
/-- R192's minimum, or maximum. -/
def f32Pick (max : Bool) (a b : W32) : W32 :=
  if isNan32 a then (if isNan32 b then nan32 else b)
  else if isNan32 b then a
  else if (f32Key a < f32Key b) == max then b else a
def f32Abs (a : W32) : W32 := if isNan32 a then nan32 else a &&& 0x7FFFFFFF
def f32Neg (a : W32) : W32 := if isNan32 a then nan32 else a ^^^ 0x80000000

/-- A slot as an exact integer of its type. -/
def intOf (t : VTy) (w : W32) : Int := match t with | .n32 => w.toNat | _ => w.toInt
/-- An exact integer in a slot: wrapped, or clamped under SAT (R191). -/
def intRes (t : VTy) (sat : Bool) (x : Int) : W32 :=
  slotOf (if sat then (match t with | .n32 => clampI 0 (2 ^ 32 - 1) x | _ => clampI (-(2 ^ 31)) (2 ^ 31 - 1) x) else x)

/-- The table of R190, by an F32 function and an exact integer one. -/
def laneOp2 (t : VTy) (sat : Bool) (f : W32 → W32 → W32 × Flags) (g : Int → Int → Int) (a b : W32) : W32 × Flags :=
  match t with
  | .f32 => f a b
  | _ => (intRes t sat (g (intOf t a) (intOf t b)), 0)

def laneMin (t : VTy) (a b : W32) : W32 :=
  match t with | .f32 => f32Pick false a b | _ => if intOf t a ≤ intOf t b then a else b
def laneMax (t : VTy) (a b : W32) : W32 :=
  match t with | .f32 => f32Pick true a b | _ => if intOf t a ≤ intOf t b then b else a

/-! ### Comparisons (R195) -/

/-- A condition on two slots, with NV. -/
def laneCmp (fpc : W32) (t : VTy) (cc : VCond) (a b : W32) : Bool × Flags :=
  let by_ (o : Int) : Bool :=
    match cc with
    | .eq => o = 0 | .ne => o ≠ 0 | .lt => o < 0 | .ge => 0 ≤ o | .le => o ≤ 0 | .gt => 0 < o | .un => false
  match t with
  | .f32 =>
    let x := fpIn fpc a
    let y := fpIn fpc b
    if isNan x || isNan y then
      match cc with
      | .ne | .un => (true, 0)
      | .eq => (false, 0)
      | _ => (false, flNV)
    else (by_ (fvCmp x y), 0)
  | _ => (by_ (intOf t a - intOf t b), 0)

/-! ### Conversions (R197) -/

/-- Width and range of an integer type. -/
def intRange (t : Elem) : Int × Int :=
  if isSigned t then (-(2 ^ (ebits t - 1)), 2 ^ (ebits t - 1) - 1) else (0, 2 ^ ebits t - 1)
/-- An integer's low bits in the slot form of a type. -/
def intSlot (t : Elem) (x : Int) : W32 := widen t (x % 2 ^ ebits t).toNat
def isFloatTy (t : Elem) : Bool := t == .f32 || t == .b16 || t == .e8

/-- A float value rounded to a float type in slot form. -/
def toFloat (fpc : W32) (sat : Bool) (t : Elem) (v : Fv) : W32 × Flags :=
  match t with
  | .b16 => let r := rndB16 (rmOf fpc) (ftzOf fpc) v; (b16Slot r.1, r.2)
  | .e8 => let r := e8Flags (ftzOf fpc) (nrw8 (rmOf fpc) sat v); (widen .e8 r.1, r.2)
  | _ => rnd32 (rmOf fpc) (ftzOf fpc) v

/-- A float value rounded to an integer type. -/
def floatToInt (fpc : W32) (sat : Bool) (t : Elem) (v : Fv) : W32 × Flags :=
  let (lo, hi) := intRange t
  match v with
  | .nan => (0, flNV)
  | .inf neg => (if sat then intSlot t (if neg then lo else hi) else 0, flNV)
  | .fin d =>
    let (n, inex) := rndInt (rmOf fpc) d
    if lo ≤ n && n ≤ hi then (intSlot t n, flIf inex flNX)
    else (intSlot t (if sat then clampI lo hi n else n), flNV)

/-- VCVT of a slot. -/
def laneCvt (fpc : W32) (sat : Bool) (dst src : Elem) (w : W32) : W32 × Flags :=
  if isFloatTy src then
    let v := fpIn fpc w
    if isFloatTy dst then toFloat fpc sat dst v else floatToInt fpc sat dst v
  else
    let x : Int := if isSigned src then w.toInt else w.toNat
    if isFloatTy dst then toFloat fpc sat dst (.fin (dyOf false x 0))
    else
      let (lo, hi) := intRange dst
      (intSlot dst (if sat then clampI lo hi x else x), 0)

/-! ### Logs (R198) -/

/-- VLCVT of a slot. -/
def laneLcvt (t : LogTy) (sat : Bool) (w : W32) : W32 × Flags :=
  let r := match t with
    | .l16 => lns16 sat (f32v w)
    | .l8 => let q := lns8 sat (f32v w); (lwiden q.1, q.2)
  (BitVec.ofNat 32 (l16c r.1), flIf (r.2 != .none) flLS)
/-- VLEXP of a slot (R149). -/
def laneLexp (w : W32) : W32 := lin32 (l16v (w.toNat % 65536))
/-- VLMUL of two slots. -/
def laneLmul (t : LogTy) (sat : Bool) (a b : W32) : W32 × Flags :=
  match l16v (a.toNat % 65536), l16v (b.toNat % 65536) with
  | .nar, _ | _, .nar => (0xC000, 0)
  | .zero, _ | _, .zero => (0x4000, 0)
  | .num sa la, .num sb lb =>
    let neg := sa != sb
    let r := match t with
      | .l16 => lrange 16383 sat neg (la + lb)
      | .l8 => let q := lnarrow sat (.num neg (la + lb)); (lwiden q.1, q.2)
    (BitVec.ofNat 32 (l16c r.1), flIf (r.2 != .none) flLS)

/-! ### Six-bit strings (R199) -/

/-- A row's 384-bit string of 64 elements. -/
def string6 (f : Nat → Nat) : Nat := (List.range 64).foldr (fun c acc => f c % 64 + acc * 64) 0
/-- The string held in slots 0 to 11 of a row. -/
def stringOf (f : Nat → W32) : Nat := (List.range 12).foldr (fun j acc => (f j).toNat + acc * 2 ^ 32) 0
/-- A slot's six bits under SAT or wrapped. -/
def pack6 (sat : Bool) (w : W32) : Nat := ((if sat then clampI (-32) 31 w.toInt else w.toInt) % 64).toNat

/-! ### Ranks of 2:4 sparsity (R200) -/

/-- The magnitude by which VCMPR ranks a slot. -/
def rank24 (t : VTy) (w : W32) : Nat :=
  match t with
  | .f32 => if isNan32 w then 2 ^ 32 else w.toNat % 2 ^ 31
  | _ => w.toInt.natAbs

/-- The index of the first of the greatest among `is`. -/
def best (f : Nat → Nat) : List Nat → Nat
  | [] => 0
  | i :: is => is.foldl (fun b j => if f b < f j then j else b) i

/-- The two kept indices of a group, the lower first. -/
def keep24 (f : Nat → Nat) : Nat × Nat :=
  let x := best f [0, 1, 2, 3]
  let y := best f ([0, 1, 2, 3].filter (· ≠ x))
  (Nat.min x y, Nat.max x y)

/-! ### Reductions (R203) -/

/-- One combination of two values. -/
def redOp (fpc : W32) (t : VTy) (op : RedOp) (a b : W32) : W32 × Flags :=
  match op with
  | .add => (match t with | .f32 => fpAdd fpc a b | _ => (a + b, 0))
  | .min => (laneMin t a b, 0)
  | .max => (laneMax t a b, 0)
  | .and => (a &&& b, 0)
  | .or => (a ||| b, 0)
  | .xor => (a ^^^ b, 0)

/-- The identity written for an absent result. -/
def redId (t : VTy) (op : RedOp) : W32 :=
  match op, t with
  | .min, .f32 => 0x7F800000 | .min, .i32 => 0x7FFFFFFF | .min, .n32 => 0xFFFFFFFF
  | .max, .f32 => 0xFF800000 | .max, .i32 => 0x80000000
  | .and, _ => 0xFFFFFFFF
  | _, _ => 0

/-- A node of a reduction: a value or none, with the flags so far. -/
abbrev Node := Option W32 × Flags

/-- comb of R203. -/
def comb (fpc : W32) (t : VTy) (op : RedOp) (x y : Node) : Node :=
  match x.1, y.1 with
  | some a, some b => let r := redOp fpc t op a b; (some r.1, x.2 ||| y.2 ||| r.2)
  | some a, none => (some a, x.2 ||| y.2)
  | none, b => (b, x.2 ||| y.2)

/-- One level of the tree. -/
def pairUp {α : Type} (f : α → α → α) : List α → List α
  | a :: b :: l => f a b :: pairUp f l
  | l => l

/-- The tree over `2^n` nodes. -/
def treeTop (f : Node → Node → Node) : Nat → List Node → Node
  | 0, l => l.headD (none, 0)
  | n + 1, l => treeTop f n (pairUp f l)

/-- The scan along one row: the outputs in order, with the flags of all. -/
def scanRow (f : Node → Node → Node) (excl : Bool) : Node → List Node → List Node
  | _, [] => []
  | acc, x :: l =>
    let acc' := f acc x
    (if excl then acc else acc') :: scanRow f excl acc' l

end Sys2Proof.Machine
end

