-- ==== Sys2Proof/Machine/Vector.lean ====
section
/-! DEFINITION. EXE's vector instructions (R184 to R205). -/

namespace Sys2Proof.Machine

/-- Slot `l` of V register `v` of the issuing core. -/
def State.slot (s : State) (v : BitVec 9) (l : Nat) : W32 := mget 0 (s.me.rV v.toNat) l

/-- A vector instruction over the registers it names (R186). -/
def runVec (c : Clause) (vs : List (BitVec 9)) (s : State) (b : State → Try State) : Res :=
  runWide c s (fun s => do
    vecOk s (vs.map (·.toNat))
    b s)

/-- A V register written whole from a function of the lane. -/
def putV (vd : BitVec 9) (f : Nat → W32) (s : State) : State := s.modMe (fun k => k.wV vd.toNat (mofFn 0 f 0 1024))

/-- The selected lanes of a V register written, with their flags (R185, R187). -/
def lanes (k : BitVec 3) (vd : BitVec 9) (f : Nat → W32 × Flags) (s : State) : Try State :=
  let m := s.me.rK k
  let old := s.me.rV vd.toNat
  raise s ((List.range 1024).foldl (fun (a : Flags) l => if m.getLsbD l then a ||| (f l).2 else a) 0)
    (putV vd (fun l => if m.getLsbD l then (f l).1 else mget 0 old l) s)

/-- The selected lanes written by a function that raises nothing. -/
def lanesQuiet (k : BitVec 3) (vd : BitVec 9) (f : Nat → W32) (s : State) : State :=
  let m := s.me.rK k
  let old := s.me.rV vd.toNat
  putV vd (fun l => if m.getLsbD l then f l else mget 0 old l) s

/-- A mask from a function of the lane. -/
def maskOf (f : Nat → Bool) : BitVec 1024 :=
  BitVec.ofNat 1024 ((List.range 1024).foldr (fun l acc => (if f l then 1 else 0) + 2 * acc) 0)

/-! ### Arithmetic (R190 to R192) -/

/-- An instruction of two sources. -/
def vec2 (c : Clause) (k : BitVec 3) (vd va vb : BitVec 9) (f : W32 → W32 → W32 → W32 × Flags) (s : State) : Res :=
  runVec c [vd, va, vb] s (fun s => lanes k vd (fun l => f s.fpcNow (s.slot va l) (s.slot vb l)) s)
/-- An instruction of one source. -/
def vec1 (c : Clause) (k : BitVec 3) (vd va : BitVec 9) (f : W32 → W32 → W32 × Flags) (s : State) : Res :=
  runVec c [vd, va] s (fun s => lanes k vd (fun l => f s.fpcNow (s.slot va l)) s)

def execVadd (c : Clause) (t : VTy) (k : BitVec 3) (sat : Bool) (vd va vb : BitVec 9) (s : State) : Res :=
  vec2 c k vd va vb (fun f => laneOp2 t sat (fpAdd f) (· + ·)) s
def execVsub (c : Clause) (t : VTy) (k : BitVec 3) (sat : Bool) (vd va vb : BitVec 9) (s : State) : Res :=
  vec2 c k vd va vb (fun f => laneOp2 t sat (fpSub f) (· - ·)) s
def execVmul (c : Clause) (t : VTy) (k : BitVec 3) (sat : Bool) (vd va vb : BitVec 9) (s : State) : Res :=
  vec2 c k vd va vb (fun f => laneOp2 t sat (fpMul f) (· * ·)) s

/-- a·b + c or c − a·b (R190). -/
def vecFma (c : Clause) (t : VTy) (k : BitVec 3) (sat neg : Bool) (vd va vb vc : BitVec 9) (s : State) : Res :=
  runVec c [vd, va, vb, vc] s (fun s => lanes k vd (fun l =>
    let x := s.slot va l
    let y := s.slot vb l
    let z := s.slot vc l
    match t with
    | .f32 => fpFma s.fpcNow neg x y z
    | _ => (intRes t sat (if neg then intOf t z - intOf t x * intOf t y else intOf t x * intOf t y + intOf t z), 0)) s)
def execVfma (c : Clause) (t : VTy) (k : BitVec 3) (sat : Bool) (vd va vb vc : BitVec 9) (s : State) : Res :=
  vecFma c t k sat false vd va vb vc s
def execVfnma (c : Clause) (t : VTy) (k : BitVec 3) (sat : Bool) (vd va vb vc : BitVec 9) (s : State) : Res :=
  vecFma c t k sat true vd va vb vc s
def execVmin (c : Clause) (t : VTy) (k : BitVec 3) (vd va vb : BitVec 9) (s : State) : Res :=
  vec2 c k vd va vb (fun _ x y => (laneMin t x y, 0)) s
def execVmax (c : Clause) (t : VTy) (k : BitVec 3) (vd va vb : BitVec 9) (s : State) : Res :=
  vec2 c k vd va vb (fun _ x y => (laneMax t x y, 0)) s
def execVabs (c : Clause) (t : VTy) (k : BitVec 3) (sat : Bool) (vd va : BitVec 9) (s : State) : Res :=
  vec1 c k vd va (fun _ x => (match t with | .f32 => f32Abs x | _ => intRes t sat (intOf t x).natAbs, 0)) s
def execVneg (c : Clause) (t : VTy) (k : BitVec 3) (sat : Bool) (vd va : BitVec 9) (s : State) : Res :=
  vec1 c k vd va (fun _ x => (match t with | .f32 => f32Neg x | _ => intRes t sat (-intOf t x), 0)) s

/-! ### Reciprocal, root, power, logarithm (R194) -/

def execVrcp (c : Clause) (k : BitVec 3) (vd va : BitVec 9) (s : State) : Res :=
  vec1 c k vd va (fun f x => fRcp (rmOf f) (ftzOf f) (fpIn f x)) s
def execVrsq (c : Clause) (k : BitVec 3) (vd va : BitVec 9) (s : State) : Res :=
  vec1 c k vd va (fun f x => fRsq (rmOf f) (ftzOf f) (fpIn f x)) s
def execVexp2 (c : Clause) (k : BitVec 3) (vd va : BitVec 9) (s : State) : Res :=
  vec1 c k vd va (fun f x => fExp2 (rmOf f) (ftzOf f) (fpIn f x)) s
def execVlog2 (c : Clause) (k : BitVec 3) (vd va : BitVec 9) (s : State) : Res :=
  vec1 c k vd va (fun f x => fLog2 (rmOf f) (ftzOf f) (fpIn f x)) s

/-! ### Compare, select, move (R195, R196) -/

def execVcmp (c : Clause) (t : VTy) (cc : VCond) (k kd : BitVec 3) (va vb : BitVec 9) (s : State) : Res :=
  runVec c [va, vb] s (fun s =>
    let m := s.me.rK k
    let f (l : Nat) : Bool × Flags := laneCmp s.fpcNow t cc (s.slot va l) (s.slot vb l)
    raise s ((List.range 1024).foldl (fun (a : Flags) l => if m.getLsbD l then a ||| (f l).2 else a) 0)
      (s.modMe (fun x => x.wK kd (maskOf (fun l => m.getLsbD l && (f l).1)))))

def execVsel (c : Clause) (k : BitVec 3) (vd va vb : BitVec 9) (s : State) : Res :=
  runVec c [vd, va, vb] s (always (fun s =>
    putV vd (fun l => if (s.me.rK k).getLsbD l then s.slot va l else s.slot vb l) s))
def execVmov (c : Clause) (k : BitVec 3) (vd va : BitVec 9) (s : State) : Res :=
  runVec c [vd, va] s (always (fun s => lanesQuiet k vd (s.slot va) s))

/-! ### Logic and shifts (R193) -/

def execVand (c : Clause) (k : BitVec 3) (vd va vb : BitVec 9) (s : State) : Res :=
  vec2 c k vd va vb (fun _ x y => (x &&& y, 0)) s
def execVor (c : Clause) (k : BitVec 3) (vd va vb : BitVec 9) (s : State) : Res :=
  vec2 c k vd va vb (fun _ x y => (x ||| y, 0)) s
def execVxor (c : Clause) (k : BitVec 3) (vd va vb : BitVec 9) (s : State) : Res :=
  vec2 c k vd va vb (fun _ x y => (x ^^^ y, 0)) s

/-- A shift by each lane's amount or by an immediate. -/
def vecShift (c : Clause) (k : BitVec 3) (vd va : BitVec 9) (n : VShift) (f : W32 → Nat → W32) (s : State) : Res :=
  match n with
  | .reg vb => vec2 c k vd va vb (fun _ x y => (f x (y.toNat % 32), 0)) s
  | .imm i => vec1 c k vd va (fun _ x => (f x i.toNat, 0)) s
def execVshl (c : Clause) (k : BitVec 3) (vd va : BitVec 9) (n : VShift) (s : State) : Res :=
  vecShift c k vd va n (fun x i => x <<< i) s
def execVshr (c : Clause) (k : BitVec 3) (vd va : BitVec 9) (n : VShift) (s : State) : Res :=
  vecShift c k vd va n (fun x i => x >>> i) s
def execVsra (c : Clause) (k : BitVec 3) (vd va : BitVec 9) (n : VShift) (s : State) : Res :=
  vecShift c k vd va n (fun x i => x.sshiftRight i) s

/-! ### Between A registers and lanes (R205) -/

def execVmovi (c : Clause) (vd : BitVec 9) (src : MoviSrc) (s : State) : Res :=
  runVec c [vd] s (always (fun s =>
    let x : W32 := match src with | .reg a => (s.rA a).setWidth 32 | .imm i => i.signExtend 32
    putV vd (fun _ => x) s))
def execViota (c : Clause) (vd : BitVec 9) (a : BitVec 5) (step : BitVec 24) (s : State) : Res :=
  runVec c [vd] s (always (fun s =>
    let x : W32 := (s.rA a).setWidth 32
    putV vd (fun l => x + slotOf (step.toInt * l)) s))
def execVtoa (c : Clause) (ad : BitVec 5) (va : BitVec 9) (row : BitVec 4) (col : BitVec 6) (sext : Bool) (s : State) : Res :=
  runVec c [va] s (always (fun s =>
    let x := s.slot va (lane row.toNat col.toNat)
    s.wA ad (if sext then sext64 x else x.setWidth 64)))
def execAtov (c : Clause) (vd : BitVec 9) (a : BitVec 5) (row : BitVec 4) (col : BitVec 6) (s : State) : Res :=
  runVec c [vd] s (always (fun s =>
    s.modMe (fun k => k.wV vd.toNat (mset 0 (k.rV vd.toNat) (lane row.toNat col.toNat) ((s.rA a).setWidth 32)))))

/-! ### Conversions and logs (R197, R198) -/

def execVcvt (c : Clause) (dst src : Elem) (k : BitVec 3) (sat : Bool) (vd va : BitVec 9) (s : State) : Res :=
  vec1 c k vd va (fun f x => laneCvt f sat dst src x) s
def execVlcvt (c : Clause) (t : LogTy) (k : BitVec 3) (sat : Bool) (vd va : BitVec 9) (s : State) : Res :=
  vec1 c k vd va (fun _ x => laneLcvt t sat x) s
def execVlexp (c : Clause) (_ : LogTy) (k : BitVec 3) (vd va : BitVec 9) (s : State) : Res :=
  vec1 c k vd va (fun _ x => (laneLexp x, 0)) s
def execVlmul (c : Clause) (t : LogTy) (k : BitVec 3) (sat : Bool) (vd va vb : BitVec 9) (s : State) : Res :=
  vec2 c k vd va vb (fun _ x y => laneLmul t sat x y) s

/-! ### Packing and sparsity (R199 to R201) -/

/-- A V register written row by row, each row's work done once. -/
def putRows {α : Type} (vd : BitVec 9) (row : Nat → α) (d : α) (f : α → Nat → W32) (s : State) : State :=
  let rs := (List.range 16).map row
  putV vd (fun l => f (rs.getD (l / 64) d) (l % 64)) s

def execVpack6 (c : Clause) (sat : Bool) (vd va : BitVec 9) (s : State) : Res :=
  runVec c [vd, va] s (always (fun s =>
    putRows vd (fun r => string6 (fun i => pack6 sat (s.slot va (lane r i)))) 0
      (fun p i => if i < 12 then BitVec.ofNat 32 (p / 2 ^ (32 * i)) else 0) s))
def execVunpk6 (c : Clause) (vd va : BitVec 9) (s : State) : Res :=
  runVec c [vd, va] s (always (fun s =>
    putRows vd (fun r => stringOf (fun j => s.slot va (lane r j))) 0 (fun p i => slotOf (sextN 6 (p / 2 ^ (6 * i)))) s))

/-- Kept value `j` of a row: its column. -/
def kept (t : VTy) (s : State) (va : BitVec 9) (r j : Nat) : Nat :=
  let g := j / 2
  let p := keep24 (fun i => rank24 t (s.slot va (lane r (4 * g + i))))
  if j % 2 = 0 then p.1 else p.2

def execVcmpr (c : Clause) (t : VTy) (kd : BitVec 3) (vd va : BitVec 9) (s : State) : Res :=
  runVec c [vd, va] s (always (fun s =>
    let m := maskOf (fun l => kept t s va (l / 64) (l % 64 / 2) / 2 ^ (l % 2) % 2 = 1)
    (putV vd (fun l => if l % 64 < 32 then s.slot va (lane (l / 64) (4 * (l % 64 / 2) + kept t s va (l / 64) (l % 64))) else 0)
      s).modMe (·.wK kd m)))

/-- The index that VEXPD's metadata gives kept value `j` of a row. -/
def metaIdx (m : BitVec 1024) (r j : Nat) : Nat :=
  (if m.getLsbD (lane r (2 * j)) then 1 else 0) + (if m.getLsbD (lane r (2 * j + 1)) then 2 else 0)

def execVexpd (c : Clause) (k : BitVec 3) (vd va : BitVec 9) (s : State) : Res :=
  runVec c [vd, va] s (always (fun s =>
    let m := s.me.rK k
    putV vd (fun l =>
      let r := l / 64
      let g := l % 64 / 4
      let i := l % 4
      if metaIdx m r (2 * g + 1) = i then s.slot va (lane r (2 * g + 1))
      else if metaIdx m r (2 * g) = i then s.slot va (lane r (2 * g))
      else 0) s))

/-! ### Rotates and broadcasts (R202) -/

/-- Each selected lane receives a lane of the source. -/
def vecMove (c : Clause) (k : BitVec 3) (vd va : BitVec 9) (from_ : Nat → Nat → Nat × Nat) (s : State) : Res :=
  runVec c [vd, va] s (always (fun s => lanesQuiet k vd (fun l =>
    let p := from_ (l / 64) (l % 64)
    s.slot va (lane p.1 p.2)) s))
def execVrotr (c : Clause) (k : BitVec 3) (vd va : BitVec 9) (n : BitVec 6) (s : State) : Res :=
  vecMove c k vd va (fun r i => (r, (i + 64 - n.toNat) % 64)) s
def execVrotc (c : Clause) (k : BitVec 3) (vd va : BitVec 9) (n : BitVec 4) (s : State) : Res :=
  vecMove c k vd va (fun r i => ((r + 16 - n.toNat) % 16, i)) s
def execVbcr (c : Clause) (k : BitVec 3) (vd va : BitVec 9) (n : BitVec 6) (s : State) : Res :=
  vecMove c k vd va (fun r _ => (r, n.toNat)) s
def execVbcc (c : Clause) (k : BitVec 3) (vd va : BitVec 9) (n : BitVec 4) (s : State) : Res :=
  vecMove c k vd va (fun _ i => (n.toNat, i)) s

/-! ### Reductions and the scan (R203) -/

/-- A lane as an input node, absent where the mask leaves it out. -/
def nodeOf (s : State) (k : BitVec 3) (va : BitVec 9) (r i : Nat) : Node :=
  (if (s.me.rK k).getLsbD (lane r i) then some (s.slot va (lane r i)) else none, 0)

/-- A reduction's results written and their flags raised. -/
def redDone (vd : BitVec 9) (t : VTy) (op : RedOp) (ns : List Node) (at_ : Nat → Nat) (s : State) : Try State :=
  raise s (ns.foldl (fun (a : Flags) n => a ||| n.2) 0)
    (putV vd (fun l => ((ns.getD (at_ l) (none, 0)).1).getD (redId t op)) s)

def execVredr (c : Clause) (t : VTy) (op : RedOp) (k : BitVec 3) (vd va : BitVec 9) (s : State) : Res :=
  runVec c [vd, va] s (fun s => redDone vd t op ((List.range 16).map (fun r =>
    treeTop (comb s.fpcNow t op) 6 ((List.range 64).map (nodeOf s k va r)))) (· / 64) s)
def execVredc (c : Clause) (t : VTy) (op : RedOp) (k : BitVec 3) (vd va : BitVec 9) (s : State) : Res :=
  runVec c [vd, va] s (fun s => redDone vd t op ((List.range 64).map (fun i =>
    treeTop (comb s.fpcNow t op) 4 ((List.range 16).map (fun r => nodeOf s k va r i)))) (· % 64) s)
/-- The flags of a scan are those of its every combination: the accumulator's at the end of each row. -/
def execVscnr (c : Clause) (t : VTy) (op : RedOp) (excl : Bool) (k : BitVec 3) (vd va : BitVec 9) (s : State) : Res :=
  runVec c [vd, va] s (fun s =>
    let f := comb s.fpcNow t op
    let rows := (List.range 16).map (fun r => (List.range 64).map (nodeOf s k va r))
    let outs := (rows.map (scanRow f excl (none, 0))).flatten
    let fl : Flags := rows.foldl (fun (a : Flags) r => a ||| (r.foldl f (none, 0)).2) 0
    raise s fl (putV vd (fun l => ((outs.getD l (none, 0)).1).getD (redId t op)) s))

/-! ### Masks (R204) -/

def execKop (c : Clause) (op : KOpc) (kd ka kb : BitVec 3) (s : State) : Res :=
  runWide c s (always (fun s =>
    let x := s.me.rK ka
    let y := s.me.rK kb
    s.modMe (·.wK kd (match op with
      | .and => x &&& y | .or => x ||| y | .xor => x ^^^ y | .andn => x &&& ~~~y | .not => ~~~x))))
def execKmov (c : Clause) (kd : BitVec 3) (src : KSrc) (s : State) : Res :=
  runWide c s (always (fun s => s.modMe (·.wK kd (match src with
    | .copy ka => s.me.rK ka | .ones => BitVec.allOnes 1024 | .zeros => 0))))

end Sys2Proof.Machine
end

