-- ==== Sys2Proof/Machine/Fetch.lean ====
section
/-! DEFINITION. FET's loads, gathers, hints, rotation and masks, the copy engines and the collectives (R206 to R220,
R226 to R231), with the steps by which their asynchronous operations complete. -/

namespace Sys2Proof.Machine

/-! ### Shapes and their checks (R16, R208) -/

/-- A shape word: rows, columns, stride. -/
structure Shape where
  rows : Nat
  cols : Nat
  stride : Nat
deriving DecidableEq, Repr

def shapeIn (s : State) (idx : BitVec 5) : Shape :=
  let w := s.rA idx
  ⟨(fld w 0 16).toNat, (fld w 16 16).toNat, (fld w 32 32).toNat⟩

/-- The effective address of a MEM word. -/
def memEa (s : State) (base : BitVec 5) (off : BitVec 20) : W64 := s.rA base + sext64 off

/-- SHAPE_BAD: the shape, the stride where it counts, and the register block from `blk` of `rows` by `cols`. -/
def shapeCheck (s : State) (t : Elem) (sh : Shape) (stride : Bool) (blk : Option (Nat × Nat × Nat)) : Try Unit :=
  trapIf s (!shapeOk t sh.rows sh.cols || (stride && 1 < sh.rows && sh.stride < rowBytes t sh.cols) ||
    (match blk with | some (b, r, c) => !blockOk b r c | none => false)) 0x37

/-- The bytes from the address to the end of the last row. -/
def Shape.span (sh : Shape) (t : Elem) : Nat := (sh.rows - 1) * sh.stride + rowBytes t sh.cols

/-- MISALIGNED and WIN_STRADDLE. -/
def rangeCheck (s : State) (t : Elem) (sh : Shape) (va : W64) : Try Unit := do
  if va.toNat % ealign t ≠ 0 || (1 < sh.rows && sh.stride % ealign t ≠ 0) then trapAt s 0x24 va
  if straddles s s.me.ctxOf va.toNat (sh.span t) then trapAt s 0x27 va

/-- The ranges of a shape's rows from an address. -/
def rowRanges (t : Elem) (sh : Shape) (va : Nat) : List (Nat × Nat) :=
  (List.range sh.rows).map (fun r => (va + r * sh.stride, rowBytes t sh.cols))

/-- What an operation keeps of a tile it fills or drains: place and size. -/
def tileArgs (x : Folio) : List W64 := [w64 x.rows, w64 x.cols, w64 x.first, w64 x.ngal]
def Op.arg (o : Op) (i : Nat) : Nat := (o.args.getD i 0).toNat

/-- Whether the tile an operation fills still has its record (R93). -/
def fillsLive (s : State) (o : Op) : Bool :=
  let h := o.args.headD 0
  let x := s.folio (hCore h) (hFolio h)
  x.used && x.gen = hGen h

/-- The end of a fill: the tile FULL, then the operation complete (R86, R93). -/
def endFill (c : Nat) (x : TlCtx) (first ngal : Nat) (o : Op) (s : State) : State :=
  let h := o.args.headD 0
  finishOp c x o (fillDone (hCore h) (hFolio h) (hGen h) first ngal s)

/-! ### LDT (R212) -/

def execLdt (c : Clause) (t : Elem) (hd : BitVec 6) (base idx : BitVec 5) (off : BitVec 20) (s : State) : Res :=
  runWide c s (fun s => do
    raiseMark .fa s
    let sh := shapeIn s idx
    let va := memEa s base off
    shapeCheck s t sh true none
    rangeCheck s t sh va
    destFree s hd none
    match newTile s.cur.core s.me.ctxOf t sh.rows sh.cols .filling false false s with
    | none => trap s 0x40
    | some (f, s) =>
      let h := handleOf s s.cur.core f
      issueOp .fa (.ldt c t hd base idx off) ([h, va, w64 sh.stride] ++ tileArgs (s.folio s.cur.core f)) [] [] (s.wH hd h))

/-- A row of a fill: read raw from memory into the tile, or discarded. -/
def fillRow (c : Nat) (t : Elem) (p : Nat) (o : Op) (s : State) : ETry State := do
  let n := rowBytes t (o.arg 4)
  let r := o.row (o.arg 3) p
  if o.arg 1 % ealign t ≠ 0 then eFault s 0x24 (o.arg 1)
  let (bs, ps, s) ← opRead s c .fa o (o.arg 1 + r * o.arg 2) n
  pure (if fillsLive s o then tilePut (hCore (o.args.headD 0)) (16384 * o.arg 5 + r * n) bs ps s else s)

/-- An LDT's or preload's fill (R66, R212). -/
def execTileFillComplete (core n : Nat) (s : State) : Res :=
  match opAt s core .fa n with
  | none => .next s
  | some o =>
    match o.i with
    | .ldt _ t .. =>
      if mayRun s core .fa o then
        .next (runRows core .fa o (o.arg 3) (fillRow core t)
          (fun o s => endFill core .fa (o.arg 5) (o.arg 6) o s) (startRows core .fa o s))
      else .next s
    | _ => .next s

/-! ### LDV, LDVA, LDVT (R213, R214) -/

/-- A block of registers loaded from memory; `trans` puts element (i, j) at (j, i). -/
def loadBlock (c : Clause) (t : Elem) (trans : Bool) (vd : BitVec 9) (base idx : BitVec 5) (off : BitVec 20) (s : State) :
    Res :=
  runWide c s (fun s => do
    let sh := shapeIn s idx
    let va := memEa s base off
    let rows := if trans then sh.cols else sh.rows
    let cols := if trans then sh.rows else sh.cols
    shapeCheck s t sh true (some (vd.toNat, rows, cols))
    rangeCheck s t sh va
    vecOk s (blockRegs vd.toNat rows cols)
    let (bs, s) ← readRanges s (rowRanges t sh va.toNat)
    let xs := bs.map (unpackRow t sh.cols)
    let at_ (r k : Nat) : W32 := widen t ((xs.getD r []).getD k 0)
    pure (s.modMe (fillBlock vd.toNat rows cols (zeroOf t) (fun r k => if trans then at_ k r else at_ r k))))

def execLdv (c : Clause) (t : Elem) (vd : BitVec 9) (base idx : BitVec 5) (off : BitVec 20) (s : State) : Res :=
  loadBlock c t false vd base idx off s
def execLdva (c : Clause) (t : Elem) (vd : BitVec 9) (base idx : BitVec 5) (off : BitVec 20) (s : State) : Res :=
  loadBlock c t true vd base idx off s

/-- The tile element that LDVT puts in slot (r, c). -/
def ldvtAt (m : LdvtMode) (row0 col0 r c : Nat) : Nat × Nat :=
  match m with
  | .direct => (row0 + r, col0 + c)
  | .trans => (row0 + c, col0 + r)
  | .stack => (row0 + 16 * (c / 4) + r, col0 + c % 4)

/-- A tile of a given format read by the issuing instruction, on this device or elsewhere: its record and bytes; `bad` is
the instruction's own SHAPE_BAD. -/
def readTile (s : State) (h : W64) (t : Elem) (bad : Bool) : Try (Folio × (Nat → Byte)) := do
  checkTile s h (handleBits h 0)
  let x ← readRecord s h
  trapIf s (x.fmt != t) 0x43
  trapIf s bad 0x37
  if homeHere s h then
    waitFilled s h
    pure (x, fun j => mget 0 (s.core (hCore h)).store (16384 * x.first + j))
  else
    if x.state == .filling then .error (.wait (s.modMy (fun y => { y with asked := 0, got := [] })))
    let bs ← farContents s h 1 x.bytes
    pure (x, fun j => bs.getD j 0)

def execLdvt (c : Clause) (t : Elem) (vd : BitVec 9) (h : BitVec 6) (row0 col0 : BitVec 9) (mode : LdvtMode) (packed : Bool)
    (s : State) : Res :=
  runWide c s (fun s => do
    let hv := s.rH h
    let (x, get) ← readTile s hv t (packed && (mode != .direct || col0.toNat % 4 ≠ 0))
    vecOk s [vd.toNat]
    let raw (r k : Nat) : Nat := if r < x.rows && k < x.cols then elemAt get t (r * x.cols + k) else 0
    let src (l : Nat) : Nat × Nat := ldvtAt mode row0.toNat col0.toNat (l / 64) (l % 64)
    if homeHere s hv && !(s.core (hCore hv)).storePoison.isEmpty then
      match (List.range 1024).find? (fun l =>
        let p := src l
        p.1 < x.rows && p.2 < x.cols && elemBad s (hCore hv) x (p.1 * x.cols + p.2)) with
      | none => pure ()
      | some l => trapBad s 0 (tileBank (16384 * x.first + ebits x.fmt * ((src l).1 * x.cols + (src l).2) / 8))
    pure (putV vd (fun l =>
      if packed then
        if l % 64 < 12 then
          BitVec.ofNat 32 (string6 (fun k => raw (row0.toNat + l / 64) (col0.toNat + k)) / 2 ^ (32 * (l % 64)))
        else 0
      else
        let p := src l
        if p.1 < x.rows && p.2 < x.cols then widen t (raw p.1 p.2) else zeroOf t) s))

/-! ### GATH and BTGATH (R215 to R217) -/

/-- The selected lanes. -/
def selected (s : State) (k : BitVec 3) : List Nat := let m := s.me.rK k; (List.range 1024).filter (fun l => m.getLsbD l)

/-- A lane's address (R215). -/
def laneEa (s : State) (t : Elem) (ab : BitVec 5) (va : BitVec 9) (l : Nat) : W64 :=
  s.rA ab + w64i ((s.slot va l).toInt * (ebits t / 8 : Nat))

/-- Lanes written from their elements. -/
def putLanes (t : Elem) (vd : BitVec 9) (vals : List (Nat × List Byte)) (s : State) : State :=
  let old := s.me.rV vd.toNat
  s.modMe (fun k => k.wV vd.toNat (vals.foldl (fun m p => mset 0 m p.1 (widen t (leNat p.2))) old))

def execGath (c : Clause) (t : Elem) (k : BitVec 3) (vd va : BitVec 9) (ab : BitVec 5) (s : State) : Res :=
  runWide c s (fun s => do
    vecOk s [vd.toNat, va.toNat]
    let ls := selected s k
    let eas := ls.map (laneEa s t ab va)
    let (bs, s) ← readRanges s (eas.map (fun a => (a.toNat, ebits t / 8))) (ealign t)
    pure (putLanes t vd (ls.zip bs) s))

/-- The token of each row, if it names one (R216). -/
def tokens (s : State) (va : BitVec 9) : List (Option Nat) :=
  (List.range 16).map (fun r => let t := s.slot va (64 * r); if t = 0xFFFFFFFF then none else some t.toNat)

/-- Block numbers kept in the block translation buffer where the turn chooses so (R217, log 16). -/
def keepBlocks (es : List (Nat × Nat)) (s : State) : State :=
  if s.choice 1 then
    s.modMe (fun k => { k with btb := (es ++ k.btb.filter (fun p => !es.any (·.1 = p.1))).take 64 })
  else s

/-- What an instruction has learnt before it asks again stays with it as an answer of its own, number 4096 + the answers
used: those, and the bytes. -/
def keepLearnt (n : Nat) (bs : List Byte) (s : State) : State :=
  s.modMy (fun x => { x with opt := if x.asked = 0 then s.cur.choice else x.opt, asked := n + 1,
                             got := x.got ++ [⟨4096 + n, bs, 0⟩] })

/-- The block numbers of the rows' tokens, as bytes, and the answers used: from the table, or from the buffer where the turn
chooses it (R216, R217). -/
def tableRead (s : State) (aT : W64) (toks : List (Option Nat)) : Try (List Byte × State × Nat) := do
  match s.my.got.find? (fun a => s.my.asked ≠ 0 && 4096 ≤ a.n) with
  | some a => pure (a.bytes, s, a.n - 4096 + 1)
  | none =>
    let entry (t : Nat) : Nat := (aT + w64 (4 * (t / 16))).toNat
    let held := if s.choice 0 then s.me.btb else []
    let want := (toks.filterMap (Option.map entry)).eraseDups.filter (fun a => (look a held).isNone)
    let (bs, s, n) ← readSome s 0 (want.map (fun a => (a, 4)))
    let got := want.zip (bs.map leNat)
    let block (t : Nat) : Nat := ((look (entry t) held).orElse (fun _ => look (entry t) got)).getD 0
    let all := (toks.map (fun o => leBytes 4 (match o with | none => 0xFFFFFFFF | some t => block t))).flatten
    pure (all, keepLearnt n all (keepBlocks got s), n + 1)

def execBtgath (c : Clause) (t : Elem) (k : BitVec 3) (vd va : BitVec 9) (aT aP : BitVec 5) (s : State) : Res :=
  runWide c s (fun s => do
    let e := ebits t / 8
    let w := s.rA (aP + 1)
    let pool := s.rA aP
    let stride := (fld w 0 32).toNat
    let first := (fld w 32 16).toNat
    if pool.toNat % e ≠ 0 || stride % e ≠ 0 || first % e ≠ 0 then trapAt s 0x24 pool
    trapIf s (fld w 48 16 != 0) 0x37
    if (s.rA aT).toNat % 4 ≠ 0 then trapAt s 0x24 (s.rA aT)
    vecOk s [vd.toNat, va.toNat]
    let s := acqPart s s.attr
    let toks := tokens s va
    let (tab, s, n) ← tableRead s (s.rA aT) toks
    let block (r : Nat) : Nat := leNat ((tab.drop (4 * r)).take 4)
    let ls := selected s k
    let ea (l : Nat) : Option W64 :=
      match toks.getD (l / 64) none with
      | none => none
      | some t => if block (l / 64) = 0xFFFFFFFF then none
        else some (pool + w64 ((16 * block (l / 64) + t % 16) * stride + (first + l % 64) * e))
    let live := ls.filterMap (fun l => (ea l).map (fun a => (l, a)))
    let (vals, s, _) ← readSome s n (live.map (fun p => (p.2.toNat, e)))
    let s := acqPart s s.attr
    let old := s.me.rV vd.toNat
    let zeros := (ls.filter (fun l => (ea l).isNone)).foldl (fun m l => mset 0 m l (zeroOf t)) old
    pure (putLanes t vd ((live.map (·.1)).zip vals) (s.modMe (fun x => x.wV vd.toNat zeros))))

/-! ### PREF, RROT, LDK (R218 to R220) -/

/-- PREF changes nothing that a program can see. -/
def execPref (c : Clause) (_base : BitVec 5) (_off : BitVec 20) (s : State) : Res := runWide c s (always id)

def execRrot (c : Clause) (hd hs : BitVec 6) (ra : BitVec 5) (s : State) : Res :=
  runWide c s (fun s => do
    raiseMark .fa s
    let h := s.rH hs
    checkTile s h (handleBits h 0)
    let k := s.rA ra
    trapIf s (fld k 7 57 != 0) 0x39
    let x ← readRecord s h
    destFree s hd (some hs)
    let there := (fld k 0 7).toNat
    match newTile there s.me.ctxOf x.fmt x.rows x.cols .filling false false s with
    | none => trap s 0x40
    | some (f, s1) =>
      match takePin .fa ((s.me.tlOf .fa).issued + 1) h s1 with
      | .error (.trap t _) => .error (.trap t s)
      | .error e => .error e
      | .ok s1 =>
        let d := handleOf s1 there f
        let s1 := enqueue s.cur.core .fa (.rrot c hd hs ra) .fet s.fpcNow s.attr ([d, h, w64 x.bytes] ++ tileArgs (s1.folio there f))
          [] [h] s1
        let s1 := giveUp s.cur.core .fet h (inS s) s1
        pure ((if hd = hs then s1 else s1.wH hs 0).wH hd d))

/-- RROT's steps with a source of another device: once it is not FILLING it drains, and its contents come (R94, R219). -/
def rrotFar (core p : Nat) (o : Op) (s : State) : ETry State := do
  let h := o.args.getD 1 0
  if s.net.lost.contains (hDev h) then eFault s 0x3B 0
  if p = 0 then
    let (bs, s) ← opAsk s core .fa o (fun _ => 0) 1 (fun s => sendPkt s core (homePkt h 41 []) (.engine core TlCtx.fa.idx o.n 0))
    if bs.flatten.headD 0 = 1 then .error (.wait s)
    pure s
  else
    let n := (o.arg 2 + 255) / 256
    let (bs, s) ← opAsk s core .fa o (fun _ => 0) n (fun s => (List.range n).foldl (fun s i =>
      sendPkt s core (homePkt h 35 (leBytes 8 (256 * i))) (.engine core TlCtx.fa.idx o.n i)) s)
    let d := o.args.headD 0
    let b := bs.flatten.take (o.arg 2)
    pure (if fillsLive s o then tilePut (hCore d) (16384 * o.arg 5) b (b.map (fun _ => false)) s else s)

/-- RROT's steps with a source of this device: the wait while it is FILLING, then its galleys one by one. -/
def rrotHere (p : Nat) (o : Op) (s : State) : ETry State :=
  let h := o.args.getD 1 0
  let d := o.args.headD 0
  let x := s.folio (hCore h) (hFolio h)
  if p = 0 then (if x.state == .filling then .error (.wait s) else .ok (drainOn (hCore h) (hFolio h) s))
  else
    let g := o.row x.ngal (p - 1)
    .ok (if fillsLive s o then copyGals s (hCore h) (x.first + g) 1 (hCore d) (o.arg 5 + g) else s)

/-- RROT's engine (R219): the source drains while it is copied; the new tile FULL, the source FULL again, the pin
released. -/
def execRrotComplete (core n : Nat) (s : State) : Res :=
  match opAt s core .fa n with
  | none => .next s
  | some o =>
    match o.i with
    | .rrot .. =>
      let h := o.args.getD 1 0
      let fin (o : Op) (s : State) : State := endFill core .fa (o.arg 5) (o.arg 6) o (undrain core o s)
      if !mayRun s core .fa o then .next s
      else if homeHere s h then
        .next (runRows core .fa o ((s.folio (hCore h) (hFolio h)).ngal + 1) rrotHere fin (startRows core .fa o s))
      else .next (runRows core .fa o 2 (rrotFar core) fin s)
    | _ => .next s

def execLdk (c : Clause) (k : BitVec 3) (base : BitVec 5) (off : BitVec 20) (s : State) : Res :=
  runWide c s (fun s => do
    let va := memEa s base off
    if va.toNat % 8 ≠ 0 then trapAt s 0x24 va
    if straddles s s.me.ctxOf va.toNat 128 then trapAt s 0x27 va
    let (bs, s) ← readRanges s [(va.toNat, 128)]
    pure (s.modMe (fun x => x.wK k (BitVec.ofNat 1024 (leNat bs.flatten)))))

/-! ### Copy-engine descriptors (R226, R228, R230) -/

/-- A descriptor of `n` bytes read at issue: CE_DESC where it is misaligned (log 22), its dwords. -/
def readDesc (s : State) (va : W64) (n : Nat) : Try (List W64 × State) := do
  if va.toNat % n ≠ 0 then trapAt s 0x81 va
  let (bs, s) ← readRanges s [(va.toNat, n)]
  let b := bs.flatten
  pure ((List.range (n / 8)).map (fun i => w64 (leNat ((b.drop (8 * i)).take 8))), s)

/-- A signed 48-bit stride. -/
def stride48 (w : W64) : Int := (fld w 0 48).toInt

/-- CEC's descriptor checks (R226). -/
def cecBad (d : List W64) : Bool :=
  let g (i : Nat) : W64 := d.getD i 0
  let w := g 2
  let len := (fld w 0 32).toNat
  let f := (fld w 32 4).toNat
  let lev := (fld w 36 3).toNat
  let e := ebits (elemOf f) / 8
  11 < f || f = 8 || 6 < lev || fld w 39 25 != 0 || g 3 != 0 || len = 0 || 2 ^ 24 < len || len % e ≠ 0 ||
    (g 0).toNat % e ≠ 0 || (g 1).toNat % e ≠ 0 ||
    (List.range lev).any (fun j =>
      let a := g (4 + 2 * j)
      let b := g (5 + 2 * j)
      fld a 48 16 = 0 || fld b 48 16 != 0 || stride48 a % e ≠ 0 || stride48 b % e ≠ 0)

def execCec (c : Clause) (base : BitVec 5) (off : BitVec 20) (s : State) : Res :=
  runWide c s (fun s => do
    raiseMark .fa s
    let va := memEa s base off
    let (d, s) ← readDesc s va 128
    if cecBad d then trapAt s 0x81 va
    relPart s s.attr
    issueOp .fa (.cec c base off) (0 :: d) [] [] s)

/-- The offset of copy `i` by the strides chosen: level 0 varies fastest (R227). -/
def cecOff (o : Op) (pick : Nat) : Nat → Nat → Nat → Int
  | 0, _, _ => 0
  | n + 1, j, i =>
    let cnt := (fld (o.args.getD (5 + 2 * j) 0) 48 16).toNat
    (i % cnt : Nat) * stride48 (o.args.getD (5 + 2 * j + pick) 0) + cecOff o pick n (j + 1) (i / cnt)

/-- Bytes and poison kept between two phases of an operation. -/
def keepBytes (bs : List Byte) (ps : List Bool) : SMap W32 :=
  ((bs.zip ps).zipIdx.filter (fun p => p.1.1 ≠ 0 || p.1.2)).map (fun p =>
    (p.2, p.1.1.setWidth 32 + (if p.1.2 then 256 else 0)))

/-- Entries `k` to `k + n − 1` of a map. -/
def unlist {α : Type} (d : α) : SMap α → Nat → Nat → List α
  | _, _, 0 => []
  | [], k, n + 1 => d :: unlist d [] (k + 1) n
  | (a, v) :: m, k, n + 1 => if a = k then v :: unlist d m (k + 1) n else d :: unlist d ((a, v) :: m) (k + 1) n

def keptBytes (o : Op) (n : Nat) : List Byte × List Bool :=
  let ws := unlist 0 o.data 0 n
  (ws.map (fun w => w.setWidth 8), ws.map (fun w => w.getLsbD 8))

/-- Phase 0 of a copy: its bytes read; phase 1: written (R227). -/
def copyPhase (core : Nat) (src dst n : Nat) (phase : Nat) (o : Op) (s : State) : ETry State :=
  if phase = 0 then do
    let (bs, ps, s) ← opRead s core .fa o src n
    pure (setOp core .fa { nowOp s core .fa o with data := keepBytes bs ps } s)
  else do
    let (bs, ps) := keptBytes o n
    let s ← opWrite s core .fa o dst bs ps
    pure (chargeOp core o 6 n s)

/-- CEC's copies: two phases each. -/
def cecRow (core p : Nat) (o : Op) (s : State) : ETry State :=
  let lev := (fld (o.args.getD 3 0) 36 3).toNat
  let len := (fld (o.args.getD 3 0) 0 32).toNat
  copyPhase core (o.args.getD 1 0 + w64i (cecOff o 0 lev 0 (p / 2))).toNat
    (o.args.getD 2 0 + w64i (cecOff o 1 lev 0 (p / 2))).toNat len (p % 2) o s

/-- The number of copies. -/
def cecCopies (o : Op) : Nat :=
  (List.range (fld (o.args.getD 3 0) 36 3).toNat).foldl (fun n j => n * (fld (o.args.getD (5 + 2 * j) 0) 48 16).toNat) 1

def execCecComplete (core n : Nat) (s : State) : Res :=
  match opAt s core .fa n with
  | none => .next s
  | some o =>
    match o.i with
    | .cec .. =>
      if mayRun s core .fa o then .next (runRows core .fa o (2 * cecCopies o) (cecRow core) (finishOp core .fa) s)
      else .next s
    | _ => .next s

/-! ### CEDUP (R228, R229) -/

/-- The place of a 4 KiB page's leaf entry, and the entry if it maps one; PAGE_ABSENT without a table for it. -/
def leafSlot (s : State) (ctx va : Nat) : Except Nat (Nat × Option W64) := do
  if 0xE000000000000 ≤ va then .error 0x20
  let root := s.root ctx
  if beyond root || beyond (root + 65535) then .error 0x2B
  let next (e : W64) : Nat := e.toNat / 4096 * 4096
  let e0 ← pte s (root + 8 * (va / 2 ^ 39 % 8192))
  if !e0.getLsbD 1 then .error 0x25
  let e1 ← pte s (next e0 + 8 * (va / 2 ^ 30 % 512))
  if !e1.getLsbD 1 then .error 0x25
  let e2 ← pte s (next e1 + 8 * (va / 2 ^ 21 % 512))
  if !e2.getLsbD 1 then .error 0x81
  let p := next e2 + 8 * (va / 2 ^ 12 % 512)
  if !(s.rd64 p).getLsbD 0 then pure (p, none)
  else
    let e3 ← pte s p
    if e3.getLsbD 1 then .error 0x25
    else if e3.getLsbD 7 then .error 0x81
    else pure (p, some e3)

def execCedup (c : Clause) (base : BitVec 5) (off : BitVec 20) (s : State) : Res :=
  runWide c s (fun s => do
    raiseMark .fa s
    let va := memEa s base off
    let (d, s) ← readDesc s va 64
    let g (i : Nat) : W64 := d.getD i 0
    let k := (fld (g 3) 0 5).toNat
    if (g 0).toNat % 4096 ≠ 0 || (g 1).toNat % 4096 ≠ 0 || (g 2).toNat % 16 ≠ 0 || fld (g 3) 5 59 != 0 || k < 4 || 24 < k ||
        fld (g 4) 2 62 != 0 || g 5 != 0 || g 6 != 0 || g 7 != 0 ||
        (match leafSlot s s.me.ctxOf (g 1).toNat with | .error e => e == 0x81 | .ok _ => false) then trapAt s 0x81 va
    relPart s s.attr
    issueOp .fa (.cedup c base off) [0, g 0, g 1, g 2, w64 k, va + 32] [] [] s)

/-- The fingerprint of a page's words (R229). -/
def pfp (bs : List Byte) : W64 :=
  (List.range 512).foldl (fun (a : W64) i => a + w64 (leNat ((bs.drop (8 * i)).take 8)) * w64 (2 * i + 1)) 0

/-- How CEDUP's probe ends: an equal page's frame, or an entry to claim, or none. -/
inductive Probe | found (frame : Nat) | claim (va : Nat) | full
deriving DecidableEq, Repr

/-- A cause of its own on the context, or under CE_FAULT: what stops CEDUP. -/
inductive DStop | own (cause : Nat) (va : Nat) | under (cause : Nat) (va : Nat) | bare (e : EStop)
deriving DecidableEq, Repr

def liftE {α : Type} (x : ETry α) : Except DStop α := match x with | .ok a => .ok a | .error e => .error (.bare e)

/-- The index probed from an entry, at most `fuel` entries (R229). -/
def probe (s : State) (core : Nat) (o : Op) (word : W64) (bs : List Byte) (j : Nat) : Nat → Except DStop Probe
  | 0 => .ok .full
  | fuel + 1 => do
    let m := 2 ^ o.arg 4
    let va := o.arg 3 + 16 * (j % m)
    let (e, ps, _) ← liftE (opPage s core o va 16)
    liftE (noPoison s va ps)
    let d0 := w64 (leNat (e.take 8))
    let d1 := w64 (leNat (e.drop 8))
    if fld d1 40 23 != 0 then .error (.own 0x2D va)
    if !d1.getLsbD 63 then .ok (.claim va)
    else
      let f := (fld d1 0 40).toNat
      if d0 = word && (countPa s o.ctx f).isSome && !beyond (4096 * f) && s.bytes (4096 * f) 4096 == bs then .ok (.found f)
      else probe s core o word bs (j + 1) fuel

/-- A frame's count changed by CEDUP (R229, R289): PAGECNT_OVF above 2^24 − 1. -/
def countSet (s : State) (ctx f n : Nat) : Except Nat State :=
  if 2 ^ 24 - 1 < n then .error 0x2A
  else
    match countPa s ctx f with
    | none => .error 0x28
    | some a => .ok (s.wr32 a (BitVec.ofNat 32 ((s.rd32 a).toNat / 2 ^ 24 * 2 ^ 24 + n)))

/-- Translations of a context that map a frame dropped, those of larger pages that hold it too (R290). -/
def dropFrame (s : State) (ctx f : Nat) : State :=
  let s := tlbDrop s (fun e => e.ctx = ctx && frameOf e.leaf e.bits ≤ f && f < frameOf e.leaf e.bits + 2 ^ (e.bits - 12))
  { s with cores := canon .init s.cores, clusters := canon .init s.clusters }

/-- The destination mapped to a frame with its count (R229): the frame mapped before loses one, and the page's
translations are invalidated. -/
def mapTo (s : State) (ctx va f n : Nat) : Except Nat State := do
  let (p, old) ← leafSlot s ctx va
  match old with
  | some e => if !e.getLsbD 3 then .error 0x21 else if !e.getLsbD 5 then .error 0x22 else pure ()
  | none => pure ()
  let s ← countSet s ctx f n
  let s ← (match old with
    | some e =>
      let g := frameOf e 12
      countSet s ctx g (pageCount s ctx g - 1)
    | none => .ok s)
  let bits : Nat := match old with | some e => e.toNat % 4096 + e.toNat / 2 ^ 52 * 2 ^ 52 | none => 0x2D
  pure (tlbiPage (s.wr64 p (w64 (bits + 4096 * f))) ctx va)

def asOwn {α : Type} (va : Nat) (x : Except Nat α) : Except DStop α :=
  match x with
  | .ok a => .ok a
  | .error e => .error (if e = 0x20 || e = 0x21 || e = 0x22 || e = 0x25 || e = 0x2B || e = 0x81 || e = 0xB0 then .under e va
      else .own e va)

/-- The deduplicated write of a page (R229): the result code and the state. A fault leaves the frame it took on the
stack. -/
def dedup (core : Nat) (o : Op) (bs : List Byte) (s : State) : Except DStop (Nat × State) := do
  let word := pfp bs
  let dst := o.arg 2
  let m := 2 ^ o.arg 4
  let fresh (s : State) : Except DStop (Nat × State) := do
    let (f, s) ← asOwn dst (popFrame s o.ctx)
    pure (f / 4096, { s with mem := msets memDefault s.mem f bs, poison := poisonAfter s.poison f 4096 false,
                             full := s.full.filter (fun g => !(f ≤ 8 * g && 8 * g < f + 4096)) })
  match ← probe s core o word bs (word.toNat % m) m with
  | .found f =>
    let n := pageCount s o.ctx f
    let s ← asOwn dst (mapTo s o.ctx dst f (n + 1))
    pure (0, if n = 1 then dropFrame s o.ctx f else s)
  | .claim va =>
    let (f, s1) ← fresh s
    let (pa, s) ← (match opPlace s1 core o va with
      | .ok r => .ok r
      | .error (.fault c a _) => .error (.bare (.fault c a s))
      | .error (.wait _) => .error (.bare (.wait s)))
    let s := performWrite s core pa (leBytes 8 word.toNat ++ leBytes 8 (2 ^ 63 + f)) false
    let s ← asOwn dst (mapTo s o.ctx dst f 1)
    pure (1, s)
  | .full =>
    let (f, s) ← fresh s
    let s ← asOwn dst (mapTo s o.ctx dst f 1)
    pure (2, s)

/-- CEDUP's three phases: the source read, the page deduplicated, the result written. A cause that R229 gives marks
FA itself. -/
def cedupRow (core p : Nat) (o : Op) (s : State) : ETry State :=
  if p = 0 then do
    let (bs, ps, s) ← opRead s core .fa o (o.arg 1) 4096
    noPoison s (o.arg 1) ps
    pure (setOp core .fa { nowOp s core .fa o with data := keepBytes bs ps } s)
  else if p = 1 then
    match dedup core o (keptBytes o 4096).1 s with
    | .ok (r, s) => .ok (chargeOp core o 6 4096 (chargeOp core o 5 4096
        (setOp core .fa { nowOp s core .fa o with data := [(0, BitVec.ofNat 32 (r + 1))] } s)))
    | .error (.under c va) => eFault s c va
    | .error (.own c va) => eFault s (256 + c) va
    | .error (.bare e) => .error e
  else opWrite s core .fa o (o.arg 5) (leBytes 8 ((mget 0 o.data 0).toNat - 1)) (List.replicate 8 false)

def execCedupComplete (core n : Nat) (s : State) : Res :=
  match opAt s core .fa n with
  | none => .next s
  | some o =>
    match o.i with
    | .cedup .. =>
      if mayRun s core .fa o then
        .next (settleOp core .fa o.n (fun o cause va s =>
            if 256 ≤ cause then opFault core .fa o (cause - 256) va 0 s else ceFault core .fa o cause va s) (do
          let s ← opRows core .fa 3 (cedupRow core) 4 o.n s
          pure (match opAt s core .fa o.n with
            | some o => if 3 ≤ o.pos && !partsOut s core .fa o.n then finishOp core .fa o s else s
            | none => s)))
      else .next s
    | _ => .next s

/-! ### Collectives (R230, R231) -/

/-- Whether a device is of a set of rows and columns. -/
def inColl (rows cols : BitVec 16) (d : Nat) : Bool := rows.getLsbD (d / 16) && cols.getLsbD (d % 16)

def execCecol (c : Clause) (hd : BitVec 6) (base : BitVec 5) (off : BitVec 20) (s : State) : Res :=
  runWide c s (fun s => do
    raiseMark .fa s
    let va := memEa s base off
    let (d, s) ← readDesc s va 64
    let g (i : Nat) : W64 := d.getD i 0
    let n := (fld (g 2) 0 32).toNat
    let f := (fld (g 2) 32 4).toNat
    let t := elemOf f
    let e := ebits t / 8
    let op := (fld (g 2) 36 2).toNat
    let rows := (fld (g 4) 0 16).toNat
    let cols := (fld (g 4) 16 16).toNat
    if 11 < f || f = 8 || 1 < op || (op = 0 && !(t == .f32 || t == .b16 || t == .i32 || t == .n32)) || n = 0 || 2 ^ 24 < n ||
        fld (g 2) 38 26 != 0 || fld (g 3) 48 16 != 0 || (g 0).toNat % e ≠ 0 ||
        !inColl (fld (g 3) 0 16) (fld (g 3) 16 16) (s.dev % 256) || (hd = 0 && (g 1).toNat % e ≠ 0) ||
        (hd ≠ 0 && rows * cols ≠ n) || g 5 != 0 || g 6 != 0 || g 7 != 0 then trapAt s 0x81 va
    let args : List W64 := [g 0, g 1, g 2, g 3]
    relPart s s.attr
    if hd = 0 then issueOp .fa (.cecol c hd base off) (0 :: args) [] [] s
    else do
      trapIf s (!shapeOk t rows cols) 0x37
      destFree s hd none
      match newTile s.cur.core s.me.ctxOf t rows cols .filling false false s with
      | none => trap s 0x40
      | some (f, s) =>
        let h := handleOf s s.cur.core f
        issueOp .fa (.cecol c hd base off) (h :: args ++ tileArgs (s.folio s.cur.core f)) [] [] (s.wH hd h))

/-- This device's part of an operation's collective. -/
def collPart (s : State) (o : Op) (data : List Byte) : CollPart :=
  let w2 := o.args.getD 3 0
  let w3 := o.args.getD 4 0
  { dev := s.dev % 256, op := (fld w2 36 2).toNat, t := elemOf (fld w2 32 4).toNat, n := (fld w2 0 32).toNat,
    rows := fld w3 0 16, cols := fld w3 16 16, data }
def collId (o : Op) : Nat := (fld (o.args.getD 4 0) 32 16).toNat

/-- The bytes of a member's source. -/
def CollPart.bytes (p : CollPart) : Nat := p.n * ebits p.t / 8
/-- Whether two members give the same operation, type, length and set. -/
def CollPart.agrees (p q : CollPart) : Bool := p.op = q.op && p.t == q.t && p.n = q.n && p.rows == q.rows && p.cols == q.cols
/-- The member devices, in increasing id. -/
def CollPart.members (p : CollPart) : List Nat := (List.range 256).filter (inColl p.rows p.cols)

def State.coll (s : State) (id : Nat) : Coll := (s.colls.find? (fun c => c.id = id)).getD ⟨id, [], none, none, 0⟩
def State.setColl (s : State) (c : Coll) : State := { s with colls := c :: s.colls.filter (fun x => x.id ≠ c.id) }

/-- A chunk of a member's source as a packet's payload (log 12); `fail` says that the collective is mismatched. -/
def collPayload (id : Nat) (p : CollPart) (fail : Bool) (chunk : List Byte) : List Byte :=
  leBytes 2 id ++ [BitVec.ofNat 8 (p.op + (if fail then 128 else 0)), BitVec.ofNat 8 p.t.code.toNat] ++ leBytes 4 p.n ++
    leBytes 2 p.rows.toNat ++ leBytes 2 p.cols.toNat ++ chunk

/-- A collective packet to another member. -/
def sendColl (core id : Nat) (p : CollPart) (fail : Bool) (chunk : List Byte) (s : State) (dev : Nat) : State :=
  let pay := collPayload id p fail chunk
  sendPkt s core { port := 32, dst := dev, src := 0, cls := 0, op := 11, seq := 0, wid := 0, key := 0, off := 0,
                   len := pay.length - 1, core, det := false, payload := pay } (.other 32)

/-- A byte list in chunks of at most `k`; `fuel` bounds their number. -/
def chunks (k : Nat) : Nat → List Byte → List (List Byte)
  | 0, _ => []
  | fuel + 1, bs => if bs.isEmpty then [] else bs.take k :: chunks k fuel (bs.drop k)

/-- A mismatch found here is told to every other member that any part names, with the number of the collective. -/
def failColl (core id : Nat) (p : CollPart) (s : State) : State :=
  let k := s.coll id
  let s := s.setColl { k with failed := some 0x82 }
  ((((p :: k.parts).map (·.members)).flatten.eraseDups).filter (· ≠ s.dev % 256)).foldl
    (sendColl core id p true (leBytes 8 k.ended)) s

/-- A mismatch told by another member: of a collective that has ended here it says nothing (R231). -/
def failTold (id n : Nat) (s : State) : State :=
  if n < (s.coll id).ended then s else s.setColl { s.coll id with failed := some 0x82 }

/-- A device's chunk joins the part it has under way, or begins its next one. -/
def joinPart (p : CollPart) : List CollPart → List CollPart
  | [] => [p]
  | q :: l =>
    if q.dev = p.dev && q.data.length < q.bytes then { q with data := q.data ++ p.data } :: l else q :: joinPart p l

/-- Each device's first part: those of the collective under way; later ones are of the next with its id. -/
def collHeads : List CollPart → List CollPart
  | [] => []
  | p :: l => p :: (collHeads l).filter (fun q => q.dev ≠ p.dev)

/-- A mismatch among the parts fails the collective (R231). -/
def agreeColl (core id : Nat) (s : State) : State :=
  match collHeads (s.coll id).parts with
  | [] => s
  | p :: l => match l.find? (fun q => !p.agrees q) with | some q => failColl core id q s | none => s

/-- A part, or a chunk of it, comes in. -/
def addPart (core id : Nat) (p : CollPart) (s : State) : State :=
  agreeColl core id (s.setColl { s.coll id with parts := joinPart p (s.coll id).parts })

/-- A collective ends here; parts that have come for the next one with its id stay. -/
def endColl (core id : Nat) (s : State) : State :=
  let l := (s.coll id).parts
  let rest := (collHeads l).foldl (fun (l : List CollPart) p => l.erase p) l
  agreeColl core id (s.setColl ⟨id, rest, none, none, (s.coll id).ended + 1⟩)

/-- A local command joins its collective (R231): its source read, its part sent to the others. -/
def joinColl (core : Nat) (o : Op) (s : State) : ETry State := do
  let id := collId o
  let p := collPart s o []
  let (bs, ps, s) ← opRead s core .fa o (o.arg 1) p.bytes
  noPoison s (o.arg 1) ps
  let s := chargeOp core o 6 p.bytes (setOp core .fa { nowOp s core .fa o with pos := 1, started := true } s)
  if (s.coll id).joined.isSome then pure (failColl core id p s)
  else
    let s := s.setColl { s.coll id with joined := some (core, o.n) }
    let s := addPart core id { p with data := bs } s
    let others := p.members.filter (· ≠ s.dev % 256)
    let s := (chunks 240 (p.bytes / 240 + 1) bs).foldl (fun s ch =>
      others.foldl (sendColl core id p false ch) s) s
    pure (match others.find? (fun d => s.net.lost.contains d) with
      | some _ => s.setColl { s.coll id with failed := some 0x93 }
      | none => s)

/-- The sum of two raw elements (R231). -/
def collAdd (t : Elem) (x y : Nat) : Nat :=
  match t with
  | .f32 => (rne32 (fvAdd .rne (f32v (BitVec.ofNat 32 x)) (f32v (BitVec.ofNat 32 y))).1).toNat
  | .b16 => (rndB16 .rne false (fvAdd .rne (f32v (b16Slot x)) (f32v (b16Slot y))).1).1
  | _ => (x + y) % 2 ^ ebits t

/-- A float raw element with its NaN canonical. -/
def collCanon (t : Elem) (x : Nat) : Nat :=
  match t with
  | .f32 => if isNan (f32v (BitVec.ofNat 32 x)) then 0x7FC00000 else x
  | .b16 => if isNan (f32v (b16Slot x)) then 0x7FC0 else x
  | _ => x

/-- The raw elements of a byte string. -/
def elemsOf (t : Elem) : Nat → List Byte → List Nat
  | 0, _ => []
  | n + 1, bs => leNat (bs.take (ebits t / 8)) :: elemsOf t n (bs.drop (ebits t / 8))

/-- What a member receives (R231): the sum in increasing id, or the parity of its group of 8. -/
def collResult (me : Nat) (parts : List CollPart) : List Byte :=
  match parts with
  | [] => []
  | p :: _ =>
    let ordered := p.members.filterMap (fun d => parts.find? (fun q => q.dev = d))
    if p.op = 0 then
      match ordered.map (fun q => elemsOf p.t p.n q.data) with
      | [] => []
      | x :: xs => ((xs.foldl (fun z y => List.zipWith (collAdd p.t) z y) (x.map (collCanon p.t))).map
          (leBytes (ebits p.t / 8))).flatten
    else
      let g := (p.members.findIdx (· = me)) / 8
      let group := ((p.members.drop (8 * g)).take 8).filterMap (fun d => parts.find? (fun q => q.dev = d))
      group.foldl (fun z q => List.zipWith (· ^^^ ·) z q.data) (List.replicate p.bytes 0)

/-- Whether every member's part is whole. -/
def collReady (k : Coll) : Bool :=
  match collHeads k.parts with
  | [] => false
  | p :: l => p.members.all (fun d => (p :: l).any (fun q => q.dev = d && q.data.length = q.bytes))

/-- The result lands in memory or in the tile. -/
def landColl (core : Nat) (bs : List Byte) (o : Op) (s : State) : ETry State :=
  let h := o.args.headD 0
  if isNull h then do
    let s ← opWrite s core .fa o (o.arg 2) bs (bs.map (fun _ => false))
    pure (chargeOp core o 6 bs.length s)
  else
    .ok (chargeOp core o 6 bs.length (if fillsLive s o then
      tilePut (hCore h) (16384 * o.arg 7) bs (bs.map (fun _ => false)) s else s))

/-- What a failed collective leaves (R231): the operation abandoned and FA marked; the destination of a collective
whose member was lost is unspecified. -/
def failHere (core : Nat) (cause : Nat) (o : Op) (s : State) : State :=
  let h := o.args.headD 0
  let n := (collPart s o []).bytes
  let s := if cause = 0x93 && isNull h then
      let (bs, s) := s.freeBytes n
      match opWrite s core .fa o (o.arg 2) bs (bs.map (fun _ => false)) with | .ok s => s | .error _ => s
    else s
  if opLate s core o then lateFault core .fa o cause 0 0 s else mark core .fa 0 cause 0 0 (abandonOp core .fa o s)

/-- The local commands of a collective id: core and operation. -/
def collOps (s : State) (id : Nat) : List (Nat × Op) :=
  (s.cores.map (fun p => ((p.2.opsOf .fa).filter (fun o => (match o.i with | .cecol .. => true | _ => false) && collId o = id)).map
    (fun o => (p.1, o)))).flatten

/-- A command whose result has landed completes once what it posted is acknowledged (R86). -/
def collDone (core : Nat) (o : Op) (s : State) : State :=
  if isNull (o.args.headD 0) then finishOp core .fa o s else endFill core .fa (o.arg 7) (o.arg 8) o s

/-- A collective's next step on this device: a command joins it, or it ends (R231). -/
def execCollectiveComplete (id : Nat) (s : State) : Res :=
  let k := s.coll id
  match (collOps s id).find? (fun p => p.2.pos = 0 && mayRun s p.1 .fa p.2),
      (collOps s id).find? (fun p => p.2.pos = 2 && !partsOut s p.1 .fa p.2.n) with
  | some (core, o), _ =>
    .next (settleOp core .fa o.n (fun o cause va s => ceFault core .fa o cause va s) (joinColl core o s))
  | none, some (core, o) => .next (collDone core o s)
  | none, none =>
    match k.failed with
    | some cause =>
      let here := (collOps s id).filter (fun p => p.2.pos = 1 && p.2.cell ≠ 0)
      .next (here.foldl (fun s p => failHere p.1 cause p.2 s) (if here.isEmpty then s
        else s.setColl ⟨id, [], none, none, k.ended + 1⟩))
    | none =>
      match k.joined with
      | none => .next s
      | some (core, n) =>
        match opAt s core .fa n with
        | none => .next s
        | some o =>
          if !collReady k || (s.core core).freeze ≠ 0 || s.tripped then .next s
          else
            .next (settleOp core .fa o.n (fun o cause va s => if o.cell = 0 then s else ceFault core .fa o cause va s) (do
              let s ← landColl core (collResult (s.dev % 256) (collHeads k.parts)) o s
              let s := endColl core id s
              pure (if partsOut s core .fa o.n then setOp core .fa { nowOp s core .fa o with pos := 2 } s
                else collDone core (nowOp s core .fa o) s)))

end Sys2Proof.Machine
end

