-- ==== Sys2Proof/Machine/Emit.lean ====
section
/-! DEFINITION. EMI's stores, scatters and reductions (R207 to R211, R215, R220 to R225), with the steps by which
their asynchronous operations complete. -/

namespace Sys2Proof.Machine

/-! ### STV (R221) -/

/-- The slots of a register block as an operation keeps them: slot l of register i at 1024·i + l. -/
def captureBlock (k : Core) (base n : Nat) : SMap W32 :=
  ((List.range n).map (fun i => (k.rV (base + i)).map (fun p => (1024 * i + p.1, p.2)))).flatten

/-- The slots of row `r` of a captured block of `cols` columns. -/
def capturedRow (d : SMap W32) (cols r : Nat) : List W32 :=
  let nc := (cols + 63) / 64
  (((List.range nc).map (fun j =>
    let lo := 1024 * (r / 16 * nc + j) + 64 * (r % 16)
    unlist 0 (mslice d lo (lo + 64)) 0 64)).flatten).take cols

/-- Slots narrowed (R155): raw elements and flags. -/
def narrowAll (fpc : W32) (sat : Bool) (t : Elem) (ws : List W32) : List Nat × Flags :=
  let rs := ws.map (narrow fpc sat t)
  (rs.map (·.1), rs.foldl (fun (f : Flags) r => f ||| r.2) 0)

def execStv (c : Clause) (t : Elem) (sat : Bool) (hd : BitVec 6) (va : BitVec 9) (idx : BitVec 5) (s : State) : Res :=
  runWide c s (fun s => do
    raiseMark .ea s
    let sh := shapeIn s idx
    shapeCheck s t sh false (some (va.toNat, sh.rows, sh.cols))
    destFree s hd none
    vecOk s (blockRegs va.toNat sh.rows sh.cols)
    match newTile s.cur.core s.me.ctxOf t sh.rows sh.cols .filling false false s with
    | none => trap s 0x40
    | some (f, s) =>
      let h := handleOf s s.cur.core f
      issueOp .ea (.stv c t sat hd va idx) (h :: tileArgs (s.folio s.cur.core f))
        (captureBlock s.me va.toNat (nreg sh.rows sh.cols)) [] (s.wH hd h))

/-- A row of an STV narrowed into the tile. -/
def stvRow (t : Elem) (sat : Bool) (p : Nat) (o : Op) (s : State) : ETry State :=
  let r := o.row (o.arg 1) p
  let bs := packRow t (narrowAll o.fpc sat t (capturedRow o.data (o.arg 2) r)).1
  .ok (if fillsLive s o then
    tilePut (hCore (o.args.headD 0)) (16384 * o.arg 3 + r * bs.length) bs (bs.map (fun _ => false)) s else s)

/-- The flags of an STV's narrowings. -/
def stvFlags (t : Elem) (sat : Bool) (o : Op) : Flags :=
  (List.range (o.arg 1)).foldl (fun (f : Flags) r => f ||| (narrowAll o.fpc sat t (capturedRow o.data (o.arg 2) r)).2) 0

/-- STV's engine narrows its rows into the tile (R221). -/
def execStvComplete (core n : Nat) (s : State) : Res :=
  match opAt s core .ea n with
  | none => .next s
  | some o =>
    match o.i with
    | .stv _ t sat .. =>
      if mayRun s core .ea o then
        .next (runRows core .ea o (o.arg 1) (stvRow t sat)
          (fun o s => endFill core .ea (o.arg 3) (o.arg 4) o (opFlags core .ea o (stvFlags t sat o) s)) (startRows core .ea o s))
      else .next s
    | _ => .next s

/-! ### STT (R222) -/

/-- What is wrong with the tile an STT names: R105's step 4, then TILE_FMT, then SHAPE_BAD. -/
def sttBad (s : State) (ctx : Nat) (h : W64) (t : Elem) (rows cols : Nat) : Option Nat :=
  let x := s.folio (hCore h) (hFolio h)
  match recordCheck s ctx h with
  | some c => some c
  | none => if x.fmt != t then some 0x43 else if x.rows ≠ rows || x.cols ≠ cols then some 0x37 else none

def execStt (c : Clause) (t : Elem) (hs : BitVec 6) (base idx : BitVec 5) (off : BitVec 20) (s : State) : Res :=
  runWide c s (fun s => do
    raiseMark .ea s
    let sh := shapeIn s idx
    let va := memEa s base off
    shapeCheck s t sh true none
    rangeCheck s t sh va
    let h := s.rH hs
    orTrap s (handleBits h 0)
    if atHome s h then orTrap s (sttBad s s.me.ctxOf h t sh.rows sh.cols)
    relPart s s.attr
    issueOp .ea (.stt c t hs base idx off) [0, va, w64 sh.stride, w64 sh.rows, w64 sh.cols, h] [] [h] s)

/-- STT's steps in EMI's queue: the home's checks and the wait, the contents of a tile of another device, then a row
at a time. -/
def sttRow (core : Nat) (t : Elem) (p : Nat) (o : Op) (s : State) : ETry State := do
  let h := o.args.getD 5 0
  let rows := o.arg 3
  let cols := o.arg 4
  let rb := rowBytes t cols
  if homeHere s h then
    let x := s.folio (hCore h) (hFolio h)
    if p = 0 then
      match sttBad s o.ctx h t rows cols with
      | some c => eFault s c 0
      | none => if readable x then pure s else .error (.wait s)
    else if p = 1 then pure s
    else
      let at_ := 16384 * x.first + (p - 2) * rb
      opWrite s core .ea o (o.arg 1 + (p - 2) * o.arg 2) (tileBytes s (hCore h) at_ rb)
        (badBytes (s.core (hCore h)).storePoison at_ rb)
  else if p = 0 then
    if s.net.lost.contains (hDev h) then eFault s 0x3B 0
    let (bs, s) ← opAsk s core .ea o (fun _ => 0) 1 (fun s =>
      sendPkt s core (homePkt h 34 []) (.engine core TlCtx.ea.idx o.n 0))
    let b := bs.flatten
    let x := folioFrom o.ctx (w64 (leNat (b.take 8))) (w64 (leNat ((b.drop 8).take 8))) (w64 (leNat (b.drop 16)))
    if x.fmt != t then eFault s 0x43 0
    if x.rows ≠ rows || x.cols ≠ cols then eFault s 0x37 0
    if readable x then pure s else .error (.wait s)
  else if p = 1 then
    let n := (rows * rb + 255) / 256
    if s.net.lost.contains (hDev h) then eFault s 0x3B 0
    let (bs, s) ← opAsk s core .ea o (fun _ => 0) n (fun s => (List.range n).foldl (fun s i =>
      sendPkt s core (homePkt h 35 (leBytes 8 (256 * i))) (.engine core TlCtx.ea.idx o.n i)) s)
    let b := bs.flatten.take (rows * rb)
    pure (setOp core .ea { nowOp s core .ea o with data := keepBytes b (b.map (fun _ => false)) } s)
  else
    let bs := (unlist 0 (mslice o.data ((p - 2) * rb) ((p - 1) * rb)) 0 rb).map (fun w => w.setWidth 8)
    opWrite s core .ea o (o.arg 1 + (p - 2) * o.arg 2) bs (bs.map (fun _ => false))

def execSttComplete (core n : Nat) (s : State) : Res :=
  match opAt s core .ea n with
  | none => .next s
  | some o =>
    match o.i with
    | .stt _ t .. =>
      if mayRun s core .ea o then .next (runRows core .ea o (o.arg 3 + 2) (sttRow core t) (finishOp core .ea) s)
      else .next s
    | _ => .next s

/-! ### STVA, SCAT, STK (R215, R220, R223) -/

/-- Ranges written by a synchronous instruction whose narrowing raised flags (R161, R162). -/
def storeRanges (s : State) (fl : Flags) (rs : List (Nat × List Byte)) (al : Nat := 1) : Try State := do
  let _ ← raise s fl s
  let s ← writeRanges s rs al
  raise s fl s

def execStva (c : Clause) (t : Elem) (sat : Bool) (vd : BitVec 9) (base idx : BitVec 5) (off : BitVec 20) (s : State) : Res :=
  runWide c s (fun s => do
    let sh := shapeIn s idx
    let va := memEa s base off
    shapeCheck s t sh true (some (vd.toNat, sh.rows, sh.cols))
    rangeCheck s t sh va
    vecOk s (blockRegs vd.toNat sh.rows sh.cols)
    let d := captureBlock s.me vd.toNat (nreg sh.rows sh.cols)
    let rows := (List.range sh.rows).map (fun r => narrowAll s.fpcNow sat t (capturedRow d sh.cols r))
    storeRanges s (rows.foldl (fun (f : Flags) r => f ||| r.2) 0)
      ((rowRanges t sh va.toNat).zip rows |>.map (fun p => (p.1.1, packRow t p.2.1))))

def execScat (c : Clause) (t : Elem) (k : BitVec 3) (sat : Bool) (va vb : BitVec 9) (ab : BitVec 5) (s : State) : Res :=
  runWide c s (fun s => do
    vecOk s [va.toNat, vb.toNat]
    let ls := selected s k
    let eas := ls.map (laneEa s t ab va)
    let (xs, fl) := narrowAll s.fpcNow sat t (ls.map (s.slot vb))
    storeRanges s fl ((eas.zip xs).map (fun p => (p.1.toNat, leBytes (ebits t / 8) p.2))) (ealign t))

def execStk (c : Clause) (k : BitVec 3) (base : BitVec 5) (off : BitVec 20) (s : State) : Res :=
  runWide c s (fun s => do
    let va := memEa s base off
    if va.toNat % 8 ≠ 0 then trapAt s 0x24 va
    if straddles s s.me.ctxOf va.toNat 128 then trapAt s 0x27 va
    writeRanges s [(va.toNat, leBytes 128 (s.me.rK k).toNat)])

/-! ### Tensor shape records and STRED (R224, R225) -/

/-- What breaks R224's table in a record's dwords. -/
def tensorBad (t : Elem) (d : List W64) : Bool :=
  let g (i : Nat) : W64 := d.getD i 0
  let e := ebits t / 8
  let f := (fld (g 0) 52 4).toNat
  f ≠ t.code.toNat || t == .i6 || fld (g 0) 56 8 != 0 || (fld (g 0) 0 52).toNat % e ≠ 0 ||
    (List.range 4).any (fun i => fld (g 1) (16 * i) 16 == 0) ||
    (List.range 3).any (fun i => (g (2 + i)).toInt % e ≠ 0) || g 6 != 0 || g 7 != 0

/-- The record at an address, read at issue. -/
def readTensor (s : State) (t : Elem) (va : W64) : Try (List W64 × State) := do
  if va.toNat % 64 ≠ 0 then trap s 0x37
  let (bs, s) ← readRanges s [(va.toNat, 64)]
  let b := bs.flatten
  let d := (List.range 8).map (fun i => w64 (leNat ((b.drop (8 * i)).take 8)))
  if tensorBad t d then trap s 0x37
  pure (d, s)

/-- The address of the element at row `m`, column `n` of a region, none where it is clipped (R224). -/
def tensorAt (t : Elem) (d : List W64) (delta : W64) (m n : Nat) : Option W64 :=
  let g (i : Nat) : W64 := d.getD i 0
  let sg (w : W64) (i : Nat) : Int := (fld w (16 * i) 16).toInt
  let x (i : Nat) : Int := sg (g 5) i + sg delta i + (if i = 0 then (n : Int) else if i = 1 then (m : Int) else 0)
  if (List.range 4).any (fun i => x i < 0 || (fld (g 1) (16 * i) 16).toNat ≤ x i) then none
  else some (w64i ((fld (g 0) 0 52).toNat + x 0 * (ebits t / 8 : Nat) + x 1 * (g 2).toInt + x 2 * (g 3).toInt +
    x 3 * (g 4).toInt))

def execStred (c : Clause) (t : Elem) (op : StredOp) (sat : Bool) (vd : BitVec 9) (base idx : BitVec 5) (off : BitVec 20)
    (s : State) : Res :=
  runWide c s (fun s => do
    raiseMark .ea s
    vecOk s [vd.toNat]
    let (d, s) ← readTensor s t (memEa s base off)
    relPart s s.attr
    issueOp .ea (.stred c t op sat vd base idx off) (0 :: s.rA idx :: d) (s.me.rV vd.toNat) [] s)

/-- An element combined with a slot (R225): FPC ignored, NaNs canonical. -/
def redCombine (t : Elem) (op : StredOp) (old : Nat) (x : W32) : Nat :=
  let o := widen t old
  match t with
  | .i32 | .n32 =>
    let v : VTy := if t == .n32 then .n32 else .i32
    (match op with | .min => laneMin v o x | .max => laneMax v o x | .add => o + x | .store => x).toNat
  | _ =>
    let v : Fv := match op with
      | .min => f32v (laneMin .f32 o x)
      | .max => f32v (laneMax .f32 o x)
      | .add => (fvAdd .rne (f32v o) (f32v x)).1
      | .store => f32v x
    if t == .b16 then (rndB16 .rne false v).1 else (rne32 v).toNat

/-- The code of a reduction in a packet (log 12): 64 + 4·op + type. -/
def redCode (t : Elem) (op : StredOp) : Nat :=
  64 + 4 * (match op with | .add => 0 | .min => 1 | .max => 2 | .store => 3) +
    (match t with | .f32 => 0 | .b16 => 1 | .i32 => 2 | _ => 3)
/-- The reduction a code stands for. -/
def redOf (n : Nat) : Option (Elem × StredOp) :=
  if 64 ≤ n && n < 76 then
    some ((match n % 4 with | 0 => Elem.f32 | 1 => .b16 | 2 => .i32 | _ => .n32),
      (match (n - 64) / 4 with | 0 => StredOp.add | 1 => .min | _ => .max))
  else none

/-- A reduction of one element through a window: one request, answered by its target. -/
def redFar (s : State) (core : Nat) (x : TlCtx) (o : Op) (va w off e : Nat) (code : Nat) (arg : W32) : ETry State :=
  match winDesc s o.ctx w with
  | .error c => eFault s c va
  | .ok (d, s) =>
    match winCheck d off e true true with
    | .error c => eFault s c va
    | .ok t =>
      if s.net.lost.contains t.dev then eFault s 0x93 va
      else if (nowOp s core x o).asked = 0 && vget 256 (s.ctx o.ctx).wallow w ≤ vget 0 (s.core core).wallowOut w then
        .error (.wait s)
      else
        let pay := [BitVec.ofNat 8 code, BitVec.ofNat 8 e] ++ leBytes 8 arg.toNat
        (opAsk s core x o (fun _ => va) 1 (fun s =>
          sendPkt (outUp core w s) core (reqPkt t 2 off pay.length pay) (.ask core x.idx o.n w))).map (·.2)

/-- One element reduced atomically at its home (R225). -/
def redElem (s : State) (core : Nat) (x : TlCtx) (o : Op) (t : Elem) (op : StredOp) (va : Nat) (arg : W32) : ETry State := do
  let e := ebits t / 8
  match regionOf va with
  | .none => eFault s 0x20 va
  | .tile _ _ => eFault s 0x21 va
  | .window w off => redFar s core x o va w off e (redCode t op) arg
  | .page =>
    let (_, _, s) ← opPage s core o va e
    let (pa, s) ← opPlace s core o va
    if s.bad pa e then eFault s 0xB0 va
    pure (chargeOp core o 5 e (performWrite s core pa (leBytes e (redCombine t op (leNat (s.bytes pa e)) arg)) false))

/-- Element (m, n) of STRED, at place p = 64·m + n. -/
def stredElem (core : Nat) (t : Elem) (op : StredOp) (sat : Bool) (p : Nat) (o : Op) (s : State) : ETry State :=
  match tensorAt t (o.args.drop 2) (o.args.getD 1 0) (p / 64) (p % 64) with
  | none => .ok s
  | some va =>
    let x := mget 0 o.data p
    let bs := leBytes (ebits t / 8) (narrow o.fpc sat t x).1
    (if op == .store then opWrite s core .ea o va.toNat bs (bs.map (fun _ => false))
      else redElem s core .ea o t op va.toNat x).map (chargeOp core o 6 (ebits t / 8))

/-- The flags of STRED's narrowings. -/
def stredFlags (t : Elem) (op : StredOp) (sat : Bool) (o : Op) : Flags :=
  if op == .store then
    (List.range 1024).foldl (fun (f : Flags) p =>
      if (tensorAt t (o.args.drop 2) (o.args.getD 1 0) (p / 64) (p % 64)).isSome then
        f ||| (narrow o.fpc sat t (mget 0 o.data p)).2
      else f) 0
  else 0

def execStredComplete (core n : Nat) (s : State) : Res :=
  match opAt s core .ea n with
  | none => .next s
  | some o =>
    match o.i with
    | .stred _ t op sat .. =>
      if mayRun s core .ea o then
        .next (runRows core .ea o 1024 (stredElem core t op sat)
          (fun o s => finishOp core .ea o (opFlags core .ea o (stredFlags t op sat o) s)) s)
      else .next s
    | _ => .next s

end Sys2Proof.Machine
end

