-- ==== Sys2Proof/Machine/Matrix.lean ====
section
/-! DEFINITION. The log-domain matrix engine (R164 to R183): leases, BLEND, the matrix queue with its products and
drains, MSTAT and MROWP, and the steps the clusters take. -/

namespace Sys2Proof

/-- The tile format, the width and the element size of an operand format (R169, R170). -/
def MFmt.elem : MFmt → Elem | .l8 => .l8 | .l16 => .l16 | .e8 => .e8 | .b16 => .b16
def MFmt.wide : MFmt → Bool | .l16 | .b16 => true | _ => false
def MFmt.size (f : MFmt) : Nat := if MFmt.wide f then 2 else 1

end Sys2Proof

namespace Sys2Proof.Machine

/-! ### Leases (R166 to R168) -/

/-- The four cores of a cluster. -/
def coresOf (cl : Nat) : List Nat := (List.range 4).map (coreAt cl)

/-- Whether an operation is a matrix command. -/
def isProduct (i : Instr) : Bool := match i with | .mma .. => true | .mmag .. => true | _ => false

/-- Whether a core has matrix commands queued or in the array that need no lease any more: those that a stop left have
lost theirs, and wait for the next (R166). -/
def busyArray (s : State) (c : Nat) : Bool :=
  let k := s.core c
  !k.preempted && !k.lease.again && (k.opsOf .mx).any (fun o => isProduct o.i)

/-- Whether a held lease has run out of cycles (R166). -/
def leaseSpent (s : State) (l : Lease) : Bool := l.since + 65536 ≤ s.cycle

/-- A core's lease ends: state NONE. -/
def endLease (c : Nat) (s : State) : State := s.modCore c (fun k => { k with lease := { k.lease with st := .none, gang := false } })

/-- MTX_NO_LEASE: the lease is not HELD, or not of the kind (R166, R168). -/
def needLease (s : State) (gang : Bool) : Try Unit :=
  let l := s.me.lease
  trapIf s (l.st != .held || leaseSpent s l || l.gang != gang) 0x50

/-- A matrix command accepted under the lease (R166): the 16th ends it. -/
def countLease (s : State) : State :=
  s.modMe (fun k =>
    let n := k.lease.used + 1
    { k with lease := { k.lease with used := n, idle := s.cycle, st := if 16 ≤ n then .none else k.lease.st } })

/-- MLEASE (R167): the request, then the wait for its grant. One that was withdrawn and issues again waits for its request
where that stands, and in HELD ends the lease and asks anew. -/
def execMlease (c : Clause) (g : Bool) (s : State) : Res :=
  runWide c s (fun s => do
    let l := s.me.lease
    let ask (b : Bool) (s : State) : State := s.modMe (fun k => { k with lease := { k.lease with asking := b } })
    if l.asking && l.st == .held then pure (ask false s)
    else if l.st == .req && (l.asking || l.gang = g) then block (ask true s)
    else
      let cl := clusterOf s.cur.core
      let s := s.modMe (fun k => { k with lease := { Lease.init with st := .req, gang := g, since := s.cycle, asking := true } })
      block (if g && (s.cluster cl).gangAt.isNone then s.modCluster cl (fun k => { k with gangAt := some s.cycle }) else s))

def execMrel (c : Clause) (s : State) : Res := runWide c s (always (fun s => endLease s.cur.core s))

/-- Whether all four cores of a cluster ask for a gang lease. -/
def gangFormed (s : State) (cl : Nat) : Bool :=
  (coresOf cl).all (fun c => let l := (s.core c).lease; l.st == .req && l.gang)

/-- The lease given to a core; one that was asked for again belongs to no MLEASE under way. -/
def grantTo (c : Nat) (s : State) : State :=
  s.modCore c (fun k => { k with lease := { k.lease with
    st := .held, since := s.cycle, used := 0, idle := s.cycle, again := false, asking := k.lease.asking && !k.lease.again } })

/-- The next core asking, after the last holder in increasing position (R166). -/
def nextAsker (s : State) (cl : Nat) : Option Nat :=
  let last := (s.cluster cl).last
  ((List.range 4).map (fun i => (last + 1 + i) % 4)).find? (fun q =>
    let l := (s.core (coreAt cl q)).lease
    l.st == .req && !l.gang)

/-- A cluster's array passes to its next holder (R166, R168). -/
def execLeaseGrant (cluster : Nat) (s : State) : Res :=
  if (coresOf cluster).any (fun c => (s.core c).lease.st == .held || busyArray s c) then .next s
  else if gangFormed s cluster then
    .next (((coresOf cluster).foldl (fun s c => grantTo c s) s).modCluster cluster (fun k => { k with gangAt := none }))
  else
    match nextAsker s cluster with
    | none => .next s
    | some q => .next ((grantTo (coreAt cluster q) s).modCluster cluster (fun k => { k with last := q }))

/-- A lease expires (R166). -/
def execLeaseExpiry (core : Nat) (s : State) : Res :=
  let l := (s.core core).lease
  if l.st == .held && leaseSpent s l then .next (endLease core s) else .next s

/-- The cores that a core's lease is for: itself, or the four of its cluster as one holder (R168). -/
def holdersWith (s : State) (core : Nat) : List Nat :=
  if (s.core core).lease.gang then coresOf (clusterOf core) else [core]

/-- An idle lease is revoked while another core asks (R166). -/
def execLeaseRevoke (core : Nat) (s : State) : Res :=
  let hs := holdersWith s core
  let asks := ((coresOf (clusterOf core)).filter (fun c => (s.core c).lease.st == .req)).map (fun c => (s.core c).lease.since)
  let idle := hs.foldl (fun m c => max m (s.core c).lease.idle) 0
  if (s.core core).lease.st == .held && !asks.isEmpty && hs.all (fun c => !busyArray s c) &&
      max idle (leastOf s.cycle asks) + 1024 ≤ s.cycle then
    .next ((hs.filter (fun c => (s.core c).lease.st == .held)).foldl (fun s c =>
      (endLease c s).modCore c (fun k => { k with mstat := k.mstat ||| msREV })) s)
  else .next s

/-- A gang that has not formed in 1,024 cycles traps (R168). -/
def execGangLeaseTimeout (cluster : Nat) (s : State) : Res :=
  match (s.cluster cluster).gangAt with
  | none => .next s
  | some t =>
    if gangFormed s cluster || s.cycle < t + 1024 then .next s
    else
      let asked := (coresOf cluster).filter (fun c => let l := (s.core c).lease; l.st == .req && l.gang)
      .next ((asked.foldl (fun s c =>
        let s := s.modCore c (fun k => { k with lease := { k.lease with st := .none, gang := false, asking := false, again := false } })
        let k := s.core c
        if k.live && k.mode == .u && k.raised.isNone then takeTrap c .exe ⟨0x56, 0, 0, none, none⟩ s else s) s).modCluster
          cluster (fun k => { k with gangAt := none }))

/-! ### BLEND (R173) -/

/-- The V registers an instruction under way in a strand names. -/
def vecNames (k : Core) (st : Strand) (i : Instr) : List Nat :=
  let blk (idx : BitVec 5) (v : BitVec 9) (trans : Bool) : List Nat :=
    let w := k.rA st idx
    let r := (fld w 0 16).toNat
    let c := (fld w 16 16).toNat
    if trans then blockRegs v.toNat c r else blockRegs v.toNat r c
  match i with
  | .ldv _ _ vd _ idx _ | .stva _ _ _ vd _ idx _ => blk idx vd false
  | .ldva _ _ vd _ idx _ => blk idx vd true
  | .ldvt _ _ vd .. => [vd.toNat]
  | .stred _ _ _ _ vd .. | .spopv _ vd .. | .spushv _ vd .. => [vd.toNat]
  | .gath _ _ _ vd va _ | .btgath _ _ _ vd va .. => [vd.toNat, va.toNat]
  | .scat _ _ _ _ va vb _ => [va.toNat, vb.toNat]
  | _ => []

/-- The V registers that instructions issued and not finished name, with the pending ones. -/
def inUse (s : State) (c : Nat) : List Nat :=
  let k := s.core c
  k.vPend ++ ([Strand.fet, .emi].map (fun st =>
    let x := k.strand st
    if x.asked = 0 then []
    else
      match nextWord s c st .u x.pc with
      | .error _ => []
      | .ok (w, _) => match decodeWide st (repWord st x (w64 w)) 0 with | some i => vecNames k st i | none => [])).flatten

/-- Whether a queued matrix command reads a bank. -/
def readsBank (b : Nat) (o : Op) : Bool :=
  match o.i with
  | .mma _ _ _ _ _ _ (.bank x) .. => x.toNat = b
  | .mmag _ _ _ _ _ _ (.bank x) .. => x.toNat = b
  | _ => false

def execBlend (c : Clause) (bank : BitVec 4) (back : Bool) (s : State) : Res :=
  runWide c s (fun s => do
    let b := bank.toNat
    let k := s.me
    if back then
      trapIf s (!k.lent.getLsbD b) 0x54
      waitFor s (!(k.opsOf .mx).any (readsBank b))
      pure (s.modMe (fun k => { k with lent := k.lent &&& ~~~(BitVec.ofNat 12 (2 ^ b)) }))
    else
      trapIf s (k.lent.getLsbD b || (inUse s s.cur.core).any (fun v => v / 32 = b)) 0x54
      pure (s.modMe (fun k => { k with lent := k.lent ||| BitVec.ofNat 12 (2 ^ b) })))

/-! ### Operands (R169, R170) -/

/-- A raw operand element as a 16-bit log value, and whether its conversion saturated (R170). -/
def fieldOf (f : MFmt) (raw : Nat) : Lv × Bool :=
  match f with
  | .l8 => (lwiden (l8v raw), false)
  | .l16 => (l16v raw, false)
  | .e8 => let r := lns8 true (e8v raw); (lwiden r.1, r.2 != .none)
  | .b16 => let r := lns16 true (f32v (b16Slot raw)); (r.1, r.2 != .none)

/-- A lent bank's slot as a log value (R169). -/
def bankField (f : MFmt) (w : W32) : Lv × Bool :=
  match f with
  | .l16 => (l16v (w.toNat % 65536), false)
  | .l8 => let r := lnarrow true (l16v (w.toNat % 65536)); (lwiden r.1, r.2 != .none)
  | .e8 => let r := lns8 true (f32v w); (lwiden r.1, r.2 != .none)
  | .b16 => let r := lns16 true (f32v w); (r.1, r.2 != .none)

/-! ### The accumulation (R174, R175) -/

/-- An RNE32 of the accumulation with its MSTAT flags (R175). -/
def accRound (x : Fv) : W32 × W64 :=
  let r := rnd32 .rne false x
  (r.1, (if r.2 &&& flOF != 0 then msOVF else 0) |||
    (if r.2 &&& flNX != 0 && r.1 &&& 0x7F800000 == 0 then msUFL else 0))

/-- One term of a bucket: trunc(F·2^(i−α+64)), and whether a part was lost. -/
def bucketTerm (f : Nat) (d : Int) : Nat × Bool :=
  if -64 ≤ d then (f * 2 ^ (64 + d).toNat, false)
  else let g := 2 ^ (-64 - d).toNat; (f / g, f % g != 0)

/-- The value of a chunk's products: RNE32 of the combined buckets, with LOSS. -/
def chunkValue (ps : List (Int × Bool)) : W32 × W64 :=
  match ps with
  | [] => (0, 0)
  | p :: l =>
    let alpha := l.foldl (fun (m : Int) q => max m (q.1 / 128)) (p.1 / 128)
    let terms := ps.map (fun q => (q, bucketTerm (patF (q.1 % 16).toNat) (q.1 / 128 - alpha)))
    let sum : Int := (List.range 8).foldl (fun (a : Int) b =>
      a + patC b * (terms.foldl (fun (d : Int) t =>
        if (t.1.1 % 128 / 16).toNat = b then (if t.1.2 then d - t.2.1 else d + t.2.1) else d) 0)) 0
    let loss : W64 := if terms.any (fun t => t.2.2) then msLOSS else 0
    let r := accRound (.fin (dyOf false sum (alpha - 102)))
    (r.1, loss ||| r.2)

/-- One chunk added to a value; one without products adds +0, unscaled (R174). -/
def chunkStep (scale : Option (W32 × W32)) (xs : List (Lv × Lv)) (z : W32) : W32 × W64 :=
  if xs.any (fun p => p.1 == .nar || p.2 == .nar) then (nan32, msNAR)
  else
    let ps := xs.filterMap (fun p => match p.1, p.2 with
      | .num a x, .num b y => some (x + y, a != b)
      | _, _ => none)
    let q := chunkValue ps
    let (q, f) := match (if ps.isEmpty then none else scale) with
      | none => q
      | some (sa, sb) =>
        let s := accRound (fvMul (f32v sa) (f32v sb)).1
        let r := accRound (fvMul (f32v q.1) (f32v s.1)).1
        (r.1, q.2 ||| s.2 ||| r.2)
    let r := accRound (fvAdd .rne (f32v z) (f32v q)).1
    (r.1, f ||| r.2)

/-- One output from its row of A, its column of B and the scales of its chunks (R174). -/
def output (z : W32) (xs : List (Lv × Lv)) (scale : Nat → Option (W32 × W32)) : Nat → Nat → W32 × W64
  | 0, _ => (z, 0)
  | fuel + 1, c =>
    if xs.isEmpty then (z, 0)
    else
      let r := chunkStep (scale c) (xs.take 128) z
      let t := output r.1 (xs.drop 128) scale fuel (c + 1)
      (t.1, r.2 ||| t.2)

/-! ### Commands and their operands in the queue -/

/-- What a product needs, as its word and captured registers give it. `groups` are the row counts with B and its
scale; `ma` is the rows of A that the core's own operand holds. -/
structure Product where
  fa : MFmt
  fb : MFmt
  gang : Bool
  z0 : Bool
  sc : Bool
  a : ASrc
  bva : Bool
  m : Nat
  ma : Nat
  n : Nat
  k : Nat
  zrow : Nat
  zcol : Nat
  ax : W64
  as_ : W64
  hsa : W64
  groups : List (Nat × W64 × W64 × W64)
deriving DecidableEq, Repr

/-- The groups in a captured list: count, B or its base, B's stride, B's scale. -/
def groupsOf : List W64 → List (Nat × W64 × W64 × W64)
  | n :: x :: t :: h :: l => (n.toNat, x, t, h) :: groupsOf l
  | _ => []

/-- The rows of A a gang member holds (R178). -/
def gangRows (c m : Nat) : Nat := min 128 (m - 128 * posOf c)

/-- The product of an operation of core `c`: args are null, A or its base, A's stride, hsa, then the groups. -/
def productOf (c : Nat) (o : Op) : Option Product :=
  let g (i : Nat) : W64 := o.args.getD i 0
  match o.i with
  | .mma _ fa fb gang z0 sc a b m n k zcol zrow _ _ =>
    some { fa, fb, gang, z0, sc, a, bva := (match b with | .va _ => true | _ => false), m := m.toNat + 1,
           ma := if gang then gangRows c (m.toNat + 1) else m.toNat + 1, n := n.toNat + 1,
           k := 16 * (k.toNat + 1), zrow := zrow.toNat, zcol := zcol.toNat, ax := g 1, as_ := g 2, hsa := g 3,
           groups := groupsOf (o.args.drop 4) }
  | .mmag _ fa fb _ z0 sc a _ _ _ m n k zcol zrow _ _ =>
    some { fa, fb, gang := false, z0, sc, a, bva := false, m := m.toNat + 1, ma := m.toNat + 1, n := n.toNat + 1,
           k := 16 * (k.toNat + 1), zrow := zrow.toNat, zcol := zcol.toNat, ax := g 1, as_ := g 2, hsa := g 3,
           groups := groupsOf (o.args.drop 4) }
  | _ => none

def Product.chunks (p : Product) : Nat := (p.k + 127) / 128
/-- The rows the product computes. -/
def Product.rows (p : Product) : Nat := p.groups.foldl (fun n g => n + g.1) 0

/-- The tile operands: handle, format, rows, columns; A and hsa only for a core with rows of its own. -/
def Product.tiles (p : Product) (first : Bool) : List (W64 × Elem × Nat × Nat) :=
  let live := p.groups.filter (fun g => g.1 ≠ 0)
  (match p.a with | .handle _ => if p.ma = 0 then [] else [(p.ax, p.fa.elem, p.ma, p.k)] | _ => []) ++
    (if p.bva || !first then [] else live.map (fun g => (g.2.1, p.fb.elem, p.k, p.n))) ++
    (if p.sc then
      (if p.ma = 0 then [] else [(p.hsa, Elem.f32, p.ma, p.chunks)]) ++
        (if first then live.map (fun g => (g.2.2.2, Elem.f32, p.chunks, (p.n + 127) / 128)) else [])
     else [])

/-- Whether a core's own word supplies B: always, but in a gang product only core 0's (R178). -/
def suppliesB (c : Nat) (p : Product) : Bool := !p.gang || posOf c = 0

/-- The parts of the address space that a VA operand reads: `n` rows of `len` bytes from a base and a stride (R169). -/
def vaRows (x t : W64) (n len : Nat) : List (Nat × Nat) := (List.range n).map (fun i => ((x + w64 i * t).toNat, len))

/-- WIN_STRADDLE of a VA operand (R295). -/
def vaStraddle (s : State) (rs : List (Nat × Nat)) : Try Unit :=
  match rs.find? (fun q => straddles s s.me.ctxOf q.1 q.2) with
  | some q => trapAt s 0x27 (w64 q.1)
  | none => .ok ()

/-- What is wrong with a tile operand at its home: R105's step 4, then its format and shape (R169). -/
def operandBad (s : State) (ctx : Nat) (t : W64 × Elem × Nat × Nat) : Option Nat :=
  let x := s.folio (hCore t.1) (hFolio t.1)
  match recordCheck s ctx t.1 with
  | some c => some c
  | none => if x.fmt != t.2.1 || x.rows ≠ t.2.2.1 || x.cols ≠ t.2.2.2 then some 0x51 else none

/-- The checks of R177 after the lease, and the operation enqueued. -/
def issueProduct (i : Instr) (p : Product) (args : List W64) (s : State) : Try State := do
  trapIf s (p.fa.wide != p.fb.wide) 0x53
  trapIf s ((if p.gang then p.zrow ≠ 0 else 128 < p.m || 128 < p.zrow + p.m) || 512 < p.zcol + p.n) 0x51
  match p.a with
  | .bank b =>
    if p.ma ≠ 0 then
      trapIf s (!s.me.lent.getLsbD b.toNat) 0x54
      trapIf s (128 < p.ma || 32 < (p.ma + 15) / 16 * ((p.k + 63) / 64)) 0x51
  | .va _ =>
    if p.ma ≠ 0 && (p.ax.toNat % p.fa.size ≠ 0 || p.as_.toNat % p.fa.size ≠ 0) then trapAt s 0x24 p.ax
  | .handle _ => pure ()
  let first := suppliesB s.cur.core p
  if p.bva && first then
    match p.groups with
    | (_, x, t, _) :: _ => if x.toNat % p.fb.size ≠ 0 || t.toNat % p.fb.size ≠ 0 then trapAt s 0x24 x
    | [] => pure ()
  (match p.a with
    | .va _ => vaStraddle s (vaRows p.ax p.as_ p.ma (p.k * p.fa.size))
    | _ => .ok ())
  if p.bva && first then
    match p.groups with
    | (_, x, t, _) :: _ => vaStraddle s (vaRows x t p.k (p.n * p.fb.size))
    | [] => pure ()
  let ts := p.tiles first
  ts.forM (fun t => orTrap s (handleBits t.1 0))
  ts.forM (fun t => if atHome s t.1 then orTrap s (operandBad s s.me.ctxOf t) else pure ())
  let data := match p.a with | .bank b => captureBlock s.me (32 * b.toNat) 32 | _ => []
  let s ← issueOp .mx i args data (ts.map (·.1)) s
  pure (countLease s)

/-- A scratch operation to read a word's product from. -/
def asOp (i : Instr) (args : List W64) : Op :=
  { n := 0, i, st := .exe, fpc := 0, attr := ⟨.rlx, .dev, .normal⟩, args, data := [], pos := 0, pins := [], started := false,
    asked := 0, got := [], ctx := 0, cls := 0, launch := 0, cell := 0, back := false }

/-- The register after a named one. -/
def aSrcArgs (s : State) (a : ASrc) : List W64 :=
  match a with | .handle h => [s.rH h, 0] | .va r => [s.rA r, s.rA (r + 1)] | .bank _ => [0, 0]

/-! ### MMA and MMAG (R177 to R179) -/

def execMma (c : Clause) (fa fb : MFmt) (g z0 sc : Bool) (a : ASrc) (b : BSrc) (m n k zcol : BitVec 9) (zrow : BitVec 7)
    (hsa hsb : BitVec 6) (s : State) : Res :=
  runWideN 2 false c s (fun s => do
    raiseMark .mx s
    needLease s g
    let i : Instr := .mma c fa fb g z0 sc a b m n k zcol zrow hsa hsb
    let bx : List W64 := match b with | .handle h => [s.rH h, 0] | .va r => [s.rA r, s.rA (r + 1)]
    let args := 0 :: aSrcArgs s a ++ [s.rH hsa] ++ [w64 (m.toNat + 1)] ++ bx ++ [s.rH hsb]
    match productOf s.cur.core (asOp i args) with
    | none => pure s
    | some p => issueProduct i p args s)

/-- The first `n` elements of the count tile as signed numbers (R179). -/
def countsOf (get : Nat → Byte) (n : Nat) : List Int := (List.range n).map (fun i => sextN 32 (elemAt get .i32 i))

/-- MMAG's count tile: I32 with at least `g` elements, read once it is FULL. -/
def readCounts (s : State) (h : W64) (g : Nat) : Try (List Int) := do
  checkTile s h (handleBits h 0)
  let x ← readRecord s h
  trapIf s (x.fmt != .i32 || x.rows * x.cols < g) 0x51
  if homeHere s h then
    waitFilled s h
    trapIf s (tileBad s (hCore h) (16384 * x.first) (4 * g)) 0xB0
    pure (countsOf (fun j => mget 0 (s.core (hCore h)).store (16384 * x.first + j)) g)
  else
    if x.state == .filling then .error (.wait (s.modMy (fun y => { y with asked := 0, got := [] })))
    let bs ← farContents s h 1 (4 * g)
    pure (countsOf (fun j => bs.getD j 0) g)

def execMmag (c : Clause) (fa fb : MFmt) (g z0 sc : Bool) (a : ASrc) (hb hc : BitVec 6) (grp : BitVec 4)
    (m n k zcol : BitVec 9) (zrow : BitVec 7) (hsa hy : BitVec 6) (s : State) : Res :=
  runWideN 2 false c s (fun s => do
    raiseMark .mx s
    trapIf s g 0x56
    needLease s false
    let ng := grp.toNat + 1
    let counts ← readCounts s (s.rH hc) ng
    trapIf s (counts.any (fun x => x < 0) || (m.toNat + 1 : Int) < counts.foldl (· + ·) 0) 0x52
    let groups := counts.zipIdx.map (fun p =>
      [w64 p.1.toNat, s.rH (hb + BitVec.ofNat 6 p.2), 0, if sc then s.rH (hy + BitVec.ofNat 6 p.2) else 0])
    let i : Instr := .mmag c fa fb g z0 sc a hb hc grp m n k zcol zrow hsa hy
    let args := 0 :: aSrcArgs s a ++ [s.rH hsa] ++ groups.flatten
    match productOf s.cur.core (asOp i args) with
    | none => pure s
    | some p => issueProduct i p args s)

/-! ### MZERO and MDRAIN (R180, R181) -/

def execMzero (c : Clause) (m n : BitVec 9) (zrow : BitVec 7) (zcol : BitVec 9) (s : State) : Res :=
  runWide c s (fun s => do
    raiseMark .mx s
    trapIf s (128 < zrow.toNat + m.toNat + 1 || 512 < zcol.toNat + n.toNat + 1) 0x51
    issueOp .mx (.mzero c m n zrow zcol) [0] [] [] s)

def execMdrain (c : Clause) (dest : Dest) (t : Elem) (sat clip z : Bool) (scl : Option (BitVec 5)) (m n : BitVec 9)
    (zrow : BitVec 7) (zcol : BitVec 9) (s : State) : Res :=
  runWideN 2 false c s (fun s => do
    raiseMark .mx s
    let rows := m.toNat + 1
    let cols := n.toNat + 1
    trapIf s (128 < zrow.toNat + rows || 512 < zcol.toNat + cols) 0x51
    let sv : W64 := match scl with | some a => w64 (2 ^ 32 + (s.rA a).toNat % 2 ^ 32) | none => 0
    let i : Instr := .mdrain c dest t sat clip z scl m n zrow zcol
    match dest with
    | .tile hd =>
      destFree s hd none
      match newTile s.cur.core s.me.ctxOf t rows cols .filling false false s with
      | none => trap s 0x40
      | some (f, s) =>
        let h := handleOf s s.cur.core f
        issueOp .mx i ([h, sv] ++ tileArgs (s.folio s.cur.core f)) [] [] (s.wH hd h)
    | .vregs v =>
      let regs := blockRegs v.toNat rows cols
      vecOk s regs
      let s ← issueOp .mx i [0, sv] [] [] s
      pure (s.modMe (fun k => { k with vPend := k.vPend ++ regs }))
    | .store a | .add a =>
      let (d, s) ← readTensor s t (s.rA a)
      relPart s s.attr
      issueOp .mx i ([0, sv] ++ d) [] [] s)

/-- LIM(T) (R181), exact. -/
def drainLim (t : Elem) (neg : Bool) : Fv :=
  match t with
  | .b16 => f32v (if neg then 0xFF7F0000 else 0x7F7F0000)
  | .e8 => f32v (if neg then 0xC3E00000 else 0x43E00000)
  | .l16 => lval (.num neg 16383)
  | .l8 => lval (.num neg 1008)
  | _ => f32v (if neg then 0xFF7FFFFF else 0x7F7FFFFF)

def fvNeg : Fv → Bool | .nan => false | .inf n => n | .fin d => d.neg
/-- |y| above the limit. -/
def beyondLim (t : Elem) (y : Fv) : Bool :=
  if fvNeg y then fvCmp y (drainLim t true) < 0 else fvCmp (drainLim t false) y < 0

def evFlag (e : Ev) : W64 := match e with | .none => 0 | .sat => msSAT | .high => msOVF | .low => msUFL

/-- One drained element: the code of T and its MSTAT flags (R181). -/
def drainElem (t : Elem) (sat clip : Bool) (scale : Option W32) (x : W32) : Nat × W64 :=
  let (y, f) : Fv × W64 := match scale with
    | none => (f32v x, 0)
    | some w => let r := rnd32 .rne false (fvMul (f32v x) (f32v w)).1; (f32v r.1, if r.2 &&& flOF != 0 then msOVF else 0)
  match y with
  | .nan => (match t with | .b16 => 0x7FC0 | .e8 => 0x7F | .l8 => 0xC0 | .l16 => 0xC000 | _ => 0x7FC00000, f)
  | _ =>
    let cut := clip && beyondLim t y
    let f := if cut && sat then f ||| msSAT else f
    let y := if cut then drainLim t (fvNeg y) else y
    match t with
    | .b16 =>
      let r := rndB16 .rne false y
      let high := r.2 &&& flOF != 0 || (match y with | .inf _ => true | _ => false)
      if high then
        if sat then (if fvNeg y then 0xFF7F else 0x7F7F, f ||| msSAT) else (if fvNeg y then 0xFF80 else 0x7F80, f ||| msOVF)
      else (r.1, if r.1 % 32768 = 0 && (match y with | .fin d => d.m ≠ 0 | _ => false) then f ||| msUFL else f)
    | .e8 => let r := nrw8 .rne sat y; (r.code, f ||| evFlag r.ev)
    | .l8 => let r := lns8 sat y; (l8c r.1, f ||| evFlag r.2)
    | .l16 => let r := lns16 sat y; (l16c r.1, f ||| evFlag r.2)
    | _ =>
      match y with
      | .inf neg =>
        if sat then (if neg then 0xFF7FFFFF else 0x7F7FFFFF, f ||| msSAT) else (if neg then 0xFF800000 else 0x7F800000, f ||| msOVF)
      | _ => ((rne32 y).toNat, f)

/-! ### MSTAT and MROWP (R182, R183) -/

def execMstat (c : Clause) (ad : BitVec 5) (clr : Bool) (s : State) : Res :=
  runWide c s (always (fun s =>
    (s.wA ad s.me.mstat).modMe (fun k => if clr then { k with mstat := 0 } else k)))

def execMrowp (c : Clause) (ad : BitVec 5) (set : Option (BitVec 5)) (s : State) : Res :=
  runWideFirst 1 false c (fun s => if set.isSome then needPriv s else .ok ()) s (fun s => do
    let old := w64 s.me.mrowp
    match set with
    | none => pure (s.wA ad old)
    | some aa =>
      needPriv s
      let v := s.rA aa
      pure (setMrowp s.cur.core v (s.wA ad old)))

/-! ### The matrix queue (R164, R165, R172, R174) -/

/-- The operation at the head of a core's matrix queue. -/
def headOp (s : State) (c : Nat) : Option Op := ((s.core c).opsOf .mx).head?

/-- Whether the array is with another core, or a product of a stopped cell waits for its new lease (R166); the four cores
of a gang are one holder. -/
def arrayAway (s : State) (c : Nat) : Bool :=
  let l := (s.core c).lease
  l.again || (l.st != .held && (coresOf (clusterOf c)).any (fun d =>
    d ≠ c && (s.core d).lease.st == .held && !(s.core d).lease.gang))

/-- Whether a head command may be worked on; a product needs the array. -/
def mxReady (s : State) (c : Nat) (o : Op) : Bool := mayRun s c .mx o && !(isProduct o.i && arrayAway s c)

/-- A failure at the head (R177): MX marked, nothing written, the command reported complete. -/
def mxFail (c : Nat) (o : Op) (cause : Nat) (s : State) : State :=
  if opLate s c o then lateFault c .mx o cause 0 0 s else mark c .mx 0 cause 0 0 (abandonOp c .mx o s)

/-- The first failure among operands homed on this device, and whether one is FILLING. -/
def operandsNow (s : State) (ctx : Nat) (ts : List (W64 × Elem × Nat × Nat)) : Option Nat × Bool :=
  let here := ts.filter (fun t => homeHere s t.1)
  ((here.filterMap (operandBad s ctx)).head?,
   here.any (fun t => (s.folio (hCore t.1) (hFolio t.1)).state == .filling))

/-- The command started: its row pointer at 0, its array cycles charged (R165, R183). -/
def startOp (c : Nat) (o : Op) (cycles : Nat) (rowp : Bool) (s : State) : State :=
  let s := setOp c .mx { o with started := true } s
  let s := if rowp then s.modCore c (fun k => { k with mrowp := 0 }) else s
  if cycles = 0 then s else chargeOp c o 4 cycles s

/-- The words of a gang product that must agree (R178). -/
def gangKey (p : Product) : MFmt × MFmt × Nat × Nat × Nat × Bool × Bool × Nat :=
  (p.fa, p.fb, p.m, p.n, p.k, p.sc, p.z0, p.zcol)

/-- A cluster's gang product, if all four cores have theirs at the head of their queues. -/
def gangHeads (s : State) (cl : Nat) : Option (List (Nat × Op × Product)) :=
  (coresOf cl).mapM (fun c =>
    match headOp s c with
    | none => none
    | some o => match productOf c o with | some p => if p.gang then some (c, o, p) else none | none => none)

/-- The participants of the command at the head of a core's queue: itself, or the four of a gang; a gang product is
worked on through its cluster's core 0. -/
def joint (s : State) (c : Nat) (o : Op) (p : Product) : Option (List (Nat × Op × Product)) :=
  if p.gang then (if posOf c = 0 then gangHeads s (clusterOf c) else none) else some [(c, o, p)]

/-- The head command of a core's matrix queue starts: operands checked and FULL (R177). -/
def execMatrixCmdStart (core : Nat) (s : State) : Res :=
  match headOp s core with
  | none => .next s
  | some o =>
    if o.started || !mxReady s core o then .next s
    else
      match productOf core o with
      | none => .next (startOp core o 0 false s)
      | some p =>
        match joint s core o p with
        | none => .next s
        | some ps =>
          if ps.any (fun x => !mxReady s x.1 x.2.1) then .next s
          else if ps.any (fun x => gangKey x.2.2 != gangKey p) then
            .next (ps.foldl (fun s x => mxFail x.1 x.2.1 0x56 s) s)
          else
            let now := ps.map (fun x => operandsNow s x.2.1.ctx (x.2.2.tiles (suppliesB x.1 x.2.2)))
            match (now.filterMap (·.1)).head? with
            | some cause => .next (ps.foldl (fun s x => mxFail x.1 x.2.1 cause s) s)
            | none =>
              if now.any (·.2) then .next s
              else
                let w := if p.fa.wide then 2 else 1
                .next (ps.foldl (fun s x =>
                  startOp x.1 x.2.1 (if x.1 = core then w * p.rows * p.chunks else 0) true s) s)

/-! ### Fetching what lies elsewhere -/

/-- A part of a product's operands that is fetched before its rows: the record and the contents of a tile of another
device, or a row of B in memory; `slot` is where the bytes go in `data`. -/
inductive Fetch
  | record (h : W64) (t : Elem) (rows cols : Nat)
  | contents (h : W64) (n slot : Nat)
  | row (va n slot at_ : Nat)
deriving DecidableEq, Repr

/-- Bytes kept at an offset of `data`. -/
def keepAt (d : SMap W32) (at_ : Nat) (bs : List Byte) (ps : List Bool) : SMap W32 :=
  d.filter (fun p => p.1 < at_) ++ (keepBytes bs ps).map (fun p => (at_ + p.1, p.2)) ++
    d.filter (fun p => at_ + bs.length ≤ p.1)

def doFetch (c : Nat) (f : Fetch) (o : Op) (s : State) : ETry State :=
  match f with
  | .record h t rows cols => do
    if s.net.lost.contains (hDev h) then eFault s (256 + 0x3B) 0
    match opAsk s c .mx o (fun _ => 0) 1 (fun s => sendPkt s c (homePkt h 34 []) (.engine c TlCtx.mx.idx o.n 0)) with
    | .error (.fault cause va s) => .error (.fault (256 + cause) va s)
    | .error (.wait s) => .error (.wait s)
    | .ok (bs, s) =>
      let b := bs.flatten
      let x := folioFrom o.ctx (w64 (leNat (b.take 8))) (w64 (leNat ((b.drop 8).take 8))) (w64 (leNat (b.drop 16)))
      if x.fmt != t || x.rows ≠ rows || x.cols ≠ cols then eFault s (256 + 0x51) 0
      if readable x then pure s else .error (.wait s)
  | .contents h n slot => do
    if s.net.lost.contains (hDev h) then eFault s 0x3B 0
    let k := (n + 255) / 256
    let (bs, s) ← opAsk s c .mx o (fun _ => 0) k (fun s => (List.range k).foldl (fun s i =>
      sendPkt s c (homePkt h 35 (leBytes 8 (256 * i))) (.engine c TlCtx.mx.idx o.n i)) s)
    let o := nowOp s c .mx o
    let b := bs.flatten.take n
    pure (setOp c .mx { o with data := keepAt o.data (slot * 2 ^ 24) b (b.map (fun _ => false)) } s)
  | .row va n slot at_ => do
    let (bs, ps, s) ← opRead s c .mx o va n
    noPoison s va ps
    let o := nowOp s c .mx o
    pure (setOp c .mx { o with data := keepAt o.data (slot * 2 ^ 24 + at_) bs ps } s)

/-- The fetches of a tile operand of another device. -/
def farTile (s : State) (t : W64 × Elem × Nat × Nat) (slot : Nat) : List Fetch :=
  if homeHere s t.1 then [] else [.record t.1 t.2.1 t.2.2.1 t.2.2.2, .contents t.1 (rowBytes t.2.1 (t.2.2.1 * t.2.2.2)) slot]

/-- The slots: A 0, hsa 1, B of group g 2 + g, its scale 20 + g. -/
def slotB (g : Nat) : Nat := 2 + g
def slotS (g : Nat) : Nat := 20 + g

/-- A participant's fetches, in order. -/
def fetchesOf (s : State) (c : Nat) (p : Product) : List Fetch :=
  let gs := p.groups.zipIdx.filter (fun g => g.1.1 ≠ 0)
  (match p.a with | .handle _ => if p.ma = 0 then [] else farTile s (p.ax, p.fa.elem, p.ma, p.k) 0 | _ => []) ++
    (if p.sc && p.ma ≠ 0 then farTile s (p.hsa, .f32, p.ma, p.chunks) 1 else []) ++
    (if suppliesB c p then
      (gs.map (fun g =>
        (if p.bva then
          (List.range p.k).map (fun r => Fetch.row (g.1.2.1 + w64 r * g.1.2.2.1).toNat (p.n * p.fb.size) (slotB g.2)
            (r * p.n * p.fb.size))
         else farTile s (g.1.2.1, p.fb.elem, p.k, p.n) (slotB g.2)) ++
        (if p.sc then farTile s (g.1.2.2.2, .f32, p.chunks, (p.n + 127) / 128) (slotS g.2) else []))).flatten
     else [])

/-- Bytes of an operand tile from an offset, wherever it is, with the bank of its first poisoned granule. -/
def operandBytes (s : State) (o : Op) (h : W64) (slot off n : Nat) : List Byte × Option Nat :=
  if homeHere s h then
    let c := hCore h
    let x := s.folio c (hFolio h)
    let lo := 16384 * x.first + off
    (unlist 0 (mslice (s.core c).store lo (lo + n)) 0 n, (tileBadAt s c lo n).map (fun g => tileBank (8 * g)))
  else
    let lo := slot * 2 ^ 24 + off
    ((unlist 0 (mslice o.data lo (lo + n)) 0 n).map (fun w => w.setWidth 8), none)

/-- Poisoned data in an operand tile: UNCORRECTABLE with the bank (R310, R333). -/
def goodTile (s : State) (bank : Option Nat) : ETry Unit :=
  match bank with
  | some b => eFault s (0xB0 + 512 * b) 0
  | none => .ok ()

/-- Bytes an earlier fetch left. -/
def fetchedBytes (o : Op) (slot n : Nat) : List Byte :=
  (unlist 0 (mslice o.data (slot * 2 ^ 24) (slot * 2 ^ 24 + n)) 0 n).map (fun w => w.setWidth 8)

/-- Row `m` of a participant's A as log values. -/
def rowA (s : State) (c : Nat) (o : Op) (p : Product) (m : Nat) : ETry (List (Lv × Bool) × State) :=
  let n := p.k * p.fa.size
  match p.a with
  | .handle _ => do
    let b := operandBytes s o p.ax 0 (m * n) n
    goodTile s b.2
    pure ((unpackRow p.fa.elem p.k b.1).map (fieldOf p.fa), s)
  | .va _ => do
    let va := (p.ax + w64 m * p.as_).toNat
    let (bs, ps, s) ← opRead s c .mx o va n
    noPoison s va ps
    pure ((unpackRow p.fa.elem p.k bs).map (fieldOf p.fa), s)
  | .bank _ =>
    let kb := (p.k + 63) / 64
    .ok ((((List.range kb).map (fun j =>
      let lo := 1024 * (m / 16 * kb + j) + 64 * (m % 16)
      (unlist 0 (mslice o.data lo (lo + 64)) 0 64).map (bankField p.fa))).flatten).take p.k, s)

/-- B of a group as log values, row-major, with the bank of its poison. -/
def wholeB (s : State) (o : Op) (p : Product) (g : Nat) (x : W64) : Array (Lv × Bool) × Option Nat :=
  let n := p.k * p.n * p.fb.size
  let (bs, bad) := if p.bva then (fetchedBytes o (slotB g) n, none) else operandBytes s o x (slotB g) 0 n
  (((unpackRow p.fb.elem (p.k * p.n) bs).map (fieldOf p.fb)).toArray, bad)

/-- F32 elements of a scale tile, with the bank of their poison. -/
def scaleTile (s : State) (o : Op) (h : W64) (slot off n : Nat) : Array W32 × Option Nat :=
  let b := operandBytes s o h slot (4 * off) (4 * n)
  (((unpackRow .f32 n b.1).map (BitVec.ofNat 32)).toArray, b.2)

/-- Where row `m` of a product falls: its group, and its B and scale. -/
def groupAt : List ((Nat × W64 × W64 × W64) × Nat) → Nat → Option ((Nat × W64 × W64 × W64) × Nat)
  | [], _ => none
  | g :: l, m => if m < g.1.1 then some g else groupAt l (m - g.1.1)

/-- Row `m` of the joined product computed and written (R174, R178). -/
def productRow (ps : List (Nat × Product)) (m : Nat) (s : State) : ETry State :=
  match ps with
  | [] => .ok s
  | (c0, p0) :: _ =>
    let q := if p0.gang then m / 128 else 0
    let mm := if p0.gang then m % 128 else m
    match ps[q]?, groupAt p0.groups.zipIdx m, headOp s c0 with
    | some (c, p), some (g, gi), some o0 =>
      match headOp s c with
      | none => .ok s
      | some o => do
        let (as, s) ← rowA s c o p mm
        let (b, badB) := wholeB s o0 p0 gi g.2.1
        goodTile s badB
        let nb := (p0.n + 127) / 128
        let (sa, bad1) := if p.sc then scaleTile s o p.hsa 1 (mm * p.chunks) p.chunks else (#[], none)
        let (sb, bad2) := if p.sc then scaleTile s o0 g.2.2.2 (slotS gi) 0 (p0.chunks * nb) else (#[], none)
        goodTile s (bad1.orElse (fun _ => bad2))
        let row := p.zrow + mm
        let old := (s.core c).quarter
        let outs := (List.range p.n).map (fun n =>
          let z : W32 := if p.z0 then 0 else mget 0 old (512 * row + p.zcol + n)
          output z (as.zipIdx.map (fun a => (a.1.1, (b.getD (a.2 * p.n + n) (.zero, false)).1)))
            (fun ch => if p.sc then some (sa.getD ch 0, sb.getD (ch * nb + n / 128) 0) else none) (p.chunks + 1) 0)
        let sat : W64 := if as.any (·.2) || b.any (·.2) then msSAT else 0
        let fl := outs.foldl (fun (f : W64) r => f ||| r.2) sat
        let late := opLate s c o
        pure (s.modCore c (fun k => { k with
          dirtyS := k.dirtyS ||| BitVec.ofNat 16 (2 ^ (row / 8)),
          quarter := msets 0 k.quarter (512 * row + p.zcol) (outs.map (·.1)),
          mstat := if late then k.mstat else k.mstat ||| fl }))
    | _, _, _ => .ok s

/-- The rows of a product from MROWP on (R172, R183). -/
def productRows (ps : List (Nat × Product)) (rows : Nat) : Nat → State → ETry State
  | 0, s => .ok s
  | fuel + 1, s =>
    let m := match ps with | (c, _) :: _ => (s.core c).mrowp | [] => rows
    if rows ≤ m then .ok s
    else do
      let s ← productRow ps m s
      productRows ps rows fuel (ps.foldl (fun s p => s.modCore p.1 (fun k => { k with mrowp := m + 1 })) s)

/-- A product up to a row: each participant's fetches, then the rows. -/
def productUpTo (ps : List (Nat × Op × Product)) (rows : Nat) (s : State) : ETry State := do
  let s ← ps.foldlM (fun (s : State) x =>
    let fs := fetchesOf s x.1 x.2.2
    opRows x.1 .mx fs.length (fun i o s => match fs[i]? with | some f => doFetch x.1 f o s | none => .ok s)
      (fs.length + 1) x.2.1.n s) s
  productRows (ps.map (fun x => (x.1, x.2.2))) rows (rows + 1) s

/-- The rows of a joined product. -/
def jointRows (ps : List (Nat × Op × Product)) : Nat := match ps with | x :: _ => x.2.2.rows | [] => 0

/-- The whole product. -/
def productRun (ps : List (Nat × Op × Product)) (s : State) : ETry State := productUpTo ps (jointRows ps) s

/-- A quarter's region set to +0. -/
def zeroRegion (c zrow zcol rows cols : Nat) (s : State) : State :=
  s.modCore c (fun k => { k with
    dirtyS := (List.range rows).foldl (fun (d : BitVec 16) r => d ||| BitVec.ofNat 16 (2 ^ ((zrow + r) / 8))) k.dirtyS,
    quarter := k.quarter.filter (fun p =>
    !(zrow ≤ p.1 / 512 && p.1 / 512 < zrow + rows && zcol ≤ p.1 % 512 && p.1 % 512 < zcol + cols)) })

/-- A drain's elements in row order, with their MSTAT flags. -/
def drainVals (s : State) (c : Nat) (o : Op) (t : Elem) (sat clip : Bool) (zrow zcol rows cols : Nat) : List (List (Nat × W64)) :=
  let sv := o.args.getD 1 0
  let scale : Option W32 := if sv.getLsbD 32 then some (sv.setWidth 32) else none
  (List.range rows).map (fun m =>
    let lo := 512 * (zrow + m) + zcol
    (unlist 0 (mslice (s.core c).quarter lo (lo + cols)) 0 cols).map (drainElem t sat clip scale))

/-- The flags of drained elements in MSTAT (R182). -/
def drainFlags (c : Nat) (o : Op) (f : W64) (s : State) : State :=
  if opLate s c o then s else s.modCore c (fun k => { k with mstat := k.mstat ||| f })

/-- One element stored through a window, its answer awaited: the drain stops at an element that the target refuses (R181,
R294). -/
def drainFar (s : State) (c : Nat) (o : Op) (va w off : Nat) (bs : List Byte) : ETry State :=
  match winDesc s o.ctx w with
  | .error e => eFault s e va
  | .ok (d, s) =>
    match winCheck d off bs.length false true with
    | .error e => eFault s e va
    | .ok t =>
      if s.net.lost.contains t.dev then eFault s 0x93 va
      else if (nowOp s c .mx o).asked = 0 && vget 256 (s.ctx o.ctx).wallow w ≤ vget 0 (s.core c).wallowOut w then .error (.wait s)
      else (opAsk s c .mx o (fun _ => va) 1 (fun s =>
        sendPkt (outUp c w s) c (reqPkt t 1 off bs.length bs) (.ask c TlCtx.mx.idx o.n w))).map (·.2)

/-- Element `p` of a drain to memory (R181), its bytes charged to the copy engine (R79). -/
def drainStore (c : Nat) (add : Bool) (t : Elem) (vals : List (List (Nat × W64))) (cols p : Nat) (o : Op) (s : State) :
    ETry State :=
  match tensorAt t (o.args.drop 2) 0 (p / cols) (p % cols) with
  | none => .ok s
  | some va =>
    let v := (vals.getD (p / cols) []).getD (p % cols) (0, 0)
    let bs := leBytes (ebits t / 8) v.1
    (if add then redElem s c .mx o t .add va.toNat (widen t v.1)
      else match regionOf va.toNat with
        | .window w off => drainFar s c o va.toNat w off bs
        | _ => opWrite s c .mx o va.toNat bs (bs.map (fun _ => false))).map (chargeOp c o 6 (ebits t / 8))

/-- A drain performed; V registers of a cell that has ended are not written (R22). -/
def drainRun (c : Nat) (o : Op) (dest : Dest) (t : Elem) (sat clip z : Bool) (rows cols zrow zcol : Nat) (s : State) :
    ETry State := do
  let vals := drainVals s c o t sat clip zrow zcol rows cols
  let all := vals.foldl (fun (f : W64) r => r.foldl (fun (f : W64) v => f ||| v.2) f) 0
  let zero (s : State) : State := if z then zeroRegion c zrow zcol rows cols s else s
  match dest with
  | .tile _ =>
    let bs := (vals.map (fun r => packRow t (r.map (·.1)))).flatten
    let s := if fillsLive s o then tilePut (hCore (o.args.headD 0)) (16384 * o.arg 4) bs (bs.map (fun _ => false)) s else s
    pure (endFill c .mx (o.arg 4) (o.arg 5) o (zero (drainFlags c o all s)))
  | .vregs v =>
    let regs := blockRegs v.toNat rows cols
    let s := if opLate s c o then s else s.modCore c (fun k => (List.range (nreg rows cols)).foldl (fun (k : Core) i =>
      let r0 := i / ((cols + 63) / 64) * 16
      let c0 := i % ((cols + 63) / 64) * 64
      k.wV (v.toNat + i) (mofFn 0 (fun l =>
        match (vals[r0 + l / 64]?).bind (fun r => r[c0 + l % 64]?) with
        | some e => widen t e.1
        | none => mget 0 (k.rV (v.toNat + i)) l) 0 1024))
      { k with vPend := k.vPend.filter (fun x => !regs.contains x) })
    pure (finishOp c .mx o (zero (drainFlags c o all s)))
  | .store _ | .add _ =>
    let add := match dest with | .add _ => true | _ => false
    let s ← opRows c .mx (rows * cols) (drainStore c add t vals cols) (rows * cols + 1) o.n s
    let put := (List.range (rows * cols)).foldl (fun (f : W64) p =>
      if (tensorAt t (o.args.drop 2) 0 (p / cols) (p % cols)).isSome then
        f ||| ((vals.getD (p / cols) []).getD (p % cols) (0, 0)).2
      else f) 0
    let o := nowOp s c .mx o
    pure (finishOp c .mx o (zero (drainFlags c o put s)))

/-- What stops a product or a drain marks MX with its own cause; a gang's on all four cores (R172, R178). Poison in a tile
comes with its bank (R333), a failed check of a home elsewhere (256 and up) ends the command (R177), and COW_EMPTY is
CE_FAULT's underlying cause (R291). -/
def mxSettle (ps : List (Nat × Op)) (r : ETry State) : State :=
  match r with
  | .ok s => s
  | .error (.wait s) => s
  | .error (.fault cause va s) => ps.foldl (fun s p =>
      let o := nowOp s p.1 .mx p.2
      if 512 ≤ cause then opFault p.1 .mx o (cause % 512) va (w64 (cause / 512)) s
      else if 256 ≤ cause then mxFail p.1 o (cause - 256) s
      else if cause = 0x23 then ceFault p.1 .mx o cause va s
      else opFault p.1 .mx o cause va 0 s) s

/-- The head command of a core's matrix queue completes. -/
def execMatrixCmdComplete (core : Nat) (s : State) : Res :=
  match headOp s core with
  | none => .next s
  | some o =>
    if !o.started || !mxReady s core o then .next s
    else
      match o.i with
      | .mzero _ m n zrow zcol =>
        .next (finishOp core .mx o (zeroRegion core zrow.toNat zcol.toNat (m.toNat + 1) (n.toNat + 1) s))
      | .mdrain _ dest t sat clip z _ m n zrow zcol =>
        .next (mxSettle [(core, o)] (drainRun core o dest t sat clip z (m.toNat + 1) (n.toNat + 1) zrow.toNat zcol.toNat s))
      | _ =>
        match productOf core o with
        | none => .next s
        | some p =>
          match joint s core o p with
          | none => .next s
          | some ps =>
            if ps.any (fun x => !mxReady s x.1 x.2.1) then .next s
            else
              .next (mxSettle (ps.map (fun x => (x.1, x.2.1))) (do
                let s ← productRun ps s
                pure (ps.foldl (fun s x => (finishOp x.1 .mx (nowOp s x.1 .mx x.2.1) s).modCore x.1 (fun k =>
                  { k with lease := { k.lease with idle := s.cycle } })) s)))

end Sys2Proof.Machine
end

