-- ==== Sys2Proof/Machine/Sys.lean ====
section
/-! DEFINITION. CTL's system instructions: NOP, HALT, WFE, TRAP, ICFLUSH, what ERET shares, SLIPR, TLBI, KEYREV (R80, R129, R297,
R298, R315 to R321), the illegal encoding (R55), and the entries that wait for other strands (R307, R306). -/

namespace Sys2Proof.Machine

def execNop (s : State) : Res := runCtl s (always id)

/-- A trap whose TRAPPC names the next word in execution order (R310, R36). -/
def trapNext {α : Type} (s : State) (cause : Nat) (info : W64) : Try α :=
  let s' := s.modMe (fun k => { k with ctl := { k.ctl.advance 4 4 with pre := none } })
  .error (.trap ⟨cause, 0, info, some s'.me.ctl.pc, none⟩ s')

/-- TRAP n (R316). -/
def execTrap (n : BitVec 6) (s : State) : Res :=
  runCtl s (fun s => trapNext s (match s.me.mode with | .u => 0x03 | .s => 0x08 | .m => 0x0B) (n.setWidth 64))

/-- HALT (R318): a trap in U and S mode; in M mode the core stops and leaves dispatch, its cell's state kept. -/
def execHalt (s : State) : Res :=
  runCtl s (fun s =>
    if s.me.mode == .m then pure (s.modMe (fun k => { k with stopped := true, out := true }))
    else trapNext s 0x07 0)

/-- WFE (R320). -/
def execWfe (s : State) : Res :=
  runCtl s (fun s => do
    waitFor s s.me.latch
    pure (s.modMe (fun k => { k with latch := false })))

/-- ICFLUSH (R321). -/
def execIcflush (s : State) : Res :=
  runCtl s (fun s => do
    release s .dev
    pure (s.modMe (fun k => { k with ctl := { k.ctl with ic := [] }, fet := { k.fet with ic := [] },
                                     exe := { k.exe with ic := [] }, emi := { k.emi with ic := [] } })))

/-- Whether an address lies in a loop's body. -/
def LoopSt.holds (l : LoopSt) (size : Nat) (pc : W64) : Bool :=
  l.start.toNat ≤ pc.toNat && pc.toNat < l.start.toNat + l.len * size

/-- A strand resumes at an address. A repetition goes on only at the saved one; a loop goes on with its saved count
wherever in its body the address lies, for the saved position and TRAPPC name the same word (R36, R38; log 23). -/
def StrandSt.resume (x : StrandSt) (size : Nat) (pc : W64) (held : Held) : StrandSt :=
  if pc = held.pc then { x with pc, loop := held.loop, ahead := [] }
  else { x with pc, loop := held.loop.filter (·.holds size pc), rep := none, ahead := [] }

/-- The strands after a return: STR at the saved pc, CTL where it stood, the others where they stopped (R317). -/
def resumeStrands (k : Core) (str : Strand) (pc : W64) (held : Held) : Core :=
  let k := { k with btb := [] }
  if str = .ctl then { k with ctl := k.ctl.resume 4 pc held }
  else
    let x := k.strand str
    { k.setStrand str (x.resume 8 pc ⟨x.pc, x.loop⟩) with ctl := { k.ctl with pc := held.pc, loop := held.loop, ahead := [] } }

/-- A misaligned resume address (R317). -/
def badResume (str : Strand) (pc : W64) : Bool := pc.toNat % str.size ≠ 0

/-- Engines stopped behind a fault go on, unless a mark still stands (R311, R317). -/
def Core.restart (k : Core) : Core :=
  { k with tl := k.tl.map (fun t => if t.mark.isNone then { t with stopped := false } else t) }

/-- What follows a return to U mode: a lease to ask for again (R166), a held delta refusal (R97). -/
def afterReturn (c : Nat) (s : State) : State :=
  let k := s.core c
  let s := if k.lease.again && k.lease.st == .none then
      s.modCore c (fun k => { k with lease := { k.lease with st := .req, since := s.cycle } }) else s
  match (if k.mode == .u then k.refused.find? (fun r => !r.fromS && r.due ≤ s.cycle) else none) with
  | none => s
  | some r => takeTrap c r.st ⟨r.cause, 0, r.handle, none, none⟩
      (s.modCore c (fun k => { k with refused := k.refused.filter (· != r) }))

/-- SLIPR (R80). -/
def execSlipr (d : BitVec 6) (s : State) : Res :=
  runCtl s (fun s => do
    needPriv s
    if dieOf s.cur.core = 0 then pure ({ s with slips0 := s.slips0.tail }.wS d (s.slips0.headD 0))
    else pure ({ s with slips1 := s.slips1.tail }.wS d (s.slips1.headD 0)))

/-- Whether no access of a context is on its way with a translation it has already made (R297). -/
def accessesDone (s : State) (ctx : Nat) : Bool :=
  s.cores.all (fun q => q.2.ctxOf ≠ ctx || (q.2.stores.isEmpty && q.2.loads.isEmpty))

/-- TLBI (R297): a full fence at dev scope, then the kind, once no access that used a translation of the context is still to
be performed. -/
def execTlbi (a b : BitVec 6) (s : State) : Res :=
  runCtl s (fun s => do
    needPriv s
    release s .dev
    let s := acquire s .dev
    let x := s.me.ctxOf
    waitFor s (accessesDone s x)
    pure (match (fld (s.rS b) 0 2).toNat with
      | 0 => tlbiPage s x (s.rS a).toNat
      | 1 => tlbiCtx s x
      | 2 => tlbiWin s x
      | _ => tlbiAll s x))

/-- The place of an export entry (R292). -/
def exportPa (s : State) (ctx i : Nat) : Nat := s.root ctx + 0xF000 + 32 * i

/-- KEYREV (R298): the entry's KEY, and every check unit's. -/
def execKeyrev (d a b : BitVec 6) (s : State) : Res :=
  runCtl s (fun s => do
    needPriv s
    let x := s.me.ctxOf
    trapIf s (fld (s.rS a) 4 60 != 0 || fld (s.rS b) 32 32 != 0) 0x26
    trapIf s (beyond (s.root x) || beyond (s.root x + 65535)) 0x2B
    let i := (s.rS a).toNat % 16
    let old := s.rd64 (exportPa s x i + 24)
    let new := w64 (old.toNat / 2 ^ 32 * 2 ^ 32 + (s.rS b).toNat % 2 ^ 32)
    let s' := (s.wr64 (exportPa s x i + 24) new).modCtx x (fun y =>
      { y with exps := y.exps.map (fun p => if p.1 = i then (i, p.2.take 3 ++ [new]) else p) })
    pure (s'.wS d (w64 (old.toNat % 2 ^ 32))))

/-- A word with an illegal encoding reaches issue (R55). -/
def execIllegalEncoding (s : State) : Res :=
  settle s.cur.core s.cur.st (trap s 0x00)

/-- Whether a trap of a core goes to M mode (R305). -/
def goesM (k : Core) (t : Trap) : Bool := k.mode != .u || toMonitor t.cause

/-- A trap whose entry into S mode waited for the other strands is entered; what CTL has parked elsewhere is withdrawn
(R307). -/
def execTrapEntry (core : Nat) (s : State) : Res :=
  match (s.core core).raised with
  | some (st, t) =>
    if t.cause = 0xA0 || goesM (s.core core) t then .next s
    else if quiet (s.core core) st then .next (enter core st t s)
    else .next (withdrawFe core s)
  | none => .next s

end Sys2Proof.Machine
end

