-- ==== Sys2Proof/Machine/Launch.lean ====
section
/-! DEFINITION. Launches and the Dealer (R64 to R77, R319, R322, R344), press periods and budgets (R79, R81): the
launch record, the walk, readiness, dispatch, LAUNCH, LSTAT, LCANCEL, DONE, YIELD, PREEMPT, and the Dealer's steps. -/

namespace Sys2Proof.Machine

/-! ### The record (R64 to R66, R73) -/

/-- A field of a record's dword. -/
def rf (d : List W64) (i lo n : Nat) : Nat := (fld (d.getD i 0) lo n).toNat
/-- Half-dword `i` of a field that begins at dword `w`. -/
def half (d : List W64) (w i : Nat) : Nat := rf d (w + i / 2) (32 * (i % 2)) 32

def recExt (d : List W64) : List Nat := (List.range 4).map (half d 7)
def recNdim (d : List W64) : Nat := rf d 0 20 3
def recMembers (d : List W64) : BitVec 128 := (d.getD 10 0) ++ (d.getD 9 0)
def memberOf (m : BitVec 128) (c : Nat) : Bool := m.getLsbD c
/-- Whether all four cores of a cluster are members. -/
def wholeCluster (m : BitVec 128) (cl : Nat) : Bool := (coresOf cl).all (memberOf m)
/-- Whether a die holds a member. -/
def onDie (m : BitVec 128) (die : Nat) : Bool := (List.range 64).any (fun i => m.getLsbD (64 * die + i))

/-- Checks −1 to −4 and the tables' headers, −5 (R73). -/
def recordBad (d : List W64) : Option Int :=
  let ext := recExt d
  let n := recNdim d
  if rf d 0 0 8 ≠ 1 || rf d 0 23 41 ≠ 0 || rf d 24 52 4 ≠ 0 || rf d 25 52 4 ≠ 0 || rf d 27 9 55 ≠ 0 ||
      (List.range 4).any (fun i => d.getD (28 + i) 0 != 0) then some (-1)
  else if n = 0 || 4 < n || (ext.zipIdx).any (fun p => if p.2 < n then p.1 = 0 else p.1 ≠ 0) ||
      2 ^ 32 - 1 < (ext.take n).foldl (· * ·) 1 then some (-2)
  else if recMembers d = 0 || (rf d 0 8 1 = 1 && !(List.range 32).any (wholeCluster (recMembers d))) then some (-3)
  else if (List.range 4).any (fun i =>
      let al := if i = 0 then 4 else 8
      (d.getD (1 + i) 0).toNat % al ≠ 0 || half d 5 i % al ≠ 0) then some (-4)
  else if rf d 24 0 3 ≠ 0 || 64 < rf d 24 56 8 || rf d 25 0 3 ≠ 0 || 16 < rf d 25 56 8 then some (-5)
  else none

/-- A stream the plan asks for. -/
structure PlanStream where
  k : Nat
  wcore : Nat
  rcore : Nat
  wh : Nat
  rh : Nat
  base : Nat
deriving DecidableEq, Repr

/-- The plan's entries of kind 0 and kind 1; none if one breaks R65. -/
def planOf (m : BitVec 128) (es : List (W64 × W64)) : Option (List PlanStream × List (Nat × W64)) :=
  let r := es.mapM (fun (e : W64 × W64) =>
    match (fld e.1 0 2).toNat with
    | 0 =>
      let p : PlanStream := { k := (fld e.1 8 5).toNat, wcore := (fld e.1 16 7).toNat, rcore := (fld e.1 24 7).toNat,
                              wh := (fld e.1 32 6).toNat, rh := (fld e.1 40 6).toNat, base := e.2.toNat }
      if fld e.1 2 6 != 0 || fld e.1 13 3 != 0 || e.1.getLsbD 23 || e.1.getLsbD 31 || fld e.1 38 2 != 0 || fld e.1 46 18 != 0 ||
          p.k < 6 || 20 < p.k || !memberOf m p.wcore || !memberOf m p.rcore || p.wh < 17 || p.rh < 17 ||
          2 ^ 52 ≤ p.base || p.base % (2 ^ p.k * 64) ≠ 0 then none
      else some (Sum.inl p)
    | 1 => if fld e.1 4 60 != 0 then none else some (Sum.inr ((fld e.1 2 2).toNat, e.2 ||| 0x8000000000000000))
    | _ => none)
  match r with
  | none => none
  | some l =>
    let ss := l.filterMap (fun x => match x with | .inl p => some p | .inr _ => none)
    let ds := l.filterMap (fun x => match x with | .inl _ => none | .inr q => some q)
    let keys := (ss.map (fun p => [(p.wcore, p.wh), (p.rcore, p.rh)])).flatten
    if keys.eraseDups.length = keys.length && (ds.map (·.1)).eraseDups.length = ds.length then some (ss, ds) else none

/-- The preloads; none if one breaks R66, or names a shape that no tile has: FORMAT I6 with COLS not a multiple of 4 (DESIGN
CHOICE, log 86). -/
def preloadOf (es : List (W64 × W64)) : Option (List Preload) :=
  es.mapM (fun (e : W64 × W64) =>
    let r := (fld e.2 0 16).toNat
    let c := (fld e.2 16 16).toNat
    let f := (fld e.2 32 4).toNat
    if 11 < f || fld e.2 36 28 != 0 || !shapeOk (elemOf f) r c then none
    else some { addr := e.1, rows := r, cols := c, fmt := elemOf f })

/-- Dwords of a byte string, in pairs. -/
def entriesOf (bs : List Byte) (n : Nat) : List (W64 × W64) :=
  (List.range n).map (fun i =>
    (w64 (leNat ((bs.drop (16 * i)).take 8)), w64 (leNat ((bs.drop (16 * i + 8)).take 8))))

/-- Whether COMPLETE is a place a completion word may have (R64, R73). -/
def completeOk (s : State) (ctx : Nat) (va : W64) : Bool :=
  va = 0 || (va.toNat % 8 = 0 && va.toNat < 0xE000000000000 &&
    (match walkEnt s ctx va.toNat with | .ok e => e.leaf.getLsbD 6 && !beyond (paOf e va.toNat) | .error _ => false))

/-- The lowest free slot of a die. -/
def freeSlot (s : State) (die : Nat) : Option Nat :=
  firstFrom (fun i => s.launches.all (fun l => (if die = 0 then l.slot0 else l.slot1) != some i)) 0 16

/-- A checked record with its tables. -/
structure Rec where
  d : List W64
  streams : List PlanStream
  doms : List (Nat × W64)
  preload : List Preload
deriving DecidableEq, Repr

/-- The remaining checks in order: −5 on the entries, −6, −7, −9, −8 (R73). `mine` is the context the record must
name, or none in M mode. -/
def tablesBad (s : State) (d : List W64) (plan pre : List (W64 × W64)) (mine : Option Nat) : Except Int Rec :=
  match planOf (recMembers d) plan, preloadOf pre with
  | some (ss, ds), some ps =>
    let ctx := rf d 27 0 9
    if mine.any (fun c => c ≠ ctx) then .error (-6)
    else if !completeOk s ctx (d.getD 26 0) then .error (-7)
    else if !(s.ctx ctx).en then .error (-9)
    else if (List.range 2).any (fun i => onDie (recMembers d) i && (freeSlot s i).isNone) then .error (-8)
    else .ok ⟨d, ss, ds, ps⟩
  | _, _ => .error (-5)

/-! ### The walk (R67) -/

/-- Mixed-radix digits of an ordinal, the last of the extents fastest. -/
def digits : List Nat → Nat → List Nat
  | [], _ => []
  | _ :: es, n =>
    let below := es.foldl (· * ·) 1
    n / below :: digits es (n % below)

/-- Serpentine: a dimension runs down where the sum of the indices before it is odd. -/
def serpent : List Nat → List Nat → Nat → List Nat
  | e :: es, x :: xs, sum =>
    let i := if sum % 2 = 1 then e - 1 - x else x
    i :: serpent es xs (sum + i)
  | _, _, _ => []

/-- The (i0, i1) of rank `r` in Morton order within e0 × e1, from bit `b` down, the corner so far at (x, y). -/
def mortonAt (e0 e1 : Nat) : Nat → Nat → Nat → Nat → Nat × Nat
  | 0, _, x, y => (x, y)
  | b + 1, r, x, y =>
    let h := 2 ^ b
    let size (x y : Nat) : Nat := min h (e0 - x) * min h (e1 - y)
    let n0 := size x y
    let n1 := size x (y + h)
    let n2 := size (x + h) y
    if r < n0 then mortonAt e0 e1 b r x y
    else if r < n0 + n1 then mortonAt e0 e1 b (r - n0) x (y + h)
    else if r < n0 + n1 + n2 then mortonAt e0 e1 b (r - n0 - n1) (x + h) y
    else mortonAt e0 e1 b (r - n0 - n1 - n2) (x + h) (y + h)

/-- The index tuple of an ordinal (R67); unused dimensions hold 0. -/
def tupleOf (walk : Nat) (ext : List Nat) (n : Nat) : List Nat :=
  let e := ext.map (max 1)
  match walk with
  | 0 => digits e n
  | 1 => (digits e.reverse n).reverse
  | 2 =>
    let e0 := e.getD 0 1
    let e1 := e.getD 1 1
    let tail := e.drop 2
    let below := tail.foldl (· * ·) 1
    let p := mortonAt e0 e1 32 (n / below) 0 0
    p.1 :: p.2 :: digits tail (n % below)
  | _ => serpent e (digits e n) 0

/-- Iterations of a launch. -/
def Launch.total (l : Launch) : Nat := (l.ext.map (max 1)).foldl (· * ·) 1

/-! ### Readiness (R68) -/

/-- The place of a readiness word, if it may have one: on a tagged page in the device's own memory, aligned. -/
def readyPa (s : State) (l : Launch) (r : Ready) (t : List Nat) : Option Nat :=
  let va := r.base + w64i ((r.stride.zip t).foldl (fun (a : Int) p => a + p.1 * p.2) 0)
  if va.toNat % 8 ≠ 0 || 0xE000000000000 ≤ va.toNat then none
  else
    match walkEnt s l.ctx va.toNat with
    | .ok e => if e.leaf.getLsbD 6 && !beyond (paOf e va.toNat) then some (paOf e va.toNat) else none
    | .error _ => none

/-- The ordinals of the dispatch window: the `n` lowest undispatched ones. -/
def windowFrom (total : Nat) (ahead : List Nat) : Nat → Nat → List Nat
  | 0, _ => []
  | n + 1, o => if total ≤ o then [] else if ahead.contains o then windowFrom total ahead n (o + 1) else
      o :: windowFrom total ahead n (o + 1)
def Launch.window (l : Launch) : List Nat := (windowFrom l.total l.ahead (4096 + l.ahead.length) l.cursor).take 4096

/-- Whether an iteration is ready: every word of it reported FULL and FULL now. -/
def isReady (s : State) (l : Launch) (o : Nat) : Bool :=
  l.ready.all (fun r =>
    match readyPa s l r (tupleOf l.walk l.ext o) with
    | none => false
    | some pa => s.isFull pa && s.watches.any (fun w => w.launch = l.id && w.pa = pa && w.seen))

/-- The lowest ready ordinal of a launch's window. -/
def firstReady (s : State) (l : Launch) : Option Nat :=
  if l.ready.isEmpty then (if l.disp < l.total then l.window.head? else none) else l.window.find? (isReady s l)

/-- The watches of a launch's window registered at their homes; a bad word faults the launch (R68). -/
def watchWindow (id : Nat) (s : State) : State :=
  match s.launches.find? (fun l => l.id = id) with
  | none => s
  | some l =>
    if l.ready.isEmpty || l.st == .faulted || l.st == .cancelling then s
    else
      let pas := (l.window.map (fun o => l.ready.map (fun r => readyPa s l r (tupleOf l.walk l.ext o)))).flatten
      if pas.any (·.isNone) then faultLaunch id s
      else
        let old := s.watches.filter (fun w => w.launch = id)
        let new := (pas.filterMap (fun x => x)).eraseDups.map (fun pa =>
          (⟨id, pa, s.isFull pa || old.any (fun w => w.pa = pa && w.seen)⟩ : Watch))
        { s with watches := s.watches.filter (fun w => w.launch ≠ id) ++ new }

/-- A home reports a FULL word that is watched (R68). -/
def execReadinessFill (pa : Nat) (s : State) : Res :=
  if s.isFull pa then
    .next { s with watches := s.watches.map (fun w => if w.pa = pa then { w with seen := true } else w) }
  else .next s

/-! ### Acceptance and the stream plan (R73, R281) -/

/-- A launch changed. -/
def modLaunch (id : Nat) (f : Launch → Launch) (s : State) : State :=
  { s with launches := s.launches.map (fun l => if l.id = id then f l else l) }

/-- The pages of a given base, translated for writing in the context; those of another open stream's stock are read-only
(R260, R281). -/
def ctxPages (s : State) (ctx base : Nat) : Nat → Except Nat State
  | 0 => .ok s
  | n + 1 => do
    let va := base + 4096 * n
    if 0xE000000000000 ≤ va then .error 0x20
    if s.stocks.any (fun r => r.ctx = ctx && r.va ≤ va && va < r.va + r.len) then .error 0x21
    let (s, _) ← devPlace s ctx va
    ctxPages s ctx base n

/-- One plan entry materialised: its stream, with both ends held by the launch. -/
def planOne (id ctx : Nat) (p : PlanStream) (s : State) : Except Nat State :=
  match freeAnchor s p.wcore with
  | none => .error 0x61
  | some a => do
    let (base, s) ← (if p.base = 0 then takeStock s ctx p.k else do
      let s ← ctxPages s ctx p.base (stockFrames p.k)
      pure (p.base, { s with stocks := s.stocks ++ [(⟨ctx, p.base, stockFrames p.k * 4096, a⟩ : StockRange)] }))
    let hq := freeQueue (s.core p.rcore)
    let s := placeEnds (writeAnchor s a ctx p.k base (p.base = 0) (s.dev % 256) p.wcore p.rcore hq) a p.k p.wcore p.rcore hq
    pure (modLaunch id (fun l => { l with ends := l.ends ++
      [⟨p.wcore, p.wh, endHandle s a 2⟩, ⟨p.rcore, p.rh, endHandle s a 3⟩] }) s)

/-- The plan materialised in order; a failure faults the launch (R281). -/
def planAll (id ctx : Nat) : List PlanStream → State → State
  | [], s => s
  | p :: ps, s =>
    match planOne id ctx p s with
    | .ok s => planAll id ctx ps s
    | .error _ => event (faultLaunch id s) ctx 0x66 p.wcore id 0 0

/-- The launch that a checked record becomes. -/
def launchOf (s : State) (r : Rec) (id : Nat) : Launch :=
  let d := r.d
  let m := recMembers d
  let ready := (List.range 4).filterMap (fun j =>
    let b := d.getD (11 + 3 * j) 0
    if b = 0 then none
    else some (⟨b, (List.range 4).map (fun i => (BitVec.ofNat 32 (half d (12 + 3 * j) i)).toInt)⟩ : Ready))
  { id, ctx := rf d 27 0 9,
    slot0 := if onDie m 0 then freeSlot s 0 else none, slot1 := if onDie m 1 then freeSlot s 1 else none,
    gang := rf d 0 8 1 = 1, prio := rf d 0 9 3, cls := rf d 0 12 6, walk := rf d 0 18 2,
    ext := recExt d, members := m, base := (List.range 4).map (fun i => d.getD (1 + i) 0),
    entry := (List.range 4).map (fun i => BitVec.ofNat 32 (half d 5 i)), ready, params := d.getD 23 0,
    complete := d.getD 26 0, doms := r.doms, ends := [], preload := r.preload, st := .waiting, cursor := 0, ahead := [],
    disp := 0, done := 0, gangDone := [], outCells := 0, away := [], last0 := none, last1 := none, visited := [], awaited := [] }

/-- The next launch id: 24 bits, never 0. -/
def nextId (n : Nat) : Nat := if n + 1 < 2 ^ 24 then n + 1 else 1

/-- A record accepted: its slots, its plan, its watches; and its id. -/
def accept (r : Rec) (s : State) : Nat × State :=
  let id := s.nextLaunch
  let s := { s with launches := s.launches ++ [launchOf s r id], nextLaunch := nextId id }
  (id, watchWindow id (planAll id (rf r.d 27 0 9) r.streams s))

/-- LAUNCH (R73). -/
def execLaunch (d a : BitVec 6) (s : State) : Res :=
  runCtl s (fun s => do
    release s .dev
    let va := s.rS a
    if va.toNat % 256 ≠ 0 then pure (s.wS d (w64i (-1)))
    else
      if fld va 52 12 != 0 then trapAt s 0x20 va
      let (bs, s1, k1) ← readSpan s va 256 0
      let r := (List.range 32).map (fun i => w64 (leNat ((bs.drop (8 * i)).take 8)))
      match recordBad r with
      | some code => pure (s.wS d (w64i code))
      | none =>
        let np := rf r 24 56 8
        let nl := rf r 25 56 8
        let (pb, s2, k2) ← (if np = 0 then pure ([], s1, k1) else readSpan s1 (w64 (rf r 24 0 52)) (16 * np) k1)
        let (lb, s3, _) ← (if nl = 0 then pure ([], s2, k2) else readSpan s2 (w64 (rf r 25 0 52)) (16 * nl) k2)
        match tablesBad s3 r (entriesOf pb np) (entriesOf lb nl) (if s.mode == .m then none else some s.me.ctxOf) with
        | .error code => pure (s3.wS d (w64i code))
        | .ok rec0 =>
          let (id, s4) := accept rec0 s3
          pure (s4.wS d (w64 id)))

/-- A table of a host's record read by the device: its bytes, or the address and cause of a fault. -/
def devRead (s : State) (ctx va : Nat) : Nat → Except (Nat × Nat) (List Byte)
  | 0 => .ok []
  | n + 1 =>
    if 0xE000000000000 ≤ va then .error (va, 0x20)
    else
      match walkEnt s ctx va with
      | .error c => .error (va, c)
      | .ok e =>
        match permit e.leaf .s false false with
        | some c => .error (va, c)
        | none =>
          if s.bad (paOf e va) 8 then .error (va, 0xB0)
          else (devRead s ctx (va + 8) n).map (fun bs => s.bytes (paOf e va) 8 ++ bs)

/-- A rejected host record (R73): dword 1 and dword 2 of its event. -/
def rejectRec (s : State) (ctx : Nat) (addr info : W64) : State := event s ctx 0xA2 0 0 addr info

/-- A host-written record checked and accepted or rejected (R73, R283). -/
def hostRecord (ctx push : Nat) (its : List Item) (s : State) : State :=
  let r := (its.map (·.words)).flatten
  if its.any (·.poison) then rejectRec s ctx (w64 push) 0xB0
  else if its.any (fun i => i.mask != 0) then rejectRec s ctx (w64 push) (w64i (-1))
  else
    match recordBad r with
    | some c => rejectRec s ctx (w64 push) (w64i c)
    | none =>
      let np := rf r 24 56 8
      let nl := rf r 25 56 8
      match devRead s ctx (rf r 24 0 52) (2 * np) with
      | .error (va, c) => rejectRec s ctx (w64 va) (w64 c)
      | .ok pb =>
        match devRead s ctx (rf r 25 0 52) (2 * nl) with
        | .error (va, c) => rejectRec s ctx (w64 va) (w64 c)
        | .ok lb =>
          match tablesBad s r (entriesOf pb np) (entriesOf lb nl) (some ctx) with
          | .error c => rejectRec s ctx (w64 push) (w64i c)
          | .ok rec0 => (accept rec0 s).2

/-- Die 0's Dealer takes the next record of a context's launch stream, or ends the stream once its writer is gone
(R283): a partial record is discarded and reported. -/
def execLaunchRecord (ctx : Nat) (s : State) : Res :=
  match (s.ctx ctx).ls with
  | none => .next s
  | some a =>
    match (s.core 0).rend a with
    | none => .next s
    | some e =>
      match nextItems s e 4 with
      | some its => .next (hostRecord ctx e.pop its ((List.range 4).foldl (fun s _ => takeItem 0 a s) s))
      | none =>
        if !drained s e 4 then .next s
        else
          let part := (nextItems s e 1).isSome
          let s := closeEndAt 0 (mkHandle 3 a.dev a.core a.idx (ancGen s a) 0 7) 1 s
          let s := s.modCtx ctx (fun x => { x with ls := none })
          .next (if part then event s ctx 0x65 0 0 (w64 e.pop) 0 else s)

/-! ### Starting a cell (R22, R61, R71, R81) -/

/-- A wide strand's or CTL's registers at dispatch. -/
def startStrand (l : Launch) (i : Nat) (t : List Nat) : StrandSt :=
  { StrandSt.init with
    pc := l.base.getD i 0 + (l.entry.getD i 0).setWidth 64
    a := if i = 0 then Vector.replicate 32 0 else
      Vector.ofFn (fun (j : Fin 32) => if 1 ≤ j.val && j.val ≤ 4 then w64 (t.getD (j.val - 1) 0) else if j.val = 5 then l.params else 0) }

/-- S0 to S63 at dispatch. -/
def startS (l : Launch) (ord : Nat) (t : List Nat) : Vector W64 64 :=
  Vector.ofFn (fun (j : Fin 64) =>
    if 1 ≤ j.val && j.val ≤ 4 then w64 (t.getD (j.val - 1) 0)
    else if j.val = 5 then w64 l.id else if j.val = 6 then w64 ord else if j.val = 8 then l.params else 0)

/-- DMEMB1 to DMEMB4 at dispatch (R39, R65). -/
def startDmemb (s : State) (l : Launch) : Vector W64 4 :=
  Vector.ofFn (fun (j : Fin 4) => (look j.val l.doms).getD (vget 0 (s.ctx l.ctx).dmembDef j.val))

/-- The trap vector of a context's block (R313). -/
def ctxVector (s : State) (ctx : Nat) : W64 :=
  if beyond (s.root ctx) then 0 else s.rd64 (s.root ctx + 0xE200) &&& 0x000FFFFFFFFFFFFC

/-- Whether a product of a cell that has ended is still at the head of a core's matrix queue. -/
def lateProduct (k : Core) : Bool := ((vget [] k.ops TlCtx.mx.idx).head?).any (fun o => o.started && isProduct o.i)

/-- What a cell on a core owns besides its registers, at rest: a fresh core with what the core keeps. MROWP goes on
counting the rows of a product that an ended cell left in the array (R77, R183). -/
def freshCell (k : Core) : Core :=
  { k with
    p := 1, h := Vector.replicate 64 0, k := (Vector.replicate 8 (BitVec.allOnes 1024))
    v := [], vPend := [], lent := 0, tq := Vector.replicate 12 [], tokPoison := []
    live := true, cell := k.cell + 1, mode := .u, heldS := ⟨0, none⟩, heldM := ⟨0, none⟩
    mstat := 0, mrowp := if lateProduct k then k.mrowp else 0, lease := .init
    trapcause := 0, trappc := 0, trapaddr := 0, trapinfo := 0, savedst := 0
    phase := Vector.replicate 4 0, arrived := 0, notified := 0, latch := false, lastgen := 0, lastimg := 0
    dirtyV := BitVec.allOnes 384, dirtyS := BitVec.allOnes 16, dirtyG := BitVec.allOnes 512
    refused := [], stepArm := false, preempted := false, transit := [], origins := [], raised := none, loads := [], btb := [] }

/-- Every timeline's dispatch base is what has been numbered so far (R255). -/
def rebase (k : Core) : Core := { k with tl := k.tl.map (fun t => { t with base := t.issued, mark := none, stopped := false, reach := Vector.replicate 5 0 }) }

/-- The ends a launch places at a core, moved into its H registers at its first cell there (R71). -/
def placeEndsOf (c id : Nat) (s : State) : State :=
  match s.launches.find? (fun l => l.id = id) with
  | none => s
  | some l =>
    let here := l.ends.filter (fun e => e.core = c)
    modLaunch id (fun l => { l with ends := l.ends.filter (fun e => e.core ≠ c), visited := addSet c l.visited })
      (here.foldl (fun s e => s.modCore c (fun k => k.wH (BitVec.ofNat 6 e.h) e.handle)) s)

/-- The preloads of a cell: tiles FILLING, their loads numbered in FA (R66). -/
def preloadAll (c ctx : Nat) : List (Preload × Nat) → State → State
  | [], s => s
  | (p, i) :: l, s =>
    match newTile c ctx p.fmt p.rows p.cols .filling false false s with
    | none => preloadAll c ctx l s
    | some (f, s) =>
      let h := handleOf s c f
      let s := enqueue c .fa (.ldt ⟨0, 0⟩ p.fmt 0 0 0 0) .fet 0 (attrOf 0x18)
        ([h, p.addr, w64 (rowBytes p.fmt p.cols)] ++ tileArgs (s.folio c f)) [] [] s
      preloadAll c ctx l (s.modCore c (fun k => k.wH (BitVec.ofNat 6 (i + 1)) h))

/-- A cell of a launch started on a core (R71). -/
def startCell (c : Nat) (l : Launch) (ord : Nat) (s : State) : State :=
  let t := tupleOf l.walk l.ext ord
  let s := s.modCore c (fun k => { freshCell k with
    ctl := { startStrand l 0 t with ic := k.ctl.ic }, fet := { startStrand l 1 t with ic := k.fet.ic }
    exe := { startStrand l 2 t with ic := k.exe.ic }, emi := { startStrand l 3 t with ic := k.emi.ic }
    s := startS l ord t
    launchid := w64 (l.id + s.dev % 256 * 2 ^ 24), budcls := w64 (l.cls + l.prio * 256)
    dmemb := startDmemb s l, ctxid := w64 (l.ctx + (s.ctx l.ctx).inst % 2 ^ 32 * 2 ^ 16), vfid := w64 l.ctx
    trapvec := ctxVector s l.ctx, ordinal := ord, gang := l.gang })
  let s := preloadAll c l.ctx l.preload.zipIdx s
  let s := placeEndsOf c l.id (s.modCore c rebase)
  acquireAt c (if l.ready.isEmpty then .dev else .sys) s

/-! ### Choosing (R69, R70) -/

/-- Whether a core's tile store holds a list of preloads. -/
def roomFor (c ctx : Nat) : List Preload → State → Bool
  | [], _ => true
  | p :: l, s =>
    match newTile c ctx p.fmt p.rows p.cols .filling false false s with
    | none => false
    | some (_, s) => roomFor c ctx l s

/-- Whether a core takes cells: none live on it, in dispatch, not reserved for a placement (R70, R328). -/
def coreFree (s : State) (c : Nat) : Bool :=
  let k := s.core c
  !k.live && !k.out && !k.stopped && !s.tripped && s.places.all (fun p => p.any || p.gang.isSome || p.core ≠ c)

/-- A free member core for an iteration of a launch. -/
def coreFor (s : State) (l : Launch) (c : Nat) : Bool :=
  memberOf l.members c && coreFree s c && roomFor c l.ctx l.preload s

/-- Whether a cluster is reserved for a gang iteration, but for that of launch `id` on a die (R70). -/
def reserved (s : State) (cl : Nat) (but : Option (Nat × Nat)) : Bool :=
  s.resv.any (fun r => r.cluster = some cl && some (r.die, r.launch) != but)

/-- Distance in a die's mesh. -/
def meshDist (a b : Nat) : Nat :=
  let d (x y : Nat) : Nat := max x y - min x y
  d (a % 8) (b % 8) + d (a % 64 / 8) (b % 64 / 8)

/-- The nearest of a list of cores, the lower first. -/
def nearest (from_ : Nat) : List Nat → Option Nat
  | [] => none
  | c :: l =>
    match nearest from_ l with
    | none => some c
    | some b => if meshDist from_ c ≤ meshDist from_ b then some c else some b

/-- The first wholly free eligible cluster of a die for a gang iteration of a launch, but for those reserved for others. -/
def freeCluster (s : State) (l : Launch) (die : Nat) : Option Nat :=
  ((List.range 16).map (· + 16 * die)).find? (fun cl =>
    (coresOf cl).all (coreFor s l) && !reserved s cl (some (die, l.id)))

/-- The cores an iteration of a launch would take on a die now; no single iteration takes a core of a reserved cluster
(R70). -/
def placeFor (s : State) (l : Launch) (die : Nat) : Option (List Nat) :=
  if l.gang then
    match (s.resv.find? (fun r => r.die = die && r.launch = l.id)).bind (·.cluster) with
    | some cl => if (coresOf cl).all (coreFor s l) then some (coresOf cl) else none
    | none => (freeCluster s l die).map coresOf
  else
    (nearest (((if die = 0 then l.last0 else l.last1).getD (64 * die)))
      (((List.range 64).map (· + 64 * die)).filter (fun c => coreFor s l c && !reserved s (clusterOf c) none))).map (fun c => [c])

/-- A launch that may dispatch on a die: its class not held, waiting or running, its dispatch not suspended. -/
def mayDispatch (s : State) (die : Nat) (l : Launch) : Bool :=
  (if die = 0 then l.slot0 else l.slot1).isSome && !s.held die l.cls && (l.st == .waiting || l.st == .running) &&
    l.awaited.isEmpty

/-- The first of some launches by priority, then by the round robin of slots (R69). -/
def nextOf (s : State) (die : Nat) (ls : List Launch) : Option Launch :=
  let slot (l : Launch) : Nat := ((if die = 0 then l.slot0 else l.slot1).getD 0)
  (List.range 8).reverse.findSome? (fun p =>
    let ptr := mget 0 s.rr (8 * die + p)
    let at_ := ls.filter (fun l => l.prio = p)
    (List.range 16).findSome? (fun i => at_.find? (fun l => slot l = (ptr + i) % 16)))

/-- The launches the Dealer may serve on a die, with a ready iteration. -/
def candidates (s : State) (die : Nat) : List Launch :=
  s.launches.filter (fun l => mayDispatch s die l && (firstReady s l).isSome)

/-- The gang iterations that are next on a die and find no cluster wait for one: each gang launch that comes before the
first launch whose iteration has a place (R70). -/
def waitGangs (die : Nat) : Nat → List Launch → State → State
  | 0, _, s => s
  | fuel + 1, ls, s =>
    match nextOf s die ls with
    | none => s
    | some l =>
      if (placeFor s l die).isSome then s
      else
        let s := if l.gang && !s.resv.any (fun r => r.die = die && r.launch = l.id) then
          { s with resv := s.resv ++ [⟨die, l.id, none⟩] } else s
        waitGangs die fuel (ls.filter (fun x => x.id ≠ l.id)) s

/-- A die's reservations brought up to date: one whose launch dispatches no more is gone, and one that waits takes the first
eligible cluster that is wholly free (R70). -/
def updateResv (die : Nat) (s : State) : State :=
  let live (r : Reserve) : Bool := r.die ≠ die || s.launches.any (fun l =>
    l.id = r.launch && (l.st == .waiting || l.st == .running) && l.disp < l.total)
  let s := { s with resv := s.resv.filter live }
  (s.resv.filter (fun r => r.die = die && r.cluster.isNone)).foldl (fun (s : State) r =>
    match s.launches.find? (fun l => l.id = r.launch) with
    | none => s
    | some l =>
      match freeCluster s l die with
      | none => s
      | some cl => { s with resv := s.resv.map (fun x => if x = r then { x with cluster := some cl } else x) }) s

/-- The launch the Dealer serves next on a die (R69). -/
def chooseLaunch (s : State) (die : Nat) : Option Launch :=
  nextOf s die ((candidates s die).filter (fun l => (placeFor s l die).isSome))

/-- An ordinal dispatched: the cursor moves to the lowest undispatched one. -/
def advanceCursor (ahead : List Nat) : Nat → Nat → Nat × List Nat
  | 0, c => (c, ahead)
  | fuel + 1, c => if ahead.contains c then advanceCursor (delSet c ahead) fuel (c + 1) else (c, ahead)

def takeOrdinal (l : Launch) (o : Nat) : Launch :=
  let r := advanceCursor (addSet o l.ahead) (l.ahead.length + 1) l.cursor
  { l with cursor := r.1, ahead := r.2, disp := l.disp + 1, st := .running }

/-- A Dealer starts the next iteration of its die (R69 to R71). -/
def execDispatch (die : Nat) (s : State) : Res :=
  let s := updateResv die s
  let s := updateResv die (waitGangs die (s.launches.length + 1) (candidates s die) s)
  match chooseLaunch s die with
  | none => .next s
  | some l =>
    match firstReady s l, placeFor s l die with
    | some o, some cs =>
      let s := { s with rr := mset 0 s.rr (8 * die + l.prio) ((((if die = 0 then l.slot0 else l.slot1).getD 0) + 1) % 16),
                        resv := s.resv.filter (fun r => !(r.die = die && r.launch = l.id)) }
      let s := modLaunch l.id (fun l =>
        let l := takeOrdinal l o
        if die = 0 then { l with last0 := cs.head? } else { l with last1 := cs.head? }) s
      .next (watchWindow l.id (cs.foldl (fun s c => startCell c l o s) s))
    | _, _ => .next s

/-! ### Cells that end (R75, R77, R311, R312, R322, R327) -/

/-- The cells of a launch of this device that run. -/
def cellsOf (s : State) (id : Nat) : List Nat :=
  (s.cores.filter (fun p => p.2.live && p.2.launchNo = id && (fld p.2.launchid 24 8).toNat = s.dev % 256)).map (·.1)

/-- Whether a core's cell belongs to a launch held by this device. -/
def ownLaunch (s : State) (c : Nat) : Bool := (fld (s.core c).launchid 24 8).toNat = s.dev % 256

/-- A mark that its cell leaves behind (R311): the stopped operation is abandoned, the launch faulted, CE_LATE
written. -/
def settleMark (c : Nat) (x : TlCtx) (s : State) : State :=
  let k := s.core c
  match (k.tlOf x).mark with
  | none => s.modCore c (fun k => k.setTl x { k.tlOf x with stopped := false })
  | some m =>
    let s := match opAt s c x m.op with | some o => abandonOp c x o s | none => s
    let s := s.modCore c (fun k => k.setTl x { k.tlOf x with stopped := false, mark := none })
    event (faultRef s k.launchid) k.ctxOf 0x83 c k.launchNo m.addr (lateCause m.cause m.info)
def settleMarks (c : Nat) (s : State) : State := [TlCtx.fa, .mx, .ea, .sq].foldl (fun s x => settleMark c x s) s

/-- Requests of a core's strands have no one to answer to any more; an operation parked at another device's home is
withdrawn there (R248). -/
def dropAsks (c : Nat) (s : State) : State :=
  let s := withdrawFe c s
  { s with net := { s.net with outs := s.net.outs.map (fun o =>
      match o.why with
      | .answer c' _ _ => if c' = c then { o with why := .other 32 } else o
      | .fetch c' a n (some _) => if c' = c then { o with why := .fetch c' a n none } else o
      | _ => o) } }

/-- A core is empty again: tokens, lease, lent banks and waiting notices go with the cell (R31, R77). -/
def endCell (c : Nat) (s : State) : State :=
  let s := dropAsks c (stopStrands c s)
  { s.modCore c (fun k => { k with
      live := false, mode := .u, h := Vector.replicate 64 0, lent := 0, tq := Vector.replicate 12 [], tokPoison := [],
      lease := .init, savedst := 0, loads := [], vPend := [], stepArm := false, refused := [], raised := none,
      arrived := 0, notified := 0 }) with
    phases := s.phases.map (fun p => { p with waiting := p.waiting.filter (· ≠ c), bad := p.bad.filter (· ≠ c) }),
    msgs := s.msgs.filter (fun m => match m with | .notice x _ => x ≠ c | _ => true) }

/-- Every handle of a cell given up: tiles dropped, ends closed with a cause (R77, R312, R327). -/
def letAllGo (c cause : Nat) (s : State) : State :=
  (List.range 63).foldl (fun s i => letGo c .ctl cause false (vget 0 (s.core c).h (i + 1)) s) s

/-- A cell that PREEMPT signalled is resolved (R322). -/
def resolved (id ord q : Nat) (s : State) : State :=
  modLaunch id (fun l => { l with awaited := l.awaited.filter (· ≠ 4 * ord + q) }) s
def resolvedAt (c : Nat) (s : State) : State :=
  if ownLaunch s c then
    let k := s.core c
    resolved k.launchNo k.ordinal (if k.gang then posOf c else 0) s
  else s

/-- Commands that a stopped and discarded cell leaves: those not started, and copies, are abandoned (R75, R323). -/
def dropQueued (c : Nat) (s : State) : State :=
  [TlCtx.fa, .mx, .ea].foldl (fun s x =>
    ((s.core c).opsOf x).foldl (fun s o =>
      let copy := match o.i with | .cec .. => true | _ => false
      if copy || (x == .mx && !o.started) then abandonOp c x o s else s) s) s

/-- Operations whose image holds them leave the core with their pins, uncounted (R103, R323); a collective that has
joined runs on for the cell that is out. -/
def leaveOps (c : Nat) (s : State) : State :=
  let on (o : Op) : Bool := (match o.i with | .cecol .. => true | _ => false) && o.pos = 1 && o.cell = (s.core c).cell
  s.modCore c (fun k =>
    let gone := ([TlCtx.fa, .mx, .ea].map (fun x => (k.opsOf x).filter (fun o => o.cell = k.cell && !on o))).flatten
    let pins := (((gone.map (·.pins)).flatten).filter (fun h => !counted h)).map hTile
    let k := [TlCtx.fa, .mx, .ea].foldl (fun (k : Core) x =>
      let keep := ((k.opsOf x).filter (fun o => o.cell ≠ k.cell || on o)).map (fun o => if on o then { o with cell := 0 } else o)
      (k.setOps x keep).setTl x { k.tlOf x with out := keep.map (·.n), mark := none, stopped := false }) k
    { k with
      pins := (k.pins.map (fun p => (p.1, p.2 - (pins.filter (· == p.1)).length))).filter (fun p => p.2 ≠ 0)
      owedWeights := k.owedWeights.filter (fun h => !pins.contains (hTile h))
      preempted := false, transit := [], origins := [] })

/-- The shell of a cell that a detaching PSAVE took out ends, without drops or closes (R327). -/
def endShell (c : Nat) (s : State) : State := endCell c (leaveOps c s)

/-- Whether a detaching PSAVE has taken a core's cell out (R326). -/
def isShell (s : State) (c : Nat) : Bool := (s.core c).savedst.getLsbD stDET

/-- Ends that a stopped cell left in transit are closed through their anchors (R279, R328). -/
def closeTransit (c cause : Nat) (hs : List W64) (s : State) : State :=
  hs.foldl (fun s h =>
    let a := anchorOf h
    if ancHere s a then (if ancGen s a = hGen h then anchorClose s a (hKind h = 2) none 0 cause else s)
    else sendMsg s a.dev c (.closeEnd a (hKind h = 2) none 0 cause) (.other 0)) s

/-- A cell killed: its handles dropped, its ends closed with cause 2 (R75, R312, R327). -/
def killCell (c : Nat) (s : State) : State :=
  if isShell s c then endShell c s
  else
    let ts := (s.core c).transit
    let s := s.modCore c (fun k => { k with transit := [], preempted := false, origins := [] })
    let s := (List.range 63).foldl (fun s i =>
      let h := vget 0 (s.core c).h (i + 1)
      if ts.contains h then s else letGo c .ctl 2 false h s) s
    endCell c (resolvedAt c (dropQueued c (settleMarks c (closeTransit c 2 ts s))))

/-- A cell of a launch is gone without DONE: the launch is faulted, here or at its own device (R312, R327, R328). -/
def lostCell (c : Nat) (launch : W64) (out : Bool) (s : State) : State :=
  let id := (fld launch 0 24).toNat
  let dev := (fld launch 24 8).toNat
  if dev = s.dev % 256 then
    faultLaunch id (if out then modLaunch id (fun l => { l with outCells := l.outCells - 1 }) s else s)
  else sendPkt s c (dealerPkt dev 54 [id]) (.other 32)

/-- A killed cell is reported, and its launch faulted (R312, R327). -/
def killReport (c : Nat) (s : State) : State :=
  let k := s.core c
  event (lostCell c k.launchid false s) k.ctxOf 0xA6 c k.launchNo 0 0

/-- An iteration's DONE credited at its Dealer; a gang iteration with its fourth (R77). -/
def creditHere (id ord : Nat) (gang : Bool) (s : State) : State :=
  modLaunch id (fun l =>
    if gang then
      let n := ((look ord l.gangDone).getD 0) + 1
      if n = 4 then { l with done := l.done + 1, gangDone := del ord l.gangDone } else { l with gangDone := put ord n l.gangDone }
    else { l with done := l.done + 1 }) s

/-- DONE credited to the launch's own Dealer (R77, R328). -/
def creditLaunch (c : Nat) (s : State) : State :=
  let k := s.core c
  if ownLaunch s c then creditHere k.launchNo k.ordinal k.gang s
  else sendPkt s c (dealerPkt (fld k.launchid 24 8).toNat 60 [k.launchNo, k.ordinal, if k.gang then 1 else 0]) (.other 32)

/-- DONE (R77, R327). -/
def execDone (s : State) : Res :=
  runCtl s (fun s => do
    let c := s.cur.core
    let k := s.me
    match k.mode with
    | .u =>
      waitFor s (k.fet.ended && k.exe.ended && k.emi.ended && k.vPend.isEmpty)
      release s .dev
      pure (endCell c (resolvedAt c (creditLaunch c (settleMarks c (letAllGo c 1 s)))))
    | .s =>
      if isShell s c then pure (endShell c s)
      else pure (killReport c (killCell c s))
    | .m => pure (if isShell s c then endShell c s else endCell c (resolvedAt c s)))

/-- A launch retires, or its slots are freed (R75). -/
def retireNow (l : Launch) (s : State) : State :=
  let s := l.ends.foldl (fun s e => closeEndAt e.core e.handle 1 s) s
  { s with launches := s.launches.filter (fun x => x.id ≠ l.id), watches := s.watches.filter (fun w => w.launch ≠ l.id) }

/-- The store of DONECNT to COMPLETE: FULL whatever it was, parked loads woken (R75). Where COMPLETE can no longer be
written the slot is freed without it, and nothing is reported (DESIGN CHOICE, log 88). -/
def fillComplete (l : Launch) (s : State) : State :=
  if l.complete = 0 then s
  else
    match devPlace s l.ctx l.complete.toNat with
    | .error _ => s
    | .ok (s, pa) => fillWord 0 pa (w64 l.done) s

/-- Whether a part that a launch's cells posted to a window is not yet acknowledged. -/
def partsPending (s : State) (l : Launch) : Bool :=
  s.net.outs.any (fun o => match o.why with
    | .posted _ _ _ _ _ _ launch => launch = w64 (l.id + s.dev % 256 * 2 ^ 24)
    | _ => false)

/-- A launch's end (R75). The fill of COMPLETE is a release at sys scope of what the cells' DONEs released: the parts they
posted to windows are performed first (R244). -/
def execLaunchRetire (id : Nat) (s : State) : Res :=
  match s.launches.find? (fun l => l.id = id) with
  | none => .next s
  | some l =>
    match l.st with
    | .running => if l.done = l.total && !partsPending s l then .next (retireNow l (fillComplete l s)) else .next s
    | .faulted | .cancelling =>
      if (cellsOf s id).isEmpty && l.outCells = 0 then .next (retireNow l s) else .next s
    | .waiting => .next s

/-! ### LSTAT, LCANCEL, PREEMPT (R74, R75, R322, R344) -/

/-- The launch of this device that an id names, seen from a context. -/
def findLaunch (s : State) (id ctx : Nat) (m : Bool) : Option Launch :=
  s.launches.find? (fun l => l.id = id && (m || l.ctx = ctx))

def LnState.code : LnState → Nat | .waiting => 1 | .running => 2 | .cancelling => 3 | .faulted => 4

/-- LSTAT's word (R74). A class is held on a die (R79), and HELD is set where it is held on either (DEDUCED, log 87). -/
def lstatHere (s : State) (id ctx : Nat) (m : Bool) : W64 :=
  match findLaunch s id ctx m with
  | none => 0
  | some l => w64 (l.done % 2 ^ 32 * 2 ^ 32 + (if s.held 0 l.cls || s.held 1 l.cls then 8 else 0) + LnState.code l.st)

/-- A launch cancelled (R75): its cells are stopped and discarded, here and on the devices that have placed some of
them; placements that wait are disposed of by their Dealers. -/
def cancelLaunch (id : Nat) (s : State) : State :=
  match s.launches.find? (fun l => l.id = id) with
  | none => s
  | some l =>
    if l.st == .cancelling then s
    else
      let s := l.ends.foldl (fun s e => closeEndAt e.core e.handle 2 s) s
      let s := modLaunch id (fun l => { l with st := .cancelling, ends := [] }) s
      let s := { s with watches := s.watches.filter (fun w => w.launch ≠ id) }
      let s := l.away.foldl (fun s d => sendPkt s 0 (dealerPkt d 57 [id]) (.other 32)) s
      (cellsOf s id).foldl (fun s c => killCell c s) s

def lcancelHere (id ctx : Nat) (m : Bool) (s : State) : W64 × State :=
  match findLaunch s id ctx m with
  | none => (w64i (-1), s)
  | some _ => (0, cancelLaunch id s)

/-- A cell signalled by PREEMPT (R322): in U mode it is stopped; in S or M mode, or with a trap on its way, PEND. -/
def signalCell (c : Nat) (s : State) : State :=
  s.modCore c (fun k =>
    if k.mode == .u && k.raised.isNone then
      { k with raised := some (.ctl, ⟨0xA0, 0, k.launchid &&& 0xFFFFFFFF, none, none⟩) }
    else if k.mode == .u && (k.raised.any (fun r => r.2.cause = 0xA0)) then k
    else { k with savedst := setBit k.savedst stPEND true })

def preemptHere (id ctx : Nat) (m : Bool) (s : State) : W64 × State :=
  match findLaunch s id ctx m with
  | none => (w64i (-1), s)
  | some _ =>
    let cs := cellsOf s id
    let keys := cs.map (fun c => let k := s.core c; 4 * k.ordinal + (if k.gang then posOf c else 0))
    (w64 cs.length, modLaunch id (fun l => { l with awaited := (l.awaited ++ keys).eraseDups })
      (cs.foldl (fun s c => signalCell c s) s))

/-- An instruction on a launch reference (R344): here, or at the Dealer of the device it names. -/
def onLaunch (code : Nat) (d a : BitVec 6) (none_ : W64) (here : Nat → Nat → Bool → State → W64 × State) (s : State) :
    Try State := do
  let r := s.rS a
  let id := (fld r 0 24).toNat
  let dev := (fld r 24 8).toNat
  let m := s.mode == .m
  if fld r 33 31 != 0 then pure (s.wS d none_)
  else if !r.getLsbD 32 || dev = s.dev % 256 then
    let c := s.cur.core
    let (v, s') := here id s.me.ctxOf m s
    if (s.core c).live && !(s'.core c).live then pure s' else pure (s'.wS d v)
  else if s.net.lost.contains dev then pure (s.wS d none_)
  else
    let bs ← askAll s 0 (fun s => (1, sendPkt s s.cur.core
      (dealerPkt dev code [id, s.me.ctxOf, if m then 1 else 0]) (.answer s.cur.core s.cur.st 0)))
    pure (s.wS d (w64 (leNat (bs.flatten.take 8))))

def execLstat (d a : BitVec 6) (s : State) : Res :=
  runCtl s (onLaunch 96 d a 0 (fun id ctx m s => (lstatHere s id ctx m, s)))
def execLcancel (d a : BitVec 6) (s : State) : Res :=
  runCtl s (onLaunch 97 d a (w64i (-1)) lcancelHere)
def execPreempt (d a : BitVec 6) (s : State) : Res :=
  runCtl s (fun s => do
    needPriv s
    onLaunch 98 d a (w64i (-1)) preemptHere s)

/-- YIELD (R319). -/
def execYield (s : State) : Res :=
  runCtl s (fun s => do
    let die := dieOf s.cur.core
    let prio := (fld s.me.budcls 8 3).toNat
    let due := s.launches.any (fun l =>
      (if die = 0 then l.slot0 else l.slot1).isSome && (l.st == .waiting || l.st == .running) && prio < l.prio &&
        (firstReady s l).isSome && !(List.range 128).any (fun c => memberOf l.members c && coreFree s c))
    if s.mode == .u && due then trapNext s 0x09 0 else pure s)

/-! ### Press periods and budgets (R79 to R81) -/

/-- What an account carries into the next period: use and debt beyond the budget. -/
def nextDebt (s : State) (a : Nat) : Nat :=
  let b := mget (BitVec.allOnes 64) s.budget (a % 512)
  if b = BitVec.allOnes 64 then 0 else mget 0 s.used a + mget 0 s.debt a - b.toNat

/-- The accounts with use or debt. -/
def accounts (s : State) : List Nat := (s.used.map (·.1) ++ s.debt.map (·.1)).eraseDups

/-- A press period ends and the next begins (R79, R81). -/
def newPeriod (s : State) : State :=
  let debts := (accounts s).foldl (fun (m : SMap Nat) a => mset 0 m a (nextDebt s a)) []
  let budget := s.budgetNext.foldl (fun m p => mset (BitVec.allOnes 64) m p.1 p.2) s.budget
  let s := { s with
    presscnt := s.presscnt + 1, periodStart := s.periodStart + s.presslen, presslen := s.presslenNext,
    debt := debts, used := [], budget, budgetNext := [], holds := [], capped := false,
    cores := s.cores.map (fun (p : Nat × Core) => (p.1, if p.2.live then { p.2 with latch := true } else p.2)) }
  let held := (List.range 1024).filter (fun a => s.allow (a / 512) (a % 512 / 8) (a % 8) == some 0)
  { s with holds := held.foldl (fun m a => addSet (64 * (a / 512) + a % 512 / 8) m) [] }

def execPressPeriod (s : State) : Res :=
  if s.periodStart + s.presslen ≤ s.cycle then .next (newPeriod s) else .next s

/-- A class whose use has reached its budget is held (R79). -/
def execBudgetHold (die cls res : Nat) (s : State) : Res := .next (s.exhaust die cls res)

end Sys2Proof.Machine
end

