-- ==== Sys2Proof/Machine/Image.lean ====
section
/-! DEFINITION. Pre-emption and context images (R103, R282, R317, R322 to R329): stopping a cell with its engines,
ERET, PSAVE, PREST, placement and disposal of images, gangs of saved cells, and the entry into M mode that waits. The
inner layout of an image's areas is the model's (log 7). -/

namespace Sys2Proof.Machine

/-! ### Stopping the engines (R323) -/

/-- The state an event leaves. -/
def after (s : State) (r : Res) : State := match r with | .next s' => s' | _ => s

/-- A fetch or emit operation run as far as it can go. -/
def completeOp (c : Nat) (o : Op) (s : State) : State :=
  after s (match o.i with
    | .ldt .. => execTileFillComplete c o.n s
    | .stv .. => execStvComplete c o.n s
    | .stt .. => execSttComplete c o.n s
    | .stred .. => execStredComplete c o.n s
    | .rrot .. => execRrotComplete c o.n s
    | .cedup .. => execCedupComplete c o.n s
    | _ => .next s)

def runQueue (c : Nat) (x : TlCtx) (s : State) : State := ((s.core c).opsOf x).foldl (fun s o => completeOp c o s) s

/-- The participants of a core's head product (R178). -/
def headProduct (s : State) (c : Nat) (o : Op) : Option (List (Nat × Op × Product)) :=
  match productOf c o with
  | none => none
  | some p => if p.gang then gangHeads s (clusterOf c) else some [(c, o, p)]

/-- The matrix command in the array (R323): a product with at most 4,096 cycles left completes, a longer one is
aborted with its rows so far final; how far it has come is left open (log 17). A quarter command completes. -/
def stopMx (c : Nat) (s : State) : State :=
  match headOp s c with
  | none => s
  | some o =>
    if !o.started || !mxReady s c o then s
    else if !isProduct o.i then after s (execMatrixCmdComplete c s)
    else
      match headProduct s c o with
      | none => s
      | some ps =>
        if ps.any (fun x => !x.2.1.started || !mxReady s x.1 x.2.1) then s
        else
          let first := match ps with | x :: _ => x.1 | [] => c
          let rows := jointRows ps
          let at_ := (s.core first).mrowp
          let (bs, s) := s.freeBytes 2
          let r := at_ + leNat bs % max 1 (rows - at_)
          let cycles := match ps with | x :: _ => (rows - r) * (if x.2.2.fa.wide then 2 else 1) * x.2.2.chunks | [] => 0
          if cycles ≤ 4096 then after s (execMatrixCmdComplete first s)
          else mxSettle (ps.map (fun x => (x.1, x.2.1))) (productUpTo ps r s)

/-- Whether an engine of a core waits for answers of other devices. -/
def enginesAsk (k : Core) : Bool := [TlCtx.fa, .mx, .ea].any (fun x => (k.opsOf x).any (fun o => o.asked ≠ 0))

/-- Every end that a cell holds is detached (R282). -/
def endsOut (c : Nat) (s : State) : State :=
  let hs := (((s.core c).h.toList.drop 1).filter (holdsEnd (s.core c))).eraseDups
  let s := hs.foldl (fun s h => detachEnd c (.detach c) h s) s
  s.modCore c (fun k => { k with transit := k.transit ++ hs })

/-- The lease ends, to be asked for again (R166). -/
def leaseOut (k : Core) : Core :=
  let l := k.lease
  if l.st == .none then k
  else { k with lease := { l with st := .none, again := true, asking := l.asking || l.st == .req } }

/-- Whether operations of a core have released pins or posted parts that are not yet applied (R86, R98). -/
def enginesOwe (s : State) (c : Nat) : Bool :=
  let k := s.core c
  [TlCtx.fa, .mx, .ea].any (fun x => (k.tlOf x).out.any (fun n => (k.opsOf x).all (fun o => o.n ≠ n)) ||
    (k.opsOf x).any (fun o => pinPending s c x o.n || partsOut s c x o.n))

/-- Stopping a cell's engines for pre-emption or PSAVE: whether that is done, and the state. -/
def stopEngines (c : Nat) (s : State) : Bool × State :=
  if (s.core c).preempted then (true, s)
  else if !(s.core c).stores.isEmpty then (false, s)
  else
    let s := stopMx c (runQueue c .ea (runQueue c .fa s))
    if enginesAsk (s.core c) || enginesOwe s c then (false, s)
    else
      let s := s.modCore c (fun k => leaseOut { k with
        preempted := true, tl := Vector.ofFn (fun (i : Fin 4) =>
          let t := vget .init k.tl i.val
          if i.val < 3 then { t with stopped := true } else t) })
      (true, endsOut c s)

/-- A cell that PREEMPT stops enters S mode once its strands and engines have stopped; what CTL has parked elsewhere is
withdrawn (R307, R322, R323). -/
def execCellStop (core : Nat) (s : State) : Res :=
  let k := s.core core
  match k.raised with
  | some (_, t) =>
    if t.cause = 0xA0 && k.mode == .u then
      if quiet k .ctl && k.ctl.asked = 0 then
        match stopEngines core s with
        | (true, s) => .next (enterS core .ctl t s)
        | (false, s) => .next s
      else .next (withdrawFe core s)
    else .next s
  | none => .next s

/-- A trap whose entry into M mode waited is entered (R306); a checkstopped core's cell is killed (R312). -/
def execMonitorEntry (core : Nat) (s : State) : Res :=
  match (s.core core).raised with
  | some (st, t) =>
    if t.cause = 0xB2 then
      .next (if (s.core core).live then killReport core (killCell core s) else s.modCore core (fun k => { k with raised := none }))
    else if t.cause = 0xA0 || !goesM (s.core core) t then .next s
    else if quiet (s.core core) st then .next (enter core st t s)
    else .next (withdrawFe core s)
  | none => .next s

/-! ### ERET (R317) -/

/-- ERET from S mode (R317). -/
def eretS (s : State) : Try State := do
  let c := s.cur.core
  let k := s.me
  let str := Strand.ofCode (fld k.trapcause 10 2).toNat
  trapIf s (!k.savedst.getLsbD stLIVE || k.savedst.getLsbD stDET) 0x0A
  trapIf s (badResume str k.trappc) 0x0A
  let back (k : Core) : Core :=
    resumeStrands ({ k with
      savedst := setBit (setBit k.savedst stLIVE false) stPEND false,
      mode := Mode.ofCode (fld k.savedst 0 2).toNat,
      shS := k.upper }.setUpper k.shS) str k.trappc k.heldS
  if k.savedst.getLsbD stPEND then
    pure (s.modMe (fun k => { back k with
      stepArm := false, raised := some (.ctl, ⟨0xA0, 0, k.launchid &&& 0xFFFFFFFF, none, none⟩) }))
  else
    let ends := queuesFor k k.transit
    let answers ← askAdopt s ends 0
    let s := s.modMe (fun k => { (back k).restart with
      stepArm := k.savedst.getLsbD stSTEP, preempted := false, transit := [] })
    pure (afterReturn c (resolvedAt c (adoptList c ends answers s)))

/-- ERET from M mode: to the mode and pc held in the save area (R306, R317; log 6). -/
def eretM (s : State) : Try State := do
  let c := s.cur.core
  let a := saveArea c
  let st := s.rd64 a
  let str := Strand.ofCode (fld (s.rd64 (a + 8)) 10 2).toNat
  let pc := s.rd64 (a + 16)
  trapIf s (!st.getLsbD stLIVE || badResume str pc) 0x0A
  let s := s.wr64 a (setBit st stLIVE false)
  let s := s.modMe (fun k =>
    let k' := { k with mode := Mode.ofCode (fld st 0 2).toNat, stepArm := st.getLsbD stSTEP, shM := k.upper }
    resumeStrands ((if k.preempted then k' else k'.restart).setUpper k.shM) str pc k.heldM)
  pure (afterReturn c (if (s.core c).mode == .u then resolvedAt c s else s))

/-- ERET. It finishes at the address it returns to; its own finish is no single step. -/
def execEret (s : State) : Res :=
  settle s.cur.core .ctl (do
    needPriv s
    let s' ← (if s.me.mode == .m then eretM s else eretS s)
    pure ((s'.modMe (fun k => k.modStrand .ctl (fun x => { x with pre := none, asked := 0, got := [], rel := 0 }))).chargeCore
      s.cur.core 0 1))

/-! ### The contents of an image (R324, R325; log 7) -/

/-- A list brought to a length with zeros. -/
def padTo (n : Nat) (l : List W64) : List W64 := (l ++ List.replicate (n - l.length) 0).take n

def b2w (b : Bool) : W64 := if b then 1 else 0

def loopDw (l : Option LoopSt) : List W64 :=
  match l with | none => [0, 0, 0, 0] | some l => [1, l.start, w64 l.len, l.left]
def repDw (r : Option RepSt) : List W64 :=
  match r with
  | none => [0, 0, 0, 0, 0, 0]
  | some r => [1, r.at_, w64 r.idx, w64 r.count,
      w64 (r.sd.toNat + 16 * r.sa.toNat + 256 * r.sb.toNat + 4096 * r.sc.toNat), r.fpc.setWidth 64]

/-- CTL's area: registers, pc, predicates, FPC, MODDEF, loop. -/
def ctlArea (k : Core) : List W64 :=
  padTo 128 (k.s.toList ++ [k.ctl.pc, k.p.setWidth 64, k.ctl.fpc.setWidth 64, k.ctl.moddef.setWidth 64] ++ loopDw k.ctl.loop)
/-- A wide strand's area. -/
def wideArea (x : StrandSt) : List W64 :=
  padTo 64 (x.a.toList ++ [x.pc, x.fpc.setWidth 64, x.moddef.setWidth 64] ++ loopDw x.loop ++ repDw x.rep ++ [b2w x.ended])

/-- K0 to K7, 16 dwords each. -/
def kArea (k : Core) : List W64 :=
  (k.k.toList.map (fun m => (List.range 16).map (fun i => fld m (64 * i) 64))).flatten
/-- The token queues. -/
def tokenArea (k : Core) : List W64 :=
  (k.tq.toList.map (fun q => padTo 32 ((q.map (fun t => [t.value, b2w t.valued])).flatten))).flatten

def tlDw (t : Tl) : List W64 :=
  let m := t.mark.getD ⟨0, 0, 0, 0⟩
  [w64 t.base, w64 t.issued, w64 t.done, b2w t.mark.isSome, w64 m.op, w64 m.cause, m.addr, m.info]
/-- Token counts, timelines, MSTAT, MROWP, the trap CSRs, CTXID.CTX. -/
def miscArea (k : Core) : List W64 :=
  padTo 64 (k.tq.toList.map (fun q => w64 q.length) ++ (k.tl.toList.map tlDw).flatten ++ [k.mstat, w64 k.mrowp] ++
    [k.trapvec, k.trapcause, k.trappc, k.trapaddr, k.trapinfo, k.savedst] ++ [w64 k.ctxOf])

def attrCode (a : Attr) : Nat := a.o.code.toNat + 8 * a.s.code.toNat + 64 * a.c.code.toNat
/-- A saved operation: kind, strand, progress and direction; number, words, FPC, attributes, position, the core's count of
cells, then its captured registers and its pins. A copy stands between two copies. -/
def opDw (x : TlCtx) (o : Op) : List W64 :=
  let at_ := match o.i with | .cec .. => o.pos / 2 * 2 | .mma .. => 0 | .mmag .. => 0 | _ => o.pos
  [w64 (x.idx + 4 * o.st.code + (if o.started then 16 else 0) + (if o.back then 32 else 0)), w64 o.n, encodeWide o.i,
   encodeSecond o.i, o.fpc.setWidth 64, w64 (attrCode o.attr), w64 at_, w64 o.cell, w64 o.args.length, w64 o.pins.length] ++
    o.args ++ o.pins

/-- What an operation has captured or read, slot and word in a dword; a matrix command's bank is lent and saved as it
stands. -/
def opSlots (o : Op) : List W64 :=
  match o.i with
  | .mma .. | .mmag .. => []
  | _ => o.data.map (fun p => w64 (p.1 % 2 ^ 32 * 2 ^ 32) + p.2.setWidth 64)

/-- The operations that an image saves. -/
def savedOps (k : Core) : List (TlCtx × Op) :=
  ([TlCtx.fa, .mx, .ea].map (fun x => ((k.opsOf x).filter (fun o => o.cell = k.cell)).map (fun o => (x, o)))).flatten

/-- A migrating tile (R103): its folio, its record, its ORIGIN, the galleys the image holds. -/
structure Migrant where
  f : Nat
  x : Folio
  origin : W64
  gmap : BitVec 64
deriving DecidableEq, Repr

/-- A refused delta not yet raised, in three dwords (R97). -/
def refusedDw (r : Refused) : List W64 := [w64 (r.cause + 256 * r.st.code + (if r.fromS then 1024 else 0)), r.handle, w64 r.due]

/-- The galleys of an image's directory. -/
def galleyCount (ms : List Migrant) : Nat := ms.foldl (fun n m => n + m.x.ngal) 0

/-- How many dwords the engine area may have: 8 KiB at 0x2000, the rest of the directory's block, and what the migrating
galleys leave of the image's length (log 7). -/
def engineRoom (galleys : Nat) : Nat := 2816 + (512 - galleys) * 2048

/-- The operations' captured slots as far as they fit, each list with its length; 2 ^ 32 stands for one that does not. -/
def slotsDw (room : Nat) : List Op → List W64
  | [] => []
  | o :: l =>
    let d := opSlots o
    if d.length + 1 + l.length ≤ room then w64 d.length :: d ++ slotsDw (room - d.length - 1) l
    else w64 (2 ^ 32) :: slotsDw (room - 1) l

/-- The engine area (log 7): its length, then the device and core, the lease's pending MLEASE, the ends, the weights
owed, the migrating tiles' handles, the refused deltas, the operations, and what these have captured. -/
def engineArea (s : State) (c : Nat) (ms : List Migrant) : List W64 :=
  let k := s.core c
  let pins := (((savedOps k).map (fun p => p.2.pins)).flatten.filter (fun h => !counted h)).map hTile
  let owed := k.owedWeights.filter (fun h => pins.contains (hTile h))
  let tiles := ms.map (fun m => mkHandle 1 s.dev c m.f m.x.gen 0 0)
  let held := (k.refused.map refusedDw).flatten
  let l := [w64 (s.dev % 256 + 256 * c), b2w k.lease.asking] ++
    (w64 k.transit.length :: k.transit) ++ (w64 owed.length :: owed) ++ (w64 tiles.length :: tiles) ++
    (w64 held.length :: held) ++ (w64 (savedOps k).length :: ((savedOps k).map (fun p => opDw p.1 p.2)).flatten)
  let l := l ++ slotsDw (engineRoom (galleyCount ms) - l.length - 1) ((savedOps k).map (·.2))
  w64 (l.length + 1) :: l

/-- Where dword `i` of the engine area lies: 8 KiB at 0x2000, then between the directory and the galleys, then behind the
galleys. -/
def engineSplit (l : List W64) : List W64 × List W64 × List W64 := (padTo 1024 l, (l.drop 1024).take 1792, l.drop 2816)

/-- Whether a copy engine of a core goes on filling a tile while the cell is out. -/
def runsOn (k : Core) (h : W64) : Bool :=
  (k.opsOf .fa).any (fun o => (match o.i with | .cecol .. => true | _ => false) && o.pos = 1 && o.makes h)

/-- The tiles that migrate, in the order of the H registers (R103). -/
def migrants (s : State) (c gen : Nat) (full : Bool) : List Migrant :=
  let k := s.core c
  let mine (h : W64) : Bool := isTile h && counted h && homeHere s h && hCore h = c
  let hs := (k.h.toList.drop 1).filter (fun h =>
    mine h && (let x := s.folio c (hFolio h); x.used && x.gen = hGen h && x.ctx = k.ctxOf && x.expc = 0))
  let fs := (hs.map hFolio).eraseDups.filter (fun f =>
    let same := hs.filter (fun h => hFolio h = f)
    (s.folio c f).count = same.length && !same.any (runsOn k))
  fs.zipIdx.map (fun p =>
    let x := s.folio c p.1
    let old := k.origins.find? (fun o => o.1 = p.1 && o.2.1 = x.gen)
    { f := p.1, x := if x.state == .draining then { x with state := .full, drains := x.drains - 1 } else x, origin := (match old with | some o => o.2.2 | none => w64 (gen + p.2 * 2 ^ 32)),
      gmap := BitVec.ofNat 64 ((List.range x.ngal).foldl (fun n j =>
        if full || old.isNone || k.dirtyG.getLsbD (x.first + j) then n + 2 ^ j else n) 0) })

/-- A directory entry (R325). -/
def dirDw (m : Migrant) : List W64 := (folioWords m.x).take 2 ++ [m.origin, m.gmap]

/-- The lease's code in the header. -/
def leaseCode (l : Lease) : Nat := if !l.again then 0 else if l.gang then 3 else if l.asking then 1 else 2

/-- The header (R325). -/
def header (k : Core) (c gen base : Nat) (baseVa : W64) (det full : Bool) (vmap : BitVec 384) (smap : BitVec 16)
    (ntile : Nat) : List W64 :=
  padTo 64 ([w64 (1 + (if det then 256 else 0) + (if full then 1024 else 0)),
    w64 (gen % 2 ^ 32 + (if full then 0 else base % 2 ^ 32 * 2 ^ 32)), (if full then 0 else baseVa),
    w64 ((k.launchid.toNat % 2 ^ 32) + k.ordinal % 2 ^ 32 * 2 ^ 32)] ++ k.dmemb.toList ++
    [w64 ((List.range 4).foldl (fun n i => n + vget 0 k.phase i % 65536 * 2 ^ (16 * i)) 0),
     w64 (k.arrived.toNat + (if k.latch then 16 else 0) + leaseCode k.lease * 32 + k.lent.toNat * 256 + posOf c * 2 ^ 20 +
       (if k.gang then 2 ^ 22 else 0)),
     w64 (k.launchid.toNat % 2 ^ 24 + k.budcls.toNat % 2 ^ 11 * 2 ^ 32), k.trapvec] ++
    (List.range 6).map (fun i => fld vmap (64 * i) 64) ++ [smap.setWidth 64, w64 ntile])

def dwBytes (l : List W64) : List Byte := (l.map (fun (w : W64) => leBytes 8 w.toNat)).flatten

/-- A V register's 4 KiB. -/
def vBytes (k : Core) (v : Nat) : List Byte :=
  ((unlist 0 (k.rV v) 0 1024).map (fun (w : W32) => leBytes 4 w.toNat)).flatten
/-- A stripe's 16 KiB. -/
def stripeBytes (k : Core) (i : Nat) : List Byte :=
  ((unlist 0 (mslice k.quarter (4096 * i) (4096 * (i + 1))) 0 4096).map (fun (w : W32) => leBytes 4 w.toNat)).flatten

/-- First galley of each entry within the galley area, counting every galley of the entries before. -/
def galleyBase : Nat → List Nat → List Nat
  | _, [] => []
  | n, g :: l => n :: galleyBase (n + g) l

/-- The cell as it will run in U mode, from a core that stands in S or M mode (R307, R317). -/
def asUser (k : Core) : Core :=
  resumeStrands (k.setUpper k.shS) (Strand.ofCode (fld k.trapcause 10 2).toNat) k.trappc k.heldS

/-! ### PSAVE (R326) -/

/-- A range to write with its bytes and their poison. -/
structure Put where
  va : Nat
  bytes : List Byte
  bad : List Bool
deriving DecidableEq, Repr

/-- What a PSAVE writes. -/
def imagePuts (s : State) (c : Nat) (va : Nat) (gen base : Nat) (baseVa : W64) (det full : Bool) (ms : List Migrant) :
    List Put :=
  let k := asUser (s.core c)
  let vmap := if full then BitVec.allOnes 384 else k.dirtyV
  let smap := if full then BitVec.allOnes 16 else k.dirtyS
  let eng := engineSplit (engineArea s c ms)
  let clean (va : Nat) (bs : List Byte) : Put := ⟨va, bs, bs.map (fun _ => false)⟩
  let fixed := header k c gen base baseVa det full vmap smap ms.length ++ ctlArea k ++ wideArea k.fet ++ wideArea k.exe ++
    wideArea k.emi ++ padTo 64 k.h.toList ++ kArea k ++ tokenArea k ++ miscArea k ++ eng.1
  [clean va (dwBytes fixed)] ++
    ((List.range 384).filter (fun v => vmap.getLsbD v)).map (fun v => clean (va + 0x4000 + 4096 * v) (vBytes k v)) ++
    ((List.range 16).filter (fun i => smap.getLsbD i)).map (fun i => clean (va + 0x184000 + 16384 * i) (stripeBytes k i)) ++
    (if ms.isEmpty then [] else [clean (va + 0x1C4000) (dwBytes ((ms.map dirDw).flatten))]) ++
    (if eng.2.1.isEmpty then [] else [clean (va + 0x1C4800) (dwBytes eng.2.1)]) ++
    (if eng.2.2.isEmpty then [] else [clean (va + 0x1C8000 + 16384 * galleyCount ms) (dwBytes eng.2.2)]) ++
    ((ms.zip (galleyBase 0 (ms.map (fun m => m.x.ngal)))).map (fun p =>
      ((List.range p.1.x.ngal).filter (fun j => p.1.gmap.getLsbD j)).map (fun j =>
        let off := 16384 * (p.1.x.first + j)
        (⟨va + 0x1C8000 + 16384 * (p.2 + j), tileBytes s c off 16384, badBytes k.storePoison off 16384⟩ : Put)))).flatten

/-- The ranges written at their homes, window parts posted; all checked first (R209, R326). -/
def putAll (s : State) (ps : List Put) : Try State := do
  let s ← ps.foldlM (fun (s : State) r => writeOkRange s 1 r.va r.bytes.length) s
  let parts := (ps.map (fun r => match regionOf r.va with
    | .window w off => (cutParts (partsOf (r.bytes.length / 256 + 2) off r.bytes.length) off r.bytes).map (fun p =>
        (⟨w, p.1, p.2, r.va + (p.1 - off)⟩ : Part))
    | _ => [])).flatten
  let gone := s.my.asked
  if gone = parts.length + 1 then pure s
  else
    waitFor s (0 < gone || mayPost s parts)
    let (n, s) := postParts s (parts.drop gone)
    if gone + n < parts.length then .error (.wait (s.modMy (fun x => { x with asked := gone + n })))
    let s ← ps.foldlM (fun (s : State) r =>
      match regionOf r.va with
      | .window _ _ => .ok s
      | _ => (pagesOf r.va r.bytes.length).foldlM (fun (s : State) p => do
          let (t, s) ← writePlace s (w64 p.1)
          let at_ := p.1 - r.va
          let s' := performWrite s s.cur.core t.pa ((r.bytes.drop at_).take p.2) false
          pure (chargeHbm { s' with poison := poisonBytes s'.poison t.pa ((r.bad.drop at_).take p.2) } p.2)) s) s
    pure (s.modMy (fun x => { x with asked := parts.length + 1 }))

/-- The migrating tiles are DRAINING while they are saved (R93, R103). -/
def drainAll (c : Nat) (ms : List Migrant) (s : State) : State :=
  ms.foldl (fun s m => if (s.folio c m.f).state == .full then drainOn c m.f s else s) s
/-- The same tiles once the save has failed. -/
def undrainAll (c : Nat) (ms : List Migrant) (s : State) : State :=
  ms.foldl (fun s m => drainOff (mkHandle 1 s.dev c m.f m.x.gen 0 0) s) s

/-- The migrating tiles leave the core (R103). -/
def migrateOut (c : Nat) (ms : List Migrant) (s : State) : State :=
  ms.foldl (fun s m => freeTile c m.f s) s

/-- Written blocks are clean (R326). -/
def cleaned (ms : List Migrant) (k : Core) : Core :=
  { k with
    dirtyV := 0
    dirtyS := 0
    dirtyG := ms.foldl (fun (d : BitVec 512) m =>
      d &&& ~~~(BitVec.ofNat 512 ((2 ^ m.x.ngal - 1) * 2 ^ m.x.first))) k.dirtyG }

/-- PSAVE (R326). -/
def execPsave (d a b : BitVec 6) (s : State) : Res :=
  runCtl s (fun s => do
    needPriv s
    let c := s.cur.core
    let k := s.me
    trapIf s (!k.savedst.getLsbD stLIVE || k.savedst.getLsbD stDET) 0x0A
    let x := s.rS b
    let va := s.rS a
    trapIf s (fld x 33 31 != 0) 0xA4
    if va.toNat % 4096 ≠ 0 then trapAt s 0x24 va
    if fld va 52 12 != 0 then trapAt s 0x20 va
    let det := x.getLsbD 32
    let base := x.toNat % 2 ^ 32
    let (ok, s) := stopEngines c s
    if !ok then block s
    waitFor s (!det || ((s.core c).tlOf .sq).out.isEmpty)
    let s ← (if s.my.asked = 0 then do
        release s .sys
        waitFor s (s.net.outs.all (fun o => match o.why with | .detach x => x != c | _ => true))
        pure s
      else pure s)
    let full := base = 0 || base ≠ k.lastgen % 2 ^ 32
    let gen := (k.lastgen + 1) % 2 ^ 32
    let ms := if det then migrants s c gen full else []
    let s := drainAll c ms s
    let s ← (match (do
        let s ← putAll s (imagePuts s c va.toNat gen base k.lastimg det full ms)
        release s .sys
        pure s : Try State) with
      | .error (.trap t s) => .error (.trap t (undrainAll c ms s))
      | r => r)
    let s := s.modMe (fun k => { cleaned ms k with lastgen := gen, lastimg := va })
    let s := if det then
        let s := (migrateOut c ms s).modMe (fun k => { k with savedst := setBit k.savedst stDET true })
        if ownLaunch s c then modLaunch k.launchNo (fun l => { l with outCells := l.outCells + 1 }) s else s
      else s
    pure (s.wS d (w64 (gen + (if full then 2 ^ 32 else 0)))))

/-! ### Reading a chain (R328) -/

/-- An image's header. -/
structure Img where
  va : W64
  d : List W64
deriving DecidableEq, Repr

def Img.w (i : Img) (n : Nat) : W64 := i.d.getD n 0
def Img.full (i : Img) : Bool := (i.w 0).getLsbD 10
def Img.gen (i : Img) : Nat := (fld (i.w 1) 0 32).toNat
def Img.version (i : Img) : Nat := (fld (i.w 0) 0 8).toNat
def Img.hasV (i : Img) (v : Nat) : Bool := i.full || (i.w (12 + v / 64)).getLsbD (v % 64)
def Img.hasS (i : Img) (n : Nat) : Bool := i.full || (i.w 18).getLsbD n
def Img.tiles (i : Img) : Nat := if (i.w 0).getLsbD 8 then min 64 (fld (i.w 19) 0 7).toNat else 0

/-- A header read by the issuing strand after `k` answers. -/
def readImg (s : State) (k : Nat) (va : W64) : Try (Img × State × Nat) := do
  if va.toNat % 8 ≠ 0 then trapAt s 0x24 va
  if fld va 52 12 != 0 then trapAt s 0x20 va
  let (bs, s, k) ← readSome s k [(va.toNat, 512)]
  pure (⟨va, dwOf 64 bs.flatten⟩, s, k)

/-- The images from a newest one down to a full one (R328); `fuel` bounds the links that are followed (log 7). -/
def walkChain : Nat → Img → List Img → State → Nat → Try (List Img × State × Nat)
  | 0, _, _, s, _ => trap s 0xA5
  | fuel + 1, i, acc, s, k =>
    if i.full then .ok (acc ++ [i], s, k)
    else if i.w 2 = 0 then trap s 0xA5
    else do
      let (j, s, k) ← readImg s k (i.w 2)
      if j.version ≠ 1 || j.gen ≠ (fld (i.w 1) 32 32).toNat then trap s 0xA5
      walkChain fuel j (acc ++ [i]) s k

/-- A directory: ORIGIN, GMAP, the first galley's place and the number of galleys of each entry, with the image. -/
structure DirEnt where
  img : Img
  origin : W64
  gmap : W64
  at_ : Nat
  ngal : Nat
deriving DecidableEq, Repr

def dirOf (i : Img) (bs : List Byte) : List DirEnt :=
  let d := dwOf (4 * i.tiles) bs
  let g (n : Nat) : Nat := (fld (d.getD (4 * n + 1) 0) 0 6).toNat + 1
  (galleyBase 0 ((List.range i.tiles).map g)).zipIdx.map (fun p =>
    ⟨i, d.getD (4 * p.2 + 2) 0, d.getD (4 * p.2 + 3) 0, p.1, g p.2⟩)

/-- Bytes that are not zero, with their offsets from `off`. -/
def sparse (off : Nat) (bs : List Byte) : SMap Byte := (bs.zipIdx.filter (fun p => p.1 != 0)).map (fun p => (off + p.2, p.1))

/-- A dword of an image's contents. -/
def imgD (m : SMap Byte) (off : Nat) : W64 := w64 (leNat (mgets 0 m off 8))

/-- The newest image's part that is in every image, with what of its engine area lies elsewhere. -/
def readFixed (s : State) (k : Nat) (i : Img) : Try (SMap Byte × State × Nat) := do
  let (bs, s, k) ← readSome s k [(i.va.toNat, 0x4000)]
  let b := bs.flatten
  let n := min (engineRoom 0) (leNat ((b.drop 0x2000).take 8))
  if 1024 < n then
    let (cs, s, k) ← readSome s k [(i.va.toNat + 0x1C4800, 8 * (min n 2816 - 1024))]
    pure (sparse 0 b ++ sparse 0x1C4800 cs.flatten, s, k)
  else pure (sparse 0 b, s, k)

/-- The whole chain as one image: each block from the newest image that holds it (R328). -/
def readChain (s : State) (k : Nat) (ch : List Img) : Try (SMap Byte × State × Nat) := do
  match ch with
  | [] => trap s 0xA5
  | i :: _ =>
    let (fixed, s, k) ← readFixed s k i
    let vs := (List.range 384).filterMap (fun v => (ch.find? (·.hasV v)).map (fun j => (0x4000 + 4096 * v, j.va.toNat + 0x4000 + 4096 * v, 4096)))
    let ss := (List.range 16).filterMap (fun n => (ch.find? (·.hasS n)).map (fun j =>
      (0x184000 + 16384 * n, j.va.toNat + 0x184000 + 16384 * n, 16384)))
    let withDir := ch.filter (fun j => j.tiles ≠ 0)
    let (ds, s, k) ← readSome s k (withDir.map (fun j => (j.va.toNat + 0x1C4000, 32 * j.tiles)))
    let dirs := (withDir.zip ds).map (fun p => dirOf p.1 p.2)
    let all := dirs.flatten
    let mine := all.filter (fun e => e.img.va = i.va)
    let gs := (mine.map (fun e => (List.range e.ngal).map (fun j =>
      (0x1C8000 + 16384 * (e.at_ + j),
        (all.find? (fun x => x.origin = e.origin && x.gmap.getLsbD j)).map (fun x => x.img.va.toNat + 0x1C8000 + 16384 * (x.at_ + j)))))).flatten
    if gs.any (fun g => g.2.isNone) then trap s 0xA5
    let n := min (engineRoom 0) (imgD fixed 0x2000).toNat
    let after := 0x1C8000 + 16384 * (mine.map (·.ngal)).sum
    let blocks := vs ++ ss ++ gs.filterMap (fun g => g.2.map (fun a => (g.1, a, 16384))) ++
      (if 2816 < n then [(after, i.va.toNat + after, 8 * (n - 2816))] else [])
    let (bs, s, k) ← readSome s k (blocks.map (fun b => (b.2.1, b.2.2)))
    let dir := match withDir.zip ds with | (j, b) :: _ => if j.va = i.va then sparse 0x1C4000 b else [] | [] => []
    let body := (blocks.zip bs).map (fun p => (p.1.1, sparse p.1.1 p.2))
    let lowB := ((body.filter (fun p => p.1 < 0x1C4000)).map (·.2)).flatten
    let highB := ((body.filter (fun p => 0x1C4000 ≤ p.1)).map (·.2)).flatten
    pure (fixed.filter (fun p => p.1 < 0x4000) ++ lowB ++ dir ++ fixed.filter (fun p => 0x4000 ≤ p.1) ++ highB, s, k)

/-- The engine area of an image's contents. -/
def engineOf (m : SMap Byte) : List W64 :=
  let n := min (engineRoom 0) (imgD m 0x2000).toNat
  let tiles := min 64 (fld (imgD m 0x98) 0 7).toNat
  let gals := if (imgD m 0).getLsbD 8 then
      ((List.range tiles).map (fun i => (fld (imgD m (0x1C4000 + 32 * i + 8)) 0 6).toNat + 1)).sum else 0
  (List.range n).map (fun i => imgD m (if i < 1024 then 0x2000 + 8 * i else if i < 2816 then 0x1C4800 + 8 * (i - 1024)
    else 0x1C8000 + 16384 * gals + 8 * (i - 2816)))

/-- A counted list at the head of another, and the rest. -/
def counted1 (l : List W64) : List W64 × List W64 :=
  let n := min l.length (l.headD 0).toNat
  ((l.drop 1).take n, (l.drop 1).drop n)

/-- What the engine area holds. -/
structure Saved where
  dev : Nat
  core : Nat
  asking : Bool
  ends : List W64
  owed : List W64
  tiles : List W64
  refused : List Refused
  ops : List (TlCtx × Op)
  slots : List (Option (SMap W32))
deriving DecidableEq, Repr

def ctxOfIdx (n : Nat) : TlCtx := match n with | 0 => .fa | 1 => .mx | 2 => .ea | _ => .sq

/-- Saved operations read back, with the rest of the list; a word that is no instruction ends them. -/
def opsOfDw : Nat → List W64 → List (TlCtx × Op) × List W64
  | 0, l => ([], l)
  | n + 1, l =>
    let g (i : Nat) : W64 := l.getD i 0
    let st := Strand.ofCode ((g 0).toNat / 4 % 4)
    match rawWide st (g 2) (g 3) with
    | none => ([], [])
    | some i =>
      let na := (g 8).toNat
      let np := (g 9).toNat
      let rest := l.drop 10
      let r := opsOfDw n (rest.drop (na + np))
      ((ctxOfIdx ((g 0).toNat % 4),
        { n := (g 1).toNat, i, st, fpc := (g 4).setWidth 32, attr := attrOf ((g 5).setWidth 32), args := rest.take na,
          data := [], pos := (g 6).toNat, pins := (rest.drop na).take np, started := (g 0).getLsbD 4, asked := 0, got := [],
          ctx := 0, cls := 0, launch := 0, cell := (g 7).toNat, back := (g 0).getLsbD 5 }) :: r.1, r.2)

/-- The operations' slots read back, none where the image does not hold them. -/
def slotsOfDw : Nat → List W64 → List (Option (SMap W32))
  | 0, _ => []
  | n + 1, l =>
    if l.headD 0 = w64 (2 ^ 32) then none :: slotsOfDw n (l.drop 1)
    else
      let (d, rest) := counted1 l
      some (d.map (fun w => (w.toNat / 2 ^ 32, w.setWidth 32))) :: slotsOfDw n rest

/-- Refused deltas read back. -/
def refusedOfDw : List W64 → List Refused
  | x :: h :: due :: l =>
    { cause := x.toNat % 256, handle := h, st := Strand.ofCode (x.toNat / 256 % 4), due := due.toNat, fromS := x.getLsbD 10 } ::
      refusedOfDw l
  | _ => []

def savedOf (m : SMap Byte) : Saved :=
  let l := engineOf m
  let (ends, l1) := counted1 (l.drop 3)
  let (owed, l2) := counted1 l1
  let (tiles, l3) := counted1 l2
  let (held, l4) := counted1 l3
  let (ops, l5) := opsOfDw (l4.headD 0).toNat (l4.drop 1)
  { dev := (l.getD 1 0).toNat % 256, core := (l.getD 1 0).toNat / 256 % 128, asking := (l.getD 2 0).getLsbD 0, ends, owed, tiles,
    refused := refusedOfDw held, ops, slots := slotsOfDw ops.length l5 }

/-! ### References of a saved cell (R99, R101, R103, R328; log 12) -/

/-- A counted reference given up from a device that may not be its home. -/
def dropRef (c : Nat) (h : W64) (s : State) : State :=
  if counted h && !homeHere s h then sendPkt s c (homePkt h 40 []) (.other 32) else giveUp c .ctl h false s

/-- A counted reference of another device becomes a proxy here: its home makes an export (R99). -/
def asProxy (c : Nat) (h : W64) (s : State) : State × W64 :=
  (sendPkt s c (homePkt h 39 []) (.other 32), hSetWeight h 17)

/-- Whether a tile of this device still has its record. -/
def tileLive (s : State) (h : W64) : Bool :=
  let x := s.folio (hCore h) (hFolio h)
  x.used && x.gen = hGen h

/-- A handle restored on a core (R103, R328): itself, a proxy, a local reference again, or null with RESTORE_STALE. A proxy
of a tile of this device that operations still pin stays one until its pin record is empty (R101). -/
def restoreHandle (c ctx launch : Nat) (pinned : List W64) (s : State) (h : W64) : State × W64 :=
  if !isTile h then (s, h)
  else if homeHere s h then
    if !tileLive s h then (event s ctx 0x3A c launch h 0, 0)
    else if counted h || pinned.contains (hTile h) then (s, h)
    else landHandle s h
  else if counted h then asProxy c h s
  else (s, h)

/-! ### Disposal (R328) -/

/-- What a launch's own device learns of a cell that was out: it is placed, or gone (R322, R328; log 12). -/
def cellBack (c : Nat) (launch : W64) (ord q : Nat) (s : State) : State :=
  let id := (fld launch 0 24).toNat
  let dev := (fld launch 24 8).toNat
  if dev = s.dev % 256 then resolved id ord q s else sendPkt s c (dealerPkt dev 55 [id, ord, q]) (.other 32)

/-- The gang position an image records, if it is of a gang iteration. -/
def gangOf (st : W64) : Option Nat := if st.getLsbD 22 then some (fld st 20 2).toNat else none

/-- A saved collective that ran on is an operation of an ended cell (R328). -/
def orphanOps (v : Saved) (s : State) : State :=
  if v.dev ≠ s.dev % 256 then s
  else v.ops.foldl (fun s p =>
    match opAt s v.core .fa p.2.n with
    | some o => if o.cell = 0 && p.1 == .fa then setOp v.core .fa { o with cell := p.2.cell } s else s
    | none => s) s

/-- The saved cell of an image's contents ends as a kill ends it (R328). -/
def dispose (c ctx : Nat) (m : SMap Byte) (s : State) : State :=
  let v := savedOf m
  let launch := imgD m 0x18 &&& 0xFFFFFFFF
  let st := imgD m 0x48
  let key (h : W64) : W64 := hSetRights h 0
  let hs := ((List.range 63).map (fun i => imgD m (0xC08 + 8 * i))).filter (fun h => isTile h && !v.tiles.contains (key h))
  let s := hs.foldl (fun s h => dropRef c h s) s
  let s := closeTransit c 2 v.ends s
  let s := ((v.ops.map (fun p => p.2.pins)).flatten.filter counted).foldl (fun s h => dropRef c h s) s
  let s := v.ops.foldl (fun s p => undrain c p.2 s) s
  let s := v.owed.foldl (fun s h => s.post (.weight c .ctl h)) (orphanOps v s)
  let s := lostCell c launch true (cellBack c launch (fld (imgD m 0x18) 32 32).toNat ((gangOf st).getD 0) s)
  event s ctx 0xA6 c (fld launch 0 24).toNat 0 0

/-- An image of a gang iteration disposed of: no image of it is restored any more (R329). -/
def disposeGang (c ctx : Nat) (m : SMap Byte) (s : State) : State :=
  let launch := imgD m 0x18 &&& 0xFFFFFFFF
  let ord := (fld (imgD m 0x18) 32 32).toNat
  let s := dispose c ctx m s
  match gangOf (imgD m 0x48) with
  | none => s
  | some _ =>
    let same (p : Place) : Bool := p.gang.isSome && p.launch = launch && p.ordinal = ord
    let held := s.places.filter same
    let s := { s with places := s.places.filter (fun p => !same p),
                      gangTo := (launch, ord, 256) :: s.gangTo.filter (fun g => !(g.1 = launch && g.2.1 = ord)) }
    held.foldl (fun s p => dispose p.src p.ctx p.img s) s

/-- Where a gang iteration's images go, if that is settled (R329). -/
def gangPlace (s : State) (launch : W64) (ord : Nat) : Option Nat :=
  (s.gangTo.find? (fun g => g.1 = launch && g.2.1 = ord)).map (·.2.2)

/-! ### PREST (R328, R329) -/

/-- RESTORED claimed by one read-modify-write at the header's home; the answers used are `k`. -/
def claim (s : State) (va : W64) (k : Nat) (old : W64) : Try State :=
  let new := setBit old 9 true
  match (if s.mode == .m then Region.page else regionOf va.toNat) with
  | .window w off =>
    match winDesc s s.me.ctxOf w with
    | .error e => trapAt s e va
    | .ok (d, s) =>
      match winCheck d off 8 true true with
      | .error e => trapAt s e va
      | .ok t => do
        let pay := [(8 : Byte)] ++ leBytes 8 old.toNat ++ leBytes 8 new.toNat
        let bs ← askNext s va k 1 (fun s =>
          sendPkt s s.cur.core (reqPkt t 3 off pay.length pay) (.answer s.cur.core s.cur.st k))
        if leNat (bs.flatten.take 8) ≠ old.toNat then trap s 0xA4
        pure s
  | .page => do
    let (t, s) ← writePlace s va
    if s.rd64 t.pa != old then trap s 0xA4
    pure (performWrite s s.cur.core t.pa (leBytes 8 new.toNat) false)
  | _ => trapAt s 0x21 va

/-- Whether a launch of this device is cancelling. -/
def cancelling (s : State) (launch : W64) : Bool :=
  (fld launch 24 8).toNat = s.dev % 256 &&
    s.launches.any (fun l => l.id = (fld launch 0 24).toNat && l.st == .cancelling)

/-- The same for a launch of any device, asked of it as request `k`; a device that cannot answer says no. -/
def askCancelling (s : State) (launch : W64) (k : Nat) : Try (Bool × State × Nat) :=
  let dev := (fld launch 24 8).toNat
  if dev = s.dev % 256 || s.net.lost.contains dev then .ok (cancelling s launch, s, k)
  else
    match askNext s 0 k 1 (fun s => sendPkt s s.cur.core (dealerPkt dev 96 [(fld launch 0 24).toNat, s.me.ctxOf, 1])
        (.answer s.cur.core s.cur.st k)) with
    | .ok bs => .ok (leNat (bs.flatten.take 8) % 8 = 3, s, k + 1)
    | .error (.trap _ _) =>
      .ok (false, s.modMy (fun x => { x with got := x.got.map (fun a => if a.n = k then { a with cause := 0 } else a) }), k + 1)
    | .error (.wait s) => .error (.wait s)

/-- Whether a device can be reached (R303): it is this one, or not lost with some way out of this one. -/
def reachable (s : State) (dev : Nat) : Bool :=
  dev = s.dev % 256 || (!s.net.lost.contains dev && s.net.up.any (· < 30))

/-- An image's contents sent to another device's Dealer in parts, then the request (log 12). -/
def shipImage (c dev : Nat) (p : Place) (s : State) : State :=
  let chunk (i : Nat) : List Byte := mgets 0 p.img (128 * i) 128
  let used := (p.img.map (fun q => q.1 / 128)).eraseDups
  let s := used.foldl (fun s i =>
    let q := dealerPkt dev 62 [p.ctx, p.image.toNat, 128 * i]
    sendPkt s c { q with payload := q.payload ++ chunk i, len := q.len + 128 } (.other 32)) s
  sendPkt s c (dealerPkt dev 61 [p.ctx, p.image.toNat, p.core + (if p.any then 128 else 0) + (if p.entry then 256 else 0), p.src])
    (.prest p.ctx p.image c)

/-- The placement request that a PREST or a packet makes of an image's contents. -/
def placeOf (dev ctx src : Nat) (image : W64) (m : SMap Byte) (core : Nat) (any entry : Bool) : Place :=
  { dev, ctx, src, image, img := m, core, any, entry, gang := gangOf (imgD m 0x48), launch := imgD m 0x18 &&& 0xFFFFFFFF,
    ordinal := (fld (imgD m 0x18) 32 32).toNat, asked := 0, got := [] }

/-- A request reaches this device's Dealer; the first of a gang settles its device, and the launch's own device learns where
its cell is (R75). -/
def askDealer (p : Place) (s : State) : State :=
  let home := (fld p.launch 24 8).toNat
  let s := if home = s.dev % 256 then s else sendPkt s p.src (dealerPkt home 58 [(fld p.launch 0 24).toNat]) (.other 32)
  let s := if p.gang.isSome && (gangPlace s p.launch p.ordinal).isNone then
      { s with gangTo := (p.launch, p.ordinal, s.dev % 256) :: s.gangTo } else s
  { s with places := s.places ++ [p] }

def execPrest (d a b : BitVec 6) (s : State) : Res :=
  runCtl s (fun s => do
    needPriv s
    let c := s.cur.core
    let x := s.rS b
    trapIf s (fld x 18 46 != 0) 0xA4
    let va := s.rS a
    let (i, s, k) ← readImg s 0 va
    trapIf s (i.version ≠ 1 || !(i.w 0).getLsbD 8 || (i.w 0).getLsbD 9) 0xA4
    let (ch, s, k) ← walkChain 65536 i [] s k
    let launch := i.w 3 &&& 0xFFFFFFFF
    let ord := (fld (i.w 3) 32 32).toNat
    let gang := (gangOf (i.w 9)).isSome
    let gone := gang && gangPlace s launch ord = some 256
    let (cut, s, k) ← (if x.getLsbD 17 || gone then pure (true, s, k) else askCancelling s launch k)
    if cut then
      let (m, s, k) ← readFixed s k i
      let s ← claim s va k (i.w 0)
      pure ((disposeGang c s.me.ctxOf m s).wS d 2)
    else
      let dev := if gang then (gangPlace s launch ord).getD (fld x 8 8).toNat else (fld x 8 8).toNat
      if !reachable s dev then pure (s.wS d 1)
      else
        let (m, s, k) ← readChain s k ch
        let s ← claim s va k (i.w 0)
        let p := placeOf (s.dev % 256) s.me.ctxOf c va m (fld x 0 7).toNat (x.getLsbD 7) (x.getLsbD 16)
        if dev = s.dev % 256 then pure ((askDealer p s).wS d 0)
        else
          let s := if gang then { s with gangTo := (launch, ord, dev) :: s.gangTo.filter (fun g => !(g.1 = launch && g.2.1 = ord)) }
            else s
          pure ((shipImage c dev p s).wS d 0))

/-! ### Placement (R328, R329) -/

/-- RESTORED cleared again: the image stays usable (R328). -/
def unclaim (ctx : Nat) (image : W64) (s : State) : State :=
  match devPlace s ctx image.toNat with
  | .error _ => s
  | .ok (s, pa) => s.wr64 pa (setBit (s.rd64 pa) 9 false)

/-- A placement given up (R328): here, or at the device that issued it. -/
def giveBack (p : Place) (s : State) : State :=
  if p.dev = s.dev % 256 then unclaim p.ctx p.image s
  else sendPkt s p.src (dealerPkt p.dev 63 [p.ctx, p.image.toNat]) (.other 32)

/-- Whether a core has room for a restored cell: no cell, in service, nothing left of another cell. A collective of
the image's own may run there. -/
def vacant (s : State) (v : Saved) (c : Nat) : Bool :=
  let k := s.core c
  let own (o : Op) : Bool := o.cell = 0 && v.dev = s.dev % 256 && v.core = c && v.ops.any (fun p => p.2.n = o.n)
  !k.live && !k.out && !k.stopped && !s.tripped && k.stores.isEmpty && (k.tlOf .sq).out.isEmpty &&
    [TlCtx.fa, .mx, .ea].all (fun x => (k.opsOf x).all own)

/-- A loop as an image holds it; its body is captured afresh. -/
def loopOf (m : SMap Byte) (off : Nat) : Option LoopSt :=
  if imgD m off = 0 then none
  else some { start := imgD m (off + 8), len := (imgD m (off + 16)).toNat, left := imgD m (off + 24), body := [] }
def repOf (m : SMap Byte) (off : Nat) : Option RepSt :=
  if imgD m off = 0 then none
  else
    let z := imgD m (off + 32)
    some { at_ := imgD m (off + 8), idx := (imgD m (off + 16)).toNat, count := (imgD m (off + 24)).toNat, sd := fld z 0 4,
           sa := fld z 4 4, sb := fld z 8 4, sc := fld z 12 4, fpc := (imgD m (off + 40)).setWidth 32 }
def wideOf (m : SMap Byte) (off : Nat) (old : StrandSt) : StrandSt :=
  { StrandSt.init with
    ic := old.ic, a := Vector.ofFn (fun i => imgD m (off + 8 * i.val)), pc := imgD m (off + 256), fpc := (imgD m (off + 264)).setWidth 32 &&& 0xFFFF,
    moddef := moddefWrite 0x18 (imgD m (off + 272)), loop := loopOf m (off + 280), rep := repOf m (off + 312),
    ended := imgD m (off + 360) != 0 }

def tlOfDw (m : SMap Byte) (off : Nat) (outs : List Nat) : Tl :=
  { base := (imgD m off).toNat, issued := (imgD m (off + 8)).toNat, out := outs,
    mark := if imgD m (off + 24) = 0 then none else
      some ⟨(imgD m (off + 32)).toNat, (imgD m (off + 40)).toNat, imgD m (off + 48), imgD m (off + 56)⟩,
    stopped := imgD m (off + 24) != 0, reach := Vector.replicate 5 1 }

/-- The slots of 4-byte words at an offset. -/
def slotsAt (m : SMap Byte) (off n : Nat) : SMap W32 :=
  let bs := mslice m off (off + 4 * n)
  mofFn 0 (fun i => BitVec.ofNat 32 (leNat (mgets 0 bs (4 * i) 4))) 0 n

/-- The registers of a saved cell on a core: everything but tiles, handles, ends and operations. Reserved bits of its CSRs
read as zero whatever the image holds (R6). -/
def cellRegs (s : State) (p : Place) (v : Saved) (k : Core) : Core :=
  let m := p.img
  let st := imgD m 0x48
  let lease := (fld st 5 3).toNat
  let ctx := (imgD m (0x1E00 + 8 * 52)).toNat % 512
  { freshCell k with
    ctl := { StrandSt.init with
      ic := k.ctl.ic, pc := imgD m 0x400, fpc := (imgD m 0x410).setWidth 32 &&& 0xFFFF,
      moddef := moddefWrite 0x18 (imgD m 0x418), loop := loopOf m 0x420 }
    fet := wideOf m 0x600 k.fet, exe := wideOf m 0x800 k.exe, emi := wideOf m 0xA00 k.emi
    s := Vector.ofFn (fun i => imgD m (0x200 + 8 * i.val)), p := (imgD m 0x408).setWidth 8
    k := Vector.ofFn (fun i => (List.range 16).foldl (fun (a : BitVec 1024) j =>
      a ||| (imgD m (0xE00 + 128 * i.val + 8 * j)).setWidth 1024 <<< (64 * j)) 0)
    tq := Vector.ofFn (fun q => (List.range (imgD m (0x1E00 + 8 * q.val)).toNat).map (fun j =>
      ⟨imgD m (0x1200 + 256 * q.val + 16 * j + 8) != 0, imgD m (0x1200 + 256 * q.val + 16 * j)⟩))
    v := (List.range 384).foldl (fun a i => mset [] a i (slotsAt m (0x4000 + 4096 * i) 1024)) []
    quarter := slotsAt m 0x184000 65536
    lent := fld st 8 12, arrived := fld st 0 4, latch := true, gang := st.getLsbD 22
    phase := Vector.ofFn (fun i => (fld (imgD m 0x40) (16 * i.val) 16).toNat)
    mstat := imgD m (0x1E00 + 8 * 44) &&& 0x3F, mrowp := (imgD m (0x1E00 + 8 * 45)).toNat % 1024
    trapvec := imgD m (0x1E00 + 8 * 46) &&& 0x000FFFFFFFFFFFFC, trapcause := imgD m (0x1E00 + 8 * 47) &&& 0xBFFF
    trappc := imgD m (0x1E00 + 8 * 48)
    trapaddr := imgD m (0x1E00 + 8 * 49), trapinfo := imgD m (0x1E00 + 8 * 50)
    savedst := setBit 0 stSTEP ((imgD m (0x1E00 + 8 * 51)).getLsbD stSTEP)
    lease := if lease = 0 then .init else
      { Lease.init with st := .req, gang := lease = 3, since := s.cycle, again := true, asking := v.asking }
    launchid := p.launch, budcls := (fld (imgD m 0x50) 32 11).setWidth 64 &&& 0x73F, refused := v.refused
    dmemb := Vector.ofFn (fun i => imgD m (0x20 + 8 * i.val))
    ctxid := w64 (ctx + (s.ctx ctx).inst % 2 ^ 32 * 2 ^ 16), vfid := w64 ctx, ordinal := p.ordinal
    lastgen := (fld (imgD m 8) 0 32).toNat, lastimg := p.image, dirtyV := 0, dirtyS := 0, dirtyG := 0
    tl := Vector.ofFn (fun i => tlOfDw m (0x1E60 + 64 * i.val)
      ((v.ops.filter (fun q => q.1.idx = i.val)).map (fun q => q.2.n))) }

/-- The migrating tiles rebuilt on a core (R103): old and new handles, or none where room runs out. -/
def rebuildTiles (c ctx : Nat) (m : SMap Byte) : List (W64 × Nat × Nat) → State → Option (List (W64 × W64) × State)
  | [], s => some ([], s)
  | (old, i, at_) :: l, s =>
    let d0 := imgD m (0x1C4000 + 32 * i)
    let d1 := imgD m (0x1C4000 + 32 * i + 8)
    let y := folioFrom ctx d0 d1 0
    match newTile c ctx y.fmt y.rows y.cols y.state y.win true s with
    | none => none
    | some (f, s) =>
      let x := s.folio c f
      let s := s.setFolio c f { x with count := y.count }
      let s := s.modCore c (fun k => { k with
        store := msplice k.store (16384 * x.first) (16384 * x.ngal) (mslice m (0x1C8000 + 16384 * at_) (0x1C8000 + 16384 * (at_ + x.ngal))),
        dirtyG := k.dirtyG &&& ~~~(BitVec.ofNat 512 ((2 ^ x.ngal - 1) * 2 ^ x.first)),
        origins := k.origins ++ [(f, x.gen, imgD m (0x1C4000 + 32 * i + 16))] })
      match rebuildTiles c ctx m l s with
      | none => none
      | some (r, s) => some ((old, handleOf s c f) :: r, s)

/-- A saved handle of a migrated tile under its new name. -/
def renamed (r : List (W64 × W64)) (h : W64) : Option W64 :=
  (r.find? (fun q => q.1 = hSetRights h 0 && isTile h)).map (fun q => hSetRights q.2 (hRights h))

/-- The captured registers of an operation whose tile has moved: its new name, and its galleys last. -/
def movedArgs (s : State) (r : List (W64 × W64)) (o : Op) : List W64 :=
  match o.args with
  | [] => []
  | h :: l =>
    match renamed r h with
    | none => o.args
    | some g =>
      let x := s.folio (hCore g) (hFolio g)
      g :: (l.take (l.length - 2) ++ [w64 x.first, w64 x.ngal])

/-- The slots that an operation captured from V registers and that its image has no room for, taken again (log 7); a lent
bank has not changed. -/
def recapture (k : Core) (o : Op) : SMap W32 :=
  match o.i with
  | .mma _ _ _ _ _ _ (.bank b) .. => captureBlock k (32 * b.toNat) 32
  | .mmag _ _ _ _ _ _ (.bank b) .. => captureBlock k (32 * b.toNat) 32
  | .stv _ _ _ _ va _ => captureBlock k va.toNat (nreg (o.arg 1) (o.arg 2))
  | .stred _ _ _ _ vd .. => captureBlock k vd.toNat 32
  | _ => []

/-- The pending registers of a queued drain (R24). -/
def pendingOf (o : Op) : List Nat :=
  match o.i with
  | .mdrain _ (.vregs v) _ _ _ _ _ m n _ _ => blockRegs v.toNat (m.toNat + 1) (n.toNat + 1)
  | _ => []

/-- A saved operation back in a core's queue (R323): a collective that ran on here comes over as it stands, or is
complete; any other with its captured registers and slots, its counted pins of other devices as proxies. -/
def restoreOp (c : Nat) (v : Saved) (r : List (W64 × W64)) (x : TlCtx) (o : Op) (slots : Option (SMap W32)) (s : State) : State :=
  let mine (o : Op) : Op :=
    let k := s.core c
    { o with ctx := k.ctxOf, cls := k.cls, launch := k.launchid, cell := k.cell }
  let coll := (match o.i with | .cecol .. => true | _ => false) && o.pos = 1
  if coll then
    match (if v.dev = s.dev % 256 then opAt s v.core .fa o.n else none) with
    | some o' =>
      let s := s.modCore v.core (fun k => k.setOps .fa ((k.opsOf .fa).filter (fun q => q.n ≠ o.n)))
      let s := if v.core = c then s else s.modCore v.core (fun k => k.setTl .fa
        { k.tlOf .fa with out := (k.tlOf .fa).out.filter (· ≠ o.n) })
      let id := collId o'
      let s := { s with colls := s.colls.map (fun (q : Coll) => if q.id = id && q.joined = some (v.core, o.n) then
        { q with joined := some (c, o.n) } else q) }
      s.modCore c (fun k => k.setOps .fa (k.opsOf .fa ++ [mine o']))
    | none => complete c .fa o.n s
  else
    let far := o.pins.filter (fun h => counted h && !homeHere s h)
    let s := far.foldl (fun s h =>
      let (s, g) := asProxy c h s
      s.modCore c (fun k => { k with owedWeights := k.owedWeights ++ [g] })) s
    let swap (h : W64) : W64 := if far.contains h then hSetWeight h 17 else h
    let o := { o with args := (movedArgs s r o).map swap, pins := o.pins.map swap }
    s.modCore c (fun k =>
      let k := (o.pins.filter (fun h => !counted h)).foldl (fun (k : Core) h => pinMore h k) k
      let data := match o.i with
        | .mma .. | .mmag .. => recapture k o
        | _ => slots.getD (recapture k o)
      { k.setOps x (k.opsOf x ++ [mine { o with data }]) with vPend := k.vPend ++ pendingOf o })

/-- The loops' bodies captured (R36). -/
def captureLoops (c : Nat) (s : State) : State :=
  s.modCore c (fun k => [Strand.ctl, .fet, .exe, .emi].foldl (fun (k : Core) st =>
    k.modStrand st (fun x => { x with loop := x.loop.map (fun l => { l with body := bodyWords s c st .u l.start l.len }) })) k)

/-- A saved cell built on a core, not yet resumed; none where its tiles find no room (R328). -/
def buildCell (c : Nat) (p : Place) (answers : List (List Byte)) (s : State) : Option State :=
  let m := p.img
  let v := savedOf m
  let s := s.modCore c (cellRegs s p v)
  let ctx := (s.core c).ctxOf
  let id := (s.core c).launchNo
  let ngal (i : Nat) : Nat := (fld (imgD m (0x1C4000 + 32 * i + 8)) 0 6).toNat + 1
  let bases := galleyBase 0 ((List.range v.tiles.length).map ngal)
  match rebuildTiles c ctx m (v.tiles.zipIdx.zip bases |>.map (fun q => (q.1.1, q.1.2, q.2))) s with
  | none => none
  | some (r, s) =>
    let pinned := (((v.ops.map (fun q => q.2.pins)).flatten).filter (fun h => !counted h)).map hTile
    let s := (List.range 63).foldl (fun s i =>
      let h := imgD m (0xC08 + 8 * i)
      let (s, h) := match renamed r h with | some g => (s, g) | none => restoreHandle c ctx id pinned s h
      s.modCore c (fun k => k.wH (BitVec.ofNat 6 (i + 1)) h)) s
    let s := s.modCore c (fun k => { k with owedWeights := k.owedWeights ++ v.owed })
    let s := (v.ops.zip v.slots).foldl (fun s q => restoreOp c v r q.1.1 q.1.2 q.2 s) s
    let s := adoptList c (queuesFor (s.core c) v.ends) answers s
    let cl := clusterOf c
    let s := if (s.core c).lease.gang && (s.cluster cl).gangAt.isNone then s.modCluster cl (fun k => { k with gangAt := some s.cycle })
      else s
    some (captureLoops c s)

/-- A built cell resumes (R328): in U mode, or in S mode with RESUMED; its launch learns that it is back. -/
def resumeCell (c : Nat) (p : Place) (s : State) : State :=
  let s := cellBack c p.launch p.ordinal (p.gang.getD 0) s
  let s := if (fld p.launch 24 8).toNat = s.dev % 256 then
      modLaunch (fld p.launch 0 24).toNat (fun l => { l with outCells := l.outCells - 1 }) s else s
  if p.entry then enterS c .ctl ⟨0xA1, 0, 0, none, none⟩ s else acquireAt c .sys s

/-- The requests that a placement makes of the anchors of other devices, sent once (R277), and again where one of them is
lost before it answers. -/
def askPlace (c : Nat) (p : Place) (s : State) : State × Place :=
  let p := if p.asked ≤ p.got.length && p.got.any (fun a => a.cause = 0x93) then { p with asked := 0, got := [] } else p
  let away := (queuesFor (s.core c) (savedOf p.img).ends).filter (fun q => asksAway s q.1)
  if away.isEmpty || p.asked ≠ 0 then (s, p)
  else
    (away.zipIdx.foldl (fun s q => sendPkt s c
      (anchorPkt 51 q.1.1 (leBytes 8 (match q.1.2 with | some n => n + 1 | none => 0))) (.place p.dev p.ctx p.image q.2)) s,
     { p with asked := away.length, core := c, any := false })

/-- The answers of a placement in order. -/
def answersOf (p : Place) : List (List Byte) :=
  (List.range p.asked).map (fun i => match p.got.find? (fun a => a.n = i) with | some a => a.bytes | none => [])

/-- Whether a placement of a single cell may take a core now: vacant, not named by an earlier request, and in no cluster
reserved for a gang (R70, R328). -/
def placeable (s : State) (k : Nat) (v : Saved) (c : Nat) : Bool :=
  vacant s v c && !reserved s (clusterOf c) none && (s.places.take k).all (fun q => q.any || q.gang.isSome || q.core ≠ c)

/-- The core a placement takes now: the one it names, or the lowest free one (R328). -/
def coreOf (s : State) (k : Nat) (p : Place) : Option Nat :=
  let v := savedOf p.img
  if p.any then (List.range 128).find? (placeable s k v) else if placeable s k v p.core then some p.core else none

/-- The launch of another device is cancelled there: its cells and waiting placements here go with it (R75). -/
def cancelAway (dev id : Nat) (s : State) : State :=
  let ref := w64 (id + dev % 256 * 2 ^ 24)
  let mine := s.places.filter (fun p => p.launch = ref)
  let s := mine.foldl (fun s p => dispose p.src p.ctx p.img s) { s with places := s.places.filter (fun p => p.launch ≠ ref) }
  ((s.cores.filter (fun p => p.2.live && p.2.launchid &&& 0xFFFFFFFF = ref)).map (·.1)).foldl (fun s c =>
    if isShell s c then endShell c s else lostCell c ref false (killCell c s)) s

/-- A Dealer places a saved cell (R328), or disposes of it where its launch is cancelling (R75). -/
def execPrestPlace (k : Nat) (s : State) : Res :=
  match s.places[k]? with
  | none => .next s
  | some p =>
    if cancelling s p.launch then .next (disposeGang p.src p.ctx p.img { s with places := s.places.eraseIdx k })
    else if p.gang.isSome then .next s
    else
      match coreOf s k p with
      | none => .next s
      | some c =>
        let (s, p) := askPlace c p s
        if p.got.length < p.asked then .next { s with places := s.places.set k p }
        else
          let s := { s with places := s.places.eraseIdx k }
          match buildCell c p (answersOf p) s with
          | some s => .next (resumeCell c p s)
          | none => .next (event (giveBack p s) p.ctx 0x44 c (fld p.launch 0 24).toNat p.image 0)

/-- The four requests of a gang, in order of position, once all are held (R329). -/
def gangPlaces (s : State) (p : Place) : Option (List Place) :=
  (List.range 4).mapM (fun q => s.places.find? (fun x => x.gang = some q && x.launch = p.launch && x.ordinal = p.ordinal))

/-- The cluster a gang takes: that of the core the first request names, or the first that is wholly free and made of
members of its launch. -/
def gangCluster (s : State) (p : Place) (ps : List Place) : Option Nat :=
  let free (cl : Nat) : Bool := ((coresOf cl).zip ps).all (fun x => vacant s (savedOf x.2.img) x.1)
  let members := match s.launches.find? (fun l => l.id = (fld p.launch 0 24).toNat && (fld p.launch 24 8).toNat = s.dev % 256) with
    | some l => l.members
    | none => BitVec.allOnes 128
  if p.any then (List.range 32).find? (fun cl => wholeCluster members cl && free cl)
  else if free (clusterOf p.core) then some (clusterOf p.core) else none

/-- The four built in turn. -/
def buildAll : List (Nat × Place) → State → Option State
  | [], s => some s
  | (c, p) :: l, s =>
    match buildCell c p (answersOf p) s with
    | none => none
    | some s => buildAll l s

/-- Four held images of a gang iteration are placed and started together (R329). -/
def execGangRestore (k : Nat) (s : State) : Res :=
  match s.places[k]? with
  | none => .next s
  | some p =>
    if p.gang.isNone || cancelling s p.launch then .next s
    else
      match gangPlaces s p with
      | none => .next s
      | some ps =>
        match gangCluster s p ps with
        | none => .next s
        | some cl =>
          let pairs := (coresOf cl).zip ps
          let asked := pairs.foldl (fun (acc : State × List (Nat × Place)) x =>
            let r := askPlace x.1 x.2 acc.1
            (r.1, acc.2 ++ [(x.1, r.2)])) (s, [])
          let rest := asked.1.places.filter (fun q => !(q.gang.isSome && q.launch = p.launch && q.ordinal = p.ordinal))
          if asked.2.any (fun x => x.2.got.length < x.2.asked) then .next { asked.1 with places := rest ++ asked.2.map (·.2) }
          else
            let s := { asked.1 with places := rest,
                                    gangTo := s.gangTo.filter (fun g => !(g.1 = p.launch && g.2.1 = p.ordinal)) }
            match buildAll asked.2 s with
            | some s => .next (asked.2.foldl (fun s x => resumeCell x.1 x.2 s) s)
            | none => .next (asked.2.foldl (fun s x => giveBack x.2 s)
                (event s p.ctx 0x44 (coreAt cl 0) (fld p.launch 0 24).toNat p.image 0))

end Sys2Proof.Machine
end

