-- ==== Sys2Proof/Machine/Ras.lean ====
section
/-! DEFINITION. Stop-press and RAS (R330 to R333), the watchdog (R314), and heat and power (R342). -/

namespace Sys2Proof.Machine

/-- A record of the management log (R313). -/
def mgmtRec (s : State) (cause core : Nat) (addr info : W64) : State :=
  { s with mgmt := s.mgmt ++ [[eventHead s cause core 0, addr, info, s.presscnt]] }

/-! ### Corrections (R330 to R332) -/

/-- A bank whose lasting fault withdraws its core from dispatch (R331). -/
def coreBank (b : Nat) : Bool := b < 12 || b = 44 || (77 ≤ b && b ≤ 98)

/-- RASCNT after a correction. -/
def rascntAfter (old : W64) (bank cnt wdrawn : Nat) : W64 :=
  w64 (min (2 ^ 24 - 1) ((fld old 40 24).toNat + 1) * 2 ^ 40 + bank * 2 ^ 32 + min 255 cnt * 2 ^ 24 + wdrawn % 256 * 2 ^ 16)

/-- A correction counted; a bank past THR is withdrawn (R331, R332). -/
def countBank (core bank : Nat) (s : State) : State :=
  let k := s.core core
  let n := mget 0 k.bankCnt bank + 1
  let lasting := k.rasthr < n && !k.withdrawn.contains bank
  let gone := if lasting then addSet bank k.withdrawn else k.withdrawn
  let s := s.modCore core (fun k => { k with
    bankCnt := mset 0 k.bankCnt bank n, withdrawn := gone, rascnt := rascntAfter k.rascnt bank n gone.length,
    out := k.out || (lasting && coreBank bank) })
  if lasting then event s k.ctxOf 0xB1 core k.launchNo 0 (w64 bank) else s

/-- A correctable error in a core's structure: 48 cycles of stop-press (R330), which a held lease does not count
(R166). -/
def execStopPress (core bank : Nat) (s : State) : Res :=
  if 98 < bank then .next s
  else
    let s := countBank core bank (s.modCore core (fun k => { k with freeze := max k.freeze s.cycle + 48 }))
    if (s.core core).lease.st == .held then
      .next ((holdersWith s core).foldl (fun s c =>
        s.modCore c (fun k => { k with lease := { k.lease with since := k.lease.since + 48 } })) s)
    else .next s

/-- The freeze ends (R330). -/
def execStopPressEnd (core : Nat) (s : State) : Res :=
  if (s.core core).freeze ≤ s.cycle then .next (s.modCore core (fun k => { k with freeze := 0 })) else .next s

/-- A window of a core ends: every bank count is cleared (R331). -/
def execRasWindow (core : Nat) (s : State) : Res :=
  let k := s.core core
  if k.winStart + k.raswin ≤ s.cycle then
    .next (s.modCore core (fun k => { k with bankCnt := [], winStart := k.winStart + k.raswin, raswin := k.raswinNext }))
  else .next s

/-- A correction in HBM or a home cache is counted per row, with the first core's RASTHR as its bound (R330, R314). -/
def execHbmCorrection (row : Nat) (s : State) : Res :=
  let n := mget 0 s.rows row + 1
  let s' := { s with rows := mset 0 s.rows row n }
  .next (if n = (s.core 0).rasthr + 1 then mgmtRec s' 0xB7 0 (w64 row) 0 else s')

/-! ### Uncorrectable errors (R333) -/

/-- Data poisoned, or a core checkstopped for poison that belongs to no instruction. -/
def execUncorrectable (site : ErrSite) (s : State) : Res :=
  match site with
  | .mem pa => .next (if memOk pa then { s with poison := addSet (pa / 8) s.poison } else s)
  | .tile core off =>
    .next (if off < 2 ^ 23 then s.modCore core (fun k => { k with storePoison := addSet (off / 8) k.storePoison }) else s)
  | .folio core idx =>
    .next (if idx < 2 ^ 14 then s.modCore core (fun k => { k with folioPoison := addSet idx k.folioPoison }) else s)
  | .tokens core q =>
    .next (if q < 12 then s.modCore core (fun k => { k with tokPoison := addSet q k.tokPoison }) else s)
  | .control core => .next (checkstop core s)

/-- The patrol scrub finds an uncorrectable line that nothing uses. -/
def execScrubUe (pa : Nat) (s : State) : Res :=
  .next (if memOk pa then mgmtRec { s with poison := addSet (pa / 8) s.poison } 0xB8 0 (w64 pa) 0 else s)

/-- The monitor's watchdog expires: an entry into M mode, or a checkstop of a core in M mode (R305). -/
def execWatchdog (core : Nat) (s : State) : Res := .next (takeTrap core .ctl ⟨0xB9, 0, 0, none, none⟩ s)

/-! ### Heat and power (R342) -/

def execThermWarn (s : State) : Res := .next (mgmtRec s 0xB4 0 0 0)
/-- Every core and engine stops until reset. -/
def execThermTrip (s : State) : Res := .next { mgmtRec s 0xB5 0 0 0 with tripped := true }
/-- Issue is held for a cycle on every core; one record a press period. -/
def execPowerCap (s : State) : Res :=
  let s' := if s.capped then s else { mgmtRec s 0xB6 0 0 0 with capped := true }
  .next { s' with cycle := s'.cycle + 1 }

end Sys2Proof.Machine
end

