-- ==== Sys2Proof/Machine/Fabric.lean ====
section
/-! DEFINITION. The fabric side of the device (R293, R294, R299 to R303): packets taken in sequence, window requests
performed and answered, responses, tokens, collective data, requests of other devices' homes, anchors and Dealers
(log 12), retransmission, lost devices and links. -/

namespace Sys2Proof.Machine

/-! ### Taking a packet (R302, R303, R334) -/

/-- A host's packet that the device has not yet taken. -/
def Packet.raw (p : Packet) : Bool := p.port = 30 || p.port = 31
/-- A host's packet taken for this device. -/
def Packet.own (p : Packet) : Bool := 62 ≤ p.port

/-- The number expected next of a packet's source and class. -/
def wanted (s : State) (p : Packet) : Nat := (look (p.src * 4 + p.cls) s.net.nextIn).getD 0

/-- What becomes of a packet that is up: it stays, it goes unapplied, or it is applied now. -/
inductive Take | stay | drop (s : State) | go (p : Packet) (s : State)
deriving DecidableEq, Repr

/-- Packet `k` of those of an operation, in sequence order; one already applied is discarded, a response acknowledged again.
The acknowledgement of a response has no number. -/
def takePkt (s : State) (k : Nat) (ok : Packet → Bool) : Take :=
  match s.net.inbox[k]? with
  | none => .stay
  | some p =>
    let rest := { s with net := { s.net with inbox := s.net.inbox.eraseIdx k } }
    if !ok p || p.raw then .stay
    else if p.last then .go p rest
    else if p.own then
      if (s.net.inbox.take k).any (fun q => q.port = p.port && q.cls = p.cls) then .stay else .go p rest
    else
      let n := wanted s p
      if p.seq = n then
        .go p { rest with net := { rest.net with nextIn := put (p.src * 4 + p.cls) ((n + 1) % 2 ^ 32) rest.net.nextIn } }
      else if (n + 2 ^ 32 - p.seq) % 2 ^ 32 < 2 ^ 31 then .drop (if p.cls = 1 then reply rest p 5 [] else rest)
      else .stay

/-- A packet's step: nothing, the discard, or its effect; one that must wait stays. -/
def onPkt (s : State) (k : Nat) (ok : Packet → Bool) (f : Packet → State → Option State) : Res :=
  match takePkt s k ok with
  | .stay => .next s
  | .drop s => .next s
  | .go p s' => .next ((f p s').getD s)

/-- Bytes `8·i + at_` up of a payload as a number. -/
def payNum (p : Packet) (at_ i : Nat) : Nat := leNat ((p.payload.drop (at_ + 8 * i)).take 8)
def payByte (p : Packet) (i : Nat) : Nat := (p.payload.getD i 0).toNat

def refuse (s : State) (p : Packet) (cause : Nat) : State := reply s p 6 [BitVec.ofNat 8 cause]
def ack (s : State) (p : Packet) : State := reply s p 5 []

/-! ### The check unit (R294) -/

/-- An export entry as the device holds it, fetched on first use (R294, R297). -/
def exportEnt (s : State) (ctx i : Nat) : Option (List W64 × State) :=
  match look i (s.ctx ctx).exps with
  | some d => some (d, s)
  | none =>
    let root := s.root ctx
    if beyond root || beyond (root + 65535) then none
    else
      let d := (List.range 4).map (fun j => s.rd64 (exportPa s ctx i + 8 * j))
      some (d, s.modCtx ctx (fun x => { x with exps := put i d x.exps }))

/-- Where an accepted request goes: an address of the exporting context, or a core's tile store. -/
inductive Into | va (ctx va : Nat) | tile (ctx core off : Nat)
deriving DecidableEq, Repr

/-- Whether a region of an export is lent to a device other than the requester (R299). -/
def lentFrom (s : State) (wid off src : Nat) : Bool :=
  s.lentTok.any (fun t => t.wid = wid && t.region = off / 2 ^ 21 && t.holder ≠ src)

/-- Whether an export entry is malformed (0x2F): BASE or LEN is no multiple of 4 KiB (DEDUCED, log 78). Reserved fields are
ignored (R6). -/
def exportMalformed (d : List W64) : Bool :=
  !(d.getD 0 0).getLsbD 3 && (fld (d.getD 1 0) 0 12 != 0 || fld (d.getD 2 0) 0 12 != 0)

/-- A request checked against its export entry with the rights it needs, or the cause of its refusal. -/
def checkExport (s : State) (p : Packet) (read write : Bool) : Except Nat (Into × State) :=
  let ctx := p.wid / 16
  if !(s.ctx ctx).en then .error 0x91
  else
    match exportEnt s ctx (p.wid % 16) with
    | none => .error 0x91
    | some (d, s) =>
      let d0 := d.getD 0 0
      let tile := d0.getLsbD 3
      let len := if tile then 2 ^ 23 else (fld (d.getD 2 0) 0 52).toNat
      if d0.getLsbD 0 && exportMalformed d then .error 0x2F
      else if !d0.getLsbD 0 || len ≤ p.off || (write && !d0.getLsbD 2) || (read && !d0.getLsbD 1) then .error 0x91
      else if (fld (d.getD 3 0) 0 32).toNat ≠ p.key then .error 0x90
      else if lentFrom s p.wid p.off p.src then .error 0x92
      else if tile then .ok (.tile ctx (fld d0 4 7).toNat p.off, s)
      else .ok (.va ctx ((fld (d.getD 1 0) 0 52).toNat + p.off), s)

/-- A core on the home's die, whose caches a write from outside goes by. -/
def homeCore (pa : Nat) : Nat := 64 * homeDie pa

/-- The cause that stands for a wait: the page's LOCK is held by software (R291, log 92). -/
def waitCause : Nat := 0

/-- The place of a request's access in the exporting context, copy-on-write done. -/
def servePlace (s : State) (ctx va : Nat) (write : Bool) : Except Nat (Nat × Bool × State) :=
  if 0xE000000000000 ≤ va then .error 0x20
  else
    match walkEnt s ctx va with
    | .error c => .error c
    | .ok e =>
      match permit e.leaf .u write false with
      | some c => .error c
      | none =>
        if write && s.stocks.any (fun r => r.ctx = ctx && r.va ≤ va && va < r.va + r.len) then .error 0x21
        else if !write then .ok (paOf e va, e.leaf.getLsbD 6, s)
        else
          match writeNow s (some e) with
          | .error c => .error c
          | .ok none => .error waitCause
          | .ok (some (s, false)) => .ok (paOf e va, e.leaf.getLsbD 6, s)
          | .ok (some (s, true)) => (walkEnt s ctx va).map (fun e => (paOf e va, e.leaf.getLsbD 6, s))

/-- A request served, or refused with its cause (R294); none where it must wait. -/
def serve (p : Packet) (s : State) (r : Except Nat State) : Option State :=
  match r with
  | .ok s => some s
  | .error c => if c = waitCause then none else some (refuse s p c)

/-- A window read (R294). -/
def execPktRead (k : Nat) (s : State) : Res :=
  onPkt s k (fun p => p.op = 0) (fun p s => serve p s (do
    let (i, s) ← checkExport s p true false
    let n := p.len + 1
    match i with
    | .tile ctx core off =>
      if (tileWinBad s ctx core off n).isSome then .error 0xB0
      pure (reply s p 4 (tileWin s ctx core off n))
    | .va ctx va =>
      let (pa, _, s) ← servePlace s ctx va false
      if s.bad pa n then .error 0xB0
      pure (reply s p 4 (s.bytes pa n))))

/-- Whether a galley takes raw writes from a context's window (R115). -/
def takesRaw (s : State) (ctx core off : Nat) : Bool :=
  let g := s.gal core (off / 16384)
  let x := s.folio core g.folio
  g.busy && g.ctx = ctx && x.used && x.win && x.state == .filling && x.first ≤ off / 16384 && off / 16384 < x.first + x.ngal

/-- Raw bytes written to a galley; those past the tile's last element stay zero (R91, R115). -/
def rawWrite (core off : Nat) (bs : List Byte) (s : State) : State :=
  clearTail core (s.folio core (s.gal core (off / 16384)).folio) (tileWrite s core off bs false)

/-- A posted window write (R115, R294). -/
def execPktWrite (k : Nat) (s : State) : Res :=
  onPkt s k (fun p => p.op = 1) (fun p s => serve p s (do
    let (i, s) ← checkExport s p false true
    match i with
    | .tile ctx core off =>
      if !takesRaw s ctx core off then .error 0x41
      pure (ack (rawWrite core off p.payload s) p)
    | .va ctx va =>
      let (pa, _, s) ← servePlace s ctx va true
      pure (ack (performWrite s (homeCore pa) pa p.payload false) p)))

/-! ### Read-modify-writes at homes of this device (R248, R250, R252, R225, R294) -/

def atomOf (n : Nat) : Option AtomOp :=
  match n with
  | 0 => some .add | 1 => some .and | 2 => some .or | 3 => some .xor | 4 => some .min | 5 => some .max | 6 => some .minn
  | 7 => some .maxn | 8 => some .xchg | _ => none
def feOf (n : Nat) : Option FeOp :=
  match n with
  | 16 => some .ldfe | 17 => some .ldf | 18 => some .stfe | 19 => some .stf | 20 => some .probe | _ => none

/-- A full/empty request at its home: answered, or parked (R248, R252). -/
def serveFe (f : FeOp) (p : Packet) (s : State) : Except Nat State := do
  let (i, s) ← checkExport s p f.reads f.writes
  match i with
  | .tile _ _ _ => .error 0x70
  | .va ctx va =>
    let (pa, tagged, s) ← servePlace s ctx va f.writes
    if !tagged then .error 0x70
    if s.bad pa 8 && f != .stf && f != .stfe then .error 0xB0
    let v := w64 (payNum p 2 0)
    match feAt (homeCore pa) f pa v s with
    | some (bs, s) => pure (reply s p 4 bs)
    | none => pure { s with parks := s.parks ++ [(⟨128, f.kind, pa / 8 * 8, v, 0, ⟨.rlx, .dev, .normal⟩, some p⟩ : Park)] }

/-- A read-modify-write of `n` bytes at an export; at a tile store on a galley that takes raw writes (R92, R115). -/
def serveRmw (p : Packet) (n : Nat) (f : Nat → Option Nat) (s : State) : Except Nat State := do
  let (i, s) ← checkExport s p true true
  match i with
  | .tile ctx core off =>
    if !takesRaw s ctx core off then .error 0x41
    if tileBad s core off n then .error 0xB0
    let bs := tileBytes s core off n
    let s := match f (leNat bs) with | some v => rawWrite core off (leBytes n v) s | none => s
    pure (reply s p 4 bs)
  | .va ctx va =>
    let (pa, _, s) ← servePlace s ctx va true
    if s.bad pa n then .error 0xB0
    let (bs, s) := rmwAt (homeCore pa) pa n f s
    pure (reply s p 4 bs)

/-! ### Requests about tiles homed here (R97 to R101, R105, R108, R109, R116; log 12) -/

/-- The tile a request names: its core, its record, or the cause of its refusal (R105). -/
def homeTile (s : State) (h : W64) : Except Nat (Nat × Nat × Folio) :=
  let c := hCore h
  let f := hFolio h
  let x := s.folio c f
  if (s.core c).folioPoison.contains f then .error 0xB0
  else if !x.used || x.gen ≠ hGen h then .error 0x31
  else .ok (c, f, x)

def serveTile (fn : Nat) (p : Packet) (s : State) : Except Nat State := do
  let h := w64 (payNum p 1 0)
  let arg := payNum p 1 1
  let (c, f, x) ← homeTile s h
  match fn with
  | 32 => pure (ack (returnWeight c f (hGen h) (weightOf h) s) p)
  | 33 => if 2 ^ 32 ≤ x.expw + 2 ^ 16 then .error 0x32 else pure (reply (s.setFolio c f { x with expw := x.expw + 2 ^ 16 }) p 4 [])
  | 34 => pure (reply s p 4 (dwBytes (folioWords x)))
  | 35 =>
    let n := min 256 (x.bytes - arg)
    if tileBad s c (16384 * x.first + arg) n then .error 0xB0
    pure (reply s p 4 (contentsAt s c x arg n))
  | 36 =>
    match sealTile c f s with
    | none => .error 0x42
    | some s => pure (reply s p 4 [])
  | 37 => pure (reply s p 4 [if x.state == .filling then 1 else 0])
  | 38 =>
    if x.rows * x.cols ≤ arg then .error 0x36
    if x.state == .filling then pure (reply s p 4 [])
    else
      if elemBad s c x arg then .error 0xB0
      pure (reply s p 4 (leBytes 8 (elemWord x.fmt (tileElem s c x arg)).toNat))
  | 39 => pure (ack (s.setFolio c f { x with expc := x.expc + 1, expw := x.expw + 2 ^ 16 }) p)
  | 40 => pure (ack (countDown c f 1 s) p)
  | 41 => pure (if x.state == .filling then reply s p 4 [1] else reply (drainOn c f s) p 4 [0])
  | _ => pure (ack (drainOff h s) p)

/-! ### Requests about anchors and launches here (R75, R77, R276, R277, R322, R328, R344; log 12) -/

/-- The item in slot `n` of a stock, taken for another device's read end (R263, R264): whether there is one, the item, and
the slots still FULL. A translation fault orphans the stream (R260). -/
def serveFetch (a : Anchor) (n : Nat) (p : Packet) (s : State) : State :=
  let j := slotOfItem s a n
  let answer (full : Byte) (it : Item) (s : State) : State :=
    reply s p 4 (full :: itemBytes it ++ leBytes 8 (stockCount s a))
  let none_ : Item := { words := List.replicate 8 0, mask := 0, poison := false }
  if stockFault s a j then answer 0 none_ (orphanBoth a s)
  else if slotFull s a j then
    let (s, it) := exportItem p.src (slotClear s a j) (slotItem s a j)
    answer 1 it s
  else answer 0 none_ s

/-- A request about an anchor of this device; those from 50 on name the stream by its generation. -/
def serveAnchor (fn : Nat) (p : Packet) (s : State) : Except Nat State :=
  let h := w64 (payNum p 1 0)
  let v := payNum p 1 1
  let a := anchorOf h
  if !ancHere s a then .error 0x31
  else if fn = 49 then
    let (s, it) := landItem none s (itemOf (p.payload.drop 17))
    .ok (ack (if ancUsed s a then spillItem a v it s else discardItem a.core it s) p)
  else if ancBad s a then .error 0xB0
  else if !ancUsed s a || (50 ≤ fn && ancGen s a ≠ hGen h) then .error 0x31
  else
    match fn with
    | 48 => .ok (serveFetch a v p s)
    | 50 => .ok (ack (anchorDetach s a (hKind h = 2) v (payNum p 1 2)) p)
    | 51 =>
      let (l, s) := anchorAdopt s a (hKind h = 2) p.src p.core (if v = 0 then none else some (v - 1))
      .ok (reply s p 4 (landBytes l))
    | 52 => .ok (reply s p 4 (leBytes 8 (if hKind h = 3 then stockCount s a else 0)))
    | _ => .ok (ack (anchorClose s a (hKind h = 2) (some v) (payNum p 1 2) 1) p)

/-- The part of an image a packet brings. -/
def shipPart (p : Packet) (s : State) : State :=
  let old := ((s.ships.find? (fun x => x.1 = p.src && x.2.1 = payNum p 1 0 && x.2.2.1 = w64 (payNum p 1 1))).map (·.2.2.2)).getD []
  { s with ships := (p.src, payNum p 1 0, w64 (payNum p 1 1), msets 0 old (payNum p 1 2) (p.payload.drop 25)) ::
      s.ships.filter (fun x => !(x.1 = p.src && x.2.1 = payNum p 1 0 && x.2.2.1 = w64 (payNum p 1 1))) }

/-- A placement request of another device: its image is whole. -/
def shipDone (p : Packet) (s : State) : State :=
  let ctx := payNum p 1 0
  let va := w64 (payNum p 1 1)
  let z := payNum p 1 2
  match s.ships.find? (fun x => x.1 = p.src && x.2.1 = ctx && x.2.2.1 = va) with
  | none => s
  | some (_, _, _, m) =>
    askDealer (placeOf p.src ctx (payNum p 1 3 % 128) va m (z % 128) (z / 128 % 2 = 1) (z / 256 % 2 = 1))
      { s with ships := s.ships.filter (fun x => !(x.1 = p.src && x.2.1 = ctx && x.2.2.1 = va)) }

/-- A launch's cell that was out has ended, or is known to be placed. -/
def cellGone (id : Nat) (s : State) : State := modLaunch id (fun l => { l with outCells := l.outCells - 1 }) s

/-- Another device has taken a cell of a launch of this one: it is told if the launch is being cancelled (R75). -/
def placedAway (id dev : Nat) (s : State) : State :=
  let s := modLaunch id (fun l => { l with away := addSet dev l.away }) s
  if cancelling s (w64 (id + s.dev % 256 * 2 ^ 24)) then sendPkt s 0 (dealerPkt dev 57 [id]) (.other 32) else s

/-- A full/empty operation that is parked here for another device's CTL is withdrawn (R248, R307): it is refused with the
cause that stands for that (log 12). -/
def withdrawnCause : Nat := 0xFE
def servePark (p : Packet) (s : State) : State :=
  match s.parks.find? (fun k => k.remote.any (fun q => q.src = p.src && q.seq = payNum p 1 0)) with
  | none => ack s p
  | some k =>
    let s := { s with parks := s.parks.erase k }
    ack (match k.remote with | some q => refuse s q withdrawnCause | none => s) p

def serveDealer (fn : Nat) (p : Packet) (s : State) : State :=
  let id := payNum p 1 0
  let ctx := payNum p 1 1
  let m := payNum p 1 2 = 1
  match fn with
  | 54 => ack (faultLaunch id (cellGone id s)) p
  | 55 => ack (resolved id (payNum p 1 1) (payNum p 1 2) s) p
  | 56 => ack (faultLaunch id s) p
  | 57 => ack (cancelAway p.src id s) p
  | 58 => ack (placedAway id p.src s) p
  | 60 => ack (creditHere id (payNum p 1 1) (payNum p 1 2 = 1) (cellGone id s)) p
  | 61 => ack (shipDone p s) p
  | 62 => ack (shipPart p s) p
  | 63 => ack (unclaim id (w64 (payNum p 1 1)) s) p
  | 96 => reply s p 4 (leBytes 8 (lstatHere s id ctx m).toNat)
  | 97 => let r := lcancelHere id ctx m s; reply r.2 p 4 (leBytes 8 r.1.toNat)
  | _ => let r := preemptHere id ctx m s; reply r.2 p 4 (leBytes 8 r.1.toNat)

/-- A window read-modify-write, or a request of another device's strand or engine about what is homed here. -/
def execPktRmw (k : Nat) (s : State) : Res :=
  onPkt s k (fun p => p.op = 2) (fun p s =>
    let fn := payByte p 0
    let n := payByte p 1
    let x := payNum p 2 0
    match atomOf fn, feOf fn, redOf fn with
    | some op, _, _ =>
      if n = 4 || n = 8 then serve p s (serveRmw p n (fun old => some (rmwValue op n old (x % 2 ^ (8 * n)))) s) else some (refuse s p 0x91)
    | _, some f, _ => serve p s (serveFe f p s)
    | _, _, some (t, op) =>
      serve p s (serveRmw p (ebits t / 8) (fun old => some (redCombine t op old (BitVec.ofNat 32 x))) s)
    | _, _, _ =>
      if 32 ≤ fn && fn ≤ 42 then serve p s (serveTile fn p s)
      else if 48 ≤ fn && fn ≤ 53 then serve p s (serveAnchor fn p s)
      else if fn = 59 then some (servePark p s)
      else if 54 ≤ fn && fn ≤ 63 || 96 ≤ fn && fn ≤ 98 then some (serveDealer fn p s)
      else some (refuse s p 0x91))

/-- A window compare-and-swap. -/
def execPktCas (k : Nat) (s : State) : Res :=
  onPkt s k (fun p => p.op = 3) (fun p s =>
    let n := payByte p 0
    if n = 4 || n = 8 then
      serve p s (serveRmw p n (fun old => if old = payNum p 1 0 then some (payNum p 1 1) else none) s)
    else some (refuse s p 0x91))

/-! ### Responses (R247, R294, R296) -/

/-- A posted part is done: OUT falls; a refused one marks the writer's EA, or, where its cell has ended, is settled without a
trap (R115, R294, R311). -/
def partDone (core : Nat) (w : Nat) (va : W64) (cell ctx : Nat) (launch : W64) (cause : Nat) (s : State) : State :=
  let s := outDown core w s
  if cause = 0 then s
  else if (s.core core).cell = cell && (s.core core).live then mark core .ea 0 cause va 0 s
  else event (faultRef s launch) ctx 0x83 core (fld launch 0 24).toNat va (w64 cause)

/-- The answer of part `n` for a strand's instruction. -/
def strandAnswer (core : Nat) (st : Strand) (a : Answer) (s : State) : State :=
  s.modCore core (fun k => k.modStrand st (fun x => if x.asked = 0 then x else { x with got := x.got ++ [a] }))

/-- The answer of a part for an operation. -/
def engineAnswer (core x n : Nat) (a : Answer) (s : State) : State :=
  match opAt s core (ctxOfIdx x) n with
  | some o => setOp core (ctxOfIdx x) { o with got := o.got ++ [a] } s
  | none => s

/-- What a strand's read-modify-write brings (R296): OUT falls; the cell that asked has its answer, or, where the operation
was withdrawn, asks afresh when it issues again (R307). -/
def rmwDone (core : Nat) (st : Strand) (w cell : Nat) (bytes : List Byte) (cause : Nat) (s : State) : State :=
  let s := outDown core w s
  if (s.core core).cell ≠ cell then s
  else if cause = withdrawnCause then s.modCore core (fun k => k.modStrand st (fun x => { x with asked := 0, got := [] }))
  else strandAnswer core st ⟨0, bytes, cause⟩ s

/-- An item fetched from another device's stock (R263, R264) joins its read end's items, with the check for STOP (R265); where
the end no longer waits for it, it goes back to its slot. -/
def fetchDone (core : Nat) (a : Anchor) (n : Nat) (bytes : List Byte) (s : State) : State :=
  let (s, it) := landItem none s (itemOf (bytes.drop 1))
  match (s.core core).rend a with
  | some e =>
    if e.fetching && e.qtop = n then
      let e := { e with q := e.q ++ [it], qtop := n + 1, fetching := false }
      stopAt (s.modCore core (fun k => k.setRend e)) core e (leNat (bytes.drop 67))
    else s
  | none =>
    let (s, it) := exportItem a.dev s it
    sendPkt s core (anchorPkt 49 (mkHandle 3 a.dev a.core a.idx 0 0 7) (leBytes 8 n ++ itemBytes it)) (.other 32)

/-- The answer to a read end's request for an item; the strand whose pop asked learns whether it came. -/
def fetched (core : Nat) (a : Anchor) (n : Nat) (who : Option (Strand × Nat)) (bytes : List Byte) (cause : Nat) (s : State) :
    State :=
  let full := cause = 0 && bytes.headD 0 = 1
  let s := if full then fetchDone core a n bytes s
    else s.modCore core (fun k => match k.rend a with | some e => k.setRend { e with fetching := false } | none => k)
  match who with
  | some (st, k) => strandAnswer core st ⟨k, [if full then 1 else 0], 0⟩ s
  | none => s

/-- What an answered request does, with the bytes it brings or the cause of its refusal. -/
def answered (o : OutPkt) (bytes : List Byte) (cause : Nat) (s : State) : State :=
  match o.why with
  | .answer core st n => strandAnswer core st ⟨n, heldOver s o.pkt bytes, cause⟩ s
  | .rmw core st w cell => rmwDone core st w cell bytes cause s
  | .withdraw _ => s
  | .weight _ _ => s
  | .posted core _ w va cell ctx launch => partDone core w va cell ctx launch cause s
  | .engine core x n part => engineAnswer core x n ⟨part, heldOver s o.pkt bytes, cause⟩ s
  | .ask core x n w => engineAnswer core x n ⟨0, bytes, cause⟩ (outDown core w s)
  | .enginePost core _ _ w va cell ctx launch => partDone core w va cell ctx launch cause s
  | .fetch core a n who => fetched core a n who bytes cause s
  | .item core sq => if sq = 0 then s else complete core .sq sq s
  | .relay dev seq => pushDone s 0 seq dev
  | .place dev ctx image part =>
    { s with places := s.places.map (fun (p : Place) =>
        if p.dev = dev && p.ctx = ctx && p.image = image then { p with got := p.got ++ [⟨part, bytes, cause⟩] } else p) }
  | .detach _ => s
  | .prest ctx image _ => if cause = 0 then s else unclaim ctx image s
  | .other by_ =>
    let port := by_ % 64
    if port = 30 || port = 31 then
      { s with resp := s.resp ++ [(port, w64 (by_ / 64 * 65536 + o.pkt.cls * 256 + (if cause = 0 then 5 else 6)) ::
          w64 cause :: dwOf ((bytes.length + 7) / 8) bytes)] }
    else s

/-- A response settles the request it answers, and is acknowledged; the acknowledgement of a response settles that
(R303). -/
def settleOut (p : Packet) (cause : Nat) (bytes : List Byte) (s : State) : State :=
  let s := if p.last || p.own then s else reply s p 5 []
  match s.net.outs.find? (fun o => o.pkt.dst = p.src && answerKey o.pkt.cls o.pkt.seq = p.off) with
  | none => s
  | some o => answered o bytes cause { s with net := { s.net with outs := s.net.outs.erase o } }

def execPktReadData (k : Nat) (s : State) : Res :=
  onPkt s k (fun p => p.op = 4) (fun p s => some (settleOut p 0 p.payload s))
def execPktAcknowledge (k : Nat) (s : State) : Res :=
  onPkt s k (fun p => p.op = 5) (fun p s => some (settleOut p 0 [] s))
def execPktRefuse (k : Nat) (s : State) : Res :=
  onPkt s k (fun p => p.op = 6) (fun p s => some (settleOut p (max 1 (payByte p 0)) [] s))

/-! ### Tokens and collectives (R231, R299) -/

/-- An ownership-token request or return at the target: 0 granted or held already, 1 held elsewhere, 2 table full. -/
def serveToken (p : Packet) (s : State) : Except Nat State := do
  let region := p.off / 2 ^ 21
  let mine (t : Lent) : Bool := t.wid = p.wid && t.region = region
  if payByte p 0 = 1 then
    pure (reply { s with lentTok := s.lentTok.filter (fun t => !(mine t && t.holder = p.src)) } p 4 [0])
  else
    match s.lentTok.find? mine with
    | some t => pure (reply s p 4 [if t.holder = p.src then 0 else 1])
    | none =>
      let (i, s) ← checkExport s p true false
      if 1024 ≤ s.lentTok.length then pure (reply s p 4 [2])
      else
        let va := match i with
          | .va _ va => va - p.off + region * 2 ^ 21
          | .tile _ core off => 0xF000000000000 + core * 2 ^ 23 + off / 2 ^ 21 * 2 ^ 21
        pure (reply { s with lentTok := s.lentTok ++ [⟨p.wid, region, p.src, va, 2 ^ 21⟩] } p 4 [0])

def execPktToken (k : Nat) (s : State) : Res := onPkt s k (fun p => p.op = 9) (fun p s => serve p s (serveToken p s))

/-- A member's data, or its report of a mismatch, reaches this device (R231). -/
def execPktCollectiveData (k : Nat) (s : State) : Res :=
  onPkt s k (fun p => p.op = 11) (fun p s =>
    let id := leNat (p.payload.take 2)
    let part : CollPart :=
      { dev := p.src, op := payByte p 2 % 128, t := elemOf (payByte p 3 % 16), n := leNat ((p.payload.drop 4).take 4),
        rows := BitVec.ofNat 16 (leNat ((p.payload.drop 8).take 2)), cols := BitVec.ofNat 16 (leNat ((p.payload.drop 10).take 2)),
        data := p.payload.drop 12 }
    some (ack (if 128 ≤ payByte p 2 then failTold id (payNum p 12 0) s else addPart 0 id part s) p))

/-- A packet with a reserved OP, or a management packet off a host port, is discarded in its sequence and counted (R302,
R335). -/
def execPktBad (k : Nat) (s : State) : Res :=
  let bad (p : Packet) (s : State) : State :=
    mgmtRec { s with net := { s.net with bad := s.net.bad + 1 } } 0x94 p.core (w64 p.src) 0
  match s.net.inbox[k]? with
  | none => .next s
  | some p =>
    if p.raw && 12 ≤ p.op then .next (bad p { s with net := { s.net with inbox := s.net.inbox.eraseIdx k } })
    else onPkt s k (fun p => 12 ≤ p.op || p.op = 10) (fun p s => some (bad p s))

/-! ### Arrival (R303) -/

/-- Stream packets in sequence become messages; one of a host is answered at once, one of a device as its item is
placed. -/
def streamIn (fuel : Nat) (s : State) : State :=
  match fuel with
  | 0 => s
  | n + 1 =>
    match firstFrom (fun k => match takePkt s k (fun p => p.op = 7 || p.op = 8) with | .stay => false | _ => true) 0
        s.net.inbox.length with
    | none => s
    | some k =>
      match takePkt s k (fun p => p.op = 7 || p.op = 8) with
      | .stay => s
      | .drop s => streamIn n s
      | .go p s =>
        let s := match msgOf p.src p.seq p.payload with
          | none => ack s p
          | some m => if p.op = 7 && !p.own then s.post m else ack (s.post m) p
        streamIn n s

/-- A packet on its way to another device goes on by a minimal port (R303); one that has none is lost, and its source sends
it again. -/
def forwardPkt (p : Packet) (s : State) : State :=
  match routeOf s p.dst true none with
  | none => s
  | some (q, _) => { s with net := { s.net with wire := s.net.wire ++ [(q, p)] } }

/-- A packet comes in by a port that is up, so no replay of it has failed in a row (R300); one for another device passes
through. -/
def arrivePkt (p : Packet) (s : State) : State :=
  if !s.net.up.contains p.port || 32 ≤ p.port then s
  else
    let s := { s with net := { s.net with replays := del p.port s.net.replays } }
    if p.dst ≠ s.dev % 256 && !p.raw then forwardPkt p s
    else
      let s := { s with net := { s.net with inbox := s.net.inbox ++ [p] } }
      streamIn s.net.inbox.length s

/-! ### Retransmission, lost devices, links (R300, R301, R303) -/

/-- A packet sent again by another route, with its number (R303). -/
def resend (k : Nat) (s : State) : State :=
  match s.net.outs[k]? with
  | none => s
  | some o =>
    let (port, s) := putOut s o.pkt o.port
    { s with net := { s.net with outs := s.net.outs.set k { o with sent := s.cycle, port } } }

/-- A packet not acknowledged for 16,384 cycles is sent again. -/
def execRetransmit (k : Nat) (s : State) : Res :=
  match s.net.outs[k]? with
  | none => .next s
  | some o => .next (if o.sent + 16384 ≤ s.cycle then resend k s else s)

/-- What a lost device's silence tells each waiting request: DEV_LOST, or HOME_LOST for a tile's home (R303). -/
def lostCause (o : OutPkt) : Nat :=
  if o.pkt.op = 2 && 32 ≤ payByte o.pkt 0 && payByte o.pkt 0 ≤ 42 then 0x3B else 0x93

/-- A request to a lost device is over: a PREST's is withdrawn (R328). -/
def giveUpOn (o : OutPkt) (s : State) : State :=
  match o.why with
  | .prest ctx image core => event (unclaim ctx image s) ctx 0x93 core 0 image 0
  | _ => answered o [] (lostCause o) s

/-- The ends whose other end, or whose anchor, lay on a lost device, or was on its way there in an item (R279). -/
def orphanAll (dev : Nat) (s : State) : State :=
  let s := { s with cores := s.cores.map (fun (q : Nat × Core) => (q.1, { q.2 with
    wends := q.2.wends.map (fun e => if e.anc.dev = dev && e.orphan = 0 then { e with orphan := 3 } else e),
    rends := q.2.rends.map (fun e => if e.anc.dev = dev && e.orphan = 0 then { e with orphan := 3 } else e) })) }
  (List.range 128).foldl (fun s c => (List.range 1024).foldl (fun s i =>
    let a : Anchor := ⟨s.dev % 256, c, i⟩
    if !ancUsed s a then s
    else
      let s := if ancWst s a ≤ 1 && s.ancField a 2 0 8 = dev then anchorClose s a true none 0 3 else s
      if ancUsed s a && ancRst s a ≤ 1 && s.ancField a 3 0 8 = dev then anchorClose s a false none 0 3 else s) s) s

/-- Tokens that a lost device held come back, their unwritten lines lost (R299). -/
def tokensBack (dev : Nat) (s : State) : State :=
  let gone := s.lentTok.filter (fun t => t.holder = dev)
  let s := { s with lentTok := s.lentTok.filter (fun t => t.holder ≠ dev), heldTok := s.heldTok.filter (fun t => t.dev ≠ dev) }
  gone.foldl (fun s t => event s (t.wid / 16) 0x96 0 0 (w64 t.va) 0) s

/-- Strands that wait in a release for a posted write that is lost learn it (R247). -/
def releasesLost (lost : List OutPkt) (s : State) : State :=
  { s with cores := s.cores.map (fun (q : Nat × Core) => (q.1, [Strand.ctl, .fet, .exe, .emi].foldl (fun (k : Core) st =>
      k.modStrand st (fun x => if x.rel = 1 && lost.any (owed q.1 st x) then { x with rel := 2 } else x)) q.2)) }

/-- Whether a device is found lost now (R303): nothing has reached it for 2^20 cycles; or it is lost, and something has been
sent to it since. -/
def lossDue (s : State) (dev : Nat) : Bool :=
  dev ≠ s.dev % 256 && s.net.outs.any (fun o => o.pkt.dst = dev && (o.first + 2 ^ 20 ≤ s.cycle || s.net.lost.contains dev))

/-- A device that nothing has reached for 2^20 cycles is lost (R303). -/
def execDeviceLost (dev : Nat) (s : State) : Res :=
  if !lossDue s dev then .next s
  else
    let mine := s.net.outs.filter (fun o => o.pkt.dst = dev)
    let s := { s with net := { s.net with lost := addSet dev s.net.lost, outs := s.net.outs.filter (fun o => o.pkt.dst ≠ dev) },
                      parks := s.parks.filter (fun p => !(p.remote.any (fun q => q.src = dev))) }
    let s := mine.foldl (fun s o => giveUpOn o s) (releasesLost mine s)
    let s := { s with colls := s.colls.map (fun (c : Coll) =>
      if c.failed.isNone && c.parts.any (fun p => p.dev = s.dev % 256 && p.members.contains dev) then { c with failed := some 0x93 } else c) }
    .next (tokensBack dev (orphanAll dev s))

/-- The neighbour a peer port reaches (R300). -/
def neighbour (dev port : Nat) : Nat :=
  let r := dev / 16
  let c := dev % 16
  if port < 15 then 16 * r + (c + 1 + port) % 16 else 16 * ((r + 1 + port - 15) % 16) + c

/-- The launch streams that the host of a port opened lose their write ends with it (R279, R283; log 64). -/
def hostGone (port : Nat) (s : State) : State :=
  s.ctxs.foldl (fun s q =>
    match q.2.ls with
    | some a => if q.2.lsPort = port && ((s.core 0).wend a).isSome then closeEndAt 0 (endHandle s a 2) 3 s else s
    | none => s) s

/-- A port is down (R300): the event, and what it carried is sent again by another route; a host that hung on it is gone. -/
def portDown (port id : Nat) (s : State) : State :=
  let s := { s with net := { s.net with up := s.net.up.filter (· ≠ port), replays := del port s.net.replays } }
  let s := mgmtRec s 0x95 0 0 (w64 (port + id * 256))
  let s := (List.range s.net.outs.length).foldl (fun s k =>
    if (s.net.outs[k]?).any (fun o => o.port = some port) then resend k s else s) s
  if port < 30 then s else hostGone port s

/-- A flit that fails its CRC is replayed; the sixteenth in a row takes the link down (R300). -/
def execLinkReplay (port : Nat) (s : State) : Res :=
  if !s.net.up.contains port then .next s
  else
    let n := (look port s.net.replays).getD 0 + 1
    if 16 ≤ n then
      let id := (look port s.net.ids).getD 0
      .next (portDown port id { s with net := { s.net with ids := del port s.net.ids } })
    else .next { s with net := { s.net with replays := put port n s.net.replays } }

/-- A link comes up: the ids are exchanged (R301). Ports whose far ends report one id are all held down, and so is one that
reports another device than the port map gives; a host port takes any host. -/
def execLinkUp (port id : Nat) (s : State) : Res :=
  if 32 ≤ port then .next s
  else
    let s := { s with net := { s.net with ids := put port id s.net.ids, replays := del port s.net.replays } }
    let up := { s with net := { s.net with up := addSet port s.net.up } }
    let twins : List Nat := (s.net.ids.filter (fun (q : Nat × Nat) => q.1 < 30 && q.2 == id)).map (·.1)
    if 30 ≤ port then .next up
    else if 1 < twins.length then .next (twins.foldl (fun s q => portDown q id s) s)
    else if id % 256 ≠ neighbour (s.dev % 256) port then .next (portDown port id s)
    else .next up

end Sys2Proof.Machine
end

