-- ==== Sys2Proof/Machine/HostIf.lean ====
section
/-! DEFINITION. The host's side (R334 to R341): host packets, management commands, configuration space, launch
streams, boot, attestation and reset. -/

namespace Sys2Proof.Machine

/-! ### Boot (R340) -/

/-- The image's bytes from an offset. -/
def fwBytes (s : State) (off n : Nat) : List Byte := s.bytes off n
def fwLen (s : State) : Nat := (s.rd64 0x10).toNat
def fwEntry (s : State) : W64 := s.rd64 0x18
/-- The digest of header, key and body. -/
def fwSum (s : State) : List Byte := Config.sm3 (fwBytes s 0 (0x80 + fwLen s))

/-- Step 2: magic, format, LEN, and ENTRY inside the body. -/
def headerOk (s : State) : Bool :=
  let n := fwLen s
  let e := (fwEntry s).toNat
  s.rd64 0 == 0x0000000139534457 && n % 64 = 0 && n ≤ 2 ^ 28 - 0xC0 && 0x80 ≤ e && e < 0x80 + n && e % 4 = 0

/-- The number of the first failed boot step, 0 where none fails. -/
def bootCheck (s : State) : Nat :=
  if !headerOk s then 2
  else if Config.sm3 (fwBytes s 0x40 64) ≠ Config.fusedKey then 3
  else if !Config.sm2Verify (fwBytes s 0x40 64) (fwSum s) (fwBytes s (0x80 + fwLen s) 64) then 5
  else if (s.rd64 8).toNat < s.rollback.toNat then 6
  else 0

/-- Step 7: MONVEC of every core, the monitor in M mode on core 0 of die 0, boot state 2. -/
def bootRun (s : State) : State :=
  let e := fwEntry s
  let s := (List.range 128).foldl (fun s c => s.modCore c (fun k => { k with monvec := e })) s
  let s := s.modCore 0 (fun k => rebase { freshCell k with mode := .m, ctl := { StrandSt.init with pc := e } })
  { s with boot := 2, fwVersion := s.rd64 8, fwDigest := fwSum s }

/-- The boot ROM runs steps 2 to 7 in boot state 1. -/
def bootSteps (s : State) : State :=
  match bootCheck s with
  | 0 => bootRun s
  | n => { s with boot := 3, bootFail := n }

/-! ### Configuration space (R336, R337) -/

/-- A management command's outcome: STATUS, the response's further dwords, the state. -/
abbrev Done := Nat × List W64 × State

/-- The configuration dword of a context: EN, PTBASE, DMEMB1 to DMEMB4. -/
def ctxWord (x : Ctx) (i : Nat) : W64 :=
  if i = 0 then (if x.en then 1 else 0)
  else if i = 1 then x.entryPtbase
  else if i < 6 then vget 0 x.dmembDef (i - 2)
  else 0

/-- The budget an entry of the table will have or has (R79). -/
def budgetOf (s : State) (i : Nat) : W64 := (look i s.budgetNext).getD (mget (BitVec.allOnes 64) s.budget i)

/-- A configuration dword as it reads. -/
def cfgWord (s : State) (addr : Nat) : W64 :=
  if addr % 8 ≠ 0 then 0
  else if addr = 0 then w64 (s.dev % 256 + s.boot * 256)
  else if addr = 8 then s.fwVersion
  else if addr = 0x10 then w64 s.bootFail
  else if 0x1000 ≤ addr && addr < 0x2000 then budgetOf s ((addr - 0x1000) / 8)
  else if 0x10000 ≤ addr && addr < 0x18000 then ctxWord (s.ctx ((addr - 0x10000) / 64)) (addr % 64 / 8)
  else if 0x20000 ≤ addr && addr < 0x22000 then
    s.rd64 (saveArea ((addr - 0x20000) / 64) + addr % 64)
  else if 0x30000 ≤ addr && addr < 0x30400 then (s.core ((addr - 0x30000) / 8)).rascnt
  else 0

/-- The write end of a context's launch stream closes, where it is open (R339). -/
def closeLaunchStream (ctx : Nat) (s : State) : Option State :=
  match (s.ctx ctx).ls with
  | none => none
  | some a => if ((s.core 0).wend a).isNone then none else some (closeEndAt 0 (endHandle s a 2) 1 s)

/-- EN set: from 0 to 1 the incarnation number rises (R337, R61). -/
def enableCtx (ctx : Nat) (s : State) : State :=
  s.modCtx ctx (fun x => if x.en then x else { x with en := true, inst := (x.inst + 1) % 2 ^ 32 })

/-- EN cleared: every launch of the context is cancelled and its launch stream closed (R337). -/
def disableCtx (ctx : Nat) (s : State) : State :=
  if !(s.ctx ctx).en then s
  else
    let s := s.modCtx ctx (fun x => { x with en := false })
    let s := (s.launches.filter (fun l => l.ctx = ctx)).foldl (fun s l => cancelLaunch l.id s) s
    (closeLaunchStream ctx s).getD s

/-- PTBASE of a context's entry: loaded into PTBASE, which acts as TLBI of kind 3 (R337, R286). -/
def loadPtbase (ctx : Nat) (v : W64) (s : State) : State :=
  tlbiAll (s.modCtx ctx (fun x => { x with entryPtbase := v, ptbase := v &&& 0x000FFFFFFFFF0000 })) ctx

def writeCtxWord (ctx i : Nat) (v : W64) (s : State) : State :=
  if i = 0 then (if v.getLsbD 0 then enableCtx ctx s else disableCtx ctx s)
  else if i = 1 then loadPtbase ctx v s
  else if i < 6 then s.modCtx ctx (fun x => { x with dmembDef := vset x.dmembDef (i - 2) v })
  else s

/-- A dword of the image staged at its physical address (R336). -/
def stage (i : Nat) (v : W64) (s : State) : State := s.wr64 (8 * i) v

/-- The firmware staging range. -/
def inStaging (addr : Nat) : Bool := 0x10000000 ≤ addr && addr < 0x10000000 + 8 * 2 ^ 25

/-- A configuration dword written; a reserved or read-only one ignores it. -/
def cfgStore (s : State) (addr : Nat) (v : W64) : State :=
  if addr % 8 ≠ 0 then s
  else if addr = 0x10 then (if s.boot = 0 && v = 1 then { s with boot := 1 } else s)
  else if inStaging addr then (if s.boot = 0 then stage ((addr - 0x10000000) / 8) v s else s)
  else if 0x1000 ≤ addr && addr < 0x2000 then { s with budgetNext := put ((addr - 0x1000) / 8) v s.budgetNext }
  else if 0x10000 ≤ addr && addr < 0x18000 then writeCtxWord ((addr - 0x10000) / 64) (addr % 64 / 8) v s
  else s

/-! ### The other commands (R335, R339, R340, R341) -/

/-- A launch stream opened on core 0 for the host of a port, its read end the Dealer's (R339). -/
def openLaunchStream (port ctx : Nat) (x : W64) (s : State) : Done :=
  let k := x.toNat % 32
  let base := x.toNat / 4096 % 2 ^ 40 * 4096
  if 512 ≤ ctx || k < 6 || 20 < k || fld x 5 7 != 0 || fld x 52 12 != 0 || base % (2 ^ k * 64) ≠ 0 then (1, [], s)
  else if (s.ctx ctx).ls.isSome then (2, [], s)
  else
    match freeAnchor s 0 with
    | none => (1, [], s)
    | some a =>
      let got := if base = 0 then takeStock s ctx k else
        (ctxPages s ctx base (stockFrames k)).map (fun s =>
          (base, { s with stocks := s.stocks ++ [(⟨ctx, base, stockFrames k * 4096, a⟩ : StockRange)] }))
      match got with
      | .error _ => (1, [], s)
      | .ok (b, s) =>
        let hq := freeQueue (s.core 0)
        let s := placeEnds (writeAnchor s a ctx k b (base = 0) (s.dev % 256) 0 0 hq) a k 0 0 hq
        (0, [endHandle s a 2], s.modCtx ctx (fun c => { c with ls := some a, lsPort := port }))

/-- The first 192 bytes of the attestation report (R341). -/
def reportBody (s : State) (nonce : List W64) : List Byte :=
  let d (w : W64) : List Byte := leBytes 8 w.toNat
  let up := s.boot = 2
  d (w64 (s.dev % 256)) ++ d (if up then s.fwVersion else 0) ++ (if up then s.fwDigest else List.replicate 32 0) ++
    ((List.range 4).map (fun i => d (nonce.getD i 0))).flatten ++ d s.rollback ++
    d (w64 ((s.cores.map (fun (p : Nat × Core) => p.2.withdrawn.length)).foldl (· + ·) 0)) ++
    (Config.identityKey ++ List.replicate 64 0).take 64 ++ List.replicate 32 0
def attestReport (s : State) (nonce : List W64) : List W64 :=
  let b := reportBody s nonce
  dwOf 32 (b ++ (Config.sm2Sign (Config.sm3 b) ++ List.replicate 64 0).take 64)

/-- A stopped or withdrawn core comes back: its cell, if it still holds one, is killed, and it stays withdrawn for
dispatch only where a bank's lasting fault says so (R312, R318, R331). -/
def resetCore (c : Nat) (s : State) : Done :=
  if 128 ≤ c || !(s.core c).stopped then (1, [], s)
  else
    let s := if (s.core c).live then killReport c (killCell c s) else s
    (0, [], s.modCore c (fun k => { k with stopped := false, raised := none, out := k.withdrawn.any coreBank }))

/-! ### Commands (R335) -/

/-- Whether a command is performed before boot completes. -/
def early (s : State) (cmd addr : Nat) : Bool :=
  match cmd with
  | 0 => addr < 0x1000
  | 1 => s.boot = 0 && (addr = 0x10 || inStaging addr)
  | 5 => true
  | _ => false

/-- A command from a port performed whole. -/
def command (s : State) (port cmd : Nat) (args : List W64) : Done :=
  let a (i : Nat) : W64 := args.getD i 0
  let n := (a 0).toNat
  if s.boot ≠ 2 && !early s cmd n then (3, [], s)
  else
    match cmd with
    | 0 => (0, [cfgWord s n], s)
    | 1 => (0, [], cfgStore s n (a 1))
    | 2 => openLaunchStream port n (a 1) s
    | 3 => match (if n < 512 then closeLaunchStream n s else none) with | none => (1, [], s) | some s => (0, [], s)
    | 4 => if n < 128 then (0, [], s.modCore n (fun k => { k with latch := true })) else (1, [], s)
    | 5 => (0, attestReport s args, s)
    | 6 => resetCore n s
    | 7 => if s.fwVersion.toNat < s.rollback.toNat then (1, [], s) else (0, [], { s with rollback := s.fwVersion })
    | _ => (1, [], s)

/-- A command from a host port and its response: the tag, STATUS and what it brings. -/
def manage (port tag cmd : Nat) (args : List W64) (s : State) : State :=
  let r := command s port cmd args
  { r.2.2 with resp := r.2.2.resp ++ [(port, w64 (tag % 2 ^ 48 * 65536 + r.1 * 256) :: r.2.1)] }

def execCfgRead (addr : W64) (s : State) : Res := .next (manage 30 0 0 [addr] s)
def execCfgWrite (addr v : W64) (s : State) : Res := .next (manage 30 0 1 [addr, v] s)
/-- BOOTCTL written; in boot state 1 the boot ROM's verification, which the write began, ends (R340). -/
def execBootctl (v : W64) (s : State) : Res :=
  .next (if s.boot = 1 then bootSteps s else manage 30 0 1 [0x10, v] s)
def execFirmwareStaging (i : Nat) (v : W64) (s : State) : Res :=
  .next (if i < 2 ^ 25 then manage 30 0 1 [w64 (0x10000000 + 8 * i), v] s else s)
def execBudgetTableWrite (i : Nat) (v : W64) (s : State) : Res :=
  .next (if i < 512 then manage 30 0 1 [w64 (0x1000 + 8 * i), v] s else s)
def execContextEnable (ctx : Nat) (s : State) : Res :=
  .next (if ctx < 512 then manage 30 0 1 [w64 (0x10000 + 64 * ctx), 1] s else s)
def execContextDisable (ctx : Nat) (s : State) : Res :=
  .next (if ctx < 512 then manage 30 0 1 [w64 (0x10000 + 64 * ctx), 0] s else s)
def execLsOpen (ctx : Nat) (stock : W64) (s : State) : Res := .next (manage 30 0 2 [w64 ctx, stock] s)
def execLsClose (ctx : Nat) (s : State) : Res := .next (manage 30 0 3 [w64 ctx] s)
def execWake (core : Nat) (s : State) : Res := .next (manage 30 0 4 [w64 core] s)
def execAttest (n0 n1 n2 n3 : W64) (s : State) : Res := .next (manage 30 0 5 [n0, n1, n2, n3] s)
def execCoreReset (core : Nat) (s : State) : Res := .next (manage 30 0 6 [w64 core] s)
def execRollback (s : State) : Res := .next (manage 30 0 7 [] s)

/-! ### Host packets (R334, R339) -/

/-- An item of a launch stream counts the host's pushes at the write end it holds. -/
def countPush (m : Msg) (s : State) : State :=
  match m with
  | .item a n .. => s.modCore 0 (fun k => match k.wend a with | some e => k.setWend { e with push := max e.push (n + 1) } | none => k)
  | _ => s

/-- A management packet: CMD and tag in dword 0, its arguments behind. -/
def mgmtPkt (p : Packet) (s : State) : State :=
  let d := dwOf ((p.payload.length + 7) / 8) p.payload
  let w := d.getD 0 0
  manage p.port (fld w 16 48).toNat (fld w 0 8).toNat (d.drop 1) s

/-- A host packet is the next of its port: performed if it is a command, taken if it is for this device, else sent on
as a packet of the device's own. -/
def execHostPacket (k : Nat) (s : State) : Res :=
  match s.net.inbox[k]? with
  | none => .next s
  | some p =>
    if !p.raw || 12 ≤ p.op || (s.net.inbox.take k).any (fun q => q.raw && q.port = p.port) then .next s
    else
      let s := { s with net := { s.net with inbox := s.net.inbox.eraseIdx k } }
      if p.op = 10 then .next (mgmtPkt p s)
      else if p.dst ≠ s.dev % 256 then
        .next (pushPkt s { p with port := 32 } (.other (p.port + 64 * p.seq)))
      else
        let own := { p with port := p.port + 32 }
        if p.op = 7 || p.op = 8 then
          match msgOf (s.dev % 256) 0 p.payload with
          | none => .next (reply s own 5 [])
          | some m => .next (reply ((countPush m s).post m) own 5 [])
        else .next { s with net := { s.net with inbox := s.net.inbox.insertIdx k own } }

/-! ### Reset (R301, R340) -/

/-- A reset samples the id straps and begins the boot sequence again; the rollback fuses stay. -/
def execDeviceReset (straps : BitVec 8) (s : State) : Res :=
  .next { State.reset with dev := straps.toNat, rollback := s.rollback, agenda := s.agenda, free := s.free }

end Sys2Proof.Machine
end

