-- ==== Sys2Proof/Machine/Int.lean ====
section
/-! DEFINITION. CTL's integer operations, immediates, constants, compares, predicates, select and address
(R119 to R125). -/

namespace Sys2Proof.Machine

/-- A function of two S registers (R119). -/
def int2 (d a b : BitVec 6) (f : W64 → W64 → W64) (s : State) : Res :=
  runCtl s (always (fun s => s.wS d (f (s.rS a) (s.rS b))))

/-- A function of one S register. -/
def int1 (d a : BitVec 6) (f : W64 → W64) (s : State) : Res := runCtl s (always (fun s => s.wS d (f (s.rS a))))

/-- A division: a divisor of zero traps with INT_DIV0 and S[d] keeps its value (R120). -/
def intDiv (d a b : BitVec 6) (f : W64 → W64 → W64) (s : State) : Res :=
  runCtl s (fun s => do
    trapIf s (s.rS b == 0) 0x10
    pure (s.wS d (f (s.rS a) (s.rS b))))

def execAdd (d a b : BitVec 6) (s : State) : Res := int2 d a b (· + ·) s
def execSub (d a b : BitVec 6) (s : State) : Res := int2 d a b (· - ·) s
def execMul (d a b : BitVec 6) (s : State) : Res := int2 d a b (· * ·) s
def execMulh (d a b : BitVec 6) (s : State) : Res := int2 d a b mulhS s
def execMulhn (d a b : BitVec 6) (s : State) : Res := int2 d a b mulhU s
def execDiv (d a b : BitVec 6) (s : State) : Res := intDiv d a b sdiv64 s
def execDivn (d a b : BitVec 6) (s : State) : Res := intDiv d a b udiv64 s
def execRem (d a b : BitVec 6) (s : State) : Res := intDiv d a b srem64 s
def execRemn (d a b : BitVec 6) (s : State) : Res := intDiv d a b urem64 s
def execAnd (d a b : BitVec 6) (s : State) : Res := int2 d a b (· &&& ·) s
def execOr (d a b : BitVec 6) (s : State) : Res := int2 d a b (· ||| ·) s
def execXor (d a b : BitVec 6) (s : State) : Res := int2 d a b (· ^^^ ·) s
def execAndn (d a b : BitVec 6) (s : State) : Res := int2 d a b (fun x y => x &&& ~~~y) s
def execShl (d a b : BitVec 6) (s : State) : Res := int2 d a b (fun x y => shl64 x (amt y)) s
def execShr (d a b : BitVec 6) (s : State) : Res := int2 d a b (fun x y => shr64 x (amt y)) s
def execSra (d a b : BitVec 6) (s : State) : Res := int2 d a b (fun x y => sra64 x (amt y)) s
def execRot (d a b : BitVec 6) (s : State) : Res := int2 d a b (fun x y => rot64 x (amt y)) s
def execMin (d a b : BitVec 6) (s : State) : Res := int2 d a b minS s
def execMax (d a b : BitVec 6) (s : State) : Res := int2 d a b maxS s
def execMinn (d a b : BitVec 6) (s : State) : Res := int2 d a b minU s
def execMaxn (d a b : BitVec 6) (s : State) : Res := int2 d a b maxU s
def execClz (d a : BitVec 6) (s : State) : Res := int1 d a clz64 s
def execCtz (d a : BitVec 6) (s : State) : Res := int1 d a ctz64 s
def execPopc (d a : BitVec 6) (s : State) : Res := int1 d a popc64 s
def execBswap (d a : BitVec 6) (s : State) : Res := int1 d a bswap64 s

/-! ### Immediates and constants (R121, R122) -/

def execAddi (d a : BitVec 6) (i : BitVec 14) (s : State) : Res := int1 d a (· + sext64 i) s
def execAndi (d a : BitVec 6) (i : BitVec 14) (s : State) : Res := int1 d a (· &&& i.setWidth 64) s
def execOri (d a : BitVec 6) (i : BitVec 14) (s : State) : Res := int1 d a (· ||| i.setWidth 64) s
def execXori (d a : BitVec 6) (i : BitVec 14) (s : State) : Res := int1 d a (· ^^^ i.setWidth 64) s
def execShli (d a n : BitVec 6) (s : State) : Res := int1 d a (fun x => shl64 x n.toNat) s
def execShri (d a n : BitVec 6) (s : State) : Res := int1 d a (fun x => shr64 x n.toNat) s
def execSrai (d a n : BitVec 6) (s : State) : Res := int1 d a (fun x => sra64 x n.toNat) s
def execMuli (d a : BitVec 6) (i : BitVec 14) (s : State) : Res := int1 d a (· * sext64 i) s
def execLi (d : BitVec 6) (i : BitVec 20) (s : State) : Res := runCtl s (always (fun s => s.wS d (sext64 i)))

/-- A dword with its halfword `k` replaced (R122). -/
def likWord (x : W64) (k : BitVec 2) (i : BitVec 16) : W64 :=
  w64 (x.toNat - x.toNat / 2 ^ (16 * k.toNat) % 65536 * 2 ^ (16 * k.toNat) + i.toNat * 2 ^ (16 * k.toNat))

def execLik (d : BitVec 6) (k : BitVec 2) (i : BitVec 16) (s : State) : Res := int1 d d (fun x => likWord x k i) s

/-! ### Compares and predicates (R123, R124) -/

def execCmp (pd : BitVec 3) (cc : Cond) (a b : BitVec 6) (s : State) : Res :=
  runCtl s (always (fun s => s.wP pd (condOn cc (s.rS a) (s.rS b))))
def execCmpi (pd : BitVec 3) (cc : Cond) (a : BitVec 6) (i : BitVec 12) (s : State) : Res :=
  runCtl s (always (fun s => s.wP pd (condOn cc (s.rS a) (cmpImm cc i))))

/-- A function of two predicates (R124). -/
def pred2 (d a b : BitVec 3) (f : Bool → Bool → Bool) (s : State) : Res :=
  runCtl s (always (fun s => s.wP d (f (s.rP a) (s.rP b))))

def execPand (d a b : BitVec 3) (s : State) : Res := pred2 d a b (· && ·) s
def execPor (d a b : BitVec 3) (s : State) : Res := pred2 d a b (· || ·) s
def execPxor (d a b : BitVec 3) (s : State) : Res := pred2 d a b (· != ·) s
def execPandn (d a b : BitVec 3) (s : State) : Res := pred2 d a b (fun x y => x && !y) s
def execPnot (d a : BitVec 3) (s : State) : Res := runCtl s (always (fun s => s.wP d (!s.rP a)))
def execPfrom (d : BitVec 3) (a n : BitVec 6) (s : State) : Res :=
  runCtl s (always (fun s => s.wP d ((s.rS a).getLsbD n.toNat)))
def execPto (d : BitVec 6) (a : BitVec 3) (s : State) : Res :=
  runCtl s (always (fun s => s.wS d (if s.rP a then 1 else 0)))

/-! ### Select and address (R125) -/

def execSel (d a b : BitVec 6) (inv : Bool) (p : BitVec 3) (s : State) : Res :=
  runCtl s (always (fun s => s.wS d (if s.rP p != inv then s.rS a else s.rS b)))
def execLea (d a b : BitVec 6) (disp : BitVec 5) (sh : BitVec 3) (s : State) : Res :=
  runCtl s (always (fun s => s.wS d (s.rS a + shl64 (s.rS b) sh.toNat + sext64 disp)))

end Sys2Proof.Machine
end

