-- ==== Sys2Proof/Machine/Token.lean ====
section
/-! DEFINITION. The token instructions (R32 to R35) and the scalar instructions of the wide strands (R49, R134 to
R136). -/

namespace Sys2Proof.Machine

/-- The peer of CTL's token instructions: 0 FET, 1 EXE, 2 EMI (R32). -/
def peer (e : BitVec 2) : Strand := Strand.ofCode (e.toNat + 1)

/-- TKPUSH and TKPUSHV (R33). -/
def pushTo (e : BitVec 2) (t : Token) (s : State) : Try State := do
  checkTok s (qIdx .ctl (peer e))
  waitFor s ((s.me.queue .ctl (peer e)).length < 16)
  release s .core
  pure (s.modMe (fun k => k.push .ctl (peer e) t))

/-- TKPOP and TKPOPV: the head of the queue from a peer, acquired at core scope (R33). -/
def popFrom1 (e : BitVec 2) (s : State) : Try (Token × State) := do
  checkTok s (qIdx (peer e) .ctl)
  match s.me.queue (peer e) .ctl with
  | [] => block s
  | t :: _ => pure (t, acquire (s.modMe (fun k => k.pop (peer e) .ctl)) .core)

/-- The value of a token: zero for an unvalued one (R29). -/
def Token.got (t : Token) : W64 := if t.valued then t.value else 0

def execTkpush (e : BitVec 2) (s : State) : Res := runCtl s (pushTo e ⟨false, 0⟩)
def execTkpushv (a : BitVec 6) (e : BitVec 2) (s : State) : Res := runCtl s (fun s => pushTo e ⟨true, s.rS a⟩ s)
def execTkpop (e : BitVec 2) (s : State) : Res := runCtl s (fun s => do pure (← popFrom1 e s).2)
def execTkpopv (d : BitVec 6) (e : BitVec 2) (s : State) : Res :=
  runCtl s (fun s => do
    let (t, s) ← popFrom1 e s
    pure (s.wS d t.got))
def execTkcnt (d : BitVec 6) (e : BitVec 2) (s : State) : Res :=
  runCtl s (fun s => do
    checkTok s (qIdx (peer e) .ctl)
    checkTok s (qIdx .ctl (peer e))
    pure (s.wS d (w64 ((s.me.queue (peer e) .ctl).length + 256 * (s.me.queue .ctl (peer e)).length))))

/-- TKV (R35): the received head's value, the sent value in every pushed token. -/
def execTkv (c : Clause) (ad aa : BitVec 5) (send recv : Bool) (s : State) : Res :=
  settle s.cur.core s.cur.st (do
    clauseReady c s
    if c.push != 0 then release s .core
    let s := if c.pop != 0 then acquire s .core else s
    let v := s.rA aa
    let st := s.cur.st
    let head := match st.named c.pop with | [x] => (s.me.queue x st).headD ⟨false, 0⟩ | _ => ⟨false, 0⟩
    let s := if recv then s.wA ad head.got else s
    pure (finishWide 1 false (clauseDone c (if send then ⟨true, v⟩ else ⟨false, 0⟩) s)))

/-! ### NOP and the scalars of the wide strands -/

def execNopWide (c : Clause) (s : State) : Res := runWide c s (always id)

/-- A function of A registers (R134). -/
def wideA (c : Clause) (ad : BitVec 5) (f : State → W64) (s : State) : Res := runWide c s (always (fun s => s.wA ad (f s)))

def execAadd (c : Clause) (ad aa ab : BitVec 5) (s : State) : Res := wideA c ad (fun s => s.rA aa + s.rA ab) s
def execAsub (c : Clause) (ad aa ab : BitVec 5) (s : State) : Res := wideA c ad (fun s => s.rA aa - s.rA ab) s
def execAmul (c : Clause) (ad aa ab : BitVec 5) (s : State) : Res := wideA c ad (fun s => s.rA aa * s.rA ab) s
def execAand (c : Clause) (ad aa ab : BitVec 5) (s : State) : Res := wideA c ad (fun s => s.rA aa &&& s.rA ab) s
def execAaddi (c : Clause) (ad aa : BitVec 5) (i : BitVec 32) (s : State) : Res :=
  wideA c ad (fun s => s.rA aa + sext64 i) s
def execAshl (c : Clause) (ad aa : BitVec 5) (n : AShift) (s : State) : Res :=
  wideA c ad (fun s => shl64 (s.rA aa) (ashAmt s n)) s
def execAshr (c : Clause) (ad aa : BitVec 5) (n : AShift) (arith : Bool) (s : State) : Res :=
  wideA c ad (fun s => if arith then sra64 (s.rA aa) (ashAmt s n) else shr64 (s.rA aa) (ashAmt s n)) s
def execAli (c : Clause) (ad : BitVec 5) (i : BitVec 32) (s : State) : Res := wideA c ad (fun _ => sext64 i) s
def execAlih (c : Clause) (ad : BitVec 5) (i : BitVec 32) (s : State) : Res :=
  wideA c ad (fun s => w64 ((s.rA ad).toNat % 2 ^ 32 + i.toNat * 2 ^ 32)) s

end Sys2Proof.Machine
end

