-- ==== Sys2Proof/Machine/Dispatch.lean ====
section
/-! DEFINITION. The dispatch of every instruction and event to its one meaning. -/

namespace Sys2Proof.Machine

def exec (i : Instr) (s : State) : Host.Outcome State Fault Refusal :=
  match i with
  | .nop => Sys2Proof.Machine.execNop s
  | .halt => Sys2Proof.Machine.execHalt s
  | .yield => Sys2Proof.Machine.execYield s
  | .wfe => Sys2Proof.Machine.execWfe s
  | .trap n => Sys2Proof.Machine.execTrap n s
  | .eret => Sys2Proof.Machine.execEret s
  | .psave d a b => Sys2Proof.Machine.execPsave d a b s
  | .prest d a b => Sys2Proof.Machine.execPrest d a b s
  | .tlbi a b => Sys2Proof.Machine.execTlbi a b s
  | .keyrev d a b => Sys2Proof.Machine.execKeyrev d a b s
  | .icflush => Sys2Proof.Machine.execIcflush s
  | .slipr d => Sys2Proof.Machine.execSlipr d s
  | .preempt d a => Sys2Proof.Machine.execPreempt d a s
  | .csrr d c => Sys2Proof.Machine.execCsrr d c s
  | .csrw a c => Sys2Proof.Machine.execCsrw a c s
  | .add d a b => Sys2Proof.Machine.execAdd d a b s
  | .sub d a b => Sys2Proof.Machine.execSub d a b s
  | .mul d a b => Sys2Proof.Machine.execMul d a b s
  | .mulh d a b => Sys2Proof.Machine.execMulh d a b s
  | .mulhn d a b => Sys2Proof.Machine.execMulhn d a b s
  | .div d a b => Sys2Proof.Machine.execDiv d a b s
  | .divn d a b => Sys2Proof.Machine.execDivn d a b s
  | .rem d a b => Sys2Proof.Machine.execRem d a b s
  | .remn d a b => Sys2Proof.Machine.execRemn d a b s
  | .and d a b => Sys2Proof.Machine.execAnd d a b s
  | .or d a b => Sys2Proof.Machine.execOr d a b s
  | .xor d a b => Sys2Proof.Machine.execXor d a b s
  | .andn d a b => Sys2Proof.Machine.execAndn d a b s
  | .shl d a b => Sys2Proof.Machine.execShl d a b s
  | .shr d a b => Sys2Proof.Machine.execShr d a b s
  | .sra d a b => Sys2Proof.Machine.execSra d a b s
  | .rot d a b => Sys2Proof.Machine.execRot d a b s
  | .min d a b => Sys2Proof.Machine.execMin d a b s
  | .max d a b => Sys2Proof.Machine.execMax d a b s
  | .minn d a b => Sys2Proof.Machine.execMinn d a b s
  | .maxn d a b => Sys2Proof.Machine.execMaxn d a b s
  | .clz d a => Sys2Proof.Machine.execClz d a s
  | .ctz d a => Sys2Proof.Machine.execCtz d a s
  | .popc d a => Sys2Proof.Machine.execPopc d a s
  | .bswap d a => Sys2Proof.Machine.execBswap d a s
  | .addi d a imm => Sys2Proof.Machine.execAddi d a imm s
  | .andi d a imm => Sys2Proof.Machine.execAndi d a imm s
  | .ori d a imm => Sys2Proof.Machine.execOri d a imm s
  | .xori d a imm => Sys2Proof.Machine.execXori d a imm s
  | .shli d a n => Sys2Proof.Machine.execShli d a n s
  | .shri d a n => Sys2Proof.Machine.execShri d a n s
  | .srai d a n => Sys2Proof.Machine.execSrai d a n s
  | .muli d a imm => Sys2Proof.Machine.execMuli d a imm s
  | .li d imm => Sys2Proof.Machine.execLi d imm s
  | .lik d k imm => Sys2Proof.Machine.execLik d k imm s
  | .cmp pd cc a b => Sys2Proof.Machine.execCmp pd cc a b s
  | .cmpi pd cc a imm => Sys2Proof.Machine.execCmpi pd cc a imm s
  | .pand d a b => Sys2Proof.Machine.execPand d a b s
  | .por d a b => Sys2Proof.Machine.execPor d a b s
  | .pxor d a b => Sys2Proof.Machine.execPxor d a b s
  | .pandn d a b => Sys2Proof.Machine.execPandn d a b s
  | .pnot d a => Sys2Proof.Machine.execPnot d a s
  | .pfrom d a n => Sys2Proof.Machine.execPfrom d a n s
  | .pto d a => Sys2Proof.Machine.execPto d a s
  | .sel d a b inv p => Sys2Proof.Machine.execSel d a b inv p s
  | .lea d a b disp sh => Sys2Proof.Machine.execLea d a b disp sh s
  | .br p off => Sys2Proof.Machine.execBr p off s
  | .brn p off => Sys2Proof.Machine.execBrn p off s
  | .call off => Sys2Proof.Machine.execCall off s
  | .jr a => Sys2Proof.Machine.execJr a s
  | .ret => Sys2Proof.Machine.execRet s
  | .callr a => Sys2Proof.Machine.execCallr a s
  | .loop a n => Sys2Proof.Machine.execLoop a n s
  | .lds d a off z => Sys2Proof.Machine.execLds d a off z s
  | .sts x a off z => Sys2Proof.Machine.execSts x a off z s
  | .atom op dword d a b => Sys2Proof.Machine.execAtom op dword d a b s
  | .cas dword d a b => Sys2Proof.Machine.execCas dword d a b s
  | .ldfe d a => Sys2Proof.Machine.execLdfe d a s
  | .ldf d a => Sys2Proof.Machine.execLdf d a s
  | .stfe a b => Sys2Proof.Machine.execStfe a b s
  | .stf a b => Sys2Proof.Machine.execStf a b s
  | .feprobe d a => Sys2Proof.Machine.execFeprobe d a s
  | .fence kind scope => Sys2Proof.Machine.execFence kind scope s
  | .tkpush e => Sys2Proof.Machine.execTkpush e s
  | .tkpushv a e => Sys2Proof.Machine.execTkpushv a e s
  | .tkpop e => Sys2Proof.Machine.execTkpop e s
  | .tkpopv d e => Sys2Proof.Machine.execTkpopv d e s
  | .tkcnt d e => Sys2Proof.Machine.execTkcnt d e s
  | .tlread d x => Sys2Proof.Machine.execTlread d x s
  | .tlwait x a => Sys2Proof.Machine.execTlwait x a s
  | .tlwaitp p x a => Sys2Proof.Machine.execTlwaitp p x a s
  | .dbar l => Sys2Proof.Machine.execDbar l s
  | .dbarNotice core level => Sys2Proof.Machine.execDbarNotice core level s
  | .launch d a => Sys2Proof.Machine.execLaunch d a s
  | .lstat d a => Sys2Proof.Machine.execLstat d a s
  | .lcancel d a => Sys2Proof.Machine.execLcancel d a s
  | .done => Sys2Proof.Machine.execDone s
  | .talloc d a b t => Sys2Proof.Machine.execTalloc d a b t s
  | .dup d a => Sys2Proof.Machine.execDup d a s
  | .drop a => Sys2Proof.Machine.execDrop a s
  | .tcount d a => Sys2Proof.Machine.execTcount d a s
  | .tinfo d a => Sys2Proof.Machine.execTinfo d a s
  | .tlde d a b => Sys2Proof.Machine.execTlde d a b s
  | .hmov d a restrict keep => Sys2Proof.Machine.execHmov d a restrict keep s
  | .hnull a => Sys2Proof.Machine.execHnull a s
  | .hcmp d a b => Sys2Proof.Machine.execHcmp d a b s
  | .hget d a => Sys2Proof.Machine.execHget d a s
  | .hput d a => Sys2Proof.Machine.execHput d a s
  | .uniq d a => Sys2Proof.Machine.execUniq d a s
  | .upde d a b c z => Sys2Proof.Machine.execUpde d a b c z s
  | .sopen d a b => Sys2Proof.Machine.execSopen d a b s
  | .spush a b nb => Sys2Proof.Machine.execSpush a b nb s
  | .spushh n a b nb => Sys2Proof.Machine.execSpushh n a b nb s
  | .spop d a nb => Sys2Proof.Machine.execSpop d a nb s
  | .spoph d a n nb => Sys2Proof.Machine.execSpoph d a n nb s
  | .sstat d a => Sys2Proof.Machine.execSstat d a s
  | .sclose a => Sys2Proof.Machine.execSclose a s
  | .gopen d a => Sys2Proof.Machine.execGopen d a s
  | .gseal a => Sys2Proof.Machine.execGseal a s
  | .gwait a => Sys2Proof.Machine.execGwait a s
  | .racq d a => Sys2Proof.Machine.execRacq d a s
  | .rrel a => Sys2Proof.Machine.execRrel a s
  | .mod o x c => Sys2Proof.Machine.execMod o x c s
  | .nopWide c => Sys2Proof.Machine.execNopWide c s
  | .aadd c ad aa ab => Sys2Proof.Machine.execAadd c ad aa ab s
  | .asub c ad aa ab => Sys2Proof.Machine.execAsub c ad aa ab s
  | .amul c ad aa ab => Sys2Proof.Machine.execAmul c ad aa ab s
  | .aand c ad aa ab => Sys2Proof.Machine.execAand c ad aa ab s
  | .aaddi c ad aa imm => Sys2Proof.Machine.execAaddi c ad aa imm s
  | .ashl c ad aa n => Sys2Proof.Machine.execAshl c ad aa n s
  | .ashr c ad aa n arith => Sys2Proof.Machine.execAshr c ad aa n arith s
  | .ali c ad imm => Sys2Proof.Machine.execAli c ad imm s
  | .alih c ad imm => Sys2Proof.Machine.execAlih c ad imm s
  | .abr c aa ab cc off => Sys2Proof.Machine.execAbr c aa ab cc off s
  | .aj c off => Sys2Proof.Machine.execAj c off s
  | .aloop aa len => Sys2Proof.Machine.execAloop aa len s
  | .aend c => Sys2Proof.Machine.execAend c s
  | .tkv c ad aa send recv => Sys2Proof.Machine.execTkv c ad aa send recv s
  | .acsrr c ad n => Sys2Proof.Machine.execAcsrr c ad n s
  | .acsrw c aa n => Sys2Proof.Machine.execAcsrw c aa n s
  | .rep c cnt sd sa sb sc => Sys2Proof.Machine.execRep c cnt sd sa sb sc s
  | .modWide o x k => Sys2Proof.Machine.execModWide o x k s
  | .tlwaitWide c x aa => Sys2Proof.Machine.execTlwaitWide c x aa s
  | .ldt c t hd base idx off => Sys2Proof.Machine.execLdt c t hd base idx off s
  | .ldv c t vd base idx off => Sys2Proof.Machine.execLdv c t vd base idx off s
  | .ldva c t vd base idx off => Sys2Proof.Machine.execLdva c t vd base idx off s
  | .ldvt c t vd h row0 col0 mode packed => Sys2Proof.Machine.execLdvt c t vd h row0 col0 mode packed s
  | .gath c t k vd va ab => Sys2Proof.Machine.execGath c t k vd va ab s
  | .btgath c t k vd va aT aP => Sys2Proof.Machine.execBtgath c t k vd va aT aP s
  | .cec c base off => Sys2Proof.Machine.execCec c base off s
  | .cedup c base off => Sys2Proof.Machine.execCedup c base off s
  | .cecol c hd base off => Sys2Proof.Machine.execCecol c hd base off s
  | .pref c base off => Sys2Proof.Machine.execPref c base off s
  | .rrot c hd hs ra => Sys2Proof.Machine.execRrot c hd hs ra s
  | .gwaitf c hs => Sys2Proof.Machine.execGwaitf c hs s
  | .spopv c vd h n => Sys2Proof.Machine.execSpopv c vd h n s
  | .ldk c k base off => Sys2Proof.Machine.execLdk c k base off s
  | .vadd c t k sat vd va vb => Sys2Proof.Machine.execVadd c t k sat vd va vb s
  | .vsub c t k sat vd va vb => Sys2Proof.Machine.execVsub c t k sat vd va vb s
  | .vmul c t k sat vd va vb => Sys2Proof.Machine.execVmul c t k sat vd va vb s
  | .vfma c t k sat vd va vb vc => Sys2Proof.Machine.execVfma c t k sat vd va vb vc s
  | .vfnma c t k sat vd va vb vc => Sys2Proof.Machine.execVfnma c t k sat vd va vb vc s
  | .vmin c t k vd va vb => Sys2Proof.Machine.execVmin c t k vd va vb s
  | .vmax c t k vd va vb => Sys2Proof.Machine.execVmax c t k vd va vb s
  | .vabs c t k sat vd va => Sys2Proof.Machine.execVabs c t k sat vd va s
  | .vneg c t k sat vd va => Sys2Proof.Machine.execVneg c t k sat vd va s
  | .vrcp c k vd va => Sys2Proof.Machine.execVrcp c k vd va s
  | .vrsq c k vd va => Sys2Proof.Machine.execVrsq c k vd va s
  | .vexp2 c k vd va => Sys2Proof.Machine.execVexp2 c k vd va s
  | .vlog2 c k vd va => Sys2Proof.Machine.execVlog2 c k vd va s
  | .vcmp c t cc k kd va vb => Sys2Proof.Machine.execVcmp c t cc k kd va vb s
  | .vsel c k vd va vb => Sys2Proof.Machine.execVsel c k vd va vb s
  | .vmov c k vd va => Sys2Proof.Machine.execVmov c k vd va s
  | .vand c k vd va vb => Sys2Proof.Machine.execVand c k vd va vb s
  | .vor c k vd va vb => Sys2Proof.Machine.execVor c k vd va vb s
  | .vxor c k vd va vb => Sys2Proof.Machine.execVxor c k vd va vb s
  | .vshl c k vd va n => Sys2Proof.Machine.execVshl c k vd va n s
  | .vshr c k vd va n => Sys2Proof.Machine.execVshr c k vd va n s
  | .vsra c k vd va n => Sys2Proof.Machine.execVsra c k vd va n s
  | .vmovi c vd src => Sys2Proof.Machine.execVmovi c vd src s
  | .viota c vd a step => Sys2Proof.Machine.execViota c vd a step s
  | .vcvt c dst src k sat vd va => Sys2Proof.Machine.execVcvt c dst src k sat vd va s
  | .vlcvt c t k sat vd va => Sys2Proof.Machine.execVlcvt c t k sat vd va s
  | .vlexp c t k vd va => Sys2Proof.Machine.execVlexp c t k vd va s
  | .vlmul c t k sat vd va vb => Sys2Proof.Machine.execVlmul c t k sat vd va vb s
  | .vpack6 c sat vd va => Sys2Proof.Machine.execVpack6 c sat vd va s
  | .vunpk6 c vd va => Sys2Proof.Machine.execVunpk6 c vd va s
  | .vcmpr c t kd vd va => Sys2Proof.Machine.execVcmpr c t kd vd va s
  | .vexpd c k vd va => Sys2Proof.Machine.execVexpd c k vd va s
  | .vrotr c k vd va n => Sys2Proof.Machine.execVrotr c k vd va n s
  | .vrotc c k vd va n => Sys2Proof.Machine.execVrotc c k vd va n s
  | .vbcr c k vd va n => Sys2Proof.Machine.execVbcr c k vd va n s
  | .vbcc c k vd va n => Sys2Proof.Machine.execVbcc c k vd va n s
  | .vredr c t op k vd va => Sys2Proof.Machine.execVredr c t op k vd va s
  | .vredc c t op k vd va => Sys2Proof.Machine.execVredc c t op k vd va s
  | .vscnr c t op excl k vd va => Sys2Proof.Machine.execVscnr c t op excl k vd va s
  | .kop c op kd ka kb => Sys2Proof.Machine.execKop c op kd ka kb s
  | .kmov c kd src => Sys2Proof.Machine.execKmov c kd src s
  | .blend c bank back => Sys2Proof.Machine.execBlend c bank back s
  | .vtoa c ad va row col sext => Sys2Proof.Machine.execVtoa c ad va row col sext s
  | .atov c vd a row col => Sys2Proof.Machine.execAtov c vd a row col s
  | .mlease c g => Sys2Proof.Machine.execMlease c g s
  | .mrel c => Sys2Proof.Machine.execMrel c s
  | .mma c fa fb g z0 sc a b m n k zcol zrow hsa hsb => Sys2Proof.Machine.execMma c fa fb g z0 sc a b m n k zcol zrow hsa hsb s
  | .mmag c fa fb g z0 sc a hb hc grp m n k zcol zrow hsa hy => Sys2Proof.Machine.execMmag c fa fb g z0 sc a hb hc grp m n k zcol zrow hsa hy s
  | .mzero c m n zrow zcol => Sys2Proof.Machine.execMzero c m n zrow zcol s
  | .mdrain c dest t sat clip z scl m n zrow zcol => Sys2Proof.Machine.execMdrain c dest t sat clip z scl m n zrow zcol s
  | .mstat c ad clr => Sys2Proof.Machine.execMstat c ad clr s
  | .mrowp c ad set => Sys2Proof.Machine.execMrowp c ad set s
  | .stv c t sat hd va idx => Sys2Proof.Machine.execStv c t sat hd va idx s
  | .stt c t hs base idx off => Sys2Proof.Machine.execStt c t hs base idx off s
  | .stva c t sat vd base idx off => Sys2Proof.Machine.execStva c t sat vd base idx off s
  | .scat c t k sat va vb ab => Sys2Proof.Machine.execScat c t k sat va vb ab s
  | .stred c t op sat vd base idx off => Sys2Proof.Machine.execStred c t op sat vd base idx off s
  | .spushv c vd h n => Sys2Proof.Machine.execSpushv c vd h n s
  | .stk c k base off => Sys2Proof.Machine.execStk c k base off s
  | .fpcWrite core st v => Sys2Proof.Machine.execFpcWrite core st v s
  | .moddefWrite core st v => Sys2Proof.Machine.execModdefWrite core st v s
  | .ptbaseWrite core v => Sys2Proof.Machine.execPtbaseWrite core v s
  | .mrowpWrite core v => Sys2Proof.Machine.execMrowpWrite core v s
  | .presslenWrite v => Sys2Proof.Machine.execPresslenWrite v s
  | .ctxidWrite core v => Sys2Proof.Machine.execCtxidWrite core v s
  | .vfidWrite core v => Sys2Proof.Machine.execVfidWrite core v s
  | .dispatch die => Sys2Proof.Machine.execDispatch die s
  | .readinessFill pa => Sys2Proof.Machine.execReadinessFill pa s
  | .launchRecord ctx => Sys2Proof.Machine.execLaunchRecord ctx s
  | .launchRetire id => Sys2Proof.Machine.execLaunchRetire id s
  | .pressPeriod => Sys2Proof.Machine.execPressPeriod s
  | .budgetHold die cls res => Sys2Proof.Machine.execBudgetHold die cls res s
  | .delta k => Sys2Proof.Machine.execDelta k s
  | .deltaRefusalTrap core => Sys2Proof.Machine.execDeltaRefusalTrap core s
  | .weightMessage k => Sys2Proof.Machine.execWeightMessage k s
  | .leaseGrant cluster => Sys2Proof.Machine.execLeaseGrant cluster s
  | .leaseExpiry core => Sys2Proof.Machine.execLeaseExpiry core s
  | .leaseRevoke core => Sys2Proof.Machine.execLeaseRevoke core s
  | .gangLeaseTimeout cluster => Sys2Proof.Machine.execGangLeaseTimeout cluster s
  | .matrixCmdStart core => Sys2Proof.Machine.execMatrixCmdStart core s
  | .matrixCmdComplete core => Sys2Proof.Machine.execMatrixCmdComplete core s
  | .tileFillComplete core n => Sys2Proof.Machine.execTileFillComplete core n s
  | .stvComplete core n => Sys2Proof.Machine.execStvComplete core n s
  | .sttComplete core n => Sys2Proof.Machine.execSttComplete core n s
  | .stredComplete core n => Sys2Proof.Machine.execStredComplete core n s
  | .cecComplete core n => Sys2Proof.Machine.execCecComplete core n s
  | .cedupComplete core n => Sys2Proof.Machine.execCedupComplete core n s
  | .collectiveComplete id => Sys2Proof.Machine.execCollectiveComplete id s
  | .rrotComplete core n => Sys2Proof.Machine.execRrotComplete core n s
  | .copyOnWrite k => Sys2Proof.Machine.execCopyOnWrite k s
  | .trapEntry core => Sys2Proof.Machine.execTrapEntry core s
  | .monitorEntry core => Sys2Proof.Machine.execMonitorEntry core s
  | .cellStop core => Sys2Proof.Machine.execCellStop core s
  | .prestPlace k => Sys2Proof.Machine.execPrestPlace k s
  | .gangRestore k => Sys2Proof.Machine.execGangRestore k s
  | .stopPress core bank => Sys2Proof.Machine.execStopPress core bank s
  | .stopPressEnd core => Sys2Proof.Machine.execStopPressEnd core s
  | .rasWindow core => Sys2Proof.Machine.execRasWindow core s
  | .uncorrectable site => Sys2Proof.Machine.execUncorrectable site s
  | .streamItemArrival k => Sys2Proof.Machine.execStreamItemArrival k s
  | .streamRefill core k => Sys2Proof.Machine.execStreamRefill core k s
  | .streamStop k => Sys2Proof.Machine.execStreamStop k s
  | .streamGo k => Sys2Proof.Machine.execStreamGo k s
  | .streamRebind k => Sys2Proof.Machine.execStreamRebind k s
  | .streamRebindAck k => Sys2Proof.Machine.execStreamRebindAck k s
  | .orphanNotice k => Sys2Proof.Machine.execOrphanNotice k s
  | .pktRead k => Sys2Proof.Machine.execPktRead k s
  | .pktWrite k => Sys2Proof.Machine.execPktWrite k s
  | .pktRmw k => Sys2Proof.Machine.execPktRmw k s
  | .pktCas k => Sys2Proof.Machine.execPktCas k s
  | .pktReadData k => Sys2Proof.Machine.execPktReadData k s
  | .pktAcknowledge k => Sys2Proof.Machine.execPktAcknowledge k s
  | .pktRefuse k => Sys2Proof.Machine.execPktRefuse k s
  | .pktToken k => Sys2Proof.Machine.execPktToken k s
  | .pktCollectiveData k => Sys2Proof.Machine.execPktCollectiveData k s
  | .pktBad k => Sys2Proof.Machine.execPktBad k s
  | .retransmit k => Sys2Proof.Machine.execRetransmit k s
  | .deviceLost dev => Sys2Proof.Machine.execDeviceLost dev s
  | .linkReplay port => Sys2Proof.Machine.execLinkReplay port s
  | .linkUp port id => Sys2Proof.Machine.execLinkUp port id s
  | .hostPacket k => Sys2Proof.Machine.execHostPacket k s
  | .cfgRead addr => Sys2Proof.Machine.execCfgRead addr s
  | .cfgWrite addr v => Sys2Proof.Machine.execCfgWrite addr v s
  | .bootctl v => Sys2Proof.Machine.execBootctl v s
  | .firmwareStaging imm v => Sys2Proof.Machine.execFirmwareStaging imm v s
  | .budgetTableWrite imm v => Sys2Proof.Machine.execBudgetTableWrite imm v s
  | .contextEnable ctx => Sys2Proof.Machine.execContextEnable ctx s
  | .contextDisable ctx => Sys2Proof.Machine.execContextDisable ctx s
  | .lsOpen ctx stock => Sys2Proof.Machine.execLsOpen ctx stock s
  | .lsClose ctx => Sys2Proof.Machine.execLsClose ctx s
  | .wake core => Sys2Proof.Machine.execWake core s
  | .attest n0 n1 n2 n3 => Sys2Proof.Machine.execAttest n0 n1 n2 n3 s
  | .coreReset core => Sys2Proof.Machine.execCoreReset core s
  | .rollback => Sys2Proof.Machine.execRollback s
  | .deviceReset straps => Sys2Proof.Machine.execDeviceReset straps s
  | .thermWarn => Sys2Proof.Machine.execThermWarn s
  | .thermTrip => Sys2Proof.Machine.execThermTrip s
  | .powerCap => Sys2Proof.Machine.execPowerCap s
  | .watchdog core => Sys2Proof.Machine.execWatchdog core s
  | .scrubUe pa => Sys2Proof.Machine.execScrubUe pa s
  | .illegalEncoding => Sys2Proof.Machine.execIllegalEncoding s
  | .storePerformed core st => Sys2Proof.Machine.execStorePerformed core st s
  | .dieCopyUpdate die addr => Sys2Proof.Machine.execDieCopyUpdate die addr s
  | .loadReturn core k => Sys2Proof.Machine.execLoadReturn core k s
  | .sideArrayClear k => Sys2Proof.Machine.execSideArrayClear k s
  | .hbmCorrection row => Sys2Proof.Machine.execHbmCorrection row s

end Sys2Proof.Machine
end

