-- ==== Sys2Proof/Machine/Issue.lean ====
section
/-! DEFINITION. Turns (log 1): when a strand may issue (R21, R36, R79, R307, R330), the word it fetches and the
instruction it decodes, CTL's interlock on outstanding loads (R21, R131, R240, R241), events, and the policy that
fills in turns where the agenda names none. -/

namespace Sys2Proof.Machine

/-! ### May a strand issue -/

/-- A core's cell may issue from a strand now; no strand of a held class does (R79). -/
def mayIssue (s : State) : Bool :=
  let k := s.me
  let st := s.cur.st
  !s.tripped && k.live && !k.stopped && k.freeze == 0 && (k.raised.isNone || s.my.asked != 0) && !s.my.ended &&
    (st == .ctl || k.mode == .u) && !s.held (dieOf s.cur.core) k.cls

/-! ### The word and its instruction (R5, R36, R38, R51) -/

/-- What a fetch brings: an instruction or an illegal word, with the copies the fetch leaves; or the cause and the
address of its fault. A second dword is fetched only where the first is that of a two-word instruction (R55); the spec does
not say how the fault of that fetch is reported, and the model gives the second dword's address in TRAPADDR and the first
word's in TRAPPC (DESIGN CHOICE, log 81). -/
def fetchInstr (s : State) : Except (Nat × W64) (Option Instr × State) :=
  let pc := s.my.pc
  match nextWord s s.cur.core s.cur.st s.mode pc with
  | .error e => .error (e, pc)
  | .ok (w, s1) =>
    if s.cur.st = .ctl then .ok (decodeCtl (BitVec.ofNat 32 w), s1)
    else wideAt s1 (repWord s.cur.st s.my (w64 w)) pc

/-! ### Outstanding loads (R21, R131, R240, R241) -/

/-- The S register a CTL instruction writes and those it reads; none for one that waits for every outstanding load: a
release, or a write that others may see, comes after the values of the loads before it (R241, R242), TRAP and HALT after
every earlier instruction (R316, R318), and a return exchanges registers (R317). -/
def ctlRegs : Instr → Option (Option (BitVec 6) × List (BitVec 6))
  | .nop | .yield | .wfe | .mod .. | .pand .. | .por .. | .pxor .. | .pandn .. | .pnot .. | .br ..
  | .brn .. | .tkpop _ | .hmov .. | .gwait _ => some (none, [])
  | .add d a b | .sub d a b | .mul d a b | .mulh d a b | .mulhn d a b | .div d a b | .divn d a b | .rem d a b
  | .remn d a b | .and d a b | .or d a b | .xor d a b | .andn d a b | .shl d a b | .shr d a b | .sra d a b | .rot d a b
  | .min d a b | .max d a b | .minn d a b | .maxn d a b | .lea d a b _ _ | .sel d a b _ _ => some (some d, [a, b])
  | .clz d a | .ctz d a | .popc d a | .bswap d a | .addi d a _ | .andi d a _ | .ori d a _ | .xori d a _ | .shli d a _
  | .shri d a _ | .srai d a _ | .muli d a _ | .lds d a _ _ | .ldf d a | .feprobe d a | .lstat d a | .racq d a =>
    some (some d, [a])
  | .li d _ | .pto d _ | .csrr d _ | .slipr d | .tkpopv d _ | .tkcnt d _ | .tlread d _ | .tcount d _ | .tinfo d _
  | .hcmp d _ _ | .hget d _ | .sstat d _ => some (some d, [])
  | .lik d _ _ => some (some d, [d])
  | .tlde d _ b => some (some d, [b])
  | .cmp _ _ a b | .talloc _ a b _ => some (none, [a, b])
  | .cmpi _ _ a _ | .pfrom _ a _ | .csrw a _ | .jr a | .loop a _ | .tlwait _ a | .tlwaitp _ _ a | .hput _ a =>
    some (none, [a])
  | .call _ => some (some 63, [])
  | .callr a => some (some 63, [a])
  | .ret => some (none, [63])
  | .sts v a _ _ => some (none, [v, a])
  | _ => none

/-- Whether an access of `n` bytes meets bytes of an outstanding load, or leaves the pages. -/
def meetsLoad (s : State) (ea : W64) (n : Nat) : Bool :=
  if regionOf ea.toNat != .page then true
  else
    match xlate s s.cur.core s.me.ctxOf s.mode ea.toNat false false with
    | .error _ => false
    | .ok t => s.me.loads.any (fun l => l.pa < t.pa + n && t.pa < l.pa + l.n)

/-- Whether an instruction of CTL waits for outstanding loads: a dependant does (R21, R131), an access to the same
location (R236), and one whose effect others may see before the loads have their values. -/
def waitsLoads (s : State) (i : Instr) : Bool :=
  if s.cur.st != .ctl || s.me.loads.isEmpty then false
  else
    match ctlRegs i with
    | none => true
    | some (d, rs) =>
      s.me.loads.any (fun l => l.d != 0 && (d = some l.d || rs.contains l.d)) ||
        (match i with
         | .lds _ a off z => meetsLoad s (eaM (s.rS a) off z) (sizeBytes z)
         | .sts _ a off z => s.attr.o.rels || meetsLoad s (eaM (s.rS a) off z) (sizeBytes z)
         | .ldf _ a | .feprobe _ a => meetsLoad s (s.rS a) 8
         | _ => false)

/-! ### Loads performed ahead (R240) -/

/-- Whether an instruction brings a loaded value into a register. -/
def loads : Instr → Bool
  | .lds .. | .atom .. | .cas .. | .ldfe .. | .ldf .. | .feprobe .. | .tlde .. | .ldv .. | .ldva .. | .ldvt .. | .gath ..
  | .btgath .. => true
  | _ => false

/-- What an instruction does to a load performed ahead: lost if its own address may come from a later load's value, else
with the registers that such values reach. -/
def Ahead.after (i : Instr) (e : Ahead) : Option Ahead :=
  match i with
  | .gath .. | .btgath .. => if e.tnt.contains 64 then none else some { e with tnt := 64 :: e.tnt }
  | .ldv .. | .ldva .. | .ldvt .. => some { e with tnt := 64 :: e.tnt }
  | _ =>
    match ctlRegs i with
    | some (some d, rs) =>
      let hit := rs.any (fun r => e.tnt.contains r.toNat) ||
        (match i with | .sel .. | .pto .. => !e.tnt.isEmpty | _ => false)
      if loads i && hit then none
      else if d = 0 then some e
      else some { e with tnt := if loads i || hit then d.toNat :: e.tnt else e.tnt.filter (· != d.toNat) }
    | _ =>
      match i with
      | .atom _ _ d .. | .cas _ d .. | .ldfe d _ => some { e with tnt := d.toNat :: e.tnt }
      | _ => some e

/-- The issuing strand's loads performed ahead, after an instruction issues. -/
def noteAhead (i : Instr) (s : State) : State :=
  if s.my.ahead.isEmpty then s else s.modMy (fun x => { x with ahead := x.ahead.filterMap (Ahead.after i) })

/-! ### Issue -/

/-- The word at the issuing strand's pc issues: its instruction runs, an illegal word traps, a fetch fault traps. EXE
waits for a lease that is asked for again, but an illegal word waits for none (R55, R317). -/
def issueWord (s : State) : Res :=
  match fetchInstr s with
  | .error (e, va) => .next (takeTrap s.cur.core s.cur.st ⟨e, va, 0, none, none⟩ s)
  | .ok (none, s) => exec .illegalEncoding s
  | .ok (some i, s) =>
    if waitsLoads s i || (s.cur.st == .exe && s.me.lease.again) then .next s else exec i (noteAhead i s)

/-- A strand's turn to issue. -/
def issue (s : State) : Res := if mayIssue s then issueWord s else .next s

/-! ### Events -/

/-- A step that is not an instruction of a strand. -/
def isEvent (i : Instr) : Bool := [Strand.ctl, .fet, .exe, .emi].all (fun st => !i.inStrand st)

/-- Steps that only happen inside another. -/
def inner : Instr → Bool
  | .illegalEncoding | .fpcWrite .. | .moddefWrite .. | .ptbaseWrite .. | .mrowpWrite .. | .presslenWrite _
  | .ctxidWrite .. | .vfidWrite .. | .budgetHold .. => true
  | _ => false

/-- Steps that go on after THERM_TRIP: the fabric, the host, corrections and reset (R342). -/
def afterTrip : Instr → Bool
  | .pktRead _ | .pktWrite _ | .pktRmw _ | .pktCas _ | .pktReadData _ | .pktAcknowledge _ | .pktRefuse _ | .pktToken _
  | .pktCollectiveData _ | .pktBad _ | .retransmit _ | .deviceLost _ | .linkReplay _ | .linkUp .. | .hostPacket _
  | .cfgRead _ | .cfgWrite .. | .bootctl _ | .firmwareStaging .. | .budgetTableWrite .. | .contextEnable _
  | .contextDisable _ | .lsOpen .. | .lsClose _ | .wake _ | .attest .. | .coreReset _ | .rollback | .deviceReset _
  | .thermWarn | .thermTrip | .powerCap | .scrubUe _ | .hbmCorrection _ | .uncorrectable _ | .storePerformed ..
  | .dieCopyUpdate .. => true
  | _ => false

/-- An event of the agenda. -/
def happen (e : Instr) (s : State) : Res :=
  if !isEvent e || !e.wf || inner e then .fault .noSuchTurn
  else if s.tripped && !afterTrip e then .next s
  else exec e s

/-! ### Turns -/

/-- A strand's turn: in the cycle of the last turn if it comes after that one's strand in the order of cores and of
strands, CTL first, else in the next. So the strands of a core issue in one cycle in R308's order, and the first of
their traps is the one taken (log 20). -/
def State.turn (s : State) (c : Nat) (st : Strand) (ch : Nat) : State :=
  { s with cur := ⟨c, st, ch⟩,
           cycle := if 4 * c + st.code ≤ 4 * s.cur.core + s.cur.st.code then s.cycle + 1 else s.cycle }

def runTurn (t : Turn) (s : State) : Res :=
  match t with
  | .issue c st ch => if c < 128 then issue (s.turn c st ch) else .fault .noSuchTurn
  | .ahead c st va => .next (loadAhead c st va s)
  | .seen c k die => .next (comeSeen c k die s)
  | .event e => happen e s
  | .packet p => .next (arrivePkt p s)
  | .arrival did phase cnt => .next (arrive s 4 did phase cnt []).2
  | .tick n => .next { s with cycle := s.cycle + n }

/-! ### The policy where no turn is given (log 1) -/

/-- A step of the device's own. -/
abbrev Due := State → Res

/-- One for each number below `n`. -/
def each (n : Nat) (f : Nat → Due) : List Due := (List.range n).map f

/-- What a core's units may do next. -/
def coreDue (c : Nat) (k : Core) : List Due :=
  let ns (x : TlCtx) : List Nat := (vget [] k.ops x.idx).map (·.n)
  (k.stores.map (fun o => execStorePerformed c o.st)) ++ each k.loads.length (execLoadReturn c) ++
    [execTrapEntry c, execMonitorEntry c, execCellStop c, execDeltaRefusalTrap c, execStopPressEnd c, execRasWindow c,
     execLeaseExpiry c, execLeaseRevoke c, execMatrixCmdStart c, execMatrixCmdComplete c] ++
    ((ns .fa).map (fun n => [execTileFillComplete c n, execCecComplete c n, execCedupComplete c n,
      execRrotComplete c n])).flatten ++
    ((ns .ea).map (fun n => [execStvComplete c n, execSttComplete c n, execStredComplete c n])).flatten ++
    each k.rends.length (execStreamRefill c) ++ each 4 (fun l => execDbarNotice c (l + 1))

/-- What the device's shared units may do next. -/
def deviceDue (s : State) : List Due :=
  (if s.boot = 1 then [execBootctl 0] else []) ++
    ((List.range s.msgs.length).map (fun k => [execDelta k, execWeightMessage k, execStreamItemArrival k, execStreamStop k,
      execStreamGo k, execStreamRebind k, execStreamRebindAck k, execOrphanNotice k])).flatten ++
    ((List.range s.net.inbox.length).map (fun k => [execPktRead k, execPktWrite k, execPktRmw k, execPktCas k,
      execPktReadData k, execPktAcknowledge k, execPktRefuse k, execPktToken k, execPktCollectiveData k, execPktBad k,
      execHostPacket k])).flatten ++
    each s.cows.length execCopyOnWrite ++ each s.clears.length execSideArrayClear ++
    (s.colls.map (fun (c : Coll) => execCollectiveComplete c.id)) ++
    (s.copy0.map (fun (p : Nat × W64) => execDieCopyUpdate 0 (8 * p.1))) ++
    (s.copy1.map (fun (p : Nat × W64) => execDieCopyUpdate 1 (8 * p.1))) ++
    each 32 execLeaseGrant ++ each 32 execGangLeaseTimeout ++
    (s.watches.map (fun w => execReadinessFill w.pa)) ++ (s.launches.map (fun l => execLaunchRetire l.id)) ++
    (s.ctxs.map (fun (p : Nat × Ctx) => execLaunchRecord p.1)) ++ each s.places.length execPrestPlace ++
    each s.places.length execGangRestore ++ [execDispatch 0, execDispatch 1, execPressPeriod] ++
    each s.net.outs.length execRetransmit ++
    ((s.net.outs.map (fun (o : OutPkt) => o.pkt.dst)).eraseDups.map execDeviceLost)

/-- Everything that may be due, the stores and returns of cores first. -/
def allDue (s : State) : List Due :=
  (s.cores.map (fun (p : Nat × Core) => coreDue p.1 p.2)).flatten ++ deviceDue s

/-- The first step that changes the state. -/
def firstDue (s : State) : List Due → Option State
  | [] => none
  | f :: l =>
    match f s with
    | .next s' => if s' = s then firstDue s l else some s'
    | _ => firstDue s l

/-- The next strand in turn after the last. -/
def nextWho (s : State) : Option Who :=
  let ids := ((s.cores.filter (fun (p : Nat × Core) => p.2.live && p.1 < 128)).map
    (fun (p : Nat × Core) => (List.range 4).map (fun i => 4 * p.1 + i))).flatten
  let now := 4 * s.cur.core + s.cur.st.code
  let who (i : Nat) : Who := ⟨i / 4, Strand.ofCode (i % 4), 0⟩
  match ids.find? (fun i => now < i) with
  | some i => some (who i)
  | none => ids.head?.map who

/-- A turn where the agenda names none: an event that is due, else the next strand, a cycle for each round. -/
def idle (s : State) : Res :=
  match (if s.tripped then none else firstDue s (allDue s)) with
  | some s' => .next s'
  | none =>
    match nextWho s with
    | none => .next { s with cycle := s.cycle + 1 }
    | some w => issue (s.turn w.core w.st 0)

end Sys2Proof.Machine
end

