-- ==== Sys2Proof/Machine/Step.lean ====
section
/-! DEFINITION. One step of the device: the next turn of the agenda, or one of the policy's choosing; and the state in
which the next step fetches a given instruction. -/

namespace Sys2Proof.Machine

/-- One turn (log 1). -/
def step (s : State) : Host.Outcome State Fault Refusal :=
  match s.agenda with
  | [] => idle s
  | t :: rest => runTurn t { s with agenda := rest }

/-- The strand that fetches an instruction of the opcode table. -/
def State.fetcher (nbits w : Nat) : Strand :=
  if nbits ≤ 32 then .ctl else strandOfOpcode (w / 2 ^ 56 % 256)

/-- A strand that stands at the placed word. -/
def State.placed (x : StrandSt) : StrandSt :=
  { x with pc := 0x1000, loop := none, rep := none, pre := none, ended := false, asked := 0, got := [], took := [], rel := 0 }

/-- Page tables for context 0 at physical 0x2000_0000: one 2 MiB page, readable, writable and executable, at virtual
0 (R285). -/
def State.withTables (s : State) : State :=
  ((s.wr64 0x20000000 0x20010003).wr64 0x20010000 0x20011003).wr64 0x20011000 0x2020007D

/-- A strand of core 0 that stands at the placed word, in a cell of context 0 in U mode. -/
def State.withCell (st : Strand) (s : State) : State :=
  (s.modCtx 0 (fun x => { x with ptbase := 0x20000000 })).modCore 0 (fun k => { k.modStrand st State.placed with
    live := true, mode := .u, ctxid := 0, raised := none, freeze := 0, stopped := false, loads := [] })

/-- An instruction placed where the next step fetches: a cell of context 0 in U mode on core 0, its page tables at
physical 0x2000_0000, one 2 MiB page for everything at virtual 0, the instruction at 0x1000 (log 5). -/
def State.withFetchWord (s : State) (nbits w : Nat) : State :=
  let st := State.fetcher nbits w
  let s := State.withCell st s.withTables
  { s with mem := msets memDefault s.mem 0x20201000 (leBytes (if nbits ≤ 32 then 4 else 16) w),
           agenda := [.issue 0 st 0], tripped := false, holds := [] }

end Sys2Proof.Machine
end

