-- ==== Sys2Proof/Safety.lean ====
section
/-! DEFINITION. The terms the claims use: what an instruction leaves alone, when one may run, and the values it gives,
each in the spec's words. -/

namespace Sys2Proof.Machine

/-! ### What is left alone -/

/-- The device without what the issue of an instruction on one core may change: the cores, and the accounts of the
issue itself (R79). -/
def State.rest (s : State) : State :=
  { s with cores := [], used := [], holds := [], slips0 := [], slips1 := [], lost0 := false, lost1 := false }

/-- A strand without where it stands: its pc, loop and repetition, and what an issue clears (R26, R36, R46). -/
def StrandSt.rest (x : StrandSt) : StrandSt :=
  { x with pc := 0, loop := none, rep := none, pre := none, asked := 0, got := [], took := [], opt := 0, rel := 0 }
/-- A strand without what its accesses and acquires leave of their order: the loads performed ahead, and when it last
acquired (R240, R242, R247). -/
def StrandSt.hideAhead (x : StrandSt) : StrandSt := { x with ahead := [], acqC := 0, acqW := 0 }

/-- A core without S, P and the place where CTL stands. -/
def Core.restCtl (k : Core) : Core :=
  { k with s := Vector.replicate 64 0, p := 1, ctl := k.ctl.rest }

/-- Every other core, context and cluster, every byte of memory and its tags, and everything else of the device but the
accounts of the issue is as before. -/
structure SameDevice (s t : State) : Prop where
  rest : t.rest = s.rest
  cores : ∀ c, c ≠ s.cur.core → t.core c = s.core c
  memory : ∀ a, mget memDefault t.mem a = mget memDefault s.mem a

/-- A CTL instruction wrote S registers, predicates and where CTL stands, and nothing else. -/
structure CtlOnly (s t : State) : Prop extends SameDevice s t where
  core : t.me.restCtl = s.me.restCtl

/-- CTL stands at the next word in execution order (R36). -/
def CtlNext (s t : State) : Prop :=
  t.me.ctl.pc = (s.me.ctl.advance 4 4).pc ∧ t.me.ctl.loop = (s.me.ctl.advance 4 4).loop

/-- S[d] holds `v`, S0 still reads 0, and every other S register is as before (R22). -/
def WroteS (s t : State) (d : BitVec 6) (v : W64) : Prop := ∀ r, t.rS r = if r = d ∧ r ≠ 0 then v else s.rS r
def SameS (s t : State) : Prop := ∀ r, t.rS r = s.rS r
/-- P[d] holds `v`, P0 still reads 1, and every other predicate is as before (R22). -/
def WroteP (s t : State) (d : BitVec 3) (v : Bool) : Prop := ∀ p, t.rP p = if p = d ∧ p ≠ 0 then v else s.rP p
def SameP (s t : State) : Prop := ∀ p, t.rP p = s.rP p
def WroteH (s t : State) (d : BitVec 6) (v : W64) : Prop := ∀ r, t.rH r = if r = d ∧ r ≠ 0 then v else s.rH r

/-- A CTL instruction of the core runs without a single step armed (R317). -/
abbrev Steady (s : State) : Prop := s.me.stepArm = false

/-- What an instruction may change, hidden: `g` on the device, `f` on the issuing core. All the rest of the device, every
other core, and all the rest of the issuing core are as before. -/
structure Frame (g : State → State) (f : Core → Core) (s t : State) : Prop where
  rest : g t.rest = g s.rest
  cores : ∀ c, c ≠ s.cur.core → t.core c = s.core c
  core : f t.me = f s.me

/-- A CTL instruction that went on to the next word. -/
structure CtlRan (g : State → State) (f : Core → Core) (s t : State) : Prop extends
    Frame g (fun k => f k.restCtl) s t where
  next : CtlNext s t

/-- Every byte of memory reads as before. -/
def SameBytes (s t : State) : Prop := ∀ a, mget memDefault t.mem a = mget memDefault s.mem a
/-- Every byte of memory outside `n` bytes at `pa` reads as before. -/
def SameBytesBut (pa n : Nat) (s t : State) : Prop :=
  ∀ a, (a < pa ∨ pa + n ≤ a) → mget memDefault t.mem a = mget memDefault s.mem a

/-- The device without what a translated access may leave behind: copies, held translations, descriptors and regions,
packets and credit (R237, R288, R293, R299, R303). -/
def State.hideAccess (s : State) : State :=
  { s with copy0 := [], copy1 := [], clusters := [], ctxs := [], heldTok := [], net := .init }
/-- A core without what its strands' accesses leave of their order. -/
def Core.hideAhead (k : Core) : Core :=
  { k with ctl := k.ctl.hideAhead, fet := k.fet.hideAhead, exe := k.exe.hideAhead, emi := k.emi.hideAhead }
/-- A core without what an access may leave behind. -/
def Core.hideAccess (k : Core) : Core :=
  { k.hideAhead with tlb := [], dc := [], btb := [], wallowOut := Vector.replicate 8 0 }

/-- What a release at a scope asks of the issuing strand: no refused delta to raise, its deltas answered, and beyond core
scope its core's stores performed (R96, R97, R242); at sys scope no posted write outstanding or lost (R247). -/
abbrev MayRelease (s : State) (sc : Scope) : Prop := release s sc = .ok ()

/-- What the token clause of a wide instruction that has not issued asks (R26, R28, R333): a token in every queue it pops, none of them
poisoned, room in every queue it pushes to, and a release at core scope before a push. -/
structure WideReady (c : Clause) (s : State) : Prop where
  wide : s.cur.st ≠ .ctl
  fresh : s.my.asked = 0
  took : s.my.took = []
  pops : ∀ x ∈ s.cur.st.named c.pop, s.me.queue x s.cur.st ≠ [] ∧ qIdx x s.cur.st ∉ s.me.tokPoison
  room : ∀ y ∈ s.cur.st.named c.push, (s.me.queue s.cur.st y).length < 16
  rel : c.push ≠ 0 → MayRelease s .core

/-- The queues after a token clause (R26): a head gone from each that it pops, `k` at the end of each that it pushes to. -/
def Tokens (c : Clause) (k : Token) (s t : State) : Prop :=
  ∀ x y, x ≠ y → t.me.queue x y =
    (if y = s.cur.st ∧ x ∈ s.cur.st.named c.pop then (s.me.queue x y).tail else s.me.queue x y) ++
      (if x = s.cur.st ∧ y ∈ s.cur.st.named c.push then [k] else [])

/-- A core without the place and the A file of a strand and its acquires, its token queues, CTL's event latch, and FET's block
translation buffer, which a pop empties (R217). -/
def Core.restWide (st : Strand) (k : Core) : Core :=
  { k.modStrand st (fun x => { x.rest.hideAhead with a := Vector.replicate 32 0 }) with
    tq := Vector.replicate 12 [], latch := false, btb := [] }

/-- A[d] of the issuing strand holds `v`, A0 still reads 0, and every other A register is as before (R22). -/
def WroteA (s t : State) (d : BitVec 5) (v : W64) : Prop := ∀ r, t.rA r = if r = d ∧ r ≠ 0 then v else s.rA r
def SameA (s t : State) : Prop := ∀ r, t.rA r = s.rA r

/-- A wide instruction that finished (R26): the token clause is done, and the rest is as `Frame` says. -/
structure WideDone (c : Clause) (k : Token) (g : State → State) (f : Core → Core) (s t : State) : Prop
    extends Frame g (fun k => f (k.restWide s.cur.st)) s t where
  tokens : Tokens c k s t

/-- One of `words` dwords (R36, R38): its strand stands at the next word or the next issue of its repetition. -/
structure WideRan (words : Nat) (c : Clause) (k : Token) (g : State → State) (f : Core → Core) (s t : State) : Prop
    extends WideDone c k g f s t where
  pc : t.my.pc = (s.my.next 8 (8 * words)).pc
  loop : t.my.loop = (s.my.next 8 (8 * words)).loop
  rep : t.my.rep = (s.my.next 8 (8 * words)).rep

/-- The state in which a wide instruction works: with a POP, after the acquire of it (R28). -/
def State.popped (s : State) (c : Clause) : State := if c.pop ≠ 0 then acquire s .core else s

/-! ### Values of the integer instructions (R119 to R122, R125) -/

/-- The destination and the value of a CTL instruction that only computes an S register. -/
def intValue (s : State) : Instr → Option (BitVec 6 × W64)
  | .add d a b => some (d, s.rS a + s.rS b)
  | .sub d a b => some (d, s.rS a - s.rS b)
  | .mul d a b => some (d, s.rS a * s.rS b)
  | .mulh d a b => some (d, BitVec.ofInt 64 ((s.rS a).toInt * (s.rS b).toInt / 2 ^ 64))
  | .mulhn d a b => some (d, BitVec.ofNat 64 ((s.rS a).toNat * (s.rS b).toNat / 2 ^ 64))
  | .and d a b => some (d, s.rS a &&& s.rS b)
  | .or d a b => some (d, s.rS a ||| s.rS b)
  | .xor d a b => some (d, s.rS a ^^^ s.rS b)
  | .andn d a b => some (d, s.rS a &&& ~~~s.rS b)
  | .shl d a b => some (d, s.rS a <<< ((s.rS b).toNat % 64))
  | .shr d a b => some (d, s.rS a >>> ((s.rS b).toNat % 64))
  | .sra d a b => some (d, (s.rS a).sshiftRight ((s.rS b).toNat % 64))
  | .rot d a b => some (d, (s.rS a).rotateLeft ((s.rS b).toNat % 64))
  | .min d a b => some (d, if (s.rS a).toInt ≤ (s.rS b).toInt then s.rS a else s.rS b)
  | .max d a b => some (d, if (s.rS a).toInt ≤ (s.rS b).toInt then s.rS b else s.rS a)
  | .minn d a b => some (d, if (s.rS a).toNat ≤ (s.rS b).toNat then s.rS a else s.rS b)
  | .maxn d a b => some (d, if (s.rS a).toNat ≤ (s.rS b).toNat then s.rS b else s.rS a)
  | .clz d a => some (d, clz64 (s.rS a))
  | .ctz d a => some (d, ctz64 (s.rS a))
  | .popc d a => some (d, popc64 (s.rS a))
  | .bswap d a => some (d, bswap64 (s.rS a))
  | .addi d a i => some (d, s.rS a + i.signExtend 64)
  | .andi d a i => some (d, s.rS a &&& i.setWidth 64)
  | .ori d a i => some (d, s.rS a ||| i.setWidth 64)
  | .xori d a i => some (d, s.rS a ^^^ i.setWidth 64)
  | .shli d a n => some (d, s.rS a <<< n.toNat)
  | .shri d a n => some (d, s.rS a >>> n.toNat)
  | .srai d a n => some (d, (s.rS a).sshiftRight n.toNat)
  | .muli d a i => some (d, s.rS a * i.signExtend 64)
  | .li d i => some (d, i.signExtend 64)
  | .lik d k i => some (d, likWord (s.rS d) k i)
  | .pto d p => some (d, if s.rP p then 1 else 0)
  | .sel d a b inv p => some (d, if s.rP p != inv then s.rS a else s.rS b)
  | .lea d a b disp sh => some (d, s.rS a + s.rS b <<< sh.toNat + disp.signExtend 64)
  | _ => none

/-- The destination, the quotient or remainder, and the divisor of a division (R119, R120). -/
def divValue (s : State) : Instr → Option (BitVec 6 × W64 × W64)
  | .div d a b => some (d, BitVec.ofInt 64 ((s.rS a).toInt.tdiv (s.rS b).toInt), s.rS b)
  | .divn d a b => some (d, BitVec.ofNat 64 ((s.rS a).toNat / (s.rS b).toNat), s.rS b)
  | .rem d a b => some (d, BitVec.ofInt 64 ((s.rS a).toInt.tmod (s.rS b).toInt), s.rS b)
  | .remn d a b => some (d, BitVec.ofNat 64 ((s.rS a).toNat % (s.rS b).toNat), s.rS b)
  | _ => none

/-- The destination and the value of a CTL instruction that only computes a predicate (R123, R124). -/
def predValue (s : State) : Instr → Option (BitVec 3 × Bool)
  | .cmp d cc a b => some (d, condOn cc (s.rS a) (s.rS b))
  | .cmpi d cc a i => some (d, condOn cc (s.rS a) (cmpImm cc i))
  | .pand d a b => some (d, s.rP a && s.rP b)
  | .por d a b => some (d, s.rP a || s.rP b)
  | .pxor d a b => some (d, s.rP a != s.rP b)
  | .pandn d a b => some (d, s.rP a && !s.rP b)
  | .pnot d a => some (d, !s.rP a)
  | .pfrom d a n => some (d, (s.rS a).getLsbD n.toNat)
  | _ => none

/-- Where a branch, call or jump of CTL goes from a state, and whether it writes the link (R126, R127). -/
def jumpValue (s : State) : Instr → Option (W64 × Bool)
  | .br p off => if s.rP p then some (s.me.ctl.pc + BitVec.ofInt 64 (off.toInt * 4), false) else none
  | .brn p off => if s.rP p then none else some (s.me.ctl.pc + BitVec.ofInt 64 (off.toInt * 4), false)
  | .call off => some (s.me.ctl.pc + BitVec.ofInt 64 (off.toInt * 4), true)
  | .jr a => some (s.rS a, false)
  | .ret => some (s.rS 63, false)
  | .callr a => some (s.rS a, true)
  | _ => none

/-- The jumps through a register, whose target must be word-aligned (R127). -/
def throughReg : Instr → Bool
  | .jr _ | .ret | .callr _ => true
  | _ => false

/-- What goes on to the next word of CTL and does nothing else: NOP (R129), and a branch that is not taken (R126). -/
def goesOn (s : State) : Instr → Bool
  | .nop => true
  | .br p _ => !s.rP p
  | .brn p _ => s.rP p
  | _ => false

/-- The token clause, the destination and the value of a scalar instruction of a wide strand (R134 to R136). -/
def wideValue (s : State) : Instr → Option (Clause × BitVec 5 × W64)
  | .aadd c d a b => some (c, d, s.rA a + s.rA b)
  | .asub c d a b => some (c, d, s.rA a - s.rA b)
  | .amul c d a b => some (c, d, s.rA a * s.rA b)
  | .aand c d a b => some (c, d, s.rA a &&& s.rA b)
  | .aaddi c d a i => some (c, d, s.rA a + i.signExtend 64)
  | .ashl c d a (.reg b) => some (c, d, s.rA a <<< ((s.rA b).toNat % 64))
  | .ashl c d a (.imm n) => some (c, d, s.rA a <<< n.toNat)
  | .ashr c d a (.reg b) false => some (c, d, s.rA a >>> ((s.rA b).toNat % 64))
  | .ashr c d a (.imm n) false => some (c, d, s.rA a >>> n.toNat)
  | .ashr c d a (.reg b) true => some (c, d, (s.rA a).sshiftRight ((s.rA b).toNat % 64))
  | .ashr c d a (.imm n) true => some (c, d, (s.rA a).sshiftRight n.toNat)
  | .ali c d i => some (c, d, i.signExtend 64)
  | .alih c d i => some (c, d, i ++ (s.rA d).setWidth 32)
  | _ => none

/-! ### Control and status registers (R58, R133) -/

/-- The CSRs whose writable bits simply take the value written, with those bits (R59, R60, R81, R159, R182, R309). -/
def csrMasks : List (Nat × W64) :=
  [(0x000, 0xFFFF), (0x003, 0xFFFFFFFF), (0x010, BitVec.allOnes 64), (0x011, BitVec.allOnes 64),
   (0x012, BitVec.allOnes 64), (0x013, BitVec.allOnes 64), (0x020, BitVec.allOnes 64), (0x030, 0x3F),
   (0x100, 0x000FFFFFFFFFFFFC), (0x101, 0xBFFF), (0x102, BitVec.allOnes 64), (0x103, BitVec.allOnes 64),
   (0x104, BitVec.allOnes 64), (0x106, 0x000FFFFFFFFFFFFC), (0x130, 0x73F)]

/-- What each number of R58's table reads, but for the domain memberships and the window allowances, which are numbered in
a row (R39, R59 to R61, R79, R81, R133, R159, R160, R182, R183, R286, R306, R309, R331). -/
def csrTable (s : State) (c : Nat) (st : Strand) : List (Nat × W64) :=
  let k := s.core c
  [(0x000, (k.strand st).fpc.setWidth 64), (0x001, (k.strand st).moddef.setWidth 64),
   (0x002, BitVec.ofNat 64 (s.dev % 256 * 2 ^ 16 + c / 64 * 2 ^ 8 + c % 64 * 4 + st.code)), (0x003, k.launchid),
   (0x020, s.presscnt), (0x021, BitVec.ofNat 64 s.presslen), (0x030, k.mstat), (0x031, BitVec.ofNat 64 k.mrowp),
   (0x100, k.trapvec), (0x101, k.trapcause), (0x102, k.trappc), (0x103, k.trapaddr), (0x104, k.trapinfo),
   (0x105, k.savedst), (0x106, k.monvec), (0x110, k.ctxid), (0x111, (s.ctx k.ctxOf).ptbase), (0x112, k.vfid),
   (0x120, k.rascnt), (0x121, BitVec.ofNat 64 k.raswin), (0x122, BitVec.ofNat 64 k.rasthr), (0x130, k.budcls)]

/-- A core without the instruction caches of its strands (R321). -/
def Core.hideIc (k : Core) : Core :=
  { k with ctl := { k.ctl with ic := [] }, fet := { k.fet with ic := [] }, exe := { k.exe with ic := [] },
           emi := { k.emi with ic := [] } }

/-- A core without the CSRs of `csrMasks`. -/
def Core.hideCsr (k : Core) : Core :=
  { k with ctl := { k.ctl with fpc := 0 }, launchid := 0, dmemb := Vector.replicate 4 0, mstat := 0, trapvec := 0,
           trapcause := 0, trappc := 0, trapaddr := 0, trapinfo := 0, monvec := 0, budcls := 0 }

/-! ### Memory (R131, R132, R237, R248 to R253) -/

/-- The checks of LDS and STS on an effective address: aligned to the size, bits 63 to 52 zero (R131). -/
abbrev EaOk (ea : W64) (z : Size) : Prop := ea.toNat % sizeBytes z = 0 ∧ fld ea 52 12 = 0

/-- Where an address of the issuing strand is read as a page address: in M mode physical memory (R306), else below the
windows (R284). -/
abbrev PageAddress (s : State) (ea : W64) : Prop := s.mode = .m ∨ regionOf ea.toNat = .page

/-- Where a read-modify-write of `n` bytes is performed at its home at once (R250): its address is aligned and a page
address that may be read and written, its release part and the core's stores to the bytes are done, nothing there is
poisoned. `s1` is the state with the translation held. -/
structure RmwHere (s : State) (ea : W64) (n pa : Nat) (s1 : State) : Prop where
  low : fld ea 52 12 = 0
  aligned : ea.toNat % n = 0
  page : PageAddress s ea
  place : ∃ tr, tr.pa = pa ∧ writePlace s ea = .ok (tr, s1)
  read : mayRead s ea = .ok ()
  rel : relPart s1 s.attr = .ok ()
  ready : rmwReady s1 pa n true = .ok ()
  clean : s1.bad pa n = false

/-- Where a full/empty operation meets its word at its home (R248, R252, R253): no operation of this CTL is parked, the
address is aligned and of a tagged page, with the rights the operation needs, its release part and the core's stores to
the word are done. -/
structure FeHere (f : FeOp) (s : State) (ea : W64) (pa : Nat) (s1 : State) : Prop where
  free : ∀ p ∈ s.parks, p.core = s.cur.core → p.remote ≠ none
  low : fld ea 52 12 = 0
  aligned : ea.toNat % 8 = 0
  mode : s.mode ≠ .m
  page : regionOf ea.toNat = .page
  tagged : ∃ e, ent s s.cur.core s.me.ctxOf ea.toNat = .ok e ∧ e.leaf.getLsbD 6 = true
  read : f.reads = true → mayRead s ea = .ok ()
  place : ∃ tr, tr.pa = pa ∧
    (if f.writes then writePlace s ea = .ok (tr, s1)
     else xlate s s.cur.core s.me.ctxOf s.mode ea.toNat false false = .ok tr ∧ s1 = s)
  rel : relPart s1 (feAttr f s.attr) = .ok ()
  ready : rmwReady s1 pa 8 f.writes = .ok ()
  clean : f ≠ .stf → f ≠ .stfe → s1.bad pa 8 = false

/-- No operation is parked on the word at a physical address. -/
abbrev NoPark (s : State) (pa : Nat) : Prop := ∀ p ∈ s.parks, p.pa ≠ pa / 8 * 8

/-- A core without its held translations, its data cache and its store path. -/
def Core.hideStores (k : Core) : Core := { k.hideAccess with stores := [] }
def State.hideMem (s : State) : State := { s.hideAccess with mem := [], poison := [] }
def State.hideTag (s : State) : State := { s.hideMem with full := [] }

/-! ### Traps (R305 to R312) -/

/-- A core without what a trap's entry or a return changes: S, the shadow sets, where its strands stand, the mode, the trap
registers, and what waits. -/
def Core.hideTrap (k : Core) : Core :=
  { k with
    ctl := k.ctl.rest.hideAhead, fet := k.fet.rest.hideAhead, exe := k.exe.rest.hideAhead, emi := k.emi.rest.hideAhead,
    s := Vector.replicate 64 0,
    shS := Vector.replicate 8 0, shM := Vector.replicate 8 0, mode := .u, heldS := ⟨0, none⟩, heldM := ⟨0, none⟩,
    trapcause := 0, trappc := 0, trapaddr := 0, trapinfo := 0, savedst := 0, stepArm := false, raised := none, btb := [] }

/-- S0 to S55 are as before, and S56 to S63 change places with a shadow set (R307). -/
def SwapsUpper (k k' : Core) (set : Core → Vector W64 8) : Prop :=
  (∀ r : BitVec 6, r.toNat < 56 → k'.rS r = k.rS r) ∧
  (∀ r : BitVec 6, 56 ≤ r.toNat → k'.rS r = vget 0 (set k) (r.toNat - 56)) ∧
  (∀ i, i < 8 → vget 0 (set k') i = vget 0 k.s (56 + i))

/-- A strand of a core has trapped from U mode into S mode (R307, R309, R310). -/
structure EnteredS (c : Nat) (st : Strand) (cause0 : Nat) (pc0 addr0 info0 : W64) (s t : State) : Prop where
  mode : (t.core c).mode = .s
  cause : (t.core c).trapcause = BitVec.ofNat 64 (st.code * 1024 + cause0)
  pc : (t.core c).trappc = pc0
  addr : (t.core c).trapaddr = addr0
  info : (t.core c).trapinfo = info0
  saved : ∀ i, (t.core c).savedst.getLsbD i = (i == 15 || (2 ≤ i && i < 15 && (s.core c).savedst.getLsbD i))
  handler : (t.core c).ctl.pc = (s.core c).trapvec &&& 0x000FFFFFFFFFFFFC
  noLoop : (t.core c).ctl.loop = none
  held : (t.core c).heldS = ⟨if st = .ctl then pc0 else (s.core c).ctl.settle.pc, (s.core c).ctl.loop⟩
  wide : ∀ x, x ≠ .ctl → ((t.core c).strand x).pc = if x = st then pc0 else ((s.core c).strand x).settle.pc
  upper : SwapsUpper (s.core c) (t.core c) Core.shS
  rest : { t.rest with parks := [] } = { s.rest with parks := [] }
  cores : ∀ c', c' ≠ c → t.core c' = s.core c'
  core : (t.core c).hideTrap = (s.core c).hideTrap

/-- A core runs a cell in U mode whose other strands have nothing unfinished, and no trap of which waits: a trap is
entered at once (R307). -/
structure EntersNow (s : State) (c : Nat) (st : Strand) : Prop where
  user : (s.core c).mode = .u
  none : (s.core c).raised = none
  quiet : quiet (s.core c) st = true

/-! ### Values and streams (R82 to R117, R257 to R283) -/

/-- A handle that names a live tile of the issuing cell's context on this device (R105). -/
structure TileHere (s : State) (h : W64) : Prop where
  tile : isTile h = true
  good : hBad h = false
  here : homeHere s h = true
  live : recordCheck s s.me.ctxOf h = none

/-- Two H registers written, the second last; H0 reads 0 (R22). -/
def WroteH2 (s t : State) (a : BitVec 6) (v : W64) (b : BitVec 6) (w : W64) : Prop :=
  ∀ r, t.rH r = if r = 0 then 0 else if r = b then w else if r = a then v else s.rH r
def SameH (s t : State) : Prop := ∀ r, t.rH r = s.rH r

/-- A core without its tiles: H, records, galleys, contents, and what returns a proxy's weight. -/
def Core.hideTiles (k : Core) : Core :=
  { k with h := Vector.replicate 64 0, folio := [], gal := [], store := [], storePoison := [], dirtyG := 0,
           owedWeights := [], latch := false }
def Core.hideH (k : Core) : Core := { k with h := Vector.replicate 64 0 }

/-- A handle that names an open end at the issuing core whose anchor lies on this device (R257). -/
abbrev EndHere (s : State) (h : W64) (kind : Nat) : Prop := endCheck s h kind = .ok 0 ∧ ancHere s (anchorOf h) = true

/-- The core without its ends, their stream's timeline and its H and S registers. -/
def Core.hideEnds (k : Core) : Core :=
  { k.hideTiles.hideAhead with wends := [], rends := [], tl := k.tl.set 3 .init, tlb := [], dc := [] }
/-- The device without memory, messages and what a stream's records change. -/
def State.hideStreams (s : State) : State := { s.hideTag with msgs := [], stocks := [], clears := [] }

/-! ### Wide strands (R134 to R139, R206 to R225) -/

/-- V registers that an instruction may use: in no bank lent out, none pending (R23, R24). -/
abbrev FreeV (s : State) (vs : List Nat) : Prop := ∀ v ∈ vs, s.me.lent.getLsbD (v / 32) = false ∧ v ∉ s.me.vPend
def WroteK (s t : State) (d : BitVec 3) (v : BitVec 1024) : Prop :=
  ∀ r, t.me.rK r = if r = d ∧ r ≠ 0 then v else s.me.rK r
def SameK (s t : State) : Prop := ∀ r, t.me.rK r = s.me.rK r
def SameV (s t : State) : Prop := ∀ v, t.me.rV v = s.me.rV v
/-- The lanes of V[d] hold `f`, and every other V register is as before. -/
def WroteV (s t : State) (d : BitVec 9) (f : Nat → W32) : Prop :=
  (∀ l, l < 1024 → t.slot d l = f l) ∧ ∀ v, v ≠ d.toNat → t.me.rV v = s.me.rV v

/-- A core without its vector and mask registers. -/
def Core.hideVK (k : Core) : Core := { k with v := [], dirtyV := 0, k := Vector.replicate 8 0 }
/-- The same, and without the flags of a strand. -/
def Core.hideVec (st : Strand) (k : Core) : Core := k.hideVK.modStrand st (fun x => { x with fpc := 0 })

/-- The checks of a strided access that are its shape's and its address's (R208). -/
structure BlockOk (s : State) (t : Elem) (sh : Shape) (va : W64) : Prop where
  shape : shapeOk t sh.rows sh.cols = true
  stride : 1 < sh.rows → rowBytes t sh.cols ≤ sh.stride ∧ sh.stride % ealign t = 0
  aligned : va.toNat % ealign t = 0
  one : straddles s s.me.ctxOf va.toNat (sh.span t) = false

/-- An operation of a timeline context is queued with the next number, for the issuing cell, with what it captured
(R209, R255). -/
structure Queued (x : TlCtx) (i : Instr) (args : List W64) (data : SMap W32) (pins : List W64) (s t : State) : Prop where
  ops : t.me.opsOf x = s.me.opsOf x ++ [(⟨(s.me.tlOf x).issued + 1, i, s.cur.st, s.fpcNow, s.attr, args, data, 0, pins, false, 0,
    [], s.me.ctxOf, s.me.cls, s.me.launchid, s.me.cell, false⟩ : Op)]
  others : ∀ y, y ≠ x → t.me.opsOf y = s.me.opsOf y
  number : (t.me.tlOf x).issued = (s.me.tlOf x).issued + 1
  out : (t.me.tlOf x).out = (s.me.tlOf x).out ++ [(s.me.tlOf x).issued + 1]

/-! ### Lanes (R184 to R205) -/

/-- An exact integer as a slot of an integer type: wrapped, or clamped to the type's range under SAT (R191). -/
def intLane (t : VTy) (sat : Bool) (x : Int) : W32 :=
  if sat then (if t = .n32 then BitVec.ofInt 32 (max 0 (min x (2 ^ 32 - 1)))
    else BitVec.ofInt 32 (max (-(2 ^ 31)) (min x (2 ^ 31 - 1))))
  else BitVec.ofInt 32 x
/-- A slot's value as an integer type has it. -/
def intVal (t : VTy) (w : W32) : Int := if t = .n32 then w.toNat else w.toInt
/-- A lane of an arithmetic instruction: the F32 function, or the exact integer one (R190, R191). -/
def arith (t : VTy) (sat : Bool) (f : W32 × Flags) (x : Int) : W32 × Flags := if t = .f32 then f else (intLane t sat x, 0)

/-- The mask register, the destination, the sources and the lanes of a vector instruction that writes each selected lane of
V[d] from lanes of its sources; K0 selects all. -/
def vecValue (s : State) : Instr → Option (Clause × BitVec 3 × BitVec 9 × List (BitVec 9) × (Nat → W32 × Flags)) :=
  let f := s.fpcNow
  let x (v : BitVec 9) (l : Nat) : W32 := s.slot v l
  let n (t : VTy) (v : BitVec 9) (l : Nat) : Int := intVal t (s.slot v l)
  fun
  | .vadd c t k sat d a b => some (c, k, d, [d, a, b], fun l => arith t sat (fpAdd f (x a l) (x b l)) (n t a l + n t b l))
  | .vsub c t k sat d a b => some (c, k, d, [d, a, b], fun l => arith t sat (fpSub f (x a l) (x b l)) (n t a l - n t b l))
  | .vmul c t k sat d a b => some (c, k, d, [d, a, b], fun l => arith t sat (fpMul f (x a l) (x b l)) (n t a l * n t b l))
  | .vfma c t k sat d a b e => some (c, k, d, [d, a, b, e], fun l =>
      arith t sat (fpFma f false (x a l) (x b l) (x e l)) (n t a l * n t b l + n t e l))
  | .vfnma c t k sat d a b e => some (c, k, d, [d, a, b, e], fun l =>
      arith t sat (fpFma f true (x a l) (x b l) (x e l)) (n t e l - n t a l * n t b l))
  | .vmin c t k d a b => some (c, k, d, [d, a, b], fun l =>
      (if t = .f32 then f32Pick false (x a l) (x b l) else if n t a l ≤ n t b l then x a l else x b l, 0))
  | .vmax c t k d a b => some (c, k, d, [d, a, b], fun l =>
      (if t = .f32 then f32Pick true (x a l) (x b l) else if n t a l ≤ n t b l then x b l else x a l, 0))
  | .vabs c t k sat d a => some (c, k, d, [d, a], fun l => arith t sat (f32Abs (x a l), 0) |n t a l|)
  | .vneg c t k sat d a => some (c, k, d, [d, a], fun l => arith t sat (f32Neg (x a l), 0) (-n t a l))
  | .vrcp c k d a => some (c, k, d, [d, a], fun l => fRcp (rmOf f) (ftzOf f) (fpIn f (x a l)))
  | .vrsq c k d a => some (c, k, d, [d, a], fun l => fRsq (rmOf f) (ftzOf f) (fpIn f (x a l)))
  | .vexp2 c k d a => some (c, k, d, [d, a], fun l => fExp2 (rmOf f) (ftzOf f) (fpIn f (x a l)))
  | .vlog2 c k d a => some (c, k, d, [d, a], fun l => fLog2 (rmOf f) (ftzOf f) (fpIn f (x a l)))
  | .vsel c k d a b => some (c, 0, d, [d, a, b], fun l => (if (s.me.rK k).getLsbD l then x a l else x b l, 0))
  | .vmov c k d a => some (c, k, d, [d, a], fun l => (x a l, 0))
  | .vand c k d a b => some (c, k, d, [d, a, b], fun l => (x a l &&& x b l, 0))
  | .vor c k d a b => some (c, k, d, [d, a, b], fun l => (x a l ||| x b l, 0))
  | .vxor c k d a b => some (c, k, d, [d, a, b], fun l => (x a l ^^^ x b l, 0))
  | .vshl c k d a (.reg b) => some (c, k, d, [d, a, b], fun l => (x a l <<< ((x b l).toNat % 32), 0))
  | .vshl c k d a (.imm i) => some (c, k, d, [d, a], fun l => (x a l <<< i.toNat, 0))
  | .vshr c k d a (.reg b) => some (c, k, d, [d, a, b], fun l => (x a l >>> ((x b l).toNat % 32), 0))
  | .vshr c k d a (.imm i) => some (c, k, d, [d, a], fun l => (x a l >>> i.toNat, 0))
  | .vsra c k d a (.reg b) => some (c, k, d, [d, a, b], fun l => ((x a l).sshiftRight ((x b l).toNat % 32), 0))
  | .vsra c k d a (.imm i) => some (c, k, d, [d, a], fun l => ((x a l).sshiftRight i.toNat, 0))
  | .vmovi c d (.reg a) => some (c, 0, d, [d], fun _ => ((s.rA a).setWidth 32, 0))
  | .vmovi c d (.imm i) => some (c, 0, d, [d], fun _ => (i.signExtend 32, 0))
  | .viota c d a step => some (c, 0, d, [d], fun l => ((s.rA a).setWidth 32 + BitVec.ofInt 32 (step.toInt * l), 0))
  | .atov c d a row col => some (c, 0, d, [d], fun l =>
      (if l = 64 * row.toNat + col.toNat then (s.rA a).setWidth 32 else x d l, 0))
  | .vcvt c dst src k sat d a => some (c, k, d, [d, a], fun l => laneCvt f sat dst src (x a l))
  | .vlcvt c t k sat d a => some (c, k, d, [d, a], fun l => laneLcvt t sat (x a l))
  | .vlexp c _ k d a => some (c, k, d, [d, a], fun l => (laneLexp (x a l), 0))
  | .vlmul c t k sat d a b => some (c, k, d, [d, a, b], fun l => laneLmul t sat (x a l) (x b l))
  | .vpack6 c sat d a => some (c, 0, d, [d, a], fun l =>
      (if l % 64 < 12 then
        BitVec.ofNat 32 (string6 (fun i => pack6 sat (x a (64 * (l / 64) + i))) / 2 ^ (32 * (l % 64))) else 0, 0))
  | .vunpk6 c d a => some (c, 0, d, [d, a], fun l =>
      (slotOf (sextN 6 (stringOf (fun j => x a (64 * (l / 64) + j)) / 2 ^ (6 * (l % 64)))), 0))
  | .vexpd c k d a => some (c, 0, d, [d, a], fun l =>
      let m := s.me.rK k
      let r := l / 64
      let g := l % 64 / 4
      (if metaIdx m r (2 * g + 1) = l % 4 then x a (64 * r + (2 * g + 1))
       else if metaIdx m r (2 * g) = l % 4 then x a (64 * r + 2 * g) else 0, 0))
  | .vrotr c k d a m => some (c, k, d, [d, a], fun l => (x a (64 * (l / 64) + (l % 64 + 64 - m.toNat) % 64), 0))
  | .vrotc c k d a m => some (c, k, d, [d, a], fun l => (x a (64 * ((l / 64 + 16 - m.toNat) % 16) + l % 64), 0))
  | .vbcr c k d a m => some (c, k, d, [d, a], fun l => (x a (64 * (l / 64) + m.toNat), 0))
  | .vbcc c k d a m => some (c, k, d, [d, a], fun l => (x a (64 * m.toNat + l % 64), 0))
  | _ => none

/-- The flags that the selected lanes raise (R187). -/
def laneFlags (m : BitVec 1024) (f : Nat → Flags) : Flags :=
  (List.range 1024).foldl (fun (a : Flags) l => if m.getLsbD l then a ||| f l else a) 0

/-- The results and the flags of a reduction or a scan (R203). -/
def redValue (s : State) : Instr → Option (Clause × BitVec 9 × BitVec 9 × (Nat → W32) × Flags)
  | .vredr c t op k d a =>
    let ns := (List.range 16).map (fun r => treeTop (comb s.fpcNow t op) 6 ((List.range 64).map (nodeOf s k a r)))
    some (c, d, a, fun l => ((ns.getD (l / 64) (none, 0)).1).getD (redId t op), ns.foldl (fun (f : Flags) n => f ||| n.2) 0)
  | .vredc c t op k d a =>
    let ns := (List.range 64).map (fun i => treeTop (comb s.fpcNow t op) 4 ((List.range 16).map (fun r => nodeOf s k a r i)))
    some (c, d, a, fun l => ((ns.getD (l % 64) (none, 0)).1).getD (redId t op), ns.foldl (fun (f : Flags) n => f ||| n.2) 0)
  | .vscnr c t op excl k d a =>
    let g := comb s.fpcNow t op
    let row (r i : Nat) : Node := ((List.range i).map (nodeOf s k a r)).foldl g (none, 0)
    some (c, d, a, fun l => ((row (l / 64) (l % 64 + (if excl then 0 else 1))).1).getD (redId t op),
      (List.range 16).foldl (fun (f : Flags) r => f ||| (row r 64).2) 0)
  | _ => none

/-- A core without its operations. -/
def Core.hideOps (k : Core) : Core := { k.hideAccess with tl := Vector.replicate 4 .init, ops := Vector.replicate 4 [] }
/-- A core without its operations and tiles. -/
def Core.hideFill (k : Core) : Core := { k.hideTiles.hideOps with pins := [] }

/-! ### The matrix engine (R164 to R183) -/

/-- The checks of a product at issue, after its lease (R177, R178, R295). -/
structure ProductOk (s : State) (p : Product) : Prop where
  width : MFmt.wide p.fa = MFmt.wide p.fb
  rows : if p.gang then p.zrow = 0 else p.m ≤ 128 ∧ p.zrow + p.m ≤ 128
  cols : p.zcol + p.n ≤ 512
  bank : ∀ b, p.a = .bank b → p.ma ≠ 0 →
    s.me.lent.getLsbD b.toNat = true ∧ p.ma ≤ 128 ∧ (p.ma + 15) / 16 * ((p.k + 63) / 64) ≤ 32
  va : ∀ r, p.a = .va r → p.ma ≠ 0 → p.ax.toNat % MFmt.size p.fa = 0 ∧ p.as_.toNat % MFmt.size p.fa = 0
  bva : p.bva = true → suppliesB s.cur.core p = true →
    ∀ g ∈ p.groups.head?, g.2.1.toNat % MFmt.size p.fb = 0 ∧ g.2.2.1.toNat % MFmt.size p.fb = 0
  one : ∀ r, p.a = .va r → ∀ q ∈ vaRows p.ax p.as_ p.ma (p.k * MFmt.size p.fa), straddles s s.me.ctxOf q.1 q.2 = false
  oneB : p.bva = true → suppliesB s.cur.core p = true → ∀ g ∈ p.groups.head?,
    ∀ q ∈ vaRows g.2.1 g.2.2.1 p.k (p.n * MFmt.size p.fb), straddles s s.me.ctxOf q.1 q.2 = false
  bits : ∀ x ∈ p.tiles (suppliesB s.cur.core p), handleBits x.1 0 = none
  here : ∀ x ∈ p.tiles (suppliesB s.cur.core p), atHome s x.1 = true → operandBad s s.me.ctxOf x = none

/-- The core's lease serves a product of a kind: held, and not past its cycles (R166, R168). -/
abbrev Leased (s : State) (gang : Bool) : Prop :=
  s.me.lease.st = .held ∧ s.cycle < s.me.lease.since + 65536 ∧ s.me.lease.gang = gang

/-- A product is queued with its operands pinned, and the lease counts it; the sixteenth ends it (R166, R177). -/
structure ProductQueued (i : Instr) (p : Product) (args : List W64) (c : Clause) (s t : State) : Prop where
  queued : Queued .mx i args (match p.a with | .bank b => captureBlock s.me (32 * b.toNat) 32 | _ => [])
    ((p.tiles (suppliesB s.cur.core p)).map (·.1)) s t
  used : t.me.lease.used = s.me.lease.used + 1
  lease : t.me.lease.st = if 16 ≤ s.me.lease.used + 1 then .none else .held
  sameA : SameA s t
  sameV : SameV s t
  sameH : SameH s t
  bytes : SameBytes s t
  ran : WideRan 2 c ⟨false, 0⟩ (fun x => { x with msgs := [] }) (fun k => { k.hideFill with lease := .init }) s t

/-- The state in which a die's Dealer chooses: its reservations brought up to date (R70). -/
def withResv (die : Nat) (s : State) : State :=
  let s := updateResv die s
  updateResv die (waitGangs die (s.launches.length + 1) (candidates s die) s)

/-! ### Steps that are no instructions -/

/-- What a step of the device may change, hidden: `g` on the device, `f` on one core. All the rest of the device, every
other core, and all the rest of that core are as before. -/
structure StepAt (c : Nat) (g : State → State) (f : Core → Core) (s t : State) : Prop where
  rest : g { t with cores := [] } = g { s with cores := [] }
  others : ∀ c', c' ≠ c → t.core c' = s.core c'
  core : f (t.core c) = f (s.core c)

/-- Two ranges of addresses that share none. -/
abbrev Apart (p n q m : Nat) : Prop := p + n ≤ q ∨ q + m ≤ p

/-- The pins of an operation are its core's own, and no unpin of it is on its way: it is complete as it ends (R86, R98). -/
def Unpins (s : State) (c : Nat) (x : TlCtx) (o : Op) : Prop :=
  unpinPending s c x o.n = false ∧ ∀ h ∈ o.pins, counted h = true → homeHere s h = true ∧ hCore h = c

/-- Operation `n` of a context of a core has completed (R86, R255): it is in no queue, its number is not outstanding,
and the core's event latch is set (R320). -/
structure OpDone (c : Nat) (x : TlCtx) (n : Nat) (t : State) : Prop where
  gone : ∀ o ∈ (t.core c).opsOf x, o.n ≠ n
  out : n ∉ ((t.core c).tlOf x).out
  latch : (t.core c).latch = true

/-- The tile that an operation was filling is FULL. -/
def Filled (o : Op) (t : State) : Prop :=
  (t.folio (hCore (o.args.headD 0)) (hFolio (o.args.headD 0))).state = .full

/-- Packet `k` of those that are up is of operation `op`, in the class of its operation, came from a device, and is the next
in its sequence (R302, R303). -/
structure PktDue (s : State) (k : Nat) (p : Packet) (op : Nat) : Prop where
  at_ : s.net.inbox[k]? = some p
  op_ : p.op = op
  cls : p.cls = 1 ↔ 4 ≤ op ∧ op ≤ 6
  device : p.port ≠ 30 ∧ p.port ≠ 31 ∧ p.port < 62
  numbered : p.last = false ∧ p.seq < 2 ^ 32
  seq : p.seq = wanted s p

/-- The state with that packet taken: the next number of its source and class is expected (R303). -/
def State.taken (s : State) (k : Nat) (p : Packet) : State :=
  { s with net := { s.net with
    inbox := s.net.inbox.eraseIdx k
    nextIn := put (p.src * 4 + p.cls) ((wanted s p + 1) % 2 ^ 32) s.net.nextIn } }

/-- A packet is answered with an operation and bytes (R302): the next number toward its source is used up, and where the
source is this device, the answer has come in. -/
structure Answered (p : Packet) (op : Nat) (body : List Byte) (s t : State) : Prop where
  number : look (p.src * 4 + 1) t.net.nextOut = some (((look (p.src * 4 + 1) s.net.nextOut).getD 0 + 1) % 2 ^ 32)
  own : p.src = s.dev % 256 → ∃ q, t.net.inbox = s.net.inbox ++ [q] ∧ q.op = op ∧ q.cls = 1 ∧ q.src = p.src ∧
    q.off = answerKey p.cls p.seq ∧ q.payload = body

/-- A host command is answered on host port 30 with a status and data (R335). -/
def Responded (status : Nat) (data : List W64) (s t : State) : Prop :=
  t.resp = s.resp ++ [(30, BitVec.ofNat 64 (status * 256) :: data)]

end Sys2Proof.Machine
end

