-- ==== Sys2Proof/Certificates/Slice0/Obligations.lean ====
section
/-! DEFINITION. The statements for the provers. Each says which rules of spec/ it formalises. -/

open Sys2Proof Sys2Proof.Machine

/-! ### Words -/

/-- R43 to R54: what the encoder writes for an instruction, with every operand at every value its encoding admits, the
decoder of each strand that fetches it reads back as that instruction. -/
def Obligations.EncodingRoundTrips : Prop :=
  ∀ i : Instr, i.wf = true →
    (i.inStrand .ctl = true → decodeCtl (encodeCtl i) = some i) ∧
    (∀ st, st ≠ .ctl → i.inStrand st = true → decodeWide st (encodeWide i) (encodeSecond i) = some i)

/-! ### CTL: integers, predicates, branches -/

/-- R119 to R125: an integer instruction of CTL writes its value to S[d] and goes on; S0 stays 0, and nothing else of
the device changes but the accounts of the issue (R79). R119, R122: what CLZ, CTZ, POPC, BSWAP and LIK compute, bit by
bit. -/
def Obligations.IntegerResults : Prop :=
  (∀ (i : Instr) (s : State) (d : BitVec 6) (v : W64), intValue s i = some (d, v) → Steady s →
     ∃ t, exec i s = .next t ∧ WroteS s t d v ∧ SameP s t ∧ CtlNext s t ∧ CtlOnly s t) ∧
  (∀ x : W64, (∀ n, n < (clz64 x).toNat → x.getLsbD (63 - n) = false) ∧ (clz64 x).toNat ≤ 64 ∧
      ((clz64 x).toNat < 64 → x.getLsbD (63 - (clz64 x).toNat) = true)) ∧
  (∀ x : W64, (∀ n, n < (ctz64 x).toNat → x.getLsbD n = false) ∧ (ctz64 x).toNat ≤ 64 ∧
      ((ctz64 x).toNat < 64 → x.getLsbD (ctz64 x).toNat = true)) ∧
  (∀ x : W64, (popc64 x).toNat = ((List.range 64).filter (fun n => x.getLsbD n)).length) ∧
  (∀ (x : W64) (n : Nat), n < 64 → (bswap64 x).getLsbD n = x.getLsbD (56 - n / 8 * 8 + n % 8)) ∧
  (∀ (x : W64) (k : BitVec 2) (i : BitVec 16) (n : Nat), n < 64 →
    (likWord x k i).getLsbD n = if n / 16 = k.toNat then i.getLsbD (n % 16) else x.getLsbD n)

/-- R119, R120: a division by a divisor that is not zero. R120: a divisor of zero traps with INT_DIV0 (0x10), at the
division, with every register as it was. R123, R124: a compare or a predicate instruction writes P[d]; P0 stays 1. -/
def Obligations.DivisionsAndPredicates : Prop :=
  (∀ (i : Instr) (s : State) (d : BitVec 6) (v y : W64), divValue s i = some (d, v, y) → y ≠ 0 → Steady s →
     ∃ t, exec i s = .next t ∧ WroteS s t d v ∧ SameP s t ∧ CtlNext s t ∧ CtlOnly s t) ∧
  (∀ (i : Instr) (s : State) (d : BitVec 6) (v : W64), divValue s i = some (d, v, 0) →
     exec i s = .next (takeTrap s.cur.core .ctl ⟨0x10, 0, 0, none, none⟩ s)) ∧
  (∀ (i : Instr) (s : State) (d : BitVec 3) (v : Bool), predValue s i = some (d, v) → Steady s →
     ∃ t, exec i s = .next t ∧ WroteP s t d v ∧ SameS s t ∧ CtlNext s t ∧ CtlOnly s t)

/-- R126, R127, R36: a branch taken, a call or a jump goes to its target and ends the loop it leaves; a call writes
the address of the next word to S63. A jump through a register to an address that is no multiple of 4 traps with
PC_ALIGN and that address. -/
def Obligations.BranchesAndJumps : Prop :=
  ∀ (i : Instr) (s : State) (target : W64) (link : Bool), jumpValue s i = some (target, link) → Steady s →
    (¬(throughReg i = true ∧ target.toNat % 4 ≠ 0) →
      ∃ t, exec i s = .next t ∧ t.me.ctl.pc = target ∧ t.me.ctl.loop = none ∧
        (if link then WroteS s t 63 (s.me.ctl.pc + 4) else SameS s t) ∧ SameP s t ∧ CtlOnly s t) ∧
    (throughReg i = true → target.toNat % 4 ≠ 0 →
      exec i s = .next (takeTrap s.cur.core .ctl ⟨0x01, target, 0, none, none⟩ s))

/-- R129, R126, R36: NOP and a branch that is not taken go on to the next word in execution order and change nothing;
at the end of a loop's body that is the body's first word, with one pass less, and after the last pass the word behind
it. R36, R130: LOOP enters its body of n + 1 words, captured as it stands, with S[a] passes; a count of zero skips it.
A LOOP inside a running loop, or a body that holds a LOOP, is ILLEGAL_OP (0x00). -/
def Obligations.NextWords : Prop :=
  (∀ (i : Instr) (s : State), goesOn s i = true → Steady s →
    ∃ t, exec i s = .next t ∧ SameS s t ∧ SameP s t ∧ CtlNext s t ∧ CtlOnly s t) ∧
  (∀ (x : StrandSt) (word size : Nat), x.loop = none → (x.advance word size).pc = x.pc + BitVec.ofNat 64 size ∧
    (x.advance word size).loop = none) ∧
  (∀ (x : StrandSt) (l : LoopSt) (word size : Nat), x.loop = some l →
    (x.pc + BitVec.ofNat 64 size ≠ l.start + BitVec.ofNat 64 (l.len * word) →
      (x.advance word size).pc = x.pc + BitVec.ofNat 64 size ∧ (x.advance word size).loop = some l) ∧
    (x.pc + BitVec.ofNat 64 size = l.start + BitVec.ofNat 64 (l.len * word) → 1 < l.left.toNat →
      (x.advance word size).pc = l.start ∧ (x.advance word size).loop = some { l with left := l.left - 1 }) ∧
    (x.pc + BitVec.ofNat 64 size = l.start + BitVec.ofNat 64 (l.len * word) → l.left.toNat ≤ 1 →
      (x.advance word size).pc = x.pc + BitVec.ofNat 64 size ∧ (x.advance word size).loop = none)) ∧
  (∀ (s : State) (a n : BitVec 6) (body : List (Option W64)),
     bodyWords s s.cur.core .ctl s.mode (s.me.ctl.pc + 4) (n.toNat + 1) = body → Steady s →
     (s.me.ctl.loop = none → ctlBodyBad body = false →
       ∃ t, exec (.loop a n) s = .next t ∧ SameS s t ∧ SameP s t ∧ CtlOnly s t ∧
         (s.rS a ≠ 0 → t.me.ctl.pc = s.me.ctl.pc + 4 ∧
           t.me.ctl.loop = some { start := s.me.ctl.pc + 4, len := n.toNat + 1, left := s.rS a, body }) ∧
         (s.rS a = 0 → t.me.ctl.pc = s.me.ctl.pc + 4 + BitVec.ofNat 64 (4 * (n.toNat + 1)) ∧ t.me.ctl.loop = none)) ∧
     (s.me.ctl.loop ≠ none ∨ ctlBodyBad body = true →
       exec (.loop a n) s = .next (takeTrap s.cur.core .ctl ⟨0x00, 0, 0, none, none⟩ s)))

/-! ### Control and status registers -/

/-- R58, R133, R139: CSRR and ACSRR of a register that the strand's mode may read complete: S[d] or A[d] holds the
register, and nothing else changes but what an issue changes. What each number of R58's table reads; STRAND (R59) holds the
device, die, core and strand. R58: a word that names a number outside the table, or that writes a register no mode may
write, is no instruction. What PRESSLEN and RASWIN read between a write and the boundary is the model's choice (log 82). -/
def Obligations.CsrReads : Prop :=
  (∀ (s : State) (d : BitVec 6) (n : BitVec 12), csrListed n = true → csrMayRead s.mode n.toNat = true → Steady s →
    ∃ t, exec (.csrr d n) s = .next t ∧ WroteS s t d (csrRead s s.cur.core s.cur.st n.toNat) ∧ SameP s t ∧ CtlNext s t ∧
      CtlOnly s t) ∧
  (∀ (c : Clause) (s : State) (ad : BitVec 5) (n : BitVec 12), csrListed n = true → csrMayRead .u n.toNat = true →
    WideReady c s →
    ∃ t, exec (.acsrr c ad n) s = .next t ∧ WroteA s t ad (csrRead s s.cur.core s.cur.st n.toNat) ∧
      WideRan 1 c ⟨false, 0⟩ id id s t) ∧
  (∀ (s : State) (c : Nat) (st : Strand), ∀ p ∈ csrTable s c st, csrRead s c st p.1 = p.2) ∧
  (∀ (s : State) (c : Nat) (st : Strand) (i : Nat), i < 4 →
    csrRead s c st (0x010 + i) = vget 0 (s.core c).dmemb i) ∧
  (∀ (s : State) (c : Nat) (st : Strand) (i : Nat), i < 8 → csrRead s c st (0x040 + i) =
    BitVec.ofNat 64 (vget 0 (s.core c).wallowOut i * 2 ^ 32 + vget 256 (s.ctx (s.core c).ctxOf).wallow i)) ∧
  (∀ (w : W32) (r : BitVec 6) (n : BitVec 12),
    (decodeCtl w = some (.csrr r n) → csrListed n = true) ∧ (decodeCtl w = some (.csrw r n) → csrWritable n = true)) ∧
  (∀ (st : Strand) (w v : W64) (c : Clause) (r : BitVec 5) (n : BitVec 12),
    (decodeWide st w v = some (.acsrr c r n) → csrListed n = true) ∧
    (decodeWide st w v = some (.acsrw c r n) → csrWritable n = true))

/-- R58, R133: CSRW of a register that takes its writable bits as they are: it then reads as those bits, every other
register reads as before, and nothing else changes. R60, R61, R81, R133, R139, R160, R286, R309: the other registers.
MODDEF keeps a field that is given an unassigned code; SAVEDST takes bits 13 and 12 alone; CTXID and VFID are written
together; PTBASE takes bits 51 to 16; PRESSLEN is taken for the next period, if it lies between 4,096 and 2^24. ACSRW
writes its own strand's FPC and MODDEF. -/
def Obligations.CsrWrites : Prop :=
  (∀ (s : State) (a : BitVec 6) (n : BitVec 12) (m : W64), (n.toNat, m) ∈ csrMasks →
     csrMayWrite s.mode n.toNat = true → s.cur.st = .ctl → Steady s →
     ∃ t, exec (.csrw a n) s = .next t ∧ csrRead t s.cur.core .ctl n.toNat = s.rS a &&& m ∧
       (∀ n', n' ≠ n.toNat → csrRead t s.cur.core .ctl n' = csrRead s s.cur.core .ctl n') ∧ SameS s t ∧ SameP s t ∧
       CtlRan (fun x => { x with presscnt := 0 }) Core.hideCsr s t) ∧
  (∀ (s : State) (a : BitVec 6), s.cur.st = .ctl → Steady s →
    ∃ t, exec (.csrw a 0x001) s = .next t ∧ t.me.ctl.moddef = moddefWrite s.me.ctl.moddef (s.rS a) ∧ SameS s t ∧ SameP s t ∧
      CtlRan id (fun k => { k with ctl := { k.ctl with moddef := 0 } }) s t) ∧
  (∀ (old : W32) (v : W64),
    fld (moddefWrite old v) 0 3 = (if (fld v 0 3).toNat < 4 then fld v 0 3 else fld old 0 3) ∧
    fld (moddefWrite old v) 3 3 = (if (fld v 3 3).toNat < 5 then fld v 3 3 else fld old 3 3) ∧
    fld (moddefWrite old v) 6 3 = (if (fld v 6 3).toNat < 5 then fld v 6 3 else fld old 6 3)) ∧
  (∀ (s : State) (a : BitVec 6), s.mode ≠ .u → Steady s →
    ∃ t, exec (.csrw a 0x105) s = .next t ∧
      (∀ i, t.me.savedst.getLsbD i = if i = 12 ∨ i = 13 then (s.rS a).getLsbD i else s.me.savedst.getLsbD i) ∧
      SameS s t ∧ SameP s t ∧ CtlRan id (fun k => { k with savedst := 0 }) s t) ∧
  (∀ (s : State) (a : BitVec 6), s.mode = .m → Steady s →
    ∃ t, exec (.csrw a 0x110) s = .next t ∧ t.me.ctxid = s.rS a &&& 0x0000FFFFFFFF01FF ∧ t.me.vfid = s.rS a &&& 0x1FF ∧
      SameS s t ∧ SameP s t ∧ CtlRan id (fun k => { k with ctxid := 0, vfid := 0 }) s t) ∧
  (∀ (s : State) (a : BitVec 6), s.mode = .m → Steady s →
    ∃ t, exec (.csrw a 0x021) s = .next t ∧
      t.presslenNext = (let n := (s.rS a).toNat % 2 ^ 32; if 4096 ≤ n ∧ n ≤ 2 ^ 24 then n else s.presslenNext) ∧
      SameS s t ∧ SameP s t ∧ CtlRan (fun x => { x with presslenNext := 0 }) id s t) ∧
  (∀ (c : Clause) (s : State) (aa : BitVec 5), WideReady c s →
    (∃ t, exec (.acsrw c aa 0x000) s = .next t ∧ t.my.fpc = (s.rA aa).setWidth 32 &&& 0xFFFF ∧ SameA s t ∧
      WideRan 1 c ⟨false, 0⟩ id (fun k => k.modStrand s.cur.st (fun x => { x with fpc := 0 })) s t) ∧
    (∃ t, exec (.acsrw c aa 0x001) s = .next t ∧ t.my.moddef = moddefWrite s.my.moddef (s.rA aa) ∧ SameA s t ∧
      WideRan 1 c ⟨false, 0⟩ id (fun k => k.modStrand s.cur.st (fun x => { x with moddef := 0 })) s t))

/-- R60, R61, R81, R160, R183, R286: the register writes as steps of their own. -/
def Obligations.RegisterWriteSteps : Prop :=
  (∀ (c : Nat) (st : Strand) (v : W64) (s : State), ∃ t, exec (.fpcWrite c st v) s = .next t ∧
    ((t.core c).strand st).fpc = v.setWidth 32 &&& 0xFFFF ∧ (∀ c', c' ≠ c → t.core c' = s.core c') ∧ t.mem = s.mem ∧
    (∀ st', st' ≠ st → (t.core c).strand st' = (s.core c).strand st')) ∧
  (∀ (c : Nat) (st : Strand) (v : W64) (s : State), ∃ t, exec (.moddefWrite c st v) s = .next t ∧
    ((t.core c).strand st).moddef = moddefWrite ((s.core c).strand st).moddef v ∧
    (∀ c', c' ≠ c → t.core c' = s.core c') ∧ t.mem = s.mem ∧
    (∀ st', st' ≠ st → (t.core c).strand st' = (s.core c).strand st')) ∧
  (∀ (c : Nat) (v : W64) (s : State), ∃ t, exec (.ptbaseWrite c v) s = .next t ∧
    (t.ctx (s.core c).ctxOf).ptbase = v &&& 0x000FFFFFFFFF0000 ∧ t.mem = s.mem) ∧
  (∀ (c : Nat) (v : W64) (s : State), ∃ t, exec (.mrowpWrite c v) s = .next t ∧
    (((s.core c).tlOf .mx).stopped = true → (t.core c).mrowp = v.toNat % 1024) ∧
    (((s.core c).tlOf .mx).stopped = false → ((s.core c).tlOf .mx).mark = none → t = s) ∧
    (∀ c', c' ≠ c → t.core c' = s.core c') ∧ t.mem = s.mem) ∧
  (∀ (v : W64) (s : State), ∃ t, exec (.presslenWrite v) s = .next t ∧ t.presslen = s.presslen ∧
    t.presslenNext = (let n := v.toNat % 2 ^ 32; if 4096 ≤ n ∧ n ≤ 2 ^ 24 then n else s.presslenNext) ∧
    t.cores = s.cores ∧ t.mem = s.mem) ∧
  (∀ (c : Nat) (v : W64) (s : State), ∃ t, exec (.ctxidWrite c v) s = .next t ∧
    (t.core c).ctxid = v &&& 0x0000FFFFFFFF01FF ∧ (t.core c).vfid = v &&& 0x1FF ∧
    (∀ c', c' ≠ c → t.core c' = s.core c') ∧ t.mem = s.mem) ∧
  (∀ (c : Nat) (v : W64) (s : State), ∃ t, exec (.vfidWrite c v) s = .next t ∧
    (t.core c).vfid = v &&& 0x1FF ∧ fld (t.core c).ctxid 0 9 = fld v 0 9 ∧
    (∀ i, 9 ≤ i → i < 64 → (t.core c).ctxid.getLsbD i = (s.core c).ctxid.getLsbD i) ∧
    (∀ c', c' ≠ c → t.core c' = s.core c') ∧ t.mem = s.mem)

/-- R58, R315: a register that the strand's mode may not read or write, and an instruction of the privileged ones in U
mode, is PRIV_ACCESS (0x02), before anything else. R131, R132, R284: an LDS or STS whose address has a bit set above
bit 51 or is not aligned, and an STS to the tile window, traps with the address and changes nothing. -/
def Obligations.PrivilegeAndAddressTraps : Prop :=
  (∀ (s : State) (d : BitVec 6) (n : BitVec 12), csrMayRead s.mode n.toNat = false →
    exec (.csrr d n) s = .next (takeTrap s.cur.core .ctl ⟨0x02, 0, 0, none, none⟩ s)) ∧
  (∀ (s : State) (a : BitVec 6) (n : BitVec 12), csrMayWrite s.mode n.toNat = false →
    exec (.csrw a n) s = .next (takeTrap s.cur.core .ctl ⟨0x02, 0, 0, none, none⟩ s)) ∧
  (∀ (s : State) (i : Instr) (d a b : BitVec 6), s.mode = .u →
    i ∈ [Instr.eret, .psave d a b, .prest d a b, .tlbi a b, .keyrev d a b, .slipr d, .preempt d a, .hput d a] →
    exec i s = .next (takeTrap s.cur.core .ctl ⟨0x02, 0, 0, none, none⟩ s)) ∧
  (∀ (s : State) (r a : BitVec 6) (off : BitVec 12) (z : Size),
     let ea := s.rS a + BitVec.ofInt 64 (off.toInt * sizeBytes z)
     (ea.toNat % sizeBytes z ≠ 0 → ∀ i ∈ [Instr.lds r a off z, .sts r a off z],
       exec i s = .next (takeTrap s.cur.core .ctl ⟨0x24, ea, 0, none, none⟩ s)) ∧
     (ea.toNat % sizeBytes z = 0 → fld ea 52 12 ≠ 0 → ∀ i ∈ [Instr.lds r a off z, .sts r a off z],
       exec i s = .next (takeTrap s.cur.core .ctl ⟨0x20, ea, 0, none, none⟩ s)) ∧
     (∀ c o, EaOk ea z → relPart s s.attr = .ok () → s.mode ≠ .m → regionOf ea.toNat = .tile c o →
       exec (.sts r a off z) s = .next (takeTrap s.cur.core .ctl ⟨0x21, ea, 0, none, none⟩ s)))

/-! ### CTL: memory -/

/-- R131, R237, R306: LDS of an aligned address reads its bytes, least significant first, zero-extended, into S[d]; no
byte of memory changes. R237, R306: what an access of the issuing strand at dev or sys scope reads at a page address
is what its home holds, once no write in the core's store path touches it; in M mode the address is physical. R131,
R240: a relaxed LDS may leave its value outstanding; CTL goes on, S[d] keeps its value until the data return. Which
loads may stay outstanding, which are performed ahead and what waits for them is the model's reading of R240 (log 10); that
a load whose bytes are poisoned since its issue returns what it found then is log 34's; the bytes charged are log 11's. -/
def Obligations.LoadsReturn : Prop :=
  (∀ (s : State) (d a : BitVec 6) (off : BitVec 12) (z : Size) (bs : List Byte) (s1 : State),
     let ea := s.rS a + BitVec.ofInt 64 (off.toInt * sizeBytes z)
     EaOk ea z → (s.choice 2 = false ∨ s.attr.o ≠ .rlx ∨ ¬PageAddress s ea ∨ s.mode = .m) →
     readVa s ea (sizeBytes z) = .ok (bs, s1) → s.cur.st = .ctl → Steady s →
     ∃ t, exec (.lds d a off z) s = .next t ∧ WroteS s t d (BitVec.ofNat 64 (leNat bs)) ∧ SameP s t ∧ SameBytes s t ∧
       CtlRan State.hideAccess Core.hideAccess s t) ∧
  (∀ (s : State) (ea : W64) (n : Nat) (tr : Tr), PageAddress s ea → (s.attr.s = .dev ∨ s.attr.s = .sys) →
     xlate s s.cur.core s.me.ctxOf s.mode ea.toNat false false = .ok tr →
     (∀ o ∈ s.me.stores, o.hits tr.pa n = false) → s.seenWrites s.cur.core (dieOf s.cur.core) tr.pa n = [] →
     s.aheadOf tr.pa n = [] → s.bad tr.pa n = false →
     (∃ s1, readVa s ea n = .ok (mgets memDefault s.mem tr.pa n, s1) ∧ SameBytes s s1) ∧ (s.mode = .m → tr.pa = ea.toNat)) ∧
  (∀ (s : State) (d a : BitVec 6) (off : BitVec 12) (z : Size) (tr : Tr),
    let ea := s.rS a + BitVec.ofInt 64 (off.toInt * sizeBytes z)
    EaOk ea z → s.choice 2 = true → s.attr.o = .rlx → s.mode ≠ .m → regionOf ea.toNat = .page →
    xlate s s.cur.core s.me.ctxOf s.mode ea.toNat false false = .ok tr → s.bad tr.pa (sizeBytes z) = false →
    (∀ o ∈ s.me.stores, o.hits tr.pa (sizeBytes z) = false) →
    s.seenWrites s.cur.core (dieOf s.cur.core) tr.pa (sizeBytes z) = [] → Steady s →
    ∃ t was, exec (.lds d a off z) s = .next t ∧
      t.me.loads = s.me.loads ++ [{ d, pa := tr.pa, n := sizeBytes z, attr := s.attr, was }] ∧ SameS s t ∧ SameP s t ∧
      SameBytes s t ∧ CtlRan id (fun k => { k with loads := [] }) s t) ∧
  (∀ (s : State) (core k : Nat) (l : LoadOp), (s.core core).loads[k]? = some l → (l.attr.s = .dev ∨ l.attr.s = .sys) →
    (∀ o ∈ (s.core core).stores, o.hits l.pa l.n = false) → s.seenWrites core (dieOf core) l.pa l.n = [] →
    ∃ t, exec (.loadReturn core k) s = .next t ∧
      (t.core core).rS l.d = (if l.d = 0 then 0 else
        BitVec.ofNat 64 (leNat (if s.bad l.pa l.n then l.was else mgets memDefault s.mem l.pa l.n))) ∧
      (∀ r, r ≠ l.d → (t.core core).rS r = (s.core core).rS r) ∧
      (t.core core).loads = (s.core core).loads.eraseIdx k ∧ (∀ c, c ≠ core → t.core c = s.core c) ∧ SameBytes s t)

/-- R132, R239: STS to a page puts its bytes in the core's store path; memory changes only when the write is
performed. To a window it is posted as writes of at most 256 bytes. R236, R239: a write leaves the core's store path
for its home: exactly its bytes change. A strand's writes are performed in program order, and two writes to the same
bytes in the order in which they left. R232, R238: a write that the narrow loads of a die already see is performed before
another core's write to its bytes. The store path and its order are the model's reading of R239 and R241 (log 10). -/
def Obligations.Stores : Prop :=
  (∀ (s : State) (r a : BitVec 6) (off : BitVec 12) (z : Size) (s1 : State),
     let ea := s.rS a + BitVec.ofInt 64 (off.toInt * sizeBytes z)
     EaOk ea z → relPart s s.attr = .ok () → s.cur.st = .ctl → Steady s →
     (∀ tr, PageAddress s ea → writePlace s ea = .ok (tr, s1) →
       ∃ t, exec (.sts r a off z) s = .next t ∧
         t.me.stores = s.me.stores ++
           [{ st := .ctl, pa := tr.pa, bytes := leBytes (sizeBytes z) (s.rS r).toNat, poison := false, seen0 := false,
              seen1 := false }] ∧
         SameS s t ∧ SameP s t ∧ SameBytes s t ∧ CtlRan State.hideAccess Core.hideStores s t) ∧
     (∀ w o, s.mode ≠ .m → regionOf ea.toNat = .window w o →
       winPost s ea w o (leBytes (sizeBytes z) (s.rS r).toNat) = .ok s1 →
       ∃ t, exec (.sts r a off z) s = .next t ∧ SameS s t ∧ SameP s t ∧ SameBytes s t ∧
         CtlRan State.hideAccess Core.hideAccess s t)) ∧
  (∀ (s : State) (core : Nat) (st : Strand) (i : Nat) (o : StoreOp), nextStore (s.core core) st = some (i, o) →
     (st = .ctl → (s.core core).loads = []) → s.seenWrites core 0 o.pa o.bytes.length = [] →
     s.seenWrites core 1 o.pa o.bytes.length = [] →
     (∃ t, exec (.storePerformed core st) s = .next t ∧
       (∀ a, mget memDefault t.mem a =
         if o.pa ≤ a ∧ a < o.pa + o.bytes.length then o.bytes.getD (a - o.pa) 0 else mget memDefault s.mem a) ∧
       (t.core core).stores = (s.core core).stores.eraseIdx i ∧
       (∀ c, c ≠ core → { t.core c with dc := [] } = { s.core c with dc := [] }) ∧
       (o.seen0 = false → o.seen1 = false → ∀ c, c ≠ core → t.core c = s.core c) ∧
       t.rest.hideMem = s.rest.hideMem ∧ (t.core core).hideStores = (s.core core).hideStores) ∧
     (s.core core).stores[i]? = some o ∧ o.st = st ∧
     (∀ j o', j < i → (s.core core).stores[j]? = some o' → o'.st ≠ st ∧ o'.hits o.pa o.bytes.length = false))

/-- R250, R251: ATOM and CAS at their home: S[d] takes the old value, the new one is stored, all at once; CAS stores
only where the old value is S[d]'s. -/
def Obligations.Atomics : Prop :=
  ∀ (s : State) (dword : Bool) (d a b : BitVec 6) (pa : Nat) (s1 : State),
    let n := if dword then 8 else 4
    let old := leNat (mgets memDefault s.mem pa n)
    RmwHere s (s.rS a) n pa s1 → s.cur.st = .ctl → Steady s →
    (∀ op, ∃ t, exec (.atom op dword d a b) s = .next t ∧ WroteS s t d (BitVec.ofNat 64 old) ∧ SameP s t ∧
      mgets memDefault t.mem pa n = leBytes n (rmwValue op n old ((s.rS b).toNat % 2 ^ (8 * n))) ∧
      SameBytesBut pa n s t ∧ CtlRan State.hideMem Core.hideAccess s t) ∧
    (∃ t, exec (.cas dword d a b) s = .next t ∧ WroteS s t d (BitVec.ofNat 64 old) ∧ SameP s t ∧
      mgets memDefault t.mem pa n =
        (if old = (s.rS d).toNat % 2 ^ (8 * n) then leBytes n ((s.rS b).toNat % 2 ^ (8 * n))
         else mgets memDefault s.mem pa n) ∧
      SameBytesBut pa n s t ∧ CtlRan State.hideMem Core.hideAccess s t)

/-- R248, R252, R253: the full/empty instructions at their word's home, with nothing parked on it. LDFE takes the word
and empties it, LDF takes it, STFE stores to an empty word and fills it, STF stores and fills it, FEPROBE reads the
tag. R248: an operation that its tag does not let complete parks, and its CTL waits; once the word changes, the parked
operations that may now complete do. -/
def Obligations.FullEmpty : Prop :=
  (∀ (s : State) (d a b : BitVec 6) (pa : Nat) (s1 : State), s.cur.st = .ctl → Steady s → NoPark s pa → pa % 8 = 0 →
     let word := BitVec.ofNat 64 (leNat (mgets memDefault s.mem pa 8))
     (FeHere .ldfe s (s.rS a) pa s1 → s.isFull pa = true →
       ∃ t, exec (.ldfe d a) s = .next t ∧ WroteS s t d word ∧ SameP s t ∧ t.isFull pa = false ∧ SameBytes s t ∧
         (∀ g, g ≠ pa / 8 → (g ∈ t.full ↔ g ∈ s.full)) ∧ CtlRan State.hideTag Core.hideAccess s t) ∧
     (FeHere .ldf s (s.rS a) pa s1 → s.isFull pa = true →
       ∃ t, exec (.ldf d a) s = .next t ∧ WroteS s t d word ∧ SameP s t ∧ t.full = s.full ∧ SameBytes s t ∧
         CtlRan State.hideAccess Core.hideAccess s t) ∧
     (FeHere .stfe s (s.rS a) pa s1 → s.isFull pa = false →
       ∃ t, exec (.stfe a b) s = .next t ∧ SameS s t ∧ SameP s t ∧ t.isFull pa = true ∧
         mgets memDefault t.mem pa 8 = leBytes 8 (s.rS b).toNat ∧ SameBytesBut pa 8 s t ∧
         (∀ g, g ≠ pa / 8 → (g ∈ t.full ↔ g ∈ s.full)) ∧ CtlRan State.hideTag Core.hideAccess s t) ∧
     (FeHere .stf s (s.rS a) pa s1 →
       ∃ t, exec (.stf a b) s = .next t ∧ SameS s t ∧ SameP s t ∧ t.isFull pa = true ∧
         mgets memDefault t.mem pa 8 = leBytes 8 (s.rS b).toNat ∧ SameBytesBut pa 8 s t ∧
         (∀ g, g ≠ pa / 8 → (g ∈ t.full ↔ g ∈ s.full)) ∧ CtlRan State.hideTag Core.hideAccess s t) ∧
     (FeHere .probe s (s.rS a) pa s1 →
       ∃ t, exec (.feprobe d a) s = .next t ∧ WroteS s t d (if s.isFull pa then 1 else 0) ∧ SameP s t ∧
         t.full = s.full ∧ SameBytes s t ∧ CtlRan State.hideAccess Core.hideAccess s t)) ∧
  (∀ (s : State) (d a : BitVec 6) (pa : Nat) (s1 : State), FeHere .ldfe s (s.rS a) pa s1 → s1.isFull pa = false →
    ∃ t, exec (.ldfe d a) s = .next t ∧ t.parks = s1.parks ++ [(⟨s.cur.core, .ldfe, pa, 0, d, feAttr .ldfe s.attr, none⟩ : Park)] ∧
      t.me.ctl.pc = s.me.ctl.pc ∧ SameS s t ∧ SameBytes s t) ∧
  (∀ (s : State) (d a : BitVec 6) (pa : Nat) (s1 : State), FeHere .ldf s (s.rS a) pa s1 → s1.isFull pa = false →
    ∃ t, exec (.ldf d a) s = .next t ∧ t.parks = s1.parks ++ [(⟨s.cur.core, .ldf, pa, 0, d, feAttr .ldf s.attr, none⟩ : Park)] ∧
      t.me.ctl.pc = s.me.ctl.pc ∧ SameS s t ∧ SameBytes s t) ∧
  (∀ (s : State) (a b : BitVec 6) (pa : Nat) (s1 : State), FeHere .stfe s (s.rS a) pa s1 → s1.isFull pa = true →
    ∃ t, exec (.stfe a b) s = .next t ∧
      t.parks = s1.parks ++ [(⟨s.cur.core, .stfe, pa, s.rS b, 0, feAttr .stfe s.attr, none⟩ : Park)] ∧
      t.me.ctl.pc = s.me.ctl.pc ∧ SameS s t ∧ SameBytes s t) ∧
  (∀ (s : State) (pa : Nat) (v : W64) (c : Nat) (p : Park), pa % 8 = 0 → s.parks = [p] → p.pa = pa → p.kind = .ldf →
    p.remote = none → (s.core p.core).stepArm = false →
    let t := fillWord c pa v s
    t.parks = [] ∧ t.isFull pa = true ∧ mgets memDefault t.mem pa 8 = leBytes 8 v.toNat ∧
      (t.core p.core).rS p.d = (if p.d = 0 then 0 else v) ∧
      (t.core p.core).ctl.pc = ((s.core p.core).ctl.advance 4 4).pc)

/-- R254, R255, R256, R320, R321: FENCE, the timeline instructions, WFE and ICFLUSH. R311: a mark on a timeline
context is raised, as a trap with ASYNC and CTX, by the instruction that waits on it; the mark is cleared. That a
finished wait acquires at the widest of the scopes of the operations it covers is the model's reading of R255 (log 40). -/
def Obligations.FencesAndTimelines : Prop :=
  (∀ (s : State) (k : FenceKind) (sc : Scope), deltasDone s s.cur.core .ctl = true → (k ≠ .acq → MayRelease s sc) →
    s.cur.st = .ctl → Steady s →
    ∃ t, exec (.fence k sc) s = .next t ∧ SameS s t ∧ SameP s t ∧ SameBytes s t ∧
      (k ≠ .rel → (sc = .dev ∨ sc = .sys) → t.copies (dieOf s.cur.core) = [] ∧ t.me.dc = []) ∧
      CtlRan State.hideAccess Core.hideAccess s t) ∧
  (∀ (s : State) (d : BitVec 6) (x : TlCtx), Steady s →
    ∃ t, exec (.tlread d x) s = .next t ∧ WroteS s t d (BitVec.ofNat 64 (s.me.tlOf x).base) ∧ SameP s t ∧ CtlNext s t ∧
      CtlOnly s t) ∧
  (∀ (s : State) (x : TlCtx) (a : BitVec 6), (s.me.tlOf x).mark = none → (s.rS a).toNat ≤ (s.me.tlOf x).done →
    s.cur.st = .ctl → Steady s →
    ∃ t, exec (.tlwait x a) s = .next t ∧ SameS s t ∧ SameP s t ∧ SameBytes s t ∧
      CtlRan State.hideAccess Core.hideAccess s t) ∧
  (∀ (s : State) (x : TlCtx) (a : BitVec 6), (s.me.tlOf x).mark = none → (s.me.tlOf x).done < (s.rS a).toNat →
    exec (.tlwait x a) s = .next s) ∧
  (∀ (s : State) (p : BitVec 3) (x : TlCtx) (a : BitVec 6), (s.me.tlOf x).mark = none → s.cur.st = .ctl → Steady s →
    ∃ t, exec (.tlwaitp p x a) s = .next t ∧ WroteP s t p (decide ((s.rS a).toNat ≤ (s.me.tlOf x).done)) ∧ SameS s t ∧
      SameBytes s t ∧ CtlRan State.hideAccess Core.hideAccess s t) ∧
  (∀ (s : State), s.me.latch = true → Steady s →
    ∃ t, exec .wfe s = .next t ∧ t.me.latch = false ∧ SameS s t ∧ SameP s t ∧
      CtlRan id (fun k => { k with latch := false }) s t) ∧
  (∀ (s : State), s.me.latch = false → exec .wfe s = .next s) ∧
  (∀ (s : State), MayRelease s .dev → Steady s →
    ∃ t, exec .icflush s = .next t ∧ (∀ st, (t.me.strand st).ic = []) ∧ SameS s t ∧ SameP s t ∧
      CtlRan id Core.hideIc s t) ∧
  (∀ (s : State) (p : BitVec 3) (x : TlCtx) (a : BitVec 6) (m : Mark) (i : Instr),
     (s.me.tlOf x).mark = some m → i ∈ [Instr.tlwait x a, .tlwaitp p x a] →
     ∃ s', exec i s = .next (takeTrap s.cur.core .ctl ⟨m.cause, m.addr, m.info, none, some x.idx⟩ s') ∧
       (s'.me.tlOf x).mark = none ∧ SameS s s' ∧ SameP s s' ∧ SameBytes s s')

/-- R25 to R33: TKPUSH and TKPUSHV put a token at the end of CTL's queue to a peer, TKPOP and TKPOPV take the head of
the queue from it, TKCNT counts both; a full or an empty queue makes CTL wait. -/
def Obligations.CtlTokens : Prop :=
  ∀ (s : State) (e : BitVec 2) (d a : BitVec 6), e.toNat < 3 → s.cur.st = .ctl → Steady s →
    let q := s.me.queue .ctl (peer e)
    let r := s.me.queue (peer e) .ctl
    let quiet (x y : Strand) : Prop := qIdx x y ∉ s.me.tokPoison
    (quiet .ctl (peer e) → q.length < 16 → MayRelease s .core →
      (∃ t, exec (.tkpush e) s = .next t ∧ t.me.queue .ctl (peer e) = q ++ [⟨false, 0⟩] ∧ SameS s t ∧ SameP s t ∧
        CtlRan id (fun k => k.setQueue .ctl (peer e) []) s t) ∧
      (∃ t, exec (.tkpushv a e) s = .next t ∧ t.me.queue .ctl (peer e) = q ++ [⟨true, s.rS a⟩] ∧ SameS s t ∧ SameP s t ∧
        CtlRan id (fun k => k.setQueue .ctl (peer e) []) s t)) ∧
    (quiet .ctl (peer e) → q.length = 16 → exec (.tkpush e) s = .next s ∧ exec (.tkpushv a e) s = .next s) ∧
    (∀ k l, quiet (peer e) .ctl → r = k :: l →
      (∃ t, exec (.tkpop e) s = .next t ∧ t.me.queue (peer e) .ctl = l ∧ SameS s t ∧ SameP s t ∧
        CtlRan id (fun k => k.hideAhead.setQueue (peer e) .ctl []) s t) ∧
      (∃ t, exec (.tkpopv d e) s = .next t ∧ t.me.queue (peer e) .ctl = l ∧
        WroteS s t d (if k.valued then k.value else 0) ∧ SameP s t ∧
        CtlRan id (fun k => k.hideAhead.setQueue (peer e) .ctl []) s t)) ∧
    (quiet (peer e) .ctl → r = [] → exec (.tkpop e) s = .next s ∧ exec (.tkpopv d e) s = .next s) ∧
    (quiet (peer e) .ctl → quiet .ctl (peer e) →
      ∃ t, exec (.tkcnt d e) s = .next t ∧ WroteS s t d (BitVec.ofNat 64 (r.length + 256 * q.length)) ∧ SameP s t ∧
        CtlNext s t ∧ CtlOnly s t)

/-! ### Traps, returns, system instructions -/

/-- R305, R307, R309, R310: a trap in U mode, of a cause that is not routed to M mode, enters S mode: TRAPCAUSE,
TRAPPC, TRAPADDR and TRAPINFO are written, SAVEDST takes the mode and LIVE, S56 to S63 change places with the S-mode
shadow set, CTL continues at TRAPVEC, every strand stands at an instruction boundary, and nothing else changes. R305,
R306, R312: a trap in S mode enters M mode: the record of five dwords is stored in the core's save area, S56 to S63
change places with the M-mode shadow set, and CTL continues at MONVEC. A trap in M mode that is no TRAP instruction is
a checkstop: the core stops and leaves dispatch, and the management log gets cause 0xB2. The layout of the record in
the save area is the model's choice (log 6). -/
def Obligations.TrapEntries : Prop :=
  (∀ (s : State) (c : Nat) (st : Strand) (cause : Nat) (addr info : W64) (next : Option W64), EntersNow s c st →
     cause < 0xB1 →
     EnteredS c st cause (next.getD ((s.core c).strand st).settle.pc) addr info s
       (takeTrap c st ⟨cause, addr, info, next, none⟩ s)) ∧
  (∀ (s : State) (c : Nat) (st : Strand) (cause : Nat) (addr info : W64) (next : Option W64),
    (s.core c).mode = .s → (s.core c).raised = none → quiet (s.core c) st = true → cause < 256 →
    memOk ((s.core c).monvec &&& 0x000FFFFFFFFFFFFC).toNat = true →
    let t := takeTrap c st ⟨cause, addr, info, next, none⟩ s
    let a := 0x10400000 + 4096 * c
    (t.core c).mode = .m ∧ (t.core c).ctl.pc = (s.core c).monvec &&& 0x000FFFFFFFFFFFFC ∧
      SwapsUpper (s.core c) (t.core c) Core.shM ∧ t.rd64 a = BitVec.ofNat 64 (2 ^ 15 + 1) ∧
      t.rd64 (a + 8) = BitVec.ofNat 64 (st.code * 1024 + 256 + cause) ∧
      t.rd64 (a + 16) = next.getD ((s.core c).strand st).settle.pc ∧ t.rd64 (a + 24) = addr ∧ t.rd64 (a + 32) = info ∧
      SameBytesBut a 40 s t ∧ (t.core c).hideTrap = (s.core c).hideTrap ∧ (∀ c', c' ≠ c → t.core c' = s.core c')) ∧
  (∀ (s : State) (c : Nat) (st : Strand) (t : Trap), (s.core c).mode = .m → (s.core c).raised = none →
    quiet (s.core c) st = true → t.cause ≠ 0x0B →
    ((takeTrap c st t s).core c).stopped = true ∧ ((takeTrap c st t s).core c).out = true ∧
      (takeTrap c st t s).mgmt = s.mgmt ++ [[BitVec.ofNat 64 (0xB2 + s.dev * 2 ^ 8 + c * 2 ^ 16), 0, 0, s.presscnt]] ∧
      SameBytes s (takeTrap c st t s))

/-- R316: TRAP n waits for every earlier load of CTL, and traps with n in TRAPINFO and the address of the next word in
TRAPPC: USER_TRAP (0x03) in U mode, MON_CALL (0x08) in S mode, FW_TRAP (0x0B) in M mode. R316, R318, R55: TRAP n in U
mode enters S mode with cause 0x03, TRAPINFO n and the address of the next word; HALT in U
mode traps with cause 0x07; a word that is no instruction traps with ILLEGAL_OP (0x00) at itself. R318: HALT in M mode
stops the core and takes it out of dispatch; its registers keep their values. -/
def Obligations.TrapInstructions : Prop :=
  (∀ (s : State) (n : BitVec 6),
    let next := (s.me.ctl.advance 4 4).pc
    let cause := match s.me.mode with | .u => 0x03 | .s => 0x08 | .m => 0x0B
    ∃ s', exec (.trap n) s = .next (takeTrap s.cur.core .ctl ⟨cause, 0, n.setWidth 64, some next, none⟩ s') ∧
      s'.me.mode = s.me.mode ∧ SameS s s' ∧ SameP s s' ∧ s'.mem = s.mem ∧ (∀ c, c ≠ s.cur.core → s'.core c = s.core c)) ∧
  (∀ (s : State) (n : BitVec 6), s.cur.st = .ctl → s.me.loads ≠ [] → waitsLoads s (.trap n) = true) ∧
  (∀ (s : State) (n : BitVec 6), s.cur.st = .ctl → EntersNow s s.cur.core .ctl →
    ∃ s' t, exec (.trap n) s = .next t ∧ CtlRan id id s s' ∧ SameS s s' ∧ SameP s s' ∧
      EnteredS s.cur.core .ctl 0x03 (s.me.ctl.advance 4 4).pc 0 (n.setWidth 64) s' t) ∧
  (∀ (s : State), s.cur.st = .ctl → EntersNow s s.cur.core .ctl →
    ∃ s' t, exec .halt s = .next t ∧ CtlRan id id s s' ∧ SameS s s' ∧ SameP s s' ∧
      EnteredS s.cur.core .ctl 0x07 (s.me.ctl.advance 4 4).pc 0 0 s' t) ∧
  (∀ (s : State), EntersNow s s.cur.core s.cur.st →
    ∃ t, exec .illegalEncoding s = .next t ∧ EnteredS s.cur.core s.cur.st 0x00 s.my.settle.pc 0 0 s t) ∧
  (∀ (s : State), s.me.mode = .m → Steady s →
     ∃ t, exec .halt s = .next t ∧ t.me.stopped = true ∧ t.me.out = true ∧ SameS s t ∧ SameP s t ∧
       CtlRan id (fun k => { k with stopped := false, out := false }) s t)

/-- R317: ERET from S mode, with LIVE set and DET and PEND clear, at a resume address aligned for STR: the mode is
SAVEDST's, LIVE is cleared, S56 to S63 change back, the strand STR stands at TRAPPC and CTL, where it is another,
where it was held. R317: ERET in S mode without LIVE, with DET, or at a misaligned resume address is BAD_RETURN
(0x0A). That a loop goes on with the count it was stopped with wherever in its body the resume address lies, and ends where
that lies outside, is the model's reading (log 23). -/
def Obligations.Returns : Prop :=
  (∀ (s : State), let k := s.me
     let str := Strand.ofCode (fld k.trapcause 10 2).toNat
     k.mode = .s → s.cur.st = .ctl → k.savedst.getLsbD 15 = true → k.savedst.getLsbD 14 = false →
     k.savedst.getLsbD 13 = false → k.trappc.toNat % str.size = 0 → k.transit = [] → k.lease.again = false →
     k.refused = [] → ownLaunch s s.cur.core = false →
     ∃ t, exec .eret s = .next t ∧ t.me.mode = Mode.ofCode (fld k.savedst 0 2).toNat ∧
       (∀ i, t.me.savedst.getLsbD i = (i != 15 && k.savedst.getLsbD i)) ∧ (t.me.strand str).pc = k.trappc ∧
       (str ≠ .ctl → t.me.ctl.pc = k.heldS.pc ∧ t.me.ctl.loop = k.heldS.loop) ∧
       (str = .ctl → t.me.ctl.loop =
         if k.trappc = k.heldS.pc then k.heldS.loop else k.heldS.loop.filter (·.holds 4 k.trappc)) ∧
       t.me.stepArm = k.savedst.getLsbD 12 ∧ SwapsUpper k t.me Core.shS ∧ SameP s t ∧ SameBytes s t ∧
       Frame (fun x => { x with launches := [] })
         (fun k => { k.hideTrap with tl := Vector.replicate 4 .init, preempted := false }) s t) ∧
  (∀ (s : State), s.me.mode = .s → s.cur.st = .ctl →
     (s.me.savedst.getLsbD 15 = false ∨ s.me.savedst.getLsbD 14 = true ∨
       s.me.trappc.toNat % (Strand.ofCode (fld s.me.trapcause 10 2).toNat).size ≠ 0) →
     exec .eret s = .next (takeTrap s.cur.core .ctl ⟨0x0A, 0, 0, none, none⟩ s))

/-- R80, R297, R298, R319: SLIPR takes the oldest slip of its die's log; TLBI, once no access that used a translation of the
context is on its way, drops the held translations of its kind on every core and cluster; KEYREV replaces an export entry's KEY and returns the old one; YIELD goes on where no
launch of a higher priority could use the core. -/
def Obligations.SystemInstructions : Prop :=
  (∀ (s : State) (d : BitVec 6), s.mode ≠ .u → Steady s →
    ∃ t, exec (.slipr d) s = .next t ∧
      WroteS s t d (if dieOf s.cur.core = 0 then s.slips0.headD 0 else s.slips1.headD 0) ∧ SameP s t ∧
      CtlRan id id s t) ∧
  (∀ (s : State) (a b : BitVec 6), s.mode ≠ .u → MayRelease s .dev → accessesDone s s.me.ctxOf = true →
    mwf .init s.cores = true → mwf .init s.clusters = true → Steady s →
    ∃ t, exec (.tlbi a b) s = .next t ∧ SameS s t ∧ SameP s t ∧ SameBytes s t ∧ CtlNext s t ∧
      ((fld (s.rS b) 0 2).toNat = 0 → (∀ c, ∀ e ∈ (t.core c).tlb, e.ctx = s.me.ctxOf →
          e.va ≠ (s.rS a).toNat / 2 ^ e.bits * 2 ^ e.bits) ∧
        (∀ c, ∀ e ∈ (t.cluster c).tlb, e.ctx = s.me.ctxOf → e.va ≠ (s.rS a).toNat / 2 ^ e.bits * 2 ^ e.bits)) ∧
      ((fld (s.rS b) 0 2).toNat = 1 → (∀ c, ∀ e ∈ (t.core c).tlb, e.ctx ≠ s.me.ctxOf) ∧
        (∀ c, ∀ e ∈ (t.cluster c).tlb, e.ctx ≠ s.me.ctxOf)) ∧
      ((fld (s.rS b) 0 2).toNat = 2 → (t.ctx s.me.ctxOf).wins = [] ∧ (t.ctx s.me.ctxOf).exps = []) ∧
      ((fld (s.rS b) 0 2).toNat = 3 → (∀ c, ∀ e ∈ (t.core c).tlb, e.ctx ≠ s.me.ctxOf) ∧
        (∀ c, ∀ e ∈ (t.cluster c).tlb, e.ctx ≠ s.me.ctxOf) ∧ (t.ctx s.me.ctxOf).wins = [] ∧ (t.ctx s.me.ctxOf).exps = [])) ∧
  (∀ (s : State) (d a b : BitVec 6), s.mode ≠ .u → (s.rS a).toNat < 16 → (s.rS b).toNat < 2 ^ 32 →
    beyond (s.root s.me.ctxOf) = false → beyond (s.root s.me.ctxOf + 65535) = false → Steady s →
    let pa := s.root s.me.ctxOf + 0xF000 + 32 * (s.rS a).toNat + 24
    ∃ t, exec (.keyrev d a b) s = .next t ∧ WroteS s t d (BitVec.ofNat 64 ((s.rd64 pa).toNat % 2 ^ 32)) ∧ SameP s t ∧
      t.rd64 pa = BitVec.ofNat 64 ((s.rd64 pa).toNat / 2 ^ 32 * 2 ^ 32 + (s.rS b).toNat) ∧ SameBytesBut pa 8 s t ∧
      CtlRan (fun x => { x with mem := [], ctxs := [] }) id s t) ∧
  (∀ (s : State), s.launches = [] → Steady s →
    ∃ t, exec .yield s = .next t ∧ SameS s t ∧ SameP s t ∧ CtlNext s t ∧ CtlOnly s t)

/-- R40, R78: DBAR of a level whose DMEMB is valid: the arrival is recorded in the phase's record, and CTL waits; when
the last of CNT + 1 arrives, each waiting core gets a notice; a notified core goes on in the next phase. That a closed
phase's record stays is the model's reading of R40 (log 71). -/
def Obligations.DomainBarriers : Prop :=
  (∀ (s : State) (l : BitVec 3) (k : Nat) (dm : W64), l.toNat = k + 1 → k < 4 → vget 0 s.me.dmemb k = dm →
    dm.getLsbD 63 = true → s.me.arrived.getLsbD k = true → s.me.notified.getLsbD k = true → s.cur.st = .ctl → Steady s →
    ∃ t, exec (.dbar l) s = .next t ∧ vget 0 t.me.phase k = (vget 0 s.me.phase k + 1) % 65536 ∧
      t.me.arrived.getLsbD k = false ∧ t.me.notified.getLsbD k = false ∧ SameS s t ∧ SameP s t ∧ SameBytes s t ∧
      CtlRan State.hideAccess
        (fun k => { k.hideAccess with phase := Vector.replicate 4 0, arrived := 0, notified := 0 }) s t) ∧
  (∀ (s : State) (l : BitVec 3) (k : Nat) (dm : W64), l.toNat = k + 1 → k < 4 → vget 0 s.me.dmemb k = dm →
    dm.getLsbD 63 = true → s.me.arrived.getLsbD k = false → MayRelease s (levelScope l.toNat) →
    phaseOf s l.toNat (fld dm 32 16).toNat (vget 0 s.me.phase k) = none → 0 < (fld dm 48 15).toNat →
    ∃ t, exec (.dbar l) s = .next t ∧ t.me.ctl = s.me.ctl ∧ t.me.arrived.getLsbD k = true ∧
      phaseOf t l.toNat (fld dm 32 16).toNat (vget 0 s.me.phase k) =
        some { level := l.toNat, did := (fld dm 32 16).toNat, phase := vget 0 s.me.phase k, cnt := (fld dm 48 15).toNat,
               arrived := 1, waiting := [s.cur.core], bad := [] } ∧ SameS s t ∧ SameBytes s t) ∧
  (∀ (s : State) (l : BitVec 3) (k : Nat) (dm : W64) (p : Phase), l.toNat = k + 1 → k < 4 → vget 0 s.me.dmemb k = dm →
    dm.getLsbD 63 = true → s.me.arrived.getLsbD k = false → MayRelease s (levelScope l.toNat) →
    phaseOf s l.toNat (fld dm 32 16).toNat (vget 0 s.me.phase k) = some p → p.cnt = (fld dm 48 15).toNat →
    p.arrived = p.cnt →
    ∃ t, exec (.dbar l) s = .next t ∧ t.me.ctl = s.me.ctl ∧ t.me.arrived.getLsbD k = true ∧
      t.msgs = s.msgs ++ (p.waiting ++ [s.cur.core]).map (fun c => .notice c l.toNat) ∧ SameS s t ∧ SameBytes s t) ∧
  (∀ (s : State) (l : BitVec 3) (k : Nat), l.toNat = k + 1 → k < 4 → (vget 0 s.me.dmemb k).getLsbD 63 = false →
    exec (.dbar l) s = .next (takeTrap s.cur.core .ctl ⟨0x00, 0, 0, none, none⟩ s)) ∧
  (∀ (s : State) (c k : Nat), k < 4 → Msg.notice c (k + 1) ∈ s.msgs →
    ∃ t, exec (.dbarNotice c (k + 1)) s = .next t ∧ (t.core c).notified.getLsbD k = true ∧
      Msg.notice c (k + 1) ∉ t.msgs ∧ (∀ c', c' ≠ c → t.core c' = s.core c') ∧ SameBytes s t)

/-! ### Launches and images -/

/-- R73: LAUNCH of an address that is no multiple of 256, or of a record that breaks a rule, returns its negative
code; of a record that is accepted, the launch's id, and the launch is in its Dealer's slots. The order of the reads
and the numbering of ids are the model's choices (log 38, log 75). -/
def Obligations.Launches : Prop :=
  (∀ (s : State) (d a : BitVec 6), MayRelease s .dev → (s.rS a).toNat % 256 ≠ 0 → Steady s →
    ∃ t, exec (.launch d a) s = .next t ∧ WroteS s t d (BitVec.ofInt 64 (-1)) ∧ SameP s t ∧ CtlNext s t ∧ CtlOnly s t) ∧
  (∀ (s : State) (d a : BitVec 6) (bs : List Byte) (s1 : State) (n : Nat) (code : Int), MayRelease s .dev →
    (s.rS a).toNat % 256 = 0 → fld (s.rS a) 52 12 = 0 → readSpan s (s.rS a) 256 0 = .ok (bs, s1, n) →
    recordBad ((List.range 32).map (fun i => BitVec.ofNat 64 (leNat ((bs.drop (8 * i)).take 8)))) = some code → Steady s →
    ∃ t, exec (.launch d a) s = .next t ∧ WroteS s t d (BitVec.ofInt 64 code) ∧ SameP s t ∧ CtlNext s t ∧ CtlOnly s t) ∧
  (∀ (s : State) (d a : BitVec 6) (bs : List Byte) (s1 : State) (n : Nat) (rc : Rec), MayRelease s .dev →
    (s.rS a).toNat % 256 = 0 → fld (s.rS a) 52 12 = 0 → readSpan s (s.rS a) 256 0 = .ok (bs, s1, n) →
    let r := (List.range 32).map (fun i => BitVec.ofNat 64 (leNat ((bs.drop (8 * i)).take 8)))
    recordBad r = none → rf r 24 56 8 = 0 → rf r 25 56 8 = 0 →
    tablesBad s1 r (entriesOf [] 0) (entriesOf [] 0) (if s.mode = .m then none else some s.me.ctxOf) = .ok rc →
    (launchOf s1 rc s1.nextLaunch).ready = [] → rc.streams = [] → (∀ l ∈ s.launches, l.id ≠ s.nextLaunch) → Steady s →
    ∃ t, exec (.launch d a) s = .next t ∧ WroteS s t d (BitVec.ofNat 64 s.nextLaunch) ∧ SameP s t ∧
      t.launches = s.launches ++ [launchOf s1 rc s.nextLaunch] ∧ t.nextLaunch = nextId s.nextLaunch ∧ SameBytes s t ∧
      CtlRan (fun x => { x.hideAccess with launches := [], nextLaunch := 0 }) Core.hideAccess s t)

/-- R74, R75, R322, R344: LSTAT, LCANCEL and PREEMPT of a reference that names a launch of this device, or none. R77:
DONE of a cell in U mode whose wide strands have ended: the core is empty, its iteration is counted at its launch;
with no handle left, nothing else is dropped. -/
def Obligations.LaunchReferencesAndEnds : Prop :=
  (∀ (s : State) (d a : BitVec 6), fld (s.rS a) 33 31 = 0 →
    ((s.rS a).getLsbD 32 = false ∨ (fld (s.rS a) 24 8).toNat = s.dev % 256) → Steady s →
    let ref := (fld (s.rS a) 0 24).toNat
    let m := decide (s.mode = .m)
    (∃ t, exec (.lstat d a) s = .next t ∧ WroteS s t d (lstatHere s ref s.me.ctxOf m) ∧ SameP s t ∧ CtlNext s t ∧
      CtlOnly s t) ∧
    (findLaunch s ref s.me.ctxOf m = none →
      (∃ t, exec (.lcancel d a) s = .next t ∧ WroteS s t d (BitVec.ofInt 64 (-1)) ∧ SameP s t ∧ CtlNext s t ∧
        CtlOnly s t) ∧
      (s.mode ≠ .u →
        ∃ t, exec (.preempt d a) s = .next t ∧ WroteS s t d (BitVec.ofInt 64 (-1)) ∧ SameP s t ∧ CtlNext s t ∧
          CtlOnly s t)) ∧
    (∀ l, findLaunch s ref s.me.ctxOf m = some l → s.launches.find? (fun x => x.id = ref) = some l → cellsOf s ref = [] →
      l.ends = [] → l.away = [] → l.st ≠ .cancelling →
      (∃ t, exec (.lcancel d a) s = .next t ∧ WroteS s t d 0 ∧ SameP s t ∧
        t.launches = s.launches.map (fun x => if x.id = ref then { x with st := .cancelling, ends := [] } else x) ∧
        (∀ w ∈ t.watches, w.launch ≠ ref) ∧ SameBytes s t ∧
        CtlRan (fun x => { x with launches := [], watches := [] }) id s t) ∧
      (s.mode ≠ .u → l.awaited = [] →
        ∃ t, exec (.preempt d a) s = .next t ∧ WroteS s t d 0 ∧ SameP s t ∧ SameBytes s t ∧
          CtlRan (fun x => { x with launches := [] }) id s t))) ∧
  (∀ (s : State) (d a : BitVec 6), fld (s.rS a) 33 31 ≠ 0 → Steady s →
    (∃ t, exec (.lstat d a) s = .next t ∧ WroteS s t d 0 ∧ SameP s t ∧ CtlNext s t ∧ CtlOnly s t) ∧
    (∃ t, exec (.lcancel d a) s = .next t ∧ WroteS s t d (BitVec.ofInt 64 (-1)) ∧ SameP s t ∧ CtlNext s t ∧ CtlOnly s t)) ∧
  (∀ (s : State), s.me.mode = .u → s.me.fet.ended = true → s.me.exe.ended = true → s.me.emi.ended = true →
     s.me.vPend = [] → MayRelease s .dev → (∀ r, s.me.rH r = 0) → (∀ x, (s.me.tlOf x).mark = none) →
     ownLaunch s s.cur.core = true → s.me.gang = false →
     ∃ t, exec .done s = .next t ∧ t.me.live = false ∧ (∀ r, t.me.rH r = 0) ∧ t.me.lent = 0 ∧
       (∀ x y, t.me.queue x y = []) ∧
       t.launches = s.launches.map (fun l => if l.id = s.me.launchNo then
         { l with done := l.done + 1, awaited := l.awaited.filter (· ≠ 4 * s.me.ordinal) } else l) ∧ SameBytes s t ∧
       (∀ c, c ≠ s.cur.core → t.core c = s.core c))

/-! ### Values -/

/-- R91, R106, R114: TALLOC makes a tile of a shape a tile may have and puts its handle, with all rights, in H[d]: the
lowest unused folio record, the lowest run of free galleys, COUNT 1, every byte zero. GOPEN does the same with a
FILLING tile that its window may fill. R89, R91, R106: a destination that holds a handle is DEST_LIVE (0x38); a shape
that no tile has is 0x37; no free record or no run of free galleys is GALLEY_EMPTY (0x40). Nothing changes. -/
def Obligations.TilesAllocate : Prop :=
  (∀ (s : State) (d a b : BitVec 6) (t0 : Elem) (f g : Nat), isNull (s.rH d) = true →
    shapeOk t0 (s.rS a).toNat (s.rS b).toNat = true →
    firstFrom (fun f => !(s.folio s.cur.core f).used) 0 16384 = some f →
    freeRun s.me (galleys t0 (s.rS a).toNat (s.rS b).toNat) = some g → Steady s →
    let n := galleys t0 (s.rS a).toNat (s.rS b).toNat
    let gen := (s.folio s.cur.core f).gen
    ∃ t, exec (.talloc d a b t0) s = .next t ∧ WroteH s t d (mkHandle 1 s.dev s.cur.core f gen 0 7) ∧
      t.folio s.cur.core f = { Folio.init with
        count := 1, state := .full, fmt := t0, used := true, rows := (s.rS a).toNat, cols := (s.rS b).toNat, first := g,
        ngal := n, gen, ctx := s.me.ctxOf } ∧
      (∀ f', f' ≠ f → t.folio s.cur.core f' = s.folio s.cur.core f') ∧
      (∀ i, i < n → t.gal s.cur.core (g + i) = { busy := true, folio := f, ctx := s.me.ctxOf }) ∧
      (∀ o, 16384 * g ≤ o → o < 16384 * (g + n) → mget 0 t.me.store o = 0) ∧
      (∀ o, (o < 16384 * g ∨ 16384 * (g + n) ≤ o) → mget 0 t.me.store o = mget 0 s.me.store o) ∧ SameS s t ∧ SameP s t ∧
      CtlRan id Core.hideTiles s t) ∧
  (∀ (s : State) (d a : BitVec 6) (f g : Nat), isNull (s.rH d) = true →
    let x := s.rS a
    let e := elemOf (fld x 32 4).toNat
    let r := (fld x 0 16).toNat
    let c := (fld x 16 16).toNat
    (fld x 32 4).toNat ≤ 11 → fld x 36 28 = 0 → shapeOk e r c = true → MayRelease s .sys →
    firstFrom (fun f => !(s.folio s.cur.core f).used) 0 16384 = some f → freeRun s.me (galleys e r c) = some g → Steady s →
    ∃ t, exec (.gopen d a) s = .next t ∧ WroteH s t d (mkHandle 1 s.dev s.cur.core f (s.folio s.cur.core f).gen 0 7) ∧
      t.folio s.cur.core f = { Folio.init with
        count := 1, state := .filling, fmt := e, used := true, win := true, rows := r, cols := c, first := g,
        ngal := galleys e r c, gen := (s.folio s.cur.core f).gen, ctx := s.me.ctxOf } ∧ SameS s t ∧ SameP s t ∧
      CtlRan id Core.hideTiles s t) ∧
  (∀ (s : State) (d a b : BitVec 6) (t0 : Elem),
     (isNull (s.rH d) = false →
       exec (.talloc d a b t0) s = .next (takeTrap s.cur.core .ctl ⟨0x38, 0, 0, none, none⟩ s)) ∧
     (isNull (s.rH d) = true → shapeOk t0 (s.rS a).toNat (s.rS b).toNat = false →
       exec (.talloc d a b t0) s = .next (takeTrap s.cur.core .ctl ⟨0x37, 0, 0, none, none⟩ s)) ∧
     (isNull (s.rH d) = true → shapeOk t0 (s.rS a).toNat (s.rS b).toNat = true →
       freeRun s.me (galleys t0 (s.rS a).toNat (s.rS b).toNat) = none →
       exec (.talloc d a b t0) s = .next (takeTrap s.cur.core .ctl ⟨0x40, 0, 0, none, none⟩ s)))

/-- R96, R100, R107, R112, R113: DUP counts a reference more at its home, or splits a proxy's weight; DROP and HNULL
give one up, and the last frees the tile, whose generation moves on. HMOV moves a handle and may narrow its rights,
HGET and HCMP read handles, HPUT writes one in a privileged mode, and is PRIV_ACCESS (0x02) in U mode. -/
def Obligations.References : Prop :=
  (∀ (s : State) (d a : BitVec 6), let h := s.rH a
    TileHere s h → hCore h = s.cur.core → hWeight h = 0 → isNull (s.rH d) = true →
    (s.folio s.cur.core (hFolio h)).count < 2 ^ 24 - 1 → Steady s →
    ∃ t, exec (.dup d a) s = .next t ∧ WroteH s t d h ∧
      t.folio s.cur.core (hFolio h) = { s.folio s.cur.core (hFolio h) with
        count := (s.folio s.cur.core (hFolio h)).count + 1 } ∧ SameS s t ∧ SameP s t ∧ CtlRan id Core.hideTiles s t) ∧
  (∀ (s : State) (d a : BitVec 6), let h := s.rH a
    isTile h = true → hBad h = false → 2 ≤ hWeight h → (hCore h ≠ s.cur.core ∨ homeHere s h = false) →
    isNull (s.rH d) = true → Steady s →
    ∃ t, exec (.dup d a) s = .next t ∧ WroteH2 s t a (hSetWeight h (hWeight h - 1)) d (hSetWeight h (hWeight h - 1)) ∧
      SameS s t ∧ SameP s t ∧ CtlRan id Core.hideH s t) ∧
  (∀ (s : State) (d a : BitVec 6), let h := s.rH a
    TileHere s h → hCore h ≠ s.cur.core → hWeight h = 0 → isNull (s.rH d) = true → Steady s →
    ∃ t, exec (.dup d a) s = .next t ∧ WroteH s t d h ∧
      t.msgs = s.msgs ++ [.delta s.cur.core .ctl h 1 (.dup d) s.cycle (s.mode != .u)] ∧ SameS s t ∧ SameP s t ∧
      CtlRan (fun x => { x with msgs := [] }) Core.hideH s t) ∧
  (∀ (s : State) (a : BitVec 6) (i : Instr), let h := s.rH a
    let x := s.folio s.cur.core (hFolio h)
    i ∈ [Instr.drop a, .hnull a] → TileHere s h → hCore h = s.cur.core → hWeight h = 0 → Steady s →
    ∃ t, exec i s = .next t ∧ WroteH s t a 0 ∧ SameS s t ∧ SameP s t ∧ SameBytes s t ∧
      (1 < x.count → t.folio s.cur.core (hFolio h) = { x with count := x.count - 1 }) ∧
      (x.count ≤ 1 → t.folio s.cur.core (hFolio h) = { Folio.init with gen := (x.gen + 1) % 4096 }) ∧
      CtlRan id Core.hideTiles s t) ∧
  (∀ (s : State) (a : BitVec 6) (i : Instr), let h := s.rH a
    i ∈ [Instr.drop a, .hnull a] → TileHere s h → hCore h ≠ s.cur.core → hWeight h = 0 → Steady s →
    ∃ t, exec i s = .next t ∧ WroteH s t a 0 ∧ SameS s t ∧ SameP s t ∧
      t.msgs = s.msgs ++ [.delta s.cur.core .ctl h (-1) .drop s.cycle (s.mode != .u)] ∧
      CtlRan (fun x => { x with msgs := [] }) Core.hideH s t) ∧
  (∀ (s : State) (a : BitVec 6), isNull (s.rH a) = true → Steady s →
    (∃ t, exec (.hnull a) s = .next t ∧ SameS s t ∧ SameP s t ∧ CtlNext s t ∧ CtlOnly s t) ∧
    exec (.drop a) s = .next (takeTrap s.cur.core .ctl ⟨0x30, 0, 0, none, none⟩ s)) ∧
  (∀ (s : State) (a : BitVec 6), isEnd (s.rH a) = true → hBad (s.rH a) = false →
    exec (.drop a) s = exec (.sclose a) s ∧ exec (.hnull a) s = exec (.sclose a) s) ∧
  (∀ (s : State) (d a : BitVec 6) (restrict : Bool) (keep : BitVec 4), (d = a ∨ isNull (s.rH d) = true) → Steady s →
    let h := s.rH a
    ∃ t, exec (.hmov d a restrict keep) s = .next t ∧
      WroteH2 s t a 0 d (if restrict then hSetRights h (hRights h &&& keep.toNat) else h) ∧ SameS s t ∧ SameP s t ∧
      CtlRan id Core.hideH s t) ∧
  (∀ (s : State) (d a b : BitVec 6), Steady s →
    (∃ t, exec (.hget d a) s = .next t ∧ WroteS s t d (s.rH a) ∧ SameP s t ∧ CtlNext s t ∧ CtlOnly s t) ∧
    (∃ t, exec (.hcmp d a b) s = .next t ∧ WroteS s t d (hcmpWord (s.rH a) (s.rH b)) ∧ SameP s t ∧ CtlNext s t ∧
      CtlOnly s t) ∧
    (s.mode ≠ .u → ∃ t, exec (.hput d a) s = .next t ∧ WroteH s t d (s.rS a) ∧ SameS s t ∧ SameP s t ∧
      CtlRan id Core.hideH s t)) ∧
  (∀ (s : State) (d a : BitVec 6), s.mode = .u →
    exec (.hput d a) s = .next (takeTrap s.cur.core .ctl ⟨0x02, 0, 0, none, none⟩ s)) ∧
  (∀ (x y : W64) (n : Nat), (hcmpWord x y).getLsbD n =
    (if n = 0 then decide (x = y)
     else if n = 1 then
       decide (hKind x = hKind y ∧ hDev x = hDev y ∧ hCore x = hCore y ∧ hFolio x = hFolio y ∧ hGen x = hGen y)
     else if n = 2 then decide (hDev x = hDev y ∧ hCore x = hCore y)
     else false))

/-- R85, R108, R109: TCOUNT, TINFO and TLDE read the record and an element of a tile of this device; of a null handle
TCOUNT and TINFO read 0. Nothing but S[d] changes. -/
def Obligations.TileReads : Prop :=
  (∀ (s : State) (d a : BitVec 6), isNull (s.rH a) = true → Steady s →
    (∃ t, exec (.tcount d a) s = .next t ∧ WroteS s t d 0 ∧ SameP s t ∧ CtlNext s t ∧ CtlOnly s t) ∧
    (∃ t, exec (.tinfo d a) s = .next t ∧ WroteS s t d 0 ∧ SameP s t ∧ CtlNext s t ∧ CtlOnly s t)) ∧
  (∀ (s : State) (d a b : BitVec 6), let h := s.rH a
    let x := s.folio (hCore h) (hFolio h)
    TileHere s h → Steady s →
    (∃ t, exec (.tcount d a) s = .next t ∧ WroteS s t d (BitVec.ofNat 64 x.count) ∧ SameP s t ∧ CtlNext s t ∧ CtlOnly s t) ∧
    (∃ t, exec (.tinfo d a) s = .next t ∧ WroteS s t d (infoWord x) ∧ SameP s t ∧ CtlNext s t ∧ CtlOnly s t) ∧
    (hRights h % 2 = 1 → (s.rS b).toNat < x.rows * x.cols → x.state ≠ .filling →
      elemBad s (hCore h) x (s.rS b).toNat = false →
      ∃ t, exec (.tlde d a b) s = .next t ∧
        WroteS s t d (elemWord x.fmt (tileElem s (hCore h) x (s.rS b).toNat)) ∧ SameP s t ∧ CtlNext s t ∧ CtlOnly s t))

/-- R102, R110, R111: UNIQ and UPDE of a sole reference work in place: H[a] is consumed, H[d] holds the reference,
UPDE stores its element. R102, R111: UNIQ of a tile with other references makes a copy of its own, and gives the old
reference up. -/
def Obligations.TileUpdates : Prop :=
  (∀ (s : State) (d a b c : BitVec 6) (z : Size), let h := s.rH a
     let x := s.folio s.cur.core (hFolio h)
     TileHere s h → soleRef s h = true → hRights h % 2 = 1 → x.state = .full → (d = a ∨ isNull (s.rH d) = true) → Steady s →
     (∃ t, exec (.uniq d a) s = .next t ∧ WroteH2 s t a 0 d h ∧ SameS s t ∧ SameP s t ∧ CtlRan id Core.hideH s t) ∧
     (upSize z x.fmt = true → (s.rS b).toNat < x.rows * x.cols →
       (z = .d → (s.rS b).toNat % 2 = 0 ∧ (s.rS b).toNat + 1 < x.rows * x.cols) →
       ∃ t, exec (.upde d a b c z) s = .next t ∧ WroteH2 s t a 0 d h ∧ SameS s t ∧ SameP s t ∧
         mgets 0 t.me.store (16384 * x.first + ebits x.fmt / 8 * (s.rS b).toNat) (sizeBytes z) =
           leBytes (sizeBytes z) (s.rS c).toNat ∧
         (∀ o, (o < 16384 * x.first + ebits x.fmt / 8 * (s.rS b).toNat ∨
             16384 * x.first + ebits x.fmt / 8 * (s.rS b).toNat + sizeBytes z ≤ o) →
           mget 0 t.me.store o = mget 0 s.me.store o) ∧
         (∀ f, t.folio s.cur.core f = s.folio s.cur.core f) ∧ CtlRan id Core.hideTiles s t)) ∧
  (∀ (s : State) (d a : BitVec 6) (f g : Nat), let h := s.rH a
     let x := s.folio s.cur.core (hFolio h)
     TileHere s h → hCore h = s.cur.core → hWeight h = 0 → 1 < x.count → hRights h % 2 = 1 → x.state ≠ .filling →
     (d = a ∨ isNull (s.rH d) = true) → x.first + galleys x.fmt x.rows x.cols ≤ 512 → x.ngal = galleys x.fmt x.rows x.cols →
     firstFrom (fun f => !(s.folio s.cur.core f).used) 0 16384 = some f → freeRun s.me x.ngal = some g →
     (∀ i, i < x.ngal → (s.gal s.cur.core (x.first + i)).busy = true) → Steady s →
     ∃ t, exec (.uniq d a) s = .next t ∧
       WroteH2 s t a 0 d (mkHandle 1 s.dev s.cur.core f (s.folio s.cur.core f).gen 0 7) ∧
       (∀ o, o < 16384 * x.ngal → mget 0 t.me.store (16384 * g + o) = mget 0 s.me.store (16384 * x.first + o)) ∧
       (t.folio s.cur.core f).count = 1 ∧ (t.folio s.cur.core f).rows = x.rows ∧ (t.folio s.cur.core f).cols = x.cols ∧
       (t.folio s.cur.core f).fmt = x.fmt ∧ (t.folio s.cur.core (hFolio h)).count = x.count - 1 ∧ SameS s t ∧ SameP s t ∧
       CtlRan id Core.hideTiles s t)

/-- R94, R115 to R117: GSEAL makes a GOPEN tile FULL, once its window's writes are done; GWAIT and GWAITF wait for a
tile that is FILLING. R299: RACQ of a region of a window, once the exporter has answered: 0 in S[d] says that
the token is held, and the region's home is the issuing core's die. RREL writes back what is not yet at the exporter, then
releases and gives the token back; of a region whose token is not held it does nothing. The payloads of the token's packets
are the model's layout (log 12), and what a held region keeps here is log 35's. -/
def Obligations.SealsAndTokens : Prop :=
  (∀ (s : State) (a : BitVec 6), let h := s.rH a
    let x := s.folio (hCore h) (hFolio h)
    TileHere s h → hCore h = s.cur.core → hRights h / 2 % 2 = 1 → MayRelease s .sys → x.win = true → x.state = .filling →
    Steady s →
    ∃ t, exec (.gseal a) s = .next t ∧ t.folio s.cur.core (hFolio h) = { x with win := false, state := .full } ∧
      t.me.latch = true ∧ SameH s t ∧ SameS s t ∧ SameP s t ∧ CtlRan id Core.hideTiles s t) ∧
  (∀ (s : State) (a : BitVec 6), let h := s.rH a
    TileHere s h → (s.folio (hCore h) (hFolio h)).state ≠ .filling → s.cur.st = .ctl → Steady s →
    ∃ t, exec (.gwait a) s = .next t ∧ SameS s t ∧ SameP s t ∧ SameBytes s t ∧
      CtlRan State.hideAccess Core.hideAccess s t) ∧
  (∀ (c : Clause) (s : State) (hs : BitVec 6), let h := s.rH hs
    TileHere s h → (s.folio (hCore h) (hFolio h)).state ≠ .filling → WideReady c s →
    ∃ t, exec (.gwaitf c hs) s = .next t ∧ SameA s t ∧ SameBytes s t ∧
      WideRan 1 c ⟨false, 0⟩ State.hideAccess Core.hideAccess s t) ∧
  (∀ (s : State) (a : BitVec 6), let h := s.rH a
    TileHere s h → (s.folio (hCore h) (hFolio h)).state = .filling → (∀ x, ∀ o ∈ s.me.opsOf x, o.makes h = false) →
    exec (.gwait a) s = .next s) ∧
  (∀ (s s1 : State) (d a : BitVec 6) (w : WinTo) (n off v : Nat), tokenWin s (s.rS a) = .ok (w, n, off, s1) →
    tokenAsk s1 (s.rS a) w off false = .ok v → Steady s →
    ∃ t, exec (.racq d a) s = .next t ∧ WroteS s t d (BitVec.ofNat 64 v) ∧ SameP s t ∧ SameBytes s t ∧
      (v = 0 → (tokenOf t w off).isSome = true) ∧
      (v = 0 → tokenOf s w off = none → tokenOf t w off = some ⟨w.dev, w.wid, off / 2 ^ 21, dieOf s.cur.core, []⟩) ∧
      (v ≠ 0 → t.heldTok = s.heldTok) ∧ CtlRan State.hideAccess Core.hideAccess s t) ∧
  (∀ (s s1 : State) (a : BitVec 6) (w : WinTo) (n off : Nat), tokenWin s (s.rS a) = .ok (w, n, off, s1) →
    s.cur.st = .ctl → Steady s →
    (s.my.asked = 0 → tokenOf s w off = none →
      ∃ t, exec (.rrel a) s = .next t ∧ SameS s t ∧ SameP s t ∧ SameBytes s t ∧ t.heldTok = s.heldTok ∧
        CtlRan State.hideAccess Core.hideAccess s t) ∧
    (∀ x, s.my.asked = 0 → tokenOf s w off = some x → x.lines ≠ [] →
      ∃ t, exec (.rrel a) s = .next t ∧ t.me.ctl.pc = s.me.ctl.pc ∧ (tokenOf t w off).isSome = true ∧ SameS s t ∧ SameBytes s t) ∧
    (∀ x, s.my.asked = 0 → tokenOf s w off = some x → x.lines = [] → MayRelease s1 .sys →
      ∃ t, exec (.rrel a) s = .next t ∧ t.me.ctl.pc = s.me.ctl.pc ∧ t.my.asked = 1 ∧ tokenOf t w off = none ∧ SameS s t ∧
        SameBytes s t) ∧
    (∀ v, s.my.asked ≠ 0 → tokenAsk s1 (s.rS a) w off true = .ok v →
      ∃ t, exec (.rrel a) s = .next t ∧ SameS s t ∧ SameP s t ∧ SameBytes s t ∧ t.heldTok = s.heldTok ∧
        CtlRan State.hideAccess Core.hideAccess s t))

/-! ### Streams -/

/-- R259, R269, R281: SOPEN of null registers makes a stream with both ends at the core: write end in H[d], read end
in H[b], hot if a hardware queue is free, with the limit of its stock. -/
def Obligations.StreamsOpen : Prop :=
  ∀ (s : State) (d a b : BitVec 6) (an : Anchor) (base : Nat) (s1 : State),
    let x := s.rS a
    let k := x.toNat % 32
    isNull (s.rH d) = true → isNull (s.rH b) = true → 6 ≤ k → k ≤ 20 → fld x 5 7 = 0 → fld x 52 12 = 0 →
    freeAnchor s s.cur.core = some an → s.cur.core < 128 → Steady s →
    ((x.toNat / 4096 % 2 ^ 40 = 0 ∧ takeStock s s.me.ctxOf k = .ok (base, s1)) ∨
      (base = x.toNat / 4096 % 2 ^ 40 * 4096 ∧ base ≠ 0 ∧ base % (2 ^ k * 64) = 0 ∧
        basePages s base (stockFrames k) = .ok s1)) →
    ∃ t, exec (.sopen d a b) s = .next t ∧
      WroteH2 s t d (mkHandle 2 an.dev an.core an.idx (ancGen t an) 0 7) b (mkHandle 3 an.dev an.core an.idx (ancGen t an) 0 7) ∧
      t.me.wends = s.me.wends ++ [(⟨an, 0, 0, limitOf k (freeQueue s.me).isSome, s.dev % 256, s.cur.core, false, k, false, 0⟩ : WEnd)] ∧
      t.me.rends = s.me.rends ++ [(⟨an, 0, 0, freeQueue s.me, [], 0, none, false, 0, k, false, false⟩ : REnd)] ∧
      ancUsed t an = true ∧ ancK t an = k ∧ ancWst t an = 0 ∧ ancRst t an = 0 ∧ SameS s t ∧ SameP s t ∧
      CtlRan State.hideStreams Core.hideEnds s t

/-- R261, R262, R265, R270, R272: SPUSH and SPUSHH of an item that the credit allows number it in SQ and send it to
the read end; SPUSHH's handles leave their registers. Without credit a non-blocking push sets P[p] to 0, a blocking
one waits. -/
def Obligations.StreamPushes : Prop :=
  ∀ (s : State) (a b : BitVec 6) (nb : Block) (e : WEnd), let h := s.rH a
    let q := s.me.tlOf .sq
    ∀ k, endCheck s h 2 = .ok k → q.mark = none → s.me.wend (anchorOf h) = some e → e.orphan = 0 → s.cur.st = .ctl → Steady s →
    (e.room 1 = true → MayRelease s .sys → e.toDev = s.dev % 256 →
      (∃ t, exec (.spush a b nb) s = .next t ∧
        t.msgs = s.msgs ++ [.item (anchorOf h) e.push
          { words := (List.range 8).map (fun i => s.rS (b + BitVec.ofNat 6 i)), mask := 0, poison := false } e.toCore
          s.cur.core (q.issued + 1) (s.dev % 256)] ∧
        t.me.wend (anchorOf h) = some { e with push := e.push + 1 } ∧
        (t.me.tlOf .sq).issued = q.issued + 1 ∧ (t.me.tlOf .sq).out = q.out ++ [q.issued + 1] ∧ SameS s t ∧ SameH s t ∧
        (match nb with | .blocking => SameP s t | .nb p => WroteP s t p true) ∧ SameBytes s t ∧
        CtlRan (fun x => { x with msgs := [] }) Core.hideEnds s t) ∧
      (∀ (n : BitVec 6) (j : Nat), n.toNat ≤ 8 → (∀ g ∈ s.my.got, g.n ≠ 255) →
        let regs := (List.range n.toNat).map (fun i => b + BitVec.ofNat 6 i)
        (∀ r ∈ regs, isTile (s.rH r) = true) → (regs.map s.rH).foldlM (pushable s h) k = .ok j →
        ∃ t, exec (.spushh n a b nb) s = .next t ∧
          t.msgs = s.msgs ++ [.item (anchorOf h) e.push
            { words := regs.map s.rH ++ List.replicate (8 - n.toNat) 0, mask := BitVec.ofNat 8 (2 ^ n.toNat - 1),
              poison := false } e.toCore s.cur.core (q.issued + 1) (s.dev % 256)] ∧
          (∀ r, t.rH r = if r ∈ regs then 0 else s.rH r) ∧ SameS s t ∧
          (match nb with | .blocking => SameP s t | .nb p => WroteP s t p true) ∧ SameBytes s t ∧
          CtlRan (fun x => { x with msgs := [] }) Core.hideEnds s t)) ∧
    (e.room 1 = false →
      (∀ p, nb = .nb p →
        ∃ t, exec (.spush a b nb) s = .next t ∧ WroteP s t p false ∧ SameS s t ∧ CtlNext s t ∧ CtlOnly s t) ∧
      (nb = .blocking → exec (.spush a b nb) s = .next s))

/-- R263, R264, R271, R272: SPOP takes the next item of words into S[d] to S[d+7], SPOPH one of handles to tiles into
null H registers; POP moves on. Without an item a non-blocking pop sets P[p] to 0. R273, R274: SSTAT reads an end's
state, 0 of a null handle; SCLOSE closes the end, and its register is null. -/
def Obligations.StreamPopsAndEnds : Prop :=
  (∀ (s : State) (d a : BitVec 6) (nb : Block) (e : REnd) (it : Item), let h := s.rH a
     let an := anchorOf h
     ∀ k, endCheck s h 3 = .ok k → s.me.rend an = some e → s.cur.st = .ctl → Steady s →
     (nextItems s e 1 = some [it] → it.poison = false → e.stop = false → e.sinceGo < 7 →
       (it.mask = 0 → it.words.length = 8 →
         ∃ t, exec (.spop d a nb) s = .next t ∧
           (∀ r, t.rS r = if r = 0 then 0 else if (r - d).toNat < 8 then it.words.getD (r - d).toNat 0 else s.rS r) ∧
           t.me.rend an = some
             { e with pop := e.pop + 1, q := e.q.tail, qtop := max e.qtop (e.pop + 1), sinceGo := e.sinceGo + 1 } ∧ SameH s t ∧
           (match nb with | .blocking => SameP s t | .nb p => WroteP s t p true) ∧
           CtlRan State.hideStreams Core.hideEnds s t) ∧
       (∀ n : BitVec 6, 1 ≤ n.toNat → n.toNat ≤ 8 → it.mask.toNat = 2 ^ n.toNat - 1 → it.words.length = 8 →
         (∀ x ∈ it.words.take n.toNat, isTile x = true) →
         (∀ i, i < n.toNat → isNull (s.rH (d + BitVec.ofNat 6 i)) = true) →
         ∃ t, exec (.spoph d a n nb) s = .next t ∧
           (∀ r, t.rH r = if r = 0 then 0 else if (r - d).toNat < n.toNat then it.words.getD (r - d).toNat 0 else s.rH r) ∧
           SameS s t ∧ (match nb with | .blocking => SameP s t | .nb p => WroteP s t p true) ∧
           CtlRan State.hideStreams Core.hideEnds s t)) ∧
     (nextItems s e 1 = none → (ancHere s an = true ∨ e.hq ≠ none) → ∀ p, nb = .nb p →
       ∃ t, exec (.spop d a nb) s = .next t ∧ WroteP s t p false ∧ SameS s t ∧ CtlNext s t ∧ CtlOnly s t)) ∧
  (∀ (s : State) (d a : BitVec 6), isNull (s.rH a) = true → Steady s →
    ∃ t, exec (.sstat d a) s = .next t ∧ WroteS s t d 0 ∧ SameP s t ∧ CtlNext s t ∧ CtlOnly s t) ∧
  (∀ (s : State) (d a : BitVec 6) (k : Nat), endCheck s (s.rH a) 0 = .ok k → s.cur.st = .ctl → Steady s →
    ∃ t, exec (.sstat d a) s = .next t ∧ WroteS s t d (sstatWord s (s.rH a) (stockOfEnd s (s.rH a))) ∧ SameP s t ∧
      CtlNext s t ∧ CtlOnly s t) ∧
  (∀ (s : State) (a : BitVec 6), EndHere s (s.rH a) 0 → Steady s →
    ∃ t, exec (.sclose a) s = .next t ∧ WroteH s t a 0 ∧ holdsEnd t.me (s.rH a) = false ∧ SameS s t ∧ SameP s t ∧
      CtlNext s t) ∧
  (∀ (s : State) (a : BitVec 6), let an := anchorOf (s.rH a)
    EndHere s (s.rH a) 2 → ancRst s an = 1 → ancUsed s an = true → Steady s →
    ∃ t, exec (.sclose a) s = .next t ∧ WroteH s t a 0 ∧ t.me.wend an = none ∧ ancWst t an = 2 ∧ SameS s t ∧ SameP s t ∧
      CtlRan State.hideStreams Core.hideEnds s t)

/-! ### Wide strands: control, scalars, vectors -/

/-- R134 to R136, R139, R26: a scalar instruction of a wide strand writes its value to A[d], does its token clause and
goes on; NOP does the clause alone, and TLWAIT waits for a timeline of the core. R35: TKV receives the value of the
head that it pops into A[d], zero of a token without one, and sends the old A[a] in every token that it pushes. -/
def Obligations.WideScalars : Prop :=
  (∀ (i : Instr) (s : State) (c : Clause) (d : BitVec 5) (v : W64), wideValue s i = some (c, d, v) → WideReady c s →
    ∃ t, exec i s = .next t ∧ WroteA s t d v ∧ WideRan 1 c ⟨false, 0⟩ id id s t) ∧
  (∀ (c : Clause) (s : State), WideReady c s →
    ∃ t, exec (.nopWide c) s = .next t ∧ SameA s t ∧ WideRan 1 c ⟨false, 0⟩ id id s t) ∧
  (∀ (c : Clause) (s : State) (x : TlCtx) (a : BitVec 5), WideReady c s → (s.me.tlOf x).mark = none →
    (s.rA a).toNat ≤ (s.me.tlOf x).done →
    ∃ t, exec (.tlwaitWide c x a) s = .next t ∧ SameA s t ∧
      WideRan 1 c ⟨false, 0⟩ State.hideAccess Core.hideAccess s t) ∧
  (∀ (c : Clause) (s : State), s.cur.st ≠ .ctl → c.push = 0 → (∀ x ∈ s.cur.st.named c.pop, qIdx x s.cur.st ∉ s.me.tokPoison) →
    (∃ x ∈ s.cur.st.named c.pop, s.me.queue x s.cur.st = []) → s.my.asked = 0 → exec (.nopWide c) s = .next s) ∧
  (∀ (c : Clause) (s : State) (d a : BitVec 5) (send recv : Bool), WideReady c s →
     let k := match s.cur.st.named c.pop with | [x] => (s.me.queue x s.cur.st).headD ⟨false, 0⟩ | _ => ⟨false, 0⟩
     ∃ t, exec (.tkv c d a send recv) s = .next t ∧
       (if recv then WroteA s t d (if k.valued then k.value else 0) else SameA s t) ∧
       WideRan 1 c (if send then ⟨true, s.rA a⟩ else ⟨false, 0⟩) id id s t)

/-- R36, R137, R138, R76: ABR and AJ go to their target, or on; ALOOP enters its body, or skips it with a count of
zero; a length of 0 or above 64 is 0x06 and a loop in a loop ILLEGAL_OP; AEND ends the strand's part of the cell. -/
def Obligations.WideBranches : Prop :=
  (∀ (c : Clause) (s : State) (a b : BitVec 5) (cc : Cond) (off : BitVec 20), WideReady c s →
    ∃ t, exec (.abr c a b cc off) s = .next t ∧ SameA s t ∧
      t.my.pc = (if condOn cc (s.rA a) (s.rA b) then s.my.pc + BitVec.ofInt 64 (off.toInt * 8) else (s.my.advance 8 8).pc) ∧
      t.my.loop = (if condOn cc (s.rA a) (s.rA b) then none else (s.my.advance 8 8).loop) ∧
      WideDone c ⟨false, 0⟩ id id s t) ∧
  (∀ (c : Clause) (s : State) (off : BitVec 20), WideReady c s →
    ∃ t, exec (.aj c off) s = .next t ∧ SameA s t ∧ t.my.pc = s.my.pc + BitVec.ofInt 64 (off.toInt * 8) ∧
      t.my.loop = none ∧ WideDone c ⟨false, 0⟩ id id s t) ∧
  (∀ (s : State) (a : BitVec 5) (len : BitVec 7) (body : List (Option W64)), s.cur.st ≠ .ctl → s.my.took = [] →
    bodyWords s s.cur.core s.cur.st .u (s.my.pc + 8) len.toNat = body →
    (s.my.loop = none → 1 ≤ len.toNat → len.toNat ≤ 64 → wideBodyBad s.cur.st body = false →
      ∃ t, exec (.aloop a len) s = .next t ∧ SameA s t ∧ WideDone ⟨0, 0⟩ ⟨false, 0⟩ id id s t ∧
        (s.rA a ≠ 0 → t.my.pc = s.my.pc + 8 ∧
          t.my.loop = some { start := s.my.pc + 8, len := len.toNat, left := s.rA a, body }) ∧
        (s.rA a = 0 → t.my.pc = s.my.pc + 8 + BitVec.ofNat 64 (len.toNat * 8) ∧ t.my.loop = none)) ∧
    (s.my.loop = none → len.toNat = 0 ∨ 64 < len.toNat → (len.toNat ≤ 64 → wideBodyBad s.cur.st body = false) →
      exec (.aloop a len) s = .next (takeTrap s.cur.core s.cur.st ⟨0x06, 0, 0, none, none⟩ s)) ∧
    (s.my.loop ≠ none → exec (.aloop a len) s = .next (takeTrap s.cur.core s.cur.st ⟨0x00, 0, 0, none, none⟩ s))) ∧
  (∀ (c : Clause) (s : State), WideReady c s →
    ∃ t, exec (.aend c) s = .next t ∧ t.my.ended = true ∧ SameA s t ∧
      WideRan 1 c ⟨false, 0⟩ id (fun k => k.modStrand s.cur.st (fun x => { x with ended := false })) s t)

/-- R37, R38, R46, R50, R160: MOD before a memory instruction puts its attributes in force for it; before anything
else, and after another MOD, it is ILLEGAL_OP at the prefix. REP before a word that it may repeat captures count,
steps and FPC. -/
def Obligations.Prefixes : Prop :=
  (∀ (s s1 : State) (o : Order) (sc : Scope) (ca : Cache) (w : Nat), s.cur.st = .ctl →
    nextWord s s.cur.core .ctl s.mode (s.me.ctl.pc + 4) = .ok (w, s1) →
    let ok := match decodeCtl (BitVec.ofNat 32 w) with | some i => ctlMemTarget i | none => false
    (s.me.ctl.pre = none → atBodyEnd s.me.ctl 4 = false → ok = true →
      ∃ t, exec (.mod o sc ca) s = .next t ∧ t.me.ctl.pre = some ⟨s.me.ctl.pc, ⟨o, sc, ca⟩⟩ ∧
        t.me.ctl.pc = s.me.ctl.pc + 4 ∧ t.me.ctl.loop = s.me.ctl.loop ∧ SameS s t ∧ SameP s t ∧ CtlOnly s t) ∧
    (s.me.ctl.pre ≠ none ∨ ok = false →
      exec (.mod o sc ca) s = .next (takeTrap s.cur.core .ctl ⟨0x00, 0, 0, none, none⟩ s))) ∧
  (∀ (s s1 s2 : State) (o : Order) (sc : Scope) (ca : Cache) (w : Nat) (i : Instr), s.cur.st ≠ .ctl → s.my.pre = none →
    atBodyEnd s.my 8 = false → nextWord s s.cur.core s.cur.st .u (s.my.pc + 8) = .ok (w, s1) →
    wideAt s1 (BitVec.ofNat 64 w) (s.my.pc + 8) = .ok (some i, s2) → wideMemTarget i = true →
    ∃ t, exec (.modWide o sc ca) s = .next t ∧ t.my.pre = some ⟨s.my.pc, ⟨o, sc, ca⟩⟩ ∧ t.my.pc = s.my.pc + 8 ∧
      t.my.loop = s.my.loop ∧ t.my.rep = s.my.rep ∧ SameA s t ∧
      Frame id (fun k => k.modStrand s.cur.st StrandSt.rest) s t) ∧
  (∀ (s : State) (c : Clause) (n : BitVec 6) (sd sa sb sc : BitVec 4), s.cur.st ≠ .ctl →
    (repBad s c (n.toNat + 1) [sd, sa, sb, sc] = false →
      ∃ t, exec (.rep c n sd sa sb sc) s = .next t ∧ t.my.pc = s.my.pc + 8 ∧ t.my.loop = s.my.loop ∧
        t.my.rep = some ⟨s.my.pc + 8, 0, n.toNat + 1, sd, sa, sb, sc, s.my.fpc⟩ ∧ SameA s t ∧
        Frame id (fun k => k.modStrand s.cur.st StrandSt.rest) s t) ∧
    (repBad s c (n.toNat + 1) [sd, sa, sb, sc] = true →
      exec (.rep c n sd sa sb sc) s = .next (takeTrap s.cur.core s.cur.st ⟨0x04, 0, 0, none, none⟩ s)))

/-- R184 to R202, R205, R161, R162: a vector instruction writes the selected lanes of V[d] and leaves the others; what
the selected lanes raise is ORed into FPC; an enabled exception traps instead, with nothing written. VEXP2 and VLOG2
are rounded as log 15 says, a choice of the model. -/
def Obligations.VectorLanes : Prop :=
  ∀ (i : Instr) (s : State) (c : Clause) (k : BitVec 3) (d : BitVec 9) (vs : List (BitVec 9)) (f : Nat → W32 × Flags),
    vecValue s i = some (c, k, d, vs, f) → WideReady c s → FreeV s (vs.map (·.toNat)) →
    let m := s.me.rK k
    let fl := laneFlags m (fun l => (f l).2)
    (fpCause s.fpcNow fl = none →
      ∃ t, exec i s = .next t ∧ WroteV s t d (fun l => if m.getLsbD l then (f l).1 else s.slot d l) ∧
        t.my.fpc = orFlags s.my.fpc fl ∧ SameA s t ∧ SameK s t ∧
        WideRan 1 c ⟨false, 0⟩ id (Core.hideVec s.cur.st) s t) ∧
    (∀ cause info, fpCause s.fpcNow fl = some (cause, info) →
      exec i s = .next (takeTrap s.cur.core s.cur.st ⟨cause, 0, info, none, none⟩ (s.popped c)))

/-- R195, R200, R203, R204, R205: VCMP writes a mask, zero where its own mask leaves a lane out; KOP and KMOV compute
masks; VCMPR keeps the two greatest of four and says which; VTOA reads a lane; VREDR, VREDC and VSCNR combine the
selected lanes. -/
def Obligations.MasksAndReductions : Prop :=
  (∀ (s : State) (c : Clause) (t : VTy) (cc : VCond) (k kd : BitVec 3) (a b : BitVec 9), WideReady c s →
    FreeV s [a.toNat, b.toNat] →
    let g (l : Nat) := laneCmp s.fpcNow t cc (s.slot a l) (s.slot b l)
    let fl := laneFlags (s.me.rK k) (fun l => (g l).2)
    fpCause s.fpcNow fl = none →
    ∃ t', exec (.vcmp c t cc k kd a b) s = .next t' ∧
      (∀ l, l < 1024 → kd ≠ 0 → (t'.me.rK kd).getLsbD l = ((s.me.rK k).getLsbD l && (g l).1)) ∧
      (∀ r, r ≠ kd → t'.me.rK r = s.me.rK r) ∧ t'.my.fpc = orFlags s.my.fpc fl ∧ SameV s t' ∧ SameA s t' ∧
      WideRan 1 c ⟨false, 0⟩ id (Core.hideVec s.cur.st) s t') ∧
  (∀ (s : State) (c : Clause) (op : KOpc) (kd a b : BitVec 3), WideReady c s →
    ∃ t, exec (.kop c op kd a b) s = .next t ∧
      WroteK s t kd (match op with
        | .and => s.me.rK a &&& s.me.rK b | .or => s.me.rK a ||| s.me.rK b | .xor => s.me.rK a ^^^ s.me.rK b
        | .andn => s.me.rK a &&& ~~~s.me.rK b | .not => ~~~s.me.rK a) ∧
      SameV s t ∧ SameA s t ∧ WideRan 1 c ⟨false, 0⟩ id Core.hideVK s t) ∧
  (∀ (s : State) (c : Clause) (kd : BitVec 3) (src : KSrc), WideReady c s →
    ∃ t, exec (.kmov c kd src) s = .next t ∧
      WroteK s t kd (match src with | .copy a => s.me.rK a | .ones => BitVec.allOnes 1024 | .zeros => 0) ∧
      SameV s t ∧ SameA s t ∧ WideRan 1 c ⟨false, 0⟩ id Core.hideVK s t) ∧
  (∀ (s : State) (c : Clause) (t : VTy) (kd : BitVec 3) (d a : BitVec 9), WideReady c s → FreeV s [d.toNat, a.toNat] →
    ∃ t', exec (.vcmpr c t kd d a) s = .next t' ∧
      (∀ r g, r < 16 → g < 16 → let p := keep24 (fun i => rank24 t (s.slot a (64 * r + 4 * g + i)))
        t'.slot d (64 * r + 2 * g) = s.slot a (64 * r + 4 * g + p.1) ∧
        t'.slot d (64 * r + 2 * g + 1) = s.slot a (64 * r + 4 * g + p.2)) ∧
      (∀ l, l < 1024 → 32 ≤ l % 64 → t'.slot d l = 0) ∧ (∀ v, v ≠ d.toNat → t'.me.rV v = s.me.rV v) ∧
      (kd ≠ 0 → ∀ r j, r < 16 → j < 32 →
        metaIdx (t'.me.rK kd) r j = (let p := keep24 (fun i => rank24 t (s.slot a (64 * r + 4 * (j / 2) + i)))
          if j % 2 = 0 then p.1 else p.2)) ∧
      (∀ r, r ≠ kd → t'.me.rK r = s.me.rK r) ∧ SameA s t' ∧ WideRan 1 c ⟨false, 0⟩ id Core.hideVK s t') ∧
  (∀ (s : State) (c : Clause) (d : BitVec 5) (a : BitVec 9) (row : BitVec 4) (col : BitVec 6) (sx : Bool), WideReady c s →
    FreeV s [a.toNat] →
    ∃ t, exec (.vtoa c d a row col sx) s = .next t ∧
      WroteA s t d (let x := s.slot a (64 * row.toNat + col.toNat); if sx then x.signExtend 64 else x.setWidth 64) ∧
      WideRan 1 c ⟨false, 0⟩ id id s t) ∧
  (∀ (i : Instr) (s : State) (c : Clause) (d a : BitVec 9) (f : Nat → W32) (fl : Flags),
    redValue s i = some (c, d, a, f, fl) → WideReady c s → FreeV s [d.toNat, a.toNat] → fpCause s.fpcNow fl = none →
    ∃ t, exec i s = .next t ∧ WroteV s t d f ∧ t.my.fpc = orFlags s.my.fpc fl ∧ SameK s t ∧ SameA s t ∧
      WideRan 1 c ⟨false, 0⟩ id (Core.hideVec s.cur.st) s t)

/-! ### FET and EMI -/

/-- R207, R208, R213, R214, R220: LDV and LDVA fill a block of V registers with the elements of strided rows, LDVA
transposed; LDVT reads a tile's elements, zero outside it; LDK reads a mask. PREF changes nothing. PREF as a hint
without effect: log 18. -/
def Obligations.VectorLoads : Prop :=
  (∀ (s s1 : State) (c : Clause) (t : Elem) (d : BitVec 9) (base idx : BitVec 5) (off : BitVec 20) (bs : List (List Byte)),
    let sh := shapeIn s idx
    let va := s.rA base + off.signExtend 64
    let at_ (r k : Nat) : W32 := widen t ((unpackRow t sh.cols (bs.getD r [])).getD k 0)
    WideReady c s → BlockOk s t sh va → readRanges (s.popped c) (rowRanges t sh va.toNat) = .ok (bs, s1) →
    (blockOk d.toNat sh.rows sh.cols = true → FreeV s (blockRegs d.toNat sh.rows sh.cols) →
      ∃ t', exec (.ldv c t d base idx off) s = .next t' ∧
        (∀ r k, r < sh.rows → k < sh.cols → blockSlot t'.me d.toNat sh.cols r k = at_ r k) ∧
        (∀ v, v ∉ blockRegs d.toNat sh.rows sh.cols → t'.me.rV v = s.me.rV v) ∧ SameA s t' ∧ SameK s t' ∧ SameBytes s t' ∧
        WideRan 1 c ⟨false, 0⟩ State.hideAccess (fun k => k.hideVK.hideAccess) s t') ∧
    (blockOk d.toNat sh.cols sh.rows = true → FreeV s (blockRegs d.toNat sh.cols sh.rows) →
      ∃ t', exec (.ldva c t d base idx off) s = .next t' ∧
        (∀ r k, r < sh.rows → k < sh.cols → blockSlot t'.me d.toNat sh.rows k r = at_ r k) ∧
        (∀ v, v ∉ blockRegs d.toNat sh.cols sh.rows → t'.me.rV v = s.me.rV v) ∧ SameA s t' ∧ SameK s t' ∧ SameBytes s t' ∧
        WideRan 1 c ⟨false, 0⟩ State.hideAccess (fun k => k.hideVK.hideAccess) s t')) ∧
  (∀ (s : State) (c : Clause) (t : Elem) (d : BitVec 9) (hr : BitVec 6) (row col : BitVec 9) (m : LdvtMode) (packed : Bool),
    let h := s.rH hr
    let x := s.folio (hCore h) (hFolio h)
    let raw (r k : Nat) : Nat := if r < x.rows ∧ k < x.cols then tileElem s (hCore h) x (r * x.cols + k) else 0
    WideReady c s → TileHere s h → hRights h % 2 = 1 → x.fmt = t → x.state ≠ .filling → FreeV s [d.toNat] →
    (s.core (hCore h)).storePoison = [] → (packed = true → m = .direct ∧ col.toNat % 4 = 0) →
    ∃ t', exec (.ldvt c t d hr row col m packed) s = .next t' ∧
      WroteV s t' d (fun l =>
        if packed then
          if l % 64 < 12 then
            BitVec.ofNat 32 (string6 (fun k => raw (row.toNat + l / 64) (col.toNat + k)) / 2 ^ (32 * (l % 64)))
          else 0
        else
          let p := ldvtAt m row.toNat col.toNat (l / 64) (l % 64)
          if p.1 < x.rows ∧ p.2 < x.cols then widen t (raw p.1 p.2) else zeroOf t) ∧
      SameA s t' ∧ SameK s t' ∧ WideRan 1 c ⟨false, 0⟩ id Core.hideVK s t') ∧
  (∀ (s s1 : State) (c : Clause) (kd : BitVec 3) (base : BitVec 5) (off : BitVec 20) (bs : List (List Byte)),
    let va := s.rA base + off.signExtend 64
    WideReady c s → va.toNat % 8 = 0 → straddles s s.me.ctxOf va.toNat 128 = false →
    readRanges (s.popped c) [(va.toNat, 128)] = .ok (bs, s1) →
    ∃ t, exec (.ldk c kd base off) s = .next t ∧ WroteK s t kd (BitVec.ofNat 1024 (leNat bs.flatten)) ∧ SameV s t ∧
      SameA s t ∧ SameBytes s t ∧ WideRan 1 c ⟨false, 0⟩ State.hideAccess (fun k => k.hideVK.hideAccess) s t) ∧
  (∀ (s : State) (c : Clause) (base : BitVec 5) (off : BitVec 20), WideReady c s →
    ∃ t, exec (.pref c base off) s = .next t ∧ SameA s t ∧ WideRan 1 c ⟨false, 0⟩ id id s t)

/-- R215 to R217: GATH reads, for each selected lane, the element at A[b] plus the lane's scaled index; BTGATH reads
it through the block table, and a lane without a block is zero. Other lanes keep their values. The block of a token is
the entry of the table that it names, 4 bytes each, or what the block translation buffer holds of it. What the block
translation buffer holds is a choice of the turn (log 16); a misaligned table is the model's reading (log 41). -/
def Obligations.Gathers : Prop :=
  (∀ (s s1 : State) (c : Clause) (t : Elem) (k : BitVec 3) (d va : BitVec 9) (ab : BitVec 5) (bs : List (List Byte)),
    let ls := selected s k
    let ea (l : Nat) : W64 := s.rA ab + BitVec.ofInt 64 ((s.slot va l).toInt * (ebits t / 8 : Nat))
    WideReady c s → FreeV s [d.toNat, va.toNat] → (∀ l ∈ ls, (ea l).toNat % ealign t = 0) →
    readRanges (s.popped c) (ls.map (fun l => ((ea l).toNat, ebits t / 8))) (ealign t) = .ok (bs, s1) →
    ∃ t', exec (.gath c t k d va ab) s = .next t' ∧
      (∀ (i l : Nat), ls[i]? = some l → t'.slot d l = widen t (leNat (bs.getD i []))) ∧
      (∀ l, l ∉ ls → t'.slot d l = s.slot d l) ∧ (∀ v, v ≠ d.toNat → t'.me.rV v = s.me.rV v) ∧ SameA s t' ∧ SameK s t' ∧
      SameBytes s t' ∧ WideRan 1 c ⟨false, 0⟩ State.hideAccess (fun k => k.hideVK.hideAccess) s t') ∧
  (∀ (s s1 s2 : State) (c : Clause) (t : Elem) (k : BitVec 3) (d va : BitVec 9) (aT aP : BitVec 5) (tab : List Byte)
      (vals : List (List Byte)) (n n2 : Nat),
    let e := ebits t / 8
    let w := s.rA (aP + 1)
    let pool := s.rA aP
    let stride := (fld w 0 32).toNat
    let first := (fld w 32 16).toNat
    let block (r : Nat) : Nat := leNat ((tab.drop (4 * r)).take 4)
    let ea (l : Nat) : Option W64 :=
      match (tokens s va).getD (l / 64) none with
      | none => none
      | some x => if block (l / 64) = 0xFFFFFFFF then none
          else some (pool + BitVec.ofNat 64 ((16 * block (l / 64) + x % 16) * stride + (first + l % 64) * e))
    let live := (selected s k).filterMap (fun l => (ea l).map (fun a => (l, a)))
    WideReady c s → FreeV s [d.toNat, va.toNat] → fld w 48 16 = 0 → pool.toNat % e = 0 → stride % e = 0 → first % e = 0 →
    (s.rA aT).toNat % 4 = 0 → tableRead (acqPart (s.popped c) s.attr) (s.rA aT) (tokens s va) = .ok (tab, s1, n) →
    readSome s1 n (live.map (fun p => (p.2.toNat, e))) = .ok (vals, s2, n2) →
    ∃ t', exec (.btgath c t k d va aT aP) s = .next t' ∧
      (∀ (i l : Nat) (a : W64), live[i]? = some (l, a) → t'.slot d l = widen t (leNat (vals.getD i []))) ∧
      (∀ l ∈ selected s k, ea l = none → t'.slot d l = zeroOf t) ∧ (∀ l, l ∉ selected s k → t'.slot d l = s.slot d l) ∧
      (∀ v, v ≠ d.toNat → t'.me.rV v = s.me.rV v) ∧ SameA s t' ∧ SameK s t' ∧ SameBytes s t' ∧
      WideRan 1 c ⟨false, 0⟩ State.hideAccess (fun k => k.hideVK.hideAccess) s t') ∧
  (∀ (s s1 : State) (aT : W64) (toks : List (Option Nat)) (bs : List (List Byte)) (n : Nat),
    let held := if s.choice 0 then s.me.btb else []
    let entry (x : Nat) : Nat := (aT + BitVec.ofNat 64 (4 * (x / 16))).toNat
    let want := (toks.filterMap (Option.map entry)).eraseDups.filter (fun a => (look a held).isNone)
    s.my.asked = 0 → readSome s 0 (want.map (fun a => (a, 4))) = .ok (bs, s1, n) →
    ∃ tab s2, tableRead s aT toks = .ok (tab, s2, n + 1) ∧
      ∀ r x, toks[r]? = some (some x) → leNat ((tab.drop (4 * r)).take 4) =
        ((look (entry x) held).orElse (fun _ => look (entry x) (want.zip (bs.map leNat)))).getD 0 % 2 ^ 32)

/-- R209 to R212, R218, R226, R228, R230: an asynchronous instruction of FET that passes its checks takes the next
number of FA with what it captures, and FET goes on; LDT and RROT put the handle of the tile that their engine will
fill in H[d]. -/
def Obligations.FetchOperations : Prop :=
  (∀ (s : State) (c : Clause) (t : Elem) (hd : BitVec 6) (base idx : BitVec 5) (off : BitVec 20) (f : Nat) (s1 : State),
    let sh := shapeIn s idx
    let va := s.rA base + off.signExtend 64
    let h := mkHandle 1 s.dev s.cur.core f (s.folio s.cur.core f).gen 0 7
    WideReady c s → (s.me.tlOf .fa).mark = none → BlockOk s t sh va → isNull (s.rH hd) = true →
    newTile s.cur.core s.me.ctxOf t sh.rows sh.cols .filling false false s = some (f, s1) →
    ∃ t', exec (.ldt c t hd base idx off) s = .next t' ∧ WroteH s t' hd h ∧
      Queued .fa (.ldt c t hd base idx off)
        ([h, va, BitVec.ofNat 64 sh.stride] ++ tileArgs (s1.folio s.cur.core f)) [] [] s t' ∧
      (t'.folio s.cur.core f).state = .filling ∧ (t'.folio s.cur.core f).rows = sh.rows ∧
      (t'.folio s.cur.core f).cols = sh.cols ∧ (t'.folio s.cur.core f).count = 1 ∧ SameA s t' ∧ SameBytes s t' ∧
      WideRan 1 c ⟨false, 0⟩ id Core.hideFill s t') ∧
  (∀ (s s1 : State) (c : Clause) (base : BitVec 5) (off : BitVec 20) (d : List W64),
    let va := s.rA base + off.signExtend 64
    WideReady c s → (s.me.tlOf .fa).mark = none →
    (readDesc (s.popped c) va 128 = .ok (d, s1) → cecBad d = false → relPart s1 s.attr = .ok () →
      ∃ t, exec (.cec c base off) s = .next t ∧ Queued .fa (.cec c base off) (0 :: d) [] [] s t ∧ SameA s t ∧ SameH s t ∧
        SameBytes s t ∧ WideRan 1 c ⟨false, 0⟩ State.hideAccess Core.hideOps s t) ∧
    (readDesc (s.popped c) va 64 = .ok (d, s1) →
      let g (i : Nat) : W64 := d.getD i 0
      let k := (fld (g 3) 0 5).toNat
      (g 0).toNat % 4096 = 0 → (g 1).toNat % 4096 = 0 → (g 2).toNat % 16 = 0 → fld (g 3) 5 59 = 0 → 4 ≤ k → k ≤ 24 →
      fld (g 4) 2 62 = 0 → g 5 = 0 → g 6 = 0 → g 7 = 0 → (∀ e, leafSlot s1 s1.me.ctxOf (g 1).toNat = .error e → e ≠ 0x81) →
      relPart s1 s.attr = .ok () →
      ∃ t, exec (.cedup c base off) s = .next t ∧
        Queued .fa (.cedup c base off) [0, g 0, g 1, g 2, BitVec.ofNat 64 k, va + 32] [] [] s t ∧ SameA s t ∧ SameH s t ∧
        SameBytes s t ∧ WideRan 1 c ⟨false, 0⟩ State.hideAccess Core.hideOps s t) ∧
    (∀ hd : BitVec 6, readDesc (s.popped c) va 64 = .ok (d, s1) →
      let g (i : Nat) : W64 := d.getD i 0
      let n := (fld (g 2) 0 32).toNat
      let t0 := elemOf (fld (g 2) 32 4).toNat
      let op := (fld (g 2) 36 2).toNat
      let rows := (fld (g 4) 0 16).toNat
      let cols := (fld (g 4) 16 16).toNat
      (fld (g 2) 32 4).toNat ≤ 11 → (fld (g 2) 32 4).toNat ≠ 8 → op ≤ 1 →
      (op = 0 → t0 = .f32 ∨ t0 = .b16 ∨ t0 = .i32 ∨ t0 = .n32) → 1 ≤ n → n ≤ 2 ^ 24 → fld (g 2) 38 26 = 0 →
      fld (g 3) 48 16 = 0 → (g 0).toNat % (ebits t0 / 8) = 0 →
      inColl (fld (g 3) 0 16) (fld (g 3) 16 16) (s.dev % 256) = true → g 5 = 0 → g 6 = 0 → g 7 = 0 →
      relPart s1 s.attr = .ok () →
      (hd = 0 → (g 1).toNat % (ebits t0 / 8) = 0 →
        ∃ t, exec (.cecol c hd base off) s = .next t ∧
          Queued .fa (.cecol c hd base off) [0, g 0, g 1, g 2, g 3] [] [] s t ∧ SameA s t ∧ SameH s t ∧ SameBytes s t ∧
          WideRan 1 c ⟨false, 0⟩ State.hideAccess Core.hideOps s t) ∧
      (∀ f s2, hd ≠ 0 → rows * cols = n → shapeOk t0 rows cols = true → isNull (s.rH hd) = true →
        newTile s.cur.core s.me.ctxOf t0 rows cols .filling false false s1 = some (f, s2) →
        let h := mkHandle 1 s.dev s.cur.core f (s.folio s.cur.core f).gen 0 7
        ∃ t, exec (.cecol c hd base off) s = .next t ∧ WroteH s t hd h ∧
          Queued .fa (.cecol c hd base off) (h :: [g 0, g 1, g 2, g 3] ++ tileArgs (s2.folio s.cur.core f)) [] [] s t ∧
          (t.folio s.cur.core f).state = .filling ∧ SameA s t ∧ SameBytes s t ∧
          WideRan 1 c ⟨false, 0⟩ State.hideAccess Core.hideFill s t))) ∧
  (∀ (s s1 s2 : State) (c : Clause) (hd hs : BitVec 6) (ra : BitVec 5) (f : Nat),
    let h := s.rH hs
    let there := (fld (s.rA ra) 0 7).toNat
    let x := s.folio (hCore h) (hFolio h)
    let d := mkHandle 1 s.dev there f (s.folio there f).gen 0 7
    WideReady c s → s.cur.st = .fet → (s.me.tlOf .fa).mark = none → TileHere s h → hRights h % 2 = 1 →
    fld (s.rA ra) 7 57 = 0 → (hd = hs ∨ isNull (s.rH hd) = true) →
    newTile there s.me.ctxOf x.fmt x.rows x.cols .filling false false s = some (f, s1) →
    takePin .fa ((s.me.tlOf .fa).issued + 1) h s1 = .ok s2 →
    ∃ t, exec (.rrot c hd hs ra) s = .next t ∧ WroteH2 s t hs 0 hd d ∧
      Queued .fa (.rrot c hd hs ra) ([d, h, BitVec.ofNat 64 x.bytes] ++ tileArgs (s2.folio there f)) [] [h] s t ∧
      (t.folio there f).state = .filling ∧ SameA s t ∧ SameBytes s t ∧ t.my.pc = (s.my.next 8 8).pc ∧
      Tokens c ⟨false, 0⟩ s t ∧ (∀ k, k ≠ there → k ≠ s.cur.core → t.core k = s.core k) ∧
      (t.me.restWide s.cur.st).hideFill = (s.me.restWide s.cur.st).hideFill ∧
      { t.rest with msgs := [] } = { s.rest with msgs := [] })

/-- R275: SPOPV takes the next items of a stream into rows of V[d], SPUSHV sends rows of V[d] as items. -/
def Obligations.VectorStreams : Prop :=
  (∀ (s : State) (c : Clause) (d : BitVec 9) (hr : BitVec 6) (n : BitVec 4) (e : REnd) (its : List Item),
    let an := anchorOf (s.rH hr)
    WideReady c s → endCheck s (s.rH hr) 3 = .ok 0 → s.me.rend an = some e → FreeV s [d.toNat] →
    nextItems s e (n.toNat + 1) = some its → (∀ it ∈ its, it.mask = 0 ∧ it.poison = false) →
    ∃ t, exec (.spopv c d hr n) s = .next t ∧
      WroteV s t d (fun l => if l / 64 ≤ n.toNat ∧ l % 64 < 16 then
        fld ((its.getD (l / 64) ⟨[], 0, false⟩).words.getD (l % 64 / 2) 0) (32 * (l % 2)) 32 else 0) ∧
      (t.me.rend an).map (·.pop) = some (e.pop + n.toNat + 1) ∧ SameA s t ∧ SameK s t ∧ SameH s t ∧
      WideRan 1 c ⟨false, 0⟩ State.hideStreams (fun k => k.hideVK.hideEnds.hideAccess) s t) ∧
  (∀ (s : State) (c : Clause) (d : BitVec 9) (hr : BitVec 6) (n : BitVec 4) (e : WEnd),
    let an := anchorOf (s.rH hr)
    let q := s.me.tlOf .sq
    WideReady c s → endCheck s (s.rH hr) 2 = .ok 0 → q.mark = none → s.me.wend an = some e → e.orphan = 0 →
    e.room (n.toNat + 1) = true → e.toDev = s.dev % 256 → FreeV s [d.toNat] → MayRelease (s.popped c) .sys →
    ∃ t, exec (.spushv c d hr n) s = .next t ∧
      t.msgs = s.msgs ++ (List.range (n.toNat + 1)).map (fun j => Msg.item an (e.push + j)
        { words := (List.range 8).map (fun i => s.slot d (64 * j + 2 * i + 1) ++ s.slot d (64 * j + 2 * i)), mask := 0,
          poison := false } e.toCore s.cur.core (q.issued + 1 + j) (s.dev % 256)) ∧
      (t.me.wend an).map (·.push) = some (e.push + n.toNat + 1) ∧ (t.me.tlOf .sq).issued = q.issued + n.toNat + 1 ∧
      SameA s t ∧ SameV s t ∧ SameK s t ∧ SameH s t ∧ SameBytes s t ∧
      WideRan 1 c ⟨false, 0⟩ (fun x => { x with msgs := [] }) Core.hideEnds s t)

/-- R208, R209, R215, R220, R223, R239: STVA, SCAT and STK put the bytes of their elements in the core's store path,
each at its own address, when every range has passed its checks; the narrowing's flags are ORed into FPC. DAZ before a
B16 store is the model's reading of R158 (log 39). -/
def Obligations.VectorStores : Prop :=
  (∀ (s s1 : State) (c : Clause) (t : Elem) (sat : Bool) (d : BitVec 9) (base idx : BitVec 5) (off : BitVec 20),
    let sh := shapeIn s idx
    let va := s.rA base + off.signExtend 64
    let row (r : Nat) := narrowAll s.fpcNow sat t
      (capturedRow (captureBlock s.me d.toNat (nreg sh.rows sh.cols)) sh.cols r)
    let fl : Flags := (List.range sh.rows).foldl (fun (f : Flags) r => f ||| (row r).2) 0
    WideReady c s → BlockOk s t sh va → blockOk d.toNat sh.rows sh.cols = true →
    FreeV s (blockRegs d.toNat sh.rows sh.cols) → fpCause s.fpcNow fl = none →
    writeRanges (s.popped c)
      ((List.range sh.rows).map (fun r => (va.toNat + r * sh.stride, packRow t (row r).1))) = .ok s1 →
    ∃ t', exec (.stva c t sat d base idx off) s = .next t' ∧ t'.me.stores = s1.me.stores ∧
      t'.my.fpc = orFlags s.my.fpc fl ∧ SameA s t' ∧ SameV s t' ∧ SameK s t' ∧ SameBytes s t' ∧
      WideRan 1 c ⟨false, 0⟩ State.hideAccess (fun k => (k.hideVec s.cur.st).hideStores) s t') ∧
  (∀ (s s1 : State) (c : Clause) (t : Elem) (k : BitVec 3) (sat : Bool) (va vb : BitVec 9) (ab : BitVec 5),
    let ls := selected s k
    let ea (l : Nat) : W64 := s.rA ab + BitVec.ofInt 64 ((s.slot va l).toInt * (ebits t / 8 : Nat))
    let x (l : Nat) := narrow s.fpcNow sat t (s.slot vb l)
    let fl := laneFlags (s.me.rK k) (fun l => (x l).2)
    WideReady c s → FreeV s [va.toNat, vb.toNat] → (∀ l ∈ ls, (ea l).toNat % ealign t = 0) → fpCause s.fpcNow fl = none →
    writeRanges (s.popped c) (ls.map (fun l => ((ea l).toNat, leBytes (ebits t / 8) (x l).1))) (ealign t) = .ok s1 →
    ∃ t', exec (.scat c t k sat va vb ab) s = .next t' ∧ t'.me.stores = s1.me.stores ∧
      t'.my.fpc = orFlags s.my.fpc fl ∧ SameA s t' ∧ SameV s t' ∧ SameK s t' ∧ SameBytes s t' ∧
      WideRan 1 c ⟨false, 0⟩ State.hideAccess (fun k => (k.hideVec s.cur.st).hideStores) s t') ∧
  (∀ (s s1 : State) (c : Clause) (k : BitVec 3) (base : BitVec 5) (off : BitVec 20),
    let va := s.rA base + off.signExtend 64
    WideReady c s → va.toNat % 8 = 0 → straddles s s.me.ctxOf va.toNat 128 = false →
    writeRanges (s.popped c) [(va.toNat, leBytes 128 (s.me.rK k).toNat)] = .ok s1 →
    ∃ t, exec (.stk c k base off) s = .next t ∧ t.me.stores = s1.me.stores ∧ SameA s t ∧ SameV s t ∧ SameK s t ∧
      SameBytes s t ∧ WideRan 1 c ⟨false, 0⟩ State.hideAccess Core.hideStores s t) ∧
  (∀ (s s1 : State) (va : W64) (bs : List Byte) (tr : Tr), s.my.asked = 0 → relPart s s.attr = .ok () → bs ≠ [] →
    va.toNat % 4096 + bs.length ≤ 4096 → va.toNat + bs.length ≤ 0xE000000000000 → s.cur.choice = 0 →
    writePlace s va = .ok (tr, s1) →
    ∃ t, writeRanges s [(va.toNat, bs)] = .ok t ∧
      t.me.stores = s.me.stores ++ [{ st := s.cur.st, pa := tr.pa, bytes := bs, poison := false, seen0 := false, seen1 := false }])

/-- R209 to R211, R221, R222, R224, R225, R155: an asynchronous instruction of EMI that passes its checks takes the
next number of EA with the slots, the tile or the record that it captures, and EMI goes on. -/
def Obligations.EmitOperations : Prop :=
  (∀ (s : State) (c : Clause) (t : Elem) (sat : Bool) (hd : BitVec 6) (va : BitVec 9) (idx : BitVec 5) (f : Nat) (s1 : State),
    let sh := shapeIn s idx
    let h := mkHandle 1 s.dev s.cur.core f (s.folio s.cur.core f).gen 0 7
    WideReady c s → (s.me.tlOf .ea).mark = none → shapeOk t sh.rows sh.cols = true →
    blockOk va.toNat sh.rows sh.cols = true → FreeV s (blockRegs va.toNat sh.rows sh.cols) → isNull (s.rH hd) = true →
    newTile s.cur.core s.me.ctxOf t sh.rows sh.cols .filling false false s = some (f, s1) →
    ∃ t', exec (.stv c t sat hd va idx) s = .next t' ∧ WroteH s t' hd h ∧
      Queued .ea (.stv c t sat hd va idx) (h :: tileArgs (s1.folio s.cur.core f))
        (captureBlock s.me va.toNat (nreg sh.rows sh.cols)) [] s t' ∧
      (t'.folio s.cur.core f).state = .filling ∧ SameA s t' ∧ SameV s t' ∧ SameBytes s t' ∧
      WideRan 1 c ⟨false, 0⟩ id Core.hideFill s t') ∧
  (∀ (s s1 : State) (c : Clause) (t : Elem) (hr : BitVec 6) (base idx : BitVec 5) (off : BitVec 20),
    let sh := shapeIn s idx
    let va := s.rA base + off.signExtend 64
    let h := s.rH hr
    WideReady c s → (s.me.tlOf .ea).mark = none → BlockOk s t sh va → handleBits h 0 = none →
    (atHome s h = true → sttBad s s.me.ctxOf h t sh.rows sh.cols = none) → relPart (s.popped c) s.attr = .ok () →
    takePin .ea ((s.me.tlOf .ea).issued + 1) h s = .ok s1 →
    ∃ t', exec (.stt c t hr base idx off) s = .next t' ∧
      Queued .ea (.stt c t hr base idx off)
        [0, va, BitVec.ofNat 64 sh.stride, BitVec.ofNat 64 sh.rows, BitVec.ofNat 64 sh.cols, h] [] [h] s t' ∧ SameA s t' ∧
      SameH s t' ∧ SameBytes s t' ∧ WideRan 1 c ⟨false, 0⟩ (fun x => { x with msgs := [] }) Core.hideFill s t') ∧
  (∀ (s s1 : State) (c : Clause) (t : Elem) (op : StredOp) (sat : Bool) (d : BitVec 9) (base idx : BitVec 5)
      (off : BitVec 20) (r : List W64),
    WideReady c s → (s.me.tlOf .ea).mark = none → FreeV s [d.toNat] →
    readTensor (s.popped c) t (s.rA base + off.signExtend 64) = .ok (r, s1) → relPart s1 s.attr = .ok () →
    ∃ t', exec (.stred c t op sat d base idx off) s = .next t' ∧
      Queued .ea (.stred c t op sat d base idx off) (0 :: s.rA idx :: r) (s.me.rV d.toNat) [] s t' ∧ SameA s t' ∧
      SameV s t' ∧ SameH s t' ∧ SameBytes s t' ∧ WideRan 1 c ⟨false, 0⟩ State.hideAccess Core.hideOps s t')

/-! ### The matrix engine -/

/-- R23, R24, R166, R167, R173, R180 to R183: MLEASE ends a lease that is held, asks, and waits for its grant (one that was
withdrawn and issues again: log 49), MREL ends the lease; BLEND lends a
bank and takes it back; MZERO and MDRAIN are queued; MSTAT reads its flags and may clear them, MROWP reads the row
pointer, and its write is privileged. -/
def Obligations.MatrixInstructions : Prop :=
  (∀ (c : Clause) (g : Bool) (s : State), WideReady c s →
    (s.me.lease.asking = true → s.me.lease.st = .held →
      ∃ t, exec (.mlease c g) s = .next t ∧ t.me.lease = { s.me.lease with asking := false } ∧ SameA s t ∧
        WideRan 1 c ⟨false, 0⟩ id (fun k => { k with lease := .init }) s t) ∧
    (s.me.lease.st = .req → (s.me.lease.asking = true ∨ s.me.lease.gang = g) →
      ∃ t, exec (.mlease c g) s = .next t ∧ t.me.lease = { s.me.lease with asking := true } ∧ t.my.pc = s.my.pc ∧ SameA s t ∧
        (∀ x y, t.me.queue x y = s.me.queue x y)) ∧
    (¬(s.me.lease.asking = true ∧ s.me.lease.st = .held) →
      ¬(s.me.lease.st = .req ∧ (s.me.lease.asking = true ∨ s.me.lease.gang = g)) → ∃ t, exec (.mlease c g) s = .next t ∧
      t.me.lease = { Lease.init with st := .req, gang := g, since := s.cycle, asking := true } ∧ t.my.pc = s.my.pc ∧
      SameA s t ∧ (∀ x y, t.me.queue x y = s.me.queue x y))) ∧
  (∀ (c : Clause) (s : State), WideReady c s →
    ∃ t, exec (.mrel c) s = .next t ∧ t.me.lease.st = .none ∧ SameA s t ∧
      WideRan 1 c ⟨false, 0⟩ id (fun k => { k with lease := .init }) s t) ∧
  (∀ (c : Clause) (b : BitVec 4) (s : State), WideReady c s → b.toNat < 12 →
    (s.me.lent.getLsbD b.toNat = false → (∀ v ∈ inUse s s.cur.core, v / 32 ≠ b.toNat) →
      ∃ t, exec (.blend c b false) s = .next t ∧
        (∀ i, i < 12 → t.me.lent.getLsbD i = (i == b.toNat || s.me.lent.getLsbD i)) ∧ SameA s t ∧
        WideRan 1 c ⟨false, 0⟩ id (fun k => { k with lent := 0 }) s t) ∧
    (s.me.lent.getLsbD b.toNat = true → (∀ o ∈ s.me.opsOf .mx, readsBank b.toNat o = false) →
      ∃ t, exec (.blend c b true) s = .next t ∧
        (∀ i, i < 12 → t.me.lent.getLsbD i = (i != b.toNat && s.me.lent.getLsbD i)) ∧ SameA s t ∧
        WideRan 1 c ⟨false, 0⟩ id (fun k => { k with lent := 0 }) s t) ∧
    (s.me.lent.getLsbD b.toNat = true →
      exec (.blend c b false) s = .next (takeTrap s.cur.core s.cur.st ⟨0x54, 0, 0, none, none⟩ (s.popped c)))) ∧
  (∀ (c : Clause) (m n zcol : BitVec 9) (zrow : BitVec 7) (s : State), WideReady c s → (s.me.tlOf .mx).mark = none →
    zrow.toNat + m.toNat < 128 → zcol.toNat + n.toNat < 512 →
    ∃ t, exec (.mzero c m n zrow zcol) s = .next t ∧ Queued .mx (.mzero c m n zrow zcol) [0] [] [] s t ∧ SameA s t ∧
      SameBytes s t ∧ WideRan 1 c ⟨false, 0⟩ id Core.hideOps s t) ∧
  (∀ (c : Clause) (dest : Dest) (t : Elem) (sat clip z : Bool) (scl : Option (BitVec 5)) (m n zcol : BitVec 9)
      (zrow : BitVec 7) (s : State), WideReady c s → (s.me.tlOf .mx).mark = none →
    zrow.toNat + m.toNat < 128 → zcol.toNat + n.toNat < 512 →
    let i := Instr.mdrain c dest t sat clip z scl m n zrow zcol
    let sv : W64 := match scl with | some a => BitVec.ofNat 64 (2 ^ 32 + (s.rA a).toNat % 2 ^ 32) | none => 0
    let regs (v : BitVec 9) := blockRegs v.toNat (m.toNat + 1) (n.toNat + 1)
    (∀ hd f s1, dest = .tile hd → isNull (s.rH hd) = true →
      newTile s.cur.core s.me.ctxOf t (m.toNat + 1) (n.toNat + 1) .filling false false s = some (f, s1) →
      let h := mkHandle 1 s.dev s.cur.core f (s.folio s.cur.core f).gen 0 7
      ∃ t', exec i s = .next t' ∧ WroteH s t' hd h ∧ Queued .mx i ([h, sv] ++ tileArgs (s1.folio s.cur.core f)) [] [] s t' ∧
        SameA s t' ∧ SameBytes s t' ∧ WideRan 2 c ⟨false, 0⟩ id Core.hideFill s t') ∧
    (∀ v, dest = .vregs v → FreeV s (regs v) →
      ∃ t', exec i s = .next t' ∧ Queued .mx i [0, sv] [] [] s t' ∧ t'.me.vPend = s.me.vPend ++ regs v ∧ SameV s t' ∧
        SameA s t' ∧ SameBytes s t' ∧ WideRan 2 c ⟨false, 0⟩ id (fun k => { k.hideOps with vPend := [] }) s t') ∧
    (∀ a d s1, (dest = .store a ∨ dest = .add a) → readTensor (s.popped c) t (s.rA a) = .ok (d, s1) →
      relPart s1 s.attr = .ok () →
      ∃ t', exec i s = .next t' ∧ Queued .mx i ([0, sv] ++ d) [] [] s t' ∧ SameA s t' ∧ SameBytes s t' ∧
        WideRan 2 c ⟨false, 0⟩ State.hideAccess Core.hideOps s t')) ∧
  (∀ (c : Clause) (d : BitVec 5) (clr : Bool) (s : State), WideReady c s →
    ∃ t, exec (.mstat c d clr) s = .next t ∧ WroteA s t d s.me.mstat ∧ t.me.mstat = (if clr then 0 else s.me.mstat) ∧
      WideRan 1 c ⟨false, 0⟩ id (fun k => { k with mstat := 0 }) s t) ∧
  (∀ (c : Clause) (d a : BitVec 5) (s : State), WideReady c s →
    (∃ t, exec (.mrowp c d none) s = .next t ∧ WroteA s t d (BitVec.ofNat 64 s.me.mrowp) ∧
      WideRan 1 c ⟨false, 0⟩ id id s t) ∧
    exec (.mrowp c d (some a)) s = .next (takeTrap s.cur.core s.cur.st ⟨0x02, 0, 0, none, none⟩ (s.popped c)))

/-- R166, R169, R177 to R179: MMA and MMAG under a lease that serves them, with operands that pass the checks, are
queued with their operands pinned; MMAG's counts are read from its count tile. Without the lease they are MTX_NO_LEASE
(0x50). -/
def Obligations.MatrixProducts : Prop :=
  (∀ (c : Clause) (fa fb : MFmt) (g z0 sc : Bool) (a : ASrc) (b : BSrc) (m n k zcol : BitVec 9) (zrow : BitVec 7)
      (hsa hsb : BitVec 6) (p : Product) (s s1 : State), WideReady c s → (s.me.tlOf .mx).mark = none →
    let i := Instr.mma c fa fb g z0 sc a b m n k zcol zrow hsa hsb
    let bx : List W64 := match b with | .handle h => [s.rH h, 0] | .va r => [s.rA r, s.rA (r + 1)]
    let args := 0 :: aSrcArgs s a ++ [s.rH hsa] ++ [BitVec.ofNat 64 (m.toNat + 1)] ++ bx ++ [s.rH hsb]
    (Leased s g → productOf s.cur.core (asOp i args) = some p → ProductOk s p →
      ((p.tiles (suppliesB s.cur.core p)).map (·.1)).foldlM
        (fun (x : State) h => takePin .mx ((s.me.tlOf .mx).issued + 1) h x) s = .ok s1 →
      ∃ t, exec i s = .next t ∧ ProductQueued i p args c s t) ∧
    (s.me.lease.st ≠ .held →
      exec i s = .next (takeTrap s.cur.core s.cur.st ⟨0x50, 0, 0, none, none⟩ (s.popped c)))) ∧
  (∀ (c : Clause) (fa fb : MFmt) (z0 sc : Bool) (a : ASrc) (hb hc : BitVec 6) (grp : BitVec 4) (m n k zcol : BitVec 9)
      (zrow : BitVec 7) (hsa hy : BitVec 6) (counts : List Int) (p : Product) (s s1 : State), WideReady c s →
    (s.me.tlOf .mx).mark = none → Leased s false →
    let i := Instr.mmag c fa fb false z0 sc a hb hc grp m n k zcol zrow hsa hy
    let groups := counts.zipIdx.map (fun p =>
      [BitVec.ofNat 64 p.1.toNat, s.rH (hb + BitVec.ofNat 6 p.2), 0, if sc then s.rH (hy + BitVec.ofNat 6 p.2) else 0])
    let args := 0 :: aSrcArgs s a ++ [s.rH hsa] ++ groups.flatten
    readCounts (s.popped c) (s.rH hc) (grp.toNat + 1) = .ok counts → (∀ x ∈ counts, 0 ≤ x) →
    counts.foldl (· + ·) 0 ≤ (m.toNat + 1 : Int) → productOf s.cur.core (asOp i args) = some p → ProductOk s p →
    ((p.tiles (suppliesB s.cur.core p)).map (·.1)).foldlM
      (fun (x : State) h => takePin .mx ((s.me.tlOf .mx).issued + 1) h x) s = .ok s1 →
    ∃ t, exec i s = .next t ∧ ProductQueued i p args c s t)

/-- R166, R168: the array passes to the next core asking in increasing position after the last holder, or to a gang
that has formed; a lease ends after 65,536 cycles, and an idle one is revoked, with REV, once another core has asked
for 1,024. -/
def Obligations.LeaseSteps : Prop :=
  (∀ (cl q : Nat) (s : State), cl < 32 →
    (∀ c ∈ coresOf cl, (s.core c).lease.st ≠ .held ∧ busyArray s c = false) → gangFormed s cl = false →
    nextAsker s cl = some q →
    ∃ t, exec (.leaseGrant cl) s = .next t ∧
      (t.core (coreAt cl q)).lease = { (s.core (coreAt cl q)).lease with
        st := .held, since := s.cycle, used := 0, idle := s.cycle, again := false,
        asking := (s.core (coreAt cl q)).lease.asking && !(s.core (coreAt cl q)).lease.again } ∧ (t.cluster cl).last = q ∧
      (∀ c, c ≠ coreAt cl q → t.core c = s.core c) ∧ t.mem = s.mem) ∧
  (∀ (cl : Nat) (s : State), cl < 32 → (∀ c ∈ coresOf cl, busyArray s c = false) → gangFormed s cl = true →
    ∃ t, exec (.leaseGrant cl) s = .next t ∧ (∀ c ∈ coresOf cl, (t.core c).lease.st = .held ∧ (t.core c).lease.gang = true) ∧
      (t.cluster cl).gangAt = none ∧ t.mem = s.mem) ∧
  (∀ (c : Nat) (s : State), (s.core c).lease.st = .held → (s.core c).lease.since + 65536 ≤ s.cycle →
    ∃ t, exec (.leaseExpiry c) s = .next t ∧ (t.core c).lease.st = .none ∧ (∀ c', c' ≠ c → t.core c' = s.core c') ∧
      t.mem = s.mem) ∧
  (∀ (c d : Nat) (s : State), (s.core c).lease.st = .held → (s.core c).lease.gang = false → d ∈ coresOf (clusterOf c) →
    (s.core d).lease.st = .req → busyArray s c = false → (s.core c).lease.idle + 1024 ≤ s.cycle →
    (∀ e ∈ coresOf (clusterOf c), (s.core e).lease.st = .req → (s.core e).lease.since + 1024 ≤ s.cycle) →
    ∃ t, exec (.leaseRevoke c) s = .next t ∧ (t.core c).lease.st = .none ∧ (t.core c).mstat = (s.core c).mstat ||| 0x20 ∧
      (∀ c', c' ≠ c → t.core c' = s.core c') ∧ t.mem = s.mem) ∧
  (∀ (cl at_ : Nat) (s : State), (s.cluster cl).gangAt = some at_ → gangFormed s cl = false → at_ + 1024 ≤ s.cycle →
    (∀ c ∈ coresOf cl, (s.core c).lease.st ≠ .req) →
    ∃ t, exec (.gangLeaseTimeout cl) s = .next t ∧ (t.cluster cl).gangAt = none ∧ t.cores = s.cores ∧ t.mem = s.mem) ∧
  (∀ (cl at_ c : Nat) (s : State), cl < 32 → (s.cluster cl).gangAt = some at_ → gangFormed s cl = false →
    at_ + 1024 ≤ s.cycle → c ∈ coresOf cl → (s.core c).lease.st = .req → (s.core c).lease.gang = true →
    (s.core c).mode = .u → (s.core c).live = true → (s.core c).raised = none → quiet (s.core c) .exe = true →
    ∃ t, exec (.gangLeaseTimeout cl) s = .next t ∧ (t.core c).lease.st = .none ∧ (t.core c).mode = .s ∧
      (t.core c).trapcause = 0x856 ∧ (t.cluster cl).gangAt = none)

/-- R164, R165, R172, R180 to R183: the command at the head of a core's queue starts once its tiles are FULL, with the
row pointer at 0, and completes: MZERO leaves +0 in its region and nothing else changed there, MDRAIN writes its V
registers unless its cell has ended, a product its rows; the command's number is complete once its unpins are applied. That
a command's work is one step is the model's choice (log 21). -/
def Obligations.MatrixCommands : Prop :=
  (∀ (c : Nat) (s : State) (o : Op), headOp s c = some o → o.started = false → mxReady s c o = true →
    (productOf c o = none →
      ∃ t, exec (.matrixCmdStart c) s = .next t ∧ (headOp t c).map (·.started) = some true ∧
        (t.core c).quarter = (s.core c).quarter ∧ SameBytes s t) ∧
    (∀ p, productOf c o = some p → p.gang = false →
      operandsNow s o.ctx (p.tiles (suppliesB c p)) = (none, false) →
      ∃ t, exec (.matrixCmdStart c) s = .next t ∧ (headOp t c).map (·.started) = some true ∧ (t.core c).mrowp = 0 ∧
        (t.core c).quarter = (s.core c).quarter ∧ SameBytes s t) ∧
    (∀ p, productOf c o = some p → p.gang = false → (operandsNow s o.ctx (p.tiles (suppliesB c p))).1 = none →
      (operandsNow s o.ctx (p.tiles (suppliesB c p))).2 = true → exec (.matrixCmdStart c) s = .next s)) ∧
  (∀ (c : Nat) (s : State) (o : Op) (cl : Clause) (m n zcol : BitVec 9) (zrow : BitVec 7), headOp s c = some o →
    o.started = true → mxReady s c o = true → o.i = .mzero cl m n zrow zcol → o.pins = [] →
    unpinPending s c .mx o.n = false →
    ∃ t, exec (.matrixCmdComplete c) s = .next t ∧
      (∀ i, mget 0 (t.core c).quarter i =
        if zrow.toNat ≤ i / 512 ∧ i / 512 ≤ zrow.toNat + m.toNat ∧ zcol.toNat ≤ i % 512 ∧ i % 512 ≤ zcol.toNat + n.toNat
        then 0 else mget 0 (s.core c).quarter i) ∧ o.n ∉ ((t.core c).tlOf .mx).out ∧
      (∀ x ∈ (t.core c).opsOf .mx, x.n ≠ o.n) ∧ (∀ c', c' ≠ c → t.core c' = s.core c') ∧ SameBytes s t) ∧
  (∀ (c : Nat) (s : State) (o : Op) (cl : Clause) (v : BitVec 9) (e : Elem) (sat clip z : Bool) (scl : Option (BitVec 5))
      (m n zcol : BitVec 9) (zrow : BitVec 7), headOp s c = some o → o.started = true → mxReady s c o = true →
    o.i = .mdrain cl (.vregs v) e sat clip z scl m n zrow zcol → o.pins = [] → unpinPending s c .mx o.n = false →
    ∃ t, exec (.matrixCmdComplete c) s = .next t ∧
      (opLate s c o = false →
        (∀ r k, r ≤ m.toNat → k ≤ n.toNat → blockSlot (t.core c) v.toNat (n.toNat + 1) r k =
          widen e (((drainVals s c o e sat clip zrow.toNat zcol.toNat (m.toNat + 1) (n.toNat + 1)).getD r []).getD k (0, 0)).1) ∧
        (∀ x ∈ (t.core c).vPend, x ∉ blockRegs v.toNat (m.toNat + 1) (n.toNat + 1))) ∧
      (opLate s c o = true → ∀ x, (t.core c).rV x = (s.core c).rV x) ∧ o.n ∉ ((t.core c).tlOf .mx).out ∧
      (∀ c', c' ≠ c → t.core c' = s.core c') ∧ SameBytes s t) ∧
  (∀ (c : Nat) (s s1 : State) (o : Op) (p : Product), headOp s c = some o → o.started = true → mxReady s c o = true →
    productOf c o = some p → p.gang = false → productRun [(c, o, p)] s = .ok s1 →
    ∃ t, exec (.matrixCmdComplete c) s = .next t ∧ (t.core c).quarter = (s1.core c).quarter ∧
      (t.core c).mstat = (s1.core c).mstat ∧
      (Unpins s1 c .mx (nowOp s1 c .mx o) → o.n ∉ ((t.core c).tlOf .mx).out) ∧
      (∀ x ∈ (t.core c).opsOf .mx, x.n ≠ o.n))

/-! ### Steps, reset and memory -/

/-- R33, R55, R77, R99, R106, R116, R131, R189, R212, R222, R226, R316: words of the spec's examples decode to the
instructions they stand for, and an unassigned option and an unassigned opcode to none. -/
def Obligations.DecodeWords : Prop :=
  decodeCtl 0x74024005 = some (.tkpushv 9 1) ∧ decodeCtl 0x5C920003 = some (.lds 9 8 0 .d) ∧
  decodeCtl 0x10A28001 = some (.addi 10 10 1) ∧ decodeCtl 0x80000003 = some .done ∧
  decodeCtl 0x84528B05 = some (.talloc 5 10 11 .i32) ∧ decodeCtl 0x00000504 = some (.trap 5) ∧
  decodeCtl 0x00928B06 = some (.psave 9 10 11) ∧
  decodeWide .fet 0x2018025501000100 0 = some (.ldt ⟨0, 6⟩ .e8 1 5 10 0x2000) ∧
  decodeWide .fet 0x2B0800C000000000 0 = some (.gwaitf ⟨0, 2⟩ 3) ∧
  decodeWide .exe 0x53000A0603821000 0 = some (.vfma ⟨0, 0⟩ .f32 2 false 5 6 7 8) ∧
  decodeWide .exe 0xA242193FBFC1E000 0x0540830000000000 =
    some (.mma ⟨2, 0⟩ .e8 .l8 false true true (.handle 1) (.va 20) 127 255 15 0 0 2 3) ∧
  decodeWide .emi 0xC13008550D000100 0 = some (.stt ⟨1, 4⟩ .e8 4 5 10 0x1A000) ∧
  decodeWide .exe 0x5000000000000281 0 = some (.vadd ⟨0, 0⟩ .i32 0 true 0 0 0) ∧
  decodeWide .exe 0x5000000000000001 0 = none ∧ decodeWide .exe 0xFF00000000000000 0 = none

/-- R20, R21, R36, R38, R51, R55, R79, R307, R315: where the agenda gives a strand a turn in which it may issue, the step
runs the instruction that the bytes at its pc hold: of CTL the four bytes at the translated pc, of a wide strand the dword
there, with the dword behind it for a two-word instruction. Around it stands only that the turn leaves the agenda, the
strand becomes the current one, and the loads it performed ahead are followed. An instruction of CTL that depends on a
load not yet returned waits, EXE waits for a lease that is asked for again, a fetch that faults traps, and a strand that
may not issue leaves the state as it is. An event that the agenda gives runs as it is named. Turns, and what waits for a
load, are the model's choices (log 1, log 10). -/
def Obligations.StepRunsDecoded : Prop :=
  (∀ (s : State) (c : Nat) (st : Strand) (ch : Nat) (l : List Turn),
    s.agenda = .issue c st ch :: l → c < 128 →
    let s0 := ({ s with agenda := l }).turn c st ch
    (∀ i s1, mayIssue s0 = true → fetchInstr s0 = .ok (some i, s1) →
      (waitsLoads s1 i = false → (st = .exe → s1.me.lease.again = false) → step s = exec i (noteAhead i s1)) ∧
      ((waitsLoads s1 i = true ∨ st = .exe ∧ s1.me.lease.again = true) → step s = .next s1)) ∧
    (∀ s1, mayIssue s0 = true → fetchInstr s0 = .ok (none, s1) → step s = exec .illegalEncoding s1) ∧
    (∀ e va, mayIssue s0 = true → fetchInstr s0 = .error (e, va) →
      step s = .next (takeTrap c st ⟨e, va, 0, none, none⟩ s0)) ∧
    (mayIssue s0 = false → step s = .next s0)) ∧
  (∀ (s : State) (c : Nat) (l : List Turn) (i : Instr) (tr : Tr),
    s.agenda = .issue c .ctl 0 :: l → c < 128 →
    let s0 := ({ s with agenda := l }).turn c .ctl 0
    let pc := (s.core c).ctl.pc
    mayIssue s0 = true → (s.core c).ctl.loop = none → (s.core c).loads = [] → fld pc 52 12 = 0 →
    ((s.core c).mode = .m ∨ pc.toNat < 0xE000000000000) →
    xlate s0 c (s.core c).ctxOf (s.core c).mode pc.toNat false true = .ok tr → s.bad tr.pa 4 = false →
    decodeCtl (BitVec.ofNat 32 (leNat (mgets memDefault s.mem tr.pa 4))) = some i → step s = exec i (noteAhead i s0)) ∧
  (∀ (s : State) (c : Nat) (st : Strand) (l : List Turn) (i : Instr) (tr : Tr),
    s.agenda = .issue c st 0 :: l → c < 128 → st ≠ .ctl →
    let s0 := ({ s with agenda := l }).turn c st 0
    let x := (s.core c).strand st
    let word := BitVec.ofNat 64 (leNat (mgets memDefault s.mem tr.pa 8))
    mayIssue s0 = true → x.loop = none → x.rep = none → (st = .exe → (s.core c).lease.again = false) →
    fld x.pc 52 12 = 0 → x.pc.toNat < 0xE000000000000 →
    xlate s0 c (s.core c).ctxOf .u x.pc.toNat false true = .ok tr → s.bad tr.pa 8 = false →
    (firstOfTwo st word = false → decodeWide st word 0 = some i → step s = exec i (noteAhead i s0)) ∧
    (∀ tr2, firstOfTwo st word = true → fld (x.pc + 8) 52 12 = 0 → (x.pc + 8).toNat < 0xE000000000000 →
      xlate s0 c (s.core c).ctxOf .u (x.pc + 8).toNat false true = .ok tr2 → s.bad tr2.pa 8 = false →
      decodeWide st word (BitVec.ofNat 64 (leNat (mgets memDefault s.mem tr2.pa 8))) = some i →
      step s = exec i (noteAhead i s0))) ∧
  (∀ (s : State) (e : Instr) (l : List Turn), s.agenda = .event e :: l →
    (isEvent e = true → e.wf = true → inner e = false → (s.tripped = false ∨ afterTrip e = true) →
      step s = exec e { s with agenda := l }) ∧
    (isEvent e = false → step s = .fault .noSuchTurn))

/-- R22, R60, R79, R81, R90, R166, R248, R255, R306, R331, R336, R340: what reset leaves: every register 0 but P0, K0
and MODDEF; no cell on any core; no tile, token, operation or end; budgets unlimited; the boot state 0. The registers
for which the spec gives no reset value are 0 and the tags EMPTY by the model's choice (log 3, log 4), and memory
lists nothing, which reads as 0 (log 2); it is in canonical form. -/
def Obligations.ResetState : Prop :=
  let s := State.reset
  Memory.wf s.mem ∧ (∀ a, mget memDefault s.mem a = 0) ∧ (∀ pa, s.isFull pa = false) ∧ s.boot = 0 ∧ s.presscnt = 0 ∧
  s.presslen = 65536 ∧ (∀ die cls res, s.allow die cls res = none) ∧ s.launches = [] ∧ s.msgs = [] ∧ s.net.up = [] ∧
  (∀ c st x, let k := s.core c
    k.live = false ∧ k.stopped = false ∧ k.mode = .u ∧ (∀ r, k.rS r = 0) ∧ (∀ p, k.rP p = (p == 0)) ∧ (∀ r, k.rH r = 0) ∧
    (∀ r, k.rA st r = 0) ∧ (∀ r, k.rK r = if r = 0 then BitVec.allOnes 1024 else 0) ∧ (∀ v, k.rV v = []) ∧
    (k.strand st).fpc = 0 ∧ (k.strand st).moddef = 0x18 ∧ (∀ y z, k.queue y z = []) ∧ (k.tlOf x).issued = 0 ∧
    (k.tlOf x).out = [] ∧ k.opsOf x = [] ∧ (∀ f, (s.folio c f).used = false) ∧ (∀ g, (s.gal c g).busy = false) ∧
    k.lease.st = .none ∧ k.trapvec = 0 ∧ k.monvec = 0 ∧ k.savedst = 0 ∧ k.rasthr = 3 ∧ k.raswin = 2 ^ 32) ∧
  (∀ c, (s.ctx c).en = false ∧ ∀ w, w < 8 → vget 0 (s.ctx c).wallow w = 256)

/-- The canonical form of memory, an invariant of the model (log 2): a step from a state whose memory lists its
addresses in rising order and nothing that reads as the default leaves such a state. -/
def Obligations.MemoryStaysCanonical : Prop :=
  ∀ s t : State, Memory.wf s.mem → step s = .next t → Memory.wf t.mem

/-! ### Engines -/

/-- R66, R86, R94, R98, R209 to R212, R218, R221, R222, R225 to R231, R245: the engine of an operation that may run does
its rows; once the last is done and what it posted is acknowledged, the operation is out of its queue, and its number complete
once its unpins are applied; the tile it was filling is FULL. STV's tile then holds its slots, narrowed row by row; a
rotation's holds its source's bytes. A collective's command joins it, and it ends once every member's part is whole. How many
rows run in one step, and in which order, is a choice of the turn (log 16, log 21). -/
def Obligations.EngineSteps : Prop :=
  (∀ (s s1 : State) (c n : Nat) (o o1 : Op), opAt s c .fa n = some o → mayRun s c .fa o = true →
    opAt s1 c .fa n = some o1 → partsOut s1 c .fa n = false → Unpins s1 c .fa o1 →
    (∀ cl t hd base idx off, o.i = .ldt cl t hd base idx off → o.arg 3 ≤ o1.pos →
      opRows c .fa (o.arg 3) (fillRow c t) (o.arg 3 + 1) n (startRows c .fa o s) = .ok s1 →
      ∃ s', exec (.tileFillComplete c n) s = .next s' ∧ OpDone c .fa n s' ∧ SameBytes s1 s' ∧
        (o1.pins = [] → fillsLive s1 o1 = true → Filled o1 s')) ∧
    (∀ cl base off, o.i = .cec cl base off → 2 * cecCopies o ≤ o1.pos →
      opRows c .fa (2 * cecCopies o) (cecRow c) (2 * cecCopies o + 1) n s = .ok s1 →
      ∃ s', exec (.cecComplete c n) s = .next s' ∧ OpDone c .fa n s' ∧ SameBytes s1 s') ∧
    (∀ cl base off, o.i = .cedup cl base off → 3 ≤ o1.pos → opRows c .fa 3 (cedupRow c) 4 n s = .ok s1 →
      ∃ s', exec (.cedupComplete c n) s = .next s' ∧ OpDone c .fa n s' ∧ SameBytes s1 s') ∧
    (∀ cl hd hs ra, o.i = .rrot cl hd hs ra → homeHere s (o.args.getD 1 0) = false → 2 ≤ o1.pos →
      opRows c .fa 2 (rrotFar c) 3 n s = .ok s1 →
      ∃ s', exec (.rrotComplete c n) s = .next s' ∧ OpDone c .fa n s' ∧ SameBytes s1 s' ∧
        (o1.pins = [] → fillsLive s1 o1 = true → Filled o1 s'))) ∧
  (∀ (s : State) (c n : Nat) (o : Op) (cl : Clause) (hd hs : BitVec 6) (ra : BitVec 5), let h := o.args.getD 1 0
    let d := o.args.headD 0
    let x := s.folio (hCore h) (hFolio h)
    let y := s.folio (hCore d) (hFolio d)
    opAt s c .fa n = some o → mayRun s c .fa o = true → o.i = .rrot cl hd hs ra → homeHere s h = true →
    s.pick 6 = false → o.pos = 0 → partsOut s c .fa n = false → Unpins s c .fa o →
    x.state ≠ .filling → fillsLive s o = true → y.first = o.arg 5 → y.bytes ≤ 16384 * x.ngal →
    (hCore h ≠ hCore d ∨ Apart x.first x.ngal (o.arg 5) x.ngal) →
    ∃ s', exec (.rrotComplete c n) s = .next s' ∧ OpDone c .fa n s' ∧ SameBytes s s' ∧
      ∀ i, i < y.bytes → mget 0 (s'.core (hCore d)).store (16384 * y.first + i) =
        mget 0 (s.core (hCore h)).store (16384 * x.first + i)) ∧
  (∀ (s : State) (c n : Nat) (o : Op) (cl : Clause) (hd hs : BitVec 6) (ra : BitVec 5), let h := o.args.getD 1 0
    opAt s c .fa n = some o → mayRun s c .fa o = true → o.i = .rrot cl hd hs ra → homeHere s h = true → o.pos = 0 →
    (s.folio (hCore h) (hFolio h)).state = .filling →
    ∃ s', exec (.rrotComplete c n) s = .next s' ∧ n ∈ (((s'.core c).opsOf .fa).map (·.n)) ∧ s'.mem = s.mem ∧
      ∀ k, (s'.core k).store = (s.core k).store) ∧
  (∀ (s : State) (c n : Nat) (o : Op) (cl : Clause) (t : Elem) (sat : Bool) (hd : BitVec 6) (va : BitVec 9) (idx : BitVec 5),
    let d := o.args.headD 0
    let y := s.folio (hCore d) (hFolio d)
    let bs := ((List.range (o.arg 1)).map (fun r => packRow t (narrowAll o.fpc sat t (capturedRow o.data (o.arg 2) r)).1)).flatten
    opAt s c .ea n = some o → mayRun s c .ea o = true → o.i = .stv cl t sat hd va idx →
    s.pick 6 = false → o.pos = 0 → partsOut s c .ea n = false → Unpins s c .ea o →
    ∃ s', exec (.stvComplete c n) s = .next s' ∧ OpDone c .ea n s' ∧ SameBytes s s' ∧
      (o.pins = [] → fillsLive s o = true → Filled o s') ∧
      (fillsLive s o = true → y.first = o.arg 3 → bs.length ≤ y.bytes →
        ∀ i, i < bs.length → mget 0 (s'.core (hCore d)).store (16384 * o.arg 3 + i) = bs.getD i 0)) ∧
  (∀ (s s1 : State) (c n : Nat) (o o1 : Op), opAt s c .ea n = some o → mayRun s c .ea o = true →
    opAt s1 c .ea n = some o1 → partsOut s1 c .ea n = false → Unpins s1 c .ea o1 →
    (∀ cl t hs base idx off, o.i = .stt cl t hs base idx off → o.arg 3 + 2 ≤ o1.pos →
      opRows c .ea (o.arg 3 + 2) (sttRow c t) (o.arg 3 + 3) n s = .ok s1 →
      ∃ s', exec (.sttComplete c n) s = .next s' ∧ OpDone c .ea n s' ∧ SameBytes s1 s') ∧
    (∀ cl t op sat vd base idx off, o.i = .stred cl t op sat vd base idx off → 1024 ≤ o1.pos →
      opRows c .ea 1024 (stredElem c t op sat) 1025 n s = .ok s1 →
      ∃ s', exec (.stredComplete c n) s = .next s' ∧ OpDone c .ea n s')) ∧
  (∀ (s s1 : State) (k c : Nat) (o : Op), (collOps s k).find? (fun p => p.2.pos = 0 && mayRun s p.1 .fa p.2) = some (c, o) →
    joinColl c o s = .ok s1 → exec (.collectiveComplete k) s = .next s1) ∧
  (∀ (s s1 : State) (k c n : Nat) (o : Op), (collOps s k).find? (fun p => p.2.pos = 0 && mayRun s p.1 .fa p.2) = none →
    (collOps s k).find? (fun p => p.2.pos = 2 && !partsOut s p.1 .fa p.2.n) = none →
    (s.coll k).failed = none → (s.coll k).joined = some (c, n) → opAt s c .fa n = some o → collReady (s.coll k) = true →
    (s.core c).freeze = 0 → s.tripped = false →
    landColl c (collResult (s.dev % 256) (collHeads (s.coll k).parts)) o s = .ok s1 → partsOut s1 c .fa n = false →
    Unpins s1 c .fa (nowOp s1 c .fa o) →
    ∃ s', exec (.collectiveComplete k) s = .next s' ∧ OpDone c .fa n s' ∧ SameBytes s1 s') ∧
  (∀ (s : State) (k c : Nat) (o : Op), (collOps s k).find? (fun p => p.2.pos = 0 && mayRun s p.1 .fa p.2) = none →
    (collOps s k).find? (fun p => p.2.pos = 2 && !partsOut s p.1 .fa p.2.n) = some (c, o) → Unpins s c .fa o →
    ∃ s', exec (.collectiveComplete k) s = .next s' ∧ OpDone c .fa o.n s' ∧ SameBytes s s')

/-- R291: a copy-on-write that is due: the page is copied to the fresh frame, the leaf entry maps it, the fresh
frame's count is 1 and the shared one's is a lower one without LOCK, and the write it was for may go on. R236, R237: a
die's copy of a granule, and its cores' cached copies, take the value at home; nothing else changes. -/
def Obligations.CopiesMade : Prop :=
  (∀ (s : State) (k a b : Nat) (w : Cow), let r := s.root w.ctx
    let leaf := s.rd64 w.leafPa
    s.cows[k]? = some w → countPa s w.ctx (w.fresh / 4096) = some a → countPa s w.ctx w.frame = some b →
    Apart w.fresh 4096 r 65536 → Apart w.fresh 4096 a 4 → Apart w.fresh 4096 b 4 → Apart w.fresh 4096 w.leafPa 8 →
    Apart a 4 r 65536 → Apart a 4 b 4 → Apart a 4 w.leafPa 8 → Apart w.leafPa 8 r 65536 → Apart w.leafPa 8 b 4 →
    ∃ t, exec (.copyOnWrite k) s = .next t ∧
      (∀ i, i < 4096 → mget memDefault t.mem (w.fresh + i) = mget memDefault s.mem (w.frame * 4096 + i)) ∧
      t.rd32 a = 1 ∧ t.rd32 b = (s.rd32 b &&& 0x7FFFFFFF) - 1 ∧
      t.rd64 w.leafPa = BitVec.ofNat 64 (leaf.toNat % 4096 + w.fresh + leaf.toNat / 2 ^ 52 * 2 ^ 52) ∧ w ∉ t.cows ∧
      ∀ p, (p < w.fresh ∨ w.fresh + 4096 ≤ p) → (p < a ∨ a + 4 ≤ p) → (p < b ∨ b + 4 ≤ p) →
        (p < w.leafPa ∨ w.leafPa + 8 ≤ p) → mget memDefault t.mem p = mget memDefault s.mem p) ∧
  (∀ (s : State) (die addr : Nat), die < 2 → mwf .init s.cores = true → let g := addr / 8
    ∃ t, exec (.dieCopyUpdate die addr) s = .next t ∧
      look g (t.copies die) = (look g (s.copies die)).map (fun _ => s.rd64 (8 * g)) ∧
      (∀ g', g' ≠ g → look g' (t.copies die) = look g' (s.copies die)) ∧
      (∀ c, dieOf c = die → look g (t.core c).dc = (look g (s.core c).dc).map (fun _ => s.rd64 (8 * g)) ∧
        { t.core c with dc := [] } = { s.core c with dc := [] }) ∧
      (∀ c, dieOf c ≠ die → t.core c = s.core c) ∧
      ({ t with cores := [] }.setCopies die []) = ({ s with cores := [] }.setCopies die []))

/-! ### The Dealer -/

/-- R22, R68 to R71, R75, R77, R79 to R81: a Dealer starts the next iteration of the launch it serves on a core, whose
registers hold what R22 and R71 say; a FULL readiness word is reported; a launch whose iterations are all done stores
its count to COMPLETE and retires; a press period ends; a class whose use has reached its budget is held, with a slip.
R73, R283: a record of a launch stream that is accepted becomes a launch. A class whose budget its debt has used up is
held without a slip, the model's reading (log 46). -/
def Obligations.DealerSteps : Prop :=
  (∀ (s : State) (die o c : Nat) (l : Launch), let s0 := withResv die s
    chooseLaunch s0 die = some l → firstReady s0 l = some o →
    placeFor s0 l die = some [c] → l.preload = [] → l.ready = [] → (∀ e ∈ l.ends, e.core ≠ c) →
    s.launches.find? (fun x => x.id = l.id) = some l →
    let x := tupleOf l.walk l.ext o
    ∃ t, exec (.dispatch die) s = .next t ∧
      (let k := t.core c
       k.live = true ∧ k.mode = .u ∧ (∀ p, k.rP p = (p == 0)) ∧ (∀ r, k.rH r = 0) ∧ (∀ y z, k.queue y z = []) ∧
       (∀ j, j < 4 → k.rS (BitVec.ofNat 6 (j + 1)) = BitVec.ofNat 64 (x.getD j 0)) ∧ k.rS 5 = BitVec.ofNat 64 l.id ∧
       k.rS 6 = BitVec.ofNat 64 o ∧ k.rS 7 = 0 ∧ k.rS 8 = l.params ∧ (∀ r : BitVec 6, 8 < r.toNat → k.rS r = 0) ∧
       (∀ st, (k.strand st).pc = l.base.getD st.code 0 + (l.entry.getD st.code 0).setWidth 64 ∧
         (k.strand st).moddef = 0x18 ∧ (k.strand st).fpc = 0 ∧ (k.strand st).ended = false) ∧
       (∀ st, st ≠ .ctl → (∀ j, j < 4 → k.rA st (BitVec.ofNat 5 (j + 1)) = BitVec.ofNat 64 (x.getD j 0)) ∧
         k.rA st 5 = l.params ∧ ∀ r : BitVec 5, 5 < r.toNat → k.rA st r = 0) ∧
       k.launchid = BitVec.ofNat 64 (l.id + s.dev % 256 * 2 ^ 24) ∧ k.ordinal = o) ∧
      (∃ l2 ∈ t.launches, l2.id = l.id ∧ l2.disp = l.disp + 1 ∧ l2.st = .running) ∧
      (∀ l2 ∈ s.launches, l2.id ≠ l.id → l2 ∈ t.launches) ∧ (∀ c', c' ≠ c → t.core c' = s.core c') ∧ SameBytes s t) ∧
  (∀ (s : State) (pa : Nat), s.isFull pa = true →
    ∃ t, exec (.readinessFill pa) s = .next t ∧
      t.watches = s.watches.map (fun w => if w.pa = pa then { w with seen := true } else w) ∧
      { t with watches := [] } = { s with watches := [] }) ∧
  (∀ (s : State) (l : Launch), s.launches.find? (fun x => x.id = l.id) = some l → l.ends = [] →
    ((l.st = .running ∧ l.done = l.total ∧ l.complete = 0 ∧ partsPending s l = false) ∨
      ((l.st = .faulted ∨ l.st = .cancelling) ∧ cellsOf s l.id = [] ∧ l.outCells = 0)) →
    ∃ t, exec (.launchRetire l.id) s = .next t ∧ t.launches = s.launches.filter (fun x => x.id ≠ l.id) ∧
      t.watches = s.watches.filter (fun w => w.launch ≠ l.id) ∧
      { t with launches := [], watches := [] } = { s with launches := [], watches := [] }) ∧
  (∀ (s s1 : State) (l : Launch) (pa : Nat), s.launches.find? (fun x => x.id = l.id) = some l → l.ends = [] →
    l.st = .running → l.done = l.total → partsPending s l = false → l.complete ≠ 0 → devPlace s l.ctx l.complete.toNat = .ok (s1, pa) → pa % 8 = 0 →
    NoPark s1 pa →
    ∃ t, exec (.launchRetire l.id) s = .next t ∧ t.isFull pa = true ∧
      mgets memDefault t.mem pa 8 = leBytes 8 (l.done % 2 ^ 64) ∧ SameBytesBut pa 8 s1 t ∧ ∀ x ∈ t.launches, x.id ≠ l.id) ∧
  (∀ (s : State), s.periodStart + s.presslen ≤ s.cycle →
    ∃ t, exec .pressPeriod s = .next t ∧ t.presscnt = s.presscnt + 1 ∧ t.periodStart = s.periodStart + s.presslen ∧
      t.presslen = s.presslenNext ∧ t.used = [] ∧ t.budgetNext = [] ∧ (s.budgetNext = [] → t.budget = s.budget) ∧
      (∀ i v, s.budgetNext = [(i, v)] → ∀ j, mget (BitVec.allOnes 64) t.budget j =
        if j = i then v else mget (BitVec.allOnes 64) s.budget j) ∧
      (∀ a, mget 0 t.debt a = (let b := mget (BitVec.allOnes 64) s.budget (a % 512)
        if b = BitVec.allOnes 64 then 0 else mget 0 s.used a + mget 0 s.debt a - b.toNat)) ∧
      (∀ die cls, die < 2 → cls < 64 → (t.held die cls = true ↔ ∃ res, res < 8 ∧ t.allow die cls res = some 0)) ∧
      (∀ c, t.core c = if (s.core c).live then { s.core c with latch := true } else s.core c) ∧ t.mem = s.mem) ∧
  (∀ (s : State) (die cls res b : Nat), s.allow die cls res = some b → s.held die cls = false → die < 2 →
    (b ≤ mget 0 s.used (acct die cls res) →
      ∃ t, exec (.budgetHold die cls res) s = .next t ∧ t.held die cls = true ∧
        (die = 0 → s.slips0.length < 64 → t.slips0 = s.slips0 ++ [slipRec s 0 cls res s.lost0] ∧ t.lost0 = false) ∧
        (die = 0 → 64 ≤ s.slips0.length → t.slips0 = s.slips0 ∧ t.lost0 = true) ∧
        (die = 1 → s.slips1.length < 64 → t.slips1 = s.slips1 ++ [slipRec s 1 cls res s.lost1] ∧ t.lost1 = false) ∧
        (die = 1 → 64 ≤ s.slips1.length → t.slips1 = s.slips1 ∧ t.lost1 = true) ∧
        { t with holds := [], slips0 := [], slips1 := [], lost0 := false, lost1 := false } =
          { s with holds := [], slips0 := [], slips1 := [], lost0 := false, lost1 := false }) ∧
    (mget 0 s.used (acct die cls res) < b → exec (.budgetHold die cls res) s = .next s)) ∧
  (∀ (s : State) (ctx : Nat) (a : Anchor) (e : REnd) (rc : Rec), (s.ctx ctx).ls = some a → (s.core 0).rend a = some e →
    4 ≤ e.q.length → (∀ it ∈ e.q.take 4, it.poison = false ∧ it.mask = 0) →
    let r := ((e.q.take 4).map (·.words)).flatten
    let s1 := (List.range 4).foldl (fun (s : State) _ => takeItem 0 a s) s
    recordBad r = none → rf r 24 56 8 = 0 → rf r 25 56 8 = 0 → tablesBad s1 r [] [] (some ctx) = .ok rc → rc.streams = [] →
    (launchOf s1 rc s.nextLaunch).ready = [] → (∀ l ∈ s.launches, l.id ≠ s.nextLaunch) →
    ∃ t, exec (.launchRecord ctx) s = .next t ∧ t.launches = s.launches ++ [launchOf s1 rc s.nextLaunch] ∧
      t.nextLaunch = nextId s.nextLaunch ∧ ((t.core 0).rend a).map (·.pop) = some (e.pop + 4) ∧ SameBytes s t)

/-! ### Counts and streams -/

/-- R95 to R97, R100: a delta that is the oldest from its source is applied at its home: the count changes by it, and
a count that reaches 0 frees the tile. A drop of a stale handle is refused, and falls due 64 cycles after its issue; a
refusal that is due traps in U mode, with the handle in TRAPINFO. R86, R98: an operation whose pins were away is complete once
the last of its unpins has been applied. A proxy's weight is taken off the exports of the
home; with the last of it go the references it stood for. A handle without weight of another device's tile: log 33,
the model's reading. -/
def Obligations.CountMessages : Prop :=
  (∀ (s : State) (k src : Nat) (st : Strand) (h : W64) (n : Int) (why : DeltaFor) (at_ : Nat) (sup : Bool),
    let x := s.folio (hCore h) (hFolio h)
    s.msgs[k]? = some (.delta src st h n why at_ sup) → oldestCount s k src h = true → homeHere s h = true →
    (∀ y m, why ≠ .pin y m ∧ why ≠ .unpin y m) →
    (x.used = true → x.gen = hGen h → 0 < x.count + n → x.count + n ≤ 2 ^ 24 - 1 →
      ∃ t, exec (.delta k) s = .next t ∧ t.msgs = s.msgs.eraseIdx k ∧
        t.folio (hCore h) (hFolio h) = { x with count := (x.count + n).toNat } ∧
        (∀ f, f ≠ hFolio h → t.folio (hCore h) f = s.folio (hCore h) f) ∧
        StepAt (hCore h) (fun y => { y with msgs := [] }) (fun y => { y with folio := [] }) s t) ∧
    (x.used = true → x.gen = hGen h → x.count + n ≤ 0 →
      ∃ t, exec (.delta k) s = .next t ∧ t.msgs = s.msgs.eraseIdx k ∧
        t.folio (hCore h) (hFolio h) = { Folio.init with gen := (x.gen + 1) % 4096 } ∧
        (∀ f, f ≠ hFolio h → t.folio (hCore h) f = s.folio (hCore h) f) ∧
        StepAt (hCore h) (fun y => { y with msgs := [] }) (fun y => { y with folio := [], gal := [] }) s t) ∧
    (x.used = false ∨ x.gen ≠ hGen h → why = .drop →
      ∃ t, exec (.delta k) s = .next t ∧ t.msgs = s.msgs.eraseIdx k ∧
        (t.core src).refused = (s.core src).refused ++ [{ cause := 0x31, handle := h, st, due := at_ + 64, fromS := sup }] ∧
        StepAt src (fun y => { y with msgs := [] }) (fun y => { y with refused := [] }) s t)) ∧
  (∀ (s : State) (k src m at_ : Nat) (st : Strand) (h : W64) (x : TlCtx) (sup : Bool), let y := s.folio (hCore h) (hFolio h)
    s.msgs[k]? = some (.delta src st h (-1) (.unpin x m) at_ sup) → oldestCount s k src h = true → homeHere s h = true →
    y.used = true → y.gen = hGen h → 1 < y.count → y.count ≤ 2 ^ 24 - 1 →
    ∃ t, exec (.delta k) s = .next t ∧ t.folio (hCore h) (hFolio h) = { y with count := y.count - 1 } ∧
      t.msgs = s.msgs.eraseIdx k ∧
      (unpinPending t src x m = false → m ∉ ((t.core src).tlOf x).out ∧ (t.core src).latch = true) ∧
      (unpinPending t src x m = true → (t.core src).tlOf x = (s.core src).tlOf x)) ∧
  (∀ (s : State) (c : Nat) (r : Refused), (s.core c).refused = [r] → r.due ≤ s.cycle → r.cause < 0xB1 →
    (s.core c).live = true → (s.core c).stopped = false → ((s.core c).strand r.st).asked = 0 → EntersNow s c r.st →
    ∃ s' t, exec (.deltaRefusalTrap c) s = .next t ∧ (s'.core c).refused = [] ∧ StepAt c id (fun y => { y with refused := [] }) s s' ∧
      EnteredS c r.st r.cause ((s.core c).strand r.st).settle.pc 0 r.handle s' t) ∧
  (∀ (s : State) (k src : Nat) (st : Strand) (h : W64), let x := s.folio (hCore h) (hFolio h)
    s.msgs[k]? = some (.weight src st h) → oldestCount s k src h = true → homeHere s h = true → x.used = true →
    x.gen = hGen h →
    ∃ t, exec (.weightMessage k) s = .next t ∧ t.msgs = s.msgs.eraseIdx k ∧
      (2 ^ (hWeight h - 1) < x.expw → t.folio (hCore h) (hFolio h) = { x with expw := x.expw - 2 ^ (hWeight h - 1) }) ∧
      (x.expw ≤ 2 ^ (hWeight h - 1) → x.expc < x.count →
        t.folio (hCore h) (hFolio h) = { x with expw := 0, expc := 0, count := x.count - x.expc }) ∧
      (x.expw ≤ 2 ^ (hWeight h - 1) → x.count ≤ x.expc →
        t.folio (hCore h) (hFolio h) = { Folio.init with gen := (x.gen + 1) % 4096 }) ∧
      StepAt (hCore h) (fun y => { y with msgs := [] }) (fun y => { y with folio := [], gal := [] }) s t)

/-- R260, R262, R263, R265, R274, R276, R277, R279: the stream units' steps: the next item enters a hot read end's
queue, and its push is complete; a slot of the stock refills the queue and is EMPTY again; STOP holds the writer, GO
raises its credit; a writer is bound to another location and acknowledges it; an orphan notice gives an end its cause;
the clearing of a side array goes on by 128 halves. The messages' payloads and the pace of the clearing are the
model's choices (log 12, log 29). -/
def Obligations.StreamSteps : Prop :=
  (∀ (s : State) (k : Nat) (a : Anchor) (n : Nat) (it : Item) (c src sq : Nat) (e : REnd),
    s.msgs[k]? = some (.item a n it c src sq (s.dev % 256)) → (s.core c).rend a = some e → e.fetching = false →
    e.hq.isSome = true → n = e.qtop → e.q.length < 32 →
    ∃ t e' it', exec (.streamItemArrival k) s = .next t ∧ (t.core c).rend a = some e' ∧ e'.q = e.q ++ [it'] ∧
      it'.mask = it.mask ∧ it'.poison = it.poison ∧ (it.mask = 0 → it' = it) ∧
      e'.qtop = e.qtop + 1 ∧ e'.pop = e.pop ∧ (sq ≠ 0 → sq ∉ ((t.core src).tlOf .sq).out) ∧ SameBytes s t) ∧
  (∀ (s s1 : State) (c k : Nat) (e : REnd) (pb : Nat), let j := slotOfItem s e.anc e.qtop
    (s.core c).rends[k]? = some e → e.hq.isSome = true → e.q.length < 32 → ancHere s e.anc = true →
    stockFault s e.anc j = false → slotFull s e.anc j = true →
    stockPlace s e.anc (64 * 2 ^ ancK s e.anc + 2 * j) = .ok (s1, pb) → s1.core c = s.core c →
    ∃ t, exec (.streamRefill c k) s = .next t ∧
      (t.core c).rend e.anc = some { e with q := e.q ++ [slotItem s e.anc j], qtop := e.qtop + 1 } ∧
      mgets memDefault t.mem pb 2 = [0, 0] ∧ SameBytesBut pb 2 s1 t ∧
      StepAt c (fun y => { y with mem := [] }) (fun y => { y with rends := [] }) s1 t) ∧
  (∀ (s : State) (k c : Nat) (a : Anchor) (e : WEnd), (s.core c).wend a = some e →
    let g : State → State := fun y => { y with msgs := [], resp := [] }
    let f : Core → Core := fun y => { y with wends := [] }
    (msgAt s k = some (.stop a c) →
      ∃ t, exec (.streamStop k) s = .next t ∧ (t.core c).wend a = some { e with held := true } ∧
        t.msgs = s.msgs.eraseIdx k ∧ ((∀ q ∈ s.ctxs, q.2.ls ≠ some a) → t.resp = s.resp) ∧ StepAt c g f s t) ∧
    (∀ p, msgAt s k = some (.go a c p) →
      ∃ t, exec (.streamGo k) s = .next t ∧ (t.core c).wend a = some { e with
          credit := max e.credit p, held := e.held && e.credit + e.lim ≤ e.push && max e.credit p + e.lim ≤ e.push } ∧
        t.msgs = s.msgs.eraseIdx k ∧ ((∀ q ∈ s.ctxs, q.2.ls ≠ some a) → t.resp = s.resp) ∧ StepAt c g f s t) ∧
    (∀ dev core hot mv old, msgAt s k = some (.rebind a c dev core hot mv old) → a.dev = s.dev % 256 →
      ∃ t e', exec (.streamRebind k) s = .next t ∧ (t.core c).wend a = some e' ∧ e'.toDev = dev ∧ e'.toCore = core ∧
        e'.lim = 2 ^ e.k + (if hot then 32 else 0) ∧ e'.moving = mv ∧ e'.push = e.push ∧ e'.credit = e.credit ∧
        t.msgs = s.msgs.eraseIdx k ++ [.rebound a old] ∧ StepAt c g f s t) ∧
    (∀ cause fin, msgAt s k = some (.orphan a c false cause fin) →
      ∃ t, exec (.orphanNotice k) s = .next t ∧
        (t.core c).wend a = some { e with orphan := if e.orphan = 0 then cause else e.orphan } ∧ (t.core c).latch = true ∧
        t.msgs = s.msgs.eraseIdx k ∧ StepAt c g (fun y => { f y with latch := false }) s t)) ∧
  (∀ (s : State) (k c cause : Nat) (fin : Option Nat) (a : Anchor) (e : REnd), (s.core c).rend a = some e →
    msgAt s k = some (.orphan a c true cause fin) →
    (noticeDue s e fin = true → ∃ t, exec (.orphanNotice k) s = .next t ∧
      (t.core c).rend a = some { e with orphan := if e.orphan = 0 then cause else e.orphan, final := fin } ∧
      (t.core c).latch = true ∧ t.msgs = s.msgs.eraseIdx k ∧
      StepAt c (fun y => { y with msgs := [] }) (fun y => { y with rends := [], latch := false }) s t) ∧
    (noticeDue s e fin = false → exec (.orphanNotice k) s = .next s)) ∧
  (∀ (s : State) (k c : Nat) (a : Anchor), msgAt s k = some (.rebound a c) →
    ∃ t, exec (.streamRebindAck k) s = .next t ∧ t.msgs = s.msgs.eraseIdx k ∧ { t with msgs := [] } = { s with msgs := [] }) ∧
  (∀ (s : State) (k n : Nat) (a : Anchor), s.clears[k]? = some (a, n) →
    let hi := min (n + 128) (2 ^ ancK s a)
    let u := (List.range (hi - n)).foldl (fun (x : State) i => slotClear x a (n + i)) s
    (stockFault s a n = false → ∃ t, exec (.sideArrayClear k) s = .next t ∧ { t with clears := [] } = { u with clears := [] } ∧
      (hi = 2 ^ ancK s a → ∀ p ∈ t.clears, p.1 ≠ a) ∧
      (hi ≠ 2 ^ ancK s a → (a, hi) ∈ t.clears)) ∧
    (stockFault s a n = true → ∃ t, exec (.sideArrayClear k) s = .next t ∧ ∀ p ∈ t.clears, p.1 ≠ a))

/-! ### Images and entries that wait -/

/-- R103, R306, R307, R312, R322 to R329: PSAVE, once the cell's engines stand and what the cell has written is out,
writes the image and returns its generation; PREST disposes of an image (2), finds the device unreachable (1), or asks
this device's Dealer to place it (0). A cell that PREEMPT stops enters S mode with cause 0xA0. A trap whose entry
waited is entered, a checkstopped core without a cell stands. A Dealer builds a saved cell on the core it takes: the
registers hold what the image holds; the four of a gang start together. The inner layout of image areas and the
answers of PREST in the cases of log 52 are the model's choices (log 7, log 52). -/
def Obligations.CellsSavedAndRestored : Prop :=
  (∀ (s s1 s2 : State) (d a b : BitVec 6), let k := s.me
    let base := (s.rS b).toNat % 2 ^ 32
    let full := base = 0 || base ≠ k.lastgen % 2 ^ 32
    let gen := (k.lastgen + 1) % 2 ^ 32
    s.mode ≠ .u → k.savedst.getLsbD 15 = true → k.savedst.getLsbD 14 = false → fld (s.rS b) 32 32 = 0 →
    (s.rS a).toNat % 4096 = 0 → fld (s.rS a) 52 12 = 0 → stopEngines s.cur.core s = (true, s1) → s1.my.asked = 0 →
    MayRelease s1 .sys → (∀ o ∈ s1.net.outs, o.why ≠ .detach s.cur.core) →
    putAll s1 (imagePuts s1 s.cur.core (s.rS a).toNat gen base k.lastimg false full []) = .ok s2 → s2.cur = s.cur →
    MayRelease s2 .sys → Steady s →
    ∃ t, exec (.psave d a b) s = .next t ∧ WroteS s2 t d (BitVec.ofNat 64 (gen + (if full then 2 ^ 32 else 0))) ∧
      t.me.lastgen = gen ∧ t.me.lastimg = s.rS a ∧ t.me.dirtyV = 0 ∧ t.me.dirtyS = 0 ∧ SameP s2 t ∧ SameH s2 t ∧
      SameBytes s2 t ∧
      CtlRan id (fun k => { k with lastgen := 0, lastimg := 0, dirtyV := 0, dirtyS := 0 }) s2 t) ∧
  (∀ (s s1 s2 : State) (d a b : BitVec 6) (i : Img) (ch : List Img) (n1 n2 : Nat), let x := s.rS b
    let launch := i.w 3 &&& 0xFFFFFFFF
    s.mode ≠ .u → fld x 18 46 = 0 → readImg s 0 (s.rS a) = .ok (i, s1, n1) → i.version = 1 → (i.w 0).getLsbD 8 = true →
    (i.w 0).getLsbD 9 = false → walkChain 65536 i [] s1 n1 = .ok (ch, s2, n2) → s2.cur = s.cur → Steady s →
    (∀ m s3 n3 s4, x.getLsbD 17 = true → readFixed s2 n2 i = .ok (m, s3, n3) → claim s3 (s.rS a) n3 (i.w 0) = .ok s4 →
      let u := disposeGang s.cur.core s4.me.ctxOf m s4
      u.cur = s.cur →
      ∃ t, exec (.prest d a b) s = .next t ∧ WroteS u t d 2 ∧ SameP u t ∧ SameBytes u t ∧ CtlRan id id u t) ∧
    (∀ s2' n2', x.getLsbD 17 = false → (i.w 9).getLsbD 22 = false → askCancelling s2 launch n2 = .ok (false, s2', n2') →
      s2'.cur = s.cur →
      (reachable s2' (fld x 8 8).toNat = false →
        ∃ t, exec (.prest d a b) s = .next t ∧ WroteS s2' t d 1 ∧ SameP s2' t ∧ SameBytes s2' t ∧ CtlRan id id s2' t) ∧
      (∀ m s3 n3 s4, (fld x 8 8).toNat = s2'.dev % 256 → readChain s2' n2' ch = .ok (m, s3, n3) →
        claim s3 (s.rS a) n3 (i.w 0) = .ok s4 → s4.cur = s.cur → s4.dev = s2'.dev → gangOf (imgD m 0x48) = none →
        ∃ t, exec (.prest d a b) s = .next t ∧ WroteS s4 t d 0 ∧ SameP s4 t ∧ SameBytes s4 t ∧
          t.places = s4.places ++ [placeOf (s4.dev % 256) s4.me.ctxOf s.cur.core (s.rS a) m (fld x 0 7).toNat (x.getLsbD 7)
            (x.getLsbD 16)] ∧ ((fld (imgD m 0x18) 24 8).toNat = s4.dev % 256 → t.net = s4.net) ∧
          CtlRan (fun y => { y with places := [], net := .init }) id s4 t))) ∧
  (∀ (s s1 : State) (c : Nat) (st : Strand) (r : Trap), (s.core c).raised = some (st, r) → r.cause = 0xA0 → r.actx = none →
    (s.core c).mode = .u → quiet (s.core c) .ctl = true → (s.core c).ctl.asked = 0 → stopEngines c s = (true, s1) →
    (s1.core c).mode = .u →
    ∃ t, exec (.cellStop c) s = .next t ∧
      EnteredS c .ctl 0xA0 (r.next.getD (s1.core c).ctl.settle.pc) r.addr r.info s1 t) ∧
  (∀ (s : State) (c : Nat) (st : Strand) (r : Trap), (s.core c).raised = some (st, r) → quiet (s.core c) st = true →
    r.actx = none →
    ((s.core c).mode = .u → r.cause < 0xB1 → r.cause ≠ 0xA0 →
      ∃ t, exec (.trapEntry c) s = .next t ∧
        EnteredS c st r.cause (r.next.getD ((s.core c).strand st).settle.pc) r.addr r.info s t) ∧
    ((s.core c).mode = .s → r.cause < 256 → r.cause ≠ 0xA0 → r.cause ≠ 0xB2 →
      memOk ((s.core c).monvec &&& 0x000FFFFFFFFFFFFC).toNat = true →
      ∃ t, exec (.monitorEntry c) s = .next t ∧ (t.core c).mode = .m ∧ (t.core c).raised = none ∧
        (t.core c).ctl.pc = (s.core c).monvec &&& 0x000FFFFFFFFFFFFC ∧ SwapsUpper (s.core c) (t.core c) Core.shM ∧
        t.rd64 (0x10400000 + 4096 * c + 8) = BitVec.ofNat 64 (st.code * 1024 + 256 + r.cause) ∧
        SameBytesBut (0x10400000 + 4096 * c) 40 s t ∧ (∀ c', c' ≠ c → t.core c' = s.core c')) ∧
    (r.cause = 0xB2 → (s.core c).live = false →
      ∃ t, exec (.monitorEntry c) s = .next t ∧ (t.core c).raised = none ∧
        StepAt c id (fun y => { y with raised := none }) s t)) ∧
  (∀ (s : State) (k c : Nat) (p : Place), let m := p.img
    let v := savedOf m
    s.places[k]? = some p → cancelling s p.launch = false → p.gang = none → p.entry = false → p.asked = 0 → p.got = [] →
    coreOf s k p = some c → v.tiles = [] →
    v.ends = [] → v.ops = [] → v.owed = [] → (∀ i, i < 63 → imgD m (0xC08 + 8 * i) = 0) →
    ∃ t, exec (.prestPlace k) s = .next t ∧ t.places = s.places.eraseIdx k ∧ (t.core c).live = true ∧
      (t.core c).mode = .u ∧ (∀ r : BitVec 6, (t.core c).rS r = if r = 0 then 0 else imgD m (0x200 + 8 * r.toNat)) ∧
      (t.core c).ctl.pc = imgD m 0x400 ∧ (∀ r, (t.core c).rH r = 0) ∧
      (∀ r : BitVec 5, r ≠ 0 → (t.core c).rA .exe r = imgD m (0x800 + 8 * r.toNat)) ∧
      (t.core c).launchid = p.launch ∧ (t.core c).ordinal = p.ordinal ∧ (t.core c).lastimg = p.image ∧
      (∀ c', c' ≠ c → t.core c' = s.core c') ∧ SameBytes s t) ∧
  (∀ (s s1 : State) (k cl : Nat) (p : Place) (ps : List Place), s.places[k]? = some p → p.gang.isSome = true →
    cancelling s p.launch = false → gangPlaces s p = some ps → gangCluster s p ps = some cl →
    (∀ x ∈ ps, (savedOf x.img).ends = [] ∧ x.asked = 0 ∧ x.got = [] ∧ x.entry = false) →
    buildAll ((coresOf cl).zip ps) { s with
      places := s.places.filter (fun q => !(q.gang.isSome && q.launch = p.launch && q.ordinal = p.ordinal))
      gangTo := s.gangTo.filter (fun g => !(g.1 = p.launch && g.2.1 = p.ordinal)) } = some s1 →
    ∃ t, exec (.gangRestore k) s = .next t ∧ (∀ c, { t.core c with dc := [] } = { s1.core c with dc := [] }) ∧
      t.places = s1.places ∧ SameBytes s1 t)

/-! ### RAS, heat and power -/

/-- R305, R312, R314, R330 to R333, R342: a correction freezes its core for 48 cycles and counts at its bank, and past
the bank's threshold the bank is withdrawn; the freeze ends, the window ends; uncorrectable data are poisoned, poison
in control state and a watchdog in M mode are checkstops; heat and power leave their records in the management log.
Poison in control state acts at once (log 14), and HBM corrections are compared with core 0's RASTHR (log 54): the
model's readings. -/
def Obligations.RasSteps : Prop :=
  (∀ (s : State) (c b : Nat), b ≤ 98 → (s.core c).lease.st ≠ .held → let k := s.core c
    let n := mget 0 k.bankCnt b + 1
    let f : Core → Core := fun y => { y with freeze := 0, bankCnt := [], rascnt := 0, withdrawn := [], out := false }
    ∃ t, exec (.stopPress c b) s = .next t ∧ (t.core c).freeze = max k.freeze s.cycle + 48 ∧
      mget 0 (t.core c).bankCnt b = n ∧ (∀ b', b' ≠ b → mget 0 (t.core c).bankCnt b' = mget 0 k.bankCnt b') ∧
      (fld (t.core c).rascnt 40 24).toNat = min (2 ^ 24 - 1) ((fld k.rascnt 40 24).toNat + 1) ∧
      (fld (t.core c).rascnt 32 8).toNat = b ∧ (fld (t.core c).rascnt 24 8).toNat = min 255 n ∧
      (n ≤ k.rasthr → (t.core c).withdrawn = k.withdrawn ∧ (t.core c).out = k.out ∧ StepAt c id f s t) ∧
      (k.rasthr < n → b ∉ k.withdrawn → b ∈ (t.core c).withdrawn ∧ (t.core c).out = (k.out || coreBank b) ∧
        t.mgmt = s.mgmt ++ [[eventHead s 0xB1 c k.launchNo, 0, BitVec.ofNat 64 b, s.presscnt]] ∧
        StepAt c (fun y => { y with mgmt := [] }) f s t)) ∧
  (∀ (s : State) (c : Nat), (s.core c).freeze ≤ s.cycle →
    ∃ t, exec (.stopPressEnd c) s = .next t ∧ (t.core c).freeze = 0 ∧ StepAt c id (fun y => { y with freeze := 0 }) s t) ∧
  (∀ (s : State) (c : Nat), let k := s.core c
    k.winStart + k.raswin ≤ s.cycle →
    ∃ t, exec (.rasWindow c) s = .next t ∧ (∀ b, mget 0 (t.core c).bankCnt b = 0) ∧
      (t.core c).winStart = k.winStart + k.raswin ∧ (t.core c).raswin = k.raswinNext ∧
      StepAt c id (fun y => { y with bankCnt := [], winStart := 0, raswin := 0 }) s t) ∧
  (∀ (s : State) (r : Nat), let n := mget 0 s.rows r + 1
    ∃ t, exec (.hbmCorrection r) s = .next t ∧ mget 0 t.rows r = n ∧ (∀ r', r' ≠ r → mget 0 t.rows r' = mget 0 s.rows r') ∧
      t.mgmt = s.mgmt ++ (if n = (s.core 0).rasthr + 1 then [[eventHead s 0xB7 0 0, BitVec.ofNat 64 r, 0, s.presscnt]] else []) ∧
      { t with rows := [], mgmt := [] } = { s with rows := [], mgmt := [] }) ∧
  (∀ (s : State) (c i : Nat),
    (memOk i = true → ∃ t, exec (.uncorrectable (.mem i)) s = .next t ∧ (∀ g, g ∈ t.poison ↔ g = i / 8 ∨ g ∈ s.poison) ∧
      { t with poison := [] } = { s with poison := [] }) ∧
    (memOk i = true → ∃ t, exec (.scrubUe i) s = .next t ∧ (∀ g, g ∈ t.poison ↔ g = i / 8 ∨ g ∈ s.poison) ∧
      t.mgmt = s.mgmt ++ [[eventHead s 0xB8 0 0, BitVec.ofNat 64 i, 0, s.presscnt]] ∧
      { t with poison := [], mgmt := [] } = { s with poison := [], mgmt := [] }) ∧
    (i < 2 ^ 23 → ∃ t, exec (.uncorrectable (.tile c i)) s = .next t ∧
      (∀ g, g ∈ (t.core c).storePoison ↔ g = i / 8 ∨ g ∈ (s.core c).storePoison) ∧
      StepAt c id (fun y => { y with storePoison := [] }) s t) ∧
    (i < 2 ^ 14 → ∃ t, exec (.uncorrectable (.folio c i)) s = .next t ∧
      (∀ g, g ∈ (t.core c).folioPoison ↔ g = i ∨ g ∈ (s.core c).folioPoison) ∧
      StepAt c id (fun y => { y with folioPoison := [] }) s t) ∧
    (i < 12 → ∃ t, exec (.uncorrectable (.tokens c i)) s = .next t ∧
      (∀ g, g ∈ (t.core c).tokPoison ↔ g = i ∨ g ∈ (s.core c).tokPoison) ∧
      StepAt c id (fun y => { y with tokPoison := [] }) s t)) ∧
  (∀ (s : State) (c : Nat) (i : Instr), i = .uncorrectable (.control c) ∨
      (i = .watchdog c ∧ (s.core c).mode = .m ∧ (s.core c).raised = none ∧ quiet (s.core c) .ctl = true) →
    ∃ t, exec i s = .next t ∧ (t.core c).stopped = true ∧ (t.core c).out = true ∧
      t.mgmt = s.mgmt ++ [[BitVec.ofNat 64 (0xB2 + s.dev * 2 ^ 8 + c * 2 ^ 16), 0, 0, s.presscnt]] ∧
      (∀ c', c' ≠ c → t.core c' = s.core c') ∧ SameBytes s t) ∧
  (∀ (s : State) (c : Nat), (s.core c).mode ≠ .m → (s.core c).raised = none → quiet (s.core c) .ctl = true →
    memOk ((s.core c).monvec &&& 0x000FFFFFFFFFFFFC).toNat = true →
    ∃ t, exec (.watchdog c) s = .next t ∧ (t.core c).mode = .m ∧
      (t.core c).ctl.pc = (s.core c).monvec &&& 0x000FFFFFFFFFFFFC ∧
      t.rd64 (0x10400000 + 4096 * c + 8) = BitVec.ofNat 64 ((s.core c).mode.code * 256 + 0xB9) ∧
      SameBytesBut (0x10400000 + 4096 * c) 40 s t ∧ (∀ c', c' ≠ c → t.core c' = s.core c')) ∧
  (∀ (s : State), let r (cause : Nat) : List W64 := [eventHead s cause 0 0, 0, 0, s.presscnt]
    (∃ t, exec .thermWarn s = .next t ∧ t.mgmt = s.mgmt ++ [r 0xB4] ∧ { t with mgmt := [] } = { s with mgmt := [] }) ∧
    (∃ t, exec .thermTrip s = .next t ∧ t.mgmt = s.mgmt ++ [r 0xB5] ∧ t.tripped = true ∧
      { t with mgmt := [], tripped := false } = { s with mgmt := [], tripped := false }) ∧
    (∃ t, exec .powerCap s = .next t ∧ t.mgmt = s.mgmt ++ (if s.capped then [] else [r 0xB6]) ∧ t.capped = true ∧
      t.cycle = s.cycle + 1 ∧
      { t with mgmt := [], capped := false, cycle := 0 } = { s with mgmt := [], capped := false, cycle := 0 }))

/-! ### The fabric and the host -/

/-- R115, R231, R247, R293, R294, R299 to R303, R335: a packet that is the next of its source is applied once: a read
is answered with the bytes of the export, a write is performed and acknowledged, a read-modify-write and a
compare-and-swap act at their home and are answered with the old value, a request that the check unit rejects is
refused with its cause and changes nothing; a response settles the request it answers and is acknowledged, and that
settles the response; one already applied is discarded, an early one held; a token is lent; a member's data join their
collective; a bad packet is counted and reported. The payloads, and OFF as the answered number, are the model's layout
(log 12); what acknowledges a response has no number (log 36). -/
def Obligations.PacketSteps : Prop :=
  (∀ (s s1 s2 : State) (k ctx va pa : Nat) (tg : Bool) (p : Packet), let u := s.taken k p
    (PktDue s k p 0 → checkExport u p true false = .ok (.va ctx va, s1) → servePlace s1 ctx va false = .ok (pa, tg, s2) →
      s2.bad pa (p.len + 1) = false →
      ∃ t, exec (.pktRead k) s = .next t ∧ Answered p 4 (mgets memDefault s.mem pa (p.len + 1)) u t ∧ SameBytes s t) ∧
    (PktDue s k p 1 → checkExport u p false true = .ok (.va ctx va, s1) → servePlace s1 ctx va true = .ok (pa, tg, s2) →
      ∃ t, exec (.pktWrite k) s = .next t ∧ Answered p 5 [] s2 t ∧ mgets memDefault t.mem pa p.payload.length = p.payload ∧
        SameBytesBut pa p.payload.length s2 t) ∧
    (∀ op, PktDue s k p 2 → atomOf (payByte p 0) = some op → (payByte p 1 = 4 ∨ payByte p 1 = 8) →
      checkExport u p true true = .ok (.va ctx va, s1) → servePlace s1 ctx va true = .ok (pa, tg, s2) →
      s2.bad pa (payByte p 1) = false →
      let n := payByte p 1
      let old := mgets memDefault s2.mem pa n
      ∃ t, exec (.pktRmw k) s = .next t ∧ Answered p 4 old s2 t ∧
        mgets memDefault t.mem pa n = leBytes n (rmwValue op n (leNat old) (payNum p 2 0 % 2 ^ (8 * n))) ∧
        SameBytesBut pa n s2 t) ∧
    (PktDue s k p 3 → (payByte p 0 = 4 ∨ payByte p 0 = 8) →
      checkExport u p true true = .ok (.va ctx va, s1) → servePlace s1 ctx va true = .ok (pa, tg, s2) →
      s2.bad pa (payByte p 0) = false →
      let n := payByte p 0
      let old := mgets memDefault s2.mem pa n
      ∃ t, exec (.pktCas k) s = .next t ∧ Answered p 4 old s2 t ∧
        mgets memDefault t.mem pa n = (if leNat old = payNum p 1 0 then leBytes n (payNum p 1 1) else old) ∧
        SameBytesBut pa n s2 t)) ∧
  (∀ (s : State) (k cause : Nat) (p : Packet) (i : Instr) (read write : Bool),
    (i = .pktRead k ∧ PktDue s k p 0 ∧ read = true ∧ write = false) ∨
      (i = .pktWrite k ∧ PktDue s k p 1 ∧ read = false ∧ write = true) ∨
      (i = .pktCas k ∧ PktDue s k p 3 ∧ payByte p 0 = 8 ∧ read = true ∧ write = true) →
    checkExport (s.taken k p) p read write = .error cause →
    ∃ t, exec i s = .next t ∧ Answered p 6 [BitVec.ofNat 8 cause] (s.taken k p) t ∧ SameBytes s t ∧
      ∀ c, t.core c = s.core c) ∧
  (∀ (s : State) (k : Nat) (p : Packet), s.net.inbox[k]? = some p → p.op = 1 → p.cls = 0 → p.port < 30 → p.seq ≠ wanted s p →
    let behind := (wanted s p + 2 ^ 32 - p.seq) % 2 ^ 32
    (behind < 2 ^ 31 → ∃ t, exec (.pktWrite k) s = .next t ∧ t.net.inbox = s.net.inbox.eraseIdx k ∧
      { t with net := .init } = { s with net := .init }) ∧
    (2 ^ 31 ≤ behind → exec (.pktWrite k) s = .next s)) ∧
  (∀ (s : State) (k c : Nat) (p : Packet) (o : OutPkt), let u := s.taken k p
    s.net.outs.find? (fun o => o.pkt.dst = p.src && answerKey o.pkt.cls o.pkt.seq = p.off) = some o →
    (∀ st n, o.why = .answer c st n → ((s.core c).strand st).asked ≠ 0 →
      (PktDue s k p 4 → ∃ t, exec (.pktReadData k) s = .next t ∧ t.net.outs = s.net.outs.erase o ∧
        ((t.core c).strand st).got = ((s.core c).strand st).got ++ [⟨n, heldOver s o.pkt p.payload, 0⟩] ∧
        { t with cores := [], net := .init } = { u with cores := [], net := .init }) ∧
      (PktDue s k p 6 → ∃ t, exec (.pktRefuse k) s = .next t ∧ t.net.outs = s.net.outs.erase o ∧
        ((t.core c).strand st).got =
          ((s.core c).strand st).got ++ [⟨n, heldOver s o.pkt [], max 1 (payByte p 0)⟩] ∧
        { t with cores := [], net := .init } = { u with cores := [], net := .init })) ∧
    (∀ st w va cell ctx launch, o.why = .posted c st w va cell ctx launch → w < 8 → PktDue s k p 5 →
      ∃ t, exec (.pktAcknowledge k) s = .next t ∧ t.net.outs = s.net.outs.erase o ∧
        vget 0 (t.core c).wallowOut w = vget 0 (s.core c).wallowOut w - 1 ∧
        StepAt c (fun y => { y with net := .init }) (fun y => { y with wallowOut := Vector.replicate 8 0 }) s t) ∧
    (o.why = .other 32 → s.net.inbox[k]? = some p → p.op = 5 → p.last = true → p.port < 30 →
      ∃ t, exec (.pktAcknowledge k) s = .next t ∧ t.net.outs = s.net.outs.erase o ∧
        t.net.inbox = s.net.inbox.eraseIdx k ∧ { t with net := .init } = { s with net := .init })) ∧
  (∀ (s s1 : State) (k ctx va : Nat) (p : Packet), let u := s.taken k p
    let region := p.off / 2 ^ 21
    PktDue s k p 9 → payByte p 0 = 0 → (∀ t ∈ s.lentTok, ¬(t.wid = p.wid ∧ t.region = region)) →
    checkExport u p true false = .ok (.va ctx va, s1) → s.lentTok.length < 1024 →
    ∃ t, exec (.pktToken k) s = .next t ∧ Answered p 4 [0] u t ∧
      t.lentTok = s.lentTok ++ [⟨p.wid, region, p.src, va - p.off + region * 2 ^ 21, 2 ^ 21⟩] ∧ SameBytes s t) ∧
  (∀ (s : State) (k : Nat) (p : Packet), let n := leNat (p.payload.take 2)
    PktDue s k p 11 → payByte p 2 < 128 → (s.coll n).parts = [] →
    ∃ t q, exec (.pktCollectiveData k) s = .next t ∧ (t.coll n).parts = [q] ∧ q.dev = p.src ∧
      q.data = p.payload.drop 12 ∧ Answered p 5 [] (s.taken k p) t ∧ SameBytes s t) ∧
  (∀ (s : State) (k : Nat) (p : Packet), 12 ≤ p.op →
    (s.net.inbox[k]? = some p → p.port = 30 ∨ p.port = 31 →
      ∃ t, exec (.pktBad k) s = .next t ∧ t.net.bad = s.net.bad + 1 ∧ t.net.inbox = s.net.inbox.eraseIdx k ∧
        t.mgmt = s.mgmt ++ [[eventHead s 0x94 p.core 0, BitVec.ofNat 64 p.src, 0, s.presscnt]] ∧
        { t with mgmt := [], net := .init } = { s with mgmt := [], net := .init }) ∧
    (PktDue s k p p.op →
      ∃ t, exec (.pktBad k) s = .next t ∧ t.net.bad = s.net.bad + 1 ∧ t.net.inbox = s.net.inbox.eraseIdx k ∧
        t.net.nextIn = (s.taken k p).net.nextIn ∧
        t.mgmt = s.mgmt ++ [[eventHead s 0x94 p.core 0, BitVec.ofNat 64 p.src, 0, s.presscnt]] ∧
        { t with mgmt := [], net := .init } = { s with mgmt := [], net := .init }))

/-- R299 to R301, R303: a packet not acknowledged for 16,384 cycles is sent again with its number, by another route where
there is one; a device that nothing has reached for 2^20 cycles is lost, and its tokens come back; the sixteenth replay in
a row takes a link down, and what it carried is sent again; a link whose other end is the neighbour it should be comes up,
another one does not, nor do two that report one id; a host port takes any host. Where LINK_DOWN is recorded, and that a
packet that comes in ends a row of replays, are the model's readings (log 53, log 73). -/
def Obligations.LinksAndLosses : Prop :=
  (∀ (s : State) (k : Nat) (o : OutPkt), s.net.outs[k]? = some o → o.sent + 16384 ≤ s.cycle →
    ∃ t q, exec (.retransmit k) s = .next t ∧ t.net.outs[k]? = some { o with sent := s.cycle, port := q } ∧
      (∀ j, j ≠ k → t.net.outs[j]? = s.net.outs[j]?) ∧
      (∀ port, q = some port → port ∈ s.net.up ∧ ∃ det, t.net.wire = s.net.wire ++ [(port, { o.pkt with det := det })]) ∧
      (o.pkt.dst ≠ s.dev % 256 →
        (∃ b ∈ minimalPorts (s.dev % 256) o.pkt.dst, b ∈ s.net.up ∧ b < 30 ∧ some b ≠ o.port) → q.isSome = true ∧ q ≠ o.port) ∧
      { t with net := .init } = { s with net := .init }) ∧
  (∀ (s : State) (dev : Nat) (o : OutPkt), dev ≠ s.dev % 256 → o ∈ s.net.outs → o.pkt.dst = dev →
    (o.first + 2 ^ 20 ≤ s.cycle ∨ dev ∈ s.net.lost) →
    ∃ t, exec (.deviceLost dev) s = .next t ∧ dev ∈ t.net.lost ∧ (∀ d, d ∈ s.net.lost → d ∈ t.net.lost) ∧
      (∀ x ∈ t.lentTok, x.holder ≠ dev) ∧ (∀ x ∈ t.heldTok, x.dev ≠ dev)) ∧
  (∀ (s : State) (port : Nat), port ∈ s.net.up → let n := (look port s.net.replays).getD 0 + 1
    (n < 16 → ∃ t, exec (.linkReplay port) s = .next t ∧ look port t.net.replays = some n ∧ t.net.up = s.net.up ∧
      { t with net := .init } = { s with net := .init }) ∧
    (16 ≤ n → ∃ t, exec (.linkReplay port) s = .next t ∧ port ∉ t.net.up ∧
      (port < 30 →
        (∀ (k : Nat) (o : OutPkt), s.net.outs[k]? = some o → (o.port ≠ some port → t.net.outs[k]? = some o) ∧
          (o.port = some port → ∃ q, q ≠ some port ∧ t.net.outs[k]? = some { o with sent := s.cycle, port := q })) ∧
        t.mgmt = s.mgmt ++ [[eventHead s 0x95 0 0, 0, BitVec.ofNat 64 (port + (look port s.net.ids).getD 0 * 256), s.presscnt]] ∧
        { t with net := .init, mgmt := [] } = { s with net := .init, mgmt := [] }))) ∧
  (∀ (s : State) (port n : Nat), (s.net.ids.map (·.1)).Pairwise (· < ·) →
    (port < 30 → (∀ q ∈ s.net.ids, q.1 = port ∨ 30 ≤ q.1 ∨ q.2 ≠ n) →
      (n % 256 = neighbour (s.dev % 256) port →
        ∃ t, exec (.linkUp port n) s = .next t ∧ port ∈ t.net.up ∧ (∀ q, q ∈ s.net.up → q ∈ t.net.up) ∧
          look port t.net.ids = some n ∧ { t with net := .init } = { s with net := .init }) ∧
      (n % 256 ≠ neighbour (s.dev % 256) port →
        ∃ t, exec (.linkUp port n) s = .next t ∧ port ∉ t.net.up ∧
          t.mgmt = s.mgmt ++ [[eventHead s 0x95 0 0, 0, BitVec.ofNat 64 (port + n * 256), s.presscnt]] ∧
          { t with net := .init, mgmt := [] } = { s with net := .init, mgmt := [] })) ∧
    (∀ q, port < 30 → q < 30 → q ≠ port → look q s.net.ids = some n →
      ∃ t, exec (.linkUp port n) s = .next t ∧ port ∉ t.net.up ∧ q ∉ t.net.up ∧
        [eventHead s 0x95 0 0, 0, BitVec.ofNat 64 (port + n * 256), s.presscnt] ∈ t.mgmt ∧
        [eventHead s 0x95 0 0, 0, BitVec.ofNat 64 (q + n * 256), s.presscnt] ∈ t.mgmt ∧
        { t with net := .init, mgmt := [] } = { s with net := .init, mgmt := [] }) ∧
    (port = 30 ∨ port = 31 →
      ∃ t, exec (.linkUp port n) s = .next t ∧ port ∈ t.net.up ∧ look port t.net.ids = some n ∧
        { t with net := .init } = { s with net := .init }))

/-- R79, R301, R320, R334 to R341: the host's commands after boot: each is performed whole and answered with its
status; before boot completes, only those that R335 names. A reset samples the id straps and begins anew; the rollback
fuses stay. What is the model's choice here: the load of PTBASE, the value a budget entry and the staging range read
as, the boot ROM in one step, what a reset keeps, the port of named commands (logs 61, 63, 67, 68, 76, 77). -/
def Obligations.HostCommands : Prop :=
  (∀ (s : State), s.boot = 2 → let f : State → State := fun y => { y with resp := [] }
    (∀ addr, ∃ t, exec (.cfgRead addr) s = .next t ∧ Responded 0 [cfgWord s addr.toNat] s t ∧ f t = f s) ∧
    (∀ ctx i v, ctx < 512 → i < 4 →
      ∃ t, exec (.cfgWrite (BitVec.ofNat 64 (0x10000 + 64 * ctx + 8 * (i + 2))) v) s = .next t ∧ Responded 0 [] s t ∧
        t.ctx ctx = { s.ctx ctx with dmembDef := vset (s.ctx ctx).dmembDef i v } ∧ (∀ x, x ≠ ctx → t.ctx x = s.ctx x) ∧
        { f t with ctxs := [] } = { f s with ctxs := [] }) ∧
    (∀ i v, i < 512 → ∃ t, exec (.budgetTableWrite i v) s = .next t ∧ Responded 0 [] s t ∧ budgetOf t i = v ∧
      (∀ j, j ≠ i → budgetOf t j = budgetOf s j) ∧ { f t with budgetNext := [] } = { f s with budgetNext := [] }) ∧
    (∀ ctx, ctx < 512 → (s.ctx ctx).en = false →
      ∃ t, exec (.contextEnable ctx) s = .next t ∧ Responded 0 [] s t ∧
        t.ctx ctx = { s.ctx ctx with en := true, inst := ((s.ctx ctx).inst + 1) % 2 ^ 32 } ∧
        (∀ x, x ≠ ctx → t.ctx x = s.ctx x) ∧ { f t with ctxs := [] } = { f s with ctxs := [] }) ∧
    (∀ ctx, ctx < 512 → (s.ctx ctx).en = true → (∀ l ∈ s.launches, l.ctx ≠ ctx) → (s.ctx ctx).ls = none →
      ∃ t, exec (.contextDisable ctx) s = .next t ∧ Responded 0 [] s t ∧ t.ctx ctx = { s.ctx ctx with en := false } ∧
        (∀ x, x ≠ ctx → t.ctx x = s.ctx x) ∧ { f t with ctxs := [] } = { f s with ctxs := [] }) ∧
    (∀ n, n < 128 → ∃ t, exec (.wake n) s = .next t ∧ Responded 0 [] s t ∧ (t.core n).latch = true ∧
      StepAt n f (fun k => { k with latch := false }) s t) ∧
    (∀ n, n < 128 → (s.core n).stopped = true → (s.core n).live = false →
      ∃ t, exec (.coreReset n) s = .next t ∧ Responded 0 [] s t ∧ (t.core n).stopped = false ∧ (t.core n).raised = none ∧
        (t.core n).out = (s.core n).withdrawn.any coreBank ∧
        StepAt n f (fun k => { k with stopped := false, raised := none, out := false }) s t) ∧
    (s.rollback.toNat ≤ s.fwVersion.toNat → ∃ t, exec .rollback s = .next t ∧ Responded 0 [] s t ∧
      t.rollback = s.fwVersion ∧ { f t with rollback := 0 } = { f s with rollback := 0 }) ∧
    (s.fwVersion.toNat < s.rollback.toNat → ∃ t, exec .rollback s = .next t ∧ Responded 1 [] s t ∧ f t = f s) ∧
    (∀ ctx (x : W64) a b s1, ctx < 512 → 6 ≤ x.toNat % 32 → x.toNat % 32 ≤ 20 → fld x 5 59 = 0 → (s.ctx ctx).ls = none →
      freeAnchor s 0 = some a → takeStock s ctx (x.toNat % 32) = .ok (b, s1) →
      ∃ t h, exec (.lsOpen ctx x) s = .next t ∧ Responded 0 [h] s t ∧ hKind h = 2 ∧ anchorOf h = a ∧ (t.ctx ctx).ls = some a) ∧
    (∀ ctx a e, ctx < 512 → (s.ctx ctx).ls = some a → a.dev = s.dev % 256 → a.core = 0 → a.idx < 1024 →
      (s.core 0).wend a = some e →
      ∃ t, exec (.lsClose ctx) s = .next t ∧ Responded 0 [] s t ∧ (t.core 0).wend a = none)) ∧
  (∀ (s : State) (n0 n1 n2 n3 : W64),
    ∃ t, exec (.attest n0 n1 n2 n3) s = .next t ∧ Responded 0 (attestReport s [n0, n1, n2, n3]) s t ∧
      { t with resp := [] } = { s with resp := [] }) ∧
  (∀ (s : State), s.boot = 0 →
    (∃ t, exec (.bootctl 1) s = .next t ∧ Responded 0 [] s t ∧ t.boot = 1 ∧
      { t with resp := [], boot := 0 } = { s with resp := [] }) ∧
    (∀ i v, i < 2 ^ 25 → ∃ t, exec (.firmwareStaging i v) s = .next t ∧ Responded 0 [] s t ∧ t.rd64 (8 * i) = v ∧
      SameBytesBut (8 * i) 8 s t ∧ { t with resp := [], mem := [] } = { s with resp := [], mem := [] })) ∧
  (∀ (s : State) (v : W64), s.boot = 1 →
    (bootCheck s = 0 → ∃ t, exec (.bootctl v) s = .next t ∧ t.boot = 2 ∧ t.fwVersion = s.rd64 8 ∧
      (∀ c, c < 128 → (t.core c).monvec = s.rd64 0x18) ∧ (t.core 0).live = true ∧ (t.core 0).mode = .m ∧
      (t.core 0).ctl.pc = s.rd64 0x18 ∧ SameBytes s t) ∧
    (bootCheck s ≠ 0 → ∃ t, exec (.bootctl v) s = .next t ∧ t.boot = 3 ∧ t.bootFail = bootCheck s ∧
      { t with boot := 1, bootFail := 0 } = { s with bootFail := 0 })) ∧
  (∀ (s : State) (x : BitVec 8), ∃ t, exec (.deviceReset x) s = .next t ∧ t.dev = x.toNat ∧ t.rollback = s.rollback ∧
    t.boot = 0 ∧ (∀ c, t.core c = .init) ∧ (∀ a, mget memDefault t.mem a = 0) ∧ t.launches = [] ∧ t.net = .init) ∧
  (∀ (s : State) (n : Nat), s.boot ≠ 2 →
    ∃ t, exec (.wake n) s = .next t ∧ Responded 3 [] s t ∧ { t with resp := [] } = { s with resp := [] }) ∧
  (∀ (s : State) (k n tag : Nat) (p : Packet), s.net.inbox[k]? = some p → p.op = 10 → (p.port = 30 ∨ p.port = 31) →
    (∀ q ∈ s.net.inbox.take k, q.port ≠ 30 ∧ q.port ≠ 31) → s.boot = 2 → n < 128 → tag < 2 ^ 48 →
    p.payload = leBytes 8 (4 + tag * 65536) ++ leBytes 8 n →
    ∃ t, exec (.hostPacket k) s = .next t ∧ t.net.inbox = s.net.inbox.eraseIdx k ∧ (t.core n).latch = true ∧
      t.resp = s.resp ++ [(p.port, [BitVec.ofNat 64 (tag * 65536)])] ∧
      StepAt n (fun y => { y with resp := [], net := .init }) (fun y => { y with latch := false }) s t)
end

