-- ==== Sys2Proof/Laws/Arms.lean ====
section
/-! SUPPORT. The meaning each constructor of Instr is dispatched to. -/

namespace Sys2Proof.Machine

theorem exec_nop (s : State) : exec (.nop) s = execNop s := rfl
theorem exec_halt (s : State) : exec (.halt) s = execHalt s := rfl
theorem exec_yield (s : State) : exec (.yield) s = execYield s := rfl
theorem exec_wfe (s : State) : exec (.wfe) s = execWfe s := rfl
theorem exec_trap (n : BitVec 6) (s : State) : exec (.trap n) s = execTrap n s := rfl
theorem exec_eret (s : State) : exec (.eret) s = execEret s := rfl
theorem exec_psave (d : BitVec 6) (a : BitVec 6) (b : BitVec 6) (s : State) : exec (.psave d a b) s = execPsave d a b s := rfl
theorem exec_prest (d : BitVec 6) (a : BitVec 6) (b : BitVec 6) (s : State) : exec (.prest d a b) s = execPrest d a b s := rfl
theorem exec_tlbi (a : BitVec 6) (b : BitVec 6) (s : State) : exec (.tlbi a b) s = execTlbi a b s := rfl
theorem exec_keyrev (d : BitVec 6) (a : BitVec 6) (b : BitVec 6) (s : State) : exec (.keyrev d a b) s = execKeyrev d a b s := rfl
theorem exec_icflush (s : State) : exec (.icflush) s = execIcflush s := rfl
theorem exec_slipr (d : BitVec 6) (s : State) : exec (.slipr d) s = execSlipr d s := rfl
theorem exec_preempt (d : BitVec 6) (a : BitVec 6) (s : State) : exec (.preempt d a) s = execPreempt d a s := rfl
theorem exec_csrr (d : BitVec 6) (c : BitVec 12) (s : State) : exec (.csrr d c) s = execCsrr d c s := rfl
theorem exec_csrw (a : BitVec 6) (c : BitVec 12) (s : State) : exec (.csrw a c) s = execCsrw a c s := rfl
theorem exec_add (d : BitVec 6) (a : BitVec 6) (b : BitVec 6) (s : State) : exec (.add d a b) s = execAdd d a b s := rfl
theorem exec_sub (d : BitVec 6) (a : BitVec 6) (b : BitVec 6) (s : State) : exec (.sub d a b) s = execSub d a b s := rfl
theorem exec_mul (d : BitVec 6) (a : BitVec 6) (b : BitVec 6) (s : State) : exec (.mul d a b) s = execMul d a b s := rfl
theorem exec_mulh (d : BitVec 6) (a : BitVec 6) (b : BitVec 6) (s : State) : exec (.mulh d a b) s = execMulh d a b s := rfl
theorem exec_mulhn (d : BitVec 6) (a : BitVec 6) (b : BitVec 6) (s : State) : exec (.mulhn d a b) s = execMulhn d a b s := rfl
theorem exec_div (d : BitVec 6) (a : BitVec 6) (b : BitVec 6) (s : State) : exec (.div d a b) s = execDiv d a b s := rfl
theorem exec_divn (d : BitVec 6) (a : BitVec 6) (b : BitVec 6) (s : State) : exec (.divn d a b) s = execDivn d a b s := rfl
theorem exec_rem (d : BitVec 6) (a : BitVec 6) (b : BitVec 6) (s : State) : exec (.rem d a b) s = execRem d a b s := rfl
theorem exec_remn (d : BitVec 6) (a : BitVec 6) (b : BitVec 6) (s : State) : exec (.remn d a b) s = execRemn d a b s := rfl
theorem exec_and (d : BitVec 6) (a : BitVec 6) (b : BitVec 6) (s : State) : exec (.and d a b) s = execAnd d a b s := rfl
theorem exec_or (d : BitVec 6) (a : BitVec 6) (b : BitVec 6) (s : State) : exec (.or d a b) s = execOr d a b s := rfl
theorem exec_xor (d : BitVec 6) (a : BitVec 6) (b : BitVec 6) (s : State) : exec (.xor d a b) s = execXor d a b s := rfl
theorem exec_andn (d : BitVec 6) (a : BitVec 6) (b : BitVec 6) (s : State) : exec (.andn d a b) s = execAndn d a b s := rfl
theorem exec_shl (d : BitVec 6) (a : BitVec 6) (b : BitVec 6) (s : State) : exec (.shl d a b) s = execShl d a b s := rfl
theorem exec_shr (d : BitVec 6) (a : BitVec 6) (b : BitVec 6) (s : State) : exec (.shr d a b) s = execShr d a b s := rfl
theorem exec_sra (d : BitVec 6) (a : BitVec 6) (b : BitVec 6) (s : State) : exec (.sra d a b) s = execSra d a b s := rfl
theorem exec_rot (d : BitVec 6) (a : BitVec 6) (b : BitVec 6) (s : State) : exec (.rot d a b) s = execRot d a b s := rfl
theorem exec_min (d : BitVec 6) (a : BitVec 6) (b : BitVec 6) (s : State) : exec (.min d a b) s = execMin d a b s := rfl
theorem exec_max (d : BitVec 6) (a : BitVec 6) (b : BitVec 6) (s : State) : exec (.max d a b) s = execMax d a b s := rfl
theorem exec_minn (d : BitVec 6) (a : BitVec 6) (b : BitVec 6) (s : State) : exec (.minn d a b) s = execMinn d a b s := rfl
theorem exec_maxn (d : BitVec 6) (a : BitVec 6) (b : BitVec 6) (s : State) : exec (.maxn d a b) s = execMaxn d a b s := rfl
theorem exec_clz (d : BitVec 6) (a : BitVec 6) (s : State) : exec (.clz d a) s = execClz d a s := rfl
theorem exec_ctz (d : BitVec 6) (a : BitVec 6) (s : State) : exec (.ctz d a) s = execCtz d a s := rfl
theorem exec_popc (d : BitVec 6) (a : BitVec 6) (s : State) : exec (.popc d a) s = execPopc d a s := rfl
theorem exec_bswap (d : BitVec 6) (a : BitVec 6) (s : State) : exec (.bswap d a) s = execBswap d a s := rfl
theorem exec_addi (d : BitVec 6) (a : BitVec 6) (i : BitVec 14) (s : State) : exec (.addi d a i) s = execAddi d a i s := rfl
theorem exec_andi (d : BitVec 6) (a : BitVec 6) (i : BitVec 14) (s : State) : exec (.andi d a i) s = execAndi d a i s := rfl
theorem exec_ori (d : BitVec 6) (a : BitVec 6) (i : BitVec 14) (s : State) : exec (.ori d a i) s = execOri d a i s := rfl
theorem exec_xori (d : BitVec 6) (a : BitVec 6) (i : BitVec 14) (s : State) : exec (.xori d a i) s = execXori d a i s := rfl
theorem exec_shli (d : BitVec 6) (a : BitVec 6) (n : BitVec 6) (s : State) : exec (.shli d a n) s = execShli d a n s := rfl
theorem exec_shri (d : BitVec 6) (a : BitVec 6) (n : BitVec 6) (s : State) : exec (.shri d a n) s = execShri d a n s := rfl
theorem exec_srai (d : BitVec 6) (a : BitVec 6) (n : BitVec 6) (s : State) : exec (.srai d a n) s = execSrai d a n s := rfl
theorem exec_muli (d : BitVec 6) (a : BitVec 6) (i : BitVec 14) (s : State) : exec (.muli d a i) s = execMuli d a i s := rfl
theorem exec_li (d : BitVec 6) (i : BitVec 20) (s : State) : exec (.li d i) s = execLi d i s := rfl
theorem exec_lik (d : BitVec 6) (k : BitVec 2) (i : BitVec 16) (s : State) : exec (.lik d k i) s = execLik d k i s := rfl
theorem exec_cmp (pd : BitVec 3) (cc : Cond) (a : BitVec 6) (b : BitVec 6) (s : State) : exec (.cmp pd cc a b) s = execCmp pd cc a b s := rfl
theorem exec_cmpi (pd : BitVec 3) (cc : Cond) (a : BitVec 6) (i : BitVec 12) (s : State) : exec (.cmpi pd cc a i) s = execCmpi pd cc a i s := rfl
theorem exec_pand (d : BitVec 3) (a : BitVec 3) (b : BitVec 3) (s : State) : exec (.pand d a b) s = execPand d a b s := rfl
theorem exec_por (d : BitVec 3) (a : BitVec 3) (b : BitVec 3) (s : State) : exec (.por d a b) s = execPor d a b s := rfl
theorem exec_pxor (d : BitVec 3) (a : BitVec 3) (b : BitVec 3) (s : State) : exec (.pxor d a b) s = execPxor d a b s := rfl
theorem exec_pandn (d : BitVec 3) (a : BitVec 3) (b : BitVec 3) (s : State) : exec (.pandn d a b) s = execPandn d a b s := rfl
theorem exec_pnot (d : BitVec 3) (a : BitVec 3) (s : State) : exec (.pnot d a) s = execPnot d a s := rfl
theorem exec_pfrom (d : BitVec 3) (a : BitVec 6) (n : BitVec 6) (s : State) : exec (.pfrom d a n) s = execPfrom d a n s := rfl
theorem exec_pto (d : BitVec 6) (a : BitVec 3) (s : State) : exec (.pto d a) s = execPto d a s := rfl
theorem exec_sel (d : BitVec 6) (a : BitVec 6) (b : BitVec 6) (inv : Bool) (p : BitVec 3) (s : State) : exec (.sel d a b inv p) s = execSel d a b inv p s := rfl
theorem exec_lea (d : BitVec 6) (a : BitVec 6) (b : BitVec 6) (disp : BitVec 5) (sh : BitVec 3) (s : State) : exec (.lea d a b disp sh) s = execLea d a b disp sh s := rfl
theorem exec_br (p : BitVec 3) (off : BitVec 22) (s : State) : exec (.br p off) s = execBr p off s := rfl
theorem exec_brn (p : BitVec 3) (off : BitVec 22) (s : State) : exec (.brn p off) s = execBrn p off s := rfl
theorem exec_call (off : BitVec 26) (s : State) : exec (.call off) s = execCall off s := rfl
theorem exec_jr (a : BitVec 6) (s : State) : exec (.jr a) s = execJr a s := rfl
theorem exec_ret (s : State) : exec (.ret) s = execRet s := rfl
theorem exec_callr (a : BitVec 6) (s : State) : exec (.callr a) s = execCallr a s := rfl
theorem exec_loop (a : BitVec 6) (n : BitVec 6) (s : State) : exec (.loop a n) s = execLoop a n s := rfl
theorem exec_lds (d : BitVec 6) (a : BitVec 6) (off : BitVec 12) (z : Size) (s : State) : exec (.lds d a off z) s = execLds d a off z s := rfl
theorem exec_sts (x : BitVec 6) (a : BitVec 6) (off : BitVec 12) (z : Size) (s : State) : exec (.sts x a off z) s = execSts x a off z s := rfl
theorem exec_atom (op : AtomOp) (dword : Bool) (d : BitVec 6) (a : BitVec 6) (b : BitVec 6) (s : State) : exec (.atom op dword d a b) s = execAtom op dword d a b s := rfl
theorem exec_cas (dword : Bool) (d : BitVec 6) (a : BitVec 6) (b : BitVec 6) (s : State) : exec (.cas dword d a b) s = execCas dword d a b s := rfl
theorem exec_ldfe (d : BitVec 6) (a : BitVec 6) (s : State) : exec (.ldfe d a) s = execLdfe d a s := rfl
theorem exec_ldf (d : BitVec 6) (a : BitVec 6) (s : State) : exec (.ldf d a) s = execLdf d a s := rfl
theorem exec_stfe (a : BitVec 6) (b : BitVec 6) (s : State) : exec (.stfe a b) s = execStfe a b s := rfl
theorem exec_stf (a : BitVec 6) (b : BitVec 6) (s : State) : exec (.stf a b) s = execStf a b s := rfl
theorem exec_feprobe (d : BitVec 6) (a : BitVec 6) (s : State) : exec (.feprobe d a) s = execFeprobe d a s := rfl
theorem exec_fence (kind : FenceKind) (scope : Scope) (s : State) : exec (.fence kind scope) s = execFence kind scope s := rfl
theorem exec_tkpush (e : BitVec 2) (s : State) : exec (.tkpush e) s = execTkpush e s := rfl
theorem exec_tkpushv (a : BitVec 6) (e : BitVec 2) (s : State) : exec (.tkpushv a e) s = execTkpushv a e s := rfl
theorem exec_tkpop (e : BitVec 2) (s : State) : exec (.tkpop e) s = execTkpop e s := rfl
theorem exec_tkpopv (d : BitVec 6) (e : BitVec 2) (s : State) : exec (.tkpopv d e) s = execTkpopv d e s := rfl
theorem exec_tkcnt (d : BitVec 6) (e : BitVec 2) (s : State) : exec (.tkcnt d e) s = execTkcnt d e s := rfl
theorem exec_tlread (d : BitVec 6) (x : TlCtx) (s : State) : exec (.tlread d x) s = execTlread d x s := rfl
theorem exec_tlwait (x : TlCtx) (a : BitVec 6) (s : State) : exec (.tlwait x a) s = execTlwait x a s := rfl
theorem exec_tlwaitp (p : BitVec 3) (x : TlCtx) (a : BitVec 6) (s : State) : exec (.tlwaitp p x a) s = execTlwaitp p x a s := rfl
theorem exec_dbar (l : BitVec 3) (s : State) : exec (.dbar l) s = execDbar l s := rfl
theorem exec_dbarNotice (core : Nat) (level : Nat) (s : State) : exec (.dbarNotice core level) s = execDbarNotice core level s := rfl
theorem exec_launch (d : BitVec 6) (a : BitVec 6) (s : State) : exec (.launch d a) s = execLaunch d a s := rfl
theorem exec_lstat (d : BitVec 6) (a : BitVec 6) (s : State) : exec (.lstat d a) s = execLstat d a s := rfl
theorem exec_lcancel (d : BitVec 6) (a : BitVec 6) (s : State) : exec (.lcancel d a) s = execLcancel d a s := rfl
theorem exec_done (s : State) : exec (.done) s = execDone s := rfl
theorem exec_talloc (d : BitVec 6) (a : BitVec 6) (b : BitVec 6) (t : Elem) (s : State) : exec (.talloc d a b t) s = execTalloc d a b t s := rfl
theorem exec_dup (d : BitVec 6) (a : BitVec 6) (s : State) : exec (.dup d a) s = execDup d a s := rfl
theorem exec_drop (a : BitVec 6) (s : State) : exec (.drop a) s = execDrop a s := rfl
theorem exec_tcount (d : BitVec 6) (a : BitVec 6) (s : State) : exec (.tcount d a) s = execTcount d a s := rfl
theorem exec_tinfo (d : BitVec 6) (a : BitVec 6) (s : State) : exec (.tinfo d a) s = execTinfo d a s := rfl
theorem exec_tlde (d : BitVec 6) (a : BitVec 6) (b : BitVec 6) (s : State) : exec (.tlde d a b) s = execTlde d a b s := rfl
theorem exec_hmov (d : BitVec 6) (a : BitVec 6) (restrict : Bool) (keep : BitVec 4) (s : State) : exec (.hmov d a restrict keep) s = execHmov d a restrict keep s := rfl
theorem exec_hnull (a : BitVec 6) (s : State) : exec (.hnull a) s = execHnull a s := rfl
theorem exec_hcmp (d : BitVec 6) (a : BitVec 6) (b : BitVec 6) (s : State) : exec (.hcmp d a b) s = execHcmp d a b s := rfl
theorem exec_hget (d : BitVec 6) (a : BitVec 6) (s : State) : exec (.hget d a) s = execHget d a s := rfl
theorem exec_hput (d : BitVec 6) (a : BitVec 6) (s : State) : exec (.hput d a) s = execHput d a s := rfl
theorem exec_uniq (d : BitVec 6) (a : BitVec 6) (s : State) : exec (.uniq d a) s = execUniq d a s := rfl
theorem exec_upde (d : BitVec 6) (a : BitVec 6) (b : BitVec 6) (c : BitVec 6) (z : Size) (s : State) : exec (.upde d a b c z) s = execUpde d a b c z s := rfl
theorem exec_sopen (d : BitVec 6) (a : BitVec 6) (b : BitVec 6) (s : State) : exec (.sopen d a b) s = execSopen d a b s := rfl
theorem exec_spush (a : BitVec 6) (b : BitVec 6) (nb : Block) (s : State) : exec (.spush a b nb) s = execSpush a b nb s := rfl
theorem exec_spushh (n : BitVec 6) (a : BitVec 6) (b : BitVec 6) (nb : Block) (s : State) : exec (.spushh n a b nb) s = execSpushh n a b nb s := rfl
theorem exec_spop (d : BitVec 6) (a : BitVec 6) (nb : Block) (s : State) : exec (.spop d a nb) s = execSpop d a nb s := rfl
theorem exec_spoph (d : BitVec 6) (a : BitVec 6) (n : BitVec 6) (nb : Block) (s : State) : exec (.spoph d a n nb) s = execSpoph d a n nb s := rfl
theorem exec_sstat (d : BitVec 6) (a : BitVec 6) (s : State) : exec (.sstat d a) s = execSstat d a s := rfl
theorem exec_sclose (a : BitVec 6) (s : State) : exec (.sclose a) s = execSclose a s := rfl
theorem exec_gopen (d : BitVec 6) (a : BitVec 6) (s : State) : exec (.gopen d a) s = execGopen d a s := rfl
theorem exec_gseal (a : BitVec 6) (s : State) : exec (.gseal a) s = execGseal a s := rfl
theorem exec_gwait (a : BitVec 6) (s : State) : exec (.gwait a) s = execGwait a s := rfl
theorem exec_racq (d : BitVec 6) (a : BitVec 6) (s : State) : exec (.racq d a) s = execRacq d a s := rfl
theorem exec_rrel (a : BitVec 6) (s : State) : exec (.rrel a) s = execRrel a s := rfl
theorem exec_mod (o : Order) (x : Scope) (c : Cache) (s : State) : exec (.mod o x c) s = execMod o x c s := rfl
theorem exec_nopWide (c : Clause) (s : State) : exec (.nopWide c) s = execNopWide c s := rfl
theorem exec_aadd (c : Clause) (ad : BitVec 5) (aa : BitVec 5) (ab : BitVec 5) (s : State) : exec (.aadd c ad aa ab) s = execAadd c ad aa ab s := rfl
theorem exec_asub (c : Clause) (ad : BitVec 5) (aa : BitVec 5) (ab : BitVec 5) (s : State) : exec (.asub c ad aa ab) s = execAsub c ad aa ab s := rfl
theorem exec_amul (c : Clause) (ad : BitVec 5) (aa : BitVec 5) (ab : BitVec 5) (s : State) : exec (.amul c ad aa ab) s = execAmul c ad aa ab s := rfl
theorem exec_aand (c : Clause) (ad : BitVec 5) (aa : BitVec 5) (ab : BitVec 5) (s : State) : exec (.aand c ad aa ab) s = execAand c ad aa ab s := rfl
theorem exec_aaddi (c : Clause) (ad : BitVec 5) (aa : BitVec 5) (i : BitVec 32) (s : State) : exec (.aaddi c ad aa i) s = execAaddi c ad aa i s := rfl
theorem exec_ashl (c : Clause) (ad : BitVec 5) (aa : BitVec 5) (n : AShift) (s : State) : exec (.ashl c ad aa n) s = execAshl c ad aa n s := rfl
theorem exec_ashr (c : Clause) (ad : BitVec 5) (aa : BitVec 5) (n : AShift) (arith : Bool) (s : State) : exec (.ashr c ad aa n arith) s = execAshr c ad aa n arith s := rfl
theorem exec_ali (c : Clause) (ad : BitVec 5) (i : BitVec 32) (s : State) : exec (.ali c ad i) s = execAli c ad i s := rfl
theorem exec_alih (c : Clause) (ad : BitVec 5) (i : BitVec 32) (s : State) : exec (.alih c ad i) s = execAlih c ad i s := rfl
theorem exec_abr (c : Clause) (aa : BitVec 5) (ab : BitVec 5) (cc : Cond) (off : BitVec 20) (s : State) : exec (.abr c aa ab cc off) s = execAbr c aa ab cc off s := rfl
theorem exec_aj (c : Clause) (off : BitVec 20) (s : State) : exec (.aj c off) s = execAj c off s := rfl
theorem exec_aloop (aa : BitVec 5) (len : BitVec 7) (s : State) : exec (.aloop aa len) s = execAloop aa len s := rfl
theorem exec_aend (c : Clause) (s : State) : exec (.aend c) s = execAend c s := rfl
theorem exec_tkv (c : Clause) (ad : BitVec 5) (aa : BitVec 5) (send : Bool) (recv : Bool) (s : State) : exec (.tkv c ad aa send recv) s = execTkv c ad aa send recv s := rfl
theorem exec_acsrr (c : Clause) (ad : BitVec 5) (n : BitVec 12) (s : State) : exec (.acsrr c ad n) s = execAcsrr c ad n s := rfl
theorem exec_acsrw (c : Clause) (aa : BitVec 5) (n : BitVec 12) (s : State) : exec (.acsrw c aa n) s = execAcsrw c aa n s := rfl
theorem exec_rep (c : Clause) (cnt : BitVec 6) (sd : BitVec 4) (sa : BitVec 4) (sb : BitVec 4) (sc : BitVec 4) (s : State) : exec (.rep c cnt sd sa sb sc) s = execRep c cnt sd sa sb sc s := rfl
theorem exec_modWide (o : Order) (x : Scope) (k : Cache) (s : State) : exec (.modWide o x k) s = execModWide o x k s := rfl
theorem exec_tlwaitWide (c : Clause) (x : TlCtx) (aa : BitVec 5) (s : State) : exec (.tlwaitWide c x aa) s = execTlwaitWide c x aa s := rfl
theorem exec_ldt (c : Clause) (t : Elem) (hd : BitVec 6) (base : BitVec 5) (idx : BitVec 5) (off : BitVec 20) (s : State) : exec (.ldt c t hd base idx off) s = execLdt c t hd base idx off s := rfl
theorem exec_ldv (c : Clause) (t : Elem) (vd : BitVec 9) (base : BitVec 5) (idx : BitVec 5) (off : BitVec 20) (s : State) : exec (.ldv c t vd base idx off) s = execLdv c t vd base idx off s := rfl
theorem exec_ldva (c : Clause) (t : Elem) (vd : BitVec 9) (base : BitVec 5) (idx : BitVec 5) (off : BitVec 20) (s : State) : exec (.ldva c t vd base idx off) s = execLdva c t vd base idx off s := rfl
theorem exec_ldvt (c : Clause) (t : Elem) (vd : BitVec 9) (h : BitVec 6) (row0 : BitVec 9) (col0 : BitVec 9) (mode : LdvtMode) (packed : Bool) (s : State) : exec (.ldvt c t vd h row0 col0 mode packed) s = execLdvt c t vd h row0 col0 mode packed s := rfl
theorem exec_gath (c : Clause) (t : Elem) (k : BitVec 3) (vd : BitVec 9) (va : BitVec 9) (ab : BitVec 5) (s : State) : exec (.gath c t k vd va ab) s = execGath c t k vd va ab s := rfl
theorem exec_btgath (c : Clause) (t : Elem) (k : BitVec 3) (vd : BitVec 9) (va : BitVec 9) (aT : BitVec 5) (aP : BitVec 5) (s : State) : exec (.btgath c t k vd va aT aP) s = execBtgath c t k vd va aT aP s := rfl
theorem exec_cec (c : Clause) (base : BitVec 5) (off : BitVec 20) (s : State) : exec (.cec c base off) s = execCec c base off s := rfl
theorem exec_cedup (c : Clause) (base : BitVec 5) (off : BitVec 20) (s : State) : exec (.cedup c base off) s = execCedup c base off s := rfl
theorem exec_cecol (c : Clause) (hd : BitVec 6) (base : BitVec 5) (off : BitVec 20) (s : State) : exec (.cecol c hd base off) s = execCecol c hd base off s := rfl
theorem exec_pref (c : Clause) (base : BitVec 5) (off : BitVec 20) (s : State) : exec (.pref c base off) s = execPref c base off s := rfl
theorem exec_rrot (c : Clause) (hd : BitVec 6) (hs : BitVec 6) (ra : BitVec 5) (s : State) : exec (.rrot c hd hs ra) s = execRrot c hd hs ra s := rfl
theorem exec_gwaitf (c : Clause) (hs : BitVec 6) (s : State) : exec (.gwaitf c hs) s = execGwaitf c hs s := rfl
theorem exec_spopv (c : Clause) (vd : BitVec 9) (h : BitVec 6) (n : BitVec 4) (s : State) : exec (.spopv c vd h n) s = execSpopv c vd h n s := rfl
theorem exec_ldk (c : Clause) (k : BitVec 3) (base : BitVec 5) (off : BitVec 20) (s : State) : exec (.ldk c k base off) s = execLdk c k base off s := rfl
theorem exec_vadd (c : Clause) (t : VTy) (k : BitVec 3) (sat : Bool) (vd : BitVec 9) (va : BitVec 9) (vb : BitVec 9) (s : State) : exec (.vadd c t k sat vd va vb) s = execVadd c t k sat vd va vb s := rfl
theorem exec_vsub (c : Clause) (t : VTy) (k : BitVec 3) (sat : Bool) (vd : BitVec 9) (va : BitVec 9) (vb : BitVec 9) (s : State) : exec (.vsub c t k sat vd va vb) s = execVsub c t k sat vd va vb s := rfl
theorem exec_vmul (c : Clause) (t : VTy) (k : BitVec 3) (sat : Bool) (vd : BitVec 9) (va : BitVec 9) (vb : BitVec 9) (s : State) : exec (.vmul c t k sat vd va vb) s = execVmul c t k sat vd va vb s := rfl
theorem exec_vfma (c : Clause) (t : VTy) (k : BitVec 3) (sat : Bool) (vd : BitVec 9) (va : BitVec 9) (vb : BitVec 9) (vc : BitVec 9) (s : State) : exec (.vfma c t k sat vd va vb vc) s = execVfma c t k sat vd va vb vc s := rfl
theorem exec_vfnma (c : Clause) (t : VTy) (k : BitVec 3) (sat : Bool) (vd : BitVec 9) (va : BitVec 9) (vb : BitVec 9) (vc : BitVec 9) (s : State) : exec (.vfnma c t k sat vd va vb vc) s = execVfnma c t k sat vd va vb vc s := rfl
theorem exec_vmin (c : Clause) (t : VTy) (k : BitVec 3) (vd : BitVec 9) (va : BitVec 9) (vb : BitVec 9) (s : State) : exec (.vmin c t k vd va vb) s = execVmin c t k vd va vb s := rfl
theorem exec_vmax (c : Clause) (t : VTy) (k : BitVec 3) (vd : BitVec 9) (va : BitVec 9) (vb : BitVec 9) (s : State) : exec (.vmax c t k vd va vb) s = execVmax c t k vd va vb s := rfl
theorem exec_vabs (c : Clause) (t : VTy) (k : BitVec 3) (sat : Bool) (vd : BitVec 9) (va : BitVec 9) (s : State) : exec (.vabs c t k sat vd va) s = execVabs c t k sat vd va s := rfl
theorem exec_vneg (c : Clause) (t : VTy) (k : BitVec 3) (sat : Bool) (vd : BitVec 9) (va : BitVec 9) (s : State) : exec (.vneg c t k sat vd va) s = execVneg c t k sat vd va s := rfl
theorem exec_vrcp (c : Clause) (k : BitVec 3) (vd : BitVec 9) (va : BitVec 9) (s : State) : exec (.vrcp c k vd va) s = execVrcp c k vd va s := rfl
theorem exec_vrsq (c : Clause) (k : BitVec 3) (vd : BitVec 9) (va : BitVec 9) (s : State) : exec (.vrsq c k vd va) s = execVrsq c k vd va s := rfl
theorem exec_vexp2 (c : Clause) (k : BitVec 3) (vd : BitVec 9) (va : BitVec 9) (s : State) : exec (.vexp2 c k vd va) s = execVexp2 c k vd va s := rfl
theorem exec_vlog2 (c : Clause) (k : BitVec 3) (vd : BitVec 9) (va : BitVec 9) (s : State) : exec (.vlog2 c k vd va) s = execVlog2 c k vd va s := rfl
theorem exec_vcmp (c : Clause) (t : VTy) (cc : VCond) (k : BitVec 3) (kd : BitVec 3) (va : BitVec 9) (vb : BitVec 9) (s : State) : exec (.vcmp c t cc k kd va vb) s = execVcmp c t cc k kd va vb s := rfl
theorem exec_vsel (c : Clause) (k : BitVec 3) (vd : BitVec 9) (va : BitVec 9) (vb : BitVec 9) (s : State) : exec (.vsel c k vd va vb) s = execVsel c k vd va vb s := rfl
theorem exec_vmov (c : Clause) (k : BitVec 3) (vd : BitVec 9) (va : BitVec 9) (s : State) : exec (.vmov c k vd va) s = execVmov c k vd va s := rfl
theorem exec_vand (c : Clause) (k : BitVec 3) (vd : BitVec 9) (va : BitVec 9) (vb : BitVec 9) (s : State) : exec (.vand c k vd va vb) s = execVand c k vd va vb s := rfl
theorem exec_vor (c : Clause) (k : BitVec 3) (vd : BitVec 9) (va : BitVec 9) (vb : BitVec 9) (s : State) : exec (.vor c k vd va vb) s = execVor c k vd va vb s := rfl
theorem exec_vxor (c : Clause) (k : BitVec 3) (vd : BitVec 9) (va : BitVec 9) (vb : BitVec 9) (s : State) : exec (.vxor c k vd va vb) s = execVxor c k vd va vb s := rfl
theorem exec_vshl (c : Clause) (k : BitVec 3) (vd : BitVec 9) (va : BitVec 9) (n : VShift) (s : State) : exec (.vshl c k vd va n) s = execVshl c k vd va n s := rfl
theorem exec_vshr (c : Clause) (k : BitVec 3) (vd : BitVec 9) (va : BitVec 9) (n : VShift) (s : State) : exec (.vshr c k vd va n) s = execVshr c k vd va n s := rfl
theorem exec_vsra (c : Clause) (k : BitVec 3) (vd : BitVec 9) (va : BitVec 9) (n : VShift) (s : State) : exec (.vsra c k vd va n) s = execVsra c k vd va n s := rfl
theorem exec_vmovi (c : Clause) (vd : BitVec 9) (src : MoviSrc) (s : State) : exec (.vmovi c vd src) s = execVmovi c vd src s := rfl
theorem exec_viota (c : Clause) (vd : BitVec 9) (a : BitVec 5) (step : BitVec 24) (s : State) : exec (.viota c vd a step) s = execViota c vd a step s := rfl
theorem exec_vcvt (c : Clause) (dst : Elem) (src : Elem) (k : BitVec 3) (sat : Bool) (vd : BitVec 9) (va : BitVec 9) (s : State) : exec (.vcvt c dst src k sat vd va) s = execVcvt c dst src k sat vd va s := rfl
theorem exec_vlcvt (c : Clause) (t : LogTy) (k : BitVec 3) (sat : Bool) (vd : BitVec 9) (va : BitVec 9) (s : State) : exec (.vlcvt c t k sat vd va) s = execVlcvt c t k sat vd va s := rfl
theorem exec_vlexp (c : Clause) (t : LogTy) (k : BitVec 3) (vd : BitVec 9) (va : BitVec 9) (s : State) : exec (.vlexp c t k vd va) s = execVlexp c t k vd va s := rfl
theorem exec_vlmul (c : Clause) (t : LogTy) (k : BitVec 3) (sat : Bool) (vd : BitVec 9) (va : BitVec 9) (vb : BitVec 9) (s : State) : exec (.vlmul c t k sat vd va vb) s = execVlmul c t k sat vd va vb s := rfl
theorem exec_vpack6 (c : Clause) (sat : Bool) (vd : BitVec 9) (va : BitVec 9) (s : State) : exec (.vpack6 c sat vd va) s = execVpack6 c sat vd va s := rfl
theorem exec_vunpk6 (c : Clause) (vd : BitVec 9) (va : BitVec 9) (s : State) : exec (.vunpk6 c vd va) s = execVunpk6 c vd va s := rfl
theorem exec_vcmpr (c : Clause) (t : VTy) (kd : BitVec 3) (vd : BitVec 9) (va : BitVec 9) (s : State) : exec (.vcmpr c t kd vd va) s = execVcmpr c t kd vd va s := rfl
theorem exec_vexpd (c : Clause) (k : BitVec 3) (vd : BitVec 9) (va : BitVec 9) (s : State) : exec (.vexpd c k vd va) s = execVexpd c k vd va s := rfl
theorem exec_vrotr (c : Clause) (k : BitVec 3) (vd : BitVec 9) (va : BitVec 9) (n : BitVec 6) (s : State) : exec (.vrotr c k vd va n) s = execVrotr c k vd va n s := rfl
theorem exec_vrotc (c : Clause) (k : BitVec 3) (vd : BitVec 9) (va : BitVec 9) (n : BitVec 4) (s : State) : exec (.vrotc c k vd va n) s = execVrotc c k vd va n s := rfl
theorem exec_vbcr (c : Clause) (k : BitVec 3) (vd : BitVec 9) (va : BitVec 9) (n : BitVec 6) (s : State) : exec (.vbcr c k vd va n) s = execVbcr c k vd va n s := rfl
theorem exec_vbcc (c : Clause) (k : BitVec 3) (vd : BitVec 9) (va : BitVec 9) (n : BitVec 4) (s : State) : exec (.vbcc c k vd va n) s = execVbcc c k vd va n s := rfl
theorem exec_vredr (c : Clause) (t : VTy) (op : RedOp) (k : BitVec 3) (vd : BitVec 9) (va : BitVec 9) (s : State) : exec (.vredr c t op k vd va) s = execVredr c t op k vd va s := rfl
theorem exec_vredc (c : Clause) (t : VTy) (op : RedOp) (k : BitVec 3) (vd : BitVec 9) (va : BitVec 9) (s : State) : exec (.vredc c t op k vd va) s = execVredc c t op k vd va s := rfl
theorem exec_vscnr (c : Clause) (t : VTy) (op : RedOp) (excl : Bool) (k : BitVec 3) (vd : BitVec 9) (va : BitVec 9) (s : State) : exec (.vscnr c t op excl k vd va) s = execVscnr c t op excl k vd va s := rfl
theorem exec_kop (c : Clause) (op : KOpc) (kd : BitVec 3) (ka : BitVec 3) (kb : BitVec 3) (s : State) : exec (.kop c op kd ka kb) s = execKop c op kd ka kb s := rfl
theorem exec_kmov (c : Clause) (kd : BitVec 3) (src : KSrc) (s : State) : exec (.kmov c kd src) s = execKmov c kd src s := rfl
theorem exec_blend (c : Clause) (bank : BitVec 4) (back : Bool) (s : State) : exec (.blend c bank back) s = execBlend c bank back s := rfl
theorem exec_vtoa (c : Clause) (ad : BitVec 5) (va : BitVec 9) (row : BitVec 4) (col : BitVec 6) (sext : Bool) (s : State) : exec (.vtoa c ad va row col sext) s = execVtoa c ad va row col sext s := rfl
theorem exec_atov (c : Clause) (vd : BitVec 9) (a : BitVec 5) (row : BitVec 4) (col : BitVec 6) (s : State) : exec (.atov c vd a row col) s = execAtov c vd a row col s := rfl
theorem exec_mlease (c : Clause) (g : Bool) (s : State) : exec (.mlease c g) s = execMlease c g s := rfl
theorem exec_mrel (c : Clause) (s : State) : exec (.mrel c) s = execMrel c s := rfl
theorem exec_mma (c : Clause) (fa : MFmt) (fb : MFmt) (g : Bool) (z0 : Bool) (sc : Bool) (a : ASrc) (b : BSrc) (m : BitVec 9) (n : BitVec 9) (k : BitVec 9) (zcol : BitVec 9) (zrow : BitVec 7) (hsa : BitVec 6) (hsb : BitVec 6) (s : State) : exec (.mma c fa fb g z0 sc a b m n k zcol zrow hsa hsb) s = execMma c fa fb g z0 sc a b m n k zcol zrow hsa hsb s := rfl
theorem exec_mmag (c : Clause) (fa : MFmt) (fb : MFmt) (g : Bool) (z0 : Bool) (sc : Bool) (a : ASrc) (hb : BitVec 6) (hc : BitVec 6) (grp : BitVec 4) (m : BitVec 9) (n : BitVec 9) (k : BitVec 9) (zcol : BitVec 9) (zrow : BitVec 7) (hsa : BitVec 6) (hy : BitVec 6) (s : State) : exec (.mmag c fa fb g z0 sc a hb hc grp m n k zcol zrow hsa hy) s = execMmag c fa fb g z0 sc a hb hc grp m n k zcol zrow hsa hy s := rfl
theorem exec_mzero (c : Clause) (m : BitVec 9) (n : BitVec 9) (zrow : BitVec 7) (zcol : BitVec 9) (s : State) : exec (.mzero c m n zrow zcol) s = execMzero c m n zrow zcol s := rfl
theorem exec_mdrain (c : Clause) (dest : Dest) (t : Elem) (sat : Bool) (clip : Bool) (z : Bool) (scl : Option (BitVec 5)) (m : BitVec 9) (n : BitVec 9) (zrow : BitVec 7) (zcol : BitVec 9) (s : State) : exec (.mdrain c dest t sat clip z scl m n zrow zcol) s = execMdrain c dest t sat clip z scl m n zrow zcol s := rfl
theorem exec_mstat (c : Clause) (ad : BitVec 5) (clr : Bool) (s : State) : exec (.mstat c ad clr) s = execMstat c ad clr s := rfl
theorem exec_mrowp (c : Clause) (ad : BitVec 5) (set : Option (BitVec 5)) (s : State) : exec (.mrowp c ad set) s = execMrowp c ad set s := rfl
theorem exec_stv (c : Clause) (t : Elem) (sat : Bool) (hd : BitVec 6) (va : BitVec 9) (idx : BitVec 5) (s : State) : exec (.stv c t sat hd va idx) s = execStv c t sat hd va idx s := rfl
theorem exec_stt (c : Clause) (t : Elem) (hs : BitVec 6) (base : BitVec 5) (idx : BitVec 5) (off : BitVec 20) (s : State) : exec (.stt c t hs base idx off) s = execStt c t hs base idx off s := rfl
theorem exec_stva (c : Clause) (t : Elem) (sat : Bool) (vd : BitVec 9) (base : BitVec 5) (idx : BitVec 5) (off : BitVec 20) (s : State) : exec (.stva c t sat vd base idx off) s = execStva c t sat vd base idx off s := rfl
theorem exec_scat (c : Clause) (t : Elem) (k : BitVec 3) (sat : Bool) (va : BitVec 9) (vb : BitVec 9) (ab : BitVec 5) (s : State) : exec (.scat c t k sat va vb ab) s = execScat c t k sat va vb ab s := rfl
theorem exec_stred (c : Clause) (t : Elem) (op : StredOp) (sat : Bool) (vd : BitVec 9) (base : BitVec 5) (idx : BitVec 5) (off : BitVec 20) (s : State) : exec (.stred c t op sat vd base idx off) s = execStred c t op sat vd base idx off s := rfl
theorem exec_spushv (c : Clause) (vd : BitVec 9) (h : BitVec 6) (n : BitVec 4) (s : State) : exec (.spushv c vd h n) s = execSpushv c vd h n s := rfl
theorem exec_stk (c : Clause) (k : BitVec 3) (base : BitVec 5) (off : BitVec 20) (s : State) : exec (.stk c k base off) s = execStk c k base off s := rfl
theorem exec_fpcWrite (core : Nat) (st : Strand) (v : W64) (s : State) : exec (.fpcWrite core st v) s = execFpcWrite core st v s := rfl
theorem exec_moddefWrite (core : Nat) (st : Strand) (v : W64) (s : State) : exec (.moddefWrite core st v) s = execModdefWrite core st v s := rfl
theorem exec_ptbaseWrite (core : Nat) (v : W64) (s : State) : exec (.ptbaseWrite core v) s = execPtbaseWrite core v s := rfl
theorem exec_mrowpWrite (core : Nat) (v : W64) (s : State) : exec (.mrowpWrite core v) s = execMrowpWrite core v s := rfl
theorem exec_presslenWrite (v : W64) (s : State) : exec (.presslenWrite v) s = execPresslenWrite v s := rfl
theorem exec_ctxidWrite (core : Nat) (v : W64) (s : State) : exec (.ctxidWrite core v) s = execCtxidWrite core v s := rfl
theorem exec_vfidWrite (core : Nat) (v : W64) (s : State) : exec (.vfidWrite core v) s = execVfidWrite core v s := rfl
theorem exec_dispatch (die : Nat) (s : State) : exec (.dispatch die) s = execDispatch die s := rfl
theorem exec_readinessFill (pa : Nat) (s : State) : exec (.readinessFill pa) s = execReadinessFill pa s := rfl
theorem exec_launchRecord (ctx : Nat) (s : State) : exec (.launchRecord ctx) s = execLaunchRecord ctx s := rfl
theorem exec_launchRetire (id : Nat) (s : State) : exec (.launchRetire id) s = execLaunchRetire id s := rfl
theorem exec_pressPeriod (s : State) : exec (.pressPeriod) s = execPressPeriod s := rfl
theorem exec_budgetHold (die : Nat) (cls : Nat) (res : Nat) (s : State) : exec (.budgetHold die cls res) s = execBudgetHold die cls res s := rfl
theorem exec_delta (k : Nat) (s : State) : exec (.delta k) s = execDelta k s := rfl
theorem exec_deltaRefusalTrap (core : Nat) (s : State) : exec (.deltaRefusalTrap core) s = execDeltaRefusalTrap core s := rfl
theorem exec_weightMessage (k : Nat) (s : State) : exec (.weightMessage k) s = execWeightMessage k s := rfl
theorem exec_leaseGrant (cluster : Nat) (s : State) : exec (.leaseGrant cluster) s = execLeaseGrant cluster s := rfl
theorem exec_leaseExpiry (core : Nat) (s : State) : exec (.leaseExpiry core) s = execLeaseExpiry core s := rfl
theorem exec_leaseRevoke (core : Nat) (s : State) : exec (.leaseRevoke core) s = execLeaseRevoke core s := rfl
theorem exec_gangLeaseTimeout (cluster : Nat) (s : State) : exec (.gangLeaseTimeout cluster) s = execGangLeaseTimeout cluster s := rfl
theorem exec_matrixCmdStart (core : Nat) (s : State) : exec (.matrixCmdStart core) s = execMatrixCmdStart core s := rfl
theorem exec_matrixCmdComplete (core : Nat) (s : State) : exec (.matrixCmdComplete core) s = execMatrixCmdComplete core s := rfl
theorem exec_tileFillComplete (core : Nat) (n : Nat) (s : State) : exec (.tileFillComplete core n) s = execTileFillComplete core n s := rfl
theorem exec_stvComplete (core : Nat) (n : Nat) (s : State) : exec (.stvComplete core n) s = execStvComplete core n s := rfl
theorem exec_sttComplete (core : Nat) (n : Nat) (s : State) : exec (.sttComplete core n) s = execSttComplete core n s := rfl
theorem exec_stredComplete (core : Nat) (n : Nat) (s : State) : exec (.stredComplete core n) s = execStredComplete core n s := rfl
theorem exec_cecComplete (core : Nat) (n : Nat) (s : State) : exec (.cecComplete core n) s = execCecComplete core n s := rfl
theorem exec_cedupComplete (core : Nat) (n : Nat) (s : State) : exec (.cedupComplete core n) s = execCedupComplete core n s := rfl
theorem exec_collectiveComplete (id : Nat) (s : State) : exec (.collectiveComplete id) s = execCollectiveComplete id s := rfl
theorem exec_rrotComplete (core : Nat) (n : Nat) (s : State) : exec (.rrotComplete core n) s = execRrotComplete core n s := rfl
theorem exec_copyOnWrite (k : Nat) (s : State) : exec (.copyOnWrite k) s = execCopyOnWrite k s := rfl
theorem exec_trapEntry (core : Nat) (s : State) : exec (.trapEntry core) s = execTrapEntry core s := rfl
theorem exec_monitorEntry (core : Nat) (s : State) : exec (.monitorEntry core) s = execMonitorEntry core s := rfl
theorem exec_cellStop (core : Nat) (s : State) : exec (.cellStop core) s = execCellStop core s := rfl
theorem exec_prestPlace (k : Nat) (s : State) : exec (.prestPlace k) s = execPrestPlace k s := rfl
theorem exec_gangRestore (k : Nat) (s : State) : exec (.gangRestore k) s = execGangRestore k s := rfl
theorem exec_stopPress (core : Nat) (bank : Nat) (s : State) : exec (.stopPress core bank) s = execStopPress core bank s := rfl
theorem exec_stopPressEnd (core : Nat) (s : State) : exec (.stopPressEnd core) s = execStopPressEnd core s := rfl
theorem exec_rasWindow (core : Nat) (s : State) : exec (.rasWindow core) s = execRasWindow core s := rfl
theorem exec_uncorrectable (site : ErrSite) (s : State) : exec (.uncorrectable site) s = execUncorrectable site s := rfl
theorem exec_streamItemArrival (k : Nat) (s : State) : exec (.streamItemArrival k) s = execStreamItemArrival k s := rfl
theorem exec_streamRefill (core : Nat) (k : Nat) (s : State) : exec (.streamRefill core k) s = execStreamRefill core k s := rfl
theorem exec_streamStop (k : Nat) (s : State) : exec (.streamStop k) s = execStreamStop k s := rfl
theorem exec_streamGo (k : Nat) (s : State) : exec (.streamGo k) s = execStreamGo k s := rfl
theorem exec_streamRebind (k : Nat) (s : State) : exec (.streamRebind k) s = execStreamRebind k s := rfl
theorem exec_streamRebindAck (k : Nat) (s : State) : exec (.streamRebindAck k) s = execStreamRebindAck k s := rfl
theorem exec_orphanNotice (k : Nat) (s : State) : exec (.orphanNotice k) s = execOrphanNotice k s := rfl
theorem exec_pktRead (k : Nat) (s : State) : exec (.pktRead k) s = execPktRead k s := rfl
theorem exec_pktWrite (k : Nat) (s : State) : exec (.pktWrite k) s = execPktWrite k s := rfl
theorem exec_pktRmw (k : Nat) (s : State) : exec (.pktRmw k) s = execPktRmw k s := rfl
theorem exec_pktCas (k : Nat) (s : State) : exec (.pktCas k) s = execPktCas k s := rfl
theorem exec_pktReadData (k : Nat) (s : State) : exec (.pktReadData k) s = execPktReadData k s := rfl
theorem exec_pktAcknowledge (k : Nat) (s : State) : exec (.pktAcknowledge k) s = execPktAcknowledge k s := rfl
theorem exec_pktRefuse (k : Nat) (s : State) : exec (.pktRefuse k) s = execPktRefuse k s := rfl
theorem exec_pktToken (k : Nat) (s : State) : exec (.pktToken k) s = execPktToken k s := rfl
theorem exec_pktCollectiveData (k : Nat) (s : State) : exec (.pktCollectiveData k) s = execPktCollectiveData k s := rfl
theorem exec_pktBad (k : Nat) (s : State) : exec (.pktBad k) s = execPktBad k s := rfl
theorem exec_retransmit (k : Nat) (s : State) : exec (.retransmit k) s = execRetransmit k s := rfl
theorem exec_deviceLost (dev : Nat) (s : State) : exec (.deviceLost dev) s = execDeviceLost dev s := rfl
theorem exec_linkReplay (port : Nat) (s : State) : exec (.linkReplay port) s = execLinkReplay port s := rfl
theorem exec_linkUp (port : Nat) (id : Nat) (s : State) : exec (.linkUp port id) s = execLinkUp port id s := rfl
theorem exec_hostPacket (k : Nat) (s : State) : exec (.hostPacket k) s = execHostPacket k s := rfl
theorem exec_cfgRead (addr : W64) (s : State) : exec (.cfgRead addr) s = execCfgRead addr s := rfl
theorem exec_cfgWrite (addr : W64) (v : W64) (s : State) : exec (.cfgWrite addr v) s = execCfgWrite addr v s := rfl
theorem exec_bootctl (v : W64) (s : State) : exec (.bootctl v) s = execBootctl v s := rfl
theorem exec_firmwareStaging (i : Nat) (v : W64) (s : State) : exec (.firmwareStaging i v) s = execFirmwareStaging i v s := rfl
theorem exec_budgetTableWrite (i : Nat) (v : W64) (s : State) : exec (.budgetTableWrite i v) s = execBudgetTableWrite i v s := rfl
theorem exec_contextEnable (ctx : Nat) (s : State) : exec (.contextEnable ctx) s = execContextEnable ctx s := rfl
theorem exec_contextDisable (ctx : Nat) (s : State) : exec (.contextDisable ctx) s = execContextDisable ctx s := rfl
theorem exec_lsOpen (ctx : Nat) (stock : W64) (s : State) : exec (.lsOpen ctx stock) s = execLsOpen ctx stock s := rfl
theorem exec_lsClose (ctx : Nat) (s : State) : exec (.lsClose ctx) s = execLsClose ctx s := rfl
theorem exec_wake (core : Nat) (s : State) : exec (.wake core) s = execWake core s := rfl
theorem exec_attest (n0 : W64) (n1 : W64) (n2 : W64) (n3 : W64) (s : State) : exec (.attest n0 n1 n2 n3) s = execAttest n0 n1 n2 n3 s := rfl
theorem exec_coreReset (core : Nat) (s : State) : exec (.coreReset core) s = execCoreReset core s := rfl
theorem exec_rollback (s : State) : exec (.rollback) s = execRollback s := rfl
theorem exec_deviceReset (straps : BitVec 8) (s : State) : exec (.deviceReset straps) s = execDeviceReset straps s := rfl
theorem exec_thermWarn (s : State) : exec (.thermWarn) s = execThermWarn s := rfl
theorem exec_thermTrip (s : State) : exec (.thermTrip) s = execThermTrip s := rfl
theorem exec_powerCap (s : State) : exec (.powerCap) s = execPowerCap s := rfl
theorem exec_watchdog (core : Nat) (s : State) : exec (.watchdog core) s = execWatchdog core s := rfl
theorem exec_scrubUe (pa : Nat) (s : State) : exec (.scrubUe pa) s = execScrubUe pa s := rfl
theorem exec_illegalEncoding (s : State) : exec (.illegalEncoding) s = execIllegalEncoding s := rfl
theorem exec_storePerformed (core : Nat) (st : Strand) (s : State) : exec (.storePerformed core st) s = execStorePerformed core st s := rfl
theorem exec_dieCopyUpdate (die : Nat) (addr : Nat) (s : State) : exec (.dieCopyUpdate die addr) s = execDieCopyUpdate die addr s := rfl
theorem exec_loadReturn (core : Nat) (k : Nat) (s : State) : exec (.loadReturn core k) s = execLoadReturn core k s := rfl
theorem exec_sideArrayClear (k : Nat) (s : State) : exec (.sideArrayClear k) s = execSideArrayClear k s := rfl
theorem exec_hbmCorrection (row : Nat) (s : State) : exec (.hbmCorrection row) s = execHbmCorrection row s := rfl

end Sys2Proof.Machine
end

