-- ==== Sys2Proof/Laws/Map.lean ====
section
/-! SUPPORT. Laws of finite maps and of the canonical form they keep: a read after a write, writes elsewhere, and that
writing, clearing and splicing leave a canonical map canonical. -/

namespace Sys2Proof.Machine

variable {α : Type}

/-! ### Reading after writing -/

theorem mget_put_same (d : α) (k : Nat) (x : α) (m : SMap α) : mget d (put k x m) k = x := by
  induction m with
  | nil => simp [put, mget]
  | cons p m ih =>
    obtain ⟨a, v⟩ := p
    by_cases h1 : k < a
    · simp [put, h1, mget]
    · by_cases h2 : k = a
      · simp [put, h2, mget]
      · simp [put, h1, h2, mget, Ne.symm h2, ih]

theorem mget_put_ne (d : α) (k j : Nat) (x : α) (m : SMap α) (h : j ≠ k) : mget d (put k x m) j = mget d m j := by
  induction m with
  | nil => simp [put, mget, Ne.symm h]
  | cons p m ih =>
    obtain ⟨a, v⟩ := p
    by_cases h1 : k < a
    · simp [put, h1, mget, Ne.symm h]
    · by_cases h2 : k = a
      · subst h2; simp [put, mget, Ne.symm h]
      · simp [put, h1, h2, mget, ih]

theorem mget_del_same (d : α) (k : Nat) (m : SMap α) : mget d (del k m) k = d := by
  induction m with
  | nil => rfl
  | cons p m ih =>
    obtain ⟨a, v⟩ := p
    by_cases h : a = k
    · simpa [del, h] using ih
    · simpa [del, h, mget] using ih

theorem mget_del_ne (d : α) (k j : Nat) (m : SMap α) (h : j ≠ k) : mget d (del k m) j = mget d m j := by
  induction m with
  | nil => rfl
  | cons p m ih =>
    obtain ⟨a, v⟩ := p
    by_cases h1 : a = k
    · have : ¬ (k = j) := fun e => h e.symm
      subst h1
      simpa [del, mget, this] using ih
    · by_cases h2 : a = j
      · simp [del, mget, h2, h]
      · simpa [del, h1, mget, h2] using ih

/-- A read of the key just written. -/
@[simp] theorem mget_mset_same [DecidableEq α] (d : α) (m : SMap α) (k : Nat) (x : α) : mget d (mset d m k x) k = x := by
  unfold mset; split
  · simp_all [mget_del_same]
  · exact mget_put_same d k x m

/-- A read of any other key. -/
theorem mget_mset_ne [DecidableEq α] (d : α) (m : SMap α) (k j : Nat) (x : α) (h : j ≠ k) :
    mget d (mset d m k x) j = mget d m j := by
  unfold mset; split
  · exact mget_del_ne d k j m h
  · exact mget_put_ne d k j x m h

theorem mget_mset [DecidableEq α] (d : α) (m : SMap α) (k j : Nat) (x : α) :
    mget d (mset d m k x) j = if j = k then x else mget d m j := by
  by_cases h : j = k
  · subst h; simp
  · simp [h, mget_mset_ne]

/-- A read of a range just written, or outside it. -/
theorem mget_msets [DecidableEq α] (d : α) (xs : List α) : ∀ (m : SMap α) (k j : Nat),
    mget d (msets d m k xs) j = if k ≤ j ∧ j < k + xs.length then xs.getD (j - k) d else mget d m j := by
  induction xs with
  | nil => intro m k j; simp [msets]
  | cons x xs ih =>
    intro m k j
    simp only [msets, ih, mget_mset, List.length_cons]
    by_cases h : j = k
    · subst h; simp
    · by_cases h2 : k + 1 ≤ j ∧ j < k + 1 + xs.length
      · have : j - k = (j - (k + 1)) + 1 := by omega
        simp [h2, this]; omega
      · simp [h]
        split <;> split <;> first | rfl | omega

theorem mget_msets_out [DecidableEq α] (d : α) (m : SMap α) (k j : Nat) (xs : List α)
    (h : j < k ∨ k + xs.length ≤ j) : mget d (msets d m k xs) j = mget d m j := by
  rw [mget_msets]; simp; omega

/-- A range read back whole. -/
theorem mgets_msets [DecidableEq α] (d : α) (m : SMap α) (k : Nat) (xs : List α) :
    mgets d (msets d m k xs) k xs.length = xs := by
  have len : ∀ n k, (mgets d (msets d m k xs) k n).length = n := by
    intro n k; generalize msets d m k xs = m'
    induction n generalizing k with
    | zero => rfl
    | succ n ih => simp [mgets, ih]
  have get : ∀ (m' : SMap α) n k i, i < n → (mgets d m' k n)[i]? = some (mget d m' (k + i)) := by
    intro m' n
    induction n with
    | zero => intro k i h; omega
    | succ n ih =>
      intro k i h
      cases i with
      | zero => simp [mgets]
      | succ i => simp [mgets, ih (k + 1) i (by omega)]; congr 1; omega
  apply List.ext_getElem?
  intro i
  by_cases h : i < xs.length
  · rw [get _ _ _ _ h, mget_msets]; simp [h]
  · rw [List.getElem?_eq_none (by rw [len]; omega), List.getElem?_eq_none (by omega)]

/-! ### The canonical form -/

theorem mwfFrom_mono [DecidableEq α] (d : α) (m : SMap α) {a b : Nat} (h : a ≤ b) (w : mwfFrom d b m = true) :
    mwfFrom d a m = true := by
  cases m with
  | nil => rfl
  | cons p m => obtain ⟨c, v⟩ := p; simp [mwfFrom] at w ⊢; exact ⟨⟨by omega, w.1.2⟩, w.2⟩

theorem mwfFrom_filter [DecidableEq α] (d : α) (f : Nat × α → Bool) (m : SMap α) :
    ∀ lo, mwfFrom d lo m = true → mwfFrom d lo (m.filter f) = true := by
  induction m with
  | nil => intro lo h; rfl
  | cons p m ih =>
    intro lo h
    obtain ⟨a, v⟩ := p
    simp only [mwfFrom, Bool.and_eq_true, decide_eq_true_eq] at h
    by_cases hf : f (a, v) = true
    · simpa [hf, mwfFrom, h.1.1, ih _ h.2] using h.1.2
    · simp only [List.filter_cons, hf]
      exact mwfFrom_mono d _ (by omega) (ih _ h.2)

theorem mwfFrom_put [DecidableEq α] (d : α) (k : Nat) (x : α) (hx : x ≠ d) (m : SMap α) :
    ∀ lo, lo ≤ k → mwfFrom d lo m = true → mwfFrom d lo (put k x m) = true := by
  induction m with
  | nil => intro lo h _; simp [put, mwfFrom, h, hx]
  | cons p m ih =>
    intro lo hk h
    obtain ⟨a, v⟩ := p
    simp only [mwfFrom, Bool.and_eq_true, decide_eq_true_eq] at h
    by_cases h1 : k < a
    · simp only [put, h1, if_true, mwfFrom, Bool.and_eq_true, decide_eq_true_eq]
      exact ⟨⟨hk, by simpa using hx⟩, ⟨by omega, h.1.2⟩, h.2⟩
    · by_cases h2 : k = a
      · subst h2; simp only [put, lt_irrefl, if_false, if_true, mwfFrom, Bool.and_eq_true, decide_eq_true_eq]
        exact ⟨⟨hk, by simpa using hx⟩, h.2⟩
      · simp only [put, h1, h2, if_false, mwfFrom, Bool.and_eq_true, decide_eq_true_eq]
        exact ⟨⟨h.1.1, h.1.2⟩, ih (a + 1) (by omega) h.2⟩

/-- Writing keeps the canonical form. -/
theorem mwf_mset [DecidableEq α] (d : α) (m : SMap α) (k : Nat) (x : α) (h : mwf d m = true) :
    mwf d (mset d m k x) = true := by
  unfold mset; split
  · exact mwfFrom_filter d _ m 0 h
  · exact mwfFrom_put d k x ‹_› m 0 (by omega) h

theorem mwf_msets [DecidableEq α] (d : α) (xs : List α) : ∀ (m : SMap α) (k : Nat), mwf d m = true →
    mwf d (msets d m k xs) = true := by
  induction xs with
  | nil => intro m k h; exact h
  | cons x xs ih => intro m k h; exact ih _ _ (mwf_mset d m k x h)

theorem mwf_filter [DecidableEq α] (d : α) (f : Nat × α → Bool) (m : SMap α) (h : mwf d m = true) :
    mwf d (m.filter f) = true := mwfFrom_filter d f m 0 h

theorem mwf_mclear [DecidableEq α] (d : α) (m : SMap α) (lo hi : Nat) (h : mwf d m = true) :
    mwf d (mclear m lo hi) = true := mwf_filter d _ m h

theorem mwfFrom_append [DecidableEq α] (d : α) (m n : SMap α) : ∀ lo hi, mwfFrom d lo m = true →
    (∀ p ∈ m, p.1 < hi) → lo ≤ hi → mwfFrom d hi n = true → mwfFrom d lo (m ++ n) = true := by
  induction m with
  | nil => intro lo hi _ _ h w; exact mwfFrom_mono d n h w
  | cons p m ih =>
    intro lo hi h b _ w
    obtain ⟨a, v⟩ := p
    simp only [mwfFrom, Bool.and_eq_true, decide_eq_true_eq, List.cons_append] at h ⊢
    have : a < hi := b (a, v) (by simp)
    exact ⟨h.1, ih (a + 1) hi h.2 (fun p hp => b p (by simp [hp])) (by omega) w⟩

theorem mwfFrom_shift [DecidableEq α] (d : α) (m : SMap α) (n : Nat) : ∀ lo, mwfFrom d lo m = true →
    mwfFrom d (lo + n) (m.map (fun p => (p.1 + n, p.2))) = true := by
  induction m with
  | nil => intro lo _; rfl
  | cons p m ih =>
    intro lo h
    obtain ⟨a, v⟩ := p
    simp only [mwfFrom, Bool.and_eq_true, decide_eq_true_eq, List.map_cons] at h ⊢
    refine ⟨⟨by omega, h.1.2⟩, ?_⟩
    have := ih (a + 1) h.2
    rwa [show a + 1 + n = a + n + 1 by omega] at this

theorem mwfFrom_raise [DecidableEq α] (d : α) (m : SMap α) : ∀ lo hi, mwfFrom d lo m = true →
    (∀ p ∈ m, hi ≤ p.1) → mwfFrom d hi m = true := by
  cases m with
  | nil => intros; rfl
  | cons p m =>
    intro lo hi h b
    obtain ⟨a, v⟩ := p
    simp only [mwfFrom, Bool.and_eq_true, decide_eq_true_eq] at h ⊢
    exact ⟨⟨b (a, v) (by simp), h.1.2⟩, h.2⟩

/-- Splicing a canonical slice into a canonical map keeps the form. -/
theorem mwf_msplice [DecidableEq α] (d : α) (m sl : SMap α) (lo n : Nat) (h : mwf d m = true) (hs : mwf d sl = true) :
    mwf d (msplice m lo n sl) = true := by
  have low := mwfFrom_filter d (fun p => p.1 < lo) m 0 h
  have mid := mwfFrom_shift d _ lo 0 (mwfFrom_filter d (fun p => p.1 < n) sl 0 hs)
  have top := mwfFrom_raise d _ 0 (lo + n) (mwfFrom_filter d (fun p => decide (lo + n ≤ p.1)) m 0 h)
    (fun p hp => by simpa using (List.mem_filter.mp hp).2)
  unfold msplice mwf
  rw [List.append_assoc]
  refine mwfFrom_append d _ _ 0 lo low (fun p hp => by simpa using (List.mem_filter.mp hp).2) (by omega) ?_
  refine mwfFrom_append d _ _ lo (lo + n) (by simpa using mid) ?_ (by omega) top
  intro p hp
  obtain ⟨q, hq, rfl⟩ := List.mem_map.mp hp
  have : q.1 < n := by simpa using (List.mem_filter.mp hq).2
  omega

theorem mwfFrom_slice [DecidableEq α] (d : α) (m : SMap α) (lo : Nat) : ∀ a, mwfFrom d a m = true →
    (∀ p ∈ m, lo ≤ p.1) → mwfFrom d (a - lo) (m.map (fun p => (p.1 - lo, p.2))) = true := by
  induction m with
  | nil => intros; rfl
  | cons p m ih =>
    intro a h b
    obtain ⟨x, v⟩ := p
    simp only [mwfFrom, Bool.and_eq_true, decide_eq_true_eq, List.map_cons] at h ⊢
    have hx : lo ≤ x := b (x, v) (by simp)
    refine ⟨⟨by omega, h.1.2⟩, ?_⟩
    have := ih (x + 1) h.2 (fun p hp => b p (by simp [hp]))
    rwa [show x + 1 - lo = x - lo + 1 by omega] at this

/-- A slice of a canonical map is canonical. -/
theorem mwf_mslice [DecidableEq α] (d : α) (m : SMap α) (lo hi : Nat) (h : mwf d m = true) :
    mwf d (mslice m lo hi) = true := by
  have := mwfFrom_slice d _ lo 0 (mwfFrom_filter d (fun p => lo ≤ p.1 && p.1 < hi) m 0 h)
    (fun p hp => by have := (List.mem_filter.mp hp).2; simp at this; exact this.1)
  simpa [mslice, mwf] using this

/-! ### Bytes and numbers -/

theorem leBytes_length (n v : Nat) : (leBytes n v).length = n := by
  induction n generalizing v with
  | zero => rfl
  | succ n ih => simp [leBytes, ih]

/-- The number of the little-endian bytes of a number. -/
theorem leNat_leBytes (n v : Nat) : leNat (leBytes n v) = v % 256 ^ n := by
  induction n generalizing v with
  | zero => simp [leBytes, leNat, Nat.mod_one]
  | succ n ih =>
    simp only [leBytes, leNat, ih, BitVec.toNat_ofNat]
    rw [show (256 : Nat) ^ (n + 1) = 256 * 256 ^ n by ring, Nat.mod_mul]

/-! ### The memory at reset -/

theorem reset_memory_wf : Memory.wf State.reset.mem := by decide

end Sys2Proof.Machine
end

