-- ==== Sys2Proof/Laws/State.lean ====
section
/-! SUPPORT. What each update of the state leaves alone, field by field, and what it reads back as. -/

namespace Sys2Proof.Machine

/-! ### Cores, contexts, clusters -/

@[simp] theorem State.core_setCore (s : State) (c : Nat) (k : Core) : (s.setCore c k).core c = k := by
  simp [State.core, State.setCore]
theorem State.core_setCore_ne (s : State) (c d : Nat) (k : Core) (h : d ≠ c) : (s.setCore c k).core d = s.core d := by
  simp [State.core, State.setCore, mget_mset_ne, h]
@[simp] theorem State.core_modCore (s : State) (c : Nat) (f : Core → Core) : (s.modCore c f).core c = f (s.core c) := by
  simp [State.modCore]
theorem State.core_modCore_ne (s : State) (c d : Nat) (f : Core → Core) (h : d ≠ c) :
    (s.modCore c f).core d = s.core d := State.core_setCore_ne s c d _ h
@[simp] theorem State.me_modMe (s : State) (f : Core → Core) : (s.modMe f).me = f s.me := State.core_modCore s _ f
@[simp] theorem State.ctx_modCtx (s : State) (c : Nat) (f : Ctx → Ctx) : (s.modCtx c f).ctx c = f (s.ctx c) := by
  simp [State.ctx, State.modCtx]
theorem State.ctx_modCtx_ne (s : State) (c d : Nat) (f : Ctx → Ctx) (h : d ≠ c) : (s.modCtx c f).ctx d = s.ctx d := by
  simp [State.ctx, State.modCtx, mget_mset_ne, h]
@[simp] theorem State.cluster_modCluster (s : State) (c : Nat) (f : Cluster → Cluster) :
    (s.modCluster c f).cluster c = f (s.cluster c) := by
  simp [State.cluster, State.modCluster]

@[simp] theorem Core.strand_modStrand (k : Core) (st : Strand) (f : StrandSt → StrandSt) :
    (k.modStrand st f).strand st = f (k.strand st) := by cases st <;> rfl
@[simp] theorem Core.strand_setStrand (k : Core) (st : Strand) (x : StrandSt) : (k.setStrand st x).strand st = x := by
  cases st <;> rfl
theorem Core.strand_modStrand_ne (k : Core) (st u : Strand) (f : StrandSt → StrandSt) (h : u ≠ st) :
    (k.modStrand st f).strand u = k.strand u := by cases st <;> cases u <;> first | rfl | exact absurd rfl h

/-! ### State.setCore -/

@[simp] theorem State.setCore_dev (s : State) (c : Nat) (k : Core) : (s.setCore c k).dev = s.dev := rfl
@[simp] theorem State.setCore_boot (s : State) (c : Nat) (k : Core) : (s.setCore c k).boot = s.boot := rfl
@[simp] theorem State.setCore_bootFail (s : State) (c : Nat) (k : Core) : (s.setCore c k).bootFail = s.bootFail := rfl
@[simp] theorem State.setCore_fwVersion (s : State) (c : Nat) (k : Core) : (s.setCore c k).fwVersion = s.fwVersion := rfl
@[simp] theorem State.setCore_fwDigest (s : State) (c : Nat) (k : Core) : (s.setCore c k).fwDigest = s.fwDigest := rfl
@[simp] theorem State.setCore_rollback (s : State) (c : Nat) (k : Core) : (s.setCore c k).rollback = s.rollback := rfl
@[simp] theorem State.setCore_ctxs (s : State) (c : Nat) (k : Core) : (s.setCore c k).ctxs = s.ctxs := rfl
@[simp] theorem State.setCore_clusters (s : State) (c : Nat) (k : Core) : (s.setCore c k).clusters = s.clusters := rfl
@[simp] theorem State.setCore_mem (s : State) (c : Nat) (k : Core) : (s.setCore c k).mem = s.mem := rfl
@[simp] theorem State.setCore_full (s : State) (c : Nat) (k : Core) : (s.setCore c k).full = s.full := rfl
@[simp] theorem State.setCore_poison (s : State) (c : Nat) (k : Core) : (s.setCore c k).poison = s.poison := rfl
@[simp] theorem State.setCore_parks (s : State) (c : Nat) (k : Core) : (s.setCore c k).parks = s.parks := rfl
@[simp] theorem State.setCore_watches (s : State) (c : Nat) (k : Core) : (s.setCore c k).watches = s.watches := rfl
@[simp] theorem State.setCore_copy0 (s : State) (c : Nat) (k : Core) : (s.setCore c k).copy0 = s.copy0 := rfl
@[simp] theorem State.setCore_copy1 (s : State) (c : Nat) (k : Core) : (s.setCore c k).copy1 = s.copy1 := rfl
@[simp] theorem State.setCore_cows (s : State) (c : Nat) (k : Core) : (s.setCore c k).cows = s.cows := rfl
@[simp] theorem State.setCore_launches (s : State) (c : Nat) (k : Core) : (s.setCore c k).launches = s.launches := rfl
@[simp] theorem State.setCore_nextLaunch (s : State) (c : Nat) (k : Core) : (s.setCore c k).nextLaunch = s.nextLaunch := rfl
@[simp] theorem State.setCore_rr (s : State) (c : Nat) (k : Core) : (s.setCore c k).rr = s.rr := rfl
@[simp] theorem State.setCore_resv (s : State) (c : Nat) (k : Core) : (s.setCore c k).resv = s.resv := rfl
@[simp] theorem State.setCore_budget (s : State) (c : Nat) (k : Core) : (s.setCore c k).budget = s.budget := rfl
@[simp] theorem State.setCore_budgetNext (s : State) (c : Nat) (k : Core) : (s.setCore c k).budgetNext = s.budgetNext := rfl
@[simp] theorem State.setCore_used (s : State) (c : Nat) (k : Core) : (s.setCore c k).used = s.used := rfl
@[simp] theorem State.setCore_debt (s : State) (c : Nat) (k : Core) : (s.setCore c k).debt = s.debt := rfl
@[simp] theorem State.setCore_holds (s : State) (c : Nat) (k : Core) : (s.setCore c k).holds = s.holds := rfl
@[simp] theorem State.setCore_slips0 (s : State) (c : Nat) (k : Core) : (s.setCore c k).slips0 = s.slips0 := rfl
@[simp] theorem State.setCore_slips1 (s : State) (c : Nat) (k : Core) : (s.setCore c k).slips1 = s.slips1 := rfl
@[simp] theorem State.setCore_lost0 (s : State) (c : Nat) (k : Core) : (s.setCore c k).lost0 = s.lost0 := rfl
@[simp] theorem State.setCore_lost1 (s : State) (c : Nat) (k : Core) : (s.setCore c k).lost1 = s.lost1 := rfl
@[simp] theorem State.setCore_presscnt (s : State) (c : Nat) (k : Core) : (s.setCore c k).presscnt = s.presscnt := rfl
@[simp] theorem State.setCore_presslen (s : State) (c : Nat) (k : Core) : (s.setCore c k).presslen = s.presslen := rfl
@[simp] theorem State.setCore_presslenNext (s : State) (c : Nat) (k : Core) : (s.setCore c k).presslenNext = s.presslenNext := rfl
@[simp] theorem State.setCore_periodStart (s : State) (c : Nat) (k : Core) : (s.setCore c k).periodStart = s.periodStart := rfl
@[simp] theorem State.setCore_phases (s : State) (c : Nat) (k : Core) : (s.setCore c k).phases = s.phases := rfl
@[simp] theorem State.setCore_lentTok (s : State) (c : Nat) (k : Core) : (s.setCore c k).lentTok = s.lentTok := rfl
@[simp] theorem State.setCore_heldTok (s : State) (c : Nat) (k : Core) : (s.setCore c k).heldTok = s.heldTok := rfl
@[simp] theorem State.setCore_msgs (s : State) (c : Nat) (k : Core) : (s.setCore c k).msgs = s.msgs := rfl
@[simp] theorem State.setCore_stocks (s : State) (c : Nat) (k : Core) : (s.setCore c k).stocks = s.stocks := rfl
@[simp] theorem State.setCore_clears (s : State) (c : Nat) (k : Core) : (s.setCore c k).clears = s.clears := rfl
@[simp] theorem State.setCore_net (s : State) (c : Nat) (k : Core) : (s.setCore c k).net = s.net := rfl
@[simp] theorem State.setCore_places (s : State) (c : Nat) (k : Core) : (s.setCore c k).places = s.places := rfl
@[simp] theorem State.setCore_gangTo (s : State) (c : Nat) (k : Core) : (s.setCore c k).gangTo = s.gangTo := rfl
@[simp] theorem State.setCore_ships (s : State) (c : Nat) (k : Core) : (s.setCore c k).ships = s.ships := rfl
@[simp] theorem State.setCore_colls (s : State) (c : Nat) (k : Core) : (s.setCore c k).colls = s.colls := rfl
@[simp] theorem State.setCore_resp (s : State) (c : Nat) (k : Core) : (s.setCore c k).resp = s.resp := rfl
@[simp] theorem State.setCore_mgmt (s : State) (c : Nat) (k : Core) : (s.setCore c k).mgmt = s.mgmt := rfl
@[simp] theorem State.setCore_rows (s : State) (c : Nat) (k : Core) : (s.setCore c k).rows = s.rows := rfl
@[simp] theorem State.setCore_tripped (s : State) (c : Nat) (k : Core) : (s.setCore c k).tripped = s.tripped := rfl
@[simp] theorem State.setCore_capped (s : State) (c : Nat) (k : Core) : (s.setCore c k).capped = s.capped := rfl
@[simp] theorem State.setCore_cycle (s : State) (c : Nat) (k : Core) : (s.setCore c k).cycle = s.cycle := rfl
@[simp] theorem State.setCore_agenda (s : State) (c : Nat) (k : Core) : (s.setCore c k).agenda = s.agenda := rfl
@[simp] theorem State.setCore_cur (s : State) (c : Nat) (k : Core) : (s.setCore c k).cur = s.cur := rfl
@[simp] theorem State.setCore_free (s : State) (c : Nat) (k : Core) : (s.setCore c k).free = s.free := rfl

/-! ### State.modCore -/

@[simp] theorem State.modCore_dev (s : State) (c : Nat) (f : Core → Core) : (s.modCore c f).dev = s.dev := rfl
@[simp] theorem State.modCore_boot (s : State) (c : Nat) (f : Core → Core) : (s.modCore c f).boot = s.boot := rfl
@[simp] theorem State.modCore_bootFail (s : State) (c : Nat) (f : Core → Core) : (s.modCore c f).bootFail = s.bootFail := rfl
@[simp] theorem State.modCore_fwVersion (s : State) (c : Nat) (f : Core → Core) : (s.modCore c f).fwVersion = s.fwVersion := rfl
@[simp] theorem State.modCore_fwDigest (s : State) (c : Nat) (f : Core → Core) : (s.modCore c f).fwDigest = s.fwDigest := rfl
@[simp] theorem State.modCore_rollback (s : State) (c : Nat) (f : Core → Core) : (s.modCore c f).rollback = s.rollback := rfl
@[simp] theorem State.modCore_ctxs (s : State) (c : Nat) (f : Core → Core) : (s.modCore c f).ctxs = s.ctxs := rfl
@[simp] theorem State.modCore_clusters (s : State) (c : Nat) (f : Core → Core) : (s.modCore c f).clusters = s.clusters := rfl
@[simp] theorem State.modCore_mem (s : State) (c : Nat) (f : Core → Core) : (s.modCore c f).mem = s.mem := rfl
@[simp] theorem State.modCore_full (s : State) (c : Nat) (f : Core → Core) : (s.modCore c f).full = s.full := rfl
@[simp] theorem State.modCore_poison (s : State) (c : Nat) (f : Core → Core) : (s.modCore c f).poison = s.poison := rfl
@[simp] theorem State.modCore_parks (s : State) (c : Nat) (f : Core → Core) : (s.modCore c f).parks = s.parks := rfl
@[simp] theorem State.modCore_watches (s : State) (c : Nat) (f : Core → Core) : (s.modCore c f).watches = s.watches := rfl
@[simp] theorem State.modCore_copy0 (s : State) (c : Nat) (f : Core → Core) : (s.modCore c f).copy0 = s.copy0 := rfl
@[simp] theorem State.modCore_copy1 (s : State) (c : Nat) (f : Core → Core) : (s.modCore c f).copy1 = s.copy1 := rfl
@[simp] theorem State.modCore_cows (s : State) (c : Nat) (f : Core → Core) : (s.modCore c f).cows = s.cows := rfl
@[simp] theorem State.modCore_launches (s : State) (c : Nat) (f : Core → Core) : (s.modCore c f).launches = s.launches := rfl
@[simp] theorem State.modCore_nextLaunch (s : State) (c : Nat) (f : Core → Core) : (s.modCore c f).nextLaunch = s.nextLaunch := rfl
@[simp] theorem State.modCore_rr (s : State) (c : Nat) (f : Core → Core) : (s.modCore c f).rr = s.rr := rfl
@[simp] theorem State.modCore_resv (s : State) (c : Nat) (f : Core → Core) : (s.modCore c f).resv = s.resv := rfl
@[simp] theorem State.modCore_budget (s : State) (c : Nat) (f : Core → Core) : (s.modCore c f).budget = s.budget := rfl
@[simp] theorem State.modCore_budgetNext (s : State) (c : Nat) (f : Core → Core) : (s.modCore c f).budgetNext = s.budgetNext := rfl
@[simp] theorem State.modCore_used (s : State) (c : Nat) (f : Core → Core) : (s.modCore c f).used = s.used := rfl
@[simp] theorem State.modCore_debt (s : State) (c : Nat) (f : Core → Core) : (s.modCore c f).debt = s.debt := rfl
@[simp] theorem State.modCore_holds (s : State) (c : Nat) (f : Core → Core) : (s.modCore c f).holds = s.holds := rfl
@[simp] theorem State.modCore_slips0 (s : State) (c : Nat) (f : Core → Core) : (s.modCore c f).slips0 = s.slips0 := rfl
@[simp] theorem State.modCore_slips1 (s : State) (c : Nat) (f : Core → Core) : (s.modCore c f).slips1 = s.slips1 := rfl
@[simp] theorem State.modCore_lost0 (s : State) (c : Nat) (f : Core → Core) : (s.modCore c f).lost0 = s.lost0 := rfl
@[simp] theorem State.modCore_lost1 (s : State) (c : Nat) (f : Core → Core) : (s.modCore c f).lost1 = s.lost1 := rfl
@[simp] theorem State.modCore_presscnt (s : State) (c : Nat) (f : Core → Core) : (s.modCore c f).presscnt = s.presscnt := rfl
@[simp] theorem State.modCore_presslen (s : State) (c : Nat) (f : Core → Core) : (s.modCore c f).presslen = s.presslen := rfl
@[simp] theorem State.modCore_presslenNext (s : State) (c : Nat) (f : Core → Core) : (s.modCore c f).presslenNext = s.presslenNext := rfl
@[simp] theorem State.modCore_periodStart (s : State) (c : Nat) (f : Core → Core) : (s.modCore c f).periodStart = s.periodStart := rfl
@[simp] theorem State.modCore_phases (s : State) (c : Nat) (f : Core → Core) : (s.modCore c f).phases = s.phases := rfl
@[simp] theorem State.modCore_lentTok (s : State) (c : Nat) (f : Core → Core) : (s.modCore c f).lentTok = s.lentTok := rfl
@[simp] theorem State.modCore_heldTok (s : State) (c : Nat) (f : Core → Core) : (s.modCore c f).heldTok = s.heldTok := rfl
@[simp] theorem State.modCore_msgs (s : State) (c : Nat) (f : Core → Core) : (s.modCore c f).msgs = s.msgs := rfl
@[simp] theorem State.modCore_stocks (s : State) (c : Nat) (f : Core → Core) : (s.modCore c f).stocks = s.stocks := rfl
@[simp] theorem State.modCore_clears (s : State) (c : Nat) (f : Core → Core) : (s.modCore c f).clears = s.clears := rfl
@[simp] theorem State.modCore_net (s : State) (c : Nat) (f : Core → Core) : (s.modCore c f).net = s.net := rfl
@[simp] theorem State.modCore_places (s : State) (c : Nat) (f : Core → Core) : (s.modCore c f).places = s.places := rfl
@[simp] theorem State.modCore_gangTo (s : State) (c : Nat) (f : Core → Core) : (s.modCore c f).gangTo = s.gangTo := rfl
@[simp] theorem State.modCore_ships (s : State) (c : Nat) (f : Core → Core) : (s.modCore c f).ships = s.ships := rfl
@[simp] theorem State.modCore_colls (s : State) (c : Nat) (f : Core → Core) : (s.modCore c f).colls = s.colls := rfl
@[simp] theorem State.modCore_resp (s : State) (c : Nat) (f : Core → Core) : (s.modCore c f).resp = s.resp := rfl
@[simp] theorem State.modCore_mgmt (s : State) (c : Nat) (f : Core → Core) : (s.modCore c f).mgmt = s.mgmt := rfl
@[simp] theorem State.modCore_rows (s : State) (c : Nat) (f : Core → Core) : (s.modCore c f).rows = s.rows := rfl
@[simp] theorem State.modCore_tripped (s : State) (c : Nat) (f : Core → Core) : (s.modCore c f).tripped = s.tripped := rfl
@[simp] theorem State.modCore_capped (s : State) (c : Nat) (f : Core → Core) : (s.modCore c f).capped = s.capped := rfl
@[simp] theorem State.modCore_cycle (s : State) (c : Nat) (f : Core → Core) : (s.modCore c f).cycle = s.cycle := rfl
@[simp] theorem State.modCore_agenda (s : State) (c : Nat) (f : Core → Core) : (s.modCore c f).agenda = s.agenda := rfl
@[simp] theorem State.modCore_cur (s : State) (c : Nat) (f : Core → Core) : (s.modCore c f).cur = s.cur := rfl
@[simp] theorem State.modCore_free (s : State) (c : Nat) (f : Core → Core) : (s.modCore c f).free = s.free := rfl

/-! ### State.modMe -/

@[simp] theorem State.modMe_dev (s : State) (f : Core → Core) : (s.modMe f).dev = s.dev := rfl
@[simp] theorem State.modMe_boot (s : State) (f : Core → Core) : (s.modMe f).boot = s.boot := rfl
@[simp] theorem State.modMe_bootFail (s : State) (f : Core → Core) : (s.modMe f).bootFail = s.bootFail := rfl
@[simp] theorem State.modMe_fwVersion (s : State) (f : Core → Core) : (s.modMe f).fwVersion = s.fwVersion := rfl
@[simp] theorem State.modMe_fwDigest (s : State) (f : Core → Core) : (s.modMe f).fwDigest = s.fwDigest := rfl
@[simp] theorem State.modMe_rollback (s : State) (f : Core → Core) : (s.modMe f).rollback = s.rollback := rfl
@[simp] theorem State.modMe_ctxs (s : State) (f : Core → Core) : (s.modMe f).ctxs = s.ctxs := rfl
@[simp] theorem State.modMe_clusters (s : State) (f : Core → Core) : (s.modMe f).clusters = s.clusters := rfl
@[simp] theorem State.modMe_mem (s : State) (f : Core → Core) : (s.modMe f).mem = s.mem := rfl
@[simp] theorem State.modMe_full (s : State) (f : Core → Core) : (s.modMe f).full = s.full := rfl
@[simp] theorem State.modMe_poison (s : State) (f : Core → Core) : (s.modMe f).poison = s.poison := rfl
@[simp] theorem State.modMe_parks (s : State) (f : Core → Core) : (s.modMe f).parks = s.parks := rfl
@[simp] theorem State.modMe_watches (s : State) (f : Core → Core) : (s.modMe f).watches = s.watches := rfl
@[simp] theorem State.modMe_copy0 (s : State) (f : Core → Core) : (s.modMe f).copy0 = s.copy0 := rfl
@[simp] theorem State.modMe_copy1 (s : State) (f : Core → Core) : (s.modMe f).copy1 = s.copy1 := rfl
@[simp] theorem State.modMe_cows (s : State) (f : Core → Core) : (s.modMe f).cows = s.cows := rfl
@[simp] theorem State.modMe_launches (s : State) (f : Core → Core) : (s.modMe f).launches = s.launches := rfl
@[simp] theorem State.modMe_nextLaunch (s : State) (f : Core → Core) : (s.modMe f).nextLaunch = s.nextLaunch := rfl
@[simp] theorem State.modMe_rr (s : State) (f : Core → Core) : (s.modMe f).rr = s.rr := rfl
@[simp] theorem State.modMe_resv (s : State) (f : Core → Core) : (s.modMe f).resv = s.resv := rfl
@[simp] theorem State.modMe_budget (s : State) (f : Core → Core) : (s.modMe f).budget = s.budget := rfl
@[simp] theorem State.modMe_budgetNext (s : State) (f : Core → Core) : (s.modMe f).budgetNext = s.budgetNext := rfl
@[simp] theorem State.modMe_used (s : State) (f : Core → Core) : (s.modMe f).used = s.used := rfl
@[simp] theorem State.modMe_debt (s : State) (f : Core → Core) : (s.modMe f).debt = s.debt := rfl
@[simp] theorem State.modMe_holds (s : State) (f : Core → Core) : (s.modMe f).holds = s.holds := rfl
@[simp] theorem State.modMe_slips0 (s : State) (f : Core → Core) : (s.modMe f).slips0 = s.slips0 := rfl
@[simp] theorem State.modMe_slips1 (s : State) (f : Core → Core) : (s.modMe f).slips1 = s.slips1 := rfl
@[simp] theorem State.modMe_lost0 (s : State) (f : Core → Core) : (s.modMe f).lost0 = s.lost0 := rfl
@[simp] theorem State.modMe_lost1 (s : State) (f : Core → Core) : (s.modMe f).lost1 = s.lost1 := rfl
@[simp] theorem State.modMe_presscnt (s : State) (f : Core → Core) : (s.modMe f).presscnt = s.presscnt := rfl
@[simp] theorem State.modMe_presslen (s : State) (f : Core → Core) : (s.modMe f).presslen = s.presslen := rfl
@[simp] theorem State.modMe_presslenNext (s : State) (f : Core → Core) : (s.modMe f).presslenNext = s.presslenNext := rfl
@[simp] theorem State.modMe_periodStart (s : State) (f : Core → Core) : (s.modMe f).periodStart = s.periodStart := rfl
@[simp] theorem State.modMe_phases (s : State) (f : Core → Core) : (s.modMe f).phases = s.phases := rfl
@[simp] theorem State.modMe_lentTok (s : State) (f : Core → Core) : (s.modMe f).lentTok = s.lentTok := rfl
@[simp] theorem State.modMe_heldTok (s : State) (f : Core → Core) : (s.modMe f).heldTok = s.heldTok := rfl
@[simp] theorem State.modMe_msgs (s : State) (f : Core → Core) : (s.modMe f).msgs = s.msgs := rfl
@[simp] theorem State.modMe_stocks (s : State) (f : Core → Core) : (s.modMe f).stocks = s.stocks := rfl
@[simp] theorem State.modMe_clears (s : State) (f : Core → Core) : (s.modMe f).clears = s.clears := rfl
@[simp] theorem State.modMe_net (s : State) (f : Core → Core) : (s.modMe f).net = s.net := rfl
@[simp] theorem State.modMe_places (s : State) (f : Core → Core) : (s.modMe f).places = s.places := rfl
@[simp] theorem State.modMe_gangTo (s : State) (f : Core → Core) : (s.modMe f).gangTo = s.gangTo := rfl
@[simp] theorem State.modMe_ships (s : State) (f : Core → Core) : (s.modMe f).ships = s.ships := rfl
@[simp] theorem State.modMe_colls (s : State) (f : Core → Core) : (s.modMe f).colls = s.colls := rfl
@[simp] theorem State.modMe_resp (s : State) (f : Core → Core) : (s.modMe f).resp = s.resp := rfl
@[simp] theorem State.modMe_mgmt (s : State) (f : Core → Core) : (s.modMe f).mgmt = s.mgmt := rfl
@[simp] theorem State.modMe_rows (s : State) (f : Core → Core) : (s.modMe f).rows = s.rows := rfl
@[simp] theorem State.modMe_tripped (s : State) (f : Core → Core) : (s.modMe f).tripped = s.tripped := rfl
@[simp] theorem State.modMe_capped (s : State) (f : Core → Core) : (s.modMe f).capped = s.capped := rfl
@[simp] theorem State.modMe_cycle (s : State) (f : Core → Core) : (s.modMe f).cycle = s.cycle := rfl
@[simp] theorem State.modMe_agenda (s : State) (f : Core → Core) : (s.modMe f).agenda = s.agenda := rfl
@[simp] theorem State.modMe_cur (s : State) (f : Core → Core) : (s.modMe f).cur = s.cur := rfl
@[simp] theorem State.modMe_free (s : State) (f : Core → Core) : (s.modMe f).free = s.free := rfl

/-! ### State.modMy -/

@[simp] theorem State.modMy_dev (s : State) (f : StrandSt → StrandSt) : (s.modMy f).dev = s.dev := rfl
@[simp] theorem State.modMy_boot (s : State) (f : StrandSt → StrandSt) : (s.modMy f).boot = s.boot := rfl
@[simp] theorem State.modMy_bootFail (s : State) (f : StrandSt → StrandSt) : (s.modMy f).bootFail = s.bootFail := rfl
@[simp] theorem State.modMy_fwVersion (s : State) (f : StrandSt → StrandSt) : (s.modMy f).fwVersion = s.fwVersion := rfl
@[simp] theorem State.modMy_fwDigest (s : State) (f : StrandSt → StrandSt) : (s.modMy f).fwDigest = s.fwDigest := rfl
@[simp] theorem State.modMy_rollback (s : State) (f : StrandSt → StrandSt) : (s.modMy f).rollback = s.rollback := rfl
@[simp] theorem State.modMy_ctxs (s : State) (f : StrandSt → StrandSt) : (s.modMy f).ctxs = s.ctxs := rfl
@[simp] theorem State.modMy_clusters (s : State) (f : StrandSt → StrandSt) : (s.modMy f).clusters = s.clusters := rfl
@[simp] theorem State.modMy_mem (s : State) (f : StrandSt → StrandSt) : (s.modMy f).mem = s.mem := rfl
@[simp] theorem State.modMy_full (s : State) (f : StrandSt → StrandSt) : (s.modMy f).full = s.full := rfl
@[simp] theorem State.modMy_poison (s : State) (f : StrandSt → StrandSt) : (s.modMy f).poison = s.poison := rfl
@[simp] theorem State.modMy_parks (s : State) (f : StrandSt → StrandSt) : (s.modMy f).parks = s.parks := rfl
@[simp] theorem State.modMy_watches (s : State) (f : StrandSt → StrandSt) : (s.modMy f).watches = s.watches := rfl
@[simp] theorem State.modMy_copy0 (s : State) (f : StrandSt → StrandSt) : (s.modMy f).copy0 = s.copy0 := rfl
@[simp] theorem State.modMy_copy1 (s : State) (f : StrandSt → StrandSt) : (s.modMy f).copy1 = s.copy1 := rfl
@[simp] theorem State.modMy_cows (s : State) (f : StrandSt → StrandSt) : (s.modMy f).cows = s.cows := rfl
@[simp] theorem State.modMy_launches (s : State) (f : StrandSt → StrandSt) : (s.modMy f).launches = s.launches := rfl
@[simp] theorem State.modMy_nextLaunch (s : State) (f : StrandSt → StrandSt) : (s.modMy f).nextLaunch = s.nextLaunch := rfl
@[simp] theorem State.modMy_rr (s : State) (f : StrandSt → StrandSt) : (s.modMy f).rr = s.rr := rfl
@[simp] theorem State.modMy_resv (s : State) (f : StrandSt → StrandSt) : (s.modMy f).resv = s.resv := rfl
@[simp] theorem State.modMy_budget (s : State) (f : StrandSt → StrandSt) : (s.modMy f).budget = s.budget := rfl
@[simp] theorem State.modMy_budgetNext (s : State) (f : StrandSt → StrandSt) : (s.modMy f).budgetNext = s.budgetNext := rfl
@[simp] theorem State.modMy_used (s : State) (f : StrandSt → StrandSt) : (s.modMy f).used = s.used := rfl
@[simp] theorem State.modMy_debt (s : State) (f : StrandSt → StrandSt) : (s.modMy f).debt = s.debt := rfl
@[simp] theorem State.modMy_holds (s : State) (f : StrandSt → StrandSt) : (s.modMy f).holds = s.holds := rfl
@[simp] theorem State.modMy_slips0 (s : State) (f : StrandSt → StrandSt) : (s.modMy f).slips0 = s.slips0 := rfl
@[simp] theorem State.modMy_slips1 (s : State) (f : StrandSt → StrandSt) : (s.modMy f).slips1 = s.slips1 := rfl
@[simp] theorem State.modMy_lost0 (s : State) (f : StrandSt → StrandSt) : (s.modMy f).lost0 = s.lost0 := rfl
@[simp] theorem State.modMy_lost1 (s : State) (f : StrandSt → StrandSt) : (s.modMy f).lost1 = s.lost1 := rfl
@[simp] theorem State.modMy_presscnt (s : State) (f : StrandSt → StrandSt) : (s.modMy f).presscnt = s.presscnt := rfl
@[simp] theorem State.modMy_presslen (s : State) (f : StrandSt → StrandSt) : (s.modMy f).presslen = s.presslen := rfl
@[simp] theorem State.modMy_presslenNext (s : State) (f : StrandSt → StrandSt) : (s.modMy f).presslenNext = s.presslenNext := rfl
@[simp] theorem State.modMy_periodStart (s : State) (f : StrandSt → StrandSt) : (s.modMy f).periodStart = s.periodStart := rfl
@[simp] theorem State.modMy_phases (s : State) (f : StrandSt → StrandSt) : (s.modMy f).phases = s.phases := rfl
@[simp] theorem State.modMy_lentTok (s : State) (f : StrandSt → StrandSt) : (s.modMy f).lentTok = s.lentTok := rfl
@[simp] theorem State.modMy_heldTok (s : State) (f : StrandSt → StrandSt) : (s.modMy f).heldTok = s.heldTok := rfl
@[simp] theorem State.modMy_msgs (s : State) (f : StrandSt → StrandSt) : (s.modMy f).msgs = s.msgs := rfl
@[simp] theorem State.modMy_stocks (s : State) (f : StrandSt → StrandSt) : (s.modMy f).stocks = s.stocks := rfl
@[simp] theorem State.modMy_clears (s : State) (f : StrandSt → StrandSt) : (s.modMy f).clears = s.clears := rfl
@[simp] theorem State.modMy_net (s : State) (f : StrandSt → StrandSt) : (s.modMy f).net = s.net := rfl
@[simp] theorem State.modMy_places (s : State) (f : StrandSt → StrandSt) : (s.modMy f).places = s.places := rfl
@[simp] theorem State.modMy_gangTo (s : State) (f : StrandSt → StrandSt) : (s.modMy f).gangTo = s.gangTo := rfl
@[simp] theorem State.modMy_ships (s : State) (f : StrandSt → StrandSt) : (s.modMy f).ships = s.ships := rfl
@[simp] theorem State.modMy_colls (s : State) (f : StrandSt → StrandSt) : (s.modMy f).colls = s.colls := rfl
@[simp] theorem State.modMy_resp (s : State) (f : StrandSt → StrandSt) : (s.modMy f).resp = s.resp := rfl
@[simp] theorem State.modMy_mgmt (s : State) (f : StrandSt → StrandSt) : (s.modMy f).mgmt = s.mgmt := rfl
@[simp] theorem State.modMy_rows (s : State) (f : StrandSt → StrandSt) : (s.modMy f).rows = s.rows := rfl
@[simp] theorem State.modMy_tripped (s : State) (f : StrandSt → StrandSt) : (s.modMy f).tripped = s.tripped := rfl
@[simp] theorem State.modMy_capped (s : State) (f : StrandSt → StrandSt) : (s.modMy f).capped = s.capped := rfl
@[simp] theorem State.modMy_cycle (s : State) (f : StrandSt → StrandSt) : (s.modMy f).cycle = s.cycle := rfl
@[simp] theorem State.modMy_agenda (s : State) (f : StrandSt → StrandSt) : (s.modMy f).agenda = s.agenda := rfl
@[simp] theorem State.modMy_cur (s : State) (f : StrandSt → StrandSt) : (s.modMy f).cur = s.cur := rfl
@[simp] theorem State.modMy_free (s : State) (f : StrandSt → StrandSt) : (s.modMy f).free = s.free := rfl

/-! ### State.modCtx -/

@[simp] theorem State.modCtx_dev (s : State) (c : Nat) (f : Ctx → Ctx) : (s.modCtx c f).dev = s.dev := rfl
@[simp] theorem State.modCtx_boot (s : State) (c : Nat) (f : Ctx → Ctx) : (s.modCtx c f).boot = s.boot := rfl
@[simp] theorem State.modCtx_bootFail (s : State) (c : Nat) (f : Ctx → Ctx) : (s.modCtx c f).bootFail = s.bootFail := rfl
@[simp] theorem State.modCtx_fwVersion (s : State) (c : Nat) (f : Ctx → Ctx) : (s.modCtx c f).fwVersion = s.fwVersion := rfl
@[simp] theorem State.modCtx_fwDigest (s : State) (c : Nat) (f : Ctx → Ctx) : (s.modCtx c f).fwDigest = s.fwDigest := rfl
@[simp] theorem State.modCtx_rollback (s : State) (c : Nat) (f : Ctx → Ctx) : (s.modCtx c f).rollback = s.rollback := rfl
@[simp] theorem State.modCtx_cores (s : State) (c : Nat) (f : Ctx → Ctx) : (s.modCtx c f).cores = s.cores := rfl
@[simp] theorem State.modCtx_clusters (s : State) (c : Nat) (f : Ctx → Ctx) : (s.modCtx c f).clusters = s.clusters := rfl
@[simp] theorem State.modCtx_mem (s : State) (c : Nat) (f : Ctx → Ctx) : (s.modCtx c f).mem = s.mem := rfl
@[simp] theorem State.modCtx_full (s : State) (c : Nat) (f : Ctx → Ctx) : (s.modCtx c f).full = s.full := rfl
@[simp] theorem State.modCtx_poison (s : State) (c : Nat) (f : Ctx → Ctx) : (s.modCtx c f).poison = s.poison := rfl
@[simp] theorem State.modCtx_parks (s : State) (c : Nat) (f : Ctx → Ctx) : (s.modCtx c f).parks = s.parks := rfl
@[simp] theorem State.modCtx_watches (s : State) (c : Nat) (f : Ctx → Ctx) : (s.modCtx c f).watches = s.watches := rfl
@[simp] theorem State.modCtx_copy0 (s : State) (c : Nat) (f : Ctx → Ctx) : (s.modCtx c f).copy0 = s.copy0 := rfl
@[simp] theorem State.modCtx_copy1 (s : State) (c : Nat) (f : Ctx → Ctx) : (s.modCtx c f).copy1 = s.copy1 := rfl
@[simp] theorem State.modCtx_cows (s : State) (c : Nat) (f : Ctx → Ctx) : (s.modCtx c f).cows = s.cows := rfl
@[simp] theorem State.modCtx_launches (s : State) (c : Nat) (f : Ctx → Ctx) : (s.modCtx c f).launches = s.launches := rfl
@[simp] theorem State.modCtx_nextLaunch (s : State) (c : Nat) (f : Ctx → Ctx) : (s.modCtx c f).nextLaunch = s.nextLaunch := rfl
@[simp] theorem State.modCtx_rr (s : State) (c : Nat) (f : Ctx → Ctx) : (s.modCtx c f).rr = s.rr := rfl
@[simp] theorem State.modCtx_resv (s : State) (c : Nat) (f : Ctx → Ctx) : (s.modCtx c f).resv = s.resv := rfl
@[simp] theorem State.modCtx_budget (s : State) (c : Nat) (f : Ctx → Ctx) : (s.modCtx c f).budget = s.budget := rfl
@[simp] theorem State.modCtx_budgetNext (s : State) (c : Nat) (f : Ctx → Ctx) : (s.modCtx c f).budgetNext = s.budgetNext := rfl
@[simp] theorem State.modCtx_used (s : State) (c : Nat) (f : Ctx → Ctx) : (s.modCtx c f).used = s.used := rfl
@[simp] theorem State.modCtx_debt (s : State) (c : Nat) (f : Ctx → Ctx) : (s.modCtx c f).debt = s.debt := rfl
@[simp] theorem State.modCtx_holds (s : State) (c : Nat) (f : Ctx → Ctx) : (s.modCtx c f).holds = s.holds := rfl
@[simp] theorem State.modCtx_slips0 (s : State) (c : Nat) (f : Ctx → Ctx) : (s.modCtx c f).slips0 = s.slips0 := rfl
@[simp] theorem State.modCtx_slips1 (s : State) (c : Nat) (f : Ctx → Ctx) : (s.modCtx c f).slips1 = s.slips1 := rfl
@[simp] theorem State.modCtx_lost0 (s : State) (c : Nat) (f : Ctx → Ctx) : (s.modCtx c f).lost0 = s.lost0 := rfl
@[simp] theorem State.modCtx_lost1 (s : State) (c : Nat) (f : Ctx → Ctx) : (s.modCtx c f).lost1 = s.lost1 := rfl
@[simp] theorem State.modCtx_presscnt (s : State) (c : Nat) (f : Ctx → Ctx) : (s.modCtx c f).presscnt = s.presscnt := rfl
@[simp] theorem State.modCtx_presslen (s : State) (c : Nat) (f : Ctx → Ctx) : (s.modCtx c f).presslen = s.presslen := rfl
@[simp] theorem State.modCtx_presslenNext (s : State) (c : Nat) (f : Ctx → Ctx) : (s.modCtx c f).presslenNext = s.presslenNext := rfl
@[simp] theorem State.modCtx_periodStart (s : State) (c : Nat) (f : Ctx → Ctx) : (s.modCtx c f).periodStart = s.periodStart := rfl
@[simp] theorem State.modCtx_phases (s : State) (c : Nat) (f : Ctx → Ctx) : (s.modCtx c f).phases = s.phases := rfl
@[simp] theorem State.modCtx_lentTok (s : State) (c : Nat) (f : Ctx → Ctx) : (s.modCtx c f).lentTok = s.lentTok := rfl
@[simp] theorem State.modCtx_heldTok (s : State) (c : Nat) (f : Ctx → Ctx) : (s.modCtx c f).heldTok = s.heldTok := rfl
@[simp] theorem State.modCtx_msgs (s : State) (c : Nat) (f : Ctx → Ctx) : (s.modCtx c f).msgs = s.msgs := rfl
@[simp] theorem State.modCtx_stocks (s : State) (c : Nat) (f : Ctx → Ctx) : (s.modCtx c f).stocks = s.stocks := rfl
@[simp] theorem State.modCtx_clears (s : State) (c : Nat) (f : Ctx → Ctx) : (s.modCtx c f).clears = s.clears := rfl
@[simp] theorem State.modCtx_net (s : State) (c : Nat) (f : Ctx → Ctx) : (s.modCtx c f).net = s.net := rfl
@[simp] theorem State.modCtx_places (s : State) (c : Nat) (f : Ctx → Ctx) : (s.modCtx c f).places = s.places := rfl
@[simp] theorem State.modCtx_gangTo (s : State) (c : Nat) (f : Ctx → Ctx) : (s.modCtx c f).gangTo = s.gangTo := rfl
@[simp] theorem State.modCtx_ships (s : State) (c : Nat) (f : Ctx → Ctx) : (s.modCtx c f).ships = s.ships := rfl
@[simp] theorem State.modCtx_colls (s : State) (c : Nat) (f : Ctx → Ctx) : (s.modCtx c f).colls = s.colls := rfl
@[simp] theorem State.modCtx_resp (s : State) (c : Nat) (f : Ctx → Ctx) : (s.modCtx c f).resp = s.resp := rfl
@[simp] theorem State.modCtx_mgmt (s : State) (c : Nat) (f : Ctx → Ctx) : (s.modCtx c f).mgmt = s.mgmt := rfl
@[simp] theorem State.modCtx_rows (s : State) (c : Nat) (f : Ctx → Ctx) : (s.modCtx c f).rows = s.rows := rfl
@[simp] theorem State.modCtx_tripped (s : State) (c : Nat) (f : Ctx → Ctx) : (s.modCtx c f).tripped = s.tripped := rfl
@[simp] theorem State.modCtx_capped (s : State) (c : Nat) (f : Ctx → Ctx) : (s.modCtx c f).capped = s.capped := rfl
@[simp] theorem State.modCtx_cycle (s : State) (c : Nat) (f : Ctx → Ctx) : (s.modCtx c f).cycle = s.cycle := rfl
@[simp] theorem State.modCtx_agenda (s : State) (c : Nat) (f : Ctx → Ctx) : (s.modCtx c f).agenda = s.agenda := rfl
@[simp] theorem State.modCtx_cur (s : State) (c : Nat) (f : Ctx → Ctx) : (s.modCtx c f).cur = s.cur := rfl
@[simp] theorem State.modCtx_free (s : State) (c : Nat) (f : Ctx → Ctx) : (s.modCtx c f).free = s.free := rfl

/-! ### State.modCluster -/

@[simp] theorem State.modCluster_dev (s : State) (c : Nat) (f : Cluster → Cluster) : (s.modCluster c f).dev = s.dev := rfl
@[simp] theorem State.modCluster_boot (s : State) (c : Nat) (f : Cluster → Cluster) : (s.modCluster c f).boot = s.boot := rfl
@[simp] theorem State.modCluster_bootFail (s : State) (c : Nat) (f : Cluster → Cluster) : (s.modCluster c f).bootFail = s.bootFail := rfl
@[simp] theorem State.modCluster_fwVersion (s : State) (c : Nat) (f : Cluster → Cluster) : (s.modCluster c f).fwVersion = s.fwVersion := rfl
@[simp] theorem State.modCluster_fwDigest (s : State) (c : Nat) (f : Cluster → Cluster) : (s.modCluster c f).fwDigest = s.fwDigest := rfl
@[simp] theorem State.modCluster_rollback (s : State) (c : Nat) (f : Cluster → Cluster) : (s.modCluster c f).rollback = s.rollback := rfl
@[simp] theorem State.modCluster_cores (s : State) (c : Nat) (f : Cluster → Cluster) : (s.modCluster c f).cores = s.cores := rfl
@[simp] theorem State.modCluster_ctxs (s : State) (c : Nat) (f : Cluster → Cluster) : (s.modCluster c f).ctxs = s.ctxs := rfl
@[simp] theorem State.modCluster_mem (s : State) (c : Nat) (f : Cluster → Cluster) : (s.modCluster c f).mem = s.mem := rfl
@[simp] theorem State.modCluster_full (s : State) (c : Nat) (f : Cluster → Cluster) : (s.modCluster c f).full = s.full := rfl
@[simp] theorem State.modCluster_poison (s : State) (c : Nat) (f : Cluster → Cluster) : (s.modCluster c f).poison = s.poison := rfl
@[simp] theorem State.modCluster_parks (s : State) (c : Nat) (f : Cluster → Cluster) : (s.modCluster c f).parks = s.parks := rfl
@[simp] theorem State.modCluster_watches (s : State) (c : Nat) (f : Cluster → Cluster) : (s.modCluster c f).watches = s.watches := rfl
@[simp] theorem State.modCluster_copy0 (s : State) (c : Nat) (f : Cluster → Cluster) : (s.modCluster c f).copy0 = s.copy0 := rfl
@[simp] theorem State.modCluster_copy1 (s : State) (c : Nat) (f : Cluster → Cluster) : (s.modCluster c f).copy1 = s.copy1 := rfl
@[simp] theorem State.modCluster_cows (s : State) (c : Nat) (f : Cluster → Cluster) : (s.modCluster c f).cows = s.cows := rfl
@[simp] theorem State.modCluster_launches (s : State) (c : Nat) (f : Cluster → Cluster) : (s.modCluster c f).launches = s.launches := rfl
@[simp] theorem State.modCluster_nextLaunch (s : State) (c : Nat) (f : Cluster → Cluster) : (s.modCluster c f).nextLaunch = s.nextLaunch := rfl
@[simp] theorem State.modCluster_rr (s : State) (c : Nat) (f : Cluster → Cluster) : (s.modCluster c f).rr = s.rr := rfl
@[simp] theorem State.modCluster_resv (s : State) (c : Nat) (f : Cluster → Cluster) : (s.modCluster c f).resv = s.resv := rfl
@[simp] theorem State.modCluster_budget (s : State) (c : Nat) (f : Cluster → Cluster) : (s.modCluster c f).budget = s.budget := rfl
@[simp] theorem State.modCluster_budgetNext (s : State) (c : Nat) (f : Cluster → Cluster) : (s.modCluster c f).budgetNext = s.budgetNext := rfl
@[simp] theorem State.modCluster_used (s : State) (c : Nat) (f : Cluster → Cluster) : (s.modCluster c f).used = s.used := rfl
@[simp] theorem State.modCluster_debt (s : State) (c : Nat) (f : Cluster → Cluster) : (s.modCluster c f).debt = s.debt := rfl
@[simp] theorem State.modCluster_holds (s : State) (c : Nat) (f : Cluster → Cluster) : (s.modCluster c f).holds = s.holds := rfl
@[simp] theorem State.modCluster_slips0 (s : State) (c : Nat) (f : Cluster → Cluster) : (s.modCluster c f).slips0 = s.slips0 := rfl
@[simp] theorem State.modCluster_slips1 (s : State) (c : Nat) (f : Cluster → Cluster) : (s.modCluster c f).slips1 = s.slips1 := rfl
@[simp] theorem State.modCluster_lost0 (s : State) (c : Nat) (f : Cluster → Cluster) : (s.modCluster c f).lost0 = s.lost0 := rfl
@[simp] theorem State.modCluster_lost1 (s : State) (c : Nat) (f : Cluster → Cluster) : (s.modCluster c f).lost1 = s.lost1 := rfl
@[simp] theorem State.modCluster_presscnt (s : State) (c : Nat) (f : Cluster → Cluster) : (s.modCluster c f).presscnt = s.presscnt := rfl
@[simp] theorem State.modCluster_presslen (s : State) (c : Nat) (f : Cluster → Cluster) : (s.modCluster c f).presslen = s.presslen := rfl
@[simp] theorem State.modCluster_presslenNext (s : State) (c : Nat) (f : Cluster → Cluster) : (s.modCluster c f).presslenNext = s.presslenNext := rfl
@[simp] theorem State.modCluster_periodStart (s : State) (c : Nat) (f : Cluster → Cluster) : (s.modCluster c f).periodStart = s.periodStart := rfl
@[simp] theorem State.modCluster_phases (s : State) (c : Nat) (f : Cluster → Cluster) : (s.modCluster c f).phases = s.phases := rfl
@[simp] theorem State.modCluster_lentTok (s : State) (c : Nat) (f : Cluster → Cluster) : (s.modCluster c f).lentTok = s.lentTok := rfl
@[simp] theorem State.modCluster_heldTok (s : State) (c : Nat) (f : Cluster → Cluster) : (s.modCluster c f).heldTok = s.heldTok := rfl
@[simp] theorem State.modCluster_msgs (s : State) (c : Nat) (f : Cluster → Cluster) : (s.modCluster c f).msgs = s.msgs := rfl
@[simp] theorem State.modCluster_stocks (s : State) (c : Nat) (f : Cluster → Cluster) : (s.modCluster c f).stocks = s.stocks := rfl
@[simp] theorem State.modCluster_clears (s : State) (c : Nat) (f : Cluster → Cluster) : (s.modCluster c f).clears = s.clears := rfl
@[simp] theorem State.modCluster_net (s : State) (c : Nat) (f : Cluster → Cluster) : (s.modCluster c f).net = s.net := rfl
@[simp] theorem State.modCluster_places (s : State) (c : Nat) (f : Cluster → Cluster) : (s.modCluster c f).places = s.places := rfl
@[simp] theorem State.modCluster_gangTo (s : State) (c : Nat) (f : Cluster → Cluster) : (s.modCluster c f).gangTo = s.gangTo := rfl
@[simp] theorem State.modCluster_ships (s : State) (c : Nat) (f : Cluster → Cluster) : (s.modCluster c f).ships = s.ships := rfl
@[simp] theorem State.modCluster_colls (s : State) (c : Nat) (f : Cluster → Cluster) : (s.modCluster c f).colls = s.colls := rfl
@[simp] theorem State.modCluster_resp (s : State) (c : Nat) (f : Cluster → Cluster) : (s.modCluster c f).resp = s.resp := rfl
@[simp] theorem State.modCluster_mgmt (s : State) (c : Nat) (f : Cluster → Cluster) : (s.modCluster c f).mgmt = s.mgmt := rfl
@[simp] theorem State.modCluster_rows (s : State) (c : Nat) (f : Cluster → Cluster) : (s.modCluster c f).rows = s.rows := rfl
@[simp] theorem State.modCluster_tripped (s : State) (c : Nat) (f : Cluster → Cluster) : (s.modCluster c f).tripped = s.tripped := rfl
@[simp] theorem State.modCluster_capped (s : State) (c : Nat) (f : Cluster → Cluster) : (s.modCluster c f).capped = s.capped := rfl
@[simp] theorem State.modCluster_cycle (s : State) (c : Nat) (f : Cluster → Cluster) : (s.modCluster c f).cycle = s.cycle := rfl
@[simp] theorem State.modCluster_agenda (s : State) (c : Nat) (f : Cluster → Cluster) : (s.modCluster c f).agenda = s.agenda := rfl
@[simp] theorem State.modCluster_cur (s : State) (c : Nat) (f : Cluster → Cluster) : (s.modCluster c f).cur = s.cur := rfl
@[simp] theorem State.modCluster_free (s : State) (c : Nat) (f : Cluster → Cluster) : (s.modCluster c f).free = s.free := rfl

/-! ### State.wS -/

@[simp] theorem State.wS_dev (s : State) (r : BitVec 6) (v : W64) : (s.wS r v).dev = s.dev := rfl
@[simp] theorem State.wS_boot (s : State) (r : BitVec 6) (v : W64) : (s.wS r v).boot = s.boot := rfl
@[simp] theorem State.wS_bootFail (s : State) (r : BitVec 6) (v : W64) : (s.wS r v).bootFail = s.bootFail := rfl
@[simp] theorem State.wS_fwVersion (s : State) (r : BitVec 6) (v : W64) : (s.wS r v).fwVersion = s.fwVersion := rfl
@[simp] theorem State.wS_fwDigest (s : State) (r : BitVec 6) (v : W64) : (s.wS r v).fwDigest = s.fwDigest := rfl
@[simp] theorem State.wS_rollback (s : State) (r : BitVec 6) (v : W64) : (s.wS r v).rollback = s.rollback := rfl
@[simp] theorem State.wS_ctxs (s : State) (r : BitVec 6) (v : W64) : (s.wS r v).ctxs = s.ctxs := rfl
@[simp] theorem State.wS_clusters (s : State) (r : BitVec 6) (v : W64) : (s.wS r v).clusters = s.clusters := rfl
@[simp] theorem State.wS_mem (s : State) (r : BitVec 6) (v : W64) : (s.wS r v).mem = s.mem := rfl
@[simp] theorem State.wS_full (s : State) (r : BitVec 6) (v : W64) : (s.wS r v).full = s.full := rfl
@[simp] theorem State.wS_poison (s : State) (r : BitVec 6) (v : W64) : (s.wS r v).poison = s.poison := rfl
@[simp] theorem State.wS_parks (s : State) (r : BitVec 6) (v : W64) : (s.wS r v).parks = s.parks := rfl
@[simp] theorem State.wS_watches (s : State) (r : BitVec 6) (v : W64) : (s.wS r v).watches = s.watches := rfl
@[simp] theorem State.wS_copy0 (s : State) (r : BitVec 6) (v : W64) : (s.wS r v).copy0 = s.copy0 := rfl
@[simp] theorem State.wS_copy1 (s : State) (r : BitVec 6) (v : W64) : (s.wS r v).copy1 = s.copy1 := rfl
@[simp] theorem State.wS_cows (s : State) (r : BitVec 6) (v : W64) : (s.wS r v).cows = s.cows := rfl
@[simp] theorem State.wS_launches (s : State) (r : BitVec 6) (v : W64) : (s.wS r v).launches = s.launches := rfl
@[simp] theorem State.wS_nextLaunch (s : State) (r : BitVec 6) (v : W64) : (s.wS r v).nextLaunch = s.nextLaunch := rfl
@[simp] theorem State.wS_rr (s : State) (r : BitVec 6) (v : W64) : (s.wS r v).rr = s.rr := rfl
@[simp] theorem State.wS_resv (s : State) (r : BitVec 6) (v : W64) : (s.wS r v).resv = s.resv := rfl
@[simp] theorem State.wS_budget (s : State) (r : BitVec 6) (v : W64) : (s.wS r v).budget = s.budget := rfl
@[simp] theorem State.wS_budgetNext (s : State) (r : BitVec 6) (v : W64) : (s.wS r v).budgetNext = s.budgetNext := rfl
@[simp] theorem State.wS_used (s : State) (r : BitVec 6) (v : W64) : (s.wS r v).used = s.used := rfl
@[simp] theorem State.wS_debt (s : State) (r : BitVec 6) (v : W64) : (s.wS r v).debt = s.debt := rfl
@[simp] theorem State.wS_holds (s : State) (r : BitVec 6) (v : W64) : (s.wS r v).holds = s.holds := rfl
@[simp] theorem State.wS_slips0 (s : State) (r : BitVec 6) (v : W64) : (s.wS r v).slips0 = s.slips0 := rfl
@[simp] theorem State.wS_slips1 (s : State) (r : BitVec 6) (v : W64) : (s.wS r v).slips1 = s.slips1 := rfl
@[simp] theorem State.wS_lost0 (s : State) (r : BitVec 6) (v : W64) : (s.wS r v).lost0 = s.lost0 := rfl
@[simp] theorem State.wS_lost1 (s : State) (r : BitVec 6) (v : W64) : (s.wS r v).lost1 = s.lost1 := rfl
@[simp] theorem State.wS_presscnt (s : State) (r : BitVec 6) (v : W64) : (s.wS r v).presscnt = s.presscnt := rfl
@[simp] theorem State.wS_presslen (s : State) (r : BitVec 6) (v : W64) : (s.wS r v).presslen = s.presslen := rfl
@[simp] theorem State.wS_presslenNext (s : State) (r : BitVec 6) (v : W64) : (s.wS r v).presslenNext = s.presslenNext := rfl
@[simp] theorem State.wS_periodStart (s : State) (r : BitVec 6) (v : W64) : (s.wS r v).periodStart = s.periodStart := rfl
@[simp] theorem State.wS_phases (s : State) (r : BitVec 6) (v : W64) : (s.wS r v).phases = s.phases := rfl
@[simp] theorem State.wS_lentTok (s : State) (r : BitVec 6) (v : W64) : (s.wS r v).lentTok = s.lentTok := rfl
@[simp] theorem State.wS_heldTok (s : State) (r : BitVec 6) (v : W64) : (s.wS r v).heldTok = s.heldTok := rfl
@[simp] theorem State.wS_msgs (s : State) (r : BitVec 6) (v : W64) : (s.wS r v).msgs = s.msgs := rfl
@[simp] theorem State.wS_stocks (s : State) (r : BitVec 6) (v : W64) : (s.wS r v).stocks = s.stocks := rfl
@[simp] theorem State.wS_clears (s : State) (r : BitVec 6) (v : W64) : (s.wS r v).clears = s.clears := rfl
@[simp] theorem State.wS_net (s : State) (r : BitVec 6) (v : W64) : (s.wS r v).net = s.net := rfl
@[simp] theorem State.wS_places (s : State) (r : BitVec 6) (v : W64) : (s.wS r v).places = s.places := rfl
@[simp] theorem State.wS_gangTo (s : State) (r : BitVec 6) (v : W64) : (s.wS r v).gangTo = s.gangTo := rfl
@[simp] theorem State.wS_ships (s : State) (r : BitVec 6) (v : W64) : (s.wS r v).ships = s.ships := rfl
@[simp] theorem State.wS_colls (s : State) (r : BitVec 6) (v : W64) : (s.wS r v).colls = s.colls := rfl
@[simp] theorem State.wS_resp (s : State) (r : BitVec 6) (v : W64) : (s.wS r v).resp = s.resp := rfl
@[simp] theorem State.wS_mgmt (s : State) (r : BitVec 6) (v : W64) : (s.wS r v).mgmt = s.mgmt := rfl
@[simp] theorem State.wS_rows (s : State) (r : BitVec 6) (v : W64) : (s.wS r v).rows = s.rows := rfl
@[simp] theorem State.wS_tripped (s : State) (r : BitVec 6) (v : W64) : (s.wS r v).tripped = s.tripped := rfl
@[simp] theorem State.wS_capped (s : State) (r : BitVec 6) (v : W64) : (s.wS r v).capped = s.capped := rfl
@[simp] theorem State.wS_cycle (s : State) (r : BitVec 6) (v : W64) : (s.wS r v).cycle = s.cycle := rfl
@[simp] theorem State.wS_agenda (s : State) (r : BitVec 6) (v : W64) : (s.wS r v).agenda = s.agenda := rfl
@[simp] theorem State.wS_cur (s : State) (r : BitVec 6) (v : W64) : (s.wS r v).cur = s.cur := rfl
@[simp] theorem State.wS_free (s : State) (r : BitVec 6) (v : W64) : (s.wS r v).free = s.free := rfl

/-! ### State.wP -/

@[simp] theorem State.wP_dev (s : State) (r : BitVec 3) (v : Bool) : (s.wP r v).dev = s.dev := rfl
@[simp] theorem State.wP_boot (s : State) (r : BitVec 3) (v : Bool) : (s.wP r v).boot = s.boot := rfl
@[simp] theorem State.wP_bootFail (s : State) (r : BitVec 3) (v : Bool) : (s.wP r v).bootFail = s.bootFail := rfl
@[simp] theorem State.wP_fwVersion (s : State) (r : BitVec 3) (v : Bool) : (s.wP r v).fwVersion = s.fwVersion := rfl
@[simp] theorem State.wP_fwDigest (s : State) (r : BitVec 3) (v : Bool) : (s.wP r v).fwDigest = s.fwDigest := rfl
@[simp] theorem State.wP_rollback (s : State) (r : BitVec 3) (v : Bool) : (s.wP r v).rollback = s.rollback := rfl
@[simp] theorem State.wP_ctxs (s : State) (r : BitVec 3) (v : Bool) : (s.wP r v).ctxs = s.ctxs := rfl
@[simp] theorem State.wP_clusters (s : State) (r : BitVec 3) (v : Bool) : (s.wP r v).clusters = s.clusters := rfl
@[simp] theorem State.wP_mem (s : State) (r : BitVec 3) (v : Bool) : (s.wP r v).mem = s.mem := rfl
@[simp] theorem State.wP_full (s : State) (r : BitVec 3) (v : Bool) : (s.wP r v).full = s.full := rfl
@[simp] theorem State.wP_poison (s : State) (r : BitVec 3) (v : Bool) : (s.wP r v).poison = s.poison := rfl
@[simp] theorem State.wP_parks (s : State) (r : BitVec 3) (v : Bool) : (s.wP r v).parks = s.parks := rfl
@[simp] theorem State.wP_watches (s : State) (r : BitVec 3) (v : Bool) : (s.wP r v).watches = s.watches := rfl
@[simp] theorem State.wP_copy0 (s : State) (r : BitVec 3) (v : Bool) : (s.wP r v).copy0 = s.copy0 := rfl
@[simp] theorem State.wP_copy1 (s : State) (r : BitVec 3) (v : Bool) : (s.wP r v).copy1 = s.copy1 := rfl
@[simp] theorem State.wP_cows (s : State) (r : BitVec 3) (v : Bool) : (s.wP r v).cows = s.cows := rfl
@[simp] theorem State.wP_launches (s : State) (r : BitVec 3) (v : Bool) : (s.wP r v).launches = s.launches := rfl
@[simp] theorem State.wP_nextLaunch (s : State) (r : BitVec 3) (v : Bool) : (s.wP r v).nextLaunch = s.nextLaunch := rfl
@[simp] theorem State.wP_rr (s : State) (r : BitVec 3) (v : Bool) : (s.wP r v).rr = s.rr := rfl
@[simp] theorem State.wP_resv (s : State) (r : BitVec 3) (v : Bool) : (s.wP r v).resv = s.resv := rfl
@[simp] theorem State.wP_budget (s : State) (r : BitVec 3) (v : Bool) : (s.wP r v).budget = s.budget := rfl
@[simp] theorem State.wP_budgetNext (s : State) (r : BitVec 3) (v : Bool) : (s.wP r v).budgetNext = s.budgetNext := rfl
@[simp] theorem State.wP_used (s : State) (r : BitVec 3) (v : Bool) : (s.wP r v).used = s.used := rfl
@[simp] theorem State.wP_debt (s : State) (r : BitVec 3) (v : Bool) : (s.wP r v).debt = s.debt := rfl
@[simp] theorem State.wP_holds (s : State) (r : BitVec 3) (v : Bool) : (s.wP r v).holds = s.holds := rfl
@[simp] theorem State.wP_slips0 (s : State) (r : BitVec 3) (v : Bool) : (s.wP r v).slips0 = s.slips0 := rfl
@[simp] theorem State.wP_slips1 (s : State) (r : BitVec 3) (v : Bool) : (s.wP r v).slips1 = s.slips1 := rfl
@[simp] theorem State.wP_lost0 (s : State) (r : BitVec 3) (v : Bool) : (s.wP r v).lost0 = s.lost0 := rfl
@[simp] theorem State.wP_lost1 (s : State) (r : BitVec 3) (v : Bool) : (s.wP r v).lost1 = s.lost1 := rfl
@[simp] theorem State.wP_presscnt (s : State) (r : BitVec 3) (v : Bool) : (s.wP r v).presscnt = s.presscnt := rfl
@[simp] theorem State.wP_presslen (s : State) (r : BitVec 3) (v : Bool) : (s.wP r v).presslen = s.presslen := rfl
@[simp] theorem State.wP_presslenNext (s : State) (r : BitVec 3) (v : Bool) : (s.wP r v).presslenNext = s.presslenNext := rfl
@[simp] theorem State.wP_periodStart (s : State) (r : BitVec 3) (v : Bool) : (s.wP r v).periodStart = s.periodStart := rfl
@[simp] theorem State.wP_phases (s : State) (r : BitVec 3) (v : Bool) : (s.wP r v).phases = s.phases := rfl
@[simp] theorem State.wP_lentTok (s : State) (r : BitVec 3) (v : Bool) : (s.wP r v).lentTok = s.lentTok := rfl
@[simp] theorem State.wP_heldTok (s : State) (r : BitVec 3) (v : Bool) : (s.wP r v).heldTok = s.heldTok := rfl
@[simp] theorem State.wP_msgs (s : State) (r : BitVec 3) (v : Bool) : (s.wP r v).msgs = s.msgs := rfl
@[simp] theorem State.wP_stocks (s : State) (r : BitVec 3) (v : Bool) : (s.wP r v).stocks = s.stocks := rfl
@[simp] theorem State.wP_clears (s : State) (r : BitVec 3) (v : Bool) : (s.wP r v).clears = s.clears := rfl
@[simp] theorem State.wP_net (s : State) (r : BitVec 3) (v : Bool) : (s.wP r v).net = s.net := rfl
@[simp] theorem State.wP_places (s : State) (r : BitVec 3) (v : Bool) : (s.wP r v).places = s.places := rfl
@[simp] theorem State.wP_gangTo (s : State) (r : BitVec 3) (v : Bool) : (s.wP r v).gangTo = s.gangTo := rfl
@[simp] theorem State.wP_ships (s : State) (r : BitVec 3) (v : Bool) : (s.wP r v).ships = s.ships := rfl
@[simp] theorem State.wP_colls (s : State) (r : BitVec 3) (v : Bool) : (s.wP r v).colls = s.colls := rfl
@[simp] theorem State.wP_resp (s : State) (r : BitVec 3) (v : Bool) : (s.wP r v).resp = s.resp := rfl
@[simp] theorem State.wP_mgmt (s : State) (r : BitVec 3) (v : Bool) : (s.wP r v).mgmt = s.mgmt := rfl
@[simp] theorem State.wP_rows (s : State) (r : BitVec 3) (v : Bool) : (s.wP r v).rows = s.rows := rfl
@[simp] theorem State.wP_tripped (s : State) (r : BitVec 3) (v : Bool) : (s.wP r v).tripped = s.tripped := rfl
@[simp] theorem State.wP_capped (s : State) (r : BitVec 3) (v : Bool) : (s.wP r v).capped = s.capped := rfl
@[simp] theorem State.wP_cycle (s : State) (r : BitVec 3) (v : Bool) : (s.wP r v).cycle = s.cycle := rfl
@[simp] theorem State.wP_agenda (s : State) (r : BitVec 3) (v : Bool) : (s.wP r v).agenda = s.agenda := rfl
@[simp] theorem State.wP_cur (s : State) (r : BitVec 3) (v : Bool) : (s.wP r v).cur = s.cur := rfl
@[simp] theorem State.wP_free (s : State) (r : BitVec 3) (v : Bool) : (s.wP r v).free = s.free := rfl

/-! ### State.wH -/

@[simp] theorem State.wH_dev (s : State) (r : BitVec 6) (v : W64) : (s.wH r v).dev = s.dev := rfl
@[simp] theorem State.wH_boot (s : State) (r : BitVec 6) (v : W64) : (s.wH r v).boot = s.boot := rfl
@[simp] theorem State.wH_bootFail (s : State) (r : BitVec 6) (v : W64) : (s.wH r v).bootFail = s.bootFail := rfl
@[simp] theorem State.wH_fwVersion (s : State) (r : BitVec 6) (v : W64) : (s.wH r v).fwVersion = s.fwVersion := rfl
@[simp] theorem State.wH_fwDigest (s : State) (r : BitVec 6) (v : W64) : (s.wH r v).fwDigest = s.fwDigest := rfl
@[simp] theorem State.wH_rollback (s : State) (r : BitVec 6) (v : W64) : (s.wH r v).rollback = s.rollback := rfl
@[simp] theorem State.wH_ctxs (s : State) (r : BitVec 6) (v : W64) : (s.wH r v).ctxs = s.ctxs := rfl
@[simp] theorem State.wH_clusters (s : State) (r : BitVec 6) (v : W64) : (s.wH r v).clusters = s.clusters := rfl
@[simp] theorem State.wH_mem (s : State) (r : BitVec 6) (v : W64) : (s.wH r v).mem = s.mem := rfl
@[simp] theorem State.wH_full (s : State) (r : BitVec 6) (v : W64) : (s.wH r v).full = s.full := rfl
@[simp] theorem State.wH_poison (s : State) (r : BitVec 6) (v : W64) : (s.wH r v).poison = s.poison := rfl
@[simp] theorem State.wH_parks (s : State) (r : BitVec 6) (v : W64) : (s.wH r v).parks = s.parks := rfl
@[simp] theorem State.wH_watches (s : State) (r : BitVec 6) (v : W64) : (s.wH r v).watches = s.watches := rfl
@[simp] theorem State.wH_copy0 (s : State) (r : BitVec 6) (v : W64) : (s.wH r v).copy0 = s.copy0 := rfl
@[simp] theorem State.wH_copy1 (s : State) (r : BitVec 6) (v : W64) : (s.wH r v).copy1 = s.copy1 := rfl
@[simp] theorem State.wH_cows (s : State) (r : BitVec 6) (v : W64) : (s.wH r v).cows = s.cows := rfl
@[simp] theorem State.wH_launches (s : State) (r : BitVec 6) (v : W64) : (s.wH r v).launches = s.launches := rfl
@[simp] theorem State.wH_nextLaunch (s : State) (r : BitVec 6) (v : W64) : (s.wH r v).nextLaunch = s.nextLaunch := rfl
@[simp] theorem State.wH_rr (s : State) (r : BitVec 6) (v : W64) : (s.wH r v).rr = s.rr := rfl
@[simp] theorem State.wH_resv (s : State) (r : BitVec 6) (v : W64) : (s.wH r v).resv = s.resv := rfl
@[simp] theorem State.wH_budget (s : State) (r : BitVec 6) (v : W64) : (s.wH r v).budget = s.budget := rfl
@[simp] theorem State.wH_budgetNext (s : State) (r : BitVec 6) (v : W64) : (s.wH r v).budgetNext = s.budgetNext := rfl
@[simp] theorem State.wH_used (s : State) (r : BitVec 6) (v : W64) : (s.wH r v).used = s.used := rfl
@[simp] theorem State.wH_debt (s : State) (r : BitVec 6) (v : W64) : (s.wH r v).debt = s.debt := rfl
@[simp] theorem State.wH_holds (s : State) (r : BitVec 6) (v : W64) : (s.wH r v).holds = s.holds := rfl
@[simp] theorem State.wH_slips0 (s : State) (r : BitVec 6) (v : W64) : (s.wH r v).slips0 = s.slips0 := rfl
@[simp] theorem State.wH_slips1 (s : State) (r : BitVec 6) (v : W64) : (s.wH r v).slips1 = s.slips1 := rfl
@[simp] theorem State.wH_lost0 (s : State) (r : BitVec 6) (v : W64) : (s.wH r v).lost0 = s.lost0 := rfl
@[simp] theorem State.wH_lost1 (s : State) (r : BitVec 6) (v : W64) : (s.wH r v).lost1 = s.lost1 := rfl
@[simp] theorem State.wH_presscnt (s : State) (r : BitVec 6) (v : W64) : (s.wH r v).presscnt = s.presscnt := rfl
@[simp] theorem State.wH_presslen (s : State) (r : BitVec 6) (v : W64) : (s.wH r v).presslen = s.presslen := rfl
@[simp] theorem State.wH_presslenNext (s : State) (r : BitVec 6) (v : W64) : (s.wH r v).presslenNext = s.presslenNext := rfl
@[simp] theorem State.wH_periodStart (s : State) (r : BitVec 6) (v : W64) : (s.wH r v).periodStart = s.periodStart := rfl
@[simp] theorem State.wH_phases (s : State) (r : BitVec 6) (v : W64) : (s.wH r v).phases = s.phases := rfl
@[simp] theorem State.wH_lentTok (s : State) (r : BitVec 6) (v : W64) : (s.wH r v).lentTok = s.lentTok := rfl
@[simp] theorem State.wH_heldTok (s : State) (r : BitVec 6) (v : W64) : (s.wH r v).heldTok = s.heldTok := rfl
@[simp] theorem State.wH_msgs (s : State) (r : BitVec 6) (v : W64) : (s.wH r v).msgs = s.msgs := rfl
@[simp] theorem State.wH_stocks (s : State) (r : BitVec 6) (v : W64) : (s.wH r v).stocks = s.stocks := rfl
@[simp] theorem State.wH_clears (s : State) (r : BitVec 6) (v : W64) : (s.wH r v).clears = s.clears := rfl
@[simp] theorem State.wH_net (s : State) (r : BitVec 6) (v : W64) : (s.wH r v).net = s.net := rfl
@[simp] theorem State.wH_places (s : State) (r : BitVec 6) (v : W64) : (s.wH r v).places = s.places := rfl
@[simp] theorem State.wH_gangTo (s : State) (r : BitVec 6) (v : W64) : (s.wH r v).gangTo = s.gangTo := rfl
@[simp] theorem State.wH_ships (s : State) (r : BitVec 6) (v : W64) : (s.wH r v).ships = s.ships := rfl
@[simp] theorem State.wH_colls (s : State) (r : BitVec 6) (v : W64) : (s.wH r v).colls = s.colls := rfl
@[simp] theorem State.wH_resp (s : State) (r : BitVec 6) (v : W64) : (s.wH r v).resp = s.resp := rfl
@[simp] theorem State.wH_mgmt (s : State) (r : BitVec 6) (v : W64) : (s.wH r v).mgmt = s.mgmt := rfl
@[simp] theorem State.wH_rows (s : State) (r : BitVec 6) (v : W64) : (s.wH r v).rows = s.rows := rfl
@[simp] theorem State.wH_tripped (s : State) (r : BitVec 6) (v : W64) : (s.wH r v).tripped = s.tripped := rfl
@[simp] theorem State.wH_capped (s : State) (r : BitVec 6) (v : W64) : (s.wH r v).capped = s.capped := rfl
@[simp] theorem State.wH_cycle (s : State) (r : BitVec 6) (v : W64) : (s.wH r v).cycle = s.cycle := rfl
@[simp] theorem State.wH_agenda (s : State) (r : BitVec 6) (v : W64) : (s.wH r v).agenda = s.agenda := rfl
@[simp] theorem State.wH_cur (s : State) (r : BitVec 6) (v : W64) : (s.wH r v).cur = s.cur := rfl
@[simp] theorem State.wH_free (s : State) (r : BitVec 6) (v : W64) : (s.wH r v).free = s.free := rfl

/-! ### State.wA -/

@[simp] theorem State.wA_dev (s : State) (r : BitVec 5) (v : W64) : (s.wA r v).dev = s.dev := rfl
@[simp] theorem State.wA_boot (s : State) (r : BitVec 5) (v : W64) : (s.wA r v).boot = s.boot := rfl
@[simp] theorem State.wA_bootFail (s : State) (r : BitVec 5) (v : W64) : (s.wA r v).bootFail = s.bootFail := rfl
@[simp] theorem State.wA_fwVersion (s : State) (r : BitVec 5) (v : W64) : (s.wA r v).fwVersion = s.fwVersion := rfl
@[simp] theorem State.wA_fwDigest (s : State) (r : BitVec 5) (v : W64) : (s.wA r v).fwDigest = s.fwDigest := rfl
@[simp] theorem State.wA_rollback (s : State) (r : BitVec 5) (v : W64) : (s.wA r v).rollback = s.rollback := rfl
@[simp] theorem State.wA_ctxs (s : State) (r : BitVec 5) (v : W64) : (s.wA r v).ctxs = s.ctxs := rfl
@[simp] theorem State.wA_clusters (s : State) (r : BitVec 5) (v : W64) : (s.wA r v).clusters = s.clusters := rfl
@[simp] theorem State.wA_mem (s : State) (r : BitVec 5) (v : W64) : (s.wA r v).mem = s.mem := rfl
@[simp] theorem State.wA_full (s : State) (r : BitVec 5) (v : W64) : (s.wA r v).full = s.full := rfl
@[simp] theorem State.wA_poison (s : State) (r : BitVec 5) (v : W64) : (s.wA r v).poison = s.poison := rfl
@[simp] theorem State.wA_parks (s : State) (r : BitVec 5) (v : W64) : (s.wA r v).parks = s.parks := rfl
@[simp] theorem State.wA_watches (s : State) (r : BitVec 5) (v : W64) : (s.wA r v).watches = s.watches := rfl
@[simp] theorem State.wA_copy0 (s : State) (r : BitVec 5) (v : W64) : (s.wA r v).copy0 = s.copy0 := rfl
@[simp] theorem State.wA_copy1 (s : State) (r : BitVec 5) (v : W64) : (s.wA r v).copy1 = s.copy1 := rfl
@[simp] theorem State.wA_cows (s : State) (r : BitVec 5) (v : W64) : (s.wA r v).cows = s.cows := rfl
@[simp] theorem State.wA_launches (s : State) (r : BitVec 5) (v : W64) : (s.wA r v).launches = s.launches := rfl
@[simp] theorem State.wA_nextLaunch (s : State) (r : BitVec 5) (v : W64) : (s.wA r v).nextLaunch = s.nextLaunch := rfl
@[simp] theorem State.wA_rr (s : State) (r : BitVec 5) (v : W64) : (s.wA r v).rr = s.rr := rfl
@[simp] theorem State.wA_resv (s : State) (r : BitVec 5) (v : W64) : (s.wA r v).resv = s.resv := rfl
@[simp] theorem State.wA_budget (s : State) (r : BitVec 5) (v : W64) : (s.wA r v).budget = s.budget := rfl
@[simp] theorem State.wA_budgetNext (s : State) (r : BitVec 5) (v : W64) : (s.wA r v).budgetNext = s.budgetNext := rfl
@[simp] theorem State.wA_used (s : State) (r : BitVec 5) (v : W64) : (s.wA r v).used = s.used := rfl
@[simp] theorem State.wA_debt (s : State) (r : BitVec 5) (v : W64) : (s.wA r v).debt = s.debt := rfl
@[simp] theorem State.wA_holds (s : State) (r : BitVec 5) (v : W64) : (s.wA r v).holds = s.holds := rfl
@[simp] theorem State.wA_slips0 (s : State) (r : BitVec 5) (v : W64) : (s.wA r v).slips0 = s.slips0 := rfl
@[simp] theorem State.wA_slips1 (s : State) (r : BitVec 5) (v : W64) : (s.wA r v).slips1 = s.slips1 := rfl
@[simp] theorem State.wA_lost0 (s : State) (r : BitVec 5) (v : W64) : (s.wA r v).lost0 = s.lost0 := rfl
@[simp] theorem State.wA_lost1 (s : State) (r : BitVec 5) (v : W64) : (s.wA r v).lost1 = s.lost1 := rfl
@[simp] theorem State.wA_presscnt (s : State) (r : BitVec 5) (v : W64) : (s.wA r v).presscnt = s.presscnt := rfl
@[simp] theorem State.wA_presslen (s : State) (r : BitVec 5) (v : W64) : (s.wA r v).presslen = s.presslen := rfl
@[simp] theorem State.wA_presslenNext (s : State) (r : BitVec 5) (v : W64) : (s.wA r v).presslenNext = s.presslenNext := rfl
@[simp] theorem State.wA_periodStart (s : State) (r : BitVec 5) (v : W64) : (s.wA r v).periodStart = s.periodStart := rfl
@[simp] theorem State.wA_phases (s : State) (r : BitVec 5) (v : W64) : (s.wA r v).phases = s.phases := rfl
@[simp] theorem State.wA_lentTok (s : State) (r : BitVec 5) (v : W64) : (s.wA r v).lentTok = s.lentTok := rfl
@[simp] theorem State.wA_heldTok (s : State) (r : BitVec 5) (v : W64) : (s.wA r v).heldTok = s.heldTok := rfl
@[simp] theorem State.wA_msgs (s : State) (r : BitVec 5) (v : W64) : (s.wA r v).msgs = s.msgs := rfl
@[simp] theorem State.wA_stocks (s : State) (r : BitVec 5) (v : W64) : (s.wA r v).stocks = s.stocks := rfl
@[simp] theorem State.wA_clears (s : State) (r : BitVec 5) (v : W64) : (s.wA r v).clears = s.clears := rfl
@[simp] theorem State.wA_net (s : State) (r : BitVec 5) (v : W64) : (s.wA r v).net = s.net := rfl
@[simp] theorem State.wA_places (s : State) (r : BitVec 5) (v : W64) : (s.wA r v).places = s.places := rfl
@[simp] theorem State.wA_gangTo (s : State) (r : BitVec 5) (v : W64) : (s.wA r v).gangTo = s.gangTo := rfl
@[simp] theorem State.wA_ships (s : State) (r : BitVec 5) (v : W64) : (s.wA r v).ships = s.ships := rfl
@[simp] theorem State.wA_colls (s : State) (r : BitVec 5) (v : W64) : (s.wA r v).colls = s.colls := rfl
@[simp] theorem State.wA_resp (s : State) (r : BitVec 5) (v : W64) : (s.wA r v).resp = s.resp := rfl
@[simp] theorem State.wA_mgmt (s : State) (r : BitVec 5) (v : W64) : (s.wA r v).mgmt = s.mgmt := rfl
@[simp] theorem State.wA_rows (s : State) (r : BitVec 5) (v : W64) : (s.wA r v).rows = s.rows := rfl
@[simp] theorem State.wA_tripped (s : State) (r : BitVec 5) (v : W64) : (s.wA r v).tripped = s.tripped := rfl
@[simp] theorem State.wA_capped (s : State) (r : BitVec 5) (v : W64) : (s.wA r v).capped = s.capped := rfl
@[simp] theorem State.wA_cycle (s : State) (r : BitVec 5) (v : W64) : (s.wA r v).cycle = s.cycle := rfl
@[simp] theorem State.wA_agenda (s : State) (r : BitVec 5) (v : W64) : (s.wA r v).agenda = s.agenda := rfl
@[simp] theorem State.wA_cur (s : State) (r : BitVec 5) (v : W64) : (s.wA r v).cur = s.cur := rfl
@[simp] theorem State.wA_free (s : State) (r : BitVec 5) (v : W64) : (s.wA r v).free = s.free := rfl

/-! ### State.wr64 -/

@[simp] theorem State.wr64_dev (s : State) (pa : Nat) (v : W64) : (s.wr64 pa v).dev = s.dev := rfl
@[simp] theorem State.wr64_boot (s : State) (pa : Nat) (v : W64) : (s.wr64 pa v).boot = s.boot := rfl
@[simp] theorem State.wr64_bootFail (s : State) (pa : Nat) (v : W64) : (s.wr64 pa v).bootFail = s.bootFail := rfl
@[simp] theorem State.wr64_fwVersion (s : State) (pa : Nat) (v : W64) : (s.wr64 pa v).fwVersion = s.fwVersion := rfl
@[simp] theorem State.wr64_fwDigest (s : State) (pa : Nat) (v : W64) : (s.wr64 pa v).fwDigest = s.fwDigest := rfl
@[simp] theorem State.wr64_rollback (s : State) (pa : Nat) (v : W64) : (s.wr64 pa v).rollback = s.rollback := rfl
@[simp] theorem State.wr64_cores (s : State) (pa : Nat) (v : W64) : (s.wr64 pa v).cores = s.cores := rfl
@[simp] theorem State.wr64_ctxs (s : State) (pa : Nat) (v : W64) : (s.wr64 pa v).ctxs = s.ctxs := rfl
@[simp] theorem State.wr64_clusters (s : State) (pa : Nat) (v : W64) : (s.wr64 pa v).clusters = s.clusters := rfl
@[simp] theorem State.wr64_full (s : State) (pa : Nat) (v : W64) : (s.wr64 pa v).full = s.full := rfl
@[simp] theorem State.wr64_poison (s : State) (pa : Nat) (v : W64) : (s.wr64 pa v).poison = s.poison := rfl
@[simp] theorem State.wr64_parks (s : State) (pa : Nat) (v : W64) : (s.wr64 pa v).parks = s.parks := rfl
@[simp] theorem State.wr64_watches (s : State) (pa : Nat) (v : W64) : (s.wr64 pa v).watches = s.watches := rfl
@[simp] theorem State.wr64_copy0 (s : State) (pa : Nat) (v : W64) : (s.wr64 pa v).copy0 = s.copy0 := rfl
@[simp] theorem State.wr64_copy1 (s : State) (pa : Nat) (v : W64) : (s.wr64 pa v).copy1 = s.copy1 := rfl
@[simp] theorem State.wr64_cows (s : State) (pa : Nat) (v : W64) : (s.wr64 pa v).cows = s.cows := rfl
@[simp] theorem State.wr64_launches (s : State) (pa : Nat) (v : W64) : (s.wr64 pa v).launches = s.launches := rfl
@[simp] theorem State.wr64_nextLaunch (s : State) (pa : Nat) (v : W64) : (s.wr64 pa v).nextLaunch = s.nextLaunch := rfl
@[simp] theorem State.wr64_rr (s : State) (pa : Nat) (v : W64) : (s.wr64 pa v).rr = s.rr := rfl
@[simp] theorem State.wr64_resv (s : State) (pa : Nat) (v : W64) : (s.wr64 pa v).resv = s.resv := rfl
@[simp] theorem State.wr64_budget (s : State) (pa : Nat) (v : W64) : (s.wr64 pa v).budget = s.budget := rfl
@[simp] theorem State.wr64_budgetNext (s : State) (pa : Nat) (v : W64) : (s.wr64 pa v).budgetNext = s.budgetNext := rfl
@[simp] theorem State.wr64_used (s : State) (pa : Nat) (v : W64) : (s.wr64 pa v).used = s.used := rfl
@[simp] theorem State.wr64_debt (s : State) (pa : Nat) (v : W64) : (s.wr64 pa v).debt = s.debt := rfl
@[simp] theorem State.wr64_holds (s : State) (pa : Nat) (v : W64) : (s.wr64 pa v).holds = s.holds := rfl
@[simp] theorem State.wr64_slips0 (s : State) (pa : Nat) (v : W64) : (s.wr64 pa v).slips0 = s.slips0 := rfl
@[simp] theorem State.wr64_slips1 (s : State) (pa : Nat) (v : W64) : (s.wr64 pa v).slips1 = s.slips1 := rfl
@[simp] theorem State.wr64_lost0 (s : State) (pa : Nat) (v : W64) : (s.wr64 pa v).lost0 = s.lost0 := rfl
@[simp] theorem State.wr64_lost1 (s : State) (pa : Nat) (v : W64) : (s.wr64 pa v).lost1 = s.lost1 := rfl
@[simp] theorem State.wr64_presscnt (s : State) (pa : Nat) (v : W64) : (s.wr64 pa v).presscnt = s.presscnt := rfl
@[simp] theorem State.wr64_presslen (s : State) (pa : Nat) (v : W64) : (s.wr64 pa v).presslen = s.presslen := rfl
@[simp] theorem State.wr64_presslenNext (s : State) (pa : Nat) (v : W64) : (s.wr64 pa v).presslenNext = s.presslenNext := rfl
@[simp] theorem State.wr64_periodStart (s : State) (pa : Nat) (v : W64) : (s.wr64 pa v).periodStart = s.periodStart := rfl
@[simp] theorem State.wr64_phases (s : State) (pa : Nat) (v : W64) : (s.wr64 pa v).phases = s.phases := rfl
@[simp] theorem State.wr64_lentTok (s : State) (pa : Nat) (v : W64) : (s.wr64 pa v).lentTok = s.lentTok := rfl
@[simp] theorem State.wr64_heldTok (s : State) (pa : Nat) (v : W64) : (s.wr64 pa v).heldTok = s.heldTok := rfl
@[simp] theorem State.wr64_msgs (s : State) (pa : Nat) (v : W64) : (s.wr64 pa v).msgs = s.msgs := rfl
@[simp] theorem State.wr64_stocks (s : State) (pa : Nat) (v : W64) : (s.wr64 pa v).stocks = s.stocks := rfl
@[simp] theorem State.wr64_clears (s : State) (pa : Nat) (v : W64) : (s.wr64 pa v).clears = s.clears := rfl
@[simp] theorem State.wr64_net (s : State) (pa : Nat) (v : W64) : (s.wr64 pa v).net = s.net := rfl
@[simp] theorem State.wr64_places (s : State) (pa : Nat) (v : W64) : (s.wr64 pa v).places = s.places := rfl
@[simp] theorem State.wr64_gangTo (s : State) (pa : Nat) (v : W64) : (s.wr64 pa v).gangTo = s.gangTo := rfl
@[simp] theorem State.wr64_ships (s : State) (pa : Nat) (v : W64) : (s.wr64 pa v).ships = s.ships := rfl
@[simp] theorem State.wr64_colls (s : State) (pa : Nat) (v : W64) : (s.wr64 pa v).colls = s.colls := rfl
@[simp] theorem State.wr64_resp (s : State) (pa : Nat) (v : W64) : (s.wr64 pa v).resp = s.resp := rfl
@[simp] theorem State.wr64_mgmt (s : State) (pa : Nat) (v : W64) : (s.wr64 pa v).mgmt = s.mgmt := rfl
@[simp] theorem State.wr64_rows (s : State) (pa : Nat) (v : W64) : (s.wr64 pa v).rows = s.rows := rfl
@[simp] theorem State.wr64_tripped (s : State) (pa : Nat) (v : W64) : (s.wr64 pa v).tripped = s.tripped := rfl
@[simp] theorem State.wr64_capped (s : State) (pa : Nat) (v : W64) : (s.wr64 pa v).capped = s.capped := rfl
@[simp] theorem State.wr64_cycle (s : State) (pa : Nat) (v : W64) : (s.wr64 pa v).cycle = s.cycle := rfl
@[simp] theorem State.wr64_agenda (s : State) (pa : Nat) (v : W64) : (s.wr64 pa v).agenda = s.agenda := rfl
@[simp] theorem State.wr64_cur (s : State) (pa : Nat) (v : W64) : (s.wr64 pa v).cur = s.cur := rfl
@[simp] theorem State.wr64_free (s : State) (pa : Nat) (v : W64) : (s.wr64 pa v).free = s.free := rfl

/-! ### State.wr32 -/

@[simp] theorem State.wr32_dev (s : State) (pa : Nat) (v : W32) : (s.wr32 pa v).dev = s.dev := rfl
@[simp] theorem State.wr32_boot (s : State) (pa : Nat) (v : W32) : (s.wr32 pa v).boot = s.boot := rfl
@[simp] theorem State.wr32_bootFail (s : State) (pa : Nat) (v : W32) : (s.wr32 pa v).bootFail = s.bootFail := rfl
@[simp] theorem State.wr32_fwVersion (s : State) (pa : Nat) (v : W32) : (s.wr32 pa v).fwVersion = s.fwVersion := rfl
@[simp] theorem State.wr32_fwDigest (s : State) (pa : Nat) (v : W32) : (s.wr32 pa v).fwDigest = s.fwDigest := rfl
@[simp] theorem State.wr32_rollback (s : State) (pa : Nat) (v : W32) : (s.wr32 pa v).rollback = s.rollback := rfl
@[simp] theorem State.wr32_cores (s : State) (pa : Nat) (v : W32) : (s.wr32 pa v).cores = s.cores := rfl
@[simp] theorem State.wr32_ctxs (s : State) (pa : Nat) (v : W32) : (s.wr32 pa v).ctxs = s.ctxs := rfl
@[simp] theorem State.wr32_clusters (s : State) (pa : Nat) (v : W32) : (s.wr32 pa v).clusters = s.clusters := rfl
@[simp] theorem State.wr32_full (s : State) (pa : Nat) (v : W32) : (s.wr32 pa v).full = s.full := rfl
@[simp] theorem State.wr32_poison (s : State) (pa : Nat) (v : W32) : (s.wr32 pa v).poison = s.poison := rfl
@[simp] theorem State.wr32_parks (s : State) (pa : Nat) (v : W32) : (s.wr32 pa v).parks = s.parks := rfl
@[simp] theorem State.wr32_watches (s : State) (pa : Nat) (v : W32) : (s.wr32 pa v).watches = s.watches := rfl
@[simp] theorem State.wr32_copy0 (s : State) (pa : Nat) (v : W32) : (s.wr32 pa v).copy0 = s.copy0 := rfl
@[simp] theorem State.wr32_copy1 (s : State) (pa : Nat) (v : W32) : (s.wr32 pa v).copy1 = s.copy1 := rfl
@[simp] theorem State.wr32_cows (s : State) (pa : Nat) (v : W32) : (s.wr32 pa v).cows = s.cows := rfl
@[simp] theorem State.wr32_launches (s : State) (pa : Nat) (v : W32) : (s.wr32 pa v).launches = s.launches := rfl
@[simp] theorem State.wr32_nextLaunch (s : State) (pa : Nat) (v : W32) : (s.wr32 pa v).nextLaunch = s.nextLaunch := rfl
@[simp] theorem State.wr32_rr (s : State) (pa : Nat) (v : W32) : (s.wr32 pa v).rr = s.rr := rfl
@[simp] theorem State.wr32_resv (s : State) (pa : Nat) (v : W32) : (s.wr32 pa v).resv = s.resv := rfl
@[simp] theorem State.wr32_budget (s : State) (pa : Nat) (v : W32) : (s.wr32 pa v).budget = s.budget := rfl
@[simp] theorem State.wr32_budgetNext (s : State) (pa : Nat) (v : W32) : (s.wr32 pa v).budgetNext = s.budgetNext := rfl
@[simp] theorem State.wr32_used (s : State) (pa : Nat) (v : W32) : (s.wr32 pa v).used = s.used := rfl
@[simp] theorem State.wr32_debt (s : State) (pa : Nat) (v : W32) : (s.wr32 pa v).debt = s.debt := rfl
@[simp] theorem State.wr32_holds (s : State) (pa : Nat) (v : W32) : (s.wr32 pa v).holds = s.holds := rfl
@[simp] theorem State.wr32_slips0 (s : State) (pa : Nat) (v : W32) : (s.wr32 pa v).slips0 = s.slips0 := rfl
@[simp] theorem State.wr32_slips1 (s : State) (pa : Nat) (v : W32) : (s.wr32 pa v).slips1 = s.slips1 := rfl
@[simp] theorem State.wr32_lost0 (s : State) (pa : Nat) (v : W32) : (s.wr32 pa v).lost0 = s.lost0 := rfl
@[simp] theorem State.wr32_lost1 (s : State) (pa : Nat) (v : W32) : (s.wr32 pa v).lost1 = s.lost1 := rfl
@[simp] theorem State.wr32_presscnt (s : State) (pa : Nat) (v : W32) : (s.wr32 pa v).presscnt = s.presscnt := rfl
@[simp] theorem State.wr32_presslen (s : State) (pa : Nat) (v : W32) : (s.wr32 pa v).presslen = s.presslen := rfl
@[simp] theorem State.wr32_presslenNext (s : State) (pa : Nat) (v : W32) : (s.wr32 pa v).presslenNext = s.presslenNext := rfl
@[simp] theorem State.wr32_periodStart (s : State) (pa : Nat) (v : W32) : (s.wr32 pa v).periodStart = s.periodStart := rfl
@[simp] theorem State.wr32_phases (s : State) (pa : Nat) (v : W32) : (s.wr32 pa v).phases = s.phases := rfl
@[simp] theorem State.wr32_lentTok (s : State) (pa : Nat) (v : W32) : (s.wr32 pa v).lentTok = s.lentTok := rfl
@[simp] theorem State.wr32_heldTok (s : State) (pa : Nat) (v : W32) : (s.wr32 pa v).heldTok = s.heldTok := rfl
@[simp] theorem State.wr32_msgs (s : State) (pa : Nat) (v : W32) : (s.wr32 pa v).msgs = s.msgs := rfl
@[simp] theorem State.wr32_stocks (s : State) (pa : Nat) (v : W32) : (s.wr32 pa v).stocks = s.stocks := rfl
@[simp] theorem State.wr32_clears (s : State) (pa : Nat) (v : W32) : (s.wr32 pa v).clears = s.clears := rfl
@[simp] theorem State.wr32_net (s : State) (pa : Nat) (v : W32) : (s.wr32 pa v).net = s.net := rfl
@[simp] theorem State.wr32_places (s : State) (pa : Nat) (v : W32) : (s.wr32 pa v).places = s.places := rfl
@[simp] theorem State.wr32_gangTo (s : State) (pa : Nat) (v : W32) : (s.wr32 pa v).gangTo = s.gangTo := rfl
@[simp] theorem State.wr32_ships (s : State) (pa : Nat) (v : W32) : (s.wr32 pa v).ships = s.ships := rfl
@[simp] theorem State.wr32_colls (s : State) (pa : Nat) (v : W32) : (s.wr32 pa v).colls = s.colls := rfl
@[simp] theorem State.wr32_resp (s : State) (pa : Nat) (v : W32) : (s.wr32 pa v).resp = s.resp := rfl
@[simp] theorem State.wr32_mgmt (s : State) (pa : Nat) (v : W32) : (s.wr32 pa v).mgmt = s.mgmt := rfl
@[simp] theorem State.wr32_rows (s : State) (pa : Nat) (v : W32) : (s.wr32 pa v).rows = s.rows := rfl
@[simp] theorem State.wr32_tripped (s : State) (pa : Nat) (v : W32) : (s.wr32 pa v).tripped = s.tripped := rfl
@[simp] theorem State.wr32_capped (s : State) (pa : Nat) (v : W32) : (s.wr32 pa v).capped = s.capped := rfl
@[simp] theorem State.wr32_cycle (s : State) (pa : Nat) (v : W32) : (s.wr32 pa v).cycle = s.cycle := rfl
@[simp] theorem State.wr32_agenda (s : State) (pa : Nat) (v : W32) : (s.wr32 pa v).agenda = s.agenda := rfl
@[simp] theorem State.wr32_cur (s : State) (pa : Nat) (v : W32) : (s.wr32 pa v).cur = s.cur := rfl
@[simp] theorem State.wr32_free (s : State) (pa : Nat) (v : W32) : (s.wr32 pa v).free = s.free := rfl

/-! ### Core.modStrand -/

@[simp] theorem Core.modStrand_s (k : Core) (st : Strand) (f : StrandSt → StrandSt) : (k.modStrand st f).s = k.s := by cases st <;> rfl
@[simp] theorem Core.modStrand_p (k : Core) (st : Strand) (f : StrandSt → StrandSt) : (k.modStrand st f).p = k.p := by cases st <;> rfl
@[simp] theorem Core.modStrand_h (k : Core) (st : Strand) (f : StrandSt → StrandSt) : (k.modStrand st f).h = k.h := by cases st <;> rfl
@[simp] theorem Core.modStrand_k (k : Core) (st : Strand) (f : StrandSt → StrandSt) : (k.modStrand st f).k = k.k := by cases st <;> rfl
@[simp] theorem Core.modStrand_v (k : Core) (st : Strand) (f : StrandSt → StrandSt) : (k.modStrand st f).v = k.v := by cases st <;> rfl
@[simp] theorem Core.modStrand_vPend (k : Core) (st : Strand) (f : StrandSt → StrandSt) : (k.modStrand st f).vPend = k.vPend := by cases st <;> rfl
@[simp] theorem Core.modStrand_lent (k : Core) (st : Strand) (f : StrandSt → StrandSt) : (k.modStrand st f).lent = k.lent := by cases st <;> rfl
@[simp] theorem Core.modStrand_tq (k : Core) (st : Strand) (f : StrandSt → StrandSt) : (k.modStrand st f).tq = k.tq := by cases st <;> rfl
@[simp] theorem Core.modStrand_tokPoison (k : Core) (st : Strand) (f : StrandSt → StrandSt) : (k.modStrand st f).tokPoison = k.tokPoison := by cases st <;> rfl
@[simp] theorem Core.modStrand_live (k : Core) (st : Strand) (f : StrandSt → StrandSt) : (k.modStrand st f).live = k.live := by cases st <;> rfl
@[simp] theorem Core.modStrand_cell (k : Core) (st : Strand) (f : StrandSt → StrandSt) : (k.modStrand st f).cell = k.cell := by cases st <;> rfl
@[simp] theorem Core.modStrand_mode (k : Core) (st : Strand) (f : StrandSt → StrandSt) : (k.modStrand st f).mode = k.mode := by cases st <;> rfl
@[simp] theorem Core.modStrand_heldS (k : Core) (st : Strand) (f : StrandSt → StrandSt) : (k.modStrand st f).heldS = k.heldS := by cases st <;> rfl
@[simp] theorem Core.modStrand_heldM (k : Core) (st : Strand) (f : StrandSt → StrandSt) : (k.modStrand st f).heldM = k.heldM := by cases st <;> rfl
@[simp] theorem Core.modStrand_shS (k : Core) (st : Strand) (f : StrandSt → StrandSt) : (k.modStrand st f).shS = k.shS := by cases st <;> rfl
@[simp] theorem Core.modStrand_shM (k : Core) (st : Strand) (f : StrandSt → StrandSt) : (k.modStrand st f).shM = k.shM := by cases st <;> rfl
@[simp] theorem Core.modStrand_tl (k : Core) (st : Strand) (f : StrandSt → StrandSt) : (k.modStrand st f).tl = k.tl := by cases st <;> rfl
@[simp] theorem Core.modStrand_ops (k : Core) (st : Strand) (f : StrandSt → StrandSt) : (k.modStrand st f).ops = k.ops := by cases st <;> rfl
@[simp] theorem Core.modStrand_folio (k : Core) (st : Strand) (f : StrandSt → StrandSt) : (k.modStrand st f).folio = k.folio := by cases st <;> rfl
@[simp] theorem Core.modStrand_folioPoison (k : Core) (st : Strand) (f : StrandSt → StrandSt) : (k.modStrand st f).folioPoison = k.folioPoison := by cases st <;> rfl
@[simp] theorem Core.modStrand_gal (k : Core) (st : Strand) (f : StrandSt → StrandSt) : (k.modStrand st f).gal = k.gal := by cases st <;> rfl
@[simp] theorem Core.modStrand_store (k : Core) (st : Strand) (f : StrandSt → StrandSt) : (k.modStrand st f).store = k.store := by cases st <;> rfl
@[simp] theorem Core.modStrand_storePoison (k : Core) (st : Strand) (f : StrandSt → StrandSt) : (k.modStrand st f).storePoison = k.storePoison := by cases st <;> rfl
@[simp] theorem Core.modStrand_pins (k : Core) (st : Strand) (f : StrandSt → StrandSt) : (k.modStrand st f).pins = k.pins := by cases st <;> rfl
@[simp] theorem Core.modStrand_owedWeights (k : Core) (st : Strand) (f : StrandSt → StrandSt) : (k.modStrand st f).owedWeights = k.owedWeights := by cases st <;> rfl
@[simp] theorem Core.modStrand_quarter (k : Core) (st : Strand) (f : StrandSt → StrandSt) : (k.modStrand st f).quarter = k.quarter := by cases st <;> rfl
@[simp] theorem Core.modStrand_mstat (k : Core) (st : Strand) (f : StrandSt → StrandSt) : (k.modStrand st f).mstat = k.mstat := by cases st <;> rfl
@[simp] theorem Core.modStrand_mrowp (k : Core) (st : Strand) (f : StrandSt → StrandSt) : (k.modStrand st f).mrowp = k.mrowp := by cases st <;> rfl
@[simp] theorem Core.modStrand_lease (k : Core) (st : Strand) (f : StrandSt → StrandSt) : (k.modStrand st f).lease = k.lease := by cases st <;> rfl
@[simp] theorem Core.modStrand_trapvec (k : Core) (st : Strand) (f : StrandSt → StrandSt) : (k.modStrand st f).trapvec = k.trapvec := by cases st <;> rfl
@[simp] theorem Core.modStrand_trapcause (k : Core) (st : Strand) (f : StrandSt → StrandSt) : (k.modStrand st f).trapcause = k.trapcause := by cases st <;> rfl
@[simp] theorem Core.modStrand_trappc (k : Core) (st : Strand) (f : StrandSt → StrandSt) : (k.modStrand st f).trappc = k.trappc := by cases st <;> rfl
@[simp] theorem Core.modStrand_trapaddr (k : Core) (st : Strand) (f : StrandSt → StrandSt) : (k.modStrand st f).trapaddr = k.trapaddr := by cases st <;> rfl
@[simp] theorem Core.modStrand_trapinfo (k : Core) (st : Strand) (f : StrandSt → StrandSt) : (k.modStrand st f).trapinfo = k.trapinfo := by cases st <;> rfl
@[simp] theorem Core.modStrand_savedst (k : Core) (st : Strand) (f : StrandSt → StrandSt) : (k.modStrand st f).savedst = k.savedst := by cases st <;> rfl
@[simp] theorem Core.modStrand_monvec (k : Core) (st : Strand) (f : StrandSt → StrandSt) : (k.modStrand st f).monvec = k.monvec := by cases st <;> rfl
@[simp] theorem Core.modStrand_launchid (k : Core) (st : Strand) (f : StrandSt → StrandSt) : (k.modStrand st f).launchid = k.launchid := by cases st <;> rfl
@[simp] theorem Core.modStrand_budcls (k : Core) (st : Strand) (f : StrandSt → StrandSt) : (k.modStrand st f).budcls = k.budcls := by cases st <;> rfl
@[simp] theorem Core.modStrand_dmemb (k : Core) (st : Strand) (f : StrandSt → StrandSt) : (k.modStrand st f).dmemb = k.dmemb := by cases st <;> rfl
@[simp] theorem Core.modStrand_ctxid (k : Core) (st : Strand) (f : StrandSt → StrandSt) : (k.modStrand st f).ctxid = k.ctxid := by cases st <;> rfl
@[simp] theorem Core.modStrand_vfid (k : Core) (st : Strand) (f : StrandSt → StrandSt) : (k.modStrand st f).vfid = k.vfid := by cases st <;> rfl
@[simp] theorem Core.modStrand_ordinal (k : Core) (st : Strand) (f : StrandSt → StrandSt) : (k.modStrand st f).ordinal = k.ordinal := by cases st <;> rfl
@[simp] theorem Core.modStrand_phase (k : Core) (st : Strand) (f : StrandSt → StrandSt) : (k.modStrand st f).phase = k.phase := by cases st <;> rfl
@[simp] theorem Core.modStrand_arrived (k : Core) (st : Strand) (f : StrandSt → StrandSt) : (k.modStrand st f).arrived = k.arrived := by cases st <;> rfl
@[simp] theorem Core.modStrand_notified (k : Core) (st : Strand) (f : StrandSt → StrandSt) : (k.modStrand st f).notified = k.notified := by cases st <;> rfl
@[simp] theorem Core.modStrand_latch (k : Core) (st : Strand) (f : StrandSt → StrandSt) : (k.modStrand st f).latch = k.latch := by cases st <;> rfl
@[simp] theorem Core.modStrand_gang (k : Core) (st : Strand) (f : StrandSt → StrandSt) : (k.modStrand st f).gang = k.gang := by cases st <;> rfl
@[simp] theorem Core.modStrand_lastgen (k : Core) (st : Strand) (f : StrandSt → StrandSt) : (k.modStrand st f).lastgen = k.lastgen := by cases st <;> rfl
@[simp] theorem Core.modStrand_lastimg (k : Core) (st : Strand) (f : StrandSt → StrandSt) : (k.modStrand st f).lastimg = k.lastimg := by cases st <;> rfl
@[simp] theorem Core.modStrand_dirtyV (k : Core) (st : Strand) (f : StrandSt → StrandSt) : (k.modStrand st f).dirtyV = k.dirtyV := by cases st <;> rfl
@[simp] theorem Core.modStrand_dirtyS (k : Core) (st : Strand) (f : StrandSt → StrandSt) : (k.modStrand st f).dirtyS = k.dirtyS := by cases st <;> rfl
@[simp] theorem Core.modStrand_dirtyG (k : Core) (st : Strand) (f : StrandSt → StrandSt) : (k.modStrand st f).dirtyG = k.dirtyG := by cases st <;> rfl
@[simp] theorem Core.modStrand_refused (k : Core) (st : Strand) (f : StrandSt → StrandSt) : (k.modStrand st f).refused = k.refused := by cases st <;> rfl
@[simp] theorem Core.modStrand_stepArm (k : Core) (st : Strand) (f : StrandSt → StrandSt) : (k.modStrand st f).stepArm = k.stepArm := by cases st <;> rfl
@[simp] theorem Core.modStrand_preempted (k : Core) (st : Strand) (f : StrandSt → StrandSt) : (k.modStrand st f).preempted = k.preempted := by cases st <;> rfl
@[simp] theorem Core.modStrand_transit (k : Core) (st : Strand) (f : StrandSt → StrandSt) : (k.modStrand st f).transit = k.transit := by cases st <;> rfl
@[simp] theorem Core.modStrand_origins (k : Core) (st : Strand) (f : StrandSt → StrandSt) : (k.modStrand st f).origins = k.origins := by cases st <;> rfl
@[simp] theorem Core.modStrand_raised (k : Core) (st : Strand) (f : StrandSt → StrandSt) : (k.modStrand st f).raised = k.raised := by cases st <;> rfl
@[simp] theorem Core.modStrand_stores (k : Core) (st : Strand) (f : StrandSt → StrandSt) : (k.modStrand st f).stores = k.stores := by cases st <;> rfl
@[simp] theorem Core.modStrand_loads (k : Core) (st : Strand) (f : StrandSt → StrandSt) : (k.modStrand st f).loads = k.loads := by cases st <;> rfl
@[simp] theorem Core.modStrand_dc (k : Core) (st : Strand) (f : StrandSt → StrandSt) : (k.modStrand st f).dc = k.dc := by cases st <;> rfl
@[simp] theorem Core.modStrand_btb (k : Core) (st : Strand) (f : StrandSt → StrandSt) : (k.modStrand st f).btb = k.btb := by cases st <;> rfl
@[simp] theorem Core.modStrand_tlb (k : Core) (st : Strand) (f : StrandSt → StrandSt) : (k.modStrand st f).tlb = k.tlb := by cases st <;> rfl
@[simp] theorem Core.modStrand_wends (k : Core) (st : Strand) (f : StrandSt → StrandSt) : (k.modStrand st f).wends = k.wends := by cases st <;> rfl
@[simp] theorem Core.modStrand_rends (k : Core) (st : Strand) (f : StrandSt → StrandSt) : (k.modStrand st f).rends = k.rends := by cases st <;> rfl
@[simp] theorem Core.modStrand_wallowOut (k : Core) (st : Strand) (f : StrandSt → StrandSt) : (k.modStrand st f).wallowOut = k.wallowOut := by cases st <;> rfl
@[simp] theorem Core.modStrand_rascnt (k : Core) (st : Strand) (f : StrandSt → StrandSt) : (k.modStrand st f).rascnt = k.rascnt := by cases st <;> rfl
@[simp] theorem Core.modStrand_raswin (k : Core) (st : Strand) (f : StrandSt → StrandSt) : (k.modStrand st f).raswin = k.raswin := by cases st <;> rfl
@[simp] theorem Core.modStrand_raswinNext (k : Core) (st : Strand) (f : StrandSt → StrandSt) : (k.modStrand st f).raswinNext = k.raswinNext := by cases st <;> rfl
@[simp] theorem Core.modStrand_winStart (k : Core) (st : Strand) (f : StrandSt → StrandSt) : (k.modStrand st f).winStart = k.winStart := by cases st <;> rfl
@[simp] theorem Core.modStrand_rasthr (k : Core) (st : Strand) (f : StrandSt → StrandSt) : (k.modStrand st f).rasthr = k.rasthr := by cases st <;> rfl
@[simp] theorem Core.modStrand_bankCnt (k : Core) (st : Strand) (f : StrandSt → StrandSt) : (k.modStrand st f).bankCnt = k.bankCnt := by cases st <;> rfl
@[simp] theorem Core.modStrand_withdrawn (k : Core) (st : Strand) (f : StrandSt → StrandSt) : (k.modStrand st f).withdrawn = k.withdrawn := by cases st <;> rfl
@[simp] theorem Core.modStrand_freeze (k : Core) (st : Strand) (f : StrandSt → StrandSt) : (k.modStrand st f).freeze = k.freeze := by cases st <;> rfl
@[simp] theorem Core.modStrand_out (k : Core) (st : Strand) (f : StrandSt → StrandSt) : (k.modStrand st f).out = k.out := by cases st <;> rfl
@[simp] theorem Core.modStrand_stopped (k : Core) (st : Strand) (f : StrandSt → StrandSt) : (k.modStrand st f).stopped = k.stopped := by cases st <;> rfl

/-! ### Core.wS -/

@[simp] theorem Core.wS_ctl (k : Core) (r : BitVec 6) (v : W64) : (k.wS r v).ctl = k.ctl := by unfold Core.wS; split <;> rfl
@[simp] theorem Core.wS_fet (k : Core) (r : BitVec 6) (v : W64) : (k.wS r v).fet = k.fet := by unfold Core.wS; split <;> rfl
@[simp] theorem Core.wS_exe (k : Core) (r : BitVec 6) (v : W64) : (k.wS r v).exe = k.exe := by unfold Core.wS; split <;> rfl
@[simp] theorem Core.wS_emi (k : Core) (r : BitVec 6) (v : W64) : (k.wS r v).emi = k.emi := by unfold Core.wS; split <;> rfl
@[simp] theorem Core.wS_p (k : Core) (r : BitVec 6) (v : W64) : (k.wS r v).p = k.p := by unfold Core.wS; split <;> rfl
@[simp] theorem Core.wS_h (k : Core) (r : BitVec 6) (v : W64) : (k.wS r v).h = k.h := by unfold Core.wS; split <;> rfl
@[simp] theorem Core.wS_k (k : Core) (r : BitVec 6) (v : W64) : (k.wS r v).k = k.k := by unfold Core.wS; split <;> rfl
@[simp] theorem Core.wS_v (k : Core) (r : BitVec 6) (v : W64) : (k.wS r v).v = k.v := by unfold Core.wS; split <;> rfl
@[simp] theorem Core.wS_vPend (k : Core) (r : BitVec 6) (v : W64) : (k.wS r v).vPend = k.vPend := by unfold Core.wS; split <;> rfl
@[simp] theorem Core.wS_lent (k : Core) (r : BitVec 6) (v : W64) : (k.wS r v).lent = k.lent := by unfold Core.wS; split <;> rfl
@[simp] theorem Core.wS_tq (k : Core) (r : BitVec 6) (v : W64) : (k.wS r v).tq = k.tq := by unfold Core.wS; split <;> rfl
@[simp] theorem Core.wS_tokPoison (k : Core) (r : BitVec 6) (v : W64) : (k.wS r v).tokPoison = k.tokPoison := by unfold Core.wS; split <;> rfl
@[simp] theorem Core.wS_live (k : Core) (r : BitVec 6) (v : W64) : (k.wS r v).live = k.live := by unfold Core.wS; split <;> rfl
@[simp] theorem Core.wS_cell (k : Core) (r : BitVec 6) (v : W64) : (k.wS r v).cell = k.cell := by unfold Core.wS; split <;> rfl
@[simp] theorem Core.wS_mode (k : Core) (r : BitVec 6) (v : W64) : (k.wS r v).mode = k.mode := by unfold Core.wS; split <;> rfl
@[simp] theorem Core.wS_heldS (k : Core) (r : BitVec 6) (v : W64) : (k.wS r v).heldS = k.heldS := by unfold Core.wS; split <;> rfl
@[simp] theorem Core.wS_heldM (k : Core) (r : BitVec 6) (v : W64) : (k.wS r v).heldM = k.heldM := by unfold Core.wS; split <;> rfl
@[simp] theorem Core.wS_shS (k : Core) (r : BitVec 6) (v : W64) : (k.wS r v).shS = k.shS := by unfold Core.wS; split <;> rfl
@[simp] theorem Core.wS_shM (k : Core) (r : BitVec 6) (v : W64) : (k.wS r v).shM = k.shM := by unfold Core.wS; split <;> rfl
@[simp] theorem Core.wS_tl (k : Core) (r : BitVec 6) (v : W64) : (k.wS r v).tl = k.tl := by unfold Core.wS; split <;> rfl
@[simp] theorem Core.wS_ops (k : Core) (r : BitVec 6) (v : W64) : (k.wS r v).ops = k.ops := by unfold Core.wS; split <;> rfl
@[simp] theorem Core.wS_folio (k : Core) (r : BitVec 6) (v : W64) : (k.wS r v).folio = k.folio := by unfold Core.wS; split <;> rfl
@[simp] theorem Core.wS_folioPoison (k : Core) (r : BitVec 6) (v : W64) : (k.wS r v).folioPoison = k.folioPoison := by unfold Core.wS; split <;> rfl
@[simp] theorem Core.wS_gal (k : Core) (r : BitVec 6) (v : W64) : (k.wS r v).gal = k.gal := by unfold Core.wS; split <;> rfl
@[simp] theorem Core.wS_store (k : Core) (r : BitVec 6) (v : W64) : (k.wS r v).store = k.store := by unfold Core.wS; split <;> rfl
@[simp] theorem Core.wS_storePoison (k : Core) (r : BitVec 6) (v : W64) : (k.wS r v).storePoison = k.storePoison := by unfold Core.wS; split <;> rfl
@[simp] theorem Core.wS_pins (k : Core) (r : BitVec 6) (v : W64) : (k.wS r v).pins = k.pins := by unfold Core.wS; split <;> rfl
@[simp] theorem Core.wS_owedWeights (k : Core) (r : BitVec 6) (v : W64) : (k.wS r v).owedWeights = k.owedWeights := by unfold Core.wS; split <;> rfl
@[simp] theorem Core.wS_quarter (k : Core) (r : BitVec 6) (v : W64) : (k.wS r v).quarter = k.quarter := by unfold Core.wS; split <;> rfl
@[simp] theorem Core.wS_mstat (k : Core) (r : BitVec 6) (v : W64) : (k.wS r v).mstat = k.mstat := by unfold Core.wS; split <;> rfl
@[simp] theorem Core.wS_mrowp (k : Core) (r : BitVec 6) (v : W64) : (k.wS r v).mrowp = k.mrowp := by unfold Core.wS; split <;> rfl
@[simp] theorem Core.wS_lease (k : Core) (r : BitVec 6) (v : W64) : (k.wS r v).lease = k.lease := by unfold Core.wS; split <;> rfl
@[simp] theorem Core.wS_trapvec (k : Core) (r : BitVec 6) (v : W64) : (k.wS r v).trapvec = k.trapvec := by unfold Core.wS; split <;> rfl
@[simp] theorem Core.wS_trapcause (k : Core) (r : BitVec 6) (v : W64) : (k.wS r v).trapcause = k.trapcause := by unfold Core.wS; split <;> rfl
@[simp] theorem Core.wS_trappc (k : Core) (r : BitVec 6) (v : W64) : (k.wS r v).trappc = k.trappc := by unfold Core.wS; split <;> rfl
@[simp] theorem Core.wS_trapaddr (k : Core) (r : BitVec 6) (v : W64) : (k.wS r v).trapaddr = k.trapaddr := by unfold Core.wS; split <;> rfl
@[simp] theorem Core.wS_trapinfo (k : Core) (r : BitVec 6) (v : W64) : (k.wS r v).trapinfo = k.trapinfo := by unfold Core.wS; split <;> rfl
@[simp] theorem Core.wS_savedst (k : Core) (r : BitVec 6) (v : W64) : (k.wS r v).savedst = k.savedst := by unfold Core.wS; split <;> rfl
@[simp] theorem Core.wS_monvec (k : Core) (r : BitVec 6) (v : W64) : (k.wS r v).monvec = k.monvec := by unfold Core.wS; split <;> rfl
@[simp] theorem Core.wS_launchid (k : Core) (r : BitVec 6) (v : W64) : (k.wS r v).launchid = k.launchid := by unfold Core.wS; split <;> rfl
@[simp] theorem Core.wS_budcls (k : Core) (r : BitVec 6) (v : W64) : (k.wS r v).budcls = k.budcls := by unfold Core.wS; split <;> rfl
@[simp] theorem Core.wS_dmemb (k : Core) (r : BitVec 6) (v : W64) : (k.wS r v).dmemb = k.dmemb := by unfold Core.wS; split <;> rfl
@[simp] theorem Core.wS_ctxid (k : Core) (r : BitVec 6) (v : W64) : (k.wS r v).ctxid = k.ctxid := by unfold Core.wS; split <;> rfl
@[simp] theorem Core.wS_vfid (k : Core) (r : BitVec 6) (v : W64) : (k.wS r v).vfid = k.vfid := by unfold Core.wS; split <;> rfl
@[simp] theorem Core.wS_ordinal (k : Core) (r : BitVec 6) (v : W64) : (k.wS r v).ordinal = k.ordinal := by unfold Core.wS; split <;> rfl
@[simp] theorem Core.wS_phase (k : Core) (r : BitVec 6) (v : W64) : (k.wS r v).phase = k.phase := by unfold Core.wS; split <;> rfl
@[simp] theorem Core.wS_arrived (k : Core) (r : BitVec 6) (v : W64) : (k.wS r v).arrived = k.arrived := by unfold Core.wS; split <;> rfl
@[simp] theorem Core.wS_notified (k : Core) (r : BitVec 6) (v : W64) : (k.wS r v).notified = k.notified := by unfold Core.wS; split <;> rfl
@[simp] theorem Core.wS_latch (k : Core) (r : BitVec 6) (v : W64) : (k.wS r v).latch = k.latch := by unfold Core.wS; split <;> rfl
@[simp] theorem Core.wS_gang (k : Core) (r : BitVec 6) (v : W64) : (k.wS r v).gang = k.gang := by unfold Core.wS; split <;> rfl
@[simp] theorem Core.wS_lastgen (k : Core) (r : BitVec 6) (v : W64) : (k.wS r v).lastgen = k.lastgen := by unfold Core.wS; split <;> rfl
@[simp] theorem Core.wS_lastimg (k : Core) (r : BitVec 6) (v : W64) : (k.wS r v).lastimg = k.lastimg := by unfold Core.wS; split <;> rfl
@[simp] theorem Core.wS_dirtyV (k : Core) (r : BitVec 6) (v : W64) : (k.wS r v).dirtyV = k.dirtyV := by unfold Core.wS; split <;> rfl
@[simp] theorem Core.wS_dirtyS (k : Core) (r : BitVec 6) (v : W64) : (k.wS r v).dirtyS = k.dirtyS := by unfold Core.wS; split <;> rfl
@[simp] theorem Core.wS_dirtyG (k : Core) (r : BitVec 6) (v : W64) : (k.wS r v).dirtyG = k.dirtyG := by unfold Core.wS; split <;> rfl
@[simp] theorem Core.wS_refused (k : Core) (r : BitVec 6) (v : W64) : (k.wS r v).refused = k.refused := by unfold Core.wS; split <;> rfl
@[simp] theorem Core.wS_stepArm (k : Core) (r : BitVec 6) (v : W64) : (k.wS r v).stepArm = k.stepArm := by unfold Core.wS; split <;> rfl
@[simp] theorem Core.wS_preempted (k : Core) (r : BitVec 6) (v : W64) : (k.wS r v).preempted = k.preempted := by unfold Core.wS; split <;> rfl
@[simp] theorem Core.wS_transit (k : Core) (r : BitVec 6) (v : W64) : (k.wS r v).transit = k.transit := by unfold Core.wS; split <;> rfl
@[simp] theorem Core.wS_origins (k : Core) (r : BitVec 6) (v : W64) : (k.wS r v).origins = k.origins := by unfold Core.wS; split <;> rfl
@[simp] theorem Core.wS_raised (k : Core) (r : BitVec 6) (v : W64) : (k.wS r v).raised = k.raised := by unfold Core.wS; split <;> rfl
@[simp] theorem Core.wS_stores (k : Core) (r : BitVec 6) (v : W64) : (k.wS r v).stores = k.stores := by unfold Core.wS; split <;> rfl
@[simp] theorem Core.wS_loads (k : Core) (r : BitVec 6) (v : W64) : (k.wS r v).loads = k.loads := by unfold Core.wS; split <;> rfl
@[simp] theorem Core.wS_dc (k : Core) (r : BitVec 6) (v : W64) : (k.wS r v).dc = k.dc := by unfold Core.wS; split <;> rfl
@[simp] theorem Core.wS_btb (k : Core) (r : BitVec 6) (v : W64) : (k.wS r v).btb = k.btb := by unfold Core.wS; split <;> rfl
@[simp] theorem Core.wS_tlb (k : Core) (r : BitVec 6) (v : W64) : (k.wS r v).tlb = k.tlb := by unfold Core.wS; split <;> rfl
@[simp] theorem Core.wS_wends (k : Core) (r : BitVec 6) (v : W64) : (k.wS r v).wends = k.wends := by unfold Core.wS; split <;> rfl
@[simp] theorem Core.wS_rends (k : Core) (r : BitVec 6) (v : W64) : (k.wS r v).rends = k.rends := by unfold Core.wS; split <;> rfl
@[simp] theorem Core.wS_wallowOut (k : Core) (r : BitVec 6) (v : W64) : (k.wS r v).wallowOut = k.wallowOut := by unfold Core.wS; split <;> rfl
@[simp] theorem Core.wS_rascnt (k : Core) (r : BitVec 6) (v : W64) : (k.wS r v).rascnt = k.rascnt := by unfold Core.wS; split <;> rfl
@[simp] theorem Core.wS_raswin (k : Core) (r : BitVec 6) (v : W64) : (k.wS r v).raswin = k.raswin := by unfold Core.wS; split <;> rfl
@[simp] theorem Core.wS_raswinNext (k : Core) (r : BitVec 6) (v : W64) : (k.wS r v).raswinNext = k.raswinNext := by unfold Core.wS; split <;> rfl
@[simp] theorem Core.wS_winStart (k : Core) (r : BitVec 6) (v : W64) : (k.wS r v).winStart = k.winStart := by unfold Core.wS; split <;> rfl
@[simp] theorem Core.wS_rasthr (k : Core) (r : BitVec 6) (v : W64) : (k.wS r v).rasthr = k.rasthr := by unfold Core.wS; split <;> rfl
@[simp] theorem Core.wS_bankCnt (k : Core) (r : BitVec 6) (v : W64) : (k.wS r v).bankCnt = k.bankCnt := by unfold Core.wS; split <;> rfl
@[simp] theorem Core.wS_withdrawn (k : Core) (r : BitVec 6) (v : W64) : (k.wS r v).withdrawn = k.withdrawn := by unfold Core.wS; split <;> rfl
@[simp] theorem Core.wS_freeze (k : Core) (r : BitVec 6) (v : W64) : (k.wS r v).freeze = k.freeze := by unfold Core.wS; split <;> rfl
@[simp] theorem Core.wS_out (k : Core) (r : BitVec 6) (v : W64) : (k.wS r v).out = k.out := by unfold Core.wS; split <;> rfl
@[simp] theorem Core.wS_stopped (k : Core) (r : BitVec 6) (v : W64) : (k.wS r v).stopped = k.stopped := by unfold Core.wS; split <;> rfl

/-! ### Core.wP -/

@[simp] theorem Core.wP_ctl (k : Core) (r : BitVec 3) (v : Bool) : (k.wP r v).ctl = k.ctl := by unfold Core.wP; split <;> rfl
@[simp] theorem Core.wP_fet (k : Core) (r : BitVec 3) (v : Bool) : (k.wP r v).fet = k.fet := by unfold Core.wP; split <;> rfl
@[simp] theorem Core.wP_exe (k : Core) (r : BitVec 3) (v : Bool) : (k.wP r v).exe = k.exe := by unfold Core.wP; split <;> rfl
@[simp] theorem Core.wP_emi (k : Core) (r : BitVec 3) (v : Bool) : (k.wP r v).emi = k.emi := by unfold Core.wP; split <;> rfl
@[simp] theorem Core.wP_s (k : Core) (r : BitVec 3) (v : Bool) : (k.wP r v).s = k.s := by unfold Core.wP; split <;> rfl
@[simp] theorem Core.wP_h (k : Core) (r : BitVec 3) (v : Bool) : (k.wP r v).h = k.h := by unfold Core.wP; split <;> rfl
@[simp] theorem Core.wP_k (k : Core) (r : BitVec 3) (v : Bool) : (k.wP r v).k = k.k := by unfold Core.wP; split <;> rfl
@[simp] theorem Core.wP_v (k : Core) (r : BitVec 3) (v : Bool) : (k.wP r v).v = k.v := by unfold Core.wP; split <;> rfl
@[simp] theorem Core.wP_vPend (k : Core) (r : BitVec 3) (v : Bool) : (k.wP r v).vPend = k.vPend := by unfold Core.wP; split <;> rfl
@[simp] theorem Core.wP_lent (k : Core) (r : BitVec 3) (v : Bool) : (k.wP r v).lent = k.lent := by unfold Core.wP; split <;> rfl
@[simp] theorem Core.wP_tq (k : Core) (r : BitVec 3) (v : Bool) : (k.wP r v).tq = k.tq := by unfold Core.wP; split <;> rfl
@[simp] theorem Core.wP_tokPoison (k : Core) (r : BitVec 3) (v : Bool) : (k.wP r v).tokPoison = k.tokPoison := by unfold Core.wP; split <;> rfl
@[simp] theorem Core.wP_live (k : Core) (r : BitVec 3) (v : Bool) : (k.wP r v).live = k.live := by unfold Core.wP; split <;> rfl
@[simp] theorem Core.wP_cell (k : Core) (r : BitVec 3) (v : Bool) : (k.wP r v).cell = k.cell := by unfold Core.wP; split <;> rfl
@[simp] theorem Core.wP_mode (k : Core) (r : BitVec 3) (v : Bool) : (k.wP r v).mode = k.mode := by unfold Core.wP; split <;> rfl
@[simp] theorem Core.wP_heldS (k : Core) (r : BitVec 3) (v : Bool) : (k.wP r v).heldS = k.heldS := by unfold Core.wP; split <;> rfl
@[simp] theorem Core.wP_heldM (k : Core) (r : BitVec 3) (v : Bool) : (k.wP r v).heldM = k.heldM := by unfold Core.wP; split <;> rfl
@[simp] theorem Core.wP_shS (k : Core) (r : BitVec 3) (v : Bool) : (k.wP r v).shS = k.shS := by unfold Core.wP; split <;> rfl
@[simp] theorem Core.wP_shM (k : Core) (r : BitVec 3) (v : Bool) : (k.wP r v).shM = k.shM := by unfold Core.wP; split <;> rfl
@[simp] theorem Core.wP_tl (k : Core) (r : BitVec 3) (v : Bool) : (k.wP r v).tl = k.tl := by unfold Core.wP; split <;> rfl
@[simp] theorem Core.wP_ops (k : Core) (r : BitVec 3) (v : Bool) : (k.wP r v).ops = k.ops := by unfold Core.wP; split <;> rfl
@[simp] theorem Core.wP_folio (k : Core) (r : BitVec 3) (v : Bool) : (k.wP r v).folio = k.folio := by unfold Core.wP; split <;> rfl
@[simp] theorem Core.wP_folioPoison (k : Core) (r : BitVec 3) (v : Bool) : (k.wP r v).folioPoison = k.folioPoison := by unfold Core.wP; split <;> rfl
@[simp] theorem Core.wP_gal (k : Core) (r : BitVec 3) (v : Bool) : (k.wP r v).gal = k.gal := by unfold Core.wP; split <;> rfl
@[simp] theorem Core.wP_store (k : Core) (r : BitVec 3) (v : Bool) : (k.wP r v).store = k.store := by unfold Core.wP; split <;> rfl
@[simp] theorem Core.wP_storePoison (k : Core) (r : BitVec 3) (v : Bool) : (k.wP r v).storePoison = k.storePoison := by unfold Core.wP; split <;> rfl
@[simp] theorem Core.wP_pins (k : Core) (r : BitVec 3) (v : Bool) : (k.wP r v).pins = k.pins := by unfold Core.wP; split <;> rfl
@[simp] theorem Core.wP_owedWeights (k : Core) (r : BitVec 3) (v : Bool) : (k.wP r v).owedWeights = k.owedWeights := by unfold Core.wP; split <;> rfl
@[simp] theorem Core.wP_quarter (k : Core) (r : BitVec 3) (v : Bool) : (k.wP r v).quarter = k.quarter := by unfold Core.wP; split <;> rfl
@[simp] theorem Core.wP_mstat (k : Core) (r : BitVec 3) (v : Bool) : (k.wP r v).mstat = k.mstat := by unfold Core.wP; split <;> rfl
@[simp] theorem Core.wP_mrowp (k : Core) (r : BitVec 3) (v : Bool) : (k.wP r v).mrowp = k.mrowp := by unfold Core.wP; split <;> rfl
@[simp] theorem Core.wP_lease (k : Core) (r : BitVec 3) (v : Bool) : (k.wP r v).lease = k.lease := by unfold Core.wP; split <;> rfl
@[simp] theorem Core.wP_trapvec (k : Core) (r : BitVec 3) (v : Bool) : (k.wP r v).trapvec = k.trapvec := by unfold Core.wP; split <;> rfl
@[simp] theorem Core.wP_trapcause (k : Core) (r : BitVec 3) (v : Bool) : (k.wP r v).trapcause = k.trapcause := by unfold Core.wP; split <;> rfl
@[simp] theorem Core.wP_trappc (k : Core) (r : BitVec 3) (v : Bool) : (k.wP r v).trappc = k.trappc := by unfold Core.wP; split <;> rfl
@[simp] theorem Core.wP_trapaddr (k : Core) (r : BitVec 3) (v : Bool) : (k.wP r v).trapaddr = k.trapaddr := by unfold Core.wP; split <;> rfl
@[simp] theorem Core.wP_trapinfo (k : Core) (r : BitVec 3) (v : Bool) : (k.wP r v).trapinfo = k.trapinfo := by unfold Core.wP; split <;> rfl
@[simp] theorem Core.wP_savedst (k : Core) (r : BitVec 3) (v : Bool) : (k.wP r v).savedst = k.savedst := by unfold Core.wP; split <;> rfl
@[simp] theorem Core.wP_monvec (k : Core) (r : BitVec 3) (v : Bool) : (k.wP r v).monvec = k.monvec := by unfold Core.wP; split <;> rfl
@[simp] theorem Core.wP_launchid (k : Core) (r : BitVec 3) (v : Bool) : (k.wP r v).launchid = k.launchid := by unfold Core.wP; split <;> rfl
@[simp] theorem Core.wP_budcls (k : Core) (r : BitVec 3) (v : Bool) : (k.wP r v).budcls = k.budcls := by unfold Core.wP; split <;> rfl
@[simp] theorem Core.wP_dmemb (k : Core) (r : BitVec 3) (v : Bool) : (k.wP r v).dmemb = k.dmemb := by unfold Core.wP; split <;> rfl
@[simp] theorem Core.wP_ctxid (k : Core) (r : BitVec 3) (v : Bool) : (k.wP r v).ctxid = k.ctxid := by unfold Core.wP; split <;> rfl
@[simp] theorem Core.wP_vfid (k : Core) (r : BitVec 3) (v : Bool) : (k.wP r v).vfid = k.vfid := by unfold Core.wP; split <;> rfl
@[simp] theorem Core.wP_ordinal (k : Core) (r : BitVec 3) (v : Bool) : (k.wP r v).ordinal = k.ordinal := by unfold Core.wP; split <;> rfl
@[simp] theorem Core.wP_phase (k : Core) (r : BitVec 3) (v : Bool) : (k.wP r v).phase = k.phase := by unfold Core.wP; split <;> rfl
@[simp] theorem Core.wP_arrived (k : Core) (r : BitVec 3) (v : Bool) : (k.wP r v).arrived = k.arrived := by unfold Core.wP; split <;> rfl
@[simp] theorem Core.wP_notified (k : Core) (r : BitVec 3) (v : Bool) : (k.wP r v).notified = k.notified := by unfold Core.wP; split <;> rfl
@[simp] theorem Core.wP_latch (k : Core) (r : BitVec 3) (v : Bool) : (k.wP r v).latch = k.latch := by unfold Core.wP; split <;> rfl
@[simp] theorem Core.wP_gang (k : Core) (r : BitVec 3) (v : Bool) : (k.wP r v).gang = k.gang := by unfold Core.wP; split <;> rfl
@[simp] theorem Core.wP_lastgen (k : Core) (r : BitVec 3) (v : Bool) : (k.wP r v).lastgen = k.lastgen := by unfold Core.wP; split <;> rfl
@[simp] theorem Core.wP_lastimg (k : Core) (r : BitVec 3) (v : Bool) : (k.wP r v).lastimg = k.lastimg := by unfold Core.wP; split <;> rfl
@[simp] theorem Core.wP_dirtyV (k : Core) (r : BitVec 3) (v : Bool) : (k.wP r v).dirtyV = k.dirtyV := by unfold Core.wP; split <;> rfl
@[simp] theorem Core.wP_dirtyS (k : Core) (r : BitVec 3) (v : Bool) : (k.wP r v).dirtyS = k.dirtyS := by unfold Core.wP; split <;> rfl
@[simp] theorem Core.wP_dirtyG (k : Core) (r : BitVec 3) (v : Bool) : (k.wP r v).dirtyG = k.dirtyG := by unfold Core.wP; split <;> rfl
@[simp] theorem Core.wP_refused (k : Core) (r : BitVec 3) (v : Bool) : (k.wP r v).refused = k.refused := by unfold Core.wP; split <;> rfl
@[simp] theorem Core.wP_stepArm (k : Core) (r : BitVec 3) (v : Bool) : (k.wP r v).stepArm = k.stepArm := by unfold Core.wP; split <;> rfl
@[simp] theorem Core.wP_preempted (k : Core) (r : BitVec 3) (v : Bool) : (k.wP r v).preempted = k.preempted := by unfold Core.wP; split <;> rfl
@[simp] theorem Core.wP_transit (k : Core) (r : BitVec 3) (v : Bool) : (k.wP r v).transit = k.transit := by unfold Core.wP; split <;> rfl
@[simp] theorem Core.wP_origins (k : Core) (r : BitVec 3) (v : Bool) : (k.wP r v).origins = k.origins := by unfold Core.wP; split <;> rfl
@[simp] theorem Core.wP_raised (k : Core) (r : BitVec 3) (v : Bool) : (k.wP r v).raised = k.raised := by unfold Core.wP; split <;> rfl
@[simp] theorem Core.wP_stores (k : Core) (r : BitVec 3) (v : Bool) : (k.wP r v).stores = k.stores := by unfold Core.wP; split <;> rfl
@[simp] theorem Core.wP_loads (k : Core) (r : BitVec 3) (v : Bool) : (k.wP r v).loads = k.loads := by unfold Core.wP; split <;> rfl
@[simp] theorem Core.wP_dc (k : Core) (r : BitVec 3) (v : Bool) : (k.wP r v).dc = k.dc := by unfold Core.wP; split <;> rfl
@[simp] theorem Core.wP_btb (k : Core) (r : BitVec 3) (v : Bool) : (k.wP r v).btb = k.btb := by unfold Core.wP; split <;> rfl
@[simp] theorem Core.wP_tlb (k : Core) (r : BitVec 3) (v : Bool) : (k.wP r v).tlb = k.tlb := by unfold Core.wP; split <;> rfl
@[simp] theorem Core.wP_wends (k : Core) (r : BitVec 3) (v : Bool) : (k.wP r v).wends = k.wends := by unfold Core.wP; split <;> rfl
@[simp] theorem Core.wP_rends (k : Core) (r : BitVec 3) (v : Bool) : (k.wP r v).rends = k.rends := by unfold Core.wP; split <;> rfl
@[simp] theorem Core.wP_wallowOut (k : Core) (r : BitVec 3) (v : Bool) : (k.wP r v).wallowOut = k.wallowOut := by unfold Core.wP; split <;> rfl
@[simp] theorem Core.wP_rascnt (k : Core) (r : BitVec 3) (v : Bool) : (k.wP r v).rascnt = k.rascnt := by unfold Core.wP; split <;> rfl
@[simp] theorem Core.wP_raswin (k : Core) (r : BitVec 3) (v : Bool) : (k.wP r v).raswin = k.raswin := by unfold Core.wP; split <;> rfl
@[simp] theorem Core.wP_raswinNext (k : Core) (r : BitVec 3) (v : Bool) : (k.wP r v).raswinNext = k.raswinNext := by unfold Core.wP; split <;> rfl
@[simp] theorem Core.wP_winStart (k : Core) (r : BitVec 3) (v : Bool) : (k.wP r v).winStart = k.winStart := by unfold Core.wP; split <;> rfl
@[simp] theorem Core.wP_rasthr (k : Core) (r : BitVec 3) (v : Bool) : (k.wP r v).rasthr = k.rasthr := by unfold Core.wP; split <;> rfl
@[simp] theorem Core.wP_bankCnt (k : Core) (r : BitVec 3) (v : Bool) : (k.wP r v).bankCnt = k.bankCnt := by unfold Core.wP; split <;> rfl
@[simp] theorem Core.wP_withdrawn (k : Core) (r : BitVec 3) (v : Bool) : (k.wP r v).withdrawn = k.withdrawn := by unfold Core.wP; split <;> rfl
@[simp] theorem Core.wP_freeze (k : Core) (r : BitVec 3) (v : Bool) : (k.wP r v).freeze = k.freeze := by unfold Core.wP; split <;> rfl
@[simp] theorem Core.wP_out (k : Core) (r : BitVec 3) (v : Bool) : (k.wP r v).out = k.out := by unfold Core.wP; split <;> rfl
@[simp] theorem Core.wP_stopped (k : Core) (r : BitVec 3) (v : Bool) : (k.wP r v).stopped = k.stopped := by unfold Core.wP; split <;> rfl

/-! ### Core.wH -/

@[simp] theorem Core.wH_ctl (k : Core) (r : BitVec 6) (v : W64) : (k.wH r v).ctl = k.ctl := by unfold Core.wH; split <;> rfl
@[simp] theorem Core.wH_fet (k : Core) (r : BitVec 6) (v : W64) : (k.wH r v).fet = k.fet := by unfold Core.wH; split <;> rfl
@[simp] theorem Core.wH_exe (k : Core) (r : BitVec 6) (v : W64) : (k.wH r v).exe = k.exe := by unfold Core.wH; split <;> rfl
@[simp] theorem Core.wH_emi (k : Core) (r : BitVec 6) (v : W64) : (k.wH r v).emi = k.emi := by unfold Core.wH; split <;> rfl
@[simp] theorem Core.wH_s (k : Core) (r : BitVec 6) (v : W64) : (k.wH r v).s = k.s := by unfold Core.wH; split <;> rfl
@[simp] theorem Core.wH_p (k : Core) (r : BitVec 6) (v : W64) : (k.wH r v).p = k.p := by unfold Core.wH; split <;> rfl
@[simp] theorem Core.wH_k (k : Core) (r : BitVec 6) (v : W64) : (k.wH r v).k = k.k := by unfold Core.wH; split <;> rfl
@[simp] theorem Core.wH_v (k : Core) (r : BitVec 6) (v : W64) : (k.wH r v).v = k.v := by unfold Core.wH; split <;> rfl
@[simp] theorem Core.wH_vPend (k : Core) (r : BitVec 6) (v : W64) : (k.wH r v).vPend = k.vPend := by unfold Core.wH; split <;> rfl
@[simp] theorem Core.wH_lent (k : Core) (r : BitVec 6) (v : W64) : (k.wH r v).lent = k.lent := by unfold Core.wH; split <;> rfl
@[simp] theorem Core.wH_tq (k : Core) (r : BitVec 6) (v : W64) : (k.wH r v).tq = k.tq := by unfold Core.wH; split <;> rfl
@[simp] theorem Core.wH_tokPoison (k : Core) (r : BitVec 6) (v : W64) : (k.wH r v).tokPoison = k.tokPoison := by unfold Core.wH; split <;> rfl
@[simp] theorem Core.wH_live (k : Core) (r : BitVec 6) (v : W64) : (k.wH r v).live = k.live := by unfold Core.wH; split <;> rfl
@[simp] theorem Core.wH_cell (k : Core) (r : BitVec 6) (v : W64) : (k.wH r v).cell = k.cell := by unfold Core.wH; split <;> rfl
@[simp] theorem Core.wH_mode (k : Core) (r : BitVec 6) (v : W64) : (k.wH r v).mode = k.mode := by unfold Core.wH; split <;> rfl
@[simp] theorem Core.wH_heldS (k : Core) (r : BitVec 6) (v : W64) : (k.wH r v).heldS = k.heldS := by unfold Core.wH; split <;> rfl
@[simp] theorem Core.wH_heldM (k : Core) (r : BitVec 6) (v : W64) : (k.wH r v).heldM = k.heldM := by unfold Core.wH; split <;> rfl
@[simp] theorem Core.wH_shS (k : Core) (r : BitVec 6) (v : W64) : (k.wH r v).shS = k.shS := by unfold Core.wH; split <;> rfl
@[simp] theorem Core.wH_shM (k : Core) (r : BitVec 6) (v : W64) : (k.wH r v).shM = k.shM := by unfold Core.wH; split <;> rfl
@[simp] theorem Core.wH_tl (k : Core) (r : BitVec 6) (v : W64) : (k.wH r v).tl = k.tl := by unfold Core.wH; split <;> rfl
@[simp] theorem Core.wH_ops (k : Core) (r : BitVec 6) (v : W64) : (k.wH r v).ops = k.ops := by unfold Core.wH; split <;> rfl
@[simp] theorem Core.wH_folio (k : Core) (r : BitVec 6) (v : W64) : (k.wH r v).folio = k.folio := by unfold Core.wH; split <;> rfl
@[simp] theorem Core.wH_folioPoison (k : Core) (r : BitVec 6) (v : W64) : (k.wH r v).folioPoison = k.folioPoison := by unfold Core.wH; split <;> rfl
@[simp] theorem Core.wH_gal (k : Core) (r : BitVec 6) (v : W64) : (k.wH r v).gal = k.gal := by unfold Core.wH; split <;> rfl
@[simp] theorem Core.wH_store (k : Core) (r : BitVec 6) (v : W64) : (k.wH r v).store = k.store := by unfold Core.wH; split <;> rfl
@[simp] theorem Core.wH_storePoison (k : Core) (r : BitVec 6) (v : W64) : (k.wH r v).storePoison = k.storePoison := by unfold Core.wH; split <;> rfl
@[simp] theorem Core.wH_pins (k : Core) (r : BitVec 6) (v : W64) : (k.wH r v).pins = k.pins := by unfold Core.wH; split <;> rfl
@[simp] theorem Core.wH_owedWeights (k : Core) (r : BitVec 6) (v : W64) : (k.wH r v).owedWeights = k.owedWeights := by unfold Core.wH; split <;> rfl
@[simp] theorem Core.wH_quarter (k : Core) (r : BitVec 6) (v : W64) : (k.wH r v).quarter = k.quarter := by unfold Core.wH; split <;> rfl
@[simp] theorem Core.wH_mstat (k : Core) (r : BitVec 6) (v : W64) : (k.wH r v).mstat = k.mstat := by unfold Core.wH; split <;> rfl
@[simp] theorem Core.wH_mrowp (k : Core) (r : BitVec 6) (v : W64) : (k.wH r v).mrowp = k.mrowp := by unfold Core.wH; split <;> rfl
@[simp] theorem Core.wH_lease (k : Core) (r : BitVec 6) (v : W64) : (k.wH r v).lease = k.lease := by unfold Core.wH; split <;> rfl
@[simp] theorem Core.wH_trapvec (k : Core) (r : BitVec 6) (v : W64) : (k.wH r v).trapvec = k.trapvec := by unfold Core.wH; split <;> rfl
@[simp] theorem Core.wH_trapcause (k : Core) (r : BitVec 6) (v : W64) : (k.wH r v).trapcause = k.trapcause := by unfold Core.wH; split <;> rfl
@[simp] theorem Core.wH_trappc (k : Core) (r : BitVec 6) (v : W64) : (k.wH r v).trappc = k.trappc := by unfold Core.wH; split <;> rfl
@[simp] theorem Core.wH_trapaddr (k : Core) (r : BitVec 6) (v : W64) : (k.wH r v).trapaddr = k.trapaddr := by unfold Core.wH; split <;> rfl
@[simp] theorem Core.wH_trapinfo (k : Core) (r : BitVec 6) (v : W64) : (k.wH r v).trapinfo = k.trapinfo := by unfold Core.wH; split <;> rfl
@[simp] theorem Core.wH_savedst (k : Core) (r : BitVec 6) (v : W64) : (k.wH r v).savedst = k.savedst := by unfold Core.wH; split <;> rfl
@[simp] theorem Core.wH_monvec (k : Core) (r : BitVec 6) (v : W64) : (k.wH r v).monvec = k.monvec := by unfold Core.wH; split <;> rfl
@[simp] theorem Core.wH_launchid (k : Core) (r : BitVec 6) (v : W64) : (k.wH r v).launchid = k.launchid := by unfold Core.wH; split <;> rfl
@[simp] theorem Core.wH_budcls (k : Core) (r : BitVec 6) (v : W64) : (k.wH r v).budcls = k.budcls := by unfold Core.wH; split <;> rfl
@[simp] theorem Core.wH_dmemb (k : Core) (r : BitVec 6) (v : W64) : (k.wH r v).dmemb = k.dmemb := by unfold Core.wH; split <;> rfl
@[simp] theorem Core.wH_ctxid (k : Core) (r : BitVec 6) (v : W64) : (k.wH r v).ctxid = k.ctxid := by unfold Core.wH; split <;> rfl
@[simp] theorem Core.wH_vfid (k : Core) (r : BitVec 6) (v : W64) : (k.wH r v).vfid = k.vfid := by unfold Core.wH; split <;> rfl
@[simp] theorem Core.wH_ordinal (k : Core) (r : BitVec 6) (v : W64) : (k.wH r v).ordinal = k.ordinal := by unfold Core.wH; split <;> rfl
@[simp] theorem Core.wH_phase (k : Core) (r : BitVec 6) (v : W64) : (k.wH r v).phase = k.phase := by unfold Core.wH; split <;> rfl
@[simp] theorem Core.wH_arrived (k : Core) (r : BitVec 6) (v : W64) : (k.wH r v).arrived = k.arrived := by unfold Core.wH; split <;> rfl
@[simp] theorem Core.wH_notified (k : Core) (r : BitVec 6) (v : W64) : (k.wH r v).notified = k.notified := by unfold Core.wH; split <;> rfl
@[simp] theorem Core.wH_latch (k : Core) (r : BitVec 6) (v : W64) : (k.wH r v).latch = k.latch := by unfold Core.wH; split <;> rfl
@[simp] theorem Core.wH_gang (k : Core) (r : BitVec 6) (v : W64) : (k.wH r v).gang = k.gang := by unfold Core.wH; split <;> rfl
@[simp] theorem Core.wH_lastgen (k : Core) (r : BitVec 6) (v : W64) : (k.wH r v).lastgen = k.lastgen := by unfold Core.wH; split <;> rfl
@[simp] theorem Core.wH_lastimg (k : Core) (r : BitVec 6) (v : W64) : (k.wH r v).lastimg = k.lastimg := by unfold Core.wH; split <;> rfl
@[simp] theorem Core.wH_dirtyV (k : Core) (r : BitVec 6) (v : W64) : (k.wH r v).dirtyV = k.dirtyV := by unfold Core.wH; split <;> rfl
@[simp] theorem Core.wH_dirtyS (k : Core) (r : BitVec 6) (v : W64) : (k.wH r v).dirtyS = k.dirtyS := by unfold Core.wH; split <;> rfl
@[simp] theorem Core.wH_dirtyG (k : Core) (r : BitVec 6) (v : W64) : (k.wH r v).dirtyG = k.dirtyG := by unfold Core.wH; split <;> rfl
@[simp] theorem Core.wH_refused (k : Core) (r : BitVec 6) (v : W64) : (k.wH r v).refused = k.refused := by unfold Core.wH; split <;> rfl
@[simp] theorem Core.wH_stepArm (k : Core) (r : BitVec 6) (v : W64) : (k.wH r v).stepArm = k.stepArm := by unfold Core.wH; split <;> rfl
@[simp] theorem Core.wH_preempted (k : Core) (r : BitVec 6) (v : W64) : (k.wH r v).preempted = k.preempted := by unfold Core.wH; split <;> rfl
@[simp] theorem Core.wH_transit (k : Core) (r : BitVec 6) (v : W64) : (k.wH r v).transit = k.transit := by unfold Core.wH; split <;> rfl
@[simp] theorem Core.wH_origins (k : Core) (r : BitVec 6) (v : W64) : (k.wH r v).origins = k.origins := by unfold Core.wH; split <;> rfl
@[simp] theorem Core.wH_raised (k : Core) (r : BitVec 6) (v : W64) : (k.wH r v).raised = k.raised := by unfold Core.wH; split <;> rfl
@[simp] theorem Core.wH_stores (k : Core) (r : BitVec 6) (v : W64) : (k.wH r v).stores = k.stores := by unfold Core.wH; split <;> rfl
@[simp] theorem Core.wH_loads (k : Core) (r : BitVec 6) (v : W64) : (k.wH r v).loads = k.loads := by unfold Core.wH; split <;> rfl
@[simp] theorem Core.wH_dc (k : Core) (r : BitVec 6) (v : W64) : (k.wH r v).dc = k.dc := by unfold Core.wH; split <;> rfl
@[simp] theorem Core.wH_btb (k : Core) (r : BitVec 6) (v : W64) : (k.wH r v).btb = k.btb := by unfold Core.wH; split <;> rfl
@[simp] theorem Core.wH_tlb (k : Core) (r : BitVec 6) (v : W64) : (k.wH r v).tlb = k.tlb := by unfold Core.wH; split <;> rfl
@[simp] theorem Core.wH_wends (k : Core) (r : BitVec 6) (v : W64) : (k.wH r v).wends = k.wends := by unfold Core.wH; split <;> rfl
@[simp] theorem Core.wH_rends (k : Core) (r : BitVec 6) (v : W64) : (k.wH r v).rends = k.rends := by unfold Core.wH; split <;> rfl
@[simp] theorem Core.wH_wallowOut (k : Core) (r : BitVec 6) (v : W64) : (k.wH r v).wallowOut = k.wallowOut := by unfold Core.wH; split <;> rfl
@[simp] theorem Core.wH_rascnt (k : Core) (r : BitVec 6) (v : W64) : (k.wH r v).rascnt = k.rascnt := by unfold Core.wH; split <;> rfl
@[simp] theorem Core.wH_raswin (k : Core) (r : BitVec 6) (v : W64) : (k.wH r v).raswin = k.raswin := by unfold Core.wH; split <;> rfl
@[simp] theorem Core.wH_raswinNext (k : Core) (r : BitVec 6) (v : W64) : (k.wH r v).raswinNext = k.raswinNext := by unfold Core.wH; split <;> rfl
@[simp] theorem Core.wH_winStart (k : Core) (r : BitVec 6) (v : W64) : (k.wH r v).winStart = k.winStart := by unfold Core.wH; split <;> rfl
@[simp] theorem Core.wH_rasthr (k : Core) (r : BitVec 6) (v : W64) : (k.wH r v).rasthr = k.rasthr := by unfold Core.wH; split <;> rfl
@[simp] theorem Core.wH_bankCnt (k : Core) (r : BitVec 6) (v : W64) : (k.wH r v).bankCnt = k.bankCnt := by unfold Core.wH; split <;> rfl
@[simp] theorem Core.wH_withdrawn (k : Core) (r : BitVec 6) (v : W64) : (k.wH r v).withdrawn = k.withdrawn := by unfold Core.wH; split <;> rfl
@[simp] theorem Core.wH_freeze (k : Core) (r : BitVec 6) (v : W64) : (k.wH r v).freeze = k.freeze := by unfold Core.wH; split <;> rfl
@[simp] theorem Core.wH_out (k : Core) (r : BitVec 6) (v : W64) : (k.wH r v).out = k.out := by unfold Core.wH; split <;> rfl
@[simp] theorem Core.wH_stopped (k : Core) (r : BitVec 6) (v : W64) : (k.wH r v).stopped = k.stopped := by unfold Core.wH; split <;> rfl

end Sys2Proof.Machine
end

