-- ==== Sys2Proof/Laws/Ops.lean ====
section
/-! SUPPORT. What the shared operations of issue and finish do, said once: an instruction whose body answers finishes,
and its finish changes where the strand stands and the accounts of its issue. -/

namespace Sys2Proof.Machine

/-! ### Registers -/

theorem vget_vset {α : Type} {n : Nat} (d : α) (v : Vector α n) (i j : Nat) (x : α) :
    vget d (vset v i x) j = if j = i ∧ i < n then x else vget d v j := by
  unfold vget vset
  by_cases h : j = i
  · subst h
    by_cases hn : j < n
    · simp [hn]
    · simp [hn]
  · simp [h, Vector.getElem?_setIfInBounds_ne (Ne.symm h)]

theorem Core.rS_wS (k : Core) (d r : BitVec 6) (v : W64) : (k.wS d v).rS r = if r = d ∧ r ≠ 0 then v else k.rS r := by
  unfold Core.rS Core.wS
  have e : (r.toNat = d.toNat) ↔ r = d := BitVec.toNat_inj
  have l := d.isLt
  by_cases h0 : r = 0
  · rw [if_pos h0, if_pos h0, if_neg (fun h => h.2 h0)]
  · rw [if_neg h0, if_neg h0]
    by_cases hd : d = 0
    · rw [if_pos hd, if_neg (fun h => h0 (h.1.trans hd))]
    · rw [if_neg hd, vget_vset]
      by_cases h : r = d
      · rw [if_pos ⟨e.mpr h, l⟩, if_pos ⟨h, h0⟩]
      · rw [if_neg (fun q => h (e.mp q.1)), if_neg (fun q => h q.1)]

theorem Core.rH_wH (k : Core) (d r : BitVec 6) (v : W64) : (k.wH d v).rH r = if r = d ∧ r ≠ 0 then v else k.rH r := by
  unfold Core.rH Core.wH
  have e : (r.toNat = d.toNat) ↔ r = d := BitVec.toNat_inj
  have l := d.isLt
  by_cases h0 : r = 0
  · rw [if_pos h0, if_pos h0, if_neg (fun h => h.2 h0)]
  · rw [if_neg h0, if_neg h0]
    by_cases hd : d = 0
    · rw [if_pos hd, if_neg (fun h => h0 (h.1.trans hd))]
    · rw [if_neg hd, vget_vset]
      by_cases h : r = d
      · rw [if_pos ⟨e.mpr h, l⟩, if_pos ⟨h, h0⟩]
      · rw [if_neg (fun q => h (e.mp q.1)), if_neg (fun q => h q.1)]

theorem setBit8 (d : BitVec 3) (v : Bool) (m : BitVec 8) :
    BitVec.ofNat 8 (m.toNat - (if m.getLsbD d.toNat then 2 ^ d.toNat else 0) + (if v then 2 ^ d.toNat else 0)) =
      if v then m ||| BitVec.twoPow 8 d.toNat else m &&& ~~~BitVec.twoPow 8 d.toNat := by
  revert d v m; decide +kernel
theorem predBit (d p : BitVec 3) (v : Bool) (m : BitVec 8) :
    (BitVec.ofNat 8 (m.toNat - (if m.getLsbD d.toNat then 2 ^ d.toNat else 0) + (if v then 2 ^ d.toNat else 0))).getLsbD
      p.toNat = if p = d then v else m.getLsbD p.toNat := by
  rw [setBit8]
  have hd := d.isLt
  have hp := p.isLt
  by_cases h : p = d
  · subst h
    cases v
    · simp [BitVec.getLsbD_twoPow]
    · simp [BitVec.getLsbD_twoPow]; omega
  · have e : d.toNat ≠ p.toNat := fun q => h (BitVec.eq_of_toNat_eq q.symm)
    rw [if_neg h]
    cases v
    · simp [BitVec.getLsbD_twoPow, e]; omega
    · simp [BitVec.getLsbD_twoPow, e]

theorem Core.rP_wP (k : Core) (d p : BitVec 3) (v : Bool) : (k.wP d v).rP p = if p = d ∧ p ≠ 0 then v else k.rP p := by
  unfold Core.rP Core.wP
  by_cases h0 : p = 0
  · subst h0; simp
  · have e : (p == 0) = false := by simpa using h0
    rw [e, Bool.false_or, Bool.false_or]
    by_cases hd : d = 0
    · rw [if_pos hd, if_neg (fun h => h0 (h.1.trans hd))]
    · rw [if_neg hd]
      show BitVec.getLsbD (BitVec.ofNat 8 _) _ = _
      rw [predBit]
      by_cases h : p = d
      · rw [if_pos h, if_pos ⟨h, h0⟩]
      · rw [if_neg h, if_neg (fun q => h q.1)]

/-! ### Budgets -/

/-- The state with other accounts of issue. -/
def State.accts (s : State) (u : SMap Nat) (h : List Nat) (a b : List W64) (x y : Bool) : State :=
  { s with used := u, holds := h, slips0 := a, slips1 := b, lost0 := x, lost1 := y }

@[simp] theorem State.accts_core (s : State) (u h a b x y c) : (s.accts u h a b x y).core c = s.core c := rfl
@[simp] theorem State.accts_me (s : State) (u h a b x y) : (s.accts u h a b x y).me = s.me := rfl
@[simp] theorem State.accts_cur (s : State) (u h a b x y) : (s.accts u h a b x y).cur = s.cur := rfl
@[simp] theorem State.accts_mem (s : State) (u h a b x y) : (s.accts u h a b x y).mem = s.mem := rfl

theorem State.slip_accts (s : State) (die cls res : Nat) :
    ∃ a b x y, s.slip die cls res = s.accts s.used s.holds a b x y := by
  unfold State.slip
  split <;> split <;> exact ⟨_, _, _, _, rfl⟩

theorem State.exhaust_accts (s : State) (die cls res : Nat) :
    ∃ u h a b x y, s.exhaust die cls res = s.accts u h a b x y := by
  unfold State.exhaust
  obtain ⟨a, b, x, y, h⟩ := State.slip_accts s die cls res
  rw [h]; exact ⟨_, _, _, _, _, _, rfl⟩

/-- A charge changes the accounts and nothing else. -/
theorem State.charge_accts (s : State) (die cls res n : Nat) :
    ∃ u h a b x y, s.charge die cls res n = s.accts u h a b x y := by
  unfold State.charge
  split
  · exact ⟨s.used, s.holds, s.slips0, s.slips1, s.lost0, s.lost1, rfl⟩
  · dsimp only
    split
    · obtain ⟨u, h, a, b, x, y, e⟩ := State.exhaust_accts
        (s.accts (mset 0 s.used (acct die cls res) (mget 0 s.used (acct die cls res) + n)) s.holds s.slips0 s.slips1
          s.lost0 s.lost1) die cls res
      exact ⟨u, h, a, b, x, y, e⟩
    · exact ⟨_, s.holds, s.slips0, s.slips1, s.lost0, s.lost1, rfl⟩

theorem State.chargeCore_accts (s : State) (c res n : Nat) :
    ∃ u h a b x y, s.chargeCore c res n = s.accts u h a b x y := State.charge_accts _ _ _ _ _

/-! ### Issue and finish -/

theorem runCtl_ok {s s' : State} {b : State → Try State} (h : b s = .ok s') :
    runCtl s b = .next (finishCtl s.cur.core false s.me.stepArm s') := by
  unfold runCtl; rw [h]; rfl

theorem runCtl_trap {s s' : State} {t : Trap} {b : State → Try State} (h : b s = .error (.trap t s')) :
    runCtl s b = .next (takeTrap s.cur.core .ctl t s') := by
  unfold runCtl; rw [h]; rfl

theorem runCtl_wait {s s' : State} {b : State → Try State} (h : b s = .error (.wait s')) :
    runCtl s b = .next (if s.my.asked = 0 && s'.my.asked ≠ 0 then s'.modMy (fun x => { x with opt := s'.cur.choice }) else s') := by
  unfold runCtl; rw [h]; rfl

theorem runJump_ok {s s' : State} {b : State → Try State} (h : b s = .ok s') :
    runJump s b = .next (finishCtl s.cur.core true s.me.stepArm s') := by
  unfold runJump; rw [h]; rfl

/-- The finish of a CTL instruction with no single step armed: CTL goes on, and the issue is charged. -/
theorem finishCtl_steady (c : Nat) (jump : Bool) (s : State) :
    ∃ u h a b x y, finishCtl c jump false s =
      (s.modCore c (fun k => k.modStrand .ctl (fun x => (if jump then x else x.advance 4 4).clear))).accts u h a b x y := by
  unfold finishCtl
  simp only [Bool.false_and, Bool.false_eq_true, if_false]
  exact State.chargeCore_accts _ _ _ _

/-- The finish of a wide instruction. -/
theorem finishWide_view (words : Nat) (jump : Bool) (s : State) :
    ∃ u h a b x y, finishWide words jump s =
      (s.modMy (fun x => (if jump then x else x.next 8 (8 * words)).clear)).accts u h a b x y := by
  unfold finishWide
  exact State.chargeCore_accts _ _ _ _

end Sys2Proof.Machine
end

