-- ==== Sys2Proof/Laws/Ctl.lean ====
section
/-! SUPPORT. The finish of CTL instructions in the claims' terms: what a body wrote, and nothing else but the place where
CTL stands and the accounts of the issue. -/

namespace Sys2Proof.Machine

/-- Going on does not change a strand but for where it stands. -/
@[simp] theorem StrandSt.rest_advance (x : StrandSt) (w z : Nat) : (x.advance w z).rest = x.rest := by
  unfold StrandSt.advance
  dsimp only
  split
  · rfl
  · split
    · split <;> rfl
    · rfl
@[simp] theorem StrandSt.rest_next (x : StrandSt) (w z : Nat) : (x.next w z).rest = x.rest := by
  unfold StrandSt.next
  split
  · split
    · rfl
    · exact (StrandSt.rest_advance x w z)
  · exact StrandSt.rest_advance x w z
@[simp] theorem StrandSt.rest_jump (x : StrandSt) (pc : W64) : (x.jump pc).rest = x.rest := rfl
@[simp] theorem StrandSt.rest_clear (x : StrandSt) : x.clear.rest = x.rest := rfl

theorem rest_cur {s t : State} (h : t.rest = s.rest) : t.cur = s.cur := by
  have := congrArg State.cur h; exact this

/-- A finish in the claims' terms: the core as the body left it, but for the strand; every other core as the body left
it; the rest of the device as the body left it. -/
theorem finishCtl_view (s : State) (jump : Bool) :
    (finishCtl s.cur.core jump false s).rest = s.rest ∧
      (finishCtl s.cur.core jump false s).mem = s.mem ∧
      (∀ c, c ≠ s.cur.core → (finishCtl s.cur.core jump false s).core c = s.core c) ∧
      (finishCtl s.cur.core jump false s).me =
        s.me.modStrand .ctl (fun x => (if jump then x else x.advance 4 4).clear) := by
  obtain ⟨u, h, a, b, x, y, e⟩ := finishCtl_steady s.cur.core jump s
  rw [e]
  refine ⟨rfl, rfl, fun c hc => ?_, ?_⟩
  · rw [State.accts_core, State.core_modCore_ne _ _ _ _ hc]
  · rw [State.accts_me]; exact State.core_modCore s _ _

/-- A body that only changes S and P of the issuing core finishes with just that. -/
theorem runCtl_regs (s s' : State) (b : State → Try State) (hb : b s = .ok s') (hs : Steady s)
    (hr : s'.rest = s.rest) (hc : ∀ c, c ≠ s.cur.core → s'.core c = s.core c) (hm : s'.mem = s.mem)
    (hk : s'.me.restCtl = s.me.restCtl) (hctl : s'.me.ctl = s.me.ctl) :
    ∃ t, runCtl s b = .next t ∧ SameS s' t ∧ SameP s' t ∧ CtlNext s t ∧ CtlOnly s t := by
  have hcur : s'.cur = s.cur := rest_cur hr
  obtain ⟨h1, h3, h4, h5⟩ := finishCtl_view s' false
  rw [hcur] at h1 h3 h4 h5
  refine ⟨_, by rw [runCtl_ok hb, hs], ?_⟩
  refine ⟨fun r => ?_, fun p => ?_, ⟨?_, ?_⟩, ⟨⟨h1.trans hr, fun c hc' => (h4 c hc').trans (hc c hc'), fun a => ?_⟩, ?_⟩⟩
  · show Core.rS _ r = Core.rS _ r
    rw [h5]; rfl
  · show Core.rP _ p = Core.rP _ p
    rw [h5]; rfl
  · rw [h5, ← hctl]; rfl
  · rw [h5, ← hctl]; rfl
  · rw [h3, hm]
  · rw [h5, ← hk]
    show ({ s'.me with s := _, p := _, ctl := ((s'.me.ctl.advance 4 4).clear).rest } : Core) = _
    rw [StrandSt.rest_clear, StrandSt.rest_advance]; rfl

theorem State.rS_wS (s : State) (d r : BitVec 6) (v : W64) : (s.wS d v).rS r = if r = d ∧ r ≠ 0 then v else s.rS r := by
  show Core.rS (s.modMe _).me r = _
  rw [State.me_modMe]; exact Core.rS_wS _ _ _ _

theorem State.rP_wP (s : State) (d r : BitVec 3) (v : Bool) : (s.wP d v).rP r = if r = d ∧ r ≠ 0 then v else s.rP r := by
  show Core.rP (s.modMe _).me r = _
  rw [State.me_modMe]; exact Core.rP_wP _ _ _ _

theorem State.rH_wH (s : State) (d r : BitVec 6) (v : W64) : (s.wH d v).rH r = if r = d ∧ r ≠ 0 then v else s.rH r := by
  show Core.rH (s.modMe _).me r = _
  rw [State.me_modMe]; exact Core.rH_wH _ _ _ _

@[simp] theorem State.rP_wS (s : State) (d : BitVec 6) (p : BitVec 3) (v : W64) : (s.wS d v).rP p = s.rP p := by
  show Core.rP (s.modMe _).me p = _
  rw [State.me_modMe]; simp [Core.rP, State.rP]

@[simp] theorem State.rS_wP (s : State) (r : BitVec 6) (p : BitVec 3) (v : Bool) : (s.wP p v).rS r = s.rS r := by
  show Core.rS (s.modMe _).me r = _
  rw [State.me_modMe]; simp [Core.rS, State.rS]

/-- An instruction that writes one S register. -/
theorem runCtl_wS (s : State) (d : BitVec 6) (v : W64) (b : State → Try State) (hb : b s = .ok (s.wS d v))
    (hs : Steady s) :
    ∃ t, runCtl s b = .next t ∧ WroteS s t d v ∧ SameP s t ∧ CtlNext s t ∧ CtlOnly s t := by
  obtain ⟨t, h, h1, h2, h3, h4⟩ := runCtl_regs s (s.wS d v) b hb hs rfl
    (fun c hc => State.core_modCore_ne _ _ _ _ hc) rfl (by
      show (s.modMe _).me.restCtl = _
      rw [State.me_modMe]; unfold Core.wS; split <;> rfl) (by
      show (s.modMe _).me.ctl = _
      rw [State.me_modMe]; exact Core.wS_ctl _ _ _)
  exact ⟨t, h, fun r => (h1 r).trans (State.rS_wS s d r v), fun p => (h2 p).trans (State.rP_wS s d p v), h3, h4⟩

/-- An instruction that writes one predicate. -/
theorem runCtl_wP (s : State) (d : BitVec 3) (v : Bool) (b : State → Try State) (hb : b s = .ok (s.wP d v))
    (hs : Steady s) :
    ∃ t, runCtl s b = .next t ∧ WroteP s t d v ∧ SameS s t ∧ CtlNext s t ∧ CtlOnly s t := by
  obtain ⟨t, h, h1, h2, h3, h4⟩ := runCtl_regs s (s.wP d v) b hb hs rfl
    (fun c hc => State.core_modCore_ne _ _ _ _ hc) rfl (by
      show (s.modMe _).me.restCtl = _
      rw [State.me_modMe]; unfold Core.wP; split <;> rfl) (by
      show (s.modMe _).me.ctl = _
      rw [State.me_modMe]; exact Core.wP_ctl _ _ _)
  exact ⟨t, h, fun r => (h2 r).trans (State.rP_wP s d r v), fun p => (h1 p).trans (State.rS_wP s p d v), h3, h4⟩

end Sys2Proof.Machine
end

