-- ==== Sys2Proof/Laws/Encoding.lean ====
section
/-! SUPPORT. The algebra of fields and codes that the round trip of every instruction rests on: a field of a packed
word is the field that was packed there, and each code table is undone by its reader. -/

namespace Sys2Proof.Laws

/-- The bits of a number from `lo` up. -/
def fldN (v lo n : Nat) : BitVec n := BitVec.ofNat n (v / 2 ^ lo)

/-- A field of a packed word, as bits of the packed number. -/
theorem fld_pack (w : Nat) (fs : List Field) (lo n : Nat) (h : lo + n ≤ w) :
    fld (pack w fs) lo n = fldN (fs.foldl cat 0) lo n := by
  apply BitVec.eq_of_toNat_eq
  simp only [fld, fldN, pack, BitVec.toNat_ofNat]
  obtain ⟨k, rfl⟩ := Nat.exists_eq_add_of_le h
  rw [show lo + n + k = lo + (n + k) from by omega, Nat.pow_add, Nat.mod_mul_right_div_self, Nat.pow_add,
    Nat.mod_mul_right_mod]

/-- Bits above the lowest field belong to the fields above it. -/
theorem fldN_hi (acc : Nat) {m : Nat} (x : BitVec m) (lo n : Nat) (h : m ≤ lo) :
    fldN (cat acc (fd x)) lo n = fldN acc (lo - m) n := by
  apply BitVec.eq_of_toNat_eq
  simp only [fldN, cat, fd, BitVec.toNat_ofNat]
  obtain ⟨k, rfl⟩ := Nat.exists_eq_add_of_le h
  rw [Nat.pow_add, ← Nat.div_div_eq_div_mul, Nat.mul_comm acc, Nat.mul_add_div (Nat.two_pow_pos _),
    Nat.div_eq_of_lt x.isLt, Nat.add_zero, Nat.add_sub_cancel_left]

/-- The lowest field is the one packed last. -/
theorem fldN_lo (acc : Nat) {n : Nat} (x : BitVec n) : fldN (cat acc (fd x)) 0 n = x := by
  apply BitVec.eq_of_toNat_eq
  simp [fldN, cat, fd]

/-- Packing goes field by field. Kept out of the kernel's computation, which would unfold the numbers. -/
theorem foldl_cat (acc : Nat) (f : Field) (fs : List Field) : (f :: fs).foldl cat acc = fs.foldl cat (cat acc f) := by
  rw [List.foldl_cons]

theorem foldl_nil (acc : Nat) : ([] : List Field).foldl cat acc = acc := by
  rw [List.foldl_nil]

theorem req_true : req true = some () := rfl

@[simp] theorem flag_zero : flag 0#1 = false := rfl
@[simp] theorem flag_one : flag 1#1 = true := rfl
@[simp] theorem flag_bit (b : Bool) : flag (bit b) = b := by cases b <;> rfl
@[simp] theorem elem_code (t : Elem) : Elem.ofCode t.code = some t := by cases t <;> rfl
@[simp] theorem mfmt_code (t : MFmt) : MFmt.ofCode t.code = t := by cases t <;> rfl
@[simp] theorem vty_code (t : VTy) : VTy.ofCode t.code = some t := by cases t <;> rfl
@[simp] theorem logTy_code (t : LogTy) : LogTy.ofCode t.code = some t := by cases t <;> rfl
@[simp] theorem order_code (t : Order) : Order.ofCode t.code = some t := by cases t <;> rfl
@[simp] theorem scope_code (t : Scope) : Scope.ofCode t.code = some t := by cases t <;> rfl
@[simp] theorem cache_code (t : Cache) : Cache.ofCode t.code = some t := by cases t <;> rfl
@[simp] theorem size_code (t : Size) : Size.ofCode t.code = t := by cases t <;> rfl
@[simp] theorem size_qcode (t : Size) : Size.ofQcode t.qcode = t := by cases t <;> rfl
@[simp] theorem cond_code (t : Cond) : Cond.ofCode t.code = some t := by cases t <;> rfl
@[simp] theorem vcond_code (t : VCond) : VCond.ofCode t.code = some t := by cases t <;> rfl
@[simp] theorem atomOp_code (t : AtomOp) : AtomOp.ofCode t.code = some t := by cases t <;> rfl
@[simp] theorem fenceKind_code (t : FenceKind) : FenceKind.ofCode t.code = some t := by cases t <;> rfl
@[simp] theorem tlCtx_code (t : TlCtx) : TlCtx.ofCode t.code = t := by cases t <;> rfl
@[simp] theorem redOp_code (t : RedOp) : RedOp.ofCode t.code = some t := by cases t <;> rfl
@[simp] theorem stredOp_code (t : StredOp) : StredOp.ofCode t.code = t := by cases t <;> rfl
@[simp] theorem kopc_code (t : KOpc) : KOpc.ofCode t.code = some t := by cases t <;> rfl
@[simp] theorem ldvtMode_code (t : LdvtMode) : LdvtMode.ofCode t.code = some t := by cases t <;> rfl
@[simp] theorem block_code (t : Block) : Block.ofCode t.code = some t := by
  cases t with
  | blocking => rfl
  | nb p => revert p; decide

@[simp] theorem bit_false : bit false = 0#1 := rfl
@[simp] theorem bit_true : bit true = 1#1 := rfl

@[simp] theorem decodeA_spec (a : ASrc) : decodeA a.sel a.spec = some a := by
  cases a with
  | handle h => rfl
  | va a => revert a; decide
  | bank b => revert b; decide

@[simp] theorem decodeB_spec (b : BSrc) : decodeB b.sel b.spec = some b := by
  cases b with
  | handle h => rfl
  | va a => revert a; decide

@[simp] theorem decodeDest_spec (d : Dest) : decodeDest d.sel.toNat d.hd d.vb d.sh = some d := by
  cases d <;> rfl

end Sys2Proof.Laws
end

