-- ==== Sys2Proof/Laws/Memory.lean ====
section
/-! SUPPORT. Memory: every operation that writes it keeps its canonical form, and what is read back after a write. -/

namespace Sys2Proof.Machine

/-- What an operation makes of a device has its memory in canonical form if the device had. -/
def KeepsWf (s t : State) : Prop := Memory.wf s.mem → Memory.wf t.mem

theorem KeepsWf.refl (s : State) : KeepsWf s s := id
theorem KeepsWf.trans {s t u : State} (h : KeepsWf s t) (g : KeepsWf t u) : KeepsWf s u := g ∘ h
theorem KeepsWf.of_mem {s t : State} (h : t.mem = s.mem) : KeepsWf s t := fun w => h ▸ w

/-- A fold of operations that keep the form keeps it. -/
theorem KeepsWf.foldl {α : Type} (f : State → α → State) (h : ∀ s x, KeepsWf s (f s x)) :
    ∀ (l : List α) (s : State), KeepsWf s (l.foldl f s)
  | [], s => KeepsWf.refl s
  | x :: l, s => (h s x).trans (KeepsWf.foldl f h l (f s x))

/-! ### Reads after writes -/

theorem State.bytes_msets (s : State) (m : SMap Byte) (pa : Nat) (bs : List Byte) (h : s.mem = msets memDefault m pa bs) :
    s.bytes pa bs.length = bs := by unfold State.bytes; rw [h]; exact mgets_msets _ _ _ _

theorem State.rd64_wr64 (s : State) (pa : Nat) (v : W64) : (s.wr64 pa v).rd64 pa = v := by
  unfold State.rd64 State.wr64
  have := mgets_msets memDefault s.mem pa (leBytes 8 v.toNat)
  rw [leBytes_length] at this
  dsimp only
  rw [this, leNat_leBytes]
  apply BitVec.eq_of_toNat_eq
  have := v.isLt
  simpa [w64] using this

theorem State.rd32_wr32 (s : State) (pa : Nat) (v : W32) : (s.wr32 pa v).rd32 pa = v := by
  unfold State.rd32 State.wr32
  have := mgets_msets memDefault s.mem pa (leBytes 4 v.toNat)
  rw [leBytes_length] at this
  dsimp only
  rw [this, leNat_leBytes]
  apply BitVec.eq_of_toNat_eq
  have := v.isLt
  simpa using this

/-- A dword written leaves every byte outside its 8 alone. -/
theorem State.wr64_out (s : State) (pa a : Nat) (v : W64) (h : a < pa ∨ pa + 8 ≤ a) :
    mget memDefault (s.wr64 pa v).mem a = mget memDefault s.mem a :=
  mget_msets_out _ _ _ _ _ (by rw [leBytes_length]; exact h)

theorem State.wr32_out (s : State) (pa a : Nat) (v : W32) (h : a < pa ∨ pa + 4 ≤ a) :
    mget memDefault (s.wr32 pa v).mem a = mget memDefault s.mem a :=
  mget_msets_out _ _ _ _ _ (by rw [leBytes_length]; exact h)

@[simp] theorem State.refreshFor_mem (s : State) (c pa n : Nat) : (s.refreshFor c pa n).mem = s.mem := by
  unfold State.refreshFor
  split
  · rfl
  · show (s.setCopies _ _).mem = s.mem
    unfold State.setCopies; split <;> rfl

@[simp] theorem performWrite_mem (s : State) (c pa : Nat) (bs : List Byte) (p : Bool) :
    (performWrite s c pa bs p).mem = msets memDefault s.mem pa bs := State.refreshFor_mem _ _ _ _

/-- A write performed at its home leaves the written bytes there (R236). -/
theorem performWrite_reads (s : State) (c pa : Nat) (bs : List Byte) (p : Bool) :
    (performWrite s c pa bs p).bytes pa bs.length = bs := State.bytes_msets _ s.mem _ _ (performWrite_mem s c pa bs p)

/-- … and every other byte as it was. -/
theorem performWrite_out (s : State) (c pa a : Nat) (bs : List Byte) (p : Bool) (h : a < pa ∨ pa + bs.length ≤ a) :
    mget memDefault (performWrite s c pa bs p).mem a = mget memDefault s.mem a := by
  rw [performWrite_mem]; exact mget_msets_out _ _ _ _ _ h

/-! ### The canonical form -/

theorem keepsWf_msets (s t : State) (pa : Nat) (bs : List Byte) (h : t.mem = msets memDefault s.mem pa bs) :
    KeepsWf s t := fun w => by rw [h]; exact mwf_msets _ _ _ _ w

theorem wr64_wf (s : State) (pa : Nat) (v : W64) : KeepsWf s (s.wr64 pa v) := keepsWf_msets _ _ _ _ rfl
theorem wr32_wf (s : State) (pa : Nat) (v : W32) : KeepsWf s (s.wr32 pa v) := keepsWf_msets _ _ _ _ rfl
theorem performWrite_wf (s : State) (c pa : Nat) (bs : List Byte) (p : Bool) : KeepsWf s (performWrite s c pa bs p) :=
  keepsWf_msets _ _ _ _ (performWrite_mem s c pa bs p)

theorem rmwAt_wf (c pa n : Nat) (f : Nat → Option Nat) (s : State) : KeepsWf s (rmwAt c pa n f s).2 := by
  unfold rmwAt; dsimp only; split
  · exact performWrite_wf _ _ _ _ _
  · exact KeepsWf.of_mem (State.refreshFor_mem _ _ _ _)

theorem popFrame_wf {s s' : State} {ctx f : Nat} (h : popFrame s ctx = .ok (f, s')) : KeepsWf s s' := by
  unfold popFrame at h
  dsimp only at h
  split at h
  · cases h
  · split at h
    · cases h
    · simp only [Except.ok.injEq, Prod.mk.injEq] at h
      rw [← h.2]; exact wr64_wf _ _ _

theorem pushFrame_wf {s s' : State} {ctx f : Nat} (h : pushFrame s ctx f = some s') : KeepsWf s s' := by
  unfold pushFrame at h
  dsimp only at h
  split at h
  · cases h
  · rw [← Option.some.inj h]; exact (wr64_wf _ _ _).trans (wr64_wf _ _ _)

theorem cowStart_wf {s s' : State} {e : TlbEnt} (h : cowStart s e = .ok s') : KeepsWf s s' := by
  unfold cowStart at h
  dsimp only at h
  split at h
  · cases h
  · split at h
    · cases h
    · next hp => rw [← Except.ok.inj h]; exact (popFrame_wf hp).trans (wr32_wf _ _ _)

theorem tlbiPage_mem (s : State) (ctx va : Nat) : (tlbiPage s ctx va).mem = s.mem := rfl
theorem tlbiCtx_mem (s : State) (ctx : Nat) : (tlbiCtx s ctx).mem = s.mem := rfl
theorem tlbiWin_mem (s : State) (ctx : Nat) : (tlbiWin s ctx).mem = s.mem := rfl
theorem tlbiAll_mem (s : State) (ctx : Nat) : (tlbiAll s ctx).mem = s.mem := rfl

theorem cowCopy_wf (w : Cow) (s : State) : KeepsWf s (cowCopy w s) :=
  fun h => mwf_msplice _ _ _ _ _ h (mwf_mslice _ _ _ _ h)
theorem cowMap_wf (w : Cow) (s : State) : KeepsWf s (cowMap w s) :=
  (wr64_wf s w.leafPa _).trans (KeepsWf.of_mem (tlbiPage_mem _ _ _))
theorem putCount_wf (o : Option Nat) (f : W32 → W32) (s : State) : KeepsWf s (putCount o f s) := by
  unfold putCount
  split
  · exact wr32_wf _ _ _
  · exact KeepsWf.refl _

theorem cowFinish_wf (s : State) (w : Cow) : KeepsWf s (cowFinish s w) := by
  unfold cowFinish
  refine KeepsWf.trans ?_ (putCount_wf _ _ _)
  refine KeepsWf.trans ?_ (cowMap_wf w _)
  refine KeepsWf.trans ?_ (putCount_wf _ _ _)
  exact cowCopy_wf w s

theorem writeOk_wf {s s' : State} {e : Option TlbEnt} (h : writeOk s e = .waits s') : KeepsWf s s' := by
  unfold writeOk at h
  split at h
  · cases h
  · dsimp only at h
    split at h
    · cases h
    · split at h
      · cases h
      · split at h
        · rw [← WriteOk.waits.inj h]; exact KeepsWf.refl _
        · split at h
          · cases h
          · next hc => rw [← WriteOk.waits.inj h]; exact cowStart_wf hc

theorem writeNow_wf {s s' : State} {e : Option TlbEnt} {b : Bool} (h : writeNow s e = .ok (some (s', b))) :
    KeepsWf s s' := by
  unfold writeNow at h
  split at h
  · simp only [Except.ok.injEq, Option.some.injEq, Prod.mk.injEq] at h; rw [← h.1]; exact KeepsWf.refl _
  · cases h
  · next hw =>
    split at h
    · cases h
    · split at h
      · simp only [Except.ok.injEq, Option.some.injEq, Prod.mk.injEq] at h
        rw [← h.1]; exact (writeOk_wf hw).trans (cowFinish_wf _ _)
      · cases h

theorem devPlace_wf {s s' : State} {ctx va pa : Nat} {md : Mode} (h : devPlace s ctx va md = .ok (s', pa)) :
    KeepsWf s s' := by
  unfold devPlace at h
  cases hw : walkEnt s ctx va with
  | error c => rw [hw] at h; cases h
  | ok e =>
    rw [hw] at h
    dsimp only [bind, Except.bind] at h
    split at h
    · cases h
    · cases hn : writeNow s (some e) with
      | error c => rw [hn] at h; cases h
      | ok r =>
        rw [hn] at h
        match r, hn, h with
        | none, _, h => cases h
        | some (s1, false), hn, h =>
          simp only [pure, Except.pure, Except.ok.injEq, Prod.mk.injEq] at h; rw [← h.1]; exact writeNow_wf hn
        | some (s1, true), hn, h =>
          dsimp only at h
          split at h
          · cases h
          · simp only [pure, Except.pure, Except.ok.injEq, Prod.mk.injEq] at h; rw [← h.1]; exact writeNow_wf hn

theorem event_wf (s : State) (ctx cause core launch : Nat) (addr info : W64) :
    KeepsWf s (event s ctx cause core launch addr info) := by
  unfold event
  extract_lets rec0 root w n tail head lost va
  split
  · exact KeepsWf.of_mem rfl
  · split
    · exact KeepsWf.refl _
    · have hl : KeepsWf s lost := wr64_wf _ _ _
      split
      · exact hl
      · split
        · exact hl
        · split
          · exact hl
          · split
            · exact hl
            · next hd =>
              exact ((devPlace_wf hd).trans (keepsWf_msets _ _ _ _ rfl)).trans (wr64_wf _ _ _)

theorem setAnc_wf (s : State) (a : Anchor) (i : Nat) (v : W64) : KeepsWf s (s.setAnc a i v) := wr64_wf _ _ _
theorem setAncField_wf (s : State) (a : Anchor) (i lo n v : Nat) : KeepsWf s (s.setAncField a i lo n v) := wr64_wf _ _ _

theorem stockPlace_wf {s s' : State} {a : Anchor} {off pa : Nat} (h : stockPlace s a off = .ok (s', pa)) : KeepsWf s s' := by
  unfold stockPlace at h
  split at h
  · simp only [Except.ok.injEq, Prod.mk.injEq] at h; rw [← h.1]; exact KeepsWf.refl _
  · exact devPlace_wf h

theorem slotWrite_wf {s s' : State} {a : Anchor} {j : Nat} {it : Item} (h : slotWrite s a j it = .ok s') : KeepsWf s s' := by
  unfold slotWrite at h
  cases h1 : stockPlace s a (64 * j) with
  | error c => rw [h1] at h; cases h
  | ok p =>
    rw [h1] at h
    dsimp only [bind, Except.bind] at h
    cases h2 : stockPlace p.1 a (64 * 2 ^ ancK p.1 a + 2 * j) with
    | error c => rw [h2] at h; cases h
    | ok q =>
      rw [h2] at h
      rw [← Except.ok.inj h]
      exact ((stockPlace_wf h1).trans (stockPlace_wf h2)).trans
        (fun w => mwf_msets _ _ _ _ (mwf_msets _ _ _ _ w))

theorem slotClear_wf {s s' : State} {a : Anchor} {j pa : Nat}
    (h : stockPlace s a (64 * 2 ^ ancK s a + 2 * j) = .ok (s', pa)) : KeepsWf s (slotClear s a j) := by
  unfold slotClear; rw [h]
  exact (stockPlace_wf h).trans (keepsWf_msets _ _ _ _ rfl)

theorem writeList_wf (s : State) (ls fs : List Nat) : KeepsWf s (writeList s ls fs) := by
  unfold writeList
  exact (KeepsWf.foldl _ (fun _ _ => wr64_wf _ _ _) _ _).trans (KeepsWf.foldl _ (fun _ _ => wr64_wf _ _ _) _ _)

theorem giveFrame_wf (s : State) (ctx f : Nat) : KeepsWf s (giveFrame s ctx f) := by
  unfold giveFrame
  split
  · next h => exact pushFrame_wf h
  · exact event_wf _ _ _ _ _ _ _

theorem giveStock_wf (s : State) (a : Anchor) : KeepsWf s (giveStock s a) := by
  unfold giveStock
  exact KeepsWf.foldl _ (fun _ _ => giveFrame_wf _ _ _) _ _

theorem withTables_wf (s : State) : KeepsWf s s.withTables :=
  ((wr64_wf s 0x20000000 0x20010003).trans (wr64_wf _ 0x20010000 0x20011003)).trans (wr64_wf _ 0x20011000 0x2020007D)
theorem withCell_mem (st : Strand) (s : State) : (State.withCell st s).mem = s.mem := rfl

/-- The placing of an instruction for the next step keeps the form. -/
theorem withFetchWord_wf (s : State) (nbits w : Nat) : KeepsWf s (s.withFetchWord nbits w) := by
  refine (withTables_wf s).trans ?_
  intro h
  show mwf memDefault (msets memDefault (State.withCell _ s.withTables).mem _ _) = true
  rw [withCell_mem]
  exact mwf_msets _ _ _ _ h

end Sys2Proof.Machine
end

