-- ==== Sys2Proof/Laws/PerInstr.lean ====
section
/-! SUPPORT. The round trip of every instruction, one lemma per constructor: what the encoder writes the decoder reads
back, with every operand at every value its encoding admits. Events have no encoding. -/

namespace Sys2Proof.Laws.Encoding

open Sys2Proof.Laws

set_option linter.unusedSimpArgs false
set_option linter.unusedVariables false

/-- The round trip of one instruction in every strand that fetches it. -/
def Statement (i : Instr) : Prop :=
  i.wf = true →
    (i.inStrand .ctl = true → decodeCtl (encodeCtl i) = some i) ∧
    (∀ st, st ≠ .ctl → i.inStrand st = true → decodeWide st (encodeWide i) (encodeSecond i) = some i)

theorem of_ctl (i : Instr) (hi : ∀ st, i.inStrand st = (st == .ctl))
    (h : i.wf = true → decodeCtl (encodeCtl i) = some i) : Statement i :=
  fun w => ⟨fun _ => h w, fun st n hs => absurd (by simpa [hi] using hs) n⟩

theorem of_strand (i : Instr) (s : Strand) (n : s ≠ .ctl) (hi : ∀ st, i.inStrand st = (st == s))
    (h : i.wf = true → decodeWide s (encodeWide i) (encodeSecond i) = some i) : Statement i :=
  fun w => ⟨fun hc => absurd (by simpa [hi] using hc) (Ne.symm n), fun st _ hs => by
    have : st = s := by simpa [hi] using hs
    subst this; exact h w⟩

theorem of_common (i : Instr) (hi : ∀ st, i.inStrand st = (st != .ctl))
    (h : i.wf = true → ∀ st, st ≠ .ctl → decodeWide st (encodeWide i) (encodeSecond i) = some i) : Statement i :=
  fun w => ⟨fun hc => by simp [hi] at hc, fun st n _ => h w st n⟩

theorem of_event (i : Instr) (hi : ∀ st, i.inStrand st = false) : Statement i :=
  fun _ => ⟨fun h => by simp [hi] at h, fun st _ h => by simp [hi] at h⟩

/-- A packed CTL word is read through its fields alone, by its opcode's arm. -/
theorem ctl_of (op : Nat) (fs : List Field) {i : Instr} (hop : (fldN (fs.foldl cat 0) 26 6).toNat = op)
    (h : ∀ w : BitVec 32, (∀ lo n, lo + n ≤ 32 → fld w lo n = fldN (fs.foldl cat 0) lo n) → rawCtlOp op w = some i)
    (wf : i.wf = true) : decodeCtl (pack 32 fs) = some i := by
  have F : ∀ lo n, lo + n ≤ 32 → fld (pack 32 fs) lo n = fldN (fs.foldl cat 0) lo n :=
    fun lo n h => fld_pack 32 fs lo n h
  rw [decodeCtl, rawCtl, F 26 6 (by decide), hop, h _ F]
  simp [Option.filter, wf]

/-- A packed wide word is read through its fields alone, by its opcode's arm. -/
theorem wide_of (st : Strand) (v : BitVec 64) (op : Nat) (fs : List Field) {i : Instr}
    (hop : (fldN (fs.foldl cat 0) 56 8).toNat = op)
    (h : ∀ w : BitVec 64, (∀ lo n, lo + n ≤ 64 → fld w lo n = fldN (fs.foldl cat 0) lo n) →
      rawWideOp st op w v = some i)
    (wf : i.wf = true) : decodeWide st (pack 64 fs) v = some i := by
  have F : ∀ lo n, lo + n ≤ 64 → fld (pack 64 fs) lo n = fldN (fs.foldl cat 0) lo n :=
    fun lo n h => fld_pack 64 fs lo n h
  rw [decodeWide, rawWide, F 56 8 (by decide), hop, h _ F]
  simp [Option.filter, wf]

theorem nop : Statement (.nop) :=
  of_ctl _ (fun _ => rfl) (fun h => by
    refine ctl_of 0x00 _ (by simp only [foldl_cat, foldl_nil, fldN_hi, fldN_lo, Nat.reduceLeDiff, Nat.reduceSub, Nat.le_refl, Nat.sub_self]; rfl) (fun w F => ?_) h
    simp only [foldl_cat, foldl_nil] at F
    simp only [rawCtlOp]
    simp [F, fldN_hi, fldN_lo, req_true, decodeSys])
theorem halt : Statement (.halt) :=
  of_ctl _ (fun _ => rfl) (fun h => by
    refine ctl_of 0x00 _ (by simp only [foldl_cat, foldl_nil, fldN_hi, fldN_lo, Nat.reduceLeDiff, Nat.reduceSub, Nat.le_refl, Nat.sub_self]; rfl) (fun w F => ?_) h
    simp only [foldl_cat, foldl_nil] at F
    simp only [rawCtlOp]
    simp [F, fldN_hi, fldN_lo, req_true, decodeSys])
theorem yield : Statement (.yield) :=
  of_ctl _ (fun _ => rfl) (fun h => by
    refine ctl_of 0x00 _ (by simp only [foldl_cat, foldl_nil, fldN_hi, fldN_lo, Nat.reduceLeDiff, Nat.reduceSub, Nat.le_refl, Nat.sub_self]; rfl) (fun w F => ?_) h
    simp only [foldl_cat, foldl_nil] at F
    simp only [rawCtlOp]
    simp [F, fldN_hi, fldN_lo, req_true, decodeSys])
theorem wfe : Statement (.wfe) :=
  of_ctl _ (fun _ => rfl) (fun h => by
    refine ctl_of 0x00 _ (by simp only [foldl_cat, foldl_nil, fldN_hi, fldN_lo, Nat.reduceLeDiff, Nat.reduceSub, Nat.le_refl, Nat.sub_self]; rfl) (fun w F => ?_) h
    simp only [foldl_cat, foldl_nil] at F
    simp only [rawCtlOp]
    simp [F, fldN_hi, fldN_lo, req_true, decodeSys])
theorem trap (n : BitVec 6) : Statement (.trap n) :=
  of_ctl _ (fun _ => rfl) (fun h => by
    refine ctl_of 0x00 _ (by simp only [foldl_cat, foldl_nil, fldN_hi, fldN_lo, Nat.reduceLeDiff, Nat.reduceSub, Nat.le_refl, Nat.sub_self]; rfl) (fun w F => ?_) h
    simp only [foldl_cat, foldl_nil] at F
    simp only [rawCtlOp]
    simp [F, fldN_hi, fldN_lo, req_true, decodeSys])
theorem eret : Statement (.eret) :=
  of_ctl _ (fun _ => rfl) (fun h => by
    refine ctl_of 0x00 _ (by simp only [foldl_cat, foldl_nil, fldN_hi, fldN_lo, Nat.reduceLeDiff, Nat.reduceSub, Nat.le_refl, Nat.sub_self]; rfl) (fun w F => ?_) h
    simp only [foldl_cat, foldl_nil] at F
    simp only [rawCtlOp]
    simp [F, fldN_hi, fldN_lo, req_true, decodeSys])
theorem psave (d : BitVec 6) (a : BitVec 6) (b : BitVec 6) : Statement (.psave d a b) :=
  of_ctl _ (fun _ => rfl) (fun h => by
    refine ctl_of 0x00 _ (by simp only [foldl_cat, foldl_nil, fldN_hi, fldN_lo, Nat.reduceLeDiff, Nat.reduceSub, Nat.le_refl, Nat.sub_self]; rfl) (fun w F => ?_) h
    simp only [foldl_cat, foldl_nil] at F
    simp only [rawCtlOp]
    simp [F, fldN_hi, fldN_lo, req_true, decodeSys])
theorem prest (d : BitVec 6) (a : BitVec 6) (b : BitVec 6) : Statement (.prest d a b) :=
  of_ctl _ (fun _ => rfl) (fun h => by
    refine ctl_of 0x00 _ (by simp only [foldl_cat, foldl_nil, fldN_hi, fldN_lo, Nat.reduceLeDiff, Nat.reduceSub, Nat.le_refl, Nat.sub_self]; rfl) (fun w F => ?_) h
    simp only [foldl_cat, foldl_nil] at F
    simp only [rawCtlOp]
    simp [F, fldN_hi, fldN_lo, req_true, decodeSys])
theorem tlbi (a : BitVec 6) (b : BitVec 6) : Statement (.tlbi a b) :=
  of_ctl _ (fun _ => rfl) (fun h => by
    refine ctl_of 0x00 _ (by simp only [foldl_cat, foldl_nil, fldN_hi, fldN_lo, Nat.reduceLeDiff, Nat.reduceSub, Nat.le_refl, Nat.sub_self]; rfl) (fun w F => ?_) h
    simp only [foldl_cat, foldl_nil] at F
    simp only [rawCtlOp]
    simp [F, fldN_hi, fldN_lo, req_true, decodeSys])
theorem keyrev (d : BitVec 6) (a : BitVec 6) (b : BitVec 6) : Statement (.keyrev d a b) :=
  of_ctl _ (fun _ => rfl) (fun h => by
    refine ctl_of 0x00 _ (by simp only [foldl_cat, foldl_nil, fldN_hi, fldN_lo, Nat.reduceLeDiff, Nat.reduceSub, Nat.le_refl, Nat.sub_self]; rfl) (fun w F => ?_) h
    simp only [foldl_cat, foldl_nil] at F
    simp only [rawCtlOp]
    simp [F, fldN_hi, fldN_lo, req_true, decodeSys])
theorem icflush : Statement (.icflush) :=
  of_ctl _ (fun _ => rfl) (fun h => by
    refine ctl_of 0x00 _ (by simp only [foldl_cat, foldl_nil, fldN_hi, fldN_lo, Nat.reduceLeDiff, Nat.reduceSub, Nat.le_refl, Nat.sub_self]; rfl) (fun w F => ?_) h
    simp only [foldl_cat, foldl_nil] at F
    simp only [rawCtlOp]
    simp [F, fldN_hi, fldN_lo, req_true, decodeSys])
theorem slipr (d : BitVec 6) : Statement (.slipr d) :=
  of_ctl _ (fun _ => rfl) (fun h => by
    refine ctl_of 0x00 _ (by simp only [foldl_cat, foldl_nil, fldN_hi, fldN_lo, Nat.reduceLeDiff, Nat.reduceSub, Nat.le_refl, Nat.sub_self]; rfl) (fun w F => ?_) h
    simp only [foldl_cat, foldl_nil] at F
    simp only [rawCtlOp]
    simp [F, fldN_hi, fldN_lo, req_true, decodeSys])
theorem preempt (d : BitVec 6) (a : BitVec 6) : Statement (.preempt d a) :=
  of_ctl _ (fun _ => rfl) (fun h => by
    refine ctl_of 0x00 _ (by simp only [foldl_cat, foldl_nil, fldN_hi, fldN_lo, Nat.reduceLeDiff, Nat.reduceSub, Nat.le_refl, Nat.sub_self]; rfl) (fun w F => ?_) h
    simp only [foldl_cat, foldl_nil] at F
    simp only [rawCtlOp]
    simp [F, fldN_hi, fldN_lo, req_true, decodeSys])
theorem csrr (d : BitVec 6) (c : BitVec 12) : Statement (.csrr d c) :=
  of_ctl _ (fun _ => rfl) (fun h => by
    refine ctl_of 0x01 _ (by simp only [foldl_cat, foldl_nil, fldN_hi, fldN_lo, Nat.reduceLeDiff, Nat.reduceSub, Nat.le_refl, Nat.sub_self]; rfl) (fun w F => ?_) h
    simp only [foldl_cat, foldl_nil] at F
    simp only [rawCtlOp]
    simp [F, fldN_hi, fldN_lo, req_true])
theorem csrw (a : BitVec 6) (c : BitVec 12) : Statement (.csrw a c) :=
  of_ctl _ (fun _ => rfl) (fun h => by
    refine ctl_of 0x02 _ (by simp only [foldl_cat, foldl_nil, fldN_hi, fldN_lo, Nat.reduceLeDiff, Nat.reduceSub, Nat.le_refl, Nat.sub_self]; rfl) (fun w F => ?_) h
    simp only [foldl_cat, foldl_nil] at F
    simp only [rawCtlOp]
    simp [F, fldN_hi, fldN_lo, req_true])
theorem add (d : BitVec 6) (a : BitVec 6) (b : BitVec 6) : Statement (.add d a b) :=
  of_ctl _ (fun _ => rfl) (fun h => by
    refine ctl_of 0x03 _ (by simp only [foldl_cat, foldl_nil, fldN_hi, fldN_lo, Nat.reduceLeDiff, Nat.reduceSub, Nat.le_refl, Nat.sub_self]; rfl) (fun w F => ?_) h
    simp only [foldl_cat, foldl_nil] at F
    simp only [rawCtlOp]
    simp [F, fldN_hi, fldN_lo, req_true, decodeInt])
theorem sub (d : BitVec 6) (a : BitVec 6) (b : BitVec 6) : Statement (.sub d a b) :=
  of_ctl _ (fun _ => rfl) (fun h => by
    refine ctl_of 0x03 _ (by simp only [foldl_cat, foldl_nil, fldN_hi, fldN_lo, Nat.reduceLeDiff, Nat.reduceSub, Nat.le_refl, Nat.sub_self]; rfl) (fun w F => ?_) h
    simp only [foldl_cat, foldl_nil] at F
    simp only [rawCtlOp]
    simp [F, fldN_hi, fldN_lo, req_true, decodeInt])
theorem mul (d : BitVec 6) (a : BitVec 6) (b : BitVec 6) : Statement (.mul d a b) :=
  of_ctl _ (fun _ => rfl) (fun h => by
    refine ctl_of 0x03 _ (by simp only [foldl_cat, foldl_nil, fldN_hi, fldN_lo, Nat.reduceLeDiff, Nat.reduceSub, Nat.le_refl, Nat.sub_self]; rfl) (fun w F => ?_) h
    simp only [foldl_cat, foldl_nil] at F
    simp only [rawCtlOp]
    simp [F, fldN_hi, fldN_lo, req_true, decodeInt])
theorem mulh (d : BitVec 6) (a : BitVec 6) (b : BitVec 6) : Statement (.mulh d a b) :=
  of_ctl _ (fun _ => rfl) (fun h => by
    refine ctl_of 0x03 _ (by simp only [foldl_cat, foldl_nil, fldN_hi, fldN_lo, Nat.reduceLeDiff, Nat.reduceSub, Nat.le_refl, Nat.sub_self]; rfl) (fun w F => ?_) h
    simp only [foldl_cat, foldl_nil] at F
    simp only [rawCtlOp]
    simp [F, fldN_hi, fldN_lo, req_true, decodeInt])
theorem mulhn (d : BitVec 6) (a : BitVec 6) (b : BitVec 6) : Statement (.mulhn d a b) :=
  of_ctl _ (fun _ => rfl) (fun h => by
    refine ctl_of 0x03 _ (by simp only [foldl_cat, foldl_nil, fldN_hi, fldN_lo, Nat.reduceLeDiff, Nat.reduceSub, Nat.le_refl, Nat.sub_self]; rfl) (fun w F => ?_) h
    simp only [foldl_cat, foldl_nil] at F
    simp only [rawCtlOp]
    simp [F, fldN_hi, fldN_lo, req_true, decodeInt])
theorem div (d : BitVec 6) (a : BitVec 6) (b : BitVec 6) : Statement (.div d a b) :=
  of_ctl _ (fun _ => rfl) (fun h => by
    refine ctl_of 0x03 _ (by simp only [foldl_cat, foldl_nil, fldN_hi, fldN_lo, Nat.reduceLeDiff, Nat.reduceSub, Nat.le_refl, Nat.sub_self]; rfl) (fun w F => ?_) h
    simp only [foldl_cat, foldl_nil] at F
    simp only [rawCtlOp]
    simp [F, fldN_hi, fldN_lo, req_true, decodeInt])
theorem divn (d : BitVec 6) (a : BitVec 6) (b : BitVec 6) : Statement (.divn d a b) :=
  of_ctl _ (fun _ => rfl) (fun h => by
    refine ctl_of 0x03 _ (by simp only [foldl_cat, foldl_nil, fldN_hi, fldN_lo, Nat.reduceLeDiff, Nat.reduceSub, Nat.le_refl, Nat.sub_self]; rfl) (fun w F => ?_) h
    simp only [foldl_cat, foldl_nil] at F
    simp only [rawCtlOp]
    simp [F, fldN_hi, fldN_lo, req_true, decodeInt])
theorem rem (d : BitVec 6) (a : BitVec 6) (b : BitVec 6) : Statement (.rem d a b) :=
  of_ctl _ (fun _ => rfl) (fun h => by
    refine ctl_of 0x03 _ (by simp only [foldl_cat, foldl_nil, fldN_hi, fldN_lo, Nat.reduceLeDiff, Nat.reduceSub, Nat.le_refl, Nat.sub_self]; rfl) (fun w F => ?_) h
    simp only [foldl_cat, foldl_nil] at F
    simp only [rawCtlOp]
    simp [F, fldN_hi, fldN_lo, req_true, decodeInt])
theorem remn (d : BitVec 6) (a : BitVec 6) (b : BitVec 6) : Statement (.remn d a b) :=
  of_ctl _ (fun _ => rfl) (fun h => by
    refine ctl_of 0x03 _ (by simp only [foldl_cat, foldl_nil, fldN_hi, fldN_lo, Nat.reduceLeDiff, Nat.reduceSub, Nat.le_refl, Nat.sub_self]; rfl) (fun w F => ?_) h
    simp only [foldl_cat, foldl_nil] at F
    simp only [rawCtlOp]
    simp [F, fldN_hi, fldN_lo, req_true, decodeInt])
theorem and (d : BitVec 6) (a : BitVec 6) (b : BitVec 6) : Statement (.and d a b) :=
  of_ctl _ (fun _ => rfl) (fun h => by
    refine ctl_of 0x03 _ (by simp only [foldl_cat, foldl_nil, fldN_hi, fldN_lo, Nat.reduceLeDiff, Nat.reduceSub, Nat.le_refl, Nat.sub_self]; rfl) (fun w F => ?_) h
    simp only [foldl_cat, foldl_nil] at F
    simp only [rawCtlOp]
    simp [F, fldN_hi, fldN_lo, req_true, decodeInt])
theorem or (d : BitVec 6) (a : BitVec 6) (b : BitVec 6) : Statement (.or d a b) :=
  of_ctl _ (fun _ => rfl) (fun h => by
    refine ctl_of 0x03 _ (by simp only [foldl_cat, foldl_nil, fldN_hi, fldN_lo, Nat.reduceLeDiff, Nat.reduceSub, Nat.le_refl, Nat.sub_self]; rfl) (fun w F => ?_) h
    simp only [foldl_cat, foldl_nil] at F
    simp only [rawCtlOp]
    simp [F, fldN_hi, fldN_lo, req_true, decodeInt])
theorem xor (d : BitVec 6) (a : BitVec 6) (b : BitVec 6) : Statement (.xor d a b) :=
  of_ctl _ (fun _ => rfl) (fun h => by
    refine ctl_of 0x03 _ (by simp only [foldl_cat, foldl_nil, fldN_hi, fldN_lo, Nat.reduceLeDiff, Nat.reduceSub, Nat.le_refl, Nat.sub_self]; rfl) (fun w F => ?_) h
    simp only [foldl_cat, foldl_nil] at F
    simp only [rawCtlOp]
    simp [F, fldN_hi, fldN_lo, req_true, decodeInt])
theorem andn (d : BitVec 6) (a : BitVec 6) (b : BitVec 6) : Statement (.andn d a b) :=
  of_ctl _ (fun _ => rfl) (fun h => by
    refine ctl_of 0x03 _ (by simp only [foldl_cat, foldl_nil, fldN_hi, fldN_lo, Nat.reduceLeDiff, Nat.reduceSub, Nat.le_refl, Nat.sub_self]; rfl) (fun w F => ?_) h
    simp only [foldl_cat, foldl_nil] at F
    simp only [rawCtlOp]
    simp [F, fldN_hi, fldN_lo, req_true, decodeInt])
theorem shl (d : BitVec 6) (a : BitVec 6) (b : BitVec 6) : Statement (.shl d a b) :=
  of_ctl _ (fun _ => rfl) (fun h => by
    refine ctl_of 0x03 _ (by simp only [foldl_cat, foldl_nil, fldN_hi, fldN_lo, Nat.reduceLeDiff, Nat.reduceSub, Nat.le_refl, Nat.sub_self]; rfl) (fun w F => ?_) h
    simp only [foldl_cat, foldl_nil] at F
    simp only [rawCtlOp]
    simp [F, fldN_hi, fldN_lo, req_true, decodeInt])
theorem shr (d : BitVec 6) (a : BitVec 6) (b : BitVec 6) : Statement (.shr d a b) :=
  of_ctl _ (fun _ => rfl) (fun h => by
    refine ctl_of 0x03 _ (by simp only [foldl_cat, foldl_nil, fldN_hi, fldN_lo, Nat.reduceLeDiff, Nat.reduceSub, Nat.le_refl, Nat.sub_self]; rfl) (fun w F => ?_) h
    simp only [foldl_cat, foldl_nil] at F
    simp only [rawCtlOp]
    simp [F, fldN_hi, fldN_lo, req_true, decodeInt])
theorem sra (d : BitVec 6) (a : BitVec 6) (b : BitVec 6) : Statement (.sra d a b) :=
  of_ctl _ (fun _ => rfl) (fun h => by
    refine ctl_of 0x03 _ (by simp only [foldl_cat, foldl_nil, fldN_hi, fldN_lo, Nat.reduceLeDiff, Nat.reduceSub, Nat.le_refl, Nat.sub_self]; rfl) (fun w F => ?_) h
    simp only [foldl_cat, foldl_nil] at F
    simp only [rawCtlOp]
    simp [F, fldN_hi, fldN_lo, req_true, decodeInt])
theorem rot (d : BitVec 6) (a : BitVec 6) (b : BitVec 6) : Statement (.rot d a b) :=
  of_ctl _ (fun _ => rfl) (fun h => by
    refine ctl_of 0x03 _ (by simp only [foldl_cat, foldl_nil, fldN_hi, fldN_lo, Nat.reduceLeDiff, Nat.reduceSub, Nat.le_refl, Nat.sub_self]; rfl) (fun w F => ?_) h
    simp only [foldl_cat, foldl_nil] at F
    simp only [rawCtlOp]
    simp [F, fldN_hi, fldN_lo, req_true, decodeInt])
theorem min (d : BitVec 6) (a : BitVec 6) (b : BitVec 6) : Statement (.min d a b) :=
  of_ctl _ (fun _ => rfl) (fun h => by
    refine ctl_of 0x03 _ (by simp only [foldl_cat, foldl_nil, fldN_hi, fldN_lo, Nat.reduceLeDiff, Nat.reduceSub, Nat.le_refl, Nat.sub_self]; rfl) (fun w F => ?_) h
    simp only [foldl_cat, foldl_nil] at F
    simp only [rawCtlOp]
    simp [F, fldN_hi, fldN_lo, req_true, decodeInt])
theorem max (d : BitVec 6) (a : BitVec 6) (b : BitVec 6) : Statement (.max d a b) :=
  of_ctl _ (fun _ => rfl) (fun h => by
    refine ctl_of 0x03 _ (by simp only [foldl_cat, foldl_nil, fldN_hi, fldN_lo, Nat.reduceLeDiff, Nat.reduceSub, Nat.le_refl, Nat.sub_self]; rfl) (fun w F => ?_) h
    simp only [foldl_cat, foldl_nil] at F
    simp only [rawCtlOp]
    simp [F, fldN_hi, fldN_lo, req_true, decodeInt])
theorem minn (d : BitVec 6) (a : BitVec 6) (b : BitVec 6) : Statement (.minn d a b) :=
  of_ctl _ (fun _ => rfl) (fun h => by
    refine ctl_of 0x03 _ (by simp only [foldl_cat, foldl_nil, fldN_hi, fldN_lo, Nat.reduceLeDiff, Nat.reduceSub, Nat.le_refl, Nat.sub_self]; rfl) (fun w F => ?_) h
    simp only [foldl_cat, foldl_nil] at F
    simp only [rawCtlOp]
    simp [F, fldN_hi, fldN_lo, req_true, decodeInt])
theorem maxn (d : BitVec 6) (a : BitVec 6) (b : BitVec 6) : Statement (.maxn d a b) :=
  of_ctl _ (fun _ => rfl) (fun h => by
    refine ctl_of 0x03 _ (by simp only [foldl_cat, foldl_nil, fldN_hi, fldN_lo, Nat.reduceLeDiff, Nat.reduceSub, Nat.le_refl, Nat.sub_self]; rfl) (fun w F => ?_) h
    simp only [foldl_cat, foldl_nil] at F
    simp only [rawCtlOp]
    simp [F, fldN_hi, fldN_lo, req_true, decodeInt])
theorem clz (d : BitVec 6) (a : BitVec 6) : Statement (.clz d a) :=
  of_ctl _ (fun _ => rfl) (fun h => by
    refine ctl_of 0x03 _ (by simp only [foldl_cat, foldl_nil, fldN_hi, fldN_lo, Nat.reduceLeDiff, Nat.reduceSub, Nat.le_refl, Nat.sub_self]; rfl) (fun w F => ?_) h
    simp only [foldl_cat, foldl_nil] at F
    simp only [rawCtlOp]
    simp [F, fldN_hi, fldN_lo, req_true, decodeInt])
theorem ctz (d : BitVec 6) (a : BitVec 6) : Statement (.ctz d a) :=
  of_ctl _ (fun _ => rfl) (fun h => by
    refine ctl_of 0x03 _ (by simp only [foldl_cat, foldl_nil, fldN_hi, fldN_lo, Nat.reduceLeDiff, Nat.reduceSub, Nat.le_refl, Nat.sub_self]; rfl) (fun w F => ?_) h
    simp only [foldl_cat, foldl_nil] at F
    simp only [rawCtlOp]
    simp [F, fldN_hi, fldN_lo, req_true, decodeInt])
theorem popc (d : BitVec 6) (a : BitVec 6) : Statement (.popc d a) :=
  of_ctl _ (fun _ => rfl) (fun h => by
    refine ctl_of 0x03 _ (by simp only [foldl_cat, foldl_nil, fldN_hi, fldN_lo, Nat.reduceLeDiff, Nat.reduceSub, Nat.le_refl, Nat.sub_self]; rfl) (fun w F => ?_) h
    simp only [foldl_cat, foldl_nil] at F
    simp only [rawCtlOp]
    simp [F, fldN_hi, fldN_lo, req_true, decodeInt])
theorem bswap (d : BitVec 6) (a : BitVec 6) : Statement (.bswap d a) :=
  of_ctl _ (fun _ => rfl) (fun h => by
    refine ctl_of 0x03 _ (by simp only [foldl_cat, foldl_nil, fldN_hi, fldN_lo, Nat.reduceLeDiff, Nat.reduceSub, Nat.le_refl, Nat.sub_self]; rfl) (fun w F => ?_) h
    simp only [foldl_cat, foldl_nil] at F
    simp only [rawCtlOp]
    simp [F, fldN_hi, fldN_lo, req_true, decodeInt])
theorem addi (d : BitVec 6) (a : BitVec 6) (i : BitVec 14) : Statement (.addi d a i) :=
  of_ctl _ (fun _ => rfl) (fun h => by
    refine ctl_of 0x04 _ (by simp only [foldl_cat, foldl_nil, fldN_hi, fldN_lo, Nat.reduceLeDiff, Nat.reduceSub, Nat.le_refl, Nat.sub_self]; rfl) (fun w F => ?_) h
    simp only [foldl_cat, foldl_nil] at F
    simp only [rawCtlOp]
    simp [F, fldN_hi, fldN_lo, req_true])
theorem andi (d : BitVec 6) (a : BitVec 6) (i : BitVec 14) : Statement (.andi d a i) :=
  of_ctl _ (fun _ => rfl) (fun h => by
    refine ctl_of 0x05 _ (by simp only [foldl_cat, foldl_nil, fldN_hi, fldN_lo, Nat.reduceLeDiff, Nat.reduceSub, Nat.le_refl, Nat.sub_self]; rfl) (fun w F => ?_) h
    simp only [foldl_cat, foldl_nil] at F
    simp only [rawCtlOp]
    simp [F, fldN_hi, fldN_lo, req_true])
theorem ori (d : BitVec 6) (a : BitVec 6) (i : BitVec 14) : Statement (.ori d a i) :=
  of_ctl _ (fun _ => rfl) (fun h => by
    refine ctl_of 0x06 _ (by simp only [foldl_cat, foldl_nil, fldN_hi, fldN_lo, Nat.reduceLeDiff, Nat.reduceSub, Nat.le_refl, Nat.sub_self]; rfl) (fun w F => ?_) h
    simp only [foldl_cat, foldl_nil] at F
    simp only [rawCtlOp]
    simp [F, fldN_hi, fldN_lo, req_true])
theorem xori (d : BitVec 6) (a : BitVec 6) (i : BitVec 14) : Statement (.xori d a i) :=
  of_ctl _ (fun _ => rfl) (fun h => by
    refine ctl_of 0x07 _ (by simp only [foldl_cat, foldl_nil, fldN_hi, fldN_lo, Nat.reduceLeDiff, Nat.reduceSub, Nat.le_refl, Nat.sub_self]; rfl) (fun w F => ?_) h
    simp only [foldl_cat, foldl_nil] at F
    simp only [rawCtlOp]
    simp [F, fldN_hi, fldN_lo, req_true])
theorem shli (d : BitVec 6) (a : BitVec 6) (n : BitVec 6) : Statement (.shli d a n) :=
  of_ctl _ (fun _ => rfl) (fun h => by
    refine ctl_of 0x08 _ (by simp only [foldl_cat, foldl_nil, fldN_hi, fldN_lo, Nat.reduceLeDiff, Nat.reduceSub, Nat.le_refl, Nat.sub_self]; rfl) (fun w F => ?_) h
    simp only [foldl_cat, foldl_nil] at F
    simp only [rawCtlOp]
    simp [F, fldN_hi, fldN_lo, req_true])
theorem shri (d : BitVec 6) (a : BitVec 6) (n : BitVec 6) : Statement (.shri d a n) :=
  of_ctl _ (fun _ => rfl) (fun h => by
    refine ctl_of 0x09 _ (by simp only [foldl_cat, foldl_nil, fldN_hi, fldN_lo, Nat.reduceLeDiff, Nat.reduceSub, Nat.le_refl, Nat.sub_self]; rfl) (fun w F => ?_) h
    simp only [foldl_cat, foldl_nil] at F
    simp only [rawCtlOp]
    simp [F, fldN_hi, fldN_lo, req_true])
theorem srai (d : BitVec 6) (a : BitVec 6) (n : BitVec 6) : Statement (.srai d a n) :=
  of_ctl _ (fun _ => rfl) (fun h => by
    refine ctl_of 0x0A _ (by simp only [foldl_cat, foldl_nil, fldN_hi, fldN_lo, Nat.reduceLeDiff, Nat.reduceSub, Nat.le_refl, Nat.sub_self]; rfl) (fun w F => ?_) h
    simp only [foldl_cat, foldl_nil] at F
    simp only [rawCtlOp]
    simp [F, fldN_hi, fldN_lo, req_true])
theorem muli (d : BitVec 6) (a : BitVec 6) (i : BitVec 14) : Statement (.muli d a i) :=
  of_ctl _ (fun _ => rfl) (fun h => by
    refine ctl_of 0x0B _ (by simp only [foldl_cat, foldl_nil, fldN_hi, fldN_lo, Nat.reduceLeDiff, Nat.reduceSub, Nat.le_refl, Nat.sub_self]; rfl) (fun w F => ?_) h
    simp only [foldl_cat, foldl_nil] at F
    simp only [rawCtlOp]
    simp [F, fldN_hi, fldN_lo, req_true])
theorem li (d : BitVec 6) (i : BitVec 20) : Statement (.li d i) :=
  of_ctl _ (fun _ => rfl) (fun h => by
    refine ctl_of 0x0C _ (by simp only [foldl_cat, foldl_nil, fldN_hi, fldN_lo, Nat.reduceLeDiff, Nat.reduceSub, Nat.le_refl, Nat.sub_self]; rfl) (fun w F => ?_) h
    simp only [foldl_cat, foldl_nil] at F
    simp only [rawCtlOp]
    simp [F, fldN_hi, fldN_lo, req_true])
theorem lik (d : BitVec 6) (k : BitVec 2) (i : BitVec 16) : Statement (.lik d k i) :=
  of_ctl _ (fun _ => rfl) (fun h => by
    refine ctl_of 0x0D _ (by simp only [foldl_cat, foldl_nil, fldN_hi, fldN_lo, Nat.reduceLeDiff, Nat.reduceSub, Nat.le_refl, Nat.sub_self]; rfl) (fun w F => ?_) h
    simp only [foldl_cat, foldl_nil] at F
    simp only [rawCtlOp]
    simp [F, fldN_hi, fldN_lo, req_true])
theorem cmp (pd : BitVec 3) (cc : Cond) (a : BitVec 6) (b : BitVec 6) : Statement (.cmp pd cc a b) :=
  of_ctl _ (fun _ => rfl) (fun h => by
    refine ctl_of 0x0E _ (by simp only [foldl_cat, foldl_nil, fldN_hi, fldN_lo, Nat.reduceLeDiff, Nat.reduceSub, Nat.le_refl, Nat.sub_self]; rfl) (fun w F => ?_) h
    simp only [foldl_cat, foldl_nil] at F
    simp only [rawCtlOp]
    simp [F, fldN_hi, fldN_lo, req_true])
theorem cmpi (pd : BitVec 3) (cc : Cond) (a : BitVec 6) (i : BitVec 12) : Statement (.cmpi pd cc a i) :=
  of_ctl _ (fun _ => rfl) (fun h => by
    refine ctl_of 0x0F _ (by simp only [foldl_cat, foldl_nil, fldN_hi, fldN_lo, Nat.reduceLeDiff, Nat.reduceSub, Nat.le_refl, Nat.sub_self]; rfl) (fun w F => ?_) h
    simp only [foldl_cat, foldl_nil] at F
    simp only [rawCtlOp]
    have h' : ((cc != .bs && cc != .bc) || decide (i.toNat < 64)) = true := h
    simp [F, fldN_hi, fldN_lo, req_true, h'])
theorem pand (d : BitVec 3) (a : BitVec 3) (b : BitVec 3) : Statement (.pand d a b) :=
  of_ctl _ (fun _ => rfl) (fun h => by
    refine ctl_of 0x10 _ (by simp only [foldl_cat, foldl_nil, fldN_hi, fldN_lo, Nat.reduceLeDiff, Nat.reduceSub, Nat.le_refl, Nat.sub_self]; rfl) (fun w F => ?_) h
    simp only [foldl_cat, foldl_nil] at F
    simp only [rawCtlOp]
    simp [F, fldN_hi, fldN_lo, req_true, decodePlog])
theorem por (d : BitVec 3) (a : BitVec 3) (b : BitVec 3) : Statement (.por d a b) :=
  of_ctl _ (fun _ => rfl) (fun h => by
    refine ctl_of 0x10 _ (by simp only [foldl_cat, foldl_nil, fldN_hi, fldN_lo, Nat.reduceLeDiff, Nat.reduceSub, Nat.le_refl, Nat.sub_self]; rfl) (fun w F => ?_) h
    simp only [foldl_cat, foldl_nil] at F
    simp only [rawCtlOp]
    simp [F, fldN_hi, fldN_lo, req_true, decodePlog])
theorem pxor (d : BitVec 3) (a : BitVec 3) (b : BitVec 3) : Statement (.pxor d a b) :=
  of_ctl _ (fun _ => rfl) (fun h => by
    refine ctl_of 0x10 _ (by simp only [foldl_cat, foldl_nil, fldN_hi, fldN_lo, Nat.reduceLeDiff, Nat.reduceSub, Nat.le_refl, Nat.sub_self]; rfl) (fun w F => ?_) h
    simp only [foldl_cat, foldl_nil] at F
    simp only [rawCtlOp]
    simp [F, fldN_hi, fldN_lo, req_true, decodePlog])
theorem pandn (d : BitVec 3) (a : BitVec 3) (b : BitVec 3) : Statement (.pandn d a b) :=
  of_ctl _ (fun _ => rfl) (fun h => by
    refine ctl_of 0x10 _ (by simp only [foldl_cat, foldl_nil, fldN_hi, fldN_lo, Nat.reduceLeDiff, Nat.reduceSub, Nat.le_refl, Nat.sub_self]; rfl) (fun w F => ?_) h
    simp only [foldl_cat, foldl_nil] at F
    simp only [rawCtlOp]
    simp [F, fldN_hi, fldN_lo, req_true, decodePlog])
theorem pnot (d : BitVec 3) (a : BitVec 3) : Statement (.pnot d a) :=
  of_ctl _ (fun _ => rfl) (fun h => by
    refine ctl_of 0x10 _ (by simp only [foldl_cat, foldl_nil, fldN_hi, fldN_lo, Nat.reduceLeDiff, Nat.reduceSub, Nat.le_refl, Nat.sub_self]; rfl) (fun w F => ?_) h
    simp only [foldl_cat, foldl_nil] at F
    simp only [rawCtlOp]
    simp [F, fldN_hi, fldN_lo, req_true, decodePlog])
theorem pfrom (d : BitVec 3) (a : BitVec 6) (n : BitVec 6) : Statement (.pfrom d a n) :=
  of_ctl _ (fun _ => rfl) (fun h => by
    refine ctl_of 0x10 _ (by simp only [foldl_cat, foldl_nil, fldN_hi, fldN_lo, Nat.reduceLeDiff, Nat.reduceSub, Nat.le_refl, Nat.sub_self]; rfl) (fun w F => ?_) h
    simp only [foldl_cat, foldl_nil] at F
    simp only [rawCtlOp]
    simp [F, fldN_hi, fldN_lo, req_true, decodePlog])
theorem pto (d : BitVec 6) (a : BitVec 3) : Statement (.pto d a) :=
  of_ctl _ (fun _ => rfl) (fun h => by
    refine ctl_of 0x10 _ (by simp only [foldl_cat, foldl_nil, fldN_hi, fldN_lo, Nat.reduceLeDiff, Nat.reduceSub, Nat.le_refl, Nat.sub_self]; rfl) (fun w F => ?_) h
    simp only [foldl_cat, foldl_nil] at F
    simp only [rawCtlOp]
    simp [F, fldN_hi, fldN_lo, req_true, decodePlog])
theorem sel (d : BitVec 6) (a : BitVec 6) (b : BitVec 6) (inv : Bool) (p : BitVec 3) : Statement (.sel d a b inv p) :=
  of_ctl _ (fun _ => rfl) (fun h => by
    refine ctl_of 0x11 _ (by simp only [foldl_cat, foldl_nil, fldN_hi, fldN_lo, Nat.reduceLeDiff, Nat.reduceSub, Nat.le_refl, Nat.sub_self]; rfl) (fun w F => ?_) h
    simp only [foldl_cat, foldl_nil] at F
    simp only [rawCtlOp]
    simp [F, fldN_hi, fldN_lo, req_true])
theorem lea (d : BitVec 6) (a : BitVec 6) (b : BitVec 6) (disp : BitVec 5) (sh : BitVec 3) : Statement (.lea d a b disp sh) :=
  of_ctl _ (fun _ => rfl) (fun h => by
    refine ctl_of 0x12 _ (by simp only [foldl_cat, foldl_nil, fldN_hi, fldN_lo, Nat.reduceLeDiff, Nat.reduceSub, Nat.le_refl, Nat.sub_self]; rfl) (fun w F => ?_) h
    simp only [foldl_cat, foldl_nil] at F
    simp only [rawCtlOp]
    simp [F, fldN_hi, fldN_lo, req_true])
theorem br (p : BitVec 3) (off : BitVec 22) : Statement (.br p off) :=
  of_ctl _ (fun _ => rfl) (fun h => by
    refine ctl_of 0x13 _ (by simp only [foldl_cat, foldl_nil, fldN_hi, fldN_lo, Nat.reduceLeDiff, Nat.reduceSub, Nat.le_refl, Nat.sub_self]; rfl) (fun w F => ?_) h
    simp only [foldl_cat, foldl_nil] at F
    simp only [rawCtlOp]
    simp [F, fldN_hi, fldN_lo, req_true])
theorem brn (p : BitVec 3) (off : BitVec 22) : Statement (.brn p off) :=
  of_ctl _ (fun _ => rfl) (fun h => by
    refine ctl_of 0x13 _ (by simp only [foldl_cat, foldl_nil, fldN_hi, fldN_lo, Nat.reduceLeDiff, Nat.reduceSub, Nat.le_refl, Nat.sub_self]; rfl) (fun w F => ?_) h
    simp only [foldl_cat, foldl_nil] at F
    simp only [rawCtlOp]
    simp [F, fldN_hi, fldN_lo, req_true])
theorem call (off : BitVec 26) : Statement (.call off) :=
  of_ctl _ (fun _ => rfl) (fun h => by
    refine ctl_of 0x14 _ (by simp only [foldl_cat, foldl_nil, fldN_hi, fldN_lo, Nat.reduceLeDiff, Nat.reduceSub, Nat.le_refl, Nat.sub_self]; rfl) (fun w F => ?_) h
    simp only [foldl_cat, foldl_nil] at F
    simp only [rawCtlOp]
    simp [F, fldN_hi, fldN_lo, req_true])
theorem jr (a : BitVec 6) : Statement (.jr a) :=
  of_ctl _ (fun _ => rfl) (fun h => by
    refine ctl_of 0x15 _ (by simp only [foldl_cat, foldl_nil, fldN_hi, fldN_lo, Nat.reduceLeDiff, Nat.reduceSub, Nat.le_refl, Nat.sub_self]; rfl) (fun w F => ?_) h
    simp only [foldl_cat, foldl_nil] at F
    simp only [rawCtlOp]
    simp [F, fldN_hi, fldN_lo, req_true, decodeJr])
theorem ret : Statement (.ret) :=
  of_ctl _ (fun _ => rfl) (fun h => by
    refine ctl_of 0x15 _ (by simp only [foldl_cat, foldl_nil, fldN_hi, fldN_lo, Nat.reduceLeDiff, Nat.reduceSub, Nat.le_refl, Nat.sub_self]; rfl) (fun w F => ?_) h
    simp only [foldl_cat, foldl_nil] at F
    simp only [rawCtlOp]
    simp [F, fldN_hi, fldN_lo, req_true, decodeJr])
theorem callr (a : BitVec 6) : Statement (.callr a) :=
  of_ctl _ (fun _ => rfl) (fun h => by
    refine ctl_of 0x15 _ (by simp only [foldl_cat, foldl_nil, fldN_hi, fldN_lo, Nat.reduceLeDiff, Nat.reduceSub, Nat.le_refl, Nat.sub_self]; rfl) (fun w F => ?_) h
    simp only [foldl_cat, foldl_nil] at F
    simp only [rawCtlOp]
    simp [F, fldN_hi, fldN_lo, req_true, decodeJr])
theorem loop (a : BitVec 6) (n : BitVec 6) : Statement (.loop a n) :=
  of_ctl _ (fun _ => rfl) (fun h => by
    refine ctl_of 0x16 _ (by simp only [foldl_cat, foldl_nil, fldN_hi, fldN_lo, Nat.reduceLeDiff, Nat.reduceSub, Nat.le_refl, Nat.sub_self]; rfl) (fun w F => ?_) h
    simp only [foldl_cat, foldl_nil] at F
    simp only [rawCtlOp]
    simp [F, fldN_hi, fldN_lo, req_true])
theorem lds (d : BitVec 6) (a : BitVec 6) (off : BitVec 12) (z : Size) : Statement (.lds d a off z) :=
  of_ctl _ (fun _ => rfl) (fun h => by
    refine ctl_of 0x17 _ (by simp only [foldl_cat, foldl_nil, fldN_hi, fldN_lo, Nat.reduceLeDiff, Nat.reduceSub, Nat.le_refl, Nat.sub_self]; rfl) (fun w F => ?_) h
    simp only [foldl_cat, foldl_nil] at F
    simp only [rawCtlOp]
    simp [F, fldN_hi, fldN_lo, req_true])
theorem sts (x : BitVec 6) (a : BitVec 6) (off : BitVec 12) (z : Size) : Statement (.sts x a off z) :=
  of_ctl _ (fun _ => rfl) (fun h => by
    refine ctl_of 0x18 _ (by simp only [foldl_cat, foldl_nil, fldN_hi, fldN_lo, Nat.reduceLeDiff, Nat.reduceSub, Nat.le_refl, Nat.sub_self]; rfl) (fun w F => ?_) h
    simp only [foldl_cat, foldl_nil] at F
    simp only [rawCtlOp]
    simp [F, fldN_hi, fldN_lo, req_true])
theorem atom (op : AtomOp) (dword : Bool) (d : BitVec 6) (a : BitVec 6) (b : BitVec 6) : Statement (.atom op dword d a b) :=
  of_ctl _ (fun _ => rfl) (fun h => by
    refine ctl_of 0x19 _ (by simp only [foldl_cat, foldl_nil, fldN_hi, fldN_lo, Nat.reduceLeDiff, Nat.reduceSub, Nat.le_refl, Nat.sub_self]; rfl) (fun w F => ?_) h
    simp only [foldl_cat, foldl_nil] at F
    simp only [rawCtlOp]
    simp [F, fldN_hi, fldN_lo, req_true])
theorem cas (dword : Bool) (d : BitVec 6) (a : BitVec 6) (b : BitVec 6) : Statement (.cas dword d a b) :=
  of_ctl _ (fun _ => rfl) (fun h => by
    refine ctl_of 0x1A _ (by simp only [foldl_cat, foldl_nil, fldN_hi, fldN_lo, Nat.reduceLeDiff, Nat.reduceSub, Nat.le_refl, Nat.sub_self]; rfl) (fun w F => ?_) h
    simp only [foldl_cat, foldl_nil] at F
    simp only [rawCtlOp]
    simp [F, fldN_hi, fldN_lo, req_true])
theorem ldfe (d : BitVec 6) (a : BitVec 6) : Statement (.ldfe d a) :=
  of_ctl _ (fun _ => rfl) (fun h => by
    refine ctl_of 0x1B _ (by simp only [foldl_cat, foldl_nil, fldN_hi, fldN_lo, Nat.reduceLeDiff, Nat.reduceSub, Nat.le_refl, Nat.sub_self]; rfl) (fun w F => ?_) h
    simp only [foldl_cat, foldl_nil] at F
    simp only [rawCtlOp]
    simp [F, fldN_hi, fldN_lo, req_true, decodeFe])
theorem ldf (d : BitVec 6) (a : BitVec 6) : Statement (.ldf d a) :=
  of_ctl _ (fun _ => rfl) (fun h => by
    refine ctl_of 0x1B _ (by simp only [foldl_cat, foldl_nil, fldN_hi, fldN_lo, Nat.reduceLeDiff, Nat.reduceSub, Nat.le_refl, Nat.sub_self]; rfl) (fun w F => ?_) h
    simp only [foldl_cat, foldl_nil] at F
    simp only [rawCtlOp]
    simp [F, fldN_hi, fldN_lo, req_true, decodeFe])
theorem stfe (a : BitVec 6) (b : BitVec 6) : Statement (.stfe a b) :=
  of_ctl _ (fun _ => rfl) (fun h => by
    refine ctl_of 0x1B _ (by simp only [foldl_cat, foldl_nil, fldN_hi, fldN_lo, Nat.reduceLeDiff, Nat.reduceSub, Nat.le_refl, Nat.sub_self]; rfl) (fun w F => ?_) h
    simp only [foldl_cat, foldl_nil] at F
    simp only [rawCtlOp]
    simp [F, fldN_hi, fldN_lo, req_true, decodeFe])
theorem stf (a : BitVec 6) (b : BitVec 6) : Statement (.stf a b) :=
  of_ctl _ (fun _ => rfl) (fun h => by
    refine ctl_of 0x1B _ (by simp only [foldl_cat, foldl_nil, fldN_hi, fldN_lo, Nat.reduceLeDiff, Nat.reduceSub, Nat.le_refl, Nat.sub_self]; rfl) (fun w F => ?_) h
    simp only [foldl_cat, foldl_nil] at F
    simp only [rawCtlOp]
    simp [F, fldN_hi, fldN_lo, req_true, decodeFe])
theorem feprobe (d : BitVec 6) (a : BitVec 6) : Statement (.feprobe d a) :=
  of_ctl _ (fun _ => rfl) (fun h => by
    refine ctl_of 0x1B _ (by simp only [foldl_cat, foldl_nil, fldN_hi, fldN_lo, Nat.reduceLeDiff, Nat.reduceSub, Nat.le_refl, Nat.sub_self]; rfl) (fun w F => ?_) h
    simp only [foldl_cat, foldl_nil] at F
    simp only [rawCtlOp]
    simp [F, fldN_hi, fldN_lo, req_true, decodeFe])
theorem fence (kind : FenceKind) (scope : Scope) : Statement (.fence kind scope) :=
  of_ctl _ (fun _ => rfl) (fun h => by
    refine ctl_of 0x1C _ (by simp only [foldl_cat, foldl_nil, fldN_hi, fldN_lo, Nat.reduceLeDiff, Nat.reduceSub, Nat.le_refl, Nat.sub_self]; rfl) (fun w F => ?_) h
    simp only [foldl_cat, foldl_nil] at F
    simp only [rawCtlOp]
    simp [F, fldN_hi, fldN_lo, req_true])
theorem tkpush (e : BitVec 2) : Statement (.tkpush e) :=
  of_ctl _ (fun _ => rfl) (fun h => by
    refine ctl_of 0x1D _ (by simp only [foldl_cat, foldl_nil, fldN_hi, fldN_lo, Nat.reduceLeDiff, Nat.reduceSub, Nat.le_refl, Nat.sub_self]; rfl) (fun w F => ?_) h
    simp only [foldl_cat, foldl_nil] at F
    simp only [rawCtlOp]
    simp [F, fldN_hi, fldN_lo, req_true, decodeTok])
theorem tkpushv (a : BitVec 6) (e : BitVec 2) : Statement (.tkpushv a e) :=
  of_ctl _ (fun _ => rfl) (fun h => by
    refine ctl_of 0x1D _ (by simp only [foldl_cat, foldl_nil, fldN_hi, fldN_lo, Nat.reduceLeDiff, Nat.reduceSub, Nat.le_refl, Nat.sub_self]; rfl) (fun w F => ?_) h
    simp only [foldl_cat, foldl_nil] at F
    simp only [rawCtlOp]
    simp [F, fldN_hi, fldN_lo, req_true, decodeTok])
theorem tkpop (e : BitVec 2) : Statement (.tkpop e) :=
  of_ctl _ (fun _ => rfl) (fun h => by
    refine ctl_of 0x1D _ (by simp only [foldl_cat, foldl_nil, fldN_hi, fldN_lo, Nat.reduceLeDiff, Nat.reduceSub, Nat.le_refl, Nat.sub_self]; rfl) (fun w F => ?_) h
    simp only [foldl_cat, foldl_nil] at F
    simp only [rawCtlOp]
    simp [F, fldN_hi, fldN_lo, req_true, decodeTok])
theorem tkpopv (d : BitVec 6) (e : BitVec 2) : Statement (.tkpopv d e) :=
  of_ctl _ (fun _ => rfl) (fun h => by
    refine ctl_of 0x1D _ (by simp only [foldl_cat, foldl_nil, fldN_hi, fldN_lo, Nat.reduceLeDiff, Nat.reduceSub, Nat.le_refl, Nat.sub_self]; rfl) (fun w F => ?_) h
    simp only [foldl_cat, foldl_nil] at F
    simp only [rawCtlOp]
    simp [F, fldN_hi, fldN_lo, req_true, decodeTok])
theorem tkcnt (d : BitVec 6) (e : BitVec 2) : Statement (.tkcnt d e) :=
  of_ctl _ (fun _ => rfl) (fun h => by
    refine ctl_of 0x1D _ (by simp only [foldl_cat, foldl_nil, fldN_hi, fldN_lo, Nat.reduceLeDiff, Nat.reduceSub, Nat.le_refl, Nat.sub_self]; rfl) (fun w F => ?_) h
    simp only [foldl_cat, foldl_nil] at F
    simp only [rawCtlOp]
    simp [F, fldN_hi, fldN_lo, req_true, decodeTok])
theorem tlread (d : BitVec 6) (x : TlCtx) : Statement (.tlread d x) :=
  of_ctl _ (fun _ => rfl) (fun h => by
    refine ctl_of 0x1E _ (by simp only [foldl_cat, foldl_nil, fldN_hi, fldN_lo, Nat.reduceLeDiff, Nat.reduceSub, Nat.le_refl, Nat.sub_self]; rfl) (fun w F => ?_) h
    simp only [foldl_cat, foldl_nil] at F
    simp only [rawCtlOp]
    simp [F, fldN_hi, fldN_lo, req_true, decodeTl])
theorem tlwait (x : TlCtx) (a : BitVec 6) : Statement (.tlwait x a) :=
  of_ctl _ (fun _ => rfl) (fun h => by
    refine ctl_of 0x1E _ (by simp only [foldl_cat, foldl_nil, fldN_hi, fldN_lo, Nat.reduceLeDiff, Nat.reduceSub, Nat.le_refl, Nat.sub_self]; rfl) (fun w F => ?_) h
    simp only [foldl_cat, foldl_nil] at F
    simp only [rawCtlOp]
    simp [F, fldN_hi, fldN_lo, req_true, decodeTl])
theorem tlwaitp (p : BitVec 3) (x : TlCtx) (a : BitVec 6) : Statement (.tlwaitp p x a) :=
  of_ctl _ (fun _ => rfl) (fun h => by
    refine ctl_of 0x1E _ (by simp only [foldl_cat, foldl_nil, fldN_hi, fldN_lo, Nat.reduceLeDiff, Nat.reduceSub, Nat.le_refl, Nat.sub_self]; rfl) (fun w F => ?_) h
    simp only [foldl_cat, foldl_nil] at F
    simp only [rawCtlOp]
    simp [F, fldN_hi, fldN_lo, req_true, decodeTl])
theorem dbar (l : BitVec 3) : Statement (.dbar l) :=
  of_ctl _ (fun _ => rfl) (fun h => by
    refine ctl_of 0x1F _ (by simp only [foldl_cat, foldl_nil, fldN_hi, fldN_lo, Nat.reduceLeDiff, Nat.reduceSub, Nat.le_refl, Nat.sub_self]; rfl) (fun w F => ?_) h
    simp only [foldl_cat, foldl_nil] at F
    simp only [rawCtlOp]
    simp [F, fldN_hi, fldN_lo, req_true])
theorem dbarNotice (core : Nat) (level : Nat) : Statement (.dbarNotice core level) := of_event _ (fun _ => rfl)
theorem launch (d : BitVec 6) (a : BitVec 6) : Statement (.launch d a) :=
  of_ctl _ (fun _ => rfl) (fun h => by
    refine ctl_of 0x20 _ (by simp only [foldl_cat, foldl_nil, fldN_hi, fldN_lo, Nat.reduceLeDiff, Nat.reduceSub, Nat.le_refl, Nat.sub_self]; rfl) (fun w F => ?_) h
    simp only [foldl_cat, foldl_nil] at F
    simp only [rawCtlOp]
    simp [F, fldN_hi, fldN_lo, req_true, decodeLaunch])
theorem lstat (d : BitVec 6) (a : BitVec 6) : Statement (.lstat d a) :=
  of_ctl _ (fun _ => rfl) (fun h => by
    refine ctl_of 0x20 _ (by simp only [foldl_cat, foldl_nil, fldN_hi, fldN_lo, Nat.reduceLeDiff, Nat.reduceSub, Nat.le_refl, Nat.sub_self]; rfl) (fun w F => ?_) h
    simp only [foldl_cat, foldl_nil] at F
    simp only [rawCtlOp]
    simp [F, fldN_hi, fldN_lo, req_true, decodeLaunch])
theorem lcancel (d : BitVec 6) (a : BitVec 6) : Statement (.lcancel d a) :=
  of_ctl _ (fun _ => rfl) (fun h => by
    refine ctl_of 0x20 _ (by simp only [foldl_cat, foldl_nil, fldN_hi, fldN_lo, Nat.reduceLeDiff, Nat.reduceSub, Nat.le_refl, Nat.sub_self]; rfl) (fun w F => ?_) h
    simp only [foldl_cat, foldl_nil] at F
    simp only [rawCtlOp]
    simp [F, fldN_hi, fldN_lo, req_true, decodeLaunch])
theorem done : Statement (.done) :=
  of_ctl _ (fun _ => rfl) (fun h => by
    refine ctl_of 0x20 _ (by simp only [foldl_cat, foldl_nil, fldN_hi, fldN_lo, Nat.reduceLeDiff, Nat.reduceSub, Nat.le_refl, Nat.sub_self]; rfl) (fun w F => ?_) h
    simp only [foldl_cat, foldl_nil] at F
    simp only [rawCtlOp]
    simp [F, fldN_hi, fldN_lo, req_true, decodeLaunch])
theorem talloc (d : BitVec 6) (a : BitVec 6) (b : BitVec 6) (t : Elem) : Statement (.talloc d a b t) :=
  of_ctl _ (fun _ => rfl) (fun h => by
    refine ctl_of 0x21 _ (by simp only [foldl_cat, foldl_nil, fldN_hi, fldN_lo, Nat.reduceLeDiff, Nat.reduceSub, Nat.le_refl, Nat.sub_self]; rfl) (fun w F => ?_) h
    simp only [foldl_cat, foldl_nil] at F
    simp only [rawCtlOp]
    simp [F, fldN_hi, fldN_lo, req_true])
theorem dup (d : BitVec 6) (a : BitVec 6) : Statement (.dup d a) :=
  of_ctl _ (fun _ => rfl) (fun h => by
    refine ctl_of 0x22 _ (by simp only [foldl_cat, foldl_nil, fldN_hi, fldN_lo, Nat.reduceLeDiff, Nat.reduceSub, Nat.le_refl, Nat.sub_self]; rfl) (fun w F => ?_) h
    simp only [foldl_cat, foldl_nil] at F
    simp only [rawCtlOp]
    simp [F, fldN_hi, fldN_lo, req_true, decodeVal])
theorem drop (a : BitVec 6) : Statement (.drop a) :=
  of_ctl _ (fun _ => rfl) (fun h => by
    refine ctl_of 0x22 _ (by simp only [foldl_cat, foldl_nil, fldN_hi, fldN_lo, Nat.reduceLeDiff, Nat.reduceSub, Nat.le_refl, Nat.sub_self]; rfl) (fun w F => ?_) h
    simp only [foldl_cat, foldl_nil] at F
    simp only [rawCtlOp]
    simp [F, fldN_hi, fldN_lo, req_true, decodeVal])
theorem tcount (d : BitVec 6) (a : BitVec 6) : Statement (.tcount d a) :=
  of_ctl _ (fun _ => rfl) (fun h => by
    refine ctl_of 0x22 _ (by simp only [foldl_cat, foldl_nil, fldN_hi, fldN_lo, Nat.reduceLeDiff, Nat.reduceSub, Nat.le_refl, Nat.sub_self]; rfl) (fun w F => ?_) h
    simp only [foldl_cat, foldl_nil] at F
    simp only [rawCtlOp]
    simp [F, fldN_hi, fldN_lo, req_true, decodeVal])
theorem tinfo (d : BitVec 6) (a : BitVec 6) : Statement (.tinfo d a) :=
  of_ctl _ (fun _ => rfl) (fun h => by
    refine ctl_of 0x22 _ (by simp only [foldl_cat, foldl_nil, fldN_hi, fldN_lo, Nat.reduceLeDiff, Nat.reduceSub, Nat.le_refl, Nat.sub_self]; rfl) (fun w F => ?_) h
    simp only [foldl_cat, foldl_nil] at F
    simp only [rawCtlOp]
    simp [F, fldN_hi, fldN_lo, req_true, decodeVal])
theorem tlde (d : BitVec 6) (a : BitVec 6) (b : BitVec 6) : Statement (.tlde d a b) :=
  of_ctl _ (fun _ => rfl) (fun h => by
    refine ctl_of 0x22 _ (by simp only [foldl_cat, foldl_nil, fldN_hi, fldN_lo, Nat.reduceLeDiff, Nat.reduceSub, Nat.le_refl, Nat.sub_self]; rfl) (fun w F => ?_) h
    simp only [foldl_cat, foldl_nil] at F
    simp only [rawCtlOp]
    simp [F, fldN_hi, fldN_lo, req_true, decodeVal])
theorem hmov (d : BitVec 6) (a : BitVec 6) (restrict : Bool) (keep : BitVec 4) : Statement (.hmov d a restrict keep) :=
  of_ctl _ (fun _ => rfl) (fun h => by
    refine ctl_of 0x22 _ (by simp only [foldl_cat, foldl_nil, fldN_hi, fldN_lo, Nat.reduceLeDiff, Nat.reduceSub, Nat.le_refl, Nat.sub_self]; rfl) (fun w F => ?_) h
    simp only [foldl_cat, foldl_nil] at F
    simp only [rawCtlOp]
    simp [F, fldN_hi, fldN_lo, req_true, decodeVal])
theorem hnull (a : BitVec 6) : Statement (.hnull a) :=
  of_ctl _ (fun _ => rfl) (fun h => by
    refine ctl_of 0x22 _ (by simp only [foldl_cat, foldl_nil, fldN_hi, fldN_lo, Nat.reduceLeDiff, Nat.reduceSub, Nat.le_refl, Nat.sub_self]; rfl) (fun w F => ?_) h
    simp only [foldl_cat, foldl_nil] at F
    simp only [rawCtlOp]
    simp [F, fldN_hi, fldN_lo, req_true, decodeVal])
theorem hcmp (d : BitVec 6) (a : BitVec 6) (b : BitVec 6) : Statement (.hcmp d a b) :=
  of_ctl _ (fun _ => rfl) (fun h => by
    refine ctl_of 0x22 _ (by simp only [foldl_cat, foldl_nil, fldN_hi, fldN_lo, Nat.reduceLeDiff, Nat.reduceSub, Nat.le_refl, Nat.sub_self]; rfl) (fun w F => ?_) h
    simp only [foldl_cat, foldl_nil] at F
    simp only [rawCtlOp]
    simp [F, fldN_hi, fldN_lo, req_true, decodeVal])
theorem hget (d : BitVec 6) (a : BitVec 6) : Statement (.hget d a) :=
  of_ctl _ (fun _ => rfl) (fun h => by
    refine ctl_of 0x22 _ (by simp only [foldl_cat, foldl_nil, fldN_hi, fldN_lo, Nat.reduceLeDiff, Nat.reduceSub, Nat.le_refl, Nat.sub_self]; rfl) (fun w F => ?_) h
    simp only [foldl_cat, foldl_nil] at F
    simp only [rawCtlOp]
    simp [F, fldN_hi, fldN_lo, req_true, decodeVal])
theorem hput (d : BitVec 6) (a : BitVec 6) : Statement (.hput d a) :=
  of_ctl _ (fun _ => rfl) (fun h => by
    refine ctl_of 0x22 _ (by simp only [foldl_cat, foldl_nil, fldN_hi, fldN_lo, Nat.reduceLeDiff, Nat.reduceSub, Nat.le_refl, Nat.sub_self]; rfl) (fun w F => ?_) h
    simp only [foldl_cat, foldl_nil] at F
    simp only [rawCtlOp]
    simp [F, fldN_hi, fldN_lo, req_true, decodeVal])
theorem uniq (d : BitVec 6) (a : BitVec 6) : Statement (.uniq d a) :=
  of_ctl _ (fun _ => rfl) (fun h => by
    refine ctl_of 0x22 _ (by simp only [foldl_cat, foldl_nil, fldN_hi, fldN_lo, Nat.reduceLeDiff, Nat.reduceSub, Nat.le_refl, Nat.sub_self]; rfl) (fun w F => ?_) h
    simp only [foldl_cat, foldl_nil] at F
    simp only [rawCtlOp]
    simp [F, fldN_hi, fldN_lo, req_true, decodeVal])
theorem upde (d : BitVec 6) (a : BitVec 6) (b : BitVec 6) (c : BitVec 6) (z : Size) : Statement (.upde d a b c z) :=
  of_ctl _ (fun _ => rfl) (fun h => by
    refine ctl_of 0x23 _ (by simp only [foldl_cat, foldl_nil, fldN_hi, fldN_lo, Nat.reduceLeDiff, Nat.reduceSub, Nat.le_refl, Nat.sub_self]; rfl) (fun w F => ?_) h
    simp only [foldl_cat, foldl_nil] at F
    simp only [rawCtlOp]
    simp [F, fldN_hi, fldN_lo, req_true])
theorem sopen (d : BitVec 6) (a : BitVec 6) (b : BitVec 6) : Statement (.sopen d a b) :=
  of_ctl _ (fun _ => rfl) (fun h => by
    refine ctl_of 0x24 _ (by simp only [foldl_cat, foldl_nil, fldN_hi, fldN_lo, Nat.reduceLeDiff, Nat.reduceSub, Nat.le_refl, Nat.sub_self]; rfl) (fun w F => ?_) h
    simp only [foldl_cat, foldl_nil] at F
    simp only [rawCtlOp]
    simp [F, fldN_hi, fldN_lo, req_true, decodeStrm])
theorem spush (a : BitVec 6) (b : BitVec 6) (nb : Block) : Statement (.spush a b nb) :=
  of_ctl _ (fun _ => rfl) (fun h => by
    refine ctl_of 0x24 _ (by simp only [foldl_cat, foldl_nil, fldN_hi, fldN_lo, Nat.reduceLeDiff, Nat.reduceSub, Nat.le_refl, Nat.sub_self]; rfl) (fun w F => ?_) h
    simp only [foldl_cat, foldl_nil] at F
    simp only [rawCtlOp]
    simp [F, fldN_hi, fldN_lo, req_true, decodeStrm])
theorem spushh (n : BitVec 6) (a : BitVec 6) (b : BitVec 6) (nb : Block) : Statement (.spushh n a b nb) :=
  of_ctl _ (fun _ => rfl) (fun h => by
    refine ctl_of 0x24 _ (by simp only [foldl_cat, foldl_nil, fldN_hi, fldN_lo, Nat.reduceLeDiff, Nat.reduceSub, Nat.le_refl, Nat.sub_self]; rfl) (fun w F => ?_) h
    simp only [foldl_cat, foldl_nil] at F
    simp only [rawCtlOp]
    simp [F, fldN_hi, fldN_lo, req_true, decodeStrm])
theorem spop (d : BitVec 6) (a : BitVec 6) (nb : Block) : Statement (.spop d a nb) :=
  of_ctl _ (fun _ => rfl) (fun h => by
    refine ctl_of 0x24 _ (by simp only [foldl_cat, foldl_nil, fldN_hi, fldN_lo, Nat.reduceLeDiff, Nat.reduceSub, Nat.le_refl, Nat.sub_self]; rfl) (fun w F => ?_) h
    simp only [foldl_cat, foldl_nil] at F
    simp only [rawCtlOp]
    simp [F, fldN_hi, fldN_lo, req_true, decodeStrm])
theorem spoph (d : BitVec 6) (a : BitVec 6) (n : BitVec 6) (nb : Block) : Statement (.spoph d a n nb) :=
  of_ctl _ (fun _ => rfl) (fun h => by
    refine ctl_of 0x24 _ (by simp only [foldl_cat, foldl_nil, fldN_hi, fldN_lo, Nat.reduceLeDiff, Nat.reduceSub, Nat.le_refl, Nat.sub_self]; rfl) (fun w F => ?_) h
    simp only [foldl_cat, foldl_nil] at F
    simp only [rawCtlOp]
    simp [F, fldN_hi, fldN_lo, req_true, decodeStrm])
theorem sstat (d : BitVec 6) (a : BitVec 6) : Statement (.sstat d a) :=
  of_ctl _ (fun _ => rfl) (fun h => by
    refine ctl_of 0x24 _ (by simp only [foldl_cat, foldl_nil, fldN_hi, fldN_lo, Nat.reduceLeDiff, Nat.reduceSub, Nat.le_refl, Nat.sub_self]; rfl) (fun w F => ?_) h
    simp only [foldl_cat, foldl_nil] at F
    simp only [rawCtlOp]
    simp [F, fldN_hi, fldN_lo, req_true, decodeStrm])
theorem sclose (a : BitVec 6) : Statement (.sclose a) :=
  of_ctl _ (fun _ => rfl) (fun h => by
    refine ctl_of 0x24 _ (by simp only [foldl_cat, foldl_nil, fldN_hi, fldN_lo, Nat.reduceLeDiff, Nat.reduceSub, Nat.le_refl, Nat.sub_self]; rfl) (fun w F => ?_) h
    simp only [foldl_cat, foldl_nil] at F
    simp only [rawCtlOp]
    simp [F, fldN_hi, fldN_lo, req_true, decodeStrm])
theorem gopen (d : BitVec 6) (a : BitVec 6) : Statement (.gopen d a) :=
  of_ctl _ (fun _ => rfl) (fun h => by
    refine ctl_of 0x25 _ (by simp only [foldl_cat, foldl_nil, fldN_hi, fldN_lo, Nat.reduceLeDiff, Nat.reduceSub, Nat.le_refl, Nat.sub_self]; rfl) (fun w F => ?_) h
    simp only [foldl_cat, foldl_nil] at F
    simp only [rawCtlOp]
    simp [F, fldN_hi, fldN_lo, req_true, decodeWin])
theorem gseal (a : BitVec 6) : Statement (.gseal a) :=
  of_ctl _ (fun _ => rfl) (fun h => by
    refine ctl_of 0x25 _ (by simp only [foldl_cat, foldl_nil, fldN_hi, fldN_lo, Nat.reduceLeDiff, Nat.reduceSub, Nat.le_refl, Nat.sub_self]; rfl) (fun w F => ?_) h
    simp only [foldl_cat, foldl_nil] at F
    simp only [rawCtlOp]
    simp [F, fldN_hi, fldN_lo, req_true, decodeWin])
theorem gwait (a : BitVec 6) : Statement (.gwait a) :=
  of_ctl _ (fun _ => rfl) (fun h => by
    refine ctl_of 0x25 _ (by simp only [foldl_cat, foldl_nil, fldN_hi, fldN_lo, Nat.reduceLeDiff, Nat.reduceSub, Nat.le_refl, Nat.sub_self]; rfl) (fun w F => ?_) h
    simp only [foldl_cat, foldl_nil] at F
    simp only [rawCtlOp]
    simp [F, fldN_hi, fldN_lo, req_true, decodeWin])
theorem racq (d : BitVec 6) (a : BitVec 6) : Statement (.racq d a) :=
  of_ctl _ (fun _ => rfl) (fun h => by
    refine ctl_of 0x25 _ (by simp only [foldl_cat, foldl_nil, fldN_hi, fldN_lo, Nat.reduceLeDiff, Nat.reduceSub, Nat.le_refl, Nat.sub_self]; rfl) (fun w F => ?_) h
    simp only [foldl_cat, foldl_nil] at F
    simp only [rawCtlOp]
    simp [F, fldN_hi, fldN_lo, req_true, decodeWin])
theorem rrel (a : BitVec 6) : Statement (.rrel a) :=
  of_ctl _ (fun _ => rfl) (fun h => by
    refine ctl_of 0x25 _ (by simp only [foldl_cat, foldl_nil, fldN_hi, fldN_lo, Nat.reduceLeDiff, Nat.reduceSub, Nat.le_refl, Nat.sub_self]; rfl) (fun w F => ?_) h
    simp only [foldl_cat, foldl_nil] at F
    simp only [rawCtlOp]
    simp [F, fldN_hi, fldN_lo, req_true, decodeWin])
theorem mod (o : Order) (x : Scope) (c : Cache) : Statement (.mod o x c) :=
  of_ctl _ (fun _ => rfl) (fun h => by
    refine ctl_of 0x3E _ (by simp only [foldl_cat, foldl_nil, fldN_hi, fldN_lo, Nat.reduceLeDiff, Nat.reduceSub, Nat.le_refl, Nat.sub_self]; rfl) (fun w F => ?_) h
    simp only [foldl_cat, foldl_nil] at F
    simp only [rawCtlOp]
    simp [F, fldN_hi, fldN_lo, req_true])
theorem nopWide (c : Clause) : Statement (.nopWide c) :=
  of_common _ (fun _ => rfl) (fun h st hn => by
    refine wide_of st _ 0x00 _ (by simp only [foldl_cat, foldl_nil, fldN_hi, fldN_lo, Nat.reduceLeDiff, Nat.reduceSub, Nat.le_refl, Nat.sub_self]; rfl) (fun w F => ?_) h
    simp only [foldl_cat, foldl_nil] at F
    simp [rawWideOp, hn]
    simp only [rawCommon]
    simp [clauseOf, F, fldN_hi, fldN_lo, req_true])
theorem aadd (c : Clause) (ad : BitVec 5) (aa : BitVec 5) (ab : BitVec 5) : Statement (.aadd c ad aa ab) :=
  of_common _ (fun _ => rfl) (fun h st hn => by
    refine wide_of st _ 0x01 _ (by simp only [foldl_cat, foldl_nil, fldN_hi, fldN_lo, Nat.reduceLeDiff, Nat.reduceSub, Nat.le_refl, Nat.sub_self]; rfl) (fun w F => ?_) h
    simp only [foldl_cat, foldl_nil] at F
    simp [rawWideOp, hn]
    simp only [rawCommon]
    simp [clauseOf, F, fldN_hi, fldN_lo, req_true])
theorem asub (c : Clause) (ad : BitVec 5) (aa : BitVec 5) (ab : BitVec 5) : Statement (.asub c ad aa ab) :=
  of_common _ (fun _ => rfl) (fun h st hn => by
    refine wide_of st _ 0x02 _ (by simp only [foldl_cat, foldl_nil, fldN_hi, fldN_lo, Nat.reduceLeDiff, Nat.reduceSub, Nat.le_refl, Nat.sub_self]; rfl) (fun w F => ?_) h
    simp only [foldl_cat, foldl_nil] at F
    simp [rawWideOp, hn]
    simp only [rawCommon]
    simp [clauseOf, F, fldN_hi, fldN_lo, req_true])
theorem amul (c : Clause) (ad : BitVec 5) (aa : BitVec 5) (ab : BitVec 5) : Statement (.amul c ad aa ab) :=
  of_common _ (fun _ => rfl) (fun h st hn => by
    refine wide_of st _ 0x04 _ (by simp only [foldl_cat, foldl_nil, fldN_hi, fldN_lo, Nat.reduceLeDiff, Nat.reduceSub, Nat.le_refl, Nat.sub_self]; rfl) (fun w F => ?_) h
    simp only [foldl_cat, foldl_nil] at F
    simp [rawWideOp, hn]
    simp only [rawCommon]
    simp [clauseOf, F, fldN_hi, fldN_lo, req_true])
theorem aand (c : Clause) (ad : BitVec 5) (aa : BitVec 5) (ab : BitVec 5) : Statement (.aand c ad aa ab) :=
  of_common _ (fun _ => rfl) (fun h st hn => by
    refine wide_of st _ 0x07 _ (by simp only [foldl_cat, foldl_nil, fldN_hi, fldN_lo, Nat.reduceLeDiff, Nat.reduceSub, Nat.le_refl, Nat.sub_self]; rfl) (fun w F => ?_) h
    simp only [foldl_cat, foldl_nil] at F
    simp [rawWideOp, hn]
    simp only [rawCommon]
    simp [clauseOf, F, fldN_hi, fldN_lo, req_true])
theorem aaddi (c : Clause) (ad : BitVec 5) (aa : BitVec 5) (i : BitVec 32) : Statement (.aaddi c ad aa i) :=
  of_common _ (fun _ => rfl) (fun h st hn => by
    refine wide_of st _ 0x03 _ (by simp only [foldl_cat, foldl_nil, fldN_hi, fldN_lo, Nat.reduceLeDiff, Nat.reduceSub, Nat.le_refl, Nat.sub_self]; rfl) (fun w F => ?_) h
    simp only [foldl_cat, foldl_nil] at F
    simp [rawWideOp, hn]
    simp only [rawCommon]
    simp [clauseOf, F, fldN_hi, fldN_lo, req_true])
theorem ashl (c : Clause) (ad : BitVec 5) (aa : BitVec 5) (n : AShift) : Statement (.ashl c ad aa n) :=
  of_common _ (fun _ => rfl) (fun h st hn => by
    cases n
    all_goals
      refine wide_of st _ 0x05 _ (by simp only [foldl_cat, foldl_nil, fldN_hi, fldN_lo, Nat.reduceLeDiff, Nat.reduceSub, Nat.le_refl, Nat.sub_self]; rfl) (fun w F => ?_) h
      simp only [foldl_cat, foldl_nil] at F
      simp [rawWideOp, hn]
      simp only [rawCommon]
      simp [clauseOf, F, fldN_hi, fldN_lo, req_true])
theorem ashr (c : Clause) (ad : BitVec 5) (aa : BitVec 5) (n : AShift) (arith : Bool) : Statement (.ashr c ad aa n arith) :=
  of_common _ (fun _ => rfl) (fun h st hn => by
    cases n
    all_goals
      refine wide_of st _ 0x06 _ (by simp only [foldl_cat, foldl_nil, fldN_hi, fldN_lo, Nat.reduceLeDiff, Nat.reduceSub, Nat.le_refl, Nat.sub_self]; rfl) (fun w F => ?_) h
      simp only [foldl_cat, foldl_nil] at F
      simp [rawWideOp, hn]
      simp only [rawCommon]
      simp [clauseOf, F, fldN_hi, fldN_lo, req_true])
theorem ali (c : Clause) (ad : BitVec 5) (i : BitVec 32) : Statement (.ali c ad i) :=
  of_common _ (fun _ => rfl) (fun h st hn => by
    refine wide_of st _ 0x08 _ (by simp only [foldl_cat, foldl_nil, fldN_hi, fldN_lo, Nat.reduceLeDiff, Nat.reduceSub, Nat.le_refl, Nat.sub_self]; rfl) (fun w F => ?_) h
    simp only [foldl_cat, foldl_nil] at F
    simp [rawWideOp, hn]
    simp only [rawCommon]
    simp [clauseOf, F, fldN_hi, fldN_lo, req_true])
theorem alih (c : Clause) (ad : BitVec 5) (i : BitVec 32) : Statement (.alih c ad i) :=
  of_common _ (fun _ => rfl) (fun h st hn => by
    refine wide_of st _ 0x09 _ (by simp only [foldl_cat, foldl_nil, fldN_hi, fldN_lo, Nat.reduceLeDiff, Nat.reduceSub, Nat.le_refl, Nat.sub_self]; rfl) (fun w F => ?_) h
    simp only [foldl_cat, foldl_nil] at F
    simp [rawWideOp, hn]
    simp only [rawCommon]
    simp [clauseOf, F, fldN_hi, fldN_lo, req_true])
theorem abr (c : Clause) (aa : BitVec 5) (ab : BitVec 5) (cc : Cond) (off : BitVec 20) : Statement (.abr c aa ab cc off) :=
  of_common _ (fun _ => rfl) (fun h st hn => by
    refine wide_of st _ 0x0A _ (by simp only [foldl_cat, foldl_nil, fldN_hi, fldN_lo, Nat.reduceLeDiff, Nat.reduceSub, Nat.le_refl, Nat.sub_self]; rfl) (fun w F => ?_) h
    simp only [foldl_cat, foldl_nil] at F
    simp [rawWideOp, hn]
    simp only [rawCommon]
    simp [clauseOf, F, fldN_hi, fldN_lo, req_true])
theorem aj (c : Clause) (off : BitVec 20) : Statement (.aj c off) :=
  of_common _ (fun _ => rfl) (fun h st hn => by
    refine wide_of st _ 0x0B _ (by simp only [foldl_cat, foldl_nil, fldN_hi, fldN_lo, Nat.reduceLeDiff, Nat.reduceSub, Nat.le_refl, Nat.sub_self]; rfl) (fun w F => ?_) h
    simp only [foldl_cat, foldl_nil] at F
    simp [rawWideOp, hn]
    simp only [rawCommon]
    simp [clauseOf, F, fldN_hi, fldN_lo, req_true])
theorem aloop (aa : BitVec 5) (len : BitVec 7) : Statement (.aloop aa len) :=
  of_common _ (fun _ => rfl) (fun h st hn => by
    refine wide_of st _ 0x0C _ (by simp only [foldl_cat, foldl_nil, fldN_hi, fldN_lo, Nat.reduceLeDiff, Nat.reduceSub, Nat.le_refl, Nat.sub_self]; rfl) (fun w F => ?_) h
    simp only [foldl_cat, foldl_nil] at F
    simp [rawWideOp, hn]
    simp only [rawCommon]
    simp [clauseOf, F, fldN_hi, fldN_lo, req_true])
theorem aend (c : Clause) : Statement (.aend c) :=
  of_common _ (fun _ => rfl) (fun h st hn => by
    refine wide_of st _ 0x0D _ (by simp only [foldl_cat, foldl_nil, fldN_hi, fldN_lo, Nat.reduceLeDiff, Nat.reduceSub, Nat.le_refl, Nat.sub_self]; rfl) (fun w F => ?_) h
    simp only [foldl_cat, foldl_nil] at F
    simp [rawWideOp, hn]
    simp only [rawCommon]
    simp [clauseOf, F, fldN_hi, fldN_lo, req_true])
theorem tkv (c : Clause) (ad : BitVec 5) (aa : BitVec 5) (send : Bool) (recv : Bool) : Statement (.tkv c ad aa send recv) :=
  of_common _ (fun _ => rfl) (fun h st hn => by
    refine wide_of st _ 0x0E _ (by simp only [foldl_cat, foldl_nil, fldN_hi, fldN_lo, Nat.reduceLeDiff, Nat.reduceSub, Nat.le_refl, Nat.sub_self]; rfl) (fun w F => ?_) h
    simp only [foldl_cat, foldl_nil] at F
    simp [rawWideOp, hn]
    simp only [rawCommon]
    simp [clauseOf, F, fldN_hi, fldN_lo, req_true])
theorem acsrr (c : Clause) (ad : BitVec 5) (n : BitVec 12) : Statement (.acsrr c ad n) :=
  of_common _ (fun _ => rfl) (fun h st hn => by
    refine wide_of st _ 0x0F _ (by simp only [foldl_cat, foldl_nil, fldN_hi, fldN_lo, Nat.reduceLeDiff, Nat.reduceSub, Nat.le_refl, Nat.sub_self]; rfl) (fun w F => ?_) h
    simp only [foldl_cat, foldl_nil] at F
    simp [rawWideOp, hn]
    simp only [rawCommon]
    simp [clauseOf, F, fldN_hi, fldN_lo, req_true])
theorem acsrw (c : Clause) (aa : BitVec 5) (n : BitVec 12) : Statement (.acsrw c aa n) :=
  of_common _ (fun _ => rfl) (fun h st hn => by
    refine wide_of st _ 0x10 _ (by simp only [foldl_cat, foldl_nil, fldN_hi, fldN_lo, Nat.reduceLeDiff, Nat.reduceSub, Nat.le_refl, Nat.sub_self]; rfl) (fun w F => ?_) h
    simp only [foldl_cat, foldl_nil] at F
    simp [rawWideOp, hn]
    simp only [rawCommon]
    simp [clauseOf, F, fldN_hi, fldN_lo, req_true])
theorem rep (c : Clause) (cnt : BitVec 6) (sd : BitVec 4) (sa : BitVec 4) (sb : BitVec 4) (sc : BitVec 4) : Statement (.rep c cnt sd sa sb sc) :=
  of_common _ (fun _ => rfl) (fun h st hn => by
    refine wide_of st _ 0x11 _ (by simp only [foldl_cat, foldl_nil, fldN_hi, fldN_lo, Nat.reduceLeDiff, Nat.reduceSub, Nat.le_refl, Nat.sub_self]; rfl) (fun w F => ?_) h
    simp only [foldl_cat, foldl_nil] at F
    simp [rawWideOp, hn]
    simp only [rawCommon]
    simp [clauseOf, F, fldN_hi, fldN_lo, req_true])
theorem modWide (o : Order) (x : Scope) (k : Cache) : Statement (.modWide o x k) :=
  of_common _ (fun _ => rfl) (fun h st hn => by
    refine wide_of st _ 0x12 _ (by simp only [foldl_cat, foldl_nil, fldN_hi, fldN_lo, Nat.reduceLeDiff, Nat.reduceSub, Nat.le_refl, Nat.sub_self]; rfl) (fun w F => ?_) h
    simp only [foldl_cat, foldl_nil] at F
    simp [rawWideOp, hn]
    simp only [rawCommon]
    simp [clauseOf, F, fldN_hi, fldN_lo, req_true])
theorem tlwaitWide (c : Clause) (x : TlCtx) (aa : BitVec 5) : Statement (.tlwaitWide c x aa) :=
  of_common _ (fun _ => rfl) (fun h st hn => by
    refine wide_of st _ 0x13 _ (by simp only [foldl_cat, foldl_nil, fldN_hi, fldN_lo, Nat.reduceLeDiff, Nat.reduceSub, Nat.le_refl, Nat.sub_self]; rfl) (fun w F => ?_) h
    simp only [foldl_cat, foldl_nil] at F
    simp [rawWideOp, hn]
    simp only [rawCommon]
    simp [clauseOf, F, fldN_hi, fldN_lo, req_true])
theorem ldt (c : Clause) (t : Elem) (hd : BitVec 6) (base : BitVec 5) (idx : BitVec 5) (off : BitVec 20) : Statement (.ldt c t hd base idx off) :=
  of_strand _ .fet (by decide) (fun _ => rfl) (fun h => by
    refine wide_of .fet _ 0x20 _ (by simp only [foldl_cat, foldl_nil, fldN_hi, fldN_lo, Nat.reduceLeDiff, Nat.reduceSub, Nat.le_refl, Nat.sub_self]; rfl) (fun w F => ?_) h
    simp only [foldl_cat, foldl_nil] at F
    simp [rawWideOp]
    simp only [rawFet]
    simp [clauseOf, F, fldN_hi, fldN_lo, req_true])
theorem ldv (c : Clause) (t : Elem) (vd : BitVec 9) (base : BitVec 5) (idx : BitVec 5) (off : BitVec 20) : Statement (.ldv c t vd base idx off) :=
  of_strand _ .fet (by decide) (fun _ => rfl) (fun h => by
    refine wide_of .fet _ 0x21 _ (by simp only [foldl_cat, foldl_nil, fldN_hi, fldN_lo, Nat.reduceLeDiff, Nat.reduceSub, Nat.le_refl, Nat.sub_self]; rfl) (fun w F => ?_) h
    simp only [foldl_cat, foldl_nil] at F
    simp [rawWideOp]
    simp only [rawFet]
    simp [clauseOf, F, fldN_hi, fldN_lo, req_true])
theorem ldva (c : Clause) (t : Elem) (vd : BitVec 9) (base : BitVec 5) (idx : BitVec 5) (off : BitVec 20) : Statement (.ldva c t vd base idx off) :=
  of_strand _ .fet (by decide) (fun _ => rfl) (fun h => by
    refine wide_of .fet _ 0x22 _ (by simp only [foldl_cat, foldl_nil, fldN_hi, fldN_lo, Nat.reduceLeDiff, Nat.reduceSub, Nat.le_refl, Nat.sub_self]; rfl) (fun w F => ?_) h
    simp only [foldl_cat, foldl_nil] at F
    simp [rawWideOp]
    simp only [rawFet]
    simp [clauseOf, F, fldN_hi, fldN_lo, req_true])
theorem ldvt (c : Clause) (t : Elem) (vd : BitVec 9) (h : BitVec 6) (row0 : BitVec 9) (col0 : BitVec 9) (mode : LdvtMode) (packed : Bool) : Statement (.ldvt c t vd h row0 col0 mode packed) :=
  of_strand _ .fet (by decide) (fun _ => rfl) (fun h => by
    refine wide_of .fet _ 0x23 _ (by simp only [foldl_cat, foldl_nil, fldN_hi, fldN_lo, Nat.reduceLeDiff, Nat.reduceSub, Nat.le_refl, Nat.sub_self]; rfl) (fun w F => ?_) h
    simp only [foldl_cat, foldl_nil] at F
    simp [rawWideOp]
    simp only [rawFet]
    simp [clauseOf, F, fldN_hi, fldN_lo, req_true])
theorem gath (c : Clause) (t : Elem) (k : BitVec 3) (vd : BitVec 9) (va : BitVec 9) (ab : BitVec 5) : Statement (.gath c t k vd va ab) :=
  of_strand _ .fet (by decide) (fun _ => rfl) (fun h => by
    refine wide_of .fet _ 0x24 _ (by simp only [foldl_cat, foldl_nil, fldN_hi, fldN_lo, Nat.reduceLeDiff, Nat.reduceSub, Nat.le_refl, Nat.sub_self]; rfl) (fun w F => ?_) h
    simp only [foldl_cat, foldl_nil] at F
    simp [rawWideOp]
    simp only [rawFet]
    simp [clauseOf, F, fldN_hi, fldN_lo, req_true])
theorem btgath (c : Clause) (t : Elem) (k : BitVec 3) (vd : BitVec 9) (va : BitVec 9) (aT : BitVec 5) (aP : BitVec 5) : Statement (.btgath c t k vd va aT aP) :=
  of_strand _ .fet (by decide) (fun _ => rfl) (fun h => by
    refine wide_of .fet _ 0x25 _ (by simp only [foldl_cat, foldl_nil, fldN_hi, fldN_lo, Nat.reduceLeDiff, Nat.reduceSub, Nat.le_refl, Nat.sub_self]; rfl) (fun w F => ?_) h
    simp only [foldl_cat, foldl_nil] at F
    simp [rawWideOp]
    simp only [rawFet]
    simp [clauseOf, F, fldN_hi, fldN_lo, req_true])
theorem cec (c : Clause) (base : BitVec 5) (off : BitVec 20) : Statement (.cec c base off) :=
  of_strand _ .fet (by decide) (fun _ => rfl) (fun h => by
    refine wide_of .fet _ 0x26 _ (by simp only [foldl_cat, foldl_nil, fldN_hi, fldN_lo, Nat.reduceLeDiff, Nat.reduceSub, Nat.le_refl, Nat.sub_self]; rfl) (fun w F => ?_) h
    simp only [foldl_cat, foldl_nil] at F
    simp [rawWideOp]
    simp only [rawFet]
    simp [clauseOf, F, fldN_hi, fldN_lo, req_true])
theorem cedup (c : Clause) (base : BitVec 5) (off : BitVec 20) : Statement (.cedup c base off) :=
  of_strand _ .fet (by decide) (fun _ => rfl) (fun h => by
    refine wide_of .fet _ 0x27 _ (by simp only [foldl_cat, foldl_nil, fldN_hi, fldN_lo, Nat.reduceLeDiff, Nat.reduceSub, Nat.le_refl, Nat.sub_self]; rfl) (fun w F => ?_) h
    simp only [foldl_cat, foldl_nil] at F
    simp [rawWideOp]
    simp only [rawFet]
    simp [clauseOf, F, fldN_hi, fldN_lo, req_true])
theorem cecol (c : Clause) (hd : BitVec 6) (base : BitVec 5) (off : BitVec 20) : Statement (.cecol c hd base off) :=
  of_strand _ .fet (by decide) (fun _ => rfl) (fun h => by
    refine wide_of .fet _ 0x28 _ (by simp only [foldl_cat, foldl_nil, fldN_hi, fldN_lo, Nat.reduceLeDiff, Nat.reduceSub, Nat.le_refl, Nat.sub_self]; rfl) (fun w F => ?_) h
    simp only [foldl_cat, foldl_nil] at F
    simp [rawWideOp]
    simp only [rawFet]
    simp [clauseOf, F, fldN_hi, fldN_lo, req_true])
theorem pref (c : Clause) (base : BitVec 5) (off : BitVec 20) : Statement (.pref c base off) :=
  of_strand _ .fet (by decide) (fun _ => rfl) (fun h => by
    refine wide_of .fet _ 0x29 _ (by simp only [foldl_cat, foldl_nil, fldN_hi, fldN_lo, Nat.reduceLeDiff, Nat.reduceSub, Nat.le_refl, Nat.sub_self]; rfl) (fun w F => ?_) h
    simp only [foldl_cat, foldl_nil] at F
    simp [rawWideOp]
    simp only [rawFet]
    simp [clauseOf, F, fldN_hi, fldN_lo, req_true])
theorem rrot (c : Clause) (hd : BitVec 6) (hs : BitVec 6) (ra : BitVec 5) : Statement (.rrot c hd hs ra) :=
  of_strand _ .fet (by decide) (fun _ => rfl) (fun h => by
    refine wide_of .fet _ 0x2A _ (by simp only [foldl_cat, foldl_nil, fldN_hi, fldN_lo, Nat.reduceLeDiff, Nat.reduceSub, Nat.le_refl, Nat.sub_self]; rfl) (fun w F => ?_) h
    simp only [foldl_cat, foldl_nil] at F
    simp [rawWideOp]
    simp only [rawFet]
    simp [clauseOf, F, fldN_hi, fldN_lo, req_true])
theorem gwaitf (c : Clause) (hs : BitVec 6) : Statement (.gwaitf c hs) :=
  of_strand _ .fet (by decide) (fun _ => rfl) (fun h => by
    refine wide_of .fet _ 0x2B _ (by simp only [foldl_cat, foldl_nil, fldN_hi, fldN_lo, Nat.reduceLeDiff, Nat.reduceSub, Nat.le_refl, Nat.sub_self]; rfl) (fun w F => ?_) h
    simp only [foldl_cat, foldl_nil] at F
    simp [rawWideOp]
    simp only [rawFet]
    simp [clauseOf, F, fldN_hi, fldN_lo, req_true])
theorem spopv (c : Clause) (vd : BitVec 9) (h : BitVec 6) (n : BitVec 4) : Statement (.spopv c vd h n) :=
  of_strand _ .fet (by decide) (fun _ => rfl) (fun h => by
    refine wide_of .fet _ 0x2C _ (by simp only [foldl_cat, foldl_nil, fldN_hi, fldN_lo, Nat.reduceLeDiff, Nat.reduceSub, Nat.le_refl, Nat.sub_self]; rfl) (fun w F => ?_) h
    simp only [foldl_cat, foldl_nil] at F
    simp [rawWideOp]
    simp only [rawFet]
    simp [clauseOf, F, fldN_hi, fldN_lo, req_true])
theorem ldk (c : Clause) (k : BitVec 3) (base : BitVec 5) (off : BitVec 20) : Statement (.ldk c k base off) :=
  of_strand _ .fet (by decide) (fun _ => rfl) (fun h => by
    refine wide_of .fet _ 0x2D _ (by simp only [foldl_cat, foldl_nil, fldN_hi, fldN_lo, Nat.reduceLeDiff, Nat.reduceSub, Nat.le_refl, Nat.sub_self]; rfl) (fun w F => ?_) h
    simp only [foldl_cat, foldl_nil] at F
    simp [rawWideOp]
    simp only [rawFet]
    simp [clauseOf, F, fldN_hi, fldN_lo, req_true])
theorem vadd (c : Clause) (t : VTy) (k : BitVec 3) (sat : Bool) (vd : BitVec 9) (va : BitVec 9) (vb : BitVec 9) : Statement (.vadd c t k sat vd va vb) :=
  of_strand _ .exe (by decide) (fun _ => rfl) (fun h => by
    refine wide_of .exe _ 0x50 _ (by simp only [foldl_cat, foldl_nil, fldN_hi, fldN_lo, Nat.reduceLeDiff, Nat.reduceSub, Nat.le_refl, Nat.sub_self]; rfl) (fun w F => ?_) h
    simp only [foldl_cat, foldl_nil] at F
    simp [rawWideOp]
    simp only [rawVecA]
    simp [clauseOf, F, fldN_hi, fldN_lo, req_true])
theorem vsub (c : Clause) (t : VTy) (k : BitVec 3) (sat : Bool) (vd : BitVec 9) (va : BitVec 9) (vb : BitVec 9) : Statement (.vsub c t k sat vd va vb) :=
  of_strand _ .exe (by decide) (fun _ => rfl) (fun h => by
    refine wide_of .exe _ 0x51 _ (by simp only [foldl_cat, foldl_nil, fldN_hi, fldN_lo, Nat.reduceLeDiff, Nat.reduceSub, Nat.le_refl, Nat.sub_self]; rfl) (fun w F => ?_) h
    simp only [foldl_cat, foldl_nil] at F
    simp [rawWideOp]
    simp only [rawVecA]
    simp [clauseOf, F, fldN_hi, fldN_lo, req_true])
theorem vmul (c : Clause) (t : VTy) (k : BitVec 3) (sat : Bool) (vd : BitVec 9) (va : BitVec 9) (vb : BitVec 9) : Statement (.vmul c t k sat vd va vb) :=
  of_strand _ .exe (by decide) (fun _ => rfl) (fun h => by
    refine wide_of .exe _ 0x52 _ (by simp only [foldl_cat, foldl_nil, fldN_hi, fldN_lo, Nat.reduceLeDiff, Nat.reduceSub, Nat.le_refl, Nat.sub_self]; rfl) (fun w F => ?_) h
    simp only [foldl_cat, foldl_nil] at F
    simp [rawWideOp]
    simp only [rawVecA]
    simp [clauseOf, F, fldN_hi, fldN_lo, req_true])
theorem vfma (c : Clause) (t : VTy) (k : BitVec 3) (sat : Bool) (vd : BitVec 9) (va : BitVec 9) (vb : BitVec 9) (vc : BitVec 9) : Statement (.vfma c t k sat vd va vb vc) :=
  of_strand _ .exe (by decide) (fun _ => rfl) (fun h => by
    refine wide_of .exe _ 0x53 _ (by simp only [foldl_cat, foldl_nil, fldN_hi, fldN_lo, Nat.reduceLeDiff, Nat.reduceSub, Nat.le_refl, Nat.sub_self]; rfl) (fun w F => ?_) h
    simp only [foldl_cat, foldl_nil] at F
    simp [rawWideOp]
    simp only [rawVecA]
    simp [clauseOf, F, fldN_hi, fldN_lo, req_true])
theorem vfnma (c : Clause) (t : VTy) (k : BitVec 3) (sat : Bool) (vd : BitVec 9) (va : BitVec 9) (vb : BitVec 9) (vc : BitVec 9) : Statement (.vfnma c t k sat vd va vb vc) :=
  of_strand _ .exe (by decide) (fun _ => rfl) (fun h => by
    refine wide_of .exe _ 0x54 _ (by simp only [foldl_cat, foldl_nil, fldN_hi, fldN_lo, Nat.reduceLeDiff, Nat.reduceSub, Nat.le_refl, Nat.sub_self]; rfl) (fun w F => ?_) h
    simp only [foldl_cat, foldl_nil] at F
    simp [rawWideOp]
    simp only [rawVecA]
    simp [clauseOf, F, fldN_hi, fldN_lo, req_true])
theorem vmin (c : Clause) (t : VTy) (k : BitVec 3) (vd : BitVec 9) (va : BitVec 9) (vb : BitVec 9) : Statement (.vmin c t k vd va vb) :=
  of_strand _ .exe (by decide) (fun _ => rfl) (fun h => by
    refine wide_of .exe _ 0x55 _ (by simp only [foldl_cat, foldl_nil, fldN_hi, fldN_lo, Nat.reduceLeDiff, Nat.reduceSub, Nat.le_refl, Nat.sub_self]; rfl) (fun w F => ?_) h
    simp only [foldl_cat, foldl_nil] at F
    simp [rawWideOp]
    simp only [rawVecA]
    simp [clauseOf, F, fldN_hi, fldN_lo, req_true])
theorem vmax (c : Clause) (t : VTy) (k : BitVec 3) (vd : BitVec 9) (va : BitVec 9) (vb : BitVec 9) : Statement (.vmax c t k vd va vb) :=
  of_strand _ .exe (by decide) (fun _ => rfl) (fun h => by
    refine wide_of .exe _ 0x56 _ (by simp only [foldl_cat, foldl_nil, fldN_hi, fldN_lo, Nat.reduceLeDiff, Nat.reduceSub, Nat.le_refl, Nat.sub_self]; rfl) (fun w F => ?_) h
    simp only [foldl_cat, foldl_nil] at F
    simp [rawWideOp]
    simp only [rawVecA]
    simp [clauseOf, F, fldN_hi, fldN_lo, req_true])
theorem vabs (c : Clause) (t : VTy) (k : BitVec 3) (sat : Bool) (vd : BitVec 9) (va : BitVec 9) : Statement (.vabs c t k sat vd va) :=
  of_strand _ .exe (by decide) (fun _ => rfl) (fun h => by
    refine wide_of .exe _ 0x57 _ (by simp only [foldl_cat, foldl_nil, fldN_hi, fldN_lo, Nat.reduceLeDiff, Nat.reduceSub, Nat.le_refl, Nat.sub_self]; rfl) (fun w F => ?_) h
    simp only [foldl_cat, foldl_nil] at F
    simp [rawWideOp]
    simp only [rawVecA]
    simp [clauseOf, F, fldN_hi, fldN_lo, req_true])
theorem vneg (c : Clause) (t : VTy) (k : BitVec 3) (sat : Bool) (vd : BitVec 9) (va : BitVec 9) : Statement (.vneg c t k sat vd va) :=
  of_strand _ .exe (by decide) (fun _ => rfl) (fun h => by
    refine wide_of .exe _ 0x58 _ (by simp only [foldl_cat, foldl_nil, fldN_hi, fldN_lo, Nat.reduceLeDiff, Nat.reduceSub, Nat.le_refl, Nat.sub_self]; rfl) (fun w F => ?_) h
    simp only [foldl_cat, foldl_nil] at F
    simp [rawWideOp]
    simp only [rawVecA]
    simp [clauseOf, F, fldN_hi, fldN_lo, req_true])
theorem vrcp (c : Clause) (k : BitVec 3) (vd : BitVec 9) (va : BitVec 9) : Statement (.vrcp c k vd va) :=
  of_strand _ .exe (by decide) (fun _ => rfl) (fun h => by
    refine wide_of .exe _ 0x59 _ (by simp only [foldl_cat, foldl_nil, fldN_hi, fldN_lo, Nat.reduceLeDiff, Nat.reduceSub, Nat.le_refl, Nat.sub_self]; rfl) (fun w F => ?_) h
    simp only [foldl_cat, foldl_nil] at F
    simp [rawWideOp]
    simp only [rawVecA]
    simp [clauseOf, F, fldN_hi, fldN_lo, req_true])
theorem vrsq (c : Clause) (k : BitVec 3) (vd : BitVec 9) (va : BitVec 9) : Statement (.vrsq c k vd va) :=
  of_strand _ .exe (by decide) (fun _ => rfl) (fun h => by
    refine wide_of .exe _ 0x5A _ (by simp only [foldl_cat, foldl_nil, fldN_hi, fldN_lo, Nat.reduceLeDiff, Nat.reduceSub, Nat.le_refl, Nat.sub_self]; rfl) (fun w F => ?_) h
    simp only [foldl_cat, foldl_nil] at F
    simp [rawWideOp]
    simp only [rawVecA]
    simp [clauseOf, F, fldN_hi, fldN_lo, req_true])
theorem vexp2 (c : Clause) (k : BitVec 3) (vd : BitVec 9) (va : BitVec 9) : Statement (.vexp2 c k vd va) :=
  of_strand _ .exe (by decide) (fun _ => rfl) (fun h => by
    refine wide_of .exe _ 0x5B _ (by simp only [foldl_cat, foldl_nil, fldN_hi, fldN_lo, Nat.reduceLeDiff, Nat.reduceSub, Nat.le_refl, Nat.sub_self]; rfl) (fun w F => ?_) h
    simp only [foldl_cat, foldl_nil] at F
    simp [rawWideOp]
    simp only [rawVecA]
    simp [clauseOf, F, fldN_hi, fldN_lo, req_true])
theorem vlog2 (c : Clause) (k : BitVec 3) (vd : BitVec 9) (va : BitVec 9) : Statement (.vlog2 c k vd va) :=
  of_strand _ .exe (by decide) (fun _ => rfl) (fun h => by
    refine wide_of .exe _ 0x5C _ (by simp only [foldl_cat, foldl_nil, fldN_hi, fldN_lo, Nat.reduceLeDiff, Nat.reduceSub, Nat.le_refl, Nat.sub_self]; rfl) (fun w F => ?_) h
    simp only [foldl_cat, foldl_nil] at F
    simp [rawWideOp]
    simp only [rawVecA]
    simp [clauseOf, F, fldN_hi, fldN_lo, req_true])
theorem vcmp (c : Clause) (t : VTy) (cc : VCond) (k : BitVec 3) (kd : BitVec 3) (va : BitVec 9) (vb : BitVec 9) : Statement (.vcmp c t cc k kd va vb) :=
  of_strand _ .exe (by decide) (fun _ => rfl) (fun h => by
    refine wide_of .exe _ 0x5D _ (by simp only [foldl_cat, foldl_nil, fldN_hi, fldN_lo, Nat.reduceLeDiff, Nat.reduceSub, Nat.le_refl, Nat.sub_self]; rfl) (fun w F => ?_) h
    simp only [foldl_cat, foldl_nil] at F
    simp [rawWideOp]
    simp only [rawVecA]
    simp [clauseOf, F, fldN_hi, fldN_lo, req_true])
theorem vsel (c : Clause) (k : BitVec 3) (vd : BitVec 9) (va : BitVec 9) (vb : BitVec 9) : Statement (.vsel c k vd va vb) :=
  of_strand _ .exe (by decide) (fun _ => rfl) (fun h => by
    refine wide_of .exe _ 0x5E _ (by simp only [foldl_cat, foldl_nil, fldN_hi, fldN_lo, Nat.reduceLeDiff, Nat.reduceSub, Nat.le_refl, Nat.sub_self]; rfl) (fun w F => ?_) h
    simp only [foldl_cat, foldl_nil] at F
    simp [rawWideOp]
    simp only [rawVecA]
    simp [clauseOf, F, fldN_hi, fldN_lo, req_true])
theorem vmov (c : Clause) (k : BitVec 3) (vd : BitVec 9) (va : BitVec 9) : Statement (.vmov c k vd va) :=
  of_strand _ .exe (by decide) (fun _ => rfl) (fun h => by
    refine wide_of .exe _ 0x5F _ (by simp only [foldl_cat, foldl_nil, fldN_hi, fldN_lo, Nat.reduceLeDiff, Nat.reduceSub, Nat.le_refl, Nat.sub_self]; rfl) (fun w F => ?_) h
    simp only [foldl_cat, foldl_nil] at F
    simp [rawWideOp]
    simp only [rawVecA]
    simp [clauseOf, F, fldN_hi, fldN_lo, req_true])
theorem vand (c : Clause) (k : BitVec 3) (vd : BitVec 9) (va : BitVec 9) (vb : BitVec 9) : Statement (.vand c k vd va vb) :=
  of_strand _ .exe (by decide) (fun _ => rfl) (fun h => by
    refine wide_of .exe _ 0x60 _ (by simp only [foldl_cat, foldl_nil, fldN_hi, fldN_lo, Nat.reduceLeDiff, Nat.reduceSub, Nat.le_refl, Nat.sub_self]; rfl) (fun w F => ?_) h
    simp only [foldl_cat, foldl_nil] at F
    simp [rawWideOp]
    simp only [rawVecA]
    simp [clauseOf, F, fldN_hi, fldN_lo, req_true])
theorem vor (c : Clause) (k : BitVec 3) (vd : BitVec 9) (va : BitVec 9) (vb : BitVec 9) : Statement (.vor c k vd va vb) :=
  of_strand _ .exe (by decide) (fun _ => rfl) (fun h => by
    refine wide_of .exe _ 0x61 _ (by simp only [foldl_cat, foldl_nil, fldN_hi, fldN_lo, Nat.reduceLeDiff, Nat.reduceSub, Nat.le_refl, Nat.sub_self]; rfl) (fun w F => ?_) h
    simp only [foldl_cat, foldl_nil] at F
    simp [rawWideOp]
    simp only [rawVecA]
    simp [clauseOf, F, fldN_hi, fldN_lo, req_true])
theorem vxor (c : Clause) (k : BitVec 3) (vd : BitVec 9) (va : BitVec 9) (vb : BitVec 9) : Statement (.vxor c k vd va vb) :=
  of_strand _ .exe (by decide) (fun _ => rfl) (fun h => by
    refine wide_of .exe _ 0x62 _ (by simp only [foldl_cat, foldl_nil, fldN_hi, fldN_lo, Nat.reduceLeDiff, Nat.reduceSub, Nat.le_refl, Nat.sub_self]; rfl) (fun w F => ?_) h
    simp only [foldl_cat, foldl_nil] at F
    simp [rawWideOp]
    simp only [rawVecA]
    simp [clauseOf, F, fldN_hi, fldN_lo, req_true])
theorem vshl (c : Clause) (k : BitVec 3) (vd : BitVec 9) (va : BitVec 9) (n : VShift) : Statement (.vshl c k vd va n) :=
  of_strand _ .exe (by decide) (fun _ => rfl) (fun h => by
    cases n
    all_goals
      refine wide_of .exe _ 0x63 _ (by simp only [foldl_cat, foldl_nil, fldN_hi, fldN_lo, Nat.reduceLeDiff, Nat.reduceSub, Nat.le_refl, Nat.sub_self]; rfl) (fun w F => ?_) h
      simp only [foldl_cat, foldl_nil] at F
      simp [rawWideOp]
      simp only [rawVecA]
      simp [clauseOf, F, fldN_hi, fldN_lo, req_true])
theorem vshr (c : Clause) (k : BitVec 3) (vd : BitVec 9) (va : BitVec 9) (n : VShift) : Statement (.vshr c k vd va n) :=
  of_strand _ .exe (by decide) (fun _ => rfl) (fun h => by
    cases n
    all_goals
      refine wide_of .exe _ 0x64 _ (by simp only [foldl_cat, foldl_nil, fldN_hi, fldN_lo, Nat.reduceLeDiff, Nat.reduceSub, Nat.le_refl, Nat.sub_self]; rfl) (fun w F => ?_) h
      simp only [foldl_cat, foldl_nil] at F
      simp [rawWideOp]
      simp only [rawVecA]
      simp [clauseOf, F, fldN_hi, fldN_lo, req_true])
theorem vsra (c : Clause) (k : BitVec 3) (vd : BitVec 9) (va : BitVec 9) (n : VShift) : Statement (.vsra c k vd va n) :=
  of_strand _ .exe (by decide) (fun _ => rfl) (fun h => by
    cases n
    all_goals
      refine wide_of .exe _ 0x65 _ (by simp only [foldl_cat, foldl_nil, fldN_hi, fldN_lo, Nat.reduceLeDiff, Nat.reduceSub, Nat.le_refl, Nat.sub_self]; rfl) (fun w F => ?_) h
      simp only [foldl_cat, foldl_nil] at F
      simp [rawWideOp]
      simp only [rawVecA]
      simp [clauseOf, F, fldN_hi, fldN_lo, req_true])
theorem vmovi (c : Clause) (vd : BitVec 9) (src : MoviSrc) : Statement (.vmovi c vd src) :=
  of_strand _ .exe (by decide) (fun _ => rfl) (fun h => by
    cases src
    all_goals
      refine wide_of .exe _ 0x66 _ (by simp only [foldl_cat, foldl_nil, fldN_hi, fldN_lo, Nat.reduceLeDiff, Nat.reduceSub, Nat.le_refl, Nat.sub_self]; rfl) (fun w F => ?_) h
      simp only [foldl_cat, foldl_nil] at F
      simp [rawWideOp]
      simp only [rawVecB]
      simp [clauseOf, F, fldN_hi, fldN_lo, req_true])
theorem viota (c : Clause) (vd : BitVec 9) (a : BitVec 5) (step : BitVec 24) : Statement (.viota c vd a step) :=
  of_strand _ .exe (by decide) (fun _ => rfl) (fun h => by
    refine wide_of .exe _ 0x67 _ (by simp only [foldl_cat, foldl_nil, fldN_hi, fldN_lo, Nat.reduceLeDiff, Nat.reduceSub, Nat.le_refl, Nat.sub_self]; rfl) (fun w F => ?_) h
    simp only [foldl_cat, foldl_nil] at F
    simp [rawWideOp]
    simp only [rawVecB]
    simp [clauseOf, F, fldN_hi, fldN_lo, req_true])
theorem vcvt (c : Clause) (dst : Elem) (src : Elem) (k : BitVec 3) (sat : Bool) (vd : BitVec 9) (va : BitVec 9) : Statement (.vcvt c dst src k sat vd va) :=
  of_strand _ .exe (by decide) (fun _ => rfl) (fun h => by
    refine wide_of .exe _ 0x68 _ (by simp only [foldl_cat, foldl_nil, fldN_hi, fldN_lo, Nat.reduceLeDiff, Nat.reduceSub, Nat.le_refl, Nat.sub_self]; rfl) (fun w F => ?_) h
    simp only [foldl_cat, foldl_nil] at F
    simp [rawWideOp]
    simp only [rawVecB]
    simp [clauseOf, F, fldN_hi, fldN_lo, req_true])
theorem vlcvt (c : Clause) (t : LogTy) (k : BitVec 3) (sat : Bool) (vd : BitVec 9) (va : BitVec 9) : Statement (.vlcvt c t k sat vd va) :=
  of_strand _ .exe (by decide) (fun _ => rfl) (fun h => by
    refine wide_of .exe _ 0x69 _ (by simp only [foldl_cat, foldl_nil, fldN_hi, fldN_lo, Nat.reduceLeDiff, Nat.reduceSub, Nat.le_refl, Nat.sub_self]; rfl) (fun w F => ?_) h
    simp only [foldl_cat, foldl_nil] at F
    simp [rawWideOp]
    simp only [rawVecB]
    simp [clauseOf, F, fldN_hi, fldN_lo, req_true])
theorem vlexp (c : Clause) (t : LogTy) (k : BitVec 3) (vd : BitVec 9) (va : BitVec 9) : Statement (.vlexp c t k vd va) :=
  of_strand _ .exe (by decide) (fun _ => rfl) (fun h => by
    refine wide_of .exe _ 0x6A _ (by simp only [foldl_cat, foldl_nil, fldN_hi, fldN_lo, Nat.reduceLeDiff, Nat.reduceSub, Nat.le_refl, Nat.sub_self]; rfl) (fun w F => ?_) h
    simp only [foldl_cat, foldl_nil] at F
    simp [rawWideOp]
    simp only [rawVecB]
    simp [clauseOf, F, fldN_hi, fldN_lo, req_true])
theorem vlmul (c : Clause) (t : LogTy) (k : BitVec 3) (sat : Bool) (vd : BitVec 9) (va : BitVec 9) (vb : BitVec 9) : Statement (.vlmul c t k sat vd va vb) :=
  of_strand _ .exe (by decide) (fun _ => rfl) (fun h => by
    refine wide_of .exe _ 0x6B _ (by simp only [foldl_cat, foldl_nil, fldN_hi, fldN_lo, Nat.reduceLeDiff, Nat.reduceSub, Nat.le_refl, Nat.sub_self]; rfl) (fun w F => ?_) h
    simp only [foldl_cat, foldl_nil] at F
    simp [rawWideOp]
    simp only [rawVecB]
    simp [clauseOf, F, fldN_hi, fldN_lo, req_true])
theorem vpack6 (c : Clause) (sat : Bool) (vd : BitVec 9) (va : BitVec 9) : Statement (.vpack6 c sat vd va) :=
  of_strand _ .exe (by decide) (fun _ => rfl) (fun h => by
    refine wide_of .exe _ 0x6C _ (by simp only [foldl_cat, foldl_nil, fldN_hi, fldN_lo, Nat.reduceLeDiff, Nat.reduceSub, Nat.le_refl, Nat.sub_self]; rfl) (fun w F => ?_) h
    simp only [foldl_cat, foldl_nil] at F
    simp [rawWideOp]
    simp only [rawVecB]
    simp [clauseOf, F, fldN_hi, fldN_lo, req_true])
theorem vunpk6 (c : Clause) (vd : BitVec 9) (va : BitVec 9) : Statement (.vunpk6 c vd va) :=
  of_strand _ .exe (by decide) (fun _ => rfl) (fun h => by
    refine wide_of .exe _ 0x6D _ (by simp only [foldl_cat, foldl_nil, fldN_hi, fldN_lo, Nat.reduceLeDiff, Nat.reduceSub, Nat.le_refl, Nat.sub_self]; rfl) (fun w F => ?_) h
    simp only [foldl_cat, foldl_nil] at F
    simp [rawWideOp]
    simp only [rawVecB]
    simp [clauseOf, F, fldN_hi, fldN_lo, req_true])
theorem vcmpr (c : Clause) (t : VTy) (kd : BitVec 3) (vd : BitVec 9) (va : BitVec 9) : Statement (.vcmpr c t kd vd va) :=
  of_strand _ .exe (by decide) (fun _ => rfl) (fun h => by
    refine wide_of .exe _ 0x6E _ (by simp only [foldl_cat, foldl_nil, fldN_hi, fldN_lo, Nat.reduceLeDiff, Nat.reduceSub, Nat.le_refl, Nat.sub_self]; rfl) (fun w F => ?_) h
    simp only [foldl_cat, foldl_nil] at F
    simp [rawWideOp]
    simp only [rawVecB]
    simp [clauseOf, F, fldN_hi, fldN_lo, req_true])
theorem vexpd (c : Clause) (k : BitVec 3) (vd : BitVec 9) (va : BitVec 9) : Statement (.vexpd c k vd va) :=
  of_strand _ .exe (by decide) (fun _ => rfl) (fun h => by
    refine wide_of .exe _ 0x6F _ (by simp only [foldl_cat, foldl_nil, fldN_hi, fldN_lo, Nat.reduceLeDiff, Nat.reduceSub, Nat.le_refl, Nat.sub_self]; rfl) (fun w F => ?_) h
    simp only [foldl_cat, foldl_nil] at F
    simp [rawWideOp]
    simp only [rawVecB]
    simp [clauseOf, F, fldN_hi, fldN_lo, req_true])
theorem vrotr (c : Clause) (k : BitVec 3) (vd : BitVec 9) (va : BitVec 9) (n : BitVec 6) : Statement (.vrotr c k vd va n) :=
  of_strand _ .exe (by decide) (fun _ => rfl) (fun h => by
    refine wide_of .exe _ 0x70 _ (by simp only [foldl_cat, foldl_nil, fldN_hi, fldN_lo, Nat.reduceLeDiff, Nat.reduceSub, Nat.le_refl, Nat.sub_self]; rfl) (fun w F => ?_) h
    simp only [foldl_cat, foldl_nil] at F
    simp [rawWideOp]
    simp only [rawVecB]
    simp [clauseOf, F, fldN_hi, fldN_lo, req_true])
theorem vrotc (c : Clause) (k : BitVec 3) (vd : BitVec 9) (va : BitVec 9) (n : BitVec 4) : Statement (.vrotc c k vd va n) :=
  of_strand _ .exe (by decide) (fun _ => rfl) (fun h => by
    refine wide_of .exe _ 0x71 _ (by simp only [foldl_cat, foldl_nil, fldN_hi, fldN_lo, Nat.reduceLeDiff, Nat.reduceSub, Nat.le_refl, Nat.sub_self]; rfl) (fun w F => ?_) h
    simp only [foldl_cat, foldl_nil] at F
    simp [rawWideOp]
    simp only [rawVecB]
    simp [clauseOf, F, fldN_hi, fldN_lo, req_true])
theorem vbcr (c : Clause) (k : BitVec 3) (vd : BitVec 9) (va : BitVec 9) (n : BitVec 6) : Statement (.vbcr c k vd va n) :=
  of_strand _ .exe (by decide) (fun _ => rfl) (fun h => by
    refine wide_of .exe _ 0x72 _ (by simp only [foldl_cat, foldl_nil, fldN_hi, fldN_lo, Nat.reduceLeDiff, Nat.reduceSub, Nat.le_refl, Nat.sub_self]; rfl) (fun w F => ?_) h
    simp only [foldl_cat, foldl_nil] at F
    simp [rawWideOp]
    simp only [rawVecB]
    simp [clauseOf, F, fldN_hi, fldN_lo, req_true])
theorem vbcc (c : Clause) (k : BitVec 3) (vd : BitVec 9) (va : BitVec 9) (n : BitVec 4) : Statement (.vbcc c k vd va n) :=
  of_strand _ .exe (by decide) (fun _ => rfl) (fun h => by
    refine wide_of .exe _ 0x73 _ (by simp only [foldl_cat, foldl_nil, fldN_hi, fldN_lo, Nat.reduceLeDiff, Nat.reduceSub, Nat.le_refl, Nat.sub_self]; rfl) (fun w F => ?_) h
    simp only [foldl_cat, foldl_nil] at F
    simp [rawWideOp]
    simp only [rawVecB]
    simp [clauseOf, F, fldN_hi, fldN_lo, req_true])
theorem vredr (c : Clause) (t : VTy) (op : RedOp) (k : BitVec 3) (vd : BitVec 9) (va : BitVec 9) : Statement (.vredr c t op k vd va) :=
  of_strand _ .exe (by decide) (fun _ => rfl) (fun h => by
    refine wide_of .exe _ 0x74 _ (by simp only [foldl_cat, foldl_nil, fldN_hi, fldN_lo, Nat.reduceLeDiff, Nat.reduceSub, Nat.le_refl, Nat.sub_self]; rfl) (fun w F => ?_) h
    simp only [foldl_cat, foldl_nil] at F
    simp [rawWideOp]
    simp only [rawVecB]
    simp [clauseOf, F, fldN_hi, fldN_lo, req_true])
theorem vredc (c : Clause) (t : VTy) (op : RedOp) (k : BitVec 3) (vd : BitVec 9) (va : BitVec 9) : Statement (.vredc c t op k vd va) :=
  of_strand _ .exe (by decide) (fun _ => rfl) (fun h => by
    refine wide_of .exe _ 0x75 _ (by simp only [foldl_cat, foldl_nil, fldN_hi, fldN_lo, Nat.reduceLeDiff, Nat.reduceSub, Nat.le_refl, Nat.sub_self]; rfl) (fun w F => ?_) h
    simp only [foldl_cat, foldl_nil] at F
    simp [rawWideOp]
    simp only [rawVecB]
    simp [clauseOf, F, fldN_hi, fldN_lo, req_true])
theorem vscnr (c : Clause) (t : VTy) (op : RedOp) (excl : Bool) (k : BitVec 3) (vd : BitVec 9) (va : BitVec 9) : Statement (.vscnr c t op excl k vd va) :=
  of_strand _ .exe (by decide) (fun _ => rfl) (fun h => by
    refine wide_of .exe _ 0x76 _ (by simp only [foldl_cat, foldl_nil, fldN_hi, fldN_lo, Nat.reduceLeDiff, Nat.reduceSub, Nat.le_refl, Nat.sub_self]; rfl) (fun w F => ?_) h
    simp only [foldl_cat, foldl_nil] at F
    simp [rawWideOp]
    simp only [rawVecB]
    simp [clauseOf, F, fldN_hi, fldN_lo, req_true])
theorem kop (c : Clause) (op : KOpc) (kd : BitVec 3) (ka : BitVec 3) (kb : BitVec 3) : Statement (.kop c op kd ka kb) :=
  of_strand _ .exe (by decide) (fun _ => rfl) (fun h => by
    refine wide_of .exe _ 0x78 _ (by simp only [foldl_cat, foldl_nil, fldN_hi, fldN_lo, Nat.reduceLeDiff, Nat.reduceSub, Nat.le_refl, Nat.sub_self]; rfl) (fun w F => ?_) h
    simp only [foldl_cat, foldl_nil] at F
    simp [rawWideOp]
    simp only [rawVecB]
    simp [clauseOf, F, fldN_hi, fldN_lo, req_true])
theorem kmov (c : Clause) (kd : BitVec 3) (src : KSrc) : Statement (.kmov c kd src) :=
  of_strand _ .exe (by decide) (fun _ => rfl) (fun h => by
    cases src
    all_goals
      refine wide_of .exe _ 0x79 _ (by simp only [foldl_cat, foldl_nil, fldN_hi, fldN_lo, Nat.reduceLeDiff, Nat.reduceSub, Nat.le_refl, Nat.sub_self]; rfl) (fun w F => ?_) h
      simp only [foldl_cat, foldl_nil] at F
      simp [rawWideOp]
      simp only [rawVecB]
      simp [clauseOf, F, fldN_hi, fldN_lo, req_true, decodeKSrc])
theorem blend (c : Clause) (bank : BitVec 4) (back : Bool) : Statement (.blend c bank back) :=
  of_strand _ .exe (by decide) (fun _ => rfl) (fun h => by
    refine wide_of .exe _ 0x7A _ (by simp only [foldl_cat, foldl_nil, fldN_hi, fldN_lo, Nat.reduceLeDiff, Nat.reduceSub, Nat.le_refl, Nat.sub_self]; rfl) (fun w F => ?_) h
    simp only [foldl_cat, foldl_nil] at F
    simp [rawWideOp]
    simp only [rawVecB]
    simp [clauseOf, F, fldN_hi, fldN_lo, req_true])
theorem vtoa (c : Clause) (ad : BitVec 5) (va : BitVec 9) (row : BitVec 4) (col : BitVec 6) (sext : Bool) : Statement (.vtoa c ad va row col sext) :=
  of_strand _ .exe (by decide) (fun _ => rfl) (fun h => by
    refine wide_of .exe _ 0x7B _ (by simp only [foldl_cat, foldl_nil, fldN_hi, fldN_lo, Nat.reduceLeDiff, Nat.reduceSub, Nat.le_refl, Nat.sub_self]; rfl) (fun w F => ?_) h
    simp only [foldl_cat, foldl_nil] at F
    simp [rawWideOp]
    simp only [rawVecB]
    simp [clauseOf, F, fldN_hi, fldN_lo, req_true])
theorem atov (c : Clause) (vd : BitVec 9) (a : BitVec 5) (row : BitVec 4) (col : BitVec 6) : Statement (.atov c vd a row col) :=
  of_strand _ .exe (by decide) (fun _ => rfl) (fun h => by
    refine wide_of .exe _ 0x7C _ (by simp only [foldl_cat, foldl_nil, fldN_hi, fldN_lo, Nat.reduceLeDiff, Nat.reduceSub, Nat.le_refl, Nat.sub_self]; rfl) (fun w F => ?_) h
    simp only [foldl_cat, foldl_nil] at F
    simp [rawWideOp]
    simp only [rawVecB]
    simp [clauseOf, F, fldN_hi, fldN_lo, req_true])
theorem mlease (c : Clause) (g : Bool) : Statement (.mlease c g) :=
  of_strand _ .exe (by decide) (fun _ => rfl) (fun h => by
    refine wide_of .exe _ 0xA0 _ (by simp only [foldl_cat, foldl_nil, fldN_hi, fldN_lo, Nat.reduceLeDiff, Nat.reduceSub, Nat.le_refl, Nat.sub_self]; rfl) (fun w F => ?_) h
    simp only [foldl_cat, foldl_nil] at F
    simp [rawWideOp]
    simp only [rawMatrix]
    simp [clauseOf, F, fldN_hi, fldN_lo, req_true])
theorem mrel (c : Clause) : Statement (.mrel c) :=
  of_strand _ .exe (by decide) (fun _ => rfl) (fun h => by
    refine wide_of .exe _ 0xA1 _ (by simp only [foldl_cat, foldl_nil, fldN_hi, fldN_lo, Nat.reduceLeDiff, Nat.reduceSub, Nat.le_refl, Nat.sub_self]; rfl) (fun w F => ?_) h
    simp only [foldl_cat, foldl_nil] at F
    simp [rawWideOp]
    simp only [rawMatrix]
    simp [clauseOf, F, fldN_hi, fldN_lo, req_true])
theorem mma (c : Clause) (fa : MFmt) (fb : MFmt) (g : Bool) (z0 : Bool) (sc : Bool) (a : ASrc) (b : BSrc) (m : BitVec 9) (n : BitVec 9) (k : BitVec 9) (zcol : BitVec 9) (zrow : BitVec 7) (hsa : BitVec 6) (hsb : BitVec 6) : Statement (.mma c fa fb g z0 sc a b m n k zcol zrow hsa hsb) :=
  of_strand _ .exe (by decide) (fun _ => rfl) (fun h => by
    refine wide_of .exe _ 0xA2 _ (by simp only [foldl_cat, foldl_nil, fldN_hi, fldN_lo, Nat.reduceLeDiff, Nat.reduceSub, Nat.le_refl, Nat.sub_self]; rfl) (fun w F => ?_) h
    simp only [foldl_cat, foldl_nil] at F
    simp [rawWideOp]
    simp only [rawMatrix]
    simp only [encodeSecond]
    simp [clauseOf, F, fldN_hi, fldN_lo, req_true, fld_pack, foldl_cat, foldl_nil])
theorem mmag (c : Clause) (fa : MFmt) (fb : MFmt) (g : Bool) (z0 : Bool) (sc : Bool) (a : ASrc) (hb : BitVec 6) (hc : BitVec 6) (grp : BitVec 4) (m : BitVec 9) (n : BitVec 9) (k : BitVec 9) (zcol : BitVec 9) (zrow : BitVec 7) (hsa : BitVec 6) (hy : BitVec 6) : Statement (.mmag c fa fb g z0 sc a hb hc grp m n k zcol zrow hsa hy) :=
  of_strand _ .exe (by decide) (fun _ => rfl) (fun h => by
    refine wide_of .exe _ 0xA3 _ (by simp only [foldl_cat, foldl_nil, fldN_hi, fldN_lo, Nat.reduceLeDiff, Nat.reduceSub, Nat.le_refl, Nat.sub_self]; rfl) (fun w F => ?_) h
    simp only [foldl_cat, foldl_nil] at F
    simp [rawWideOp]
    simp only [rawMatrix]
    simp only [encodeSecond]
    simp [clauseOf, F, fldN_hi, fldN_lo, req_true, fld_pack, foldl_cat, foldl_nil])
theorem mzero (c : Clause) (m : BitVec 9) (n : BitVec 9) (zrow : BitVec 7) (zcol : BitVec 9) : Statement (.mzero c m n zrow zcol) :=
  of_strand _ .exe (by decide) (fun _ => rfl) (fun h => by
    refine wide_of .exe _ 0xA4 _ (by simp only [foldl_cat, foldl_nil, fldN_hi, fldN_lo, Nat.reduceLeDiff, Nat.reduceSub, Nat.le_refl, Nat.sub_self]; rfl) (fun w F => ?_) h
    simp only [foldl_cat, foldl_nil] at F
    simp [rawWideOp]
    simp only [rawMatrix]
    simp [clauseOf, F, fldN_hi, fldN_lo, req_true])
theorem mdrain (c : Clause) (dest : Dest) (t : Elem) (sat : Bool) (clip : Bool) (z : Bool) (scl : Option (BitVec 5)) (m : BitVec 9) (n : BitVec 9) (zrow : BitVec 7) (zcol : BitVec 9) : Statement (.mdrain c dest t sat clip z scl m n zrow zcol) :=
  of_strand _ .exe (by decide) (fun _ => rfl) (fun h => by
    cases scl
    all_goals
      refine wide_of .exe _ 0xA5 _ (by simp only [foldl_cat, foldl_nil, fldN_hi, fldN_lo, Nat.reduceLeDiff, Nat.reduceSub, Nat.le_refl, Nat.sub_self]; rfl) (fun w F => ?_) h
      simp only [foldl_cat, foldl_nil] at F
      simp [rawWideOp]
      simp only [rawMatrix]
      simp only [encodeSecond]
      simp [clauseOf, F, fldN_hi, fldN_lo, req_true, fld_pack, foldl_cat, foldl_nil])
theorem mstat (c : Clause) (ad : BitVec 5) (clr : Bool) : Statement (.mstat c ad clr) :=
  of_strand _ .exe (by decide) (fun _ => rfl) (fun h => by
    refine wide_of .exe _ 0xA6 _ (by simp only [foldl_cat, foldl_nil, fldN_hi, fldN_lo, Nat.reduceLeDiff, Nat.reduceSub, Nat.le_refl, Nat.sub_self]; rfl) (fun w F => ?_) h
    simp only [foldl_cat, foldl_nil] at F
    simp [rawWideOp]
    simp only [rawMatrix]
    simp [clauseOf, F, fldN_hi, fldN_lo, req_true])
theorem mrowp (c : Clause) (ad : BitVec 5) (set : Option (BitVec 5)) : Statement (.mrowp c ad set) :=
  of_strand _ .exe (by decide) (fun _ => rfl) (fun h => by
    cases set
    all_goals
      refine wide_of .exe _ 0xA7 _ (by simp only [foldl_cat, foldl_nil, fldN_hi, fldN_lo, Nat.reduceLeDiff, Nat.reduceSub, Nat.le_refl, Nat.sub_self]; rfl) (fun w F => ?_) h
      simp only [foldl_cat, foldl_nil] at F
      simp [rawWideOp]
      simp only [rawMatrix]
      simp [clauseOf, F, fldN_hi, fldN_lo, req_true])
theorem stv (c : Clause) (t : Elem) (sat : Bool) (hd : BitVec 6) (va : BitVec 9) (idx : BitVec 5) : Statement (.stv c t sat hd va idx) :=
  of_strand _ .emi (by decide) (fun _ => rfl) (fun h => by
    refine wide_of .emi _ 0xC0 _ (by simp only [foldl_cat, foldl_nil, fldN_hi, fldN_lo, Nat.reduceLeDiff, Nat.reduceSub, Nat.le_refl, Nat.sub_self]; rfl) (fun w F => ?_) h
    simp only [foldl_cat, foldl_nil] at F
    simp [rawWideOp]
    simp only [rawEmi]
    simp [clauseOf, F, fldN_hi, fldN_lo, req_true])
theorem stt (c : Clause) (t : Elem) (hs : BitVec 6) (base : BitVec 5) (idx : BitVec 5) (off : BitVec 20) : Statement (.stt c t hs base idx off) :=
  of_strand _ .emi (by decide) (fun _ => rfl) (fun h => by
    refine wide_of .emi _ 0xC1 _ (by simp only [foldl_cat, foldl_nil, fldN_hi, fldN_lo, Nat.reduceLeDiff, Nat.reduceSub, Nat.le_refl, Nat.sub_self]; rfl) (fun w F => ?_) h
    simp only [foldl_cat, foldl_nil] at F
    simp [rawWideOp]
    simp only [rawEmi]
    simp [clauseOf, F, fldN_hi, fldN_lo, req_true])
theorem stva (c : Clause) (t : Elem) (sat : Bool) (vd : BitVec 9) (base : BitVec 5) (idx : BitVec 5) (off : BitVec 20) : Statement (.stva c t sat vd base idx off) :=
  of_strand _ .emi (by decide) (fun _ => rfl) (fun h => by
    refine wide_of .emi _ 0xC2 _ (by simp only [foldl_cat, foldl_nil, fldN_hi, fldN_lo, Nat.reduceLeDiff, Nat.reduceSub, Nat.le_refl, Nat.sub_self]; rfl) (fun w F => ?_) h
    simp only [foldl_cat, foldl_nil] at F
    simp [rawWideOp]
    simp only [rawEmi]
    simp [clauseOf, F, fldN_hi, fldN_lo, req_true])
theorem scat (c : Clause) (t : Elem) (k : BitVec 3) (sat : Bool) (va : BitVec 9) (vb : BitVec 9) (ab : BitVec 5) : Statement (.scat c t k sat va vb ab) :=
  of_strand _ .emi (by decide) (fun _ => rfl) (fun h => by
    refine wide_of .emi _ 0xC3 _ (by simp only [foldl_cat, foldl_nil, fldN_hi, fldN_lo, Nat.reduceLeDiff, Nat.reduceSub, Nat.le_refl, Nat.sub_self]; rfl) (fun w F => ?_) h
    simp only [foldl_cat, foldl_nil] at F
    simp [rawWideOp]
    simp only [rawEmi]
    simp [clauseOf, F, fldN_hi, fldN_lo, req_true])
theorem stred (c : Clause) (t : Elem) (op : StredOp) (sat : Bool) (vd : BitVec 9) (base : BitVec 5) (idx : BitVec 5) (off : BitVec 20) : Statement (.stred c t op sat vd base idx off) :=
  of_strand _ .emi (by decide) (fun _ => rfl) (fun h => by
    refine wide_of .emi _ 0xC4 _ (by simp only [foldl_cat, foldl_nil, fldN_hi, fldN_lo, Nat.reduceLeDiff, Nat.reduceSub, Nat.le_refl, Nat.sub_self]; rfl) (fun w F => ?_) h
    simp only [foldl_cat, foldl_nil] at F
    simp [rawWideOp]
    simp only [rawEmi]
    simp [clauseOf, F, fldN_hi, fldN_lo, req_true])
theorem spushv (c : Clause) (vd : BitVec 9) (h : BitVec 6) (n : BitVec 4) : Statement (.spushv c vd h n) :=
  of_strand _ .emi (by decide) (fun _ => rfl) (fun h => by
    refine wide_of .emi _ 0xC5 _ (by simp only [foldl_cat, foldl_nil, fldN_hi, fldN_lo, Nat.reduceLeDiff, Nat.reduceSub, Nat.le_refl, Nat.sub_self]; rfl) (fun w F => ?_) h
    simp only [foldl_cat, foldl_nil] at F
    simp [rawWideOp]
    simp only [rawEmi]
    simp [clauseOf, F, fldN_hi, fldN_lo, req_true])
theorem stk (c : Clause) (k : BitVec 3) (base : BitVec 5) (off : BitVec 20) : Statement (.stk c k base off) :=
  of_strand _ .emi (by decide) (fun _ => rfl) (fun h => by
    refine wide_of .emi _ 0xC6 _ (by simp only [foldl_cat, foldl_nil, fldN_hi, fldN_lo, Nat.reduceLeDiff, Nat.reduceSub, Nat.le_refl, Nat.sub_self]; rfl) (fun w F => ?_) h
    simp only [foldl_cat, foldl_nil] at F
    simp [rawWideOp]
    simp only [rawEmi]
    simp [clauseOf, F, fldN_hi, fldN_lo, req_true])
theorem fpcWrite (core : Nat) (st : Strand) (v : W64) : Statement (.fpcWrite core st v) := of_event _ (fun _ => rfl)
theorem moddefWrite (core : Nat) (st : Strand) (v : W64) : Statement (.moddefWrite core st v) := of_event _ (fun _ => rfl)
theorem ptbaseWrite (core : Nat) (v : W64) : Statement (.ptbaseWrite core v) := of_event _ (fun _ => rfl)
theorem mrowpWrite (core : Nat) (v : W64) : Statement (.mrowpWrite core v) := of_event _ (fun _ => rfl)
theorem presslenWrite (v : W64) : Statement (.presslenWrite v) := of_event _ (fun _ => rfl)
theorem ctxidWrite (core : Nat) (v : W64) : Statement (.ctxidWrite core v) := of_event _ (fun _ => rfl)
theorem vfidWrite (core : Nat) (v : W64) : Statement (.vfidWrite core v) := of_event _ (fun _ => rfl)
theorem dispatch (die : Nat) : Statement (.dispatch die) := of_event _ (fun _ => rfl)
theorem readinessFill (pa : Nat) : Statement (.readinessFill pa) := of_event _ (fun _ => rfl)
theorem launchRecord (ctx : Nat) : Statement (.launchRecord ctx) := of_event _ (fun _ => rfl)
theorem launchRetire (id : Nat) : Statement (.launchRetire id) := of_event _ (fun _ => rfl)
theorem pressPeriod : Statement (.pressPeriod) := of_event _ (fun _ => rfl)
theorem budgetHold (die : Nat) (cls : Nat) (res : Nat) : Statement (.budgetHold die cls res) := of_event _ (fun _ => rfl)
theorem delta (k : Nat) : Statement (.delta k) := of_event _ (fun _ => rfl)
theorem deltaRefusalTrap (core : Nat) : Statement (.deltaRefusalTrap core) := of_event _ (fun _ => rfl)
theorem weightMessage (k : Nat) : Statement (.weightMessage k) := of_event _ (fun _ => rfl)
theorem leaseGrant (cluster : Nat) : Statement (.leaseGrant cluster) := of_event _ (fun _ => rfl)
theorem leaseExpiry (core : Nat) : Statement (.leaseExpiry core) := of_event _ (fun _ => rfl)
theorem leaseRevoke (core : Nat) : Statement (.leaseRevoke core) := of_event _ (fun _ => rfl)
theorem gangLeaseTimeout (cluster : Nat) : Statement (.gangLeaseTimeout cluster) := of_event _ (fun _ => rfl)
theorem matrixCmdStart (core : Nat) : Statement (.matrixCmdStart core) := of_event _ (fun _ => rfl)
theorem matrixCmdComplete (core : Nat) : Statement (.matrixCmdComplete core) := of_event _ (fun _ => rfl)
theorem tileFillComplete (core : Nat) (n : Nat) : Statement (.tileFillComplete core n) := of_event _ (fun _ => rfl)
theorem stvComplete (core : Nat) (n : Nat) : Statement (.stvComplete core n) := of_event _ (fun _ => rfl)
theorem sttComplete (core : Nat) (n : Nat) : Statement (.sttComplete core n) := of_event _ (fun _ => rfl)
theorem stredComplete (core : Nat) (n : Nat) : Statement (.stredComplete core n) := of_event _ (fun _ => rfl)
theorem cecComplete (core : Nat) (n : Nat) : Statement (.cecComplete core n) := of_event _ (fun _ => rfl)
theorem cedupComplete (core : Nat) (n : Nat) : Statement (.cedupComplete core n) := of_event _ (fun _ => rfl)
theorem collectiveComplete (id : Nat) : Statement (.collectiveComplete id) := of_event _ (fun _ => rfl)
theorem rrotComplete (core : Nat) (n : Nat) : Statement (.rrotComplete core n) := of_event _ (fun _ => rfl)
theorem copyOnWrite (k : Nat) : Statement (.copyOnWrite k) := of_event _ (fun _ => rfl)
theorem trapEntry (core : Nat) : Statement (.trapEntry core) := of_event _ (fun _ => rfl)
theorem monitorEntry (core : Nat) : Statement (.monitorEntry core) := of_event _ (fun _ => rfl)
theorem cellStop (core : Nat) : Statement (.cellStop core) := of_event _ (fun _ => rfl)
theorem prestPlace (k : Nat) : Statement (.prestPlace k) := of_event _ (fun _ => rfl)
theorem gangRestore (k : Nat) : Statement (.gangRestore k) := of_event _ (fun _ => rfl)
theorem stopPress (core : Nat) (bank : Nat) : Statement (.stopPress core bank) := of_event _ (fun _ => rfl)
theorem stopPressEnd (core : Nat) : Statement (.stopPressEnd core) := of_event _ (fun _ => rfl)
theorem rasWindow (core : Nat) : Statement (.rasWindow core) := of_event _ (fun _ => rfl)
theorem uncorrectable (site : ErrSite) : Statement (.uncorrectable site) := of_event _ (fun _ => rfl)
theorem streamItemArrival (k : Nat) : Statement (.streamItemArrival k) := of_event _ (fun _ => rfl)
theorem streamRefill (core : Nat) (k : Nat) : Statement (.streamRefill core k) := of_event _ (fun _ => rfl)
theorem streamStop (k : Nat) : Statement (.streamStop k) := of_event _ (fun _ => rfl)
theorem streamGo (k : Nat) : Statement (.streamGo k) := of_event _ (fun _ => rfl)
theorem streamRebind (k : Nat) : Statement (.streamRebind k) := of_event _ (fun _ => rfl)
theorem streamRebindAck (k : Nat) : Statement (.streamRebindAck k) := of_event _ (fun _ => rfl)
theorem orphanNotice (k : Nat) : Statement (.orphanNotice k) := of_event _ (fun _ => rfl)
theorem pktRead (k : Nat) : Statement (.pktRead k) := of_event _ (fun _ => rfl)
theorem pktWrite (k : Nat) : Statement (.pktWrite k) := of_event _ (fun _ => rfl)
theorem pktRmw (k : Nat) : Statement (.pktRmw k) := of_event _ (fun _ => rfl)
theorem pktCas (k : Nat) : Statement (.pktCas k) := of_event _ (fun _ => rfl)
theorem pktReadData (k : Nat) : Statement (.pktReadData k) := of_event _ (fun _ => rfl)
theorem pktAcknowledge (k : Nat) : Statement (.pktAcknowledge k) := of_event _ (fun _ => rfl)
theorem pktRefuse (k : Nat) : Statement (.pktRefuse k) := of_event _ (fun _ => rfl)
theorem pktToken (k : Nat) : Statement (.pktToken k) := of_event _ (fun _ => rfl)
theorem pktCollectiveData (k : Nat) : Statement (.pktCollectiveData k) := of_event _ (fun _ => rfl)
theorem pktBad (k : Nat) : Statement (.pktBad k) := of_event _ (fun _ => rfl)
theorem retransmit (k : Nat) : Statement (.retransmit k) := of_event _ (fun _ => rfl)
theorem deviceLost (dev : Nat) : Statement (.deviceLost dev) := of_event _ (fun _ => rfl)
theorem linkReplay (port : Nat) : Statement (.linkReplay port) := of_event _ (fun _ => rfl)
theorem linkUp (port : Nat) (id : Nat) : Statement (.linkUp port id) := of_event _ (fun _ => rfl)
theorem hostPacket (k : Nat) : Statement (.hostPacket k) := of_event _ (fun _ => rfl)
theorem cfgRead (addr : W64) : Statement (.cfgRead addr) := of_event _ (fun _ => rfl)
theorem cfgWrite (addr : W64) (v : W64) : Statement (.cfgWrite addr v) := of_event _ (fun _ => rfl)
theorem bootctl (v : W64) : Statement (.bootctl v) := of_event _ (fun _ => rfl)
theorem firmwareStaging (i : Nat) (v : W64) : Statement (.firmwareStaging i v) := of_event _ (fun _ => rfl)
theorem budgetTableWrite (i : Nat) (v : W64) : Statement (.budgetTableWrite i v) := of_event _ (fun _ => rfl)
theorem contextEnable (ctx : Nat) : Statement (.contextEnable ctx) := of_event _ (fun _ => rfl)
theorem contextDisable (ctx : Nat) : Statement (.contextDisable ctx) := of_event _ (fun _ => rfl)
theorem lsOpen (ctx : Nat) (stock : W64) : Statement (.lsOpen ctx stock) := of_event _ (fun _ => rfl)
theorem lsClose (ctx : Nat) : Statement (.lsClose ctx) := of_event _ (fun _ => rfl)
theorem wake (core : Nat) : Statement (.wake core) := of_event _ (fun _ => rfl)
theorem attest (n0 : W64) (n1 : W64) (n2 : W64) (n3 : W64) : Statement (.attest n0 n1 n2 n3) := of_event _ (fun _ => rfl)
theorem coreReset (core : Nat) : Statement (.coreReset core) := of_event _ (fun _ => rfl)
theorem rollback : Statement (.rollback) := of_event _ (fun _ => rfl)
theorem deviceReset (straps : BitVec 8) : Statement (.deviceReset straps) := of_event _ (fun _ => rfl)
theorem thermWarn : Statement (.thermWarn) := of_event _ (fun _ => rfl)
theorem thermTrip : Statement (.thermTrip) := of_event _ (fun _ => rfl)
theorem powerCap : Statement (.powerCap) := of_event _ (fun _ => rfl)
theorem watchdog (core : Nat) : Statement (.watchdog core) := of_event _ (fun _ => rfl)
theorem scrubUe (pa : Nat) : Statement (.scrubUe pa) := of_event _ (fun _ => rfl)
theorem illegalEncoding : Statement (.illegalEncoding) := of_event _ (fun _ => rfl)
theorem storePerformed (core : Nat) (st : Strand) : Statement (.storePerformed core st) := of_event _ (fun _ => rfl)
theorem dieCopyUpdate (die : Nat) (addr : Nat) : Statement (.dieCopyUpdate die addr) := of_event _ (fun _ => rfl)
theorem loadReturn (core : Nat) (k : Nat) : Statement (.loadReturn core k) := of_event _ (fun _ => rfl)
theorem sideArrayClear (k : Nat) : Statement (.sideArrayClear k) := of_event _ (fun _ => rfl)
theorem hbmCorrection (row : Nat) : Statement (.hbmCorrection row) := of_event _ (fun _ => rfl)

end Sys2Proof.Laws.Encoding
end

