-- ==== Sys2Proof/Laws/Wide.lean ====
section
/-! SUPPORT. What a wide instruction does with its token clause (R26, R28), said once: ready, it runs its body in the state
of its pops and finishes; not ready, it stays. -/

namespace Sys2Proof.Machine

/-- A clause whose tokens, room and release are there does not stop. -/
theorem clauseReady_ok {c : Clause} {s : State} (h : WideReady c s) : clauseReady c s = .ok () := by
  have hp : (s.cur.st.named c.pop).any (fun x => s.me.tokPoison.contains (qIdx x s.cur.st)) = false := by
    rw [List.any_eq_false]
    intro x hx
    simpa using (h.pops x hx).2
  have hq : (s.cur.st.named c.pop).all (fun x => !(s.me.queue x s.cur.st).isEmpty) = true := by
    rw [List.all_eq_true]
    intro x hx
    simpa using (h.pops x hx).1
  have hr : (s.cur.st.named c.push).all (fun y => decide ((s.me.queue s.cur.st y).length < 16)) = true := by
    rw [List.all_eq_true]
    intro y hy
    simpa using h.room y hy
  unfold clauseReady
  dsimp only
  rw [if_pos h.fresh, if_neg (by rw [hp]; exact Bool.false_ne_true), hq, hr]
  rfl

/-- The outcome of a wide instruction that may run. -/
theorem runWideN_of_ready {words : Nat} {jump : Bool} {c : Clause} {s : State} {b : State → Try State} (h : WideReady c s) :
    runWideN words jump c s b =
      settle s.cur.core s.cur.st
        ((runWaits c s (b (s.popped c))).map (fun s' => finishWide words jump (clauseDone c ⟨false, 0⟩ s'))) := by
  have hb : (if c.pop != 0 && s.my.asked = 0 then acquire s .core else s) = s.popped c := by
    unfold State.popped; by_cases e : c.pop = 0 <;> simp [e, h.fresh]
  unfold runWideN runWideFirst
  rw [clauseReady_ok h]
  by_cases e : c.push = 0
  · simp only [e, bne_self_eq_false, Bool.false_and, Bool.false_eq_true, if_false, bind, Except.bind, pure, Except.pure, hb]
    cases runWaits c s (b (s.popped c)) <;> rfl
  · have hm : release s .core = .ok () := h.rel e
    have e' : (c.push != 0 && decide (s.my.asked = 0)) = true := by simpa [h.fresh] using e
    simp only [e', if_true, hm, bind, Except.bind, pure, Except.pure, hb]
    cases runWaits c s (b (s.popped c)) <;> rfl

theorem runWideN_ok {words : Nat} {jump : Bool} {c : Clause} {s s' : State} {b : State → Try State} (h : WideReady c s)
    (hb : b (s.popped c) = .ok s') :
    runWideN words jump c s b = .next (finishWide words jump (clauseDone c ⟨false, 0⟩ s')) := by
  rw [runWideN_of_ready h, hb]; rfl

theorem runWide_ok {c : Clause} {s s' : State} {b : State → Try State} (h : WideReady c s)
    (hb : b (s.popped c) = .ok s') : runWide c s b = .next (finishWide 1 false (clauseDone c ⟨false, 0⟩ s')) :=
  runWideN_ok h hb

/-- One that traps before it has issued. -/
theorem runWide_trap {c : Clause} {s s' : State} {t : Trap} {b : State → Try State} (h : WideReady c s)
    (hb : b (s.popped c) = .error (.trap t s')) (ht : s'.my.took = []) :
    runWide c s b = .next (takeTrap s.cur.core s.cur.st t s') := by
  unfold runWide; rw [runWideN_of_ready h, hb]; simp only [runWaits, ht]; rfl

/-- One that waits: once it has asked for something, its POP heads are out of their queues (R26). -/
theorem runWide_wait {c : Clause} {s s' : State} {b : State → Try State} (h : WideReady c s)
    (hb : b (s.popped c) = .error (.wait s')) :
    runWide c s b = .next (if s'.my.asked = 0 then s' else takeHeads c s') := by
  unfold runWide; rw [runWideN_of_ready h, hb]; simp only [runWaits, h.fresh, if_true]; rfl

end Sys2Proof.Machine
end

