-- ==== Sys2Proof/Tests/Slice0.lean ====
section
/-! SUPPORT. Tests: what the checks refuse, words written out from the spec's encodings, one step of small states, and for
every statement a state and operands that meet its hypotheses. -/

open Sys2Proof Sys2Proof.Machine

namespace Sys2Proof.Tests

set_option maxRecDepth 100000
set_option Elab.async false

/-! ### Small states -/

/-- The value of an answer, and that there is one. -/
def isOk {ε α : Type} (x : Except ε α) : Bool := match x with | .ok _ => true | .error _ => false
def got {ε α : Type} (d : α) (x : Except ε α) : α := match x with | .ok a => a | .error _ => d
theorem got_eq {ε α : Type} (d : α) (x : Except ε α) (h : isOk x = true) : x = .ok (got d x) := by
  cases x
  · cases h
  · rfl
theorem isOk_unit {ε : Type} {x : Except ε Unit} (h : isOk x = true) : x = .ok () := by
  cases x
  · cases h
  · rfl

/-- A cell of context 0 in U mode on core 0, CTL at 0x1000; 2 MiB of tagged pages at virtual 0 lie at 0x2020_0000. -/
def tU : State := State.withCell .ctl State.reset.withTables
/-- The same with something changed at core 0. -/
def tC (f : Core → Core) : State := tU.modCore 0 f
/-- The same with registers set. -/
def tS (l : List (BitVec 6 × W64)) : State := tC (fun k => l.foldl (fun k p => k.wS p.1 p.2) k)
/-- The same in another mode. -/
def tMode (m : Mode) (s : State) : State := s.modCore 0 (fun k => { k with mode := m })
/-- The same with another strand at issue. -/
def tAt (st : Strand) (s : State) : State := { s with cur := ⟨0, st, 0⟩ }
/-- The same with other choices of the turn. -/
def tPick (n : Nat) (s : State) : State := { s with cur := ⟨0, .ctl, n⟩ }
/-- A clause without tokens. -/
def c0 : Clause := ⟨0, 0⟩

/-- The outcome of an instruction is a next state with a property. -/
def nextWith (r : Host.Outcome State Fault Refusal) (p : State → Bool) : Bool := match r with | .next t => p t | _ => false

theorem ready0 (s : State) (h : s.cur.st ≠ .ctl ∧ s.my.asked = 0 ∧ s.my.took = []) : WideReady c0 s := by
  have e : ∀ st : Strand, st.named (0 : BitVec 3) = [] := by intro st; cases st <;> decide
  refine ⟨h.1, h.2.1, h.2.2, ?_, ?_, fun q => absurd rfl q⟩
  · intro x hx; rw [show c0.pop = 0 from rfl, e] at hx; cases hx
  · intro x hx; rw [show c0.push = 0 from rfl, e] at hx; cases hx

/-- The value of an option that has one. -/
def opt {α : Type} (d : α) (x : Option α) : α := x.getD d
theorem opt_eq {α : Type} (d : α) (x : Option α) (h : x.isSome = true) : x = some (opt d x) := by
  cases x
  · cases h
  · rfl
theorem opt_pair {α β : Type} (x : Option (α × β)) (d : α × β) (a : α) (h : x.isSome = true) (e : (opt d x).1 = a) :
    x = some (a, (opt d x).2) := by
  cases x
  · cases h
  · exact e ▸ rfl
theorem got_eq' {ε α : Type} (d y : α) (x : Except ε α) (h : isOk x = true) (e : got d x = y) : x = .ok y := by
  rw [← e]; exact got_eq d x h
/-- The state after an instruction. -/
def after (i : Instr) (s : State) : State := match exec i s with | .next t => t | _ => s

/-! ### States that meet the hypotheses of the statements -/

theorem wit_EncodingRoundTrips : ∃ i : Instr, i.wf = true ∧ i.inStrand .ctl = true := ⟨.addi 1 2 0x1FFF, by decide⟩
theorem wit_EncodingRoundTrips_wide : ∃ (i : Instr) (st : Strand), i.wf = true ∧ st ≠ .ctl ∧ i.inStrand st = true :=
  ⟨.vadd ⟨0, 0⟩ .f32 1 false 383 0 383, .exe, by decide⟩

theorem wit_IntegerResults : ∃ (i : Instr) (s : State) (d : BitVec 6) (v : W64), intValue s i = some (d, v) ∧ Steady s :=
  ⟨.add 63 1 2, tS [(1, BitVec.allOnes 64), (2, 1)], 63, _, rfl, by decide +kernel⟩
theorem wit_Divisions : ∃ (i : Instr) (s : State) (d : BitVec 6) (v y : W64), divValue s i = some (d, v, y) ∧ y ≠ 0 ∧
    Steady s :=
  ⟨.div 3 1 2, tS [(1, 0x8000000000000000), (2, BitVec.allOnes 64)], 3, _, _, rfl, by decide +kernel⟩
theorem wit_Divisions_zero : ∃ (i : Instr) (s : State) (d : BitVec 6) (v : W64), divValue s i = some (d, v, 0) :=
  ⟨.remn 3 1 0, tS [(1, 7)], 3, _, rfl⟩
theorem wit_Predicates : ∃ (i : Instr) (s : State) (d : BitVec 3) (v : Bool), predValue s i = some (d, v) ∧ Steady s :=
  ⟨.cmp 7 .lt 1 2, tS [(1, 0x8000000000000000)], 7, _, rfl, by decide +kernel⟩

theorem wit_BranchesAndJumps : ∃ (i : Instr) (s : State) (target : W64) (link : Bool), jumpValue s i = some (target, link) ∧
    Steady s ∧ ¬(throughReg i = true ∧ target.toNat % 4 ≠ 0) :=
  ⟨.br 0 0x1FFFFF, tU, _, false, rfl, by decide +kernel⟩
theorem wit_BranchesAndJumps_odd : ∃ (i : Instr) (s : State) (target : W64) (link : Bool),
    jumpValue s i = some (target, link) ∧ Steady s ∧ throughReg i = true ∧ target.toNat % 4 ≠ 0 :=
  ⟨.jr 1, tS [(1, 0x1002)], 0x1002, false, by decide +kernel⟩

theorem wit_NextWords : ∃ (i : Instr) (s : State), goesOn s i = true ∧ Steady s := ⟨.brn 0 5, tU, by decide +kernel⟩
theorem wit_NextWords_line : ∃ x : StrandSt, x.loop = none := ⟨.init, rfl⟩
/-- The three places in a loop: inside its body, at its end with a pass to come, at its end after the last. -/
theorem wit_NextWords_loop : ∃ (x y z : StrandSt) (l m : LoopSt),
    (x.loop = some l ∧ x.pc + BitVec.ofNat 64 4 ≠ l.start + BitVec.ofNat 64 (l.len * 4)) ∧
    (y.loop = some l ∧ y.pc + BitVec.ofNat 64 4 = l.start + BitVec.ofNat 64 (l.len * 4) ∧ 1 < l.left.toNat) ∧
    (z.loop = some m ∧ z.pc + BitVec.ofNat 64 4 = m.start + BitVec.ofNat 64 (m.len * 4) ∧ m.left.toNat ≤ 1) :=
  ⟨{ StrandSt.init with pc := 0x100, loop := some ⟨0x100, 2, 2, []⟩ },
   { StrandSt.init with pc := 0x104, loop := some ⟨0x100, 2, 2, []⟩ },
   { StrandSt.init with pc := 0x104, loop := some ⟨0x100, 2, 1, []⟩ }, ⟨0x100, 2, 2, []⟩, ⟨0x100, 2, 1, []⟩, by decide⟩
theorem wit_NextWords_enter : ∃ (s : State) (a n : BitVec 6) (body : List (Option W64)),
    bodyWords s s.cur.core .ctl s.mode (s.me.ctl.pc + 4) (n.toNat + 1) = body ∧ Steady s ∧ s.me.ctl.loop = none ∧
    ctlBodyBad body = false ∧ s.rS a ≠ 0 :=
  ⟨tS [(1, 1)], 1, 63, _, rfl, by decide +kernel⟩
theorem wit_NextWords_skip : ∃ (s : State) (a n : BitVec 6) (body : List (Option W64)),
    bodyWords s s.cur.core .ctl s.mode (s.me.ctl.pc + 4) (n.toNat + 1) = body ∧ Steady s ∧ s.me.ctl.loop = none ∧
    ctlBodyBad body = false ∧ s.rS a = 0 :=
  ⟨tU, 0, 0, _, rfl, by decide +kernel⟩
theorem wit_NextWords_nested : ∃ (s : State) (n : BitVec 6) (body : List (Option W64)),
    bodyWords s s.cur.core .ctl s.mode (s.me.ctl.pc + 4) (n.toNat + 1) = body ∧ Steady s ∧
    (s.me.ctl.loop ≠ none ∨ ctlBodyBad body = true) :=
  ⟨tC (fun k => { k with ctl := { k.ctl with loop := some ⟨0x1000, 2, 2, []⟩ } }), 0, _, rfl, by decide +kernel⟩

theorem wit_CsrReads : ∃ (s : State) (n : BitVec 12), csrListed n = true ∧ csrMayRead s.mode n.toNat = true ∧ Steady s :=
  ⟨tU, 0x002, by decide +kernel⟩
theorem wit_CsrReads_wide : ∃ (c : Clause) (s : State) (n : BitVec 12), csrListed n = true ∧ csrMayRead .u n.toNat = true ∧
    WideReady c s := ⟨c0, tAt .exe tU, 0x000, by decide, by decide, ready0 _ (by decide +kernel)⟩
theorem wit_CsrReads_words : ∃ (w v : W32) (x y : W64), decodeCtl w = some (.csrr 5 0x130) ∧
    decodeCtl v = some (.csrw 5 0x020) ∧ decodeWide .exe x 0 = some (.acsrr c0 5 0x000) ∧
    decodeWide .emi y 0 = some (.acsrw c0 5 0x001) :=
  ⟨encodeCtl (.csrr 5 0x130), encodeCtl (.csrw 5 0x020), encodeWide (.acsrr c0 5 0x000), encodeWide (.acsrw c0 5 0x001), by decide +kernel⟩

theorem wit_CsrWrites : ∃ (s : State) (n : BitVec 12) (m : W64), (n.toNat, m) ∈ csrMasks ∧
    csrMayWrite s.mode n.toNat = true ∧ s.cur.st = .ctl ∧ Steady s := ⟨tMode .m tU, 0x130, 0x73F, by decide +kernel⟩
theorem wit_CsrWrites_super : ∃ s : State, s.mode ≠ .u ∧ Steady s := ⟨tMode .s tU, by decide +kernel⟩
theorem wit_CsrWrites_monitor : ∃ s : State, s.mode = .m ∧ Steady s := ⟨tMode .m tU, by decide +kernel⟩
theorem wit_CsrWrites_wide : ∃ (c : Clause) (s : State), WideReady c s := ⟨c0, tAt .emi tU, ready0 _ (by decide +kernel)⟩

theorem wit_RegisterWriteSteps : ∃ (s : State) (c c' : Nat) (st st' : Strand), c' ≠ c ∧ st' ≠ st ∧
    ((s.core c).tlOf .mx).stopped = true ∧ ((s.core c').tlOf .mx).stopped = false ∧ ((s.core c').tlOf .mx).mark = none :=
  ⟨tC (fun k => k.setTl .mx { k.tlOf .mx with stopped := true }), 0, 1, .ctl, .exe, by decide +kernel⟩

theorem wit_PrivilegeAndAddressTraps : ∃ (s : State) (n m : BitVec 12), csrMayRead s.mode n.toNat = false ∧
    csrMayWrite s.mode m.toNat = false ∧ s.mode = .u := ⟨tU, 0x100, 0x002, by decide +kernel⟩
theorem wit_AddressTraps : ∃ (s : State) (a b : BitVec 6) (off : BitVec 12),
    (s.rS a + BitVec.ofInt 64 (off.toInt * sizeBytes .d)).toNat % sizeBytes .d ≠ 0 ∧
    (s.rS b + BitVec.ofInt 64 (off.toInt * sizeBytes .d)).toNat % sizeBytes .d = 0 ∧
    fld (s.rS b + BitVec.ofInt 64 (off.toInt * sizeBytes .d)) 52 12 ≠ 0 :=
  ⟨tS [(1, 0x1004), (2, 0)], 1, 2, 0xFFF, by decide +kernel⟩
theorem wit_AddressTraps_tile : ∃ (s : State) (a : BitVec 6) (off : BitVec 12) (z : Size) (c o : Nat),
    let ea := s.rS a + BitVec.ofInt 64 (off.toInt * sizeBytes z)
    EaOk ea z ∧ relPart s s.attr = .ok () ∧ s.mode ≠ .m ∧ regionOf ea.toNat = .tile c o := by
  refine ⟨tS [(1, 0xF000000000000)], 1, 0, .w, 0, 0, ⟨?_, ?_⟩, ?_⟩ <;> decide +kernel

/-- What a read of the device answers, and the state after it. -/
def readOf (s : State) (ea : W64) (n : Nat) : List Byte × State := got ([], s) (readVa s ea n)

theorem wit_LoadsReturn : ∃ (s : State) (a : BitVec 6) (off : BitVec 12) (z : Size) (bs : List Byte) (s1 : State),
    let ea := s.rS a + BitVec.ofInt 64 (off.toInt * sizeBytes z)
    EaOk ea z ∧ (s.choice 2 = false ∨ s.attr.o ≠ .rlx ∨ ¬PageAddress s ea ∨ s.mode = .m) ∧
    readVa s ea (sizeBytes z) = .ok (bs, s1) ∧ s.cur.st = .ctl ∧ Steady s := by
  refine ⟨tS [(1, 0x1008)], 1, 0xFFF, .d, (readOf (tS [(1, 0x1008)]) 0x1000 8).1, (readOf (tS [(1, 0x1008)]) 0x1000 8).2,
    ⟨?_, ?_⟩, Or.inl ?_, got_eq ([], tS [(1, 0x1008)]) _ ?_,
    ?_⟩ <;> decide +kernel

/-- The place of a read of a state's strand. -/
def trOf (s : State) (ea : W64) : Tr := got ⟨0, false, none⟩ (xlate s s.cur.core s.me.ctxOf s.mode ea.toNat false false)

theorem wit_LoadsReturn_home : ∃ (s : State) (ea : W64) (n : Nat) (tr : Tr), PageAddress s ea ∧
    (s.attr.s = .dev ∨ s.attr.s = .sys) ∧ xlate s s.cur.core s.me.ctxOf s.mode ea.toNat false false = .ok tr ∧
    (∀ o ∈ s.me.stores, o.hits tr.pa n = false) ∧ s.seenWrites s.cur.core (dieOf s.cur.core) tr.pa n = [] ∧
    s.aheadOf tr.pa n = [] ∧ s.bad tr.pa n = false := by
  refine ⟨tU, 0x1008, 8, trOf tU 0x1008, Or.inr ?_, Or.inl ?_, got_eq ⟨0, false, none⟩ _ ?_,
    ?_⟩ <;> decide +kernel
theorem wit_LoadsReturn_later : ∃ (s : State) (a : BitVec 6) (off : BitVec 12) (z : Size) (tr : Tr),
    let ea := s.rS a + BitVec.ofInt 64 (off.toInt * sizeBytes z)
    EaOk ea z ∧ s.choice 2 = true ∧ s.attr.o = .rlx ∧ s.mode ≠ .m ∧ regionOf ea.toNat = .page ∧
    xlate s s.cur.core s.me.ctxOf s.mode ea.toNat false false = .ok tr ∧ s.bad tr.pa (sizeBytes z) = false ∧
    (∀ o ∈ s.me.stores, o.hits tr.pa (sizeBytes z) = false) ∧
    s.seenWrites s.cur.core (dieOf s.cur.core) tr.pa (sizeBytes z) = [] ∧ Steady s := by
  refine ⟨tPick 4 tU, 0, 0, .b, trOf (tPick 4 tU) 0, ⟨?_, ?_⟩, ?_, ?_,
    ?_, ?_, got_eq ⟨0, false, none⟩ _ ?_, ?_⟩ <;> decide +kernel
theorem wit_LoadsReturn_data : ∃ (s : State) (core k : Nat) (l : LoadOp), (s.core core).loads[k]? = some l ∧
    (l.attr.s = .dev ∨ l.attr.s = .sys) ∧ (∀ o ∈ (s.core core).stores, o.hits l.pa l.n = false) ∧
    s.seenWrites core (dieOf core) l.pa l.n = [] :=
  ⟨tC (fun k => { k with loads := [⟨5, 0x20201000, 8, ⟨.rlx, .sys, .normal⟩, []⟩] }), 0, 0, _, rfl, by decide +kernel⟩

/-- The place of a write of a state's strand, and the state after it. -/
def wpOf (s : State) (ea : W64) : Tr × State := got (⟨0, false, none⟩, s) (writePlace s ea)
theorem wp_eq (s : State) (ea : W64) (h : isOk (writePlace s ea) = true) : writePlace s ea = .ok (wpOf s ea) := got_eq _ _ h

theorem wit_Stores : ∃ (s : State) (a : BitVec 6) (off : BitVec 12) (z : Size) (s1 : State) (tr : Tr),
    let ea := s.rS a + BitVec.ofInt 64 (off.toInt * sizeBytes z)
    EaOk ea z ∧ relPart s s.attr = .ok () ∧ s.cur.st = .ctl ∧ Steady s ∧ PageAddress s ea ∧ writePlace s ea = .ok (tr, s1) := by
  refine ⟨tU, 0, 1, .d, (wpOf tU 8).2, (wpOf tU 8).1, ⟨?_, ?_⟩, ?_,
    ?_, ?_, Or.inr ?_, wp_eq tU 8 ?_⟩ <;> decide +kernel

/-- A state with window 1 of context 0 open toward device 5. -/
def tWin : State :=
  (tS [(1, 0xE200000000000)]).modCtx 0 (fun x => { x with wins := [(1, [0x0000000000000507, BitVec.ofNat 64 (2 ^ 40), 0, 0])] })
theorem wit_Stores_window : ∃ (s : State) (r a : BitVec 6) (off : BitVec 12) (z : Size) (s1 : State) (w o : Nat),
    let ea := s.rS a + BitVec.ofInt 64 (off.toInt * sizeBytes z)
    EaOk ea z ∧ relPart s s.attr = .ok () ∧ s.cur.st = .ctl ∧ Steady s ∧ s.mode ≠ .m ∧ regionOf ea.toNat = .window w o ∧
    winPost s ea w o (leBytes (sizeBytes z) (s.rS r).toNat) = .ok s1 := by
  refine ⟨tWin, 2, 1, 0, .d, got tWin (winPost tWin 0xE200000000000 1 0 (leBytes 8 0)), 1, 0, ⟨?_, ?_⟩,
    ?_, ?_, ?_, ?_, ?_,
    got_eq tWin _ ?_⟩ <;> decide +kernel
theorem wit_Stores_perform : ∃ (s : State) (core : Nat) (st : Strand) (i : Nat) (o : StoreOp),
    nextStore (s.core core) st = some (i, o) ∧ (st = .ctl → (s.core core).loads = []) ∧
    s.seenWrites core 0 o.pa o.bytes.length = [] ∧ s.seenWrites core 1 o.pa o.bytes.length = [] ∧ o.seen0 = false ∧
    o.seen1 = false :=
  ⟨tC (fun k => { k with stores := [⟨.exe, 0x20201000, [1], false, false, false⟩, ⟨.ctl, 0x20201008, [7, 8], false, false, false⟩] }),
    0, .ctl, 1, _, rfl, by decide +kernel⟩

/-- The word at 0x1000 FULL. -/
def tFull : State := { tS [(1, 0x1000), (2, 9)] with full := [0x20201000 / 8] }

/-- What `RmwHere` asks of a state, as one decidable statement. -/
abbrev RmwAsk (s : State) (ea : W64) (n : Nat) : Prop :=
  isOk (writePlace s ea) = true ∧ fld ea 52 12 = 0 ∧ ea.toNat % n = 0 ∧ PageAddress s ea ∧ mayRead s ea = .ok () ∧
    relPart (wpOf s ea).2 s.attr = .ok () ∧ rmwReady (wpOf s ea).2 (wpOf s ea).1.pa n true = .ok () ∧
    (wpOf s ea).2.bad (wpOf s ea).1.pa n = false
theorem rmwHere_ex (s : State) (ea : W64) (n : Nat) (h : RmwAsk s ea n) : RmwHere s ea n (wpOf s ea).1.pa (wpOf s ea).2 :=
  ⟨h.2.1, h.2.2.1, h.2.2.2.1, ⟨_, rfl, wp_eq s ea h.1⟩, h.2.2.2.2.1, h.2.2.2.2.2.1, h.2.2.2.2.2.2.1, h.2.2.2.2.2.2.2⟩
theorem wit_Atomics : ∃ (s : State) (dword : Bool) (a : BitVec 6) (pa : Nat) (s1 : State),
    RmwHere s (s.rS a) (if dword then 8 else 4) pa s1 ∧ s.cur.st = .ctl ∧ Steady s :=
  ⟨tFull, true, 1, _, _, rmwHere_ex tFull 0x1000 8 (by decide +kernel), by decide +kernel⟩

/-- What a full/empty operation asks of the state in which it meets its word. -/
abbrev FeAsk (f : FeOp) (s : State) (ea : W64) (pa : Nat) (s1 : State) : Prop :=
  s.parks = [] ∧ fld ea 52 12 = 0 ∧ ea.toNat % 8 = 0 ∧ s.mode ≠ .m ∧ regionOf ea.toNat = .page ∧
    isOk (ent s s.cur.core s.me.ctxOf ea.toNat) = true ∧
    (got ⟨0, 0, 0, 0, 0, false⟩ (ent s s.cur.core s.me.ctxOf ea.toNat)).leaf.getLsbD 6 = true ∧ mayRead s ea = .ok () ∧
    relPart s1 (feAttr f s.attr) = .ok () ∧ rmwReady s1 pa 8 f.writes = .ok () ∧ s1.bad pa 8 = false
theorem feHere_ex (f : FeOp) (s : State) (ea : W64) (pa : Nat) (s1 : State)
    (p : ∃ tr, tr.pa = pa ∧ (if f.writes then writePlace s ea = .ok (tr, s1)
      else xlate s s.cur.core s.me.ctxOf s.mode ea.toNat false false = .ok tr ∧ s1 = s))
    (h : FeAsk f s ea pa s1) : FeHere f s ea pa s1 := by
  obtain ⟨h0, h1, h2, h3, h4, h5, h6, h7, h8, h9, h10⟩ := h
  exact ⟨fun q hq => by rw [h0] at hq; exact absurd hq (List.not_mem_nil), h1, h2, h3, h4, ⟨_, got_eq _ _ h5, h6⟩, fun _ => h7, p, h8, h9, fun _ _ => h10⟩
theorem feWrite_ex (f : FeOp) (s : State) (ea : W64) (hf : f.writes = true) (h : isOk (writePlace s ea) = true)
    (g : FeAsk f s ea (wpOf s ea).1.pa (wpOf s ea).2) : FeHere f s ea (wpOf s ea).1.pa (wpOf s ea).2 :=
  feHere_ex f s ea _ _ ⟨_, rfl, by rw [if_pos hf]; exact wp_eq s ea h⟩ g
theorem feRead_ex (f : FeOp) (s : State) (ea : W64) (hf : f.writes = false)
    (h : isOk (xlate s s.cur.core s.me.ctxOf s.mode ea.toNat false false) = true) (g : FeAsk f s ea (trOf s ea).pa s) :
    FeHere f s ea (trOf s ea).pa s :=
  feHere_ex f s ea _ _ ⟨trOf s ea, rfl, by rw [hf]; exact ⟨got_eq _ _ h, rfl⟩⟩ g

/-- The word at 0x1000 EMPTY. -/
def tEmpty : State := tS [(1, 0x1000), (2, 9)]

theorem wit_FullEmpty_full : ∃ (s : State) (a : BitVec 6) (pa : Nat) (s1 s2 s3 s4 : State),
    (s.cur.st = .ctl ∧ Steady s ∧ NoPark s pa ∧ pa % 8 = 0 ∧ s.isFull pa = true) ∧ FeHere .ldfe s (s.rS a) pa s1 ∧
    FeHere .ldf s (s.rS a) pa s2 ∧ FeHere .stf s (s.rS a) pa s3 ∧ FeHere .probe s (s.rS a) pa s4 :=
  ⟨tFull, 1, 0x20201000, _, _, _, _, by decide +kernel, feWrite_ex .ldfe tFull 0x1000 rfl (by decide +kernel) (by decide +kernel),
    feRead_ex .ldf tFull 0x1000 rfl (by decide +kernel) (by decide +kernel),
    feWrite_ex .stf tFull 0x1000 rfl (by decide +kernel) (by decide +kernel),
    feRead_ex .probe tFull 0x1000 rfl (by decide +kernel) (by decide +kernel)⟩
theorem wit_FullEmpty_empty : ∃ (s : State) (a : BitVec 6) (pa : Nat) (s1 : State),
    (s.cur.st = .ctl ∧ Steady s ∧ NoPark s pa ∧ pa % 8 = 0 ∧ s.isFull pa = false) ∧ FeHere .stfe s (s.rS a) pa s1 :=
  ⟨tEmpty, 1, 0x20201000, _, by decide +kernel, feWrite_ex .stfe tEmpty 0x1000 rfl (by decide +kernel) (by decide +kernel)⟩
theorem wit_FullEmpty_parks : ∃ (s s' : State) (a : BitVec 6) (pa : Nat) (s1 s2 : State),
    (s1.isFull pa = false ∧ s2.isFull pa = true) ∧ FeHere .ldfe s (s.rS a) pa s1 ∧ FeHere .stfe s' (s'.rS a) pa s2 :=
  ⟨tEmpty, tFull, 1, 0x20201000, (wpOf tEmpty 0x1000).2, (wpOf tFull 0x1000).2, by decide +kernel,
    feWrite_ex .ldfe tEmpty 0x1000 rfl (by decide +kernel) (by decide +kernel),
    feWrite_ex .stfe tFull 0x1000 rfl (by decide +kernel) (by decide +kernel)⟩
theorem wit_FullEmpty_parks_read : ∃ (s : State) (a : BitVec 6) (pa : Nat) (s1 : State),
    FeHere .ldf s (s.rS a) pa s1 ∧ s1.isFull pa = false :=
  ⟨tEmpty, 1, 0x20201000, _, feRead_ex .ldf tEmpty 0x1000 rfl (by decide +kernel) (by decide +kernel), by decide +kernel⟩
theorem wit_FullEmpty_wakes : ∃ (s : State) (pa : Nat) (p : Park), pa % 8 = 0 ∧ s.parks = [p] ∧ p.pa = pa ∧ p.kind = .ldf ∧
    p.remote = none ∧ (s.core p.core).stepArm = false := by
  refine ⟨{ tU with parks := [⟨0, .ldf, 0x20201000, 0, 3, ⟨.acq, .dev, .normal⟩, none⟩] }, 0x20201000, _, ?_, rfl, rfl, rfl, rfl,
    ?_⟩ <;> decide +kernel

theorem wit_FencesAndTimelines : ∃ (s : State) (sc : Scope), deltasDone s s.cur.core .ctl = true ∧ MayRelease s sc ∧
    MayRelease s .dev ∧ s.cur.st = .ctl ∧ Steady s :=
  ⟨tU, .sys, by decide +kernel⟩
theorem wit_FencesAndTimelines_wait : ∃ (s : State) (x : TlCtx) (a b : BitVec 6), (s.me.tlOf x).mark = none ∧
    (s.rS a).toNat ≤ (s.me.tlOf x).done ∧ (s.me.tlOf x).done < (s.rS b).toNat ∧ s.cur.st = .ctl ∧ Steady s :=
  ⟨tS [(1, 1)], .ea, 0, 1, by decide +kernel⟩
theorem wit_FencesAndTimelines_latch : ∃ s s' : State, s.me.latch = true ∧ Steady s ∧ s'.me.latch = false :=
  ⟨tC (fun k => { k with latch := true }), tU, by decide +kernel⟩
theorem wit_FencesAndTimelines_mark : ∃ (s : State) (x : TlCtx) (m : Mark), (s.me.tlOf x).mark = some m :=
  ⟨tC (fun k => k.setTl .fa { k.tlOf .fa with mark := some ⟨1, 0x20, 0, 0⟩ }), .fa, _, rfl⟩

/-- Tokens in queues of core 0. -/
def tTok (x y : Strand) (l : List Token) : State := tC (fun k => k.setQueue x y l)
theorem wit_CtlTokens : ∃ (s : State) (e : BitVec 2), e.toNat < 3 ∧ s.cur.st = .ctl ∧ Steady s ∧
    qIdx .ctl (peer e) ∉ s.me.tokPoison ∧ (s.me.queue .ctl (peer e)).length < 16 ∧ MayRelease s .core ∧
    qIdx (peer e) .ctl ∉ s.me.tokPoison ∧ s.me.queue (peer e) .ctl = [] :=
  ⟨tTok .ctl .emi (List.replicate 15 ⟨false, 0⟩), 2, by decide +kernel⟩
theorem wit_CtlTokens_full : ∃ (s : State) (e : BitVec 2), e.toNat < 3 ∧ s.cur.st = .ctl ∧ Steady s ∧
    qIdx .ctl (peer e) ∉ s.me.tokPoison ∧ (s.me.queue .ctl (peer e)).length = 16 :=
  ⟨tTok .ctl .fet (List.replicate 16 ⟨false, 0⟩), 0, by decide +kernel⟩
theorem wit_CtlTokens_pop : ∃ (s : State) (e : BitVec 2) (k : Token) (l : List Token), e.toNat < 3 ∧ s.cur.st = .ctl ∧ Steady s ∧
    qIdx (peer e) .ctl ∉ s.me.tokPoison ∧ s.me.queue (peer e) .ctl = k :: l :=
  ⟨tTok .exe .ctl [⟨true, 5⟩], 1, ⟨true, 5⟩, [], by decide +kernel⟩

theorem wit_TrapEntries : ∃ (s : State) (c : Nat) (st : Strand) (cause : Nat), EntersNow s c st ∧ cause < 0xB1 := by
  refine ⟨tU, 0, .ctl, 0xB0, ⟨?_, ?_, ?_⟩, ?_⟩ <;> decide +kernel
theorem wit_TrapEntries_monitor : ∃ (s : State) (c : Nat) (st : Strand) (cause : Nat), (s.core c).mode = .s ∧
    (s.core c).raised = none ∧ quiet (s.core c) st = true ∧ cause < 256 ∧
    memOk ((s.core c).monvec &&& 0x000FFFFFFFFFFFFC).toNat = true :=
  ⟨tMode .s (tC (fun k => { k with monvec := 0x10000080 })), 0, .ctl, 0xB2, by decide +kernel⟩
theorem wit_TrapEntries_checkstop : ∃ (s : State) (c : Nat) (st : Strand) (t : Trap), (s.core c).mode = .m ∧
    (s.core c).raised = none ∧ quiet (s.core c) st = true ∧ t.cause ≠ 0x0B :=
  ⟨tMode .m tU, 0, .ctl, ⟨0x20, 0, 0, none, none⟩, by decide +kernel⟩
theorem wit_TrapInstructions : ∃ s : State, s.cur.st = .ctl ∧ EntersNow s s.cur.core .ctl := by
  refine ⟨tU, rfl, ⟨?_, ?_, ?_⟩⟩ <;> decide +kernel
theorem wit_TrapInstructions_loads : ∃ s : State, s.cur.st = .ctl ∧ s.me.loads ≠ [] :=
  ⟨tC (fun k => { k with loads := [⟨3, 0x20201000, 8, ⟨.rlx, .dev, .normal⟩, []⟩] }), by decide +kernel⟩
theorem wit_TrapInstructions_wide : ∃ s : State, s.cur.st = .exe ∧ EntersNow s s.cur.core s.cur.st := by
  refine ⟨tAt .exe tU, rfl, ⟨?_, ?_, ?_⟩⟩ <;> decide +kernel
theorem wit_TrapInstructions_halt : ∃ s : State, s.me.mode = .m ∧ Steady s := ⟨tMode .m tU, by decide +kernel⟩

/-- A handler in S mode of a trap of EXE, at a dword. -/
def tHandler : State :=
  tMode .s (tC (fun k => { k with savedst := 0x8000, trapcause := 0x800, trappc := 0x1008, launchid := 0x5000001 }))
theorem wit_Returns : ∃ s : State, s.me.mode = .s ∧ s.cur.st = .ctl ∧ s.me.savedst.getLsbD 15 = true ∧
    s.me.savedst.getLsbD 14 = false ∧ s.me.savedst.getLsbD 13 = false ∧
    s.me.trappc.toNat % (Strand.ofCode (fld s.me.trapcause 10 2).toNat).size = 0 ∧ s.me.transit = [] ∧
    s.me.lease.again = false ∧ s.me.refused = [] ∧ ownLaunch s s.cur.core = false := ⟨tHandler, by decide +kernel⟩
theorem wit_Returns_ctl : ∃ s : State, s.me.mode = .s ∧ s.me.savedst.getLsbD 15 = true ∧
    Strand.ofCode (fld s.me.trapcause 10 2).toNat = .ctl ∧ s.me.trappc.toNat % 4 = 0 :=
  ⟨tMode .s (tC (fun k => { k with savedst := 0x8000, trapcause := 0x3, trappc := 0x1004 })), by decide +kernel⟩
theorem wit_Returns_refused : ∃ s t u : State, (s.me.mode = .s ∧ s.me.savedst.getLsbD 15 = false) ∧
    (t.me.mode = .s ∧ t.me.savedst.getLsbD 14 = true) ∧
    (u.me.mode = .s ∧ u.me.trappc.toNat % (Strand.ofCode (fld u.me.trapcause 10 2).toNat).size ≠ 0) :=
  ⟨tMode .s tU, tMode .s (tC (fun k => { k with savedst := 0xC000 })),
    tMode .s (tC (fun k => { k with savedst := 0x8000, trapcause := 0x800, trappc := 0x1004 })), by decide +kernel⟩

theorem wit_SystemInstructions : ∃ s : State, s.mode ≠ .u ∧ MayRelease s .dev ∧ accessesDone s s.me.ctxOf = true ∧
    mwf .init s.cores = true ∧ mwf .init s.clusters = true ∧ Steady s := ⟨tMode .s tU, by decide +kernel⟩
theorem wit_SystemInstructions_key : ∃ (s : State) (a b : BitVec 6), s.mode ≠ .u ∧ (s.rS a).toNat < 16 ∧
    (s.rS b).toNat < 2 ^ 32 ∧ beyond (s.root s.me.ctxOf) = false ∧ beyond (s.root s.me.ctxOf + 65535) = false ∧ Steady s :=
  ⟨tMode .s (tS [(1, 15), (2, 0xFFFFFFFF)]), 1, 2, by decide +kernel⟩
theorem wit_SystemInstructions_yield : ∃ s : State, s.launches = [] ∧ Steady s := ⟨tU, by decide +kernel⟩

/-- A cell with a domain record of level 1: domain 3, five members. -/
def tDom (f : Core → Core) : State := tC (fun k => f { k with dmemb := vset k.dmemb 0 0x8004000300000000 })
theorem wit_DomainBarriers : ∃ (s : State) (l : BitVec 3), l.toNat = 0 + 1 ∧ (vget 0 s.me.dmemb 0).getLsbD 63 = true ∧
    s.me.arrived.getLsbD 0 = true ∧ s.me.notified.getLsbD 0 = true ∧ s.cur.st = .ctl ∧ Steady s :=
  ⟨tDom (fun k => { k with arrived := 1, notified := 1 }), 1, by decide +kernel⟩
theorem wit_DomainBarriers_first : ∃ (s : State) (l : BitVec 3) (dm : W64), l.toNat = 0 + 1 ∧ vget 0 s.me.dmemb 0 = dm ∧
    dm.getLsbD 63 = true ∧ s.me.arrived.getLsbD 0 = false ∧ MayRelease s (levelScope l.toNat) ∧
    phaseOf s l.toNat (fld dm 32 16).toNat (vget 0 s.me.phase 0) = none ∧ 0 < (fld dm 48 15).toNat := by
  refine ⟨tDom id, 1, _, ?_, rfl, ?_⟩ <;> decide +kernel
theorem wit_DomainBarriers_last : ∃ (s : State) (l : BitVec 3) (dm : W64) (p : Phase), l.toNat = 0 + 1 ∧
    vget 0 s.me.dmemb 0 = dm ∧ dm.getLsbD 63 = true ∧ s.me.arrived.getLsbD 0 = false ∧ MayRelease s (levelScope l.toNat) ∧
    phaseOf s l.toNat (fld dm 32 16).toNat (vget 0 s.me.phase 0) = some p ∧ p.cnt = (fld dm 48 15).toNat ∧ p.arrived = p.cnt := by
  refine ⟨{ tDom id with phases := [⟨1, 3, 0, 4, 4, [1, 2, 3, 4], []⟩] }, 1, _, ⟨1, 3, 0, 4, 4, [1, 2, 3, 4], []⟩, ?_, rfl,
    ?_⟩ <;> decide +kernel
theorem wit_DomainBarriers_none : ∃ (s : State) (l : BitVec 3), l.toNat = 3 + 1 ∧ (vget 0 s.me.dmemb 3).getLsbD 63 = false :=
  ⟨tU, 4, by decide +kernel⟩
theorem wit_DomainBarriers_notice : ∃ (s : State) (c k : Nat), k < 4 ∧ Msg.notice c (k + 1) ∈ s.msgs :=
  ⟨{ tU with msgs := [.notice 7 4] }, 7, 3, by decide +kernel⟩

/-- A record at 0x1000 that LAUNCH accepts: version 1, one dimension of extent 1, member core 0 (R64). -/
def tRec : State :=
  ((((tS [(1, 0x1000), (2, 0x1080)]).wr64 0x20201000 0x100001).wr64 0x20201038 1).wr64 0x20201048 1).modCtx 0
    (fun x => { x with en := true })
def spanOf (s : State) : List Byte × State × Nat := got ([], s, 0) (readSpan s 0x1000 256 0)
def recOf (bs : List Byte) : List W64 := (List.range 32).map (fun i => BitVec.ofNat 64 (leNat ((bs.drop (8 * i)).take 8)))
theorem wit_Launches_misaligned : ∃ (s : State) (a : BitVec 6), MayRelease s .dev ∧ (s.rS a).toNat % 256 ≠ 0 ∧ Steady s :=
  ⟨tRec, 2, by decide +kernel⟩
theorem wit_Launches_bad : ∃ (s : State) (a : BitVec 6) (bs : List Byte) (s1 : State) (n : Nat) (code : Int),
    MayRelease s .dev ∧ (s.rS a).toNat % 256 = 0 ∧ fld (s.rS a) 52 12 = 0 ∧ readSpan s (s.rS a) 256 0 = .ok (bs, s1, n) ∧
    recordBad (recOf bs) = some code ∧ Steady s := by
  refine ⟨tEmpty, 1, _, _, _, -1, ?_, ?_, ?_,
    got_eq ([], tEmpty, 0) (readSpan tEmpty 0x1000 256 0) ?_, ?_⟩ <;> decide +kernel
theorem wit_Launches : ∃ (s : State) (a : BitVec 6) (bs : List Byte) (s1 : State) (n : Nat) (rc : Rec),
    MayRelease s .dev ∧ (s.rS a).toNat % 256 = 0 ∧ fld (s.rS a) 52 12 = 0 ∧ readSpan s (s.rS a) 256 0 = .ok (bs, s1, n) ∧
    recordBad (recOf bs) = none ∧ rf (recOf bs) 24 56 8 = 0 ∧ rf (recOf bs) 25 56 8 = 0 ∧
    tablesBad s1 (recOf bs) (entriesOf [] 0) (entriesOf [] 0) (if s.mode = .m then none else some s.me.ctxOf) = .ok rc ∧
    (launchOf s1 rc s1.nextLaunch).ready = [] ∧ rc.streams = [] ∧ (∀ l ∈ s.launches, l.id ≠ s.nextLaunch) ∧ Steady s := by
  refine ⟨tRec, 1, _, _, _, ⟨recOf (spanOf tRec).1, [], [], []⟩, ?_, ?_, ?_,
    got_eq ([], tRec, 0) (readSpan tRec 0x1000 256 0) ?_, ?_⟩ <;> decide +kernel

/-- The cell and a launch accepted. -/
def tLaunched : State := after (.launch 3 1) tRec
theorem wit_LaunchReferencesAndEnds : ∃ (s : State) (a : BitVec 6), fld (s.rS a) 33 31 = 0 ∧
    ((s.rS a).getLsbD 32 = false ∨ (fld (s.rS a) 24 8).toNat = s.dev % 256) ∧ Steady s ∧
    findLaunch s (fld (s.rS a) 0 24).toNat s.me.ctxOf (decide (s.mode = .m)) = none ∧ s.mode ≠ .u :=
  ⟨tMode .s tLaunched, 0, by decide +kernel⟩
theorem wit_LaunchReferencesAndEnds_found : ∃ (s : State) (a : BitVec 6) (l : Launch), fld (s.rS a) 33 31 = 0 ∧
    (s.rS a).getLsbD 32 = false ∧ Steady s ∧
    findLaunch s (fld (s.rS a) 0 24).toNat s.me.ctxOf (decide (s.mode = .m)) = some l ∧
    s.launches.find? (fun x => x.id = (fld (s.rS a) 0 24).toNat) = some l ∧ cellsOf s (fld (s.rS a) 0 24).toNat = [] ∧
    l.ends = [] ∧ l.away = [] ∧ l.st ≠ .cancelling ∧ s.mode ≠ .u ∧ l.awaited = [] :=
  ⟨tMode .s tLaunched, 3, tLaunched.launches.headD (launchOf tU ⟨[], [], [], []⟩ 0), by decide +kernel⟩
theorem wit_LaunchReferencesAndEnds_wrong : ∃ (s : State) (a : BitVec 6), fld (s.rS a) 33 31 ≠ 0 ∧ Steady s :=
  ⟨tS [(1, 0x200000000)], 1, by decide +kernel⟩
theorem wit_LaunchReferencesAndEnds_done : ∃ s : State, (s.me.mode = .u ∧ s.me.fet.ended = true ∧ s.me.exe.ended = true ∧
    s.me.emi.ended = true ∧ s.me.vPend = [] ∧ MayRelease s .dev ∧ (∀ r, s.me.rH r = 0) ∧ ownLaunch s s.cur.core = true ∧
    s.me.gang = false) ∧ ∀ x, (s.me.tlOf x).mark = none :=
  ⟨tC (fun k => { k with fet := { k.fet with ended := true }, exe := { k.exe with ended := true },
                         emi := { k.emi with ended := true } }), by decide +kernel, fun x => by cases x <;> decide +kernel⟩

/-- S2 and S3 hold a shape, the largest a tile has. -/
def tShape : State := tS [(2, 512), (3, 512), (4, 0x302000200)]
/-- A tile of i32 in H1, 4 by 8. -/
def tTile : State := after (.talloc 1 2 3 .i32) (tS [(2, 4), (3, 8), (5, 31), (6, 30)])
/-- The same with a second reference in H4. -/
def tDup : State := after (.dup 4 1) tTile
/-- Core 1 holds the reference to the tile of core 0. -/
def tFar : State :=
  { tTile.modCore 1 (fun k => (k.wH 1 (tTile.rH 1)).modStrand .ctl (fun x => { x with pc := 0x1000 })) with cur := ⟨1, .ctl, 0⟩ }
def tH (s : State) (r : BitVec 6) (h : W64) : State := s.modCore s.cur.core (fun k => k.wH r h)
theorem tileHere (s : State) (h : W64) (g : isTile h = true ∧ hBad h = false ∧ homeHere s h = true ∧
    recordCheck s s.me.ctxOf h = none) : TileHere s h := ⟨g.1, g.2.1, g.2.2.1, g.2.2.2⟩
theorem tTile_here : TileHere tTile (tTile.rH 1) := tileHere _ _ (by decide +kernel)
theorem tFar_here : TileHere tFar (tFar.rH 1) := tileHere _ _ (by decide +kernel)

theorem wit_TilesAllocate : ∃ (s : State) (d a b : BitVec 6) (t0 : Elem) (f g : Nat), isNull (s.rH d) = true ∧
    shapeOk t0 (s.rS a).toNat (s.rS b).toNat = true ∧ firstFrom (fun f => !(s.folio s.cur.core f).used) 0 16384 = some f ∧
    freeRun s.me (galleys t0 (s.rS a).toNat (s.rS b).toNat) = some g ∧ Steady s :=
  ⟨tShape, 63, 2, 3, .f32, 0, 0, by decide +kernel⟩
theorem wit_TilesAllocate_open : ∃ (s : State) (d a : BitVec 6) (f g : Nat), isNull (s.rH d) = true ∧
    (fld (s.rS a) 32 4).toNat ≤ 11 ∧ fld (s.rS a) 36 28 = 0 ∧
    shapeOk (elemOf (fld (s.rS a) 32 4).toNat) (fld (s.rS a) 0 16).toNat (fld (s.rS a) 16 16).toNat = true ∧
    firstFrom (fun f => !(s.folio s.cur.core f).used) 0 16384 = some f ∧
    freeRun s.me (galleys (elemOf (fld (s.rS a) 32 4).toNat) (fld (s.rS a) 0 16).toNat (fld (s.rS a) 16 16).toNat) = some g ∧
    Steady s := ⟨tShape, 1, 4, 0, 0, by decide +kernel⟩
theorem wit_TilesAllocate_live : ∃ (s : State) (d : BitVec 6), isNull (s.rH d) = false := ⟨tTile, 1, by decide +kernel⟩
theorem wit_TilesAllocate_shape : ∃ (s : State) (d a b : BitVec 6), isNull (s.rH d) = true ∧
    shapeOk .i32 (s.rS a).toNat (s.rS b).toNat = false := ⟨tS [(2, 513), (3, 1)], 1, 2, 3, by decide +kernel⟩
/-- Galleys 32, 96, … 480 in use. -/
def tSpread : State := tShape.modCore 0 (fun k => { k with gal := (List.range 8).map (fun i => (32 + 64 * i, ⟨true, 0, 0⟩)) })
theorem firstFrom_none {p : Nat → Bool} : ∀ n s, (∀ g, g < s + n → p g = false) → firstFrom p s n = none
  | 0, _, _ => rfl
  | n + 1, s, h => by
    rw [firstFrom, h s (by omega), if_neg (by decide)]
    exact firstFrom_none n (s + 1) (fun g l => h g (by omega))
theorem tSpread_full : freeRun tSpread.me 64 = none := by
  have busy : ∀ j : Fin 8, galFree tSpread.me (32 + 64 * j.val) = false := by decide +kernel
  refine firstFrom_none _ _ (fun g l => ?_)
  rw [List.all_eq_false]
  refine ⟨(96 - g % 64) % 64, List.mem_range.mpr (by omega), ?_⟩
  have h := busy ⟨(g + (96 - g % 64) % 64) / 64, by omega⟩
  rw [show g + ((96 - g % 64) % 64) = 32 + 64 * ((g + (96 - g % 64) % 64) / 64) by omega, h]
  decide
theorem wit_TilesAllocate_full : ∃ (s : State) (d a b : BitVec 6), isNull (s.rH d) = true ∧
    shapeOk .i32 (s.rS a).toNat (s.rS b).toNat = true ∧ freeRun s.me (galleys .i32 (s.rS a).toNat (s.rS b).toNat) = none := by
  refine ⟨tSpread, 1, 2, 3, by decide +kernel, by decide +kernel, ?_⟩
  rw [show galleys .i32 (tSpread.rS 2).toNat (tSpread.rS 3).toNat = 64 by decide +kernel]
  exact tSpread_full

theorem wit_References_dup : ∃ (s : State) (d a : BitVec 6), TileHere s (s.rH a) ∧ hCore (s.rH a) = s.cur.core ∧
    hWeight (s.rH a) = 0 ∧ isNull (s.rH d) = true ∧ (s.folio s.cur.core (hFolio (s.rH a))).count < 2 ^ 24 - 1 ∧ Steady s :=
  ⟨tTile, 2, 1, tTile_here, by decide +kernel⟩
theorem wit_References_split : ∃ (s : State) (d a : BitVec 6), isTile (s.rH a) = true ∧ hBad (s.rH a) = false ∧
    2 ≤ hWeight (s.rH a) ∧ (hCore (s.rH a) ≠ s.cur.core ∨ homeHere s (s.rH a) = false) ∧ isNull (s.rH d) = true ∧ Steady s :=
  ⟨tH tU 1 (mkHandle 1 5 0 3 0 2 7), 2, 1, by decide +kernel⟩
theorem wit_References_away : ∃ (s : State) (d a : BitVec 6), TileHere s (s.rH a) ∧ hCore (s.rH a) ≠ s.cur.core ∧
    hWeight (s.rH a) = 0 ∧ isNull (s.rH d) = true ∧ Steady s := ⟨tFar, 2, 1, tFar_here, by decide +kernel⟩
theorem wit_References_last : ∃ (s : State) (a : BitVec 6), TileHere s (s.rH a) ∧ hCore (s.rH a) = s.cur.core ∧
    hWeight (s.rH a) = 0 ∧ Steady s ∧ (s.folio s.cur.core (hFolio (s.rH a))).count ≤ 1 := ⟨tTile, 1, tTile_here, by decide +kernel⟩
theorem wit_References_not_last : ∃ (s : State) (a : BitVec 6), TileHere s (s.rH a) ∧ hCore (s.rH a) = s.cur.core ∧
    hWeight (s.rH a) = 0 ∧ Steady s ∧ 1 < (s.folio s.cur.core (hFolio (s.rH a))).count := by
  refine ⟨tDup, 1, tileHere _ _ ?_, ?_⟩ <;> decide +kernel
theorem wit_References_null : ∃ (s : State) (a : BitVec 6), isNull (s.rH a) = true ∧ Steady s := ⟨tU, 0, by decide +kernel⟩
theorem wit_References_move : ∃ (s : State) (d a : BitVec 6), (d = a ∨ isNull (s.rH d) = true) ∧ Steady s :=
  ⟨tTile, 2, 1, by decide +kernel⟩
theorem wit_References_put : ∃ s : State, Steady s ∧ s.mode ≠ .u := ⟨tMode .s tTile, by decide +kernel⟩

theorem wit_References_put_user : ∃ s : State, s.mode = .u := ⟨tU, by decide +kernel⟩

theorem wit_TileReads : ∃ (s : State) (a b : BitVec 6), TileHere s (s.rH a) ∧ Steady s ∧ hRights (s.rH a) % 2 = 1 ∧
    (s.rS b).toNat < (s.folio (hCore (s.rH a)) (hFolio (s.rH a))).rows * (s.folio (hCore (s.rH a)) (hFolio (s.rH a))).cols ∧
    (s.folio (hCore (s.rH a)) (hFolio (s.rH a))).state ≠ .filling ∧
    elemBad s (hCore (s.rH a)) (s.folio (hCore (s.rH a)) (hFolio (s.rH a))) (s.rS b).toNat = false :=
  ⟨tTile, 1, 5, tTile_here, by decide +kernel⟩
theorem wit_TileUpdates : ∃ (s : State) (d a b c : BitVec 6), TileHere s (s.rH a) ∧ soleRef s (s.rH a) = true ∧
    hRights (s.rH a) % 2 = 1 ∧ (s.folio s.cur.core (hFolio (s.rH a))).state = .full ∧ (d = a ∨ isNull (s.rH d) = true) ∧
    Steady s ∧
    (upSize .w (s.folio s.cur.core (hFolio (s.rH a))).fmt = true ∧ (s.rS b).toNat < 32) ∧
    (upSize .d (s.folio s.cur.core (hFolio (s.rH a))).fmt = true ∧ (s.rS c).toNat % 2 = 0 ∧ (s.rS c).toNat + 1 < 32) ∧
    (s.folio s.cur.core (hFolio (s.rH a))).rows * (s.folio s.cur.core (hFolio (s.rH a))).cols = 32 :=
  ⟨tTile, 1, 1, 5, 6, tTile_here, by decide +kernel⟩
theorem wit_TileUpdates_shared : ∃ (s : State) (d a : BitVec 6) (f g : Nat), let h := s.rH a
    let x := s.folio s.cur.core (hFolio h)
    TileHere s h ∧ hCore h = s.cur.core ∧ hWeight h = 0 ∧ 1 < x.count ∧ hRights h % 2 = 1 ∧ x.state ≠ .filling ∧
    (d = a ∨ isNull (s.rH d) = true) ∧ x.first + galleys x.fmt x.rows x.cols ≤ 512 ∧ x.ngal = galleys x.fmt x.rows x.cols ∧
    firstFrom (fun f => !(s.folio s.cur.core f).used) 0 16384 = some f ∧ freeRun s.me x.ngal = some g ∧
    (∀ i, i < x.ngal → (s.gal s.cur.core (x.first + i)).busy = true) ∧ Steady s := by
  refine ⟨tDup, 1, 1, 1, 1, tileHere _ _ ?_, ?_⟩ <;> decide +kernel

/-- A FILLING tile of a window in H1. -/
def tOpenTile : State := after (.gopen 1 4) (tS [(4, 0x300040004)])
theorem tOpenTile_here : TileHere tOpenTile (tOpenTile.rH 1) := tileHere _ _ (by decide +kernel)
def tOpenFar : State :=
  { tOpenTile.modCore 1 (fun k => k.wH 1 (tOpenTile.rH 1)) with cur := ⟨1, .ctl, 0⟩ }
theorem wit_SealsAndTokens : ∃ (s : State) (a : BitVec 6), TileHere s (s.rH a) ∧ hCore (s.rH a) = s.cur.core ∧
    hRights (s.rH a) / 2 % 2 = 1 ∧ MayRelease s .sys ∧ (s.folio (hCore (s.rH a)) (hFolio (s.rH a))).win = true ∧
    (s.folio (hCore (s.rH a)) (hFolio (s.rH a))).state = .filling ∧ Steady s :=
  ⟨tOpenTile, 1, tOpenTile_here, by decide +kernel⟩
theorem wit_SealsAndTokens_wait : ∃ (s : State) (a : BitVec 6), TileHere s (s.rH a) ∧
    (s.folio (hCore (s.rH a)) (hFolio (s.rH a))).state ≠ .filling ∧ s.cur.st = .ctl ∧ Steady s :=
  ⟨tTile, 1, tTile_here, by decide +kernel⟩
theorem wit_SealsAndTokens_wide : ∃ (c : Clause) (s : State) (a : BitVec 6), TileHere s (s.rH a) ∧
    (s.folio (hCore (s.rH a)) (hFolio (s.rH a))).state ≠ .filling ∧ WideReady c s := by
  refine ⟨c0, tAt .fet tTile, 1, tileHere _ _ ?_, ?_,
    ready0 _ ?_⟩ <;> decide +kernel
theorem wit_SealsAndTokens_filling : ∃ (s : State) (a : BitVec 6), TileHere s (s.rH a) ∧
    (s.folio (hCore (s.rH a)) (hFolio (s.rH a))).state = .filling ∧ (∀ x, ∀ o ∈ s.me.opsOf x, o.makes (s.rH a) = false) := by
  refine ⟨tOpenFar, 1, tileHere _ _ ?_, ?_, fun x o ho => ?_⟩
  · decide +kernel
  · decide +kernel
  · rw [show tOpenFar.me.opsOf x = [] by cases x <;> decide +kernel] at ho; cases ho
/-- The target of the window has granted the token that CTL asked for. -/
def tAsked : State := tWin.modCore 0 (fun k => k.modStrand .ctl (fun x => { x with asked := 1, got := [⟨0, [0], 0⟩] }))
/-- What a token instruction on S1 finds of its window, and the state after it. -/
def winOf (s : State) : WinTo × Nat × Nat × State := got (⟨0, 0, 0⟩, 0, 0, s) (tokenWin s (s.rS 1))
theorem win_eq (s : State) (h : isOk (tokenWin s (s.rS 1)) = true) :
    tokenWin s (s.rS 1) = .ok ((winOf s).1, (winOf s).2.1, (winOf s).2.2.1, (winOf s).2.2.2) := got_eq _ _ h
/-- The device holds the token of the region that S1 names, with bytes not yet written back. -/
def tHeld (l : List (Nat × Byte)) : State := { tWin with heldTok := [⟨(winOf tWin).1.dev, (winOf tWin).1.wid, 0, 0, l⟩] }
theorem wit_SealsAndTokens_ask : ∃ (s s1 : State) (a : BitVec 6) (w : WinTo) (n off : Nat),
    tokenWin s (s.rS a) = .ok (w, n, off, s1) ∧ tokenAsk s1 (s.rS a) w off false = .ok 0 ∧ Steady s ∧ tokenOf s w off = none := by
  refine ⟨tAsked, _, 1, _, _, _, win_eq tAsked ?_, ?_⟩ <;> decide +kernel
theorem wit_SealsAndTokens_return : ∃ (s s1 : State) (a : BitVec 6) (w : WinTo) (n off : Nat),
    tokenWin s (s.rS a) = .ok (w, n, off, s1) ∧ s.cur.st = .ctl ∧ Steady s ∧ s.my.asked = 0 ∧ tokenOf s w off = none := by
  refine ⟨tWin, _, 1, _, _, _, win_eq tWin ?_, ?_⟩ <;> decide +kernel
theorem wit_SealsAndTokens_return_lines : ∃ (s s1 : State) (a : BitVec 6) (w : WinTo) (n off : Nat) (x : Borrowed),
    tokenWin s (s.rS a) = .ok (w, n, off, s1) ∧ s.cur.st = .ctl ∧ Steady s ∧ s.my.asked = 0 ∧ tokenOf s w off = some x ∧
    x.lines ≠ [] := by
  refine ⟨tHeld [(8, 1)], _, 1, _, _, _, ⟨(winOf tWin).1.dev, (winOf tWin).1.wid, 0, 0, [(8, 1)]⟩, win_eq (tHeld [(8, 1)]) ?_, ?_⟩ <;> decide +kernel
theorem wit_SealsAndTokens_return_held : ∃ (s s1 : State) (a : BitVec 6) (w : WinTo) (n off : Nat) (x : Borrowed),
    tokenWin s (s.rS a) = .ok (w, n, off, s1) ∧ s.cur.st = .ctl ∧ Steady s ∧ s.my.asked = 0 ∧ tokenOf s w off = some x ∧
    x.lines = [] ∧ MayRelease s1 .sys := by
  refine ⟨tHeld [], _, 1, _, _, _, ⟨(winOf tWin).1.dev, (winOf tWin).1.wid, 0, 0, []⟩, win_eq (tHeld []) ?_, ?_⟩ <;> decide +kernel
theorem wit_SealsAndTokens_returned : ∃ (s s1 : State) (a : BitVec 6) (w : WinTo) (n off : Nat),
    tokenWin s (s.rS a) = .ok (w, n, off, s1) ∧ s.my.asked ≠ 0 ∧ tokenAsk s1 (s.rS a) w off true = .ok 0 := by
  refine ⟨tAsked, _, 1, _, _, _, win_eq tAsked ?_, ?_⟩ <;> decide +kernel

theorem wit_StreamsOpen : ∃ (s : State) (d a b : BitVec 6) (an : Anchor) (base : Nat) (s1 : State), let x := s.rS a
    let k := x.toNat % 32
    isNull (s.rH d) = true ∧ isNull (s.rH b) = true ∧ 6 ≤ k ∧ k ≤ 20 ∧ fld x 5 7 = 0 ∧ fld x 52 12 = 0 ∧
    freeAnchor s s.cur.core = some an ∧ s.cur.core < 128 ∧ Steady s ∧
    (base = x.toNat / 4096 % 2 ^ 40 * 4096 ∧ base ≠ 0 ∧ base % (2 ^ k * 64) = 0 ∧ basePages s base (stockFrames k) = .ok s1) := by
  refine ⟨tS [(1, 0x4006)], 1, 1, 2, ⟨0, 0, 0⟩, 0x4000, got tU (basePages (tS [(1, 0x4006)]) 0x4000 2), ?_,
    ?_, ?_, ?_, ?_, ?_, ?_,
    ?_, ?_, ?_, ?_, ?_, got_eq tU _ ?_⟩ <;> decide +kernel
/-- The free-page stack of context 0 at physical 0x2030_0000 with three frames, and its counts at 0x2050_0000 (R290,
R292). -/
def tStack : State :=
  [(0x2000E100, 0x20300000), (0x2000E108, 0x1000000003), (0x2000E110, 0x20500000), (0x2000E118, 0x20400), (0x2000E120, 0x204FF),
   (0x20300000, 0x20401000), (0x20300008, 0x20402000), (0x20300010, 0x20403000)].foldl (fun (s : State) (p : Nat × W64) => s.wr64 p.1 p.2)
    (tS [(1, 6)])
/-- A tile handle. -/
def hTile : W64 := mkHandle 1 0 0 0 0 0 7
/-- A stream of 64 slots at virtual 0x4000 with both ends at core 0, in H1 and H2, and a tile in H4. -/
def tEnds : State :=
  ((((tC (fun k => { ((k.wH 1 (mkHandle 2 0 0 0 0 0 7)).wH 2 (mkHandle 3 0 0 0 0 0 7)).wH 4 hTile with
      wends := [⟨⟨0, 0, 0⟩, 0, 0, 96, 0, 0, false, 6, false, 0⟩]
      rends := [⟨⟨0, 0, 0⟩, 0, 0, some 0, [], 0, none, false, 0, 6, false, false⟩] })).setFolio 0 0
    { Folio.init with count := 1, state := .full, used := true, fmt := .i32, rows := 4, cols := 4, ngal := 1 }).setAnc ⟨0, 0, 0⟩
      4 0x4006).setAnc ⟨0, 0, 0⟩ 5 0x1000)
def wendOf (s : State) : WEnd := opt ⟨⟨0, 0, 0⟩, 0, 0, 0, 0, 0, false, 0, false, 0⟩ (s.me.wend (anchorOf (s.rH 1)))
def rendOf (s : State) : REnd :=
  opt ⟨⟨0, 0, 0⟩, 0, 0, none, [], 0, none, false, 0, 0, false, false⟩ (s.me.rend (anchorOf (s.rH 2)))
theorem wit_StreamPushes : ∃ (s : State) (a b : BitVec 6) (e : WEnd) (j k : Nat), s.me.wend (anchorOf (s.rH a)) = some e ∧
    endCheck s (s.rH a) 2 = .ok k ∧ (s.me.tlOf .sq).mark = none ∧ e.orphan = 0 ∧ s.cur.st = .ctl ∧ Steady s ∧ e.room 1 = true ∧
    MayRelease s .sys ∧ e.toDev = s.dev % 256 ∧ (∀ g ∈ s.my.got, g.n ≠ 255) ∧ isTile (s.rH b) = true ∧
    [s.rH b].foldlM (pushable s (s.rH a)) k = .ok j := by
  refine ⟨tEnds, 1, 4, wendOf tEnds, 0, 0, opt_eq _ _ ?_, ?_⟩ <;> decide +kernel
/-- The same with no credit left. -/
def tNoRoom : State := tEnds.modCore 0 (fun k => { k with wends := k.wends.map (fun e => { e with push := e.lim }) })
theorem wit_StreamPushes_full : ∃ (s : State) (a : BitVec 6) (e : WEnd) (k : Nat), s.me.wend (anchorOf (s.rH a)) = some e ∧
    endCheck s (s.rH a) 2 = .ok k ∧ (s.me.tlOf .sq).mark = none ∧ e.orphan = 0 ∧ s.cur.st = .ctl ∧ Steady s ∧ e.room 1 = false := by
  refine ⟨tNoRoom, 1, wendOf tNoRoom, 0, opt_eq _ _ ?_, ?_⟩ <;> decide +kernel
/-- The same with an item in the read end's queue. -/
def tItem (it : Item) : State := tEnds.modCore 0 (fun k => { k with rends := k.rends.map (fun e => { e with q := [it] }) })
def words8 : Item := ⟨[1, 2, 3, 4, 5, 6, 7, 8], 0, false⟩
def handle1 : Item := ⟨hTile :: List.replicate 7 0, 1, false⟩
theorem wit_StreamPops : ∃ (s : State) (a : BitVec 6) (e : REnd) (it : Item) (k : Nat),
    s.me.rend (anchorOf (s.rH a)) = some e ∧ endCheck s (s.rH a) 3 = .ok k ∧ s.cur.st = .ctl ∧ Steady s ∧
    nextItems s e 1 = some [it] ∧ it.poison = false ∧ e.stop = false ∧ e.sinceGo < 7 ∧ it.mask = 0 ∧ it.words.length = 8 := by
  refine ⟨tItem words8, 2, rendOf (tItem words8), words8, 0, opt_eq _ _ ?_, ?_⟩ <;> decide +kernel
theorem handle1_tiles : ∀ x ∈ handle1.words.take (BitVec.toNat (1 : BitVec 6)), isTile x = true := by
  intro x hx
  have e : x = hTile := by simpa [handle1] using hx
  subst e; decide +kernel
theorem handle1_free : ∀ i, i < BitVec.toNat (1 : BitVec 6) → isNull ((tItem handle1).rH (8 + BitVec.ofNat 6 i)) = true := by
  intro i hi
  have e : i = 0 := by simpa using hi
  subst e; decide +kernel
theorem wit_StreamPops_handles : ∃ (s : State) (d a n : BitVec 6) (e : REnd) (it : Item) (k : Nat),
    s.me.rend (anchorOf (s.rH a)) = some e ∧ (endCheck s (s.rH a) 3 = .ok k ∧ s.cur.st = .ctl ∧ Steady s ∧
    nextItems s e 1 = some [it] ∧ it.poison = false ∧ e.stop = false ∧ e.sinceGo < 7 ∧ 1 ≤ n.toNat ∧ n.toNat ≤ 8 ∧
    it.mask.toNat = 2 ^ n.toNat - 1 ∧ it.words.length = 8) ∧
    (∀ x ∈ it.words.take n.toNat, isTile x = true) ∧ (∀ i, i < n.toNat → isNull (s.rH (d + BitVec.ofNat 6 i)) = true) := by
  refine ⟨tItem handle1, 8, 2, 1, rendOf (tItem handle1), handle1, 0, opt_eq _ _ ?_, ?_, handle1_tiles, handle1_free⟩ <;>
    decide +kernel
theorem wit_StreamPops_none : ∃ (s : State) (a : BitVec 6) (e : REnd) (k : Nat), s.me.rend (anchorOf (s.rH a)) = some e ∧
    endCheck s (s.rH a) 3 = .ok k ∧ s.cur.st = .ctl ∧ Steady s ∧ nextItems s e 1 = none ∧
    (ancHere s (anchorOf (s.rH a)) = true ∨ e.hq ≠ none) := by
  refine ⟨tEnds, 2, rendOf tEnds, 0, opt_eq _ _ ?_, ?_⟩ <;> decide +kernel
theorem wit_StreamEnds : ∃ (s : State) (a : BitVec 6), EndHere s (s.rH a) 0 ∧ s.cur.st = .ctl ∧ Steady s :=
  ⟨tEnds, 2, by decide +kernel⟩
/-- The same with the read end in transit. -/
def tMoving : State := tEnds.setAncField ⟨0, 0, 0⟩ 3 21 2 1
theorem wit_StreamEnds_close : ∃ (s : State) (a : BitVec 6), EndHere s (s.rH a) 2 ∧ ancRst s (anchorOf (s.rH a)) = 1 ∧
    ancUsed s (anchorOf (s.rH a)) = true ∧ Steady s := ⟨tMoving, 1, by decide +kernel⟩
theorem wit_StreamsOpen_own : ∃ (s : State) (x : W64) (base : Nat) (s1 : State), x = s.rS 1 ∧ x.toNat / 4096 % 2 ^ 40 = 0 ∧
    takeStock s s.me.ctxOf (x.toNat % 32) = .ok (base, s1) := by
  refine ⟨tStack, _, _, _, rfl, ?_, got_eq (0, tStack) (takeStock tStack tStack.me.ctxOf ((tStack.rS 1).toNat % 32))
    ?_⟩ <;> decide +kernel

/-- A wide strand of core 0 at 0x1000 with A registers. -/
def tA (st : Strand) (l : List (Nat × W64)) : State :=
  tAt st (tC (fun k => k.modStrand st (fun x => l.foldl (fun (x : StrandSt) p => { x with a := vset x.a p.1 p.2 }) { x with pc := 0x1000 })))
/-- The same with the mask register K1. -/
def tK (m : BitVec 1024) (s : State) : State := s.modCore 0 (fun k => { k with k := vset k.k 1 m })

theorem wit_WideScalars : ∃ (i : Instr) (s : State) (c : Clause) (d : BitVec 5) (v : W64), wideValue s i = some (c, d, v) ∧
    WideReady c s := ⟨.aadd c0 31 1 0, tA .fet [(1, BitVec.allOnes 64)], c0, 31, _, rfl, ready0 _ (by decide +kernel)⟩
/-- A token for EXE from FET. -/
def tPop : State := tAt .exe (tTok .fet .exe [⟨true, 9⟩])
theorem wit_WideScalars_clause : ∃ (c : Clause) (s : State), WideReady c s ∧ c.pop ≠ 0 ∧ c.push ≠ 0 := by
  refine ⟨⟨2, 1⟩, tPop, ⟨?_, ?_, ?_, ?_, ?_, fun _ => ?_⟩, ?_⟩ <;> decide +kernel
theorem wit_WideScalars_wait : ∃ (c : Clause) (s : State) (x : TlCtx) (a : BitVec 5), WideReady c s ∧ (s.me.tlOf x).mark = none ∧
    (s.rA a).toNat ≤ (s.me.tlOf x).done := by
  refine ⟨c0, tA .emi [], .mx, 0, ready0 _ ?_, ?_⟩ <;> decide +kernel
theorem wit_WideScalars_empty : ∃ (c : Clause) (s : State), s.cur.st ≠ .ctl ∧ c.push = 0 ∧
    (∀ x ∈ s.cur.st.named c.pop, qIdx x s.cur.st ∉ s.me.tokPoison) ∧ (∃ x ∈ s.cur.st.named c.pop, s.me.queue x s.cur.st = []) ∧
    s.my.asked = 0 := by
  refine ⟨⟨4, 0⟩, tA .exe [], ?_, ?_, ?_, ⟨.ctl, ?_⟩, ?_⟩ <;> decide +kernel

theorem wit_WideBranches : ∃ (s : State) (len : BitVec 7) (body : List (Option W64)),
    bodyWords s s.cur.core s.cur.st .u (s.my.pc + 8) len.toNat = body ∧ s.cur.st ≠ .ctl ∧ s.my.took = [] ∧ s.my.loop = none ∧
    1 ≤ len.toNat ∧ len.toNat ≤ 64 ∧ wideBodyBad s.cur.st body = false :=
  ⟨tA .exe [(1, 3)], 2, _, rfl, by decide +kernel⟩
theorem wit_WideBranches_length : ∃ (s : State) (l m : BitVec 7) (body : List (Option W64)),
    bodyWords s s.cur.core s.cur.st .u (s.my.pc + 8) l.toNat = body ∧ s.cur.st ≠ .ctl ∧ s.my.took = [] ∧ s.my.loop = none ∧
    l.toNat = 0 ∧ 64 < m.toNat ∧ wideBodyBad s.cur.st body = false := ⟨tA .emi [], 0, 65, _, rfl, by decide +kernel⟩
theorem wit_WideBranches_nested : ∃ s : State, s.cur.st ≠ .ctl ∧ s.my.loop ≠ none :=
  ⟨tAt .exe (tC (fun k => { k with exe := { k.exe with loop := some ⟨0x1000, 1, 1, []⟩ } })), by decide +kernel⟩

/-- LDS at the word behind CTL's MOD, LDV at the dword behind FET's. -/
def tMod : State := tU.wr32 0x20201004 0x5C920003
def tModWide : State := (tA .fet []).wr64 0x20201008 0x2100005500000000
theorem wit_Prefixes : ∃ (s s1 : State) (w : Nat), s.cur.st = .ctl ∧
    nextWord s s.cur.core .ctl s.mode (s.me.ctl.pc + 4) = .ok (w, s1) ∧ s.me.ctl.pre = none ∧ atBodyEnd s.me.ctl 4 = false ∧
    (match decodeCtl (BitVec.ofNat 32 w) with | some i => ctlMemTarget i | none => false) = true := by
  refine ⟨tMod, _, 0x5C920003, ?_, got_eq (0, tMod) (nextWord tMod tMod.cur.core .ctl tMod.mode (tMod.me.ctl.pc + 4)) ?_,
    ?_⟩ <;> decide +kernel
theorem wit_Prefixes_bad : ∃ (s s1 : State) (w : Nat), s.cur.st = .ctl ∧
    nextWord s s.cur.core .ctl s.mode (s.me.ctl.pc + 4) = .ok (w, s1) ∧
    (match decodeCtl (BitVec.ofNat 32 w) with | some i => ctlMemTarget i | none => false) = false := by
  refine ⟨tU, _, 0, ?_, got_eq (0, tU) (nextWord tU tU.cur.core .ctl tU.mode (tU.me.ctl.pc + 4)) ?_, ?_⟩ <;> decide +kernel
theorem wit_Prefixes_wide : ∃ (s s1 s2 : State) (w : Nat) (i : Instr),
    nextWord s s.cur.core s.cur.st .u (s.my.pc + 8) = .ok (w, s1) ∧
    wideAt s1 (BitVec.ofNat 64 w) (s.my.pc + 8) = .ok (some i, s2) ∧ s.cur.st ≠ .ctl ∧ s.my.pre = none ∧
    atBodyEnd s.my 8 = false ∧ wideMemTarget i = true := by
  refine ⟨tModWide, tModWide, tModWide, 0x2100005500000000, .ldv ⟨0, 0⟩ .f32 0 5 10 0, ?_⟩
  decide +kernel
theorem wit_Prefixes_rep : ∃ (s : State) (c d : Clause) (n : BitVec 6), s.cur.st ≠ .ctl ∧
    repBad s c (n.toNat + 1) [0, 0, 0, 0] = false ∧ repBad s d (n.toNat + 1) [0, 0, 0, 0] = true :=
  ⟨(tA .exe []).wr64 0x20201008 0x500050000A000000, c0, ⟨1, 0⟩, 63, by decide +kernel⟩

theorem freeV (s : State) (vs : List Nat) (h : s.me.lent = 0) (g : s.me.vPend = []) : FreeV s vs := by
  intro v _; rw [h, g]; exact ⟨by simp, by simp⟩
theorem wit_VectorLanes : ∃ (i : Instr) (s : State) (c : Clause) (k : BitVec 3) (d : BitVec 9) (vs : List (BitVec 9))
    (f : Nat → W32 × Flags), vecValue s i = some (c, k, d, vs, f) ∧ WideReady c s ∧ FreeV s (vs.map (·.toNat)) ∧
    fpCause s.fpcNow (laneFlags (s.me.rK k) (fun l => (f l).2)) = none := by
  refine ⟨.vadd c0 .i32 0 true 383 1 2, tA .exe [], c0, 0, 383, _, _, rfl, ready0 _ ?_,
    freeV _ _ ?_ ?_, ?_⟩ <;> decide +kernel
/-- EXE with the division-by-zero trap enabled and lane 0 selected by K1. -/
def tTrapFp : State := tK 1 (tAt .exe (tC (fun k => { k with exe := { k.exe with fpc := 0x80 } })))
theorem wit_VectorLanes_trap : ∃ (i : Instr) (s : State) (c : Clause) (k : BitVec 3) (d : BitVec 9) (vs : List (BitVec 9))
    (f : Nat → W32 × Flags) (cause : Nat) (info : W64), vecValue s i = some (c, k, d, vs, f) ∧ WideReady c s ∧
    FreeV s (vs.map (·.toNat)) ∧ fpCause s.fpcNow (laneFlags (s.me.rK k) (fun l => (f l).2)) = some (cause, info) := by
  refine ⟨.vrcp c0 1 3 4, tTrapFp, c0, 1, 3, _, _, 0x11, 8, rfl, ready0 _ ?_,
    freeV _ _ ?_ ?_, ?_⟩ <;> decide +kernel

theorem wit_MasksAndReductions : ∃ (s : State) (c : Clause) (k : BitVec 3) (a b : BitVec 9), WideReady c s ∧
    FreeV s [a.toNat, b.toNat] ∧
    fpCause s.fpcNow (laneFlags (s.me.rK k) (fun l => (laneCmp s.fpcNow .f32 .lt (s.slot a l) (s.slot b l)).2)) = none := by
  refine ⟨tA .exe [], c0, 0, 3, 4, ready0 _ ?_, freeV _ _ ?_ ?_, ?_⟩ <;> decide +kernel
theorem wit_MasksAndReductions_tree : ∃ (i : Instr) (s : State) (c : Clause) (d a : BitVec 9) (f : Nat → W32) (fl : Flags),
    redValue s i = some (c, d, a, f, fl) ∧ WideReady c s ∧ FreeV s [d.toNat, a.toNat] ∧ fpCause s.fpcNow fl = none := by
  refine ⟨.vredr c0 .i32 .add 0 5 6, tA .exe [], c0, 5, 6, _, _, rfl, ready0 _ ?_,
    freeV _ _ ?_ ?_, ?_⟩ <;> decide +kernel

/-- FET with a 2 by 4 block of f32 at 0x3000, rows 16 bytes apart. -/
def tBlock (st : Strand) : State := tA st [(5, 0x3000), (10, 0x0000001000040002)]
def rangesOf (s : State) (rs : List (Nat × Nat)) : List (List Byte) × State := got ([], s) (readRanges s rs)
theorem blockOk_t (st : Strand) (h : shapeIn (tBlock st) 10 = ⟨2, 4, 16⟩ ∧
    straddles (tBlock st) (tBlock st).me.ctxOf 0x3000 (Shape.span ⟨2, 4, 16⟩ .f32) = false) :
    BlockOk (tBlock st) .f32 (shapeIn (tBlock st) 10) 0x3000 := by
  rw [h.1]; exact ⟨by decide, by decide, by decide, h.2⟩
theorem wit_VectorLoads : ∃ (s s1 : State) (c : Clause) (d : BitVec 9) (base idx : BitVec 5) (off : BitVec 20)
    (bs : List (List Byte)), WideReady c s ∧ BlockOk s .f32 (shapeIn s idx) (s.rA base + off.signExtend 64) ∧
    readRanges (s.popped c) (rowRanges .f32 (shapeIn s idx) (s.rA base + off.signExtend 64).toNat) = .ok (bs, s1) ∧
    blockOk d.toNat (shapeIn s idx).rows (shapeIn s idx).cols = true ∧
    FreeV s (blockRegs d.toNat (shapeIn s idx).rows (shapeIn s idx).cols) ∧
    blockOk d.toNat (shapeIn s idx).cols (shapeIn s idx).rows = true ∧
    FreeV s (blockRegs d.toNat (shapeIn s idx).cols (shapeIn s idx).rows) := by
  refine ⟨tBlock .fet, _, c0, 383, 5, 10, 0, _, ready0 _ ?_, blockOk_t .fet ?_,
    got_eq ([], tBlock .fet) (readRanges ((tBlock .fet).popped c0) (rowRanges .f32 (shapeIn (tBlock .fet) 10)
      ((tBlock .fet).rA 5 + (0 : BitVec 20).signExtend 64).toNat)) ?_,
    ?_, freeV _ _ ?_ ?_, ?_,
    freeV _ _ ?_ ?_⟩ <;> decide +kernel
theorem wit_VectorLoads_tile : ∃ (s : State) (c : Clause) (d : BitVec 9) (hr : BitVec 6) (col : BitVec 9) (packed : Bool)
    (m : LdvtMode), WideReady c s ∧ TileHere s (s.rH hr) ∧ hRights (s.rH hr) % 2 = 1 ∧
    (s.folio (hCore (s.rH hr)) (hFolio (s.rH hr))).fmt = .i32 ∧ (s.folio (hCore (s.rH hr)) (hFolio (s.rH hr))).state ≠ .filling ∧
    FreeV s [d.toNat] ∧ (s.core (hCore (s.rH hr))).storePoison = [] ∧ (packed = true → m = .direct ∧ col.toNat % 4 = 0) := by
  refine ⟨tAt .fet tTile, c0, 7, 1, 4, true, .direct, ready0 _ ?_,
    tileHere _ _ ?_, ?_, ?_,
    ?_, freeV _ _ ?_ ?_, ?_⟩ <;> decide +kernel
theorem wit_VectorLoads_mask : ∃ (s s1 : State) (c : Clause) (base : BitVec 5) (off : BitVec 20) (bs : List (List Byte)),
    WideReady c s ∧ (s.rA base + off.signExtend 64).toNat % 8 = 0 ∧
    straddles s s.me.ctxOf (s.rA base + off.signExtend 64).toNat 128 = false ∧
    readRanges (s.popped c) [((s.rA base + off.signExtend 64).toNat, 128)] = .ok (bs, s1) := by
  refine ⟨tBlock .fet, _, c0, 5, 0x80, _, ready0 _ ?_, ?_, ?_,
    got_eq ([], tBlock .fet) (readRanges ((tBlock .fet).popped c0) [(((tBlock .fet).rA 5 + (0x80 : BitVec 20).signExtend 64).toNat, 128)])
      ?_⟩ <;> decide +kernel

/-- FET with one lane selected by K1. -/
def tLane (st : Strand) : State := tK 1 (tA st [(5, 0x3000), (6, 0x2000), (7, 0x3000), (8, 0x40)])
theorem wit_Gathers : ∃ (s s1 : State) (c : Clause) (k : BitVec 3) (d va : BitVec 9) (ab : BitVec 5) (bs : List (List Byte)),
    WideReady c s ∧ FreeV s [d.toNat, va.toNat] ∧ selected s k ≠ [] ∧
    (∀ l ∈ selected s k, (s.rA ab + BitVec.ofInt 64 ((s.slot va l).toInt * (ebits .f32 / 8 : Nat))).toNat % ealign .f32 = 0) ∧
    readRanges (s.popped c) ((selected s k).map (fun l =>
      ((s.rA ab + BitVec.ofInt 64 ((s.slot va l).toInt * (ebits .f32 / 8 : Nat))).toNat, ebits .f32 / 8))) (ealign .f32) = .ok (bs, s1) := by
  refine ⟨tLane .fet, _, c0, 1, 40, 41, 5, _, ready0 _ ?_, freeV _ _ ?_ ?_,
    ?_, ?_, got_eq ([], tLane .fet) (readRanges ((tLane .fet).popped c0)
      ((selected (tLane .fet) 1).map (fun l => (((tLane .fet).rA 5 + BitVec.ofInt 64 (((tLane .fet).slot 41 l).toInt *
        (ebits .f32 / 8 : Nat))).toNat, ebits .f32 / 8))) (ealign .f32)) ?_⟩ <;> decide +kernel

/-- The value of a read of some ranges. -/
def someOf (s : State) (k : Nat) (rs : List (Nat × Nat)) : List (List Byte) × State × Nat := got ([], s, 0) (readSome s k rs)
def tabOf (s : State) (aT : W64) (toks : List (Option Nat)) : List Byte × State × Nat := got ([], s, 0) (tableRead s aT toks)
/-- BTGATH of lane 0: token 0 of row 0, its block number at 0x2000, its element at 0x3000. -/
theorem wit_Gathers_table : ∃ (s s1 s2 : State) (c : Clause) (k : BitVec 3) (d va : BitVec 9) (aT aP : BitVec 5)
    (tab : List Byte) (vals : List (List Byte)) (n n2 : Nat), let e := ebits .f32 / 8
    let w := s.rA (aP + 1)
    let pool := s.rA aP
    let stride := (fld w 0 32).toNat
    let first := (fld w 32 16).toNat
    let block (r : Nat) : Nat := leNat ((tab.drop (4 * r)).take 4)
    let ea (l : Nat) : Option W64 :=
      match (tokens s va).getD (l / 64) none with
      | none => none
      | some x => if block (l / 64) = 0xFFFFFFFF then none
          else some (pool + BitVec.ofNat 64 ((16 * block (l / 64) + x % 16) * stride + (first + l % 64) * e))
    let live := (selected s k).filterMap (fun l => (ea l).map (fun a => (l, a)))
    WideReady c s ∧ FreeV s [d.toNat, va.toNat] ∧ fld w 48 16 = 0 ∧ pool.toNat % e = 0 ∧ stride % e = 0 ∧ first % e = 0 ∧
    (s.rA aT).toNat % 4 = 0 ∧ tableRead (acqPart (s.popped c) s.attr) (s.rA aT) (tokens s va) = .ok (tab, s1, n) ∧
    readSome s1 n (live.map (fun p => (p.2.toNat, e))) = .ok (vals, s2, n2) ∧ live = [(0, 0x3000)] := by
  refine ⟨tLane .fet, (tabOf (tLane .fet) 0x2000 (tokens (tLane .fet) 2)).2.1,
    (someOf (tabOf (tLane .fet) 0x2000 (tokens (tLane .fet) 2)).2.1 1 [(0x3000, 4)]).2.1, c0, 1, 60, 2, 6, 7,
    (tabOf (tLane .fet) 0x2000 (tokens (tLane .fet) 2)).1, [[0, 0, 0, 0]], 1, 1, ready0 _ ?_, freeV _ _ ?_ ?_,
    ?_, ?_, ?_, ?_, ?_,
    got_eq' ([], tLane .fet, 0) _ _ ?_ ?_, got_eq' ([], tLane .fet, 0) _ _ ?_ ?_, ?_⟩ <;> decide +kernel
theorem wit_Gathers_entries : ∃ (s s1 : State) (aT : W64) (toks : List (Option Nat)) (bs : List (List Byte)) (n : Nat),
    let held := if s.choice 0 then s.me.btb else []
    let entry (x : Nat) : Nat := (aT + BitVec.ofNat 64 (4 * (x / 16))).toNat
    let want := (toks.filterMap (Option.map entry)).eraseDups.filter (fun a => (look a held).isNone)
    s.my.asked = 0 ∧ readSome s 0 (want.map (fun a => (a, 4))) = .ok (bs, s1, n) ∧ want = [0x2004, 0x2000] := by
  refine ⟨tA .fet [], (someOf (tA .fet []) 0 [(0x2004, 4), (0x2000, 4)]).2.1, 0x2000, [none, some 17, some 3, some 16],
    [[0, 0, 0, 0], [0, 0, 0, 0]], 0, ?_, got_eq' ([], tA .fet [], 0) _ _ ?_ ?_, ?_⟩ <;> decide +kernel

/-- A tile made for an operation: its record's number, and the state with it. -/
def newOf (s : State) (core : Nat) (t : Elem) (r c : Nat) : Nat × State :=
  opt (0, s) (newTile core s.me.ctxOf t r c .filling false false s)
theorem wit_FetchOperations : ∃ (s : State) (c : Clause) (hd : BitVec 6) (base idx : BitVec 5) (off : BitVec 20) (f : Nat)
    (s1 : State), WideReady c s ∧ (s.me.tlOf .fa).mark = none ∧ BlockOk s .f32 (shapeIn s idx) (s.rA base + off.signExtend 64) ∧
    isNull (s.rH hd) = true ∧
    newTile s.cur.core s.me.ctxOf .f32 (shapeIn s idx).rows (shapeIn s idx).cols .filling false false s = some (f, s1) := by
  refine ⟨tBlock .fet, c0, 1, 5, 10, 0, 0, (newOf (tBlock .fet) 0 .f32 2 4).2, ready0 _ ?_, ?_,
    blockOk_t .fet ?_, ?_, opt_pair _ (0, tBlock .fet) 0 ?_ ?_⟩ <;> decide +kernel
/-- Descriptors at 0x2000: for CEC, one byte; for CEDUP, a page at 0x4000 and a table at 0x8000; for CECOL, four f32. -/
def tDescs (l : List (Nat × W64)) : State := l.foldl (fun (s : State) (p : Nat × W64) => s.wr64 (0x20202000 + p.1) p.2) (tA .fet [(6, 0x2000)])
def tCec : State := tDescs [(0, 0x3000), (8, 0x3100), (16, 0x0000000300000004)]
def tDedup : State := (tDescs [(0, 0x5000), (8, 0x200000), (16, 0x8000), (24, 4)]).wr64 0x20011008 0x20012003
def tColl : State := tDescs [(0, 0x3000), (8, 0x3100), (16, 0x0000000000000004), (24, 0x10001), (32, 0x00020002)]
def descOf (s : State) (n : Nat) : List W64 × State := got ([], s) (readDesc s 0x2000 n)
theorem wit_FetchOperations_copy : ∃ (s s1 : State) (c : Clause) (base : BitVec 5) (off : BitVec 20) (d : List W64),
    WideReady c s ∧ (s.me.tlOf .fa).mark = none ∧
    readDesc (s.popped c) (s.rA base + off.signExtend 64) 128 = .ok (d, s1) ∧ cecBad d = false ∧
    relPart s1 s.attr = .ok () := by
  refine ⟨tCec, _, c0, 6, 0, _, ready0 _ ?_, ?_,
    got_eq ([], tCec) (readDesc (tCec.popped c0) (tCec.rA 6 + (0 : BitVec 20).signExtend 64) 128) ?_, ?_, ?_⟩ <;> decide +kernel
theorem noError {ε α : Type} (P : ε → Prop) {x : Except ε α} (h : isOk x = true) : ∀ e, x = .error e → P e := by
  rintro e rfl; cases h
theorem wit_FetchOperations_dedup : ∃ (s s1 : State) (c : Clause) (base : BitVec 5) (off : BitVec 20) (d : List W64),
    let g (i : Nat) : W64 := d.getD i 0
    let k := (fld (g 3) 0 5).toNat
    WideReady c s ∧ (s.me.tlOf .fa).mark = none ∧ readDesc (s.popped c) (s.rA base + off.signExtend 64) 64 = .ok (d, s1) ∧
    (g 0).toNat % 4096 = 0 ∧ (g 1).toNat % 4096 = 0 ∧ (g 2).toNat % 16 = 0 ∧ fld (g 3) 5 59 = 0 ∧ 4 ≤ k ∧ k ≤ 24 ∧
    fld (g 4) 2 62 = 0 ∧ g 5 = 0 ∧ g 6 = 0 ∧ g 7 = 0 ∧ (∀ e, leafSlot s1 s1.me.ctxOf (g 1).toNat = .error e → e ≠ 0x81) ∧
    relPart s1 s.attr = .ok () := by
  refine ⟨tDedup, _, c0, 6, 0, _, ready0 _ ?_, ?_,
    got_eq ([], tDedup) (readDesc (tDedup.popped c0) (tDedup.rA 6 + (0 : BitVec 20).signExtend 64) 64) ?_,
    ?_, ?_, ?_, ?_, ?_, ?_, ?_, ?_, ?_, ?_, noError _ ?_, ?_⟩ <;> decide +kernel
def tCollDesc : List W64 := [0x3000, 0x3100, 4, 0x10001, 0x00020002, 0, 0, 0]
theorem tColl_desc : readDesc (tColl.popped c0) (tColl.rA 6 + (0 : BitVec 20).signExtend 64) 64 =
    .ok (tCollDesc, (descOf (tColl.popped c0) 64).2) :=
  got_eq' ([], tColl.popped c0) (tCollDesc, (descOf (tColl.popped c0) 64).2)
    (readDesc (tColl.popped c0) (tColl.rA 6 + (0 : BitVec 20).signExtend 64) 64) (by decide +kernel) (by decide +kernel)
theorem wit_FetchOperations_collective : ∃ (s s1 s2 : State) (c : Clause) (base : BitVec 5) (off : BitVec 20) (d : List W64)
    (hd : BitVec 6) (f : Nat), let g (i : Nat) : W64 := d.getD i 0
    let n := (fld (g 2) 0 32).toNat
    let t0 := elemOf (fld (g 2) 32 4).toNat
    let op := (fld (g 2) 36 2).toNat
    let rows := (fld (g 4) 0 16).toNat
    let cols := (fld (g 4) 16 16).toNat
    WideReady c s ∧ (s.me.tlOf .fa).mark = none ∧ readDesc (s.popped c) (s.rA base + off.signExtend 64) 64 = .ok (d, s1) ∧
    ((fld (g 2) 32 4).toNat ≤ 11 ∧ (fld (g 2) 32 4).toNat ≠ 8 ∧ op ≤ 1 ∧
    (op = 0 → t0 = .f32 ∨ t0 = .b16 ∨ t0 = .i32 ∨ t0 = .n32) ∧ 1 ≤ n ∧ n ≤ 16777216 ∧ fld (g 2) 38 26 = 0 ∧
    fld (g 3) 48 16 = 0 ∧ (g 0).toNat % (ebits t0 / 8) = 0 ∧
    inColl (fld (g 3) 0 16) (fld (g 3) 16 16) (s.dev % 256) = true ∧ g 5 = 0 ∧ g 6 = 0 ∧ g 7 = 0 ∧
    (g 1).toNat % (ebits t0 / 8) = 0 ∧ hd ≠ 0 ∧ rows * cols = n ∧ shapeOk t0 rows cols = true ∧ isNull (s.rH hd) = true ∧
    relPart s1 s.attr = .ok ()) ∧
    newTile s.cur.core s.me.ctxOf t0 rows cols .filling false false s1 = some (f, s2) := by
  refine ⟨tColl, (descOf (tColl.popped c0) 64).2, _, c0, 6, 0, tCollDesc, 8, 0,
    ready0 _ ?_, ?_, tColl_desc, ?_,
    opt_pair _ (0, (descOf (tColl.popped c0) 64).2) 0 ?_ ?_⟩ <;> decide +kernel
/-- FET with a tile in H1 and core 3 named by A1. -/
def tRot : State := (tAt .fet tTile).modCore 0 (fun k => k.modStrand .fet (fun x => { x with pc := 0x1000, a := vset x.a 1 3 }))
def newOf' (s : State) : Nat × State :=
  opt (0, s) (newTile 3 s.me.ctxOf (s.folio 0 0).fmt (s.folio 0 0).rows (s.folio 0 0).cols .filling false false s)
theorem wit_FetchOperations_rotate : ∃ (s s1 s2 : State) (c : Clause) (hd hs : BitVec 6) (ra : BitVec 5) (f : Nat),
    let h := s.rH hs
    let x := s.folio (hCore h) (hFolio h)
    WideReady c s ∧ s.cur.st = .fet ∧ (s.me.tlOf .fa).mark = none ∧ TileHere s h ∧ hRights h % 2 = 1 ∧
    fld (s.rA ra) 7 57 = 0 ∧ (hd = hs ∨ isNull (s.rH hd) = true) ∧
    newTile (fld (s.rA ra) 0 7).toNat s.me.ctxOf x.fmt x.rows x.cols .filling false false s = some (f, s1) ∧
    takePin .fa ((s.me.tlOf .fa).issued + 1) h s1 = .ok s2 := by
  refine ⟨tRot, (newOf' tRot).2, _, c0, 2, 1, 1, 0, ready0 _ ?_, ?_, ?_,
    tileHere _ _ ?_, ?_, ?_,
    ?_, opt_pair _ (0, tRot) 0 ?_ ?_, got_eq tRot _ ?_⟩ <;> decide +kernel

theorem wit_VectorStreams : ∃ (s : State) (d : BitVec 9) (c : Clause) (hr : BitVec 6) (n : BitVec 4) (e : REnd) (its : List Item),
    WideReady c s ∧ endCheck s (s.rH hr) 3 = .ok 0 ∧ s.me.rend (anchorOf (s.rH hr)) = some e ∧ FreeV s [d.toNat] ∧
    nextItems s e (n.toNat + 1) = some its ∧ (∀ it ∈ its, it.mask = 0 ∧ it.poison = false) := by
  refine ⟨tAt .fet (tItem words8), 3, c0, 2, 0, rendOf (tAt .fet (tItem words8)), [words8], ready0 _ ?_,
    got_eq' 1 _ _ ?_ ?_, opt_eq _ _ ?_,
    freeV _ _ ?_ ?_, ?_⟩ <;> decide +kernel
theorem wit_VectorStreams_push : ∃ (s : State) (d : BitVec 9) (c : Clause) (hr : BitVec 6) (n : BitVec 4) (e : WEnd),
    WideReady c s ∧ endCheck s (s.rH hr) 2 = .ok 0 ∧ (s.me.tlOf .sq).mark = none ∧ s.me.wend (anchorOf (s.rH hr)) = some e ∧
    e.orphan = 0 ∧ e.room (n.toNat + 1) = true ∧ e.toDev = s.dev % 256 ∧ FreeV s [d.toNat] ∧ MayRelease (s.popped c) .sys := by
  refine ⟨tAt .emi tEnds, 3, c0, 1, 15, wendOf (tAt .emi tEnds), ready0 _ ?_, got_eq' 1 _ _ ?_ ?_,
    ?_, opt_eq _ _ ?_, ?_, ?_, ?_,
    freeV _ _ ?_ ?_, ?_⟩ <;> decide +kernel

def wrOf (s : State) (rs : List (Nat × List Byte)) : State := got s (writeRanges s rs)
theorem wit_VectorStores : ∃ (s s1 : State) (c : Clause) (sat : Bool) (d : BitVec 9) (base idx : BitVec 5) (off : BitVec 20),
    let sh := shapeIn s idx
    let va := s.rA base + off.signExtend 64
    let row (r : Nat) := narrowAll s.fpcNow sat .f32 (capturedRow (captureBlock s.me d.toNat (nreg sh.rows sh.cols)) sh.cols r)
    let fl : Flags := (List.range sh.rows).foldl (fun (f : Flags) r => f ||| (row r).2) 0
    WideReady c s ∧ BlockOk s .f32 sh va ∧ blockOk d.toNat sh.rows sh.cols = true ∧
    FreeV s (blockRegs d.toNat sh.rows sh.cols) ∧ fpCause s.fpcNow fl = none ∧
    writeRanges (s.popped c) ((List.range sh.rows).map (fun r => (va.toNat + r * sh.stride, packRow .f32 (row r).1))) = .ok s1 := by
  refine ⟨tBlock .emi, _, c0, false, 383, 5, 10, 0, ready0 _ ?_, blockOk_t .emi ?_, ?_,
    freeV _ _ ?_ ?_, ?_, got_eq (tBlock .emi) _ ?_⟩ <;> decide +kernel
theorem wit_VectorStores_scatter : ∃ (s s1 : State) (c : Clause) (k : BitVec 3) (sat : Bool) (va vb : BitVec 9) (ab : BitVec 5),
    let ls := selected s k
    let ea (l : Nat) : W64 := s.rA ab + BitVec.ofInt 64 ((s.slot va l).toInt * (ebits .i16 / 8 : Nat))
    let x (l : Nat) := narrow s.fpcNow sat .i16 (s.slot vb l)
    WideReady c s ∧ FreeV s [va.toNat, vb.toNat] ∧ (∀ l ∈ ls, (ea l).toNat % ealign .i16 = 0) ∧
    fpCause s.fpcNow (laneFlags (s.me.rK k) (fun l => (x l).2)) = none ∧ ls ≠ [] ∧
    writeRanges (s.popped c) (ls.map (fun l => ((ea l).toNat, leBytes (ebits .i16 / 8) (x l).1))) (ealign .i16) = .ok s1 := by
  refine ⟨tLane .emi, _, c0, 1, true, 10, 11, 5, ready0 _ ?_, freeV _ _ ?_ ?_,
    ?_, ?_, ?_, got_eq (tLane .emi) _ ?_⟩ <;> decide +kernel
theorem wit_VectorStores_mask : ∃ (s s1 : State) (c : Clause) (k : BitVec 3) (base : BitVec 5) (off : BitVec 20),
    WideReady c s ∧ (s.rA base + off.signExtend 64).toNat % 8 = 0 ∧
    straddles s s.me.ctxOf (s.rA base + off.signExtend 64).toNat 128 = false ∧
    writeRanges (s.popped c) [((s.rA base + off.signExtend 64).toNat, leBytes 128 (s.me.rK k).toNat)] = .ok s1 := by
  refine ⟨tLane .emi, _, c0, 1, 5, 0x80, ready0 _ ?_, ?_, ?_, got_eq (tLane .emi) _ ?_⟩ <;> decide +kernel
def placeOf (s : State) (va : W64) : Tr × State := got (⟨0, false, none⟩, s) (writePlace s va)
theorem wit_VectorStores_range : ∃ (s s1 : State) (va : W64) (bs : List Byte) (tr : Tr), s.my.asked = 0 ∧ relPart s s.attr = .ok () ∧
    bs ≠ [] ∧ va.toNat % 4096 + bs.length ≤ 4096 ∧ va.toNat + bs.length ≤ 0xE000000000000 ∧ s.cur.choice = 0 ∧
    writePlace s va = .ok (tr, s1) := by
  refine ⟨tA .emi [], (placeOf (tA .emi []) 0x3FFF).2, 0x3FFF, [7], (placeOf (tA .emi []) 0x3FFF).1, ?_, ?_, ?_, ?_,
    ?_, ?_, got_eq (⟨0, false, none⟩, tA .emi []) (writePlace (tA .emi []) 0x3FFF) ?_⟩ <;> decide +kernel

theorem wit_EmitOperations : ∃ (s s1 : State) (c : Clause) (hd : BitVec 6) (va : BitVec 9) (idx : BitVec 5) (f : Nat),
    let sh := shapeIn s idx
    WideReady c s ∧ (s.me.tlOf .ea).mark = none ∧ shapeOk .b16 sh.rows sh.cols = true ∧ blockOk va.toNat sh.rows sh.cols = true ∧
    FreeV s (blockRegs va.toNat sh.rows sh.cols) ∧ isNull (s.rH hd) = true ∧
    newTile s.cur.core s.me.ctxOf .b16 sh.rows sh.cols .filling false false s = some (f, s1) := by
  refine ⟨tBlock .emi, (newOf (tBlock .emi) 0 .b16 2 4).2, c0, 1, 2, 10, 0, ready0 _ ?_, ?_,
    ?_, ?_, freeV _ _ ?_ ?_, ?_,
    opt_pair _ (0, tBlock .emi) 0 ?_ ?_⟩ <;> decide +kernel
/-- EMI with a 4 by 8 tile of i32 in H1, A5 an address and A10 the tile's shape. -/
def tStore : State := (tAt .emi tTile).modCore 0 (fun k => k.modStrand .emi (fun x =>
  { x with pc := 0x1000, a := vset (vset x.a 5 0x4000) 10 0x0000002000080004 }))
theorem wit_EmitOperations_tile : ∃ (s s1 : State) (c : Clause) (hr : BitVec 6) (base idx : BitVec 5) (off : BitVec 20),
    let sh := shapeIn s idx
    let h := s.rH hr
    WideReady c s ∧ (s.me.tlOf .ea).mark = none ∧ BlockOk s .i32 sh (s.rA base + off.signExtend 64) ∧ handleBits h 0 = none ∧
    atHome s h = true ∧ sttBad s s.me.ctxOf h .i32 sh.rows sh.cols = none ∧ relPart (s.popped c) s.attr = .ok () ∧
    takePin .ea ((s.me.tlOf .ea).issued + 1) h s = .ok s1 := by
  refine ⟨tStore, _, c0, 1, 5, 10, 0, ready0 _ ?_, ?_,
    ⟨?_, ?_, ?_, ?_⟩, ?_, ?_,
    ?_, ?_, got_eq tStore _ ?_⟩ <;> decide +kernel
/-- A record at 0x2000 of a 16 by 16 by 16 by 1 tensor of f32 at 0x3000, rows 64 bytes apart. -/
def tTensor : State := [(0, 0x3000), (8, 0x0001001000100010), (16, 64), (24, 1024)].foldl
  (fun (s : State) (p : Nat × W64) => s.wr64 (0x20202000 + p.1) p.2) (tA .emi [(6, 0x2000)])
theorem wit_EmitOperations_stred : ∃ (s s1 : State) (c : Clause) (d : BitVec 9) (base : BitVec 5) (off : BitVec 20) (r : List W64),
    WideReady c s ∧ (s.me.tlOf .ea).mark = none ∧ FreeV s [d.toNat] ∧
    readTensor (s.popped c) .f32 (s.rA base + off.signExtend 64) = .ok (r, s1) ∧ relPart s1 s.attr = .ok () := by
  refine ⟨tTensor, (got ([], tTensor) (readTensor (tTensor.popped c0) .f32 (tTensor.rA 6 + (0 : BitVec 20).signExtend 64))).2, c0, 30, 6, 0, _, ready0 _ ?_, ?_,
    freeV _ _ ?_ ?_, got_eq ([], tTensor) _ ?_, ?_⟩ <;> decide +kernel

/-- EXE of core 0 with its lease in a state. -/
def tLs (l : Lease) : State := (tA .exe []).modCore 0 (fun k => { k with lease := l })
def leaseHeld : Lease := { Lease.init with st := .held, asking := true }
theorem wit_MatrixInstructions_granted : ∃ (s : State) (c : Clause), WideReady c s ∧ s.me.lease.asking = true ∧ s.me.lease.st = .held := by
  refine ⟨tLs leaseHeld, c0, ready0 _ ?_, ?_⟩ <;> decide +kernel
theorem wit_MatrixInstructions_asks : ∃ (s : State) (c : Clause) (g : Bool), WideReady c s ∧
    ¬(s.me.lease.asking = true ∧ s.me.lease.st = .held) ∧
    ¬(s.me.lease.st = .req ∧ (s.me.lease.asking = true ∨ s.me.lease.gang = g)) := by
  refine ⟨tLs { leaseHeld with asking := false }, c0, false, ready0 _ ?_, ?_⟩ <;> decide +kernel
theorem wit_MatrixInstructions_waits : ∃ (s : State) (c : Clause) (g : Bool), WideReady c s ∧ s.me.lease.st = .req ∧
    (s.me.lease.asking = true ∨ s.me.lease.gang = g) := by
  refine ⟨tLs { leaseHeld with st := .req }, c0, true, ready0 _ ?_, ?_⟩ <;> decide +kernel
theorem wit_MatrixInstructions_lend : ∃ (s : State) (c : Clause) (b : BitVec 4), WideReady c s ∧ b.toNat < 12 ∧
    s.me.lent.getLsbD b.toNat = false ∧ (∀ v ∈ inUse s s.cur.core, v / 32 ≠ b.toNat) := by
  refine ⟨tA .exe [], c0, 11, ready0 _ ?_, ?_⟩ <;> decide +kernel
/-- The same with bank 0 lent. -/
def tLent : State := (tA .exe []).modCore 0 (fun k => { k with lent := 1 })
theorem wit_MatrixInstructions_back : ∃ (s : State) (c : Clause) (b : BitVec 4), WideReady c s ∧ b.toNat < 12 ∧
    s.me.lent.getLsbD b.toNat = true ∧ (∀ o ∈ s.me.opsOf .mx, readsBank b.toNat o = false) := by
  refine ⟨tLent, c0, 0, ready0 _ ?_, ?_⟩ <;> decide +kernel
theorem wit_MatrixInstructions_region : ∃ (s : State) (c : Clause) (m n zcol : BitVec 9) (zrow : BitVec 7), WideReady c s ∧
    (s.me.tlOf .mx).mark = none ∧ zrow.toNat + m.toNat < 128 ∧ zcol.toNat + n.toNat < 512 := by
  refine ⟨tA .exe [], c0, 127, 255, 256, 0, ready0 _ ?_, ?_⟩ <;> decide +kernel
theorem wit_MatrixInstructions_tile : ∃ (s s1 : State) (c : Clause) (m n : BitVec 9) (hd : BitVec 6) (f : Nat), WideReady c s ∧
    (s.me.tlOf .mx).mark = none ∧ (0 : BitVec 7).toNat + m.toNat < 128 ∧ (0 : BitVec 9).toNat + n.toNat < 512 ∧
    isNull (s.rH hd) = true ∧
    newTile s.cur.core s.me.ctxOf .b16 (m.toNat + 1) (n.toNat + 1) .filling false false s = some (f, s1) := by
  refine ⟨tA .exe [], _, c0, 3, 15, 1, 0, ready0 _ ?_, ?_, ?_, ?_, ?_,
    opt_pair _ (0, tA .exe []) 0 ?_ ?_⟩ <;> decide +kernel
theorem wit_MatrixInstructions_regs : ∃ (s : State) (c : Clause) (m n v : BitVec 9), WideReady c s ∧
    (s.me.tlOf .mx).mark = none ∧ m.toNat < 128 ∧ FreeV s (blockRegs v.toNat (m.toNat + 1) (n.toNat + 1)) := by
  refine ⟨tA .exe [], c0, 3, 15, 7, ready0 _ ?_, ?_, ?_, freeV _ _ ?_ ?_⟩ <;> decide +kernel
def tTensorExe : State := [(0, 0x3000), (8, 0x0001001000100010), (16, 64), (24, 1024)].foldl
  (fun (s : State) (p : Nat × W64) => s.wr64 (0x20202000 + p.1) p.2) (tA .exe [(6, 0x2000)])
theorem wit_MatrixInstructions_store : ∃ (s s1 : State) (c : Clause) (a : BitVec 5) (d : List W64), WideReady c s ∧
    (s.me.tlOf .mx).mark = none ∧ readTensor (s.popped c) .f32 (s.rA a) = .ok (d, s1) ∧ relPart s1 s.attr = .ok () := by
  refine ⟨tTensorExe, (got ([], tTensorExe) (readTensor (tTensorExe.popped c0) .f32 (tTensorExe.rA 6))).2, c0, 6, _, ready0 _ ?_,
    ?_, got_eq ([], tTensorExe) _ ?_, ?_⟩ <;> decide +kernel

/-- EXE with the array, a 1 by 16 tile of e8 in H1, a 16 by 16 one in H2, and one of two i32 counts, 1 and 0, in H4. -/
def tProd : State :=
  ((((((tLs { Lease.init with st := .held }).modCore 0 (fun k =>
    (((k.wH 1 (mkHandle 1 0 0 0 0 0 7)).wH 2 (mkHandle 1 0 0 1 0 0 7)).wH 4 (mkHandle 1 0 0 2 0 0 7)))).setFolio 0 0
    { Folio.init with count := 1, state := .full, used := true, fmt := .e8, rows := 1, cols := 16, ngal := 1 }).setFolio 0 1
    { Folio.init with count := 1, state := .full, used := true, fmt := .e8, rows := 16, cols := 16, first := 1, ngal := 1 }).setFolio 0 2
    { Folio.init with count := 1, state := .full, used := true, fmt := .i32, rows := 1, cols := 2, first := 2, ngal := 1 }).modCore 0
    (fun k => { k with store := [(32768, 1)] }))
def prodMma : Product := { fa := .e8, fb := .e8, gang := false, z0 := true, sc := false, a := .handle 1, bva := false, m := 1,
                           ma := 1, n := 16, k := 16, zrow := 127, zcol := 496, ax := mkHandle 1 0 0 0 0 0 7, as_ := 0,
                           hsa := 0, groups := [(1, mkHandle 1 0 0 1 0 0 7, 0, 0)] }
theorem prodMma_ok : ProductOk tProd prodMma := by
  refine ⟨?_, ?_, ?_, fun b h => (by cases h), fun r h => (by cases h), fun h => (by cases h), fun r h => (by cases h),
    fun h => (by cases h), ?_, ?_⟩ <;> decide +kernel
def pinAll (s : State) (hs : List W64) : State :=
  got s (hs.foldlM (fun (x : State) h => takePin .mx ((s.me.tlOf .mx).issued + 1) h x) s)
theorem wit_MatrixProducts : ∃ (s s1 : State) (c : Clause) (a : ASrc) (b : BSrc) (m n k zcol : BitVec 9) (zrow : BitVec 7)
    (hsa hsb : BitVec 6) (p : Product),
    let i := Instr.mma c .e8 .e8 false true false a b m n k zcol zrow hsa hsb
    let bx : List W64 := match b with | .handle h => [s.rH h, 0] | .va r => [s.rA r, s.rA (r + 1)]
    let args := 0 :: aSrcArgs s a ++ [s.rH hsa] ++ [BitVec.ofNat 64 (m.toNat + 1)] ++ bx ++ [s.rH hsb]
    WideReady c s ∧ (s.me.tlOf .mx).mark = none ∧ Leased s false ∧ productOf s.cur.core (asOp i args) = some p ∧ ProductOk s p ∧
    ((p.tiles (suppliesB s.cur.core p)).map (·.1)).foldlM (fun (x : State) h => takePin .mx ((s.me.tlOf .mx).issued + 1) h x) s =
      .ok s1 := by
  refine ⟨tProd, _, c0, .handle 1, .handle 2, 0, 15, 0, 496, 127, 0, 0, prodMma, ready0 _ ?_, ?_, ?_,
    ?_, prodMma_ok, got_eq tProd _ ?_⟩ <;> decide +kernel
theorem wit_MatrixProducts_none : ∃ (s : State) (c : Clause), WideReady c s ∧ (s.me.tlOf .mx).mark = none ∧ s.me.lease.st ≠ .held := by
  refine ⟨tA .exe [], c0, ready0 _ ?_, ?_⟩ <;> decide +kernel
def prodMmag : Product := { prodMma with groups := [(1, mkHandle 1 0 0 1 0 0 7, 0, 0), (0, 0, 0, 0)], zrow := 0, zcol := 0 }
theorem wit_MatrixProducts_groups : ∃ (s s1 : State) (c : Clause) (a : ASrc) (hb hc : BitVec 6) (grp : BitVec 4)
    (m n k : BitVec 9) (counts : List Int) (p : Product),
    let i := Instr.mmag c .e8 .e8 false true false a hb hc grp m n k 0 0 0 0
    let groups := counts.zipIdx.map (fun p => [BitVec.ofNat 64 p.1.toNat, s.rH (hb + BitVec.ofNat 6 p.2), 0, 0])
    let args := 0 :: aSrcArgs s a ++ [s.rH 0] ++ groups.flatten
    WideReady c s ∧ (s.me.tlOf .mx).mark = none ∧ Leased s false ∧
    readCounts (s.popped c) (s.rH hc) (grp.toNat + 1) = .ok counts ∧ (∀ x ∈ counts, 0 ≤ x) ∧
    counts.foldl (· + ·) 0 ≤ (m.toNat + 1 : Int) ∧ productOf s.cur.core (asOp i args) = some p ∧ ProductOk s p ∧
    ((p.tiles (suppliesB s.cur.core p)).map (·.1)).foldlM (fun (x : State) h => takePin .mx ((s.me.tlOf .mx).issued + 1) h x) s =
      .ok s1 := by
  refine ⟨tProd, _, c0, .handle 1, 2, 4, 1, 0, 15, 0, [1, 0], prodMmag, ready0 _ ?_, ?_, ?_,
    got_eq' [] _ _ ?_ ?_, ?_, ?_, ?_,
    ⟨?_, ?_, ?_, fun b h => (by cases h), fun r h => (by cases h), fun h => (by cases h), fun r h => (by cases h),
      fun h => (by cases h), ?_, ?_⟩, got_eq tProd _ ?_⟩ <;> decide +kernel

/-- Leases of the cores of cluster 0. -/
def tAsk (l : List (Nat × Lease)) : State := l.foldl (fun (s : State) p => s.modCore p.1 (fun k => { k with lease := p.2 })) tU
def leaseReq : Lease := { Lease.init with st := .req, asking := true }
def later (n : Nat) (s : State) : State := { s with cycle := n }
theorem unpins {s : State} {c : Nat} {x : TlCtx} {o : Op} (h : unpinPending s c x o.n = false ∧ o.pins = []) :
    Unpins s c x o := ⟨h.1, by rw [h.2]; simp⟩
theorem unpins1 (p : W64) {s : State} {c : Nat} {x : TlCtx} {o : Op} (h : unpinPending s c x o.n = false ∧ o.pins = [p])
    (g : homeHere s p = true ∧ hCore p = c) : Unpins s c x o := ⟨h.1, by rw [h.2]; simpa using fun _ => g⟩
theorem wit_LeaseSteps_next : ∃ (cl q : Nat) (s : State), cl < 32 ∧
    (∀ c ∈ coresOf cl, (s.core c).lease.st ≠ .held ∧ busyArray s c = false) ∧ gangFormed s cl = false ∧ nextAsker s cl = some q :=
  ⟨0, 3, tAsk [(9, leaseReq)], by decide +kernel⟩
theorem wit_LeaseSteps_gang : ∃ (cl : Nat) (s : State), cl < 32 ∧ (∀ c ∈ coresOf cl, busyArray s c = false) ∧
    gangFormed s cl = true :=
  ⟨0, tAsk [(0, { leaseReq with gang := true }), (1, { leaseReq with gang := true }), (8, { leaseReq with gang := true }),
    (9, { leaseReq with gang := true })], by decide +kernel⟩
theorem wit_LeaseSteps_spent : ∃ (c : Nat) (s : State), (s.core c).lease.st = .held ∧ (s.core c).lease.since + 65536 ≤ s.cycle :=
  ⟨0, later 65536 (tAsk [(0, leaseHeld)]), by decide +kernel⟩
theorem wit_LeaseSteps_idle : ∃ (c d : Nat) (s : State), (s.core c).lease.st = .held ∧ (s.core c).lease.gang = false ∧
    d ∈ coresOf (clusterOf c) ∧ (s.core d).lease.st = .req ∧ busyArray s c = false ∧ (s.core c).lease.idle + 1024 ≤ s.cycle ∧
    (∀ e ∈ coresOf (clusterOf c), (s.core e).lease.st = .req → (s.core e).lease.since + 1024 ≤ s.cycle) :=
  ⟨0, 8, later 1024 (tAsk [(0, leaseHeld), (8, leaseReq)]), by decide +kernel⟩
def tGangLate : State := (later 1024 (tAsk [(0, { leaseReq with gang := true })])).modCluster 0 (fun k => { k with gangAt := some 0 })
theorem wit_LeaseSteps_late : ∃ (cl at_ c : Nat) (s : State), cl < 32 ∧ (s.cluster cl).gangAt = some at_ ∧ gangFormed s cl = false ∧
    at_ + 1024 ≤ s.cycle ∧ c ∈ coresOf cl ∧ (s.core c).lease.st = .req ∧ (s.core c).lease.gang = true ∧ (s.core c).mode = .u ∧
    (s.core c).live = true ∧ (s.core c).raised = none ∧ quiet (s.core c) .exe = true :=
  ⟨0, 0, 0, tGangLate, by decide +kernel⟩
theorem wit_LeaseSteps_nobody : ∃ (cl at_ : Nat) (s : State), (s.cluster cl).gangAt = some at_ ∧ gangFormed s cl = false ∧
    at_ + 1024 ≤ s.cycle ∧ (∀ c ∈ coresOf cl, (s.core c).lease.st ≠ .req) :=
  ⟨0, 0, (later 1024 tU).modCluster 0 (fun k => { k with gangAt := some 0 }), by decide +kernel⟩

/-- An operation, number 1, alone in a queue of core 0. -/
def tOp (x : TlCtx) (i : Instr) (args : List W64) (started : Bool) (s : State) : State :=
  s.modCore 0 (fun k => (k.setOps x [{ asOp i args with n := 1, started := started }]).setTl x { Tl.init with issued := 1, out := [1] })
def tCmd (i : Instr) (args : List W64) (started : Bool) (s : State) : State := tOp .mx i args started s
def zeroing : Instr := .mzero c0 0 3 127 508
def tZero (b : Bool) : State := tCmd zeroing [0] b (tA .exe [])
def headOf (s : State) : Op := opt (asOp .illegalEncoding []) (headOp s 0)
theorem wit_MatrixCommands_start : ∃ (c : Nat) (s : State) (o : Op), headOp s c = some o ∧ o.started = false ∧ mxReady s c o = true ∧
    productOf c o = none := by
  refine ⟨0, tZero false, headOf (tZero false), opt_eq _ _ ?_, ?_⟩ <;> decide +kernel
def multiplying : Instr := .mma c0 .e8 .e8 false true false (.handle 1) (.handle 2) 0 15 0 496 127 0 0
def tMul (b : Bool) (s : State) : State := tCmd multiplying [0, s.rH 1, 0, 0, 1, s.rH 2, 0, 0] b s
theorem wit_MatrixCommands_product : ∃ (c : Nat) (s : State) (o : Op) (p : Product), headOp s c = some o ∧ o.started = false ∧
    mxReady s c o = true ∧ productOf c o = some p ∧ p.gang = false ∧
    operandsNow s o.ctx (p.tiles (suppliesB c p)) = (none, false) := by
  refine ⟨0, tMul false tProd, headOf (tMul false tProd), prodMma, opt_eq _ _ ?_, ?_⟩ <;> decide +kernel
/-- The same while B is being filled. -/
def tProdLate : State := tProd.setFolio 0 1 { tProd.folio 0 1 with state := .filling }
theorem wit_MatrixCommands_waits : ∃ (c : Nat) (s : State) (o : Op) (p : Product), headOp s c = some o ∧ o.started = false ∧
    mxReady s c o = true ∧ productOf c o = some p ∧ p.gang = false ∧
    (operandsNow s o.ctx (p.tiles (suppliesB c p))).1 = none ∧ (operandsNow s o.ctx (p.tiles (suppliesB c p))).2 = true := by
  refine ⟨0, tMul false tProdLate, headOf (tMul false tProdLate), prodMma, opt_eq _ _ ?_, ?_⟩ <;> decide +kernel
theorem wit_MatrixCommands_zero : ∃ (c : Nat) (s : State) (o : Op) (cl : Clause) (m n zcol : BitVec 9) (zrow : BitVec 7),
    headOp s c = some o ∧ o.started = true ∧ mxReady s c o = true ∧ o.i = .mzero cl m n zrow zcol ∧ o.pins = [] ∧
    unpinPending s c .mx o.n = false := by
  refine ⟨0, tZero true, headOf (tZero true), c0, 0, 3, 508, 127, opt_eq _ _ ?_, ?_⟩ <;> decide +kernel
def draining : Instr := .mdrain c0 (.vregs 7) .b16 true false true none 3 15 0 0
/-- A drain to V registers, of the cell there and of one that has ended. -/
def tDrain : State := (tCmd draining [0, 0] true (tA .exe [])).modCore 0 (fun k =>
  ({ k with cell := 1 } : Core).setOps .mx ((k.opsOf .mx).map (fun o => { o with cell := 1 })))
def tDrainLate : State := tDrain.modCore 0 (fun k => { k with cell := 2 })
theorem wit_MatrixCommands_drain : ∃ (c : Nat) (s t : State) (o x : Op) (cl : Clause) (v : BitVec 9) (e : Elem) (sat clip z : Bool)
    (scl : Option (BitVec 5)) (m n zcol : BitVec 9) (zrow : BitVec 7),
    (headOp s c = some o ∧ o.started = true ∧ mxReady s c o = true ∧ o.i = .mdrain cl (.vregs v) e sat clip z scl m n zrow zcol ∧
      o.pins = [] ∧ unpinPending s c .mx o.n = false ∧ opLate s c o = false) ∧
    (headOp t c = some x ∧ x.started = true ∧ mxReady t c x = true ∧ x.i = o.i ∧ x.pins = [] ∧
      unpinPending t c .mx x.n = false ∧ opLate t c x = true) := by
  refine ⟨0, tDrain, tDrainLate, headOf tDrain, headOf tDrainLate, c0, 7, .b16, true, false, true, none, 3,
    15, 0, 0, ⟨opt_eq _ _ ?_, ?_⟩, opt_eq _ _ ?_, ?_⟩ <;> decide +kernel

def prodRun (s : State) : State := got s (productRun [(0, headOf s, prodMma)] s)
theorem wit_MatrixCommands_rows : ∃ (c : Nat) (s s1 : State) (o : Op) (p : Product), headOp s c = some o ∧ o.started = true ∧
    mxReady s c o = true ∧ productOf c o = some p ∧ p.gang = false ∧ productRun [(c, o, p)] s = .ok s1 := by
  refine ⟨0, tMul true tProd, prodRun (tMul true tProd), headOf (tMul true tProd), prodMma, opt_eq _ _ ?_, ?_, ?_,
    ?_, ?_, got_eq (tMul true tProd) (productRun [(0, headOf (tMul true tProd), prodMma)] (tMul true tProd)) ?_⟩ <;> decide +kernel
/-- The same behind its last row. -/
def tMulEnd : State := (tMul true tProd).modCore 0 (fun k => { k with mrowp := 1 })
theorem wit_MatrixCommands_unpins : ∃ (c : Nat) (s s1 : State) (o : Op) (p : Product), headOp s c = some o ∧
    productOf c o = some p ∧ productRun [(c, o, p)] s = .ok s1 ∧ Unpins s1 c .mx (nowOp s1 c .mx o) := by
  refine ⟨0, tMulEnd, prodRun tMulEnd, headOf tMulEnd, prodMma, opt_eq _ _ ?_, ?_,
    got_eq tMulEnd (productRun [(0, headOf tMulEnd, prodMma)] tMulEnd) ?_, unpins ?_⟩ <;> decide +kernel

theorem wit_MemoryStaysCanonical : ∃ s t : State, Memory.wf s.mem ∧ step s = .next t :=
  ⟨{ State.reset with agenda := [.issue 5 .ctl 0] }, { State.reset with cur := ⟨5, .ctl, 0⟩ }, by decide +kernel, rfl⟩

def opOf (x : TlCtx) (s : State) : Op := opt (asOp .illegalEncoding []) (opAt s 0 x 1)
def rowsOf (s : State) (x : TlCtx) (rows : Nat) (row : Nat → Op → State → ETry State) : State :=
  got s (opRows 0 x rows row (rows + 1) 1 s)
/-- A premise of an engine's step: an operation may run, its rows run to their end, nothing that they posted is out, and the
operation is still there. -/
abbrev RowsRan (x : TlCtx) (s s0 s1 : State) (o o1 : Op) (rows : Nat) (row : Nat → Op → State → ETry State) : Prop :=
  opAt s 0 x 1 = some o ∧ mayRun s 0 x o = true ∧ opAt s1 0 x 1 = some o1 ∧ partsOut s1 0 x 1 = false ∧ Unpins s1 0 x o1 ∧
    rows ≤ o1.pos ∧ opRows 0 x rows row (rows + 1) 1 s0 = .ok s1
theorem rows_ok (x : TlCtx) (s s0 : State) (rows : Nat) (row : Nat → Op → State → ETry State)
    (h : (opAt s 0 x 1).isSome = true ∧ mayRun s 0 x (opOf x s) = true) (r : isOk (opRows 0 x rows row (rows + 1) 1 s0) = true)
    (g : (opAt (rowsOf s0 x rows row) 0 x 1).isSome = true)
    (e : partsOut (rowsOf s0 x rows row) 0 x 1 = false ∧ rows ≤ (opOf x (rowsOf s0 x rows row)).pos)
    (u : Unpins (rowsOf s0 x rows row) 0 x (opOf x (rowsOf s0 x rows row))) :
    RowsRan x s s0 (rowsOf s0 x rows row) (opOf x s) (opOf x (rowsOf s0 x rows row)) rows row :=
  ⟨opt_eq _ _ h.1, h.2, opt_eq _ _ g, e.1, u, e.2, got_eq s0 _ r⟩
def tLdt : State := after (.ldt c0 .f32 1 5 10 0) (tBlock .fet)
theorem wit_EngineSteps_fill : ∃ (s s1 : State) (o o1 : Op),
    RowsRan .fa s (startRows 0 .fa o s) s1 o o1 2 (fillRow 0 .f32) ∧ o.arg 3 = 2 ∧ o.i = .ldt c0 .f32 1 5 10 0 ∧ o1.pins = [] ∧
    fillsLive s1 o1 = true := by
  refine ⟨tLdt, _, _, _, rows_ok .fa tLdt (startRows 0 .fa (opOf .fa tLdt) tLdt) 2 (fillRow 0 .f32) ?_ ?_ ?_ ?_ (unpins ?_),
    ?_⟩ <;> decide +kernel
def tCecIssued : State := after (.cec c0 6 0) tCec
theorem wit_EngineSteps_copy : ∃ (s s1 : State) (o o1 : Op), RowsRan .fa s s s1 o o1 2 (cecRow 0) ∧ 2 * cecCopies o = 2 ∧
    o.i = .cec c0 6 0 := by
  refine ⟨tCecIssued, _, _, _, rows_ok .fa tCecIssued _ 2 (cecRow 0) ?_ ?_ ?_ ?_ (unpins ?_), ?_⟩ <;> decide +kernel

/-- An operation of core 0 that has come to an element or a phase. -/
def tPos (x : TlCtx) (p : Nat) (data : SMap W32) (s : State) : State :=
  s.modCore 0 (fun k => k.setOps x ((k.opsOf x).map (fun o => { o with pos := p, started := true, data := data })))
/-- The last phase of a deduplication that found its page. -/
def tDedupIssued : State := tPos .fa 2 [(0, 1)] (after (.cedup c0 6 0) tDedup)
theorem wit_EngineSteps_dedup : ∃ (s s1 : State) (o o1 : Op), RowsRan .fa s s s1 o o1 3 (cedupRow 0) ∧ o.i = .cedup c0 6 0 := by
  refine ⟨tDedupIssued, _, _, _, rows_ok .fa tDedupIssued _ 3 (cedupRow 0) ?_ ?_ ?_ ?_ (unpins ?_), ?_⟩ <;> decide +kernel
/-- A rotation from device 5, whose contents have come. -/
def tRotFar : State := (tA .fet []).modCore 0 (fun k => ((k.setOps .fa [{ asOp (.rrot c0 2 1 1) [hTile, mkHandle 1 5 0 0 0 1 7, 4, 1, 1, 0, 1] with
    n := 1, pos := 1, started := true, asked := 1, got := [⟨0, [1, 2, 3, 4], 0⟩] }])).setTl .fa { Tl.init with issued := 1, out := [1] })
def tRotFill : State := tRotFar.setFolio 0 0 { Folio.init with count := 1, state := .filling, used := true, fmt := .i32, rows := 1, cols := 1, ngal := 1 }
theorem wit_EngineSteps_far : ∃ (s s1 : State) (o o1 : Op), RowsRan .fa s s s1 o o1 2 (rrotFar 0) ∧ o.i = .rrot c0 2 1 1 ∧
    homeHere s (o.args.getD 1 0) = false ∧ o1.pins = [] ∧ fillsLive s1 o1 = true := by
  refine ⟨tRotFill, _, _, _, rows_ok .fa tRotFill _ 2 (rrotFar 0) ?_ ?_ ?_ ?_ (unpins ?_), ?_⟩ <;> decide +kernel
def tRotIssued : State := after (.rrot c0 2 1 1) tRot
theorem wit_EngineSteps_near : ∃ (s : State) (o : Op), let h := o.args.getD 1 0
    let d := o.args.headD 0
    let x := s.folio (hCore h) (hFolio h)
    let y := s.folio (hCore d) (hFolio d)
    opAt s 0 .fa 1 = some o ∧ Unpins s 0 .fa o ∧ mayRun s 0 .fa o = true ∧ o.i = .rrot c0 2 1 1 ∧ homeHere s h = true ∧
    s.pick 6 = false ∧ o.pos = 0 ∧ partsOut s 0 .fa 1 = false ∧ x.state ≠ .filling ∧
    fillsLive s o = true ∧ y.first = o.arg 5 ∧ y.bytes ≤ 16384 * x.ngal ∧
    (hCore h ≠ hCore d ∨ Apart x.first x.ngal (o.arg 5) x.ngal) := by
  refine ⟨tRotIssued, opOf .fa tRotIssued, opt_eq _ _ ?_, unpins1 hTile ?_ ?_, ?_⟩ <;> decide +kernel
/-- The same while its source is being filled. -/
def tRotWaits : State := tRotIssued.setFolio 0 0 { tRotIssued.folio 0 0 with state := .filling }
theorem wit_EngineSteps_filling : ∃ (s : State) (o : Op), let h := o.args.getD 1 0
    opAt s 0 .fa 1 = some o ∧ mayRun s 0 .fa o = true ∧ o.i = .rrot c0 2 1 1 ∧ homeHere s h = true ∧ o.pos = 0 ∧
    (s.folio (hCore h) (hFolio h)).state = .filling := by
  refine ⟨tRotWaits, opOf .fa tRotWaits, opt_eq _ _ ?_, ?_⟩ <;> decide +kernel
def tStvIssued : State := after (.stv c0 .b16 true 1 2 10) (tBlock .emi)
theorem wit_EngineSteps_stv : ∃ (s : State) (o : Op),
    let d := o.args.headD 0
    let y := s.folio (hCore d) (hFolio d)
    let bs := ((List.range (o.arg 1)).map (fun r => packRow .b16 (narrowAll o.fpc true .b16 (capturedRow o.data (o.arg 2) r)).1)).flatten
    opAt s 0 .ea 1 = some o ∧ Unpins s 0 .ea o ∧ mayRun s 0 .ea o = true ∧ o.i = .stv c0 .b16 true 1 2 10 ∧ s.pick 6 = false ∧
    o.pos = 0 ∧ partsOut s 0 .ea 1 = false ∧ o.pins = [] ∧ fillsLive s o = true ∧ y.first = o.arg 3 ∧ bs.length ≤ y.bytes := by
  refine ⟨tStvIssued, opOf .ea tStvIssued, opt_eq _ _ ?_, unpins ?_, ?_⟩ <;> decide +kernel
def tSttIssued : State := after (.stt c0 .i32 1 5 10 0) tStore
theorem wit_EngineSteps_stt : ∃ (s s1 : State) (o o1 : Op), RowsRan .ea s s s1 o o1 6 (sttRow 0 .i32) ∧ o.arg 3 + 2 = 6 ∧
    o.i = .stt c0 .i32 1 5 10 0 := by
  refine ⟨tSttIssued, _, _, _, rows_ok .ea tSttIssued _ 6 (sttRow 0 .i32) ?_ ?_ ?_ ?_ (unpins1 hTile ?_ ?_), ?_⟩ <;> decide +kernel
/-- The last element of a block, inside a 64 by 16 by 1 by 1 tensor. -/
def tStredIssued : State := tPos .ea 1023 [] (after (.stred c0 .f32 .add false 30 6 0 0)
  ((tTensor.wr64 0x20202008 0x0001000100100040).wr64 0x20202010 256))
theorem wit_EngineSteps_stred : ∃ (s s1 : State) (o o1 : Op), RowsRan .ea s s s1 o o1 1024 (stredElem 0 .f32 .add false) ∧
    o.i = .stred c0 .f32 .add false 30 6 0 0 := by
  refine ⟨tStredIssued, _, _, _, rows_ok .ea tStredIssued _ 1024 (stredElem 0 .f32 .add false) ?_ ?_ ?_ ?_ (unpins ?_),
    ?_⟩ <;> decide +kernel
def tCollIssued : State := after (.cecol c0 8 6 0) (tDescs [(0, 0x3000), (8, 0x3100), (16, 4), (24, 0x00010001), (32, 0x00020002)])
def joined : State := got tCollIssued (joinColl 0 (opOf .fa tCollIssued) tCollIssued)
def firstJoin (s : State) : Nat × Op := opt (0, asOp .illegalEncoding []) ((collOps s 0).find? (fun p => p.2.pos = 0 && mayRun s p.1 .fa p.2))
theorem wit_EngineSteps_join : ∃ (s s1 : State) (c : Nat) (o : Op),
    (collOps s 0).find? (fun p => p.2.pos = 0 && mayRun s p.1 .fa p.2) = some (c, o) ∧ joinColl c o s = .ok s1 := by
  refine ⟨tCollIssued, joined, (firstJoin tCollIssued).1, (firstJoin tCollIssued).2, opt_eq (0, asOp .illegalEncoding []) _ ?_,
    got_eq' tCollIssued _ _ ?_ ?_⟩ <;> decide +kernel
def landed (s : State) : State :=
  got s (landColl 0 (collResult (s.dev % 256) (collHeads (s.coll 0).parts)) (opOf .fa s) s)
theorem wit_EngineSteps_land : ∃ (s s1 : State) (o : Op),
    (collOps s 0).find? (fun p => p.2.pos = 0 && mayRun s p.1 .fa p.2) = none ∧
    (collOps s 0).find? (fun p => p.2.pos = 2 && !partsOut s p.1 .fa p.2.n) = none ∧ (s.coll 0).failed = none ∧
    (s.coll 0).joined = some (0, 1) ∧ opAt s 0 .fa 1 = some o ∧ collReady (s.coll 0) = true ∧ (s.core 0).freeze = 0 ∧
    s.tripped = false ∧ landColl 0 (collResult (s.dev % 256) (collHeads (s.coll 0).parts)) o s = .ok s1 ∧
    partsOut s1 0 .fa 1 = false ∧ Unpins s1 0 .fa (nowOp s1 0 .fa o) := by
  refine ⟨joined, landed joined, opOf .fa joined, ?_, ?_, ?_, ?_, opt_eq _ _ ?_, ?_, ?_, ?_, got_eq joined _ ?_, ?_,
    unpins ?_⟩ <;> decide +kernel
/-- A collective whose result is written and acknowledged. -/
def tCollDone : State := tPos .fa 2 [] tCollIssued
theorem wit_EngineSteps_ended : ∃ (s : State) (c : Nat) (o : Op),
    (collOps s 0).find? (fun p => p.2.pos = 0 && mayRun s p.1 .fa p.2) = none ∧
    (collOps s 0).find? (fun p => p.2.pos = 2 && !partsOut s p.1 .fa p.2.n) = some (c, o) ∧ Unpins s c .fa o := by
  refine ⟨tCollDone, 0, opOf .fa tCollDone, ?_, ?_, unpins ?_⟩ <;> decide +kernel

/-- A copy of frame 0x20402 to the frame at 0x2040_1000 for virtual 0x1000, with counts at 0x2050_0000. -/
def theCow : Cow := ⟨0, 0x1000, 0x20012008, 0x20402, 0x20401000⟩
def tCow : State := { tStack with cows := [theCow] }
theorem wit_CopiesMade : ∃ (s : State) (k a b : Nat) (w : Cow), let r := s.root w.ctx
    s.cows[k]? = some w ∧ countPa s w.ctx (w.fresh / 4096) = some a ∧ countPa s w.ctx w.frame = some b ∧
    Apart w.fresh 4096 r 65536 ∧ Apart w.fresh 4096 a 4 ∧ Apart w.fresh 4096 b 4 ∧ Apart w.fresh 4096 w.leafPa 8 ∧
    Apart a 4 r 65536 ∧ Apart a 4 b 4 ∧ Apart a 4 w.leafPa 8 ∧ Apart w.leafPa 8 r 65536 ∧ Apart w.leafPa 8 b 4 :=
  ⟨tCow, 0, 0x20500004, 0x20500008, theCow, by decide +kernel⟩
theorem wit_CopiesMade_die : ∃ (s : State) (die : Nat), die < 2 ∧ mwf .init s.cores = true :=
  ⟨tU, 1, by decide +kernel⟩

/-- A launch accepted, no cell on any core. -/
def tWaiting : State := tLaunched.modCore 0 (fun k => { k with live := false })
def theLaunch : Launch := tLaunched.launches.headD (launchOf tU ⟨[], [], [], []⟩ 0)
theorem wit_DealerSteps_dispatch : ∃ (s : State) (o c : Nat) (l : Launch), chooseLaunch (withResv 0 s) 0 = some l ∧
    firstReady (withResv 0 s) l = some o ∧ placeFor (withResv 0 s) l 0 = some [c] ∧ l.preload = [] ∧ l.ready = [] ∧ (∀ e ∈ l.ends, e.core ≠ c) ∧
    s.launches.find? (fun x => x.id = l.id) = some l := ⟨tWaiting, 0, 0, theLaunch, by decide +kernel⟩
theorem wit_DealerSteps_word : ∃ (s : State) (pa : Nat), s.isFull pa = true :=
  ⟨{ tU with full := [0x20203000 / 8] }, 0x20203000, by decide +kernel⟩
/-- The launch in another state. -/
def tLn (f : Launch → Launch) : State := { tWaiting with launches := [f theLaunch] }
theorem wit_DealerSteps_done : ∃ (s : State) (l : Launch), s.launches.find? (fun x => x.id = l.id) = some l ∧ l.ends = [] ∧
    l.st = .running ∧ l.done = l.total ∧ l.complete = 0 ∧ partsPending s l = false :=
  ⟨tLn (fun l => { l with st := .running, done := 1 }), { theLaunch with st := .running, done := 1 }, by decide +kernel⟩
theorem wit_DealerSteps_faulted : ∃ (s : State) (l : Launch), s.launches.find? (fun x => x.id = l.id) = some l ∧ l.ends = [] ∧
    l.st = .faulted ∧ cellsOf s l.id = [] ∧ l.outCells = 0 :=
  ⟨tLn (fun l => { l with st := .faulted }), { theLaunch with st := .faulted }, by decide +kernel⟩
def doneLaunch : Launch := { theLaunch with st := .running, done := 1, complete := 0x3000 }
def devPlaceOf (s : State) (l : Launch) : State × Nat := got (s, 0) (devPlace s l.ctx l.complete.toNat)
theorem devPlaceOf_eq (s : State) (l : Launch) (h : isOk (devPlace s l.ctx l.complete.toNat) = true) :
    devPlace s l.ctx l.complete.toNat = .ok ((devPlaceOf s l).1, (devPlaceOf s l).2) := got_eq _ _ h
theorem wit_DealerSteps_complete : ∃ (s s1 : State) (l : Launch) (pa : Nat), s.launches.find? (fun x => x.id = l.id) = some l ∧
    l.ends = [] ∧ l.st = .running ∧ l.done = l.total ∧ partsPending s l = false ∧ l.complete ≠ 0 ∧ devPlace s l.ctx l.complete.toNat = .ok (s1, pa) ∧
    pa % 8 = 0 ∧ NoPark s1 pa := by
  refine ⟨tLn (fun _ => doneLaunch), (devPlaceOf (tLn (fun _ => doneLaunch)) doneLaunch).1, doneLaunch,
    (devPlaceOf (tLn (fun _ => doneLaunch)) doneLaunch).2, ?_, ?_, ?_, ?_,
    ?_, ?_, devPlaceOf_eq _ _ ?_, ?_⟩ <;> decide +kernel
theorem wit_DealerSteps_period : ∃ s : State, s.periodStart + s.presslen ≤ s.cycle ∧ s.budgetNext = [(3, 5)] :=
  ⟨{ later 65536 tU with budgetNext := [(3, 5)] }, by decide +kernel⟩
/-- Class 5 on die 1 has a budget of 100 of resource 2, and has used some. -/
def tBudget (used : Nat) : State := { tU with budget := [(5 * 8 + 2, 100)], used := [(acct 1 5 2, used)] }
theorem wit_DealerSteps_budget : ∃ (s : State) (die cls res b : Nat), s.allow die cls res = some b ∧ s.held die cls = false ∧ die < 2 ∧
    b ≤ mget 0 s.used (acct die cls res) := ⟨tBudget 100, 1, 5, 2, 100, by decide +kernel⟩
theorem wit_DealerSteps_below : ∃ (s : State) (die cls res b : Nat), s.allow die cls res = some b ∧ s.held die cls = false ∧ die < 2 ∧
    mget 0 s.used (acct die cls res) < b := ⟨tBudget 99, 1, 5, 2, 100, by decide +kernel⟩
def anc0 : Anchor := ⟨0, 0, 0⟩
/-- The ends of the stream of `tEnds`. -/
def rend0 (s : State) : REnd := opt ⟨anc0, 0, 0, none, [], 0, none, false, 0, 0, false, false⟩ ((s.core 0).rend anc0)
def wend0 (s : State) : WEnd := opt ⟨anc0, 0, 0, 0, 0, 0, false, 0, false, 0⟩ ((s.core 0).wend anc0)
theorem rend0_eq (s : State) (h : ((s.core 0).rend anc0).isSome = true) : (s.core 0).rend anc0 = some (rend0 s) := opt_eq _ _ h
theorem wend0_eq (s : State) (h : ((s.core 0).wend anc0).isSome = true) : (s.core 0).wend anc0 = some (wend0 s) := opt_eq _ _ h
/-- Context 0's launch stream, with a record like `tRec`'s in its read end. -/
def itemOf (l : List W64) : Item := ⟨l, 0, false⟩
def tLs4 : State := (tEnds.modCore 0 (fun k => { k with rends := k.rends.map (fun e => { e with
    q := [itemOf [0x100001, 0, 0, 0, 0, 0, 0, 1], itemOf [0, 1, 0, 0, 0, 0, 0, 0], itemOf (List.replicate 8 0), itemOf (List.replicate 8 0)] }) })).modCtx 0
  (fun x => { x with en := true, ls := some ⟨0, 0, 0⟩ })
def tookRec (s : State) : State := (List.range 4).foldl (fun (s : State) _ => takeItem 0 anc0 s) s
def recWords : List W64 := ((tLs4.core 0).rends.head?.map (fun e => ((e.q.take 4).map (·.words)).flatten)).getD []
theorem wit_DealerSteps_record : ∃ (s s1 : State) (ctx : Nat) (a : Anchor) (e : REnd) (rc : Rec) (r : List W64),
    (s.ctx ctx).ls = some a ∧ (s.core 0).rend a = some e ∧ 4 ≤ e.q.length ∧ (∀ it ∈ e.q.take 4, it.poison = false ∧ it.mask = 0) ∧
    r = ((e.q.take 4).map (·.words)).flatten ∧ recordBad r = none ∧ rf r 24 56 8 = 0 ∧ rf r 25 56 8 = 0 ∧
    s1 = (List.range 4).foldl (fun (s : State) _ => takeItem 0 a s) s ∧ tablesBad s1 r [] [] (some ctx) = .ok rc ∧
    rc.streams = [] ∧ (launchOf s1 rc s.nextLaunch).ready = [] ∧ (∀ l ∈ s.launches, l.id ≠ s.nextLaunch) := by
  refine ⟨tLs4, tookRec tLs4, 0, anc0, rend0 tLs4, ⟨recWords, [], [], []⟩, recWords, ?_, rend0_eq _ ?_,
    ?_, ?_, ?_, ?_, ?_, ?_, rfl, ?_, rfl, ?_⟩ <;> decide +kernel

/-- Messages in flight on the device of `tTile`. -/
def tMsg (l : List Msg) (s : State) : State := { s with msgs := l }
def hT : W64 := tTile.rH 1
theorem wit_CountMessages_up : ∃ (s : State) (k src : Nat) (st : Strand) (h : W64) (n : Int) (why : DeltaFor) (at_ : Nat) (sup : Bool),
    let x := s.folio (hCore h) (hFolio h)
    s.msgs[k]? = some (.delta src st h n why at_ sup) ∧ oldestCount s k src h = true ∧ homeHere s h = true ∧
    (why = .dup 3) ∧ x.used = true ∧ x.gen = hGen h ∧ 0 < x.count + n ∧ x.count + n ≤ 2 ^ 24 - 1 :=
  ⟨tMsg [.delta 1 .ctl hT 1 (.dup 3) 0 false] tTile, 0, 1, .ctl, hT, 1, .dup 3, 0, false, by decide +kernel⟩
theorem wit_CountMessages_free : ∃ (s : State) (k src : Nat) (st : Strand) (h : W64) (n : Int) (why : DeltaFor) (at_ : Nat) (sup : Bool),
    let x := s.folio (hCore h) (hFolio h)
    s.msgs[k]? = some (.delta src st h n why at_ sup) ∧ oldestCount s k src h = true ∧ homeHere s h = true ∧
    (why = .drop) ∧ x.used = true ∧ x.gen = hGen h ∧ x.count + n ≤ 0 :=
  ⟨tMsg [.delta 1 .ctl hT (-1) .drop 0 false] tTile, 0, 1, .ctl, hT, -1, .drop, 0, false, by decide +kernel⟩
theorem wit_CountMessages_stale : ∃ (s : State) (k src : Nat) (st : Strand) (h : W64) (n : Int) (why : DeltaFor) (at_ : Nat) (sup : Bool),
    let x := s.folio (hCore h) (hFolio h)
    s.msgs[k]? = some (.delta src st h n why at_ sup) ∧ oldestCount s k src h = true ∧ homeHere s h = true ∧
    (x.used = false ∨ x.gen ≠ hGen h) ∧ why = .drop :=
  ⟨tMsg [.delta 1 .ctl hT (-1) .drop 0 false] tU, 0, 1, .ctl, hT, -1, .drop, 0, false, by decide +kernel⟩
/-- The second of two references of the tile is an operation's of core 1, and its unpin has come. -/
def tUnpin (l : List Msg) : State := tMsg (.delta 1 .ctl hT (-1) (.unpin .fa 3) 0 false :: l)
  ((tTile.setFolio 0 0 { tTile.folio 0 0 with count := 3 }).modCore 1 (fun k => k.setTl .fa { Tl.init with issued := 3, out := [3] }))
theorem wit_CountMessages_unpin : ∃ (s : State) (k src m at_ : Nat) (st : Strand) (h : W64) (x : TlCtx) (sup : Bool),
    let y := s.folio (hCore h) (hFolio h)
    s.msgs[k]? = some (.delta src st h (-1) (.unpin x m) at_ sup) ∧ oldestCount s k src h = true ∧ homeHere s h = true ∧
    y.used = true ∧ y.gen = hGen h ∧ 1 < y.count ∧ y.count ≤ 2 ^ 24 - 1 ∧ unpinPending (dropMsg s k) src x m = false :=
  ⟨tUnpin [], 0, 1, 3, 0, .ctl, hT, .fa, false, by decide +kernel⟩
theorem wit_CountMessages_unpinMore : ∃ (s : State) (k src m at_ : Nat) (st : Strand) (h : W64) (x : TlCtx) (sup : Bool),
    let y := s.folio (hCore h) (hFolio h)
    s.msgs[k]? = some (.delta src st h (-1) (.unpin x m) at_ sup) ∧ oldestCount s k src h = true ∧ homeHere s h = true ∧
    y.used = true ∧ y.gen = hGen h ∧ 1 < y.count ∧ y.count ≤ 2 ^ 24 - 1 ∧ unpinPending (dropMsg s k) src x m = true :=
  ⟨tUnpin [.delta 1 .ctl hT (-1) (.unpin .fa 3) 1 false], 0, 1, 3, 0, .ctl, hT, .fa, false, by decide +kernel⟩
def refusal : Refused := { cause := 0x31, handle := hT, st := .ctl, due := 64, fromS := false }
def tRefused : State := (later 64 tU).modCore 0 (fun k => { k with refused := [refusal] })
theorem wit_CountMessages_trap : ∃ (s : State) (c : Nat) (r : Refused), (s.core c).refused = [r] ∧ r.due ≤ s.cycle ∧ r.cause < 0xB1 ∧
    (s.core c).live = true ∧ (s.core c).stopped = false ∧ ((s.core c).strand r.st).asked = 0 ∧ EntersNow s c r.st := by
  refine ⟨tRefused, 0, refusal, ?_, ?_, ?_, ?_, ?_, ?_,
    ⟨?_, ?_, ?_⟩⟩ <;> decide +kernel
/-- A proxy's handle to the tile of `tTile`, of weight 2. -/
def hW : W64 := mkHandle 1 0 0 0 0 2 7
/-- The tile with three references, two of them a proxy's, with some weight out. -/
def tExp (n : Nat) : State := tMsg [.weight 1 .ctl hW] (tTile.setFolio 0 0 { tTile.folio 0 0 with count := n, expc := 2, expw := 2 })
theorem wit_CountMessages_weight : ∃ (s : State) (k src : Nat) (st : Strand) (h : W64), let x := s.folio (hCore h) (hFolio h)
    s.msgs[k]? = some (.weight src st h) ∧ oldestCount s k src h = true ∧ homeHere s h = true ∧ x.used = true ∧ x.gen = hGen h ∧
    x.expw ≤ 2 ^ (hWeight h - 1) ∧ x.expc < x.count := ⟨tExp 3, 0, 1, .ctl, hW, by decide +kernel⟩
theorem wit_CountMessages_last : ∃ (s : State) (k src : Nat) (st : Strand) (h : W64), let x := s.folio (hCore h) (hFolio h)
    s.msgs[k]? = some (.weight src st h) ∧ oldestCount s k src h = true ∧ homeHere s h = true ∧ x.used = true ∧ x.gen = hGen h ∧
    x.expw ≤ 2 ^ (hWeight h - 1) ∧ x.count ≤ x.expc := ⟨tExp 2, 0, 1, .ctl, hW, by decide +kernel⟩

def tItemMsg : State := tMsg [.item anc0 0 words8 0 0 1 0] tEnds
theorem wit_StreamSteps_item : ∃ (s : State) (k : Nat) (a : Anchor) (n : Nat) (it : Item) (c src sq : Nat) (e : REnd),
    s.msgs[k]? = some (.item a n it c src sq (s.dev % 256)) ∧ (s.core c).rend a = some e ∧ e.fetching = false ∧ e.hq.isSome = true ∧
    n = e.qtop ∧ e.q.length < 32 := by
  refine ⟨tItemMsg, 0, anc0, 0, words8, 0, 0, 1, rend0 tItemMsg, ?_, rend0_eq _ ?_,
    ?_⟩ <;> decide +kernel
/-- A slot of the stock full. -/
def tSlot : State := got tEnds (slotWrite tEnds anc0 0 words8)
def sideOf0 : State × Nat := got (tSlot, 0) (stockPlace tSlot anc0 (64 * 2 ^ ancK tSlot anc0))
theorem wit_StreamSteps_refill : ∃ (s s1 : State) (c k : Nat) (e : REnd) (pb : Nat), let j := slotOfItem s e.anc e.qtop
    (s.core c).rends[k]? = some e ∧ e.hq.isSome = true ∧ e.q.length < 32 ∧ ancHere s e.anc = true ∧
    stockFault s e.anc j = false ∧ slotFull s e.anc j = true ∧
    stockPlace s e.anc (64 * 2 ^ ancK s e.anc + 2 * j) = .ok (s1, pb) ∧ s1.core c = s.core c := by
  refine ⟨tSlot, sideOf0.1, 0, 0, rend0 tSlot, sideOf0.2, ?_, ?_, ?_, ?_, ?_, ?_,
    got_eq' (tSlot, 0) _ _ ?_ ?_, ?_⟩ <;> decide +kernel
def tMsg_stop : State := tMsg [.stop anc0 0] tEnds
theorem wit_StreamSteps_stop : ∃ (s : State) (k c : Nat) (a : Anchor) (e : WEnd), (s.core c).wend a = some e ∧
    msgAt s k = some (.stop a c) ∧ a.dev = s.dev % 256 := by
  refine ⟨tMsg_stop, 0, 0, anc0, wend0 tMsg_stop, wend0_eq _ ?_, ?_⟩ <;> decide +kernel
def tMsg_go : State := tMsg [.go anc0 0 7] tEnds
theorem wit_StreamSteps_go : ∃ (s : State) (k c : Nat) (a : Anchor) (e : WEnd), (s.core c).wend a = some e ∧
    msgAt s k = some (.go a c 7) ∧ a.dev = s.dev % 256 := by
  refine ⟨tMsg_go, 0, 0, anc0, wend0 tMsg_go, wend0_eq _ ?_, ?_⟩ <;> decide +kernel
def tMsg_rebind : State := tMsg [.rebind anc0 0 0 5 true false 0] tEnds
theorem wit_StreamSteps_rebind : ∃ (s : State) (k c : Nat) (a : Anchor) (e : WEnd), (s.core c).wend a = some e ∧
    msgAt s k = some (.rebind a c 0 5 true false 0) ∧ a.dev = s.dev % 256 := by
  refine ⟨tMsg_rebind, 0, 0, anc0, wend0 tMsg_rebind, wend0_eq _ ?_, ?_⟩ <;> decide +kernel
def tMsg_orphan : State := tMsg [.orphan anc0 0 false 1 none] tEnds
theorem wit_StreamSteps_orphan : ∃ (s : State) (k c : Nat) (a : Anchor) (e : WEnd), (s.core c).wend a = some e ∧
    msgAt s k = some (.orphan a c false 1 none) ∧ a.dev = s.dev % 256 := by
  refine ⟨tMsg_orphan, 0, 0, anc0, wend0 tMsg_orphan, wend0_eq _ ?_, ?_⟩ <;> decide +kernel
/-- The notice that the writer closed before its first item, and before an item that is not placed yet. -/
def tReaderMsg (n : Nat) : State := tMsg [.orphan anc0 0 true 1 (some n)] tEnds
theorem wit_StreamSteps_reader : ∃ (s : State) (k c cause : Nat) (fin : Option Nat) (a : Anchor) (e : REnd), (s.core c).rend a = some e ∧
    msgAt s k = some (.orphan a c true cause fin) ∧ noticeDue s e fin = true := by
  refine ⟨tReaderMsg 0, 0, 0, 1, some 0, anc0, rend0 (tReaderMsg 0), rend0_eq _ ?_, ?_⟩ <;> decide +kernel
theorem wit_StreamSteps_readerWaits : ∃ (s : State) (k c cause : Nat) (fin : Option Nat) (a : Anchor) (e : REnd),
    (s.core c).rend a = some e ∧ msgAt s k = some (.orphan a c true cause fin) ∧ noticeDue s e fin = false := by
  refine ⟨tReaderMsg 1, 0, 0, 1, some 1, anc0, rend0 (tReaderMsg 1), rend0_eq _ ?_, ?_⟩ <;> decide +kernel
theorem wit_StreamSteps_ack : ∃ (s : State) (k c : Nat) (a : Anchor), msgAt s k = some (.rebound a c) :=
  ⟨tMsg [.rebound anc0 0] tEnds, 0, 0, anc0, by decide +kernel⟩
theorem wit_StreamSteps_clear : ∃ (s : State) (k n : Nat) (a : Anchor), s.clears[k]? = some (a, n) ∧ stockFault s a n = false :=
  ⟨{ tEnds with clears := [(anc0, 0)] }, 0, 0, anc0, by decide +kernel⟩
/-- The same once nothing is mapped. -/
theorem wit_StreamSteps_clearFault : ∃ (s : State) (k n : Nat) (a : Anchor), s.clears[k]? = some (a, n) ∧ stockFault s a n = true :=
  ⟨{ tEnds with clears := [(anc0, 0)], ctxs := [] }, 0, 0, anc0, by decide +kernel⟩

theorem wit_RasSteps_bank : ∃ (s : State) (c b : Nat), b ≤ 98 ∧ (s.core c).lease.st ≠ .held ∧ mget 0 (s.core c).bankCnt b + 1 ≤ (s.core c).rasthr :=
  ⟨tU, 0, 98, by decide +kernel⟩
theorem wit_RasSteps_withdrawn : ∃ (s : State) (c b : Nat), b ≤ 98 ∧ (s.core c).lease.st ≠ .held ∧
    (s.core c).rasthr < mget 0 (s.core c).bankCnt b + 1 ∧ b ∉ (s.core c).withdrawn :=
  ⟨tC (fun k => { k with bankCnt := [(0, 3)] }), 0, 0, by decide +kernel⟩
theorem wit_RasSteps_end : ∃ (s : State) (c : Nat), (s.core c).freeze ≤ s.cycle := ⟨later 48 (tC (fun k => { k with freeze := 48 })), 0, by decide +kernel⟩
theorem wit_RasSteps_window : ∃ (s : State) (c : Nat), (s.core c).winStart + (s.core c).raswin ≤ s.cycle :=
  ⟨later 4294967296 tU, 0, by decide +kernel⟩
theorem wit_RasSteps_memory : ∃ i : Nat, memOk i = true := ⟨0x20203000, by decide +kernel⟩
theorem wit_RasSteps_monitor : ∃ (s : State) (c : Nat), (s.core c).mode = .m ∧ (s.core c).raised = none ∧ quiet (s.core c) .ctl = true :=
  ⟨tMode .m tU, 0, by decide +kernel⟩
theorem wit_RasSteps_watchdog : ∃ (s : State) (c : Nat), (s.core c).mode ≠ .m ∧ (s.core c).raised = none ∧ quiet (s.core c) .ctl = true ∧
    memOk ((s.core c).monvec &&& 0x000FFFFFFFFFFFFC).toNat = true := ⟨tC (fun k => { k with monvec := 0x10000080 }), 0, by decide +kernel⟩

/-- A request of device 9 for the window on 2 MiB of context 0. -/
def pkt (op : Nat) (pay : List Byte) : Packet :=
  { port := 3, dst := 0, src := 9, cls := 0, op, seq := 0, wid := 0, key := 77, off := 0x3000, len := 7, core := 0, det := false, payload := pay }
def tPkt (p : Packet) : State :=
  { tU.modCtx 0 (fun x => { x with en := true, exps := [(0, [7, 0, 0x200000, 77])] }) with net := { Net.init with inbox := [p] } }
theorem due (s : State) (k : Nat) (p : Packet) (op : Nat) (h : s.net.inbox[k]? = some p ∧ p.op = op ∧
    (p.cls = 1 ↔ 4 ≤ op ∧ op ≤ 6) ∧ (p.port ≠ 30 ∧ p.port ≠ 31 ∧ p.port < 62) ∧ (p.last = false ∧ p.seq < 2 ^ 32) ∧ p.seq = wanted s p) :
    PktDue s k p op := ⟨h.1, h.2.1, h.2.2.1, h.2.2.2.1, h.2.2.2.2.1, h.2.2.2.2.2⟩
def exported (p : Packet) (r w : Bool) : Into × State := got (.va 0 0, tPkt p) (checkExport ((tPkt p).taken 0 p) p r w)
def served (p : Packet) (r w : Bool) : Nat × Bool × State := got (0, false, tPkt p) (servePlace (exported p r w).2 0 0x3000 w)
/-- A request passes the check unit and its address translates. -/
theorem serves (p : Packet) (r w : Bool) (h : isOk (checkExport ((tPkt p).taken 0 p) p r w) = true) (e : (exported p r w).1 = .va 0 0x3000)
    (g : isOk (servePlace (exported p r w).2 0 0x3000 w) = true) :
    checkExport ((tPkt p).taken 0 p) p r w = .ok (.va 0 0x3000, (exported p r w).2) ∧
      servePlace (exported p r w).2 0 0x3000 w = .ok ((served p r w).1, (served p r w).2.1, (served p r w).2.2) :=
  ⟨by rw [← e]; exact got_eq _ _ h, got_eq _ _ g⟩
theorem wit_PacketSteps_read : ∃ (s s1 s2 : State) (ctx va pa : Nat) (tg : Bool) (p : Packet), PktDue s 0 p 0 ∧
    (checkExport (s.taken 0 p) p true false = .ok (.va ctx va, s1) ∧ servePlace s1 ctx va false = .ok (pa, tg, s2)) ∧ s2.bad pa (p.len + 1) = false := by
  refine ⟨tPkt (pkt 0 []), _, _, 0, 0x3000, _, _, pkt 0 [], due _ _ _ _ ?_, serves (pkt 0 []) true false ?_ ?_ ?_, ?_⟩ <;> decide +kernel
def pktW : Packet := pkt 1 [1, 2, 3, 4, 5, 6, 7, 8]
theorem wit_PacketSteps_write : ∃ (s s1 s2 : State) (ctx va pa : Nat) (tg : Bool) (p : Packet), PktDue s 0 p 1 ∧
    (checkExport (s.taken 0 p) p false true = .ok (.va ctx va, s1) ∧ servePlace s1 ctx va true = .ok (pa, tg, s2)) := by
  refine ⟨tPkt pktW, _, _, 0, 0x3000, _, _, pktW, due _ _ _ _ ?_, serves _ false true ?_ ?_ ?_⟩ <;> decide +kernel
theorem wit_PacketSteps_rmw : ∃ (s s1 s2 : State) (ctx va pa : Nat) (tg : Bool) (p : Packet) (op : AtomOp), PktDue s 0 p 2 ∧
    atomOf (payByte p 0) = some op ∧ (payByte p 1 = 4 ∨ payByte p 1 = 8) ∧
    (checkExport (s.taken 0 p) p true true = .ok (.va ctx va, s1) ∧ servePlace s1 ctx va true = .ok (pa, tg, s2)) ∧ s2.bad pa (payByte p 1) = false := by
  refine ⟨tPkt (pkt 2 [0, 8, 5, 0, 0, 0, 0, 0, 0, 0]), _, _, 0, 0x3000, _, _, pkt 2 [0, 8, 5, 0, 0, 0, 0, 0, 0, 0], .add,
    due _ _ _ _ ?_, ?_, ?_, serves _ true true ?_ ?_ ?_, ?_⟩ <;> decide +kernel
theorem wit_PacketSteps_cas : ∃ (s s1 s2 : State) (ctx va pa : Nat) (tg : Bool) (p : Packet), PktDue s 0 p 3 ∧
    (payByte p 0 = 4 ∨ payByte p 0 = 8) ∧
    (checkExport (s.taken 0 p) p true true = .ok (.va ctx va, s1) ∧ servePlace s1 ctx va true = .ok (pa, tg, s2)) ∧ s2.bad pa (payByte p 0) = false := by
  refine ⟨tPkt (pkt 3 ([8] ++ leBytes 8 0 ++ leBytes 8 1)), _, _, 0, 0x3000, _, _, pkt 3 ([8] ++ leBytes 8 0 ++ leBytes 8 1),
    due _ _ _ _ ?_, ?_, serves _ true true ?_ ?_ ?_, ?_⟩ <;> decide +kernel
def errOf {ε α : Type} (d : ε) (x : Except ε α) : ε := match x with | .ok _ => d | .error e => e
theorem err_eq {ε α : Type} (d : ε) (x : Except ε α) (h : isOk x = false) : x = .error (errOf d x) := by
  cases x
  · rfl
  · cases h
theorem wit_PacketSteps_refused : ∃ (s : State) (p : Packet) (cause : Nat), PktDue s 0 p 3 ∧ payByte p 0 = 8 ∧
    checkExport (s.taken 0 p) p true true = .error cause := by
  refine ⟨tPkt { pkt 3 [8] with key := 78 }, { pkt 3 [8] with key := 78 }, 0x90, due _ _ _ _ ?_, ?_⟩ <;> decide +kernel
theorem wit_PacketSteps_unread : ∃ (s : State) (p : Packet) (cause : Nat), PktDue s 0 p 0 ∧
    checkExport (s.taken 0 p) p true false = .error cause := by
  refine ⟨tPkt { pkt 0 [] with off := 0x200000 }, { pkt 0 [] with off := 0x200000 }, 0x91, due _ _ _ _ ?_, ?_⟩ <;> decide +kernel
theorem wit_PacketSteps_unwritten : ∃ (s : State) (p : Packet) (cause : Nat), PktDue s 0 p 1 ∧
    checkExport (s.taken 0 p) p false true = .error cause := by
  refine ⟨tPkt { pktW with wid := 1 }, { pktW with wid := 1 }, 0x91, due _ _ _ _ ?_, ?_⟩ <;> decide +kernel
/-- A write seen already, the last of the numbers before it, and one that is early by one. -/
theorem wit_PacketSteps_twice : ∃ (s : State) (p : Packet), s.net.inbox[0]? = some p ∧ p.op = 1 ∧ p.cls = 0 ∧ p.port < 30 ∧
    p.seq ≠ wanted s p ∧ (wanted s p + 2 ^ 32 - p.seq) % 2 ^ 32 < 2 ^ 31 :=
  ⟨tPkt { pktW with seq := 2 ^ 32 - 1 }, { pktW with seq := 2 ^ 32 - 1 }, by decide +kernel⟩
theorem wit_PacketSteps_early : ∃ (s : State) (p : Packet), s.net.inbox[0]? = some p ∧ p.op = 1 ∧ p.cls = 0 ∧ p.port < 30 ∧
    p.seq ≠ wanted s p ∧ 2 ^ 31 ≤ (wanted s p + 2 ^ 32 - p.seq) % 2 ^ 32 :=
  ⟨tPkt { pktW with seq := 1 }, { pktW with seq := 1 }, by decide +kernel⟩
/-- A response of device 9 to a request that waits. -/
def resp (op : Nat) (pay : List Byte) : Packet := { pkt op pay with cls := 1, off := answerKey 0 0 }
def asked9 (why : ReqFor) : OutPkt := ⟨{ pkt 0 [] with dst := 9, src := 0 }, why, 0, 0, none⟩
def tResp (op : Nat) (why : ReqFor) (pay : List Byte) : State :=
  { tC (fun k => k.modStrand .ctl (fun x => { x with asked := 1 })) with
      net := { Net.init with inbox := [resp op pay], outs := [asked9 why] } }
theorem wit_PacketSteps_answer : ∃ (s t : State) (c : Nat) (p q : Packet) (o : OutPkt) (st : Strand) (n : Nat),
    s.net.outs.find? (fun o => o.pkt.dst = p.src && answerKey o.pkt.cls o.pkt.seq = p.off) = some o ∧
    o.why = .answer c st n ∧ ((s.core c).strand st).asked ≠ 0 ∧ PktDue s 0 p 4 ∧ t.net.outs = s.net.outs ∧ PktDue t 0 q 6 := by
  refine ⟨tResp 4 (.answer 0 .ctl 0) [9], tResp 6 (.answer 0 .ctl 0) [0x90], 0, resp 4 [9], resp 6 [0x90],
    asked9 (.answer 0 .ctl 0), .ctl, 0, ?_, rfl, ?_, due _ _ _ _ ?_, rfl, due _ _ _ _ ?_⟩ <;> decide +kernel
theorem wit_PacketSteps_posted : ∃ (s : State) (c : Nat) (p : Packet) (o : OutPkt) (st : Strand) (w : Nat) (va : W64) (cell ctx : Nat)
    (launch : W64), s.net.outs.find? (fun o => o.pkt.dst = p.src && answerKey o.pkt.cls o.pkt.seq = p.off) = some o ∧
    o.why = .posted c st w va cell ctx launch ∧ w < 8 ∧ PktDue s 0 p 5 := by
  refine ⟨tResp 5 (.posted 0 .ctl 7 0 0 0 0) [], 0, resp 5 [], asked9 (.posted 0 .ctl 7 0 0 0 0), .ctl, 7, 0, 0, 0, 0,
    ?_, rfl, ?_, due _ _ _ _ ?_⟩ <;> decide +kernel
/-- A response that waits, and its acknowledgement. -/
def lastAck : Packet := { pkt 5 [] with cls := 1, off := answerKey 1 0 }
def answered9 : OutPkt := ⟨{ pkt 4 [] with dst := 9, src := 0, cls := 1 }, .other 32, 0, 0, none⟩
theorem wit_PacketSteps_settled : ∃ (s : State) (p : Packet) (o : OutPkt),
    s.net.outs.find? (fun o => o.pkt.dst = p.src && answerKey o.pkt.cls o.pkt.seq = p.off) = some o ∧ o.why = .other 32 ∧
    s.net.inbox[0]? = some p ∧ p.op = 5 ∧ p.last = true ∧ p.port < 30 :=
  ⟨{ tU with net := { Net.init with inbox := [lastAck], outs := [answered9] } }, lastAck, answered9, by decide +kernel⟩
theorem wit_PacketSteps_token : ∃ (s s1 : State) (ctx va : Nat) (p : Packet), PktDue s 0 p 9 ∧ payByte p 0 = 0 ∧
    (∀ t ∈ s.lentTok, ¬(t.wid = p.wid ∧ t.region = p.off / 2 ^ 21)) ∧ checkExport (s.taken 0 p) p true false = .ok (.va ctx va, s1) ∧
    s.lentTok.length < 1024 := by
  refine ⟨tPkt (pkt 9 [0]), _, 0, 0x3000, pkt 9 [0], due _ _ _ _ ?_, ?_, ?_,
    (serves (pkt 9 [0]) true false ?_ ?_ ?_).1, ?_⟩ <;> decide +kernel
theorem wit_PacketSteps_collective : ∃ (s : State) (p : Packet), PktDue s 0 p 11 ∧ payByte p 2 < 128 ∧
    (s.coll (leNat (p.payload.take 2))).parts = [] := by
  refine ⟨tPkt (pkt 11 (List.replicate 16 1)), pkt 11 (List.replicate 16 1), due _ _ _ _ ?_, ?_⟩ <;> decide +kernel
theorem wit_PacketSteps_bad : ∃ (s t : State) (p q : Packet), 12 ≤ p.op ∧ s.net.inbox[0]? = some p ∧ (p.port = 30 ∨ p.port = 31) ∧
    12 ≤ q.op ∧ PktDue t 0 q q.op := by
  refine ⟨tPkt { pkt 12 [] with port := 31 }, tPkt (pkt 15 []), { pkt 12 [] with port := 31 }, pkt 15 [], ?_, ?_, ?_, ?_,
    due _ _ _ _ ?_⟩ <;> decide +kernel

def outTo9 : OutPkt := ⟨{ pkt 0 [] with dst := 9, src := 0 }, .other 32, 0, 0, some 8⟩
def tNet (n : Nat) (x : Net) : State := { later n tU with net := x }
theorem wit_LinksAndLosses_again : ∃ (s : State) (k : Nat) (o : OutPkt), s.net.outs[k]? = some o ∧ o.sent + 16384 ≤ s.cycle ∧
    o.pkt.dst ≠ s.dev % 256 ∧ (∃ b ∈ minimalPorts (s.dev % 256) o.pkt.dst, b ∈ s.net.up ∧ b < 30 ∧ some b ≠ o.port) :=
  ⟨tNet 16384 { Net.init with outs := [{ outTo9 with port := some 29 }], up := List.range 30 }, 0, { outTo9 with port := some 29 }, by decide +kernel⟩
theorem wit_LinksAndLosses_lost : ∃ (s : State) (dev : Nat) (o : OutPkt), dev ≠ s.dev % 256 ∧ o ∈ s.net.outs ∧
    o.pkt.dst = dev ∧ o.first + 2 ^ 20 ≤ s.cycle :=
  ⟨tNet 1048576 { Net.init with outs := [outTo9] }, 9, outTo9, by decide +kernel⟩
theorem wit_LinksAndLosses_lostAgain : ∃ (s : State) (dev : Nat) (o : OutPkt), dev ≠ s.dev % 256 ∧ o ∈ s.net.outs ∧
    o.pkt.dst = dev ∧ dev ∈ s.net.lost :=
  ⟨tNet 0 { Net.init with outs := [outTo9], lost := [9] }, 9, outTo9, by decide +kernel⟩
theorem wit_LinksAndLosses_replay : ∃ (s : State) (port : Nat), port ∈ s.net.up ∧ (look port s.net.replays).getD 0 + 1 < 16 :=
  ⟨tNet 0 { Net.init with up := [29], replays := [(29, 14)] }, 29, by decide +kernel⟩
theorem wit_LinksAndLosses_sixteenth : ∃ (s : State) (port : Nat) (o x : OutPkt), port ∈ s.net.up ∧
    16 ≤ (look port s.net.replays).getD 0 + 1 ∧ port < 30 ∧ s.net.outs[0]? = some o ∧ o.port = some port ∧
    s.net.outs[1]? = some x ∧ x.port ≠ some port :=
  ⟨tNet 0 { Net.init with up := [29], replays := [(29, 15)], outs := [{ outTo9 with port := some 29 }, outTo9] }, 29,
    { outTo9 with port := some 29 }, outTo9, by decide +kernel⟩
theorem wit_LinksAndLosses_up : ∃ (s : State) (port n : Nat), (s.net.ids.map (·.1)).Pairwise (· < ·) ∧ port < 30 ∧
    (∀ q ∈ s.net.ids, q.1 = port ∨ 30 ≤ q.1 ∨ q.2 ≠ n) ∧ n % 256 = neighbour (s.dev % 256) port ∧ s.net.ids ≠ [] :=
  ⟨tNet 0 { Net.init with up := [0], ids := [(0, 1)] }, 29, 240, by decide +kernel⟩
theorem wit_LinksAndLosses_wrong : ∃ (s : State) (port n : Nat), (s.net.ids.map (·.1)).Pairwise (· < ·) ∧ port < 30 ∧
    (∀ q ∈ s.net.ids, q.1 = port ∨ 30 ≤ q.1 ∨ q.2 ≠ n) ∧ n % 256 ≠ neighbour (s.dev % 256) port :=
  ⟨tU, 29, 17, by decide +kernel⟩
/-- Ports 0 and 29 report one id. -/
theorem wit_LinksAndLosses_twins : ∃ (s : State) (port q n : Nat), (s.net.ids.map (·.1)).Pairwise (· < ·) ∧ port < 30 ∧ q < 30 ∧
    q ≠ port ∧ look q s.net.ids = some n :=
  ⟨tNet 0 { Net.init with up := [0], ids := [(0, 1)] }, 29, 0, 1, by decide +kernel⟩
theorem wit_LinksAndLosses_host : ∃ (s : State) (port : Nat), (s.net.ids.map (·.1)).Pairwise (· < ·) ∧ (port = 30 ∨ port = 31) :=
  ⟨tU, 31, by decide +kernel⟩

def tBoot : State := { tU with boot := 2 }
theorem wit_HostCommands : ∃ (s : State) (n : Nat), s.boot = 2 ∧ n < 128 ∧ (s.ctx 511).en = false ∧ s.rollback.toNat ≤ s.fwVersion.toNat :=
  ⟨tBoot, 127, by decide +kernel⟩
theorem wit_HostCommands_disable : ∃ (s : State) (ctx : Nat), s.boot = 2 ∧ ctx < 512 ∧ (s.ctx ctx).en = true ∧
    (∀ l ∈ s.launches, l.ctx ≠ ctx) ∧ (s.ctx ctx).ls = none :=
  ⟨tBoot.modCtx 3 (fun x => { x with en := true }), 3, by decide +kernel⟩
theorem wit_HostCommands_core : ∃ (s : State) (n : Nat), s.boot = 2 ∧ n < 128 ∧ (s.core n).stopped = true ∧ (s.core n).live = false :=
  ⟨tBoot.modCore 5 (fun k => { k with stopped := true }), 5, by decide +kernel⟩
theorem wit_HostCommands_older : ∃ s : State, s.boot = 2 ∧ s.fwVersion.toNat < s.rollback.toNat :=
  ⟨{ tBoot with rollback := 7 }, by decide +kernel⟩
def tBootStack : State := { tStack with boot := 2 }
def stockOf (s : State) : Nat × State := got (0, s) (takeStock s 0 6)
theorem wit_HostCommands_open : ∃ (s s1 : State) (ctx : Nat) (x : W64) (a : Anchor) (b : Nat), s.boot = 2 ∧ ctx < 512 ∧
    6 ≤ x.toNat % 32 ∧ x.toNat % 32 ≤ 20 ∧ fld x 5 59 = 0 ∧ (s.ctx ctx).ls = none ∧ freeAnchor s 0 = some a ∧
    takeStock s ctx (x.toNat % 32) = .ok (b, s1) := by
  refine ⟨tBootStack, (stockOf tBootStack).2, 0, 6, anc0, (stockOf tBootStack).1, ?_, ?_, ?_, ?_, ?_, ?_,
    ?_, got_eq (0, tBootStack) (takeStock tBootStack 0 6) ?_⟩ <;> decide +kernel
def tLsOpen : State := { tLs4 with boot := 2 }
theorem wit_HostCommands_close : ∃ (s : State) (ctx : Nat) (a : Anchor) (e : WEnd), s.boot = 2 ∧ ctx < 512 ∧ (s.ctx ctx).ls = some a ∧
    a.dev = s.dev % 256 ∧ a.core = 0 ∧ a.idx < 1024 ∧ (s.core 0).wend a = some e := by
  refine ⟨tLsOpen, 0, anc0, wend0 tLsOpen, ?_, ?_, ?_, ?_, ?_, ?_,
    wend0_eq _ ?_⟩ <;> decide +kernel
theorem wit_HostCommands_start : State.reset.boot = 0 ∧ (0 : Nat) < 2 ^ 25 := by decide +kernel
/-- A firmware header with an empty key, and one without. -/
def tHeader : State := { (((State.reset.wr64 0 0x0000000139534457).wr64 8 1).wr64 0x10 64).wr64 0x18 0x80 with boot := 1 }
theorem wit_HostCommands_verified : ∃ s : State, s.boot = 1 ∧ (Config.sm3 (fwBytes s 0x40 64) = Config.fusedKey →
    Config.sm2Verify (fwBytes s 0x40 64) (fwSum s) (fwBytes s (0x80 + fwLen s) 64) = true → bootCheck s = 0) := by
  refine ⟨tHeader, by decide +kernel, fun h g => ?_⟩
  have e : headerOk tHeader = true := by decide +kernel
  have r : ¬ (tHeader.rd64 8).toNat < tHeader.rollback.toNat := by decide +kernel
  simp [bootCheck, e, h, g, r]
theorem wit_HostCommands_failed : ∃ s : State, s.boot = 1 ∧ bootCheck s ≠ 0 := by
  refine ⟨{ State.reset with boot := 1 }, rfl, ?_⟩
  have e : headerOk { State.reset with boot := 1 } = false := by decide +kernel
  simp [bootCheck, e]
def hostWake : Packet := { pkt 10 (leBytes 8 (4 + 9 * 65536) ++ leBytes 8 127) with port := 31 }
theorem wit_HostCommands_packet : ∃ (s : State) (k n tag : Nat) (p : Packet), s.net.inbox[k]? = some p ∧ p.op = 10 ∧ (p.port = 30 ∨ p.port = 31) ∧
    (∀ q ∈ s.net.inbox.take k, q.port ≠ 30 ∧ q.port ≠ 31) ∧ s.boot = 2 ∧ n < 128 ∧ tag < 2 ^ 48 ∧
    p.payload = leBytes 8 (4 + tag * 65536) ++ leBytes 8 n :=
  ⟨{ tPkt hostWake with boot := 2 }, 0, 127, 9, hostWake, by decide +kernel⟩

/-- A stopped cell whose monitor in M mode saves it at physical 0x2030_0000: SAVEDST valid, generation 1 saved before. -/
def tStopped : State := tMode .m (tC (fun k => { ((k.wS 9 0x20300000).wS 10 1) with
  savedst := 0x8000, lastgen := 1, lastimg := 0x40000, preempted := true }))
def imgOf (s : State) : List Put := imagePuts s s.cur.core (s.rS 9).toNat 2 1 s.me.lastimg false false []
def savedImage : State := got tStopped (putAll tStopped (imgOf tStopped))
theorem savedImage_eq : putAll tStopped (imgOf tStopped) = .ok savedImage := got_eq tStopped _ (by decide +kernel)
theorem wit_CellsSavedAndRestored_save : ∃ (s s1 s2 : State) (a b : BitVec 6), let base := (s.rS b).toNat % 2 ^ 32
    let gen := (s.me.lastgen + 1) % 2 ^ 32
    s.mode ≠ .u ∧ s.me.savedst.getLsbD 15 = true ∧ s.me.savedst.getLsbD 14 = false ∧ fld (s.rS b) 32 32 = 0 ∧
    (s.rS a).toNat % 4096 = 0 ∧ fld (s.rS a) 52 12 = 0 ∧ (base = 0 || base ≠ s.me.lastgen % 2 ^ 32) = false ∧ base = 1 ∧ gen = 2 ∧
    stopEngines s.cur.core s = (true, s1) ∧ s1.my.asked = 0 ∧ MayRelease s1 .sys ∧ (∀ o ∈ s1.net.outs, o.why ≠ .detach s.cur.core) ∧
    putAll s1 (imagePuts s1 s.cur.core (s.rS a).toNat 2 1 s.me.lastimg false false []) = .ok s2 ∧ s2.cur = s.cur ∧ MayRelease s2 .sys ∧ Steady s := by
  refine ⟨tStopped, tStopped, savedImage, 9, 10, ?_, ?_, ?_, ?_, ?_,
    ?_, ?_, ?_, ?_, ?_, ?_, ?_,
    ?_, savedImage_eq, ?_⟩ <;> decide +kernel

theorem mget_above (off j k : Nat) (h : k < j) : ∀ (b : List Byte),
    mget 0 (((b.zipIdx j).filter (fun p => p.1 != 0)).map (fun p => (off + p.2, p.1))) (off + k) = 0 := by
  intro b
  induction b generalizing j with
  | nil => rfl
  | cons x b ih =>
    rw [List.zipIdx_cons, List.filter_cons]
    split
    · rw [List.map_cons, mget, if_neg (by simp; omega)]; exact ih (j + 1) (by omega)
    · exact ih (j + 1) (by omega)
/-- The bytes of a sparse map. -/
theorem mget_sparseFrom (off j k : Nat) : ∀ (b : List Byte), j ≤ k →
    mget 0 (((b.zipIdx j).filter (fun p => p.1 != 0)).map (fun p => (off + p.2, p.1))) (off + k) = b.getD (k - j) 0
  | [], _ => rfl
  | x :: b, h => by
    rw [List.zipIdx_cons, List.filter_cons]
    by_cases e : k = j
    · subst e
      rw [Nat.sub_self, List.getD_cons_zero]
      split
      · simp [mget]
      · next hx =>
        have hx : x = 0 := by simpa using hx
        rw [hx]
        exact mget_above off (k + 1) k (by omega) b
    · have h2 : j + 1 ≤ k := by omega
      rw [show k - j = (k - (j + 1)) + 1 by omega, List.getD_cons_succ, ← mget_sparseFrom off (j + 1) k b h2]
      split
      · rw [List.map_cons, mget, if_neg (by simp; omega)]
      · rfl
theorem mget_sparse (b : List Byte) (k : Nat) : mget 0 (sparse 0 b) k = b.getD k 0 := by
  have h := mget_sparseFrom 0 0 k b (Nat.zero_le _)
  rw [Nat.zero_add] at h
  exact h
theorem imgD_sparse (b : List Byte) (off : Nat) : imgD (sparse 0 b) off =
    w64 (leNat ((List.range 8).map (fun i => b.getD (off + i) 0))) := by
  unfold imgD
  simp only [mgets, mget_sparse]
  rfl
/-- A dword of an image, out of a piece of its bytes. -/
theorem imgD_part {b z : List Byte} {lo n : Nat} (h : (b.drop lo).take n = z) (off : Nat) (k : lo ≤ off ∧ off + 8 ≤ lo + n) :
    imgD (sparse 0 b) off = w64 (leNat ((List.range 8).map (fun i => z.getD (off - lo + i) 0))) := by
  rw [imgD_sparse, ← h]
  congr 2
  refine List.map_congr_left (fun i m => ?_)
  have m : i < 8 := List.mem_range.mp m
  simp only [List.getD_eq_getElem?_getD, List.getElem?_take, List.getElem?_drop]
  rw [if_pos (by omega), show lo + (off - lo + i) = off + i by omega]
/-- An image whose engine area is empty. -/
theorem savedOf_empty (m : SMap Byte) (h : imgD m 0x2000 = 0) : savedOf m = savedOf [] := by
  have e : engineOf m = [] := by unfold engineOf; rw [h]; rfl
  have f : engineOf [] = [] := by decide
  unfold savedOf
  rw [e, f]
theorem readFixed_small (s s1 : State) (k n : Nat) (i : Img) (bs : List (List Byte)) (h : readSome s k [(i.va.toNat, 0x4000)] = .ok (bs, s1, n))
    (g : leNat ((bs.flatten.drop 0x2000).take 8) ≤ 1024) : readFixed s k i = .ok (sparse 0 bs.flatten, s1, n) := by
  unfold readFixed
  rw [h]
  show (if 1024 < min (engineRoom 0) (leNat ((bs.flatten.drop 0x2000).take 8)) then _ else _) = _
  rw [if_neg (by omega)]
  rfl
/-- Disposal reads the engine area, two dwords and the handles of an image. -/
theorem disposeGang_congr {m x : SMap Byte} (h : savedOf m = savedOf x) (e : imgD m 0x18 = imgD x 0x18) (f : imgD m 0x48 = imgD x 0x48)
    (g : ∀ i, i < 63 → imgD m (0xC08 + 8 * i) = imgD x (0xC08 + 8 * i)) (c ctx : Nat) (s : State) :
    disposeGang c ctx m s = disposeGang c ctx x s := by
  have l : (List.range 63).map (fun i => imgD m (0xC08 + 8 * i)) = (List.range 63).map (fun i => imgD x (0xC08 + 8 * i)) :=
    List.map_congr_left (fun i k => g i (List.mem_range.mp k))
  unfold disposeGang dispose
  simp only [h, e, f, l]

/-- A state of a monitor in which a read of memory goes to the home and leaves nothing behind. -/
structure Bare (s : State) : Prop where
  mode : s.mode = .m
  pick : ∀ b, s.choice b = false
  stores : s.me.stores = []
  others : s.cores.filter (fun q => q.1 != s.cur.core) = []
  poison : s.poison = []
  copies : s.copies (dieOf s.cur.core) = []
  dc : s.me.dc = []
  ahead : ((s.core s.cur.core).strand s.cur.st).ahead = []
  free : s.allow (dieOf s.cur.core) (s.core s.cur.core).cls 5 = none

theorem Bare.read {s : State} (h : Bare s) (va : W64) (n : Nat) (m : memOk va.toNat = true) :
    readVa s va n = .ok (s.bytes va.toNat n, s) := by
  have e1 : s.seenWrites s.cur.core (dieOf s.cur.core) va.toNat n = [] := by
    unfold State.seenWrites; rw [h.others]; rfl
  have e2 : s.aheadOf va.toNat n = [] := by unfold State.aheadOf; rw [h.pick 5]; rfl
  have e3 : loadBase s s.attr va.toNat n = (s.bytes va.toNat n, s) := by
    have c0 : (s.copies (dieOf s.cur.core)).isEmpty = true := by rw [h.copies]; rfl
    have d0 : (s.core s.cur.core).dc.isEmpty = true := by
      have := h.dc; unfold State.me at this; rw [this]; rfl
    unfold loadBase State.refreshFor
    simp [h.pick, c0, d0]
  have e4 : dropAhead s.cur.core s.cur.st va.toNat n [] s = s := by unfold dropAhead; rw [h.ahead]; rfl
  have e5 : loadAt s s.attr va va.toNat n = .ok (s.bytes va.toNat n, s) := by
    unfold loadAt
    simp [e1, e2, h.stores, h.poison, e3, e4, forward, overAhead, waitFor, bind, Except.bind, pure, Except.pure]
  have e6 : chargeHbm s n = s := by unfold chargeHbm State.chargeCore State.charge; rw [h.free]
  unfold readVa
  simp [h.mode, xlate, m, e5, e6, bind, Except.bind, pure, Except.pure]

/-- A range of pages of memory. -/
def inPages (r : Nat × Nat) : Bool :=
  regionOf r.1 == .page && (pagesOf r.1 r.2).all (fun p => regionOf p.1 == .page && memOk (w64 p.1).toNat && memOk p.1)
theorem Bare.pages {s : State} (h : Bare s) : ∀ (l : List (Nat × Nat)) (bs : List Byte),
    (l.all (fun p => regionOf p.1 == .page && memOk (w64 p.1).toNat && memOk p.1)) = true →
    ∃ cs, l.foldlM (fun (a : List Byte × State) p => do
        let (b, s) ← readVa a.2 (w64 p.1) p.2
        pure (a.1 ++ b, s)) ((bs, s) : List Byte × State) = (.ok (cs, s) : Try (List Byte × State))
  | [], bs, _ => ⟨bs, rfl⟩
  | p :: l, bs, g => by
    simp only [List.all_cons, Bool.and_eq_true] at g
    obtain ⟨cs, e⟩ := h.pages l (bs ++ s.bytes (w64 p.1).toNat p.2) (by simpa only [Bool.and_eq_true] using g.2)
    refine ⟨cs, ?_⟩
    rw [List.foldlM_cons, h.read _ _ g.1.1.2]
    exact e
theorem ok_bind {α β : Type} (a : α) (f : α → Try β) : ((.ok a : Try α) >>= f) = f a := rfl
theorem forM_ok {β : Type} {f : β → Try PUnit} : ∀ l : List β, (∀ p ∈ l, f p = .ok ()) → l.forM f = .ok ()
  | [], _ => rfl
  | p :: l, g => by
    show (f p >>= fun _ => l.forM f) = _
    rw [g p List.mem_cons_self]
    exact forM_ok l (fun x m => g x (List.mem_cons_of_mem _ m))
theorem Bare.ok {s : State} (h : Bare s) (r : Nat × Nat) (g : inPages r = true) : readOk s 1 r.1 r.2 = .ok s := by
  unfold inPages at g
  simp only [Bool.and_eq_true, beq_iff_eq, List.all_eq_true] at g
  unfold readOk
  rw [if_neg (by omega), g.1]
  show ((pagesOf r.1 r.2).forM (fun p => readOkPart s p.1 p.2) >>= fun _ => pure s) = _
  rw [forM_ok _ (fun p m => ?_)]
  · rfl
  · have := g.2 p m
    unfold readOkPart
    simp [this.1.1, xlate, h.mode, this.2, h.stores, badAt, h.poison]
theorem foldOk {β : Type} {s : State} {f : List (List Byte) × List (List Byte) × State → β → Try (List (List Byte) × List (List Byte) × State)} :
    ∀ (rs : List β), (∀ r ∈ rs, ∀ a, ∃ b, f (a, [], s) r = .ok (b, [], s)) → ∀ a, ∃ b, rs.foldlM f (a, [], s) = .ok (b, [], s)
  | [], _, a => ⟨a, rfl⟩
  | r :: rs, h, a => by
    obtain ⟨b, e⟩ := h r List.mem_cons_self a
    rw [List.foldlM_cons, e]
    exact foldOk rs (fun x m => h x (List.mem_cons_of_mem _ m)) b
theorem foldDone {β : Type} {s : State} {k : Nat}
    {f : List (List Byte) × List (List Byte) × State → β → Try (List (List Byte) × List (List Byte) × State)} (rs : List β)
    (h : ∀ r ∈ rs, ∀ a, ∃ b, f (a, [], s) r = .ok (b, [], s)) :
    ∃ bs, (rs.foldlM f ([], [], s) >>= fun r => pure (r.1, r.2.2, k)) = (.ok (bs, s, k) : Try (List (List Byte) × State × Nat)) := by
  obtain ⟨b, e⟩ := foldOk rs h []
  exact ⟨b, by rw [e]; rfl⟩
theorem Bare.reads {s : State} (h : Bare s) (k : Nat) (rs : List (Nat × Nat)) (g : rs.all inPages = true) :
    ∃ bs, readSome s k rs = .ok (bs, s, k) := by
  have a : rs.foldlM (fun (s : State) r => readOk s 1 r.1 r.2) s = (.ok s : Try State) := by
    induction rs with
    | nil => rfl
    | cons r rs ih =>
      simp only [List.all_cons, Bool.and_eq_true] at g
      rw [List.foldlM_cons, h.ok r g.1]
      exact ih g.2
  have p : ∀ r ∈ rs, regionOf r.1 = .page ∧
      (pagesOf r.1 r.2).all (fun p => regionOf p.1 == .page && memOk (w64 p.1).toNat && memOk p.1) = true := fun r m => by
    have := List.all_eq_true.mp g r m
    unfold inPages at this
    rw [Bool.and_eq_true, beq_iff_eq] at this
    exact this
  have z : (rs.map (fun _ => ([] : List (Nat × Nat × Nat)))).flatten = [] := by simp
  unfold readSome
  rw [a]
  simp only [ok_bind]
  rw [List.map_congr_left (g := fun _ => []) (fun r m => by rw [(p r m).1]), z]
  simp only [askParts, List.length_nil, if_true, ok_bind]
  refine foldDone rs (fun r m acc => ?_)
  obtain ⟨cs, e⟩ := h.pages (pagesOf r.1 r.2) [] (p r m).2
  refine ⟨acc ++ [cs], ?_⟩
  rw [(p r m).1]
  simp only [e]
  rfl
/-- The blocks that an image without tiles has besides its first, of one full image. -/
def fullBlocks (i : Img) : List (Nat × Nat × Nat) :=
  (List.range 384).map (fun v => (0x4000 + 4096 * v, i.va.toNat + 0x4000 + 4096 * v, 4096)) ++
  (List.range 16).map (fun n => (0x184000 + 16384 * n, i.va.toNat + 0x184000 + 16384 * n, 16384))
theorem filterMap_some {α β : Type} {f : α → Option β} {g : α → β} (l : List α) (h : ∀ x ∈ l, f x = some (g x)) : l.filterMap f = l.map g := by
  induction l with
  | nil => rfl
  | cons x l ih =>
    rw [List.filterMap_cons, h x List.mem_cons_self, List.map_cons, ← ih (fun y m => h y (List.mem_cons_of_mem _ m))]
theorem Bare.chain {s : State} (h : Bare s) (k n : Nat) (i : Img) (m : SMap Byte) (e : readFixed s k i = .ok (m, s, n))
    (f : i.full = true) (t : i.tiles = 0) (z : imgD m 0x2000 = 0) (g : ((fullBlocks i).map (fun b => (b.2.1, b.2.2))).all inPages = true) :
    ∃ rest, readChain s k [i] = .ok (m.filter (fun p => p.1 < 0x4000) ++ rest, s, n) := by
  have r := h.reads n _ g
  have v : ∀ v, ([i].find? (·.hasV v)) = some i := fun v => by simp [Img.hasV, f]
  have w : ∀ v, ([i].find? (·.hasS v)) = some i := fun v => by simp [Img.hasS, f]
  have d : [i].filter (fun j => decide (j.tiles ≠ 0)) = [] := by simp [t]
  have q : readSome s n [] = .ok ([], s, n) := by
    unfold readSome; simp only [List.map_nil, List.flatten_nil, askParts, List.length_nil, if_true, List.foldlM_nil]; rfl
  obtain ⟨bs, r⟩ := r
  unfold fullBlocks at r
  unfold readChain
  dsimp only
  rw [e]
  simp only [ok_bind]
  rw [d, List.map_nil, q, filterMap_some (g := fun v => (0x4000 + 4096 * v, i.va.toNat + 0x4000 + 4096 * v, 4096)) _ (fun x _ => by rw [v]; rfl),
    filterMap_some (g := fun n => (0x184000 + 16384 * n, i.va.toNat + 0x184000 + 16384 * n, 16384)) _ (fun x _ => by rw [w]; rfl)]
  simp only [ok_bind, List.zip_nil_left, List.map_nil, List.flatten_nil, List.filter_nil, List.any_nil, Bool.false_eq_true, if_false,
    List.filterMap_nil, List.append_nil]
  rw [if_neg (by rw [z]; decide), List.append_nil, r]
  simp only [ok_bind]
  exact ⟨_, by rw [List.append_assoc, List.append_assoc]; rfl⟩
/-- A byte of a sparse map that is not zero, whatever lies behind the map. -/
theorem mget_left (p : Nat × Byte → Bool) (r : SMap Byte) (k : Nat) (f : ∀ v, p (k, v) = true) :
    ∀ m : SMap Byte, mget 0 m k ≠ 0 → mget 0 (m.filter p ++ r) k = mget 0 m k
  | [], h => absurd rfl h
  | (a, v) :: m, h => by
    rw [List.filter_cons]
    by_cases e : a = k
    · subst e
      rw [if_pos (f v), List.cons_append, mget, mget, if_pos rfl, if_pos rfl]
    · rw [mget, if_neg e] at h
      rw [show mget 0 ((a, v) :: m) k = mget 0 m k by rw [mget, if_neg e], ← mget_left p r k f m h]
      split
      · rw [List.cons_append, mget, if_neg e]
      · rfl
theorem mgets_congr {m x : SMap Byte} : ∀ n a, (∀ i < n, mget 0 m (a + i) = mget 0 x (a + i)) → mgets 0 m a n = mgets 0 x a n
  | 0, _, _ => rfl
  | n + 1, a, h => by
    have e := mgets_congr (m := m) (x := x) n (a + 1) (fun i l => by rw [show a + 1 + i = a + (i + 1) by omega]; exact h (i + 1) (by omega))
    rw [mgets, mgets, e, show mget 0 m a = mget 0 x a from h 0 (by omega)]
/-- A dword without a zero byte, likewise. -/
theorem imgD_left (p : Nat × Byte → Bool) (m r : SMap Byte) (off : Nat) (f : ∀ i < 8, ∀ v, p (off + i, v) = true)
    (h : ∀ i < 8, mget 0 m (off + i) ≠ 0) : imgD (m.filter p ++ r) off = imgD m off := by
  unfold imgD
  rw [mgets_congr 8 off (fun i l => mget_left p r _ (f i l) m (h i l))]

/-- M mode, an image's header at physical 0x2030_0000: version 1, COMPLETE and FULL. S10 disposes,
S11 names device 9, S12 this device and core 5. Context 0 has no tables. -/
def tBare : State := tMode .m ((State.withCell .ctl State.reset).modCore 0 (fun k =>
  (((k.wS 9 0x20300000).wS 10 0x20000).wS 11 0x900).wS 12 5))
def tImage : State := (((tBare.wr64 0x20300000 0x501).wr64 0x20300018 0x0101010100010101).wr64 0x20300048 0x0101010101010101).modCtx 0
  (fun x => { x with ptbase := 0xFFFFFFFFF0000 })
theorem got3 {ε α β γ : Type} (d : α × β × γ) (x : Except ε (α × β × γ)) (h : isOk x = true) :
    x = .ok ((got d x).1, (got d x).2.1, (got d x).2.2) := got_eq d x h
def head0 : Img × State × Nat := got (⟨0, []⟩, tImage, 0) (readImg tImage 0 (tImage.rS 9))
theorem head0_eq : readImg tImage 0 (tImage.rS 9) = .ok (head0.1, head0.2.1, head0.2.2) :=
  got3 (⟨0, []⟩, tImage, 0) (readImg tImage 0 (tImage.rS 9)) (by decide +kernel)
theorem head0_bare : Bare head0.2.1 := by
  have a : head0.2.1.cur.choice = 0 ∧ head0.2.1.my.asked = 0 := by decide +kernel
  constructor
  case pick =>
    intro b
    unfold State.choice
    rw [if_pos a.2, a.1, Nat.zero_div]
    rfl
  all_goals decide +kernel
theorem blocks0 : ((fullBlocks head0.1).map (fun b => (b.2.1, b.2.2))).all inPages = true := by decide +kernel
def walk0 : List Img × State × Nat := ([head0.1], head0.2.1, head0.2.2)
theorem walk0_eq : walkChain 65536 head0.1 [] head0.2.1 head0.2.2 = .ok (walk0.1, walk0.2.1, walk0.2.2) := by
  rw [walkChain, if_pos (by decide +kernel)]; rfl
def bytes0 : List (List Byte) × State × Nat := got ([], tImage, 0) (readSome walk0.2.1 walk0.2.2 [(head0.1.va.toNat, 0x4000)])
theorem bytes0_eq : readSome walk0.2.1 walk0.2.2 [(head0.1.va.toNat, 0x4000)] = .ok (bytes0.1, walk0.2.1, walk0.2.2) := by
  obtain ⟨bs, e⟩ := head0_bare.reads head0.2.2 [(head0.1.va.toNat, 0x4000)] (by decide +kernel)
  have f : readSome walk0.2.1 walk0.2.2 [(head0.1.va.toNat, 0x4000)] = .ok (bs, walk0.2.1, walk0.2.2) := e
  unfold bytes0
  rw [f]; rfl
def img0 : SMap Byte := sparse 0 bytes0.1.flatten
theorem img0_head : (bytes0.1.flatten.drop 0).take 0x50 = [1, 5, 0, 0, 0, 0, 0, 0] ++ List.replicate 16 0 ++ [1, 1, 1, 0, 1, 1, 1, 1] ++
    List.replicate 40 0 ++ List.replicate 8 1 := by decide +kernel
theorem img0_handles : (bytes0.1.flatten.drop 0xC08).take 504 = List.replicate 504 0 := by decide +kernel
theorem img0_engine : (bytes0.1.flatten.drop 0x2000).take 8 = List.replicate 8 0 := by decide +kernel
theorem img0_eq : readFixed walk0.2.1 walk0.2.2 head0.1 = .ok (img0, walk0.2.1, walk0.2.2) :=
  readFixed_small _ _ _ _ _ _ bytes0_eq (by rw [img0_engine]; decide)
def claim0 : State := got tImage (claim walk0.2.1 (tImage.rS 9) walk0.2.2 (head0.1.w 0))
theorem claim0_eq : claim walk0.2.1 (tImage.rS 9) walk0.2.2 (head0.1.w 0) = .ok claim0 :=
  got_eq tImage (claim walk0.2.1 (tImage.rS 9) walk0.2.2 (head0.1.w 0)) (by decide +kernel)
/-- The dwords of that image that disposal reads. -/
def img1 : SMap Byte := sparse 0 ((bytes0.1.flatten.drop 0).take 0x50)
theorem disposed0 : (disposeGang tImage.cur.core claim0.me.ctxOf img0 claim0).cur = tImage.cur := by
  have z (off : Nat) (k : 0x50 ≤ off) : imgD img1 off = 0 := by
    rw [img1, imgD_sparse, img0_head, List.map_congr_left (g := fun _ => 0) fun i _ => ?_]
    · decide
    · rw [List.getD_eq_getElem?_getD, List.getElem?_eq_none (by simp; omega)]; rfl
  have w (off : Nat) (k : off + 8 ≤ 0x50) : imgD img0 off = imgD img1 off := by
    rw [img0, imgD_part img0_head off ⟨Nat.zero_le _, by omega⟩, img1, imgD_sparse, img0_head, Nat.sub_zero]
  have e : savedOf img0 = savedOf img1 := by
    rw [savedOf_empty img0 (by rw [img0, imgD_part img0_engine 0x2000 (by decide)]; decide), savedOf_empty img1 (z 0x2000 (by decide))]
  rw [disposeGang_congr e (w 0x18 (by decide)) (w 0x48 (by decide)) (fun i k => ?_), img1, img0_head]
  · decide +kernel
  · rw [z _ (by omega), img0, imgD_part img0_handles _ ⟨by omega, by omega⟩, List.map_congr_left (g := fun _ => 0) fun j m => ?_]
    · decide
    · have m : j < 8 := List.mem_range.mp m
      rw [List.getD_replicate _ (by omega)]
theorem chain0_eq : ∃ rest, readChain walk0.2.1 walk0.2.2 walk0.1 =
    .ok (img0.filter (fun p => p.1 < 0x4000) ++ rest, walk0.2.1, walk0.2.2) :=
  head0_bare.chain _ _ _ _ img0_eq (by decide +kernel) (by decide +kernel)
    (by rw [img0, imgD_part img0_engine 0x2000 (by decide)]; decide) blocks0
theorem gang0 (rest : SMap Byte) : gangOf (imgD (img0.filter (fun p => p.1 < 0x4000) ++ rest) 0x48) = none := by
  have b : ∀ i < 8, mget 0 img0 (0x48 + i) = 1 := fun i l => by
    rw [img0, mget_sparse]
    have h := congrArg (fun l => l.getD (0x48 + i) 0) img0_head
    simp only [List.getD_eq_getElem?_getD, List.drop_zero, List.getElem?_take, if_pos (show 0x48 + i < 0x50 by omega)] at h ⊢
    rw [h]
    have all : ∀ j : Fin 8, (([1, 5, 0, 0, 0, 0, 0, 0] ++ List.replicate 16 0 ++ [1, 1, 1, 0, 1, 1, 1, 1] ++
      List.replicate 40 0 ++ List.replicate 8 1 : List Byte)[0x48 + j.val]?).getD 0 = 1 := by decide
    exact all ⟨i, l⟩
  rw [imgD_left _ _ _ _ (fun i l v => by simp; omega) (fun i l => by rw [b i l]; decide), img0, imgD_part img0_head 0x48 (by decide)]
  decide
/-- What PREST asks of the header and its chain. -/
def HeaderOk (s s1 s2 : State) (a b : BitVec 6) (i : Img) (ch : List Img) (n1 n2 : Nat) : Prop :=
  s.mode ≠ .u ∧ fld (s.rS b) 18 46 = 0 ∧ readImg s 0 (s.rS a) = .ok (i, s1, n1) ∧ i.version = 1 ∧ (i.w 0).getLsbD 8 = true ∧
  (i.w 0).getLsbD 9 = false ∧ walkChain 65536 i [] s1 n1 = .ok (ch, s2, n2) ∧ s2.cur = s.cur ∧ Steady s
theorem head0_ok (b : BitVec 6) (h : fld (tImage.rS b) 18 46 = 0) :
    HeaderOk tImage head0.2.1 walk0.2.1 9 b head0.1 walk0.1 head0.2.2 walk0.2.2 := by
  refine ⟨?_, h, head0_eq, ?_, ?_, ?_, walk0_eq, ?_⟩ <;> decide +kernel
theorem wit_CellsSavedAndRestored_dispose : ∃ (s s1 s2 s3 s4 : State) (a b : BitVec 6) (i : Img) (ch : List Img) (n1 n2 n3 : Nat)
    (m : SMap Byte), HeaderOk s s1 s2 a b i ch n1 n2 ∧ (s.rS b).getLsbD 17 = true ∧ readFixed s2 n2 i = .ok (m, s3, n3) ∧
    claim s3 (s.rS a) n3 (i.w 0) = .ok s4 ∧ (disposeGang s.cur.core s4.me.ctxOf m s4).cur = s.cur := by
  refine ⟨tImage, _, _, _, _, 9, 10, _, _, _, _, _, _, head0_ok 10 ?_, ?_, img0_eq, claim0_eq, disposed0⟩ <;> decide +kernel
theorem wit_CellsSavedAndRestored_away : ∃ (s s1 s2 : State) (a b : BitVec 6) (i : Img) (ch : List Img) (n1 n2 : Nat),
    HeaderOk s s1 s2 a b i ch n1 n2 ∧ (s.rS b).getLsbD 17 = false ∧
    askCancelling s2 (i.w 3 &&& 0xFFFFFFFF) n2 = .ok (false, s2, n2) ∧ (i.w 9).getLsbD 22 = false ∧ reachable s2 (fld (s.rS b) 8 8).toNat = false := by
  refine ⟨tImage, _, _, 9, 11, _, _, _, _, head0_ok 11 ?_, ?_, rfl, ?_⟩ <;> decide +kernel
theorem wit_CellsSavedAndRestored_here : ∃ (s s1 s2 s3 s4 : State) (a b : BitVec 6) (i : Img) (ch : List Img) (n1 n2 n3 : Nat)
    (m : SMap Byte), HeaderOk s s1 s2 a b i ch n1 n2 ∧ (s.rS b).getLsbD 17 = false ∧
    askCancelling s2 (i.w 3 &&& 0xFFFFFFFF) n2 = .ok (false, s2, n2) ∧ (i.w 9).getLsbD 22 = false ∧ (fld (s.rS b) 8 8).toNat = s2.dev % 256 ∧ readChain s2 n2 ch = .ok (m, s3, n3) ∧
    claim s3 (s.rS a) n3 (i.w 0) = .ok s4 ∧ s4.cur = s.cur ∧ s4.dev = s2.dev ∧ gangOf (imgD m 0x48) = none := by
  obtain ⟨rest, e⟩ := chain0_eq
  refine ⟨tImage, _, _, _, _, 9, 12, _, _, _, _, _, _, head0_ok 12 ?_, ?_, rfl, ?_, ?_,
    e, claim0_eq, ?_, ?_, gang0 rest⟩ <;> decide +kernel

/-- A trap that waits to be entered at core 0. -/
def tRaised (r : Trap) (f : Core → Core) : State := tC (fun k => f { k with raised := some (.ctl, r) })
def stopTrap : Trap := ⟨0xA0, 0, 0, none, none⟩
def stopped (s : State) : Bool × State := stopEngines 0 s
theorem wit_CellsSavedAndRestored_stop : ∃ (s s1 : State) (c : Nat) (st : Strand) (r : Trap), (s.core c).raised = some (st, r) ∧ r.cause = 0xA0 ∧
    r.actx = none ∧ (s.core c).mode = .u ∧ quiet (s.core c) .ctl = true ∧ (s.core c).ctl.asked = 0 ∧ (s1.core c).mode = .u ∧
    stopEngines c s = (true, s1) := by
  refine ⟨tRaised stopTrap id, (stopped (tRaised stopTrap id)).2, 0, .ctl, stopTrap, ?_, rfl, rfl, ?_, ?_, ?_,
    ?_, Prod.ext (x := stopped (tRaised stopTrap id)) ?_ rfl⟩ <;> decide +kernel
def badOp : Trap := ⟨0x10, 0, 0, none, none⟩
theorem wit_CellsSavedAndRestored_enter : ∃ (s : State) (c : Nat) (st : Strand) (r : Trap), (s.core c).raised = some (st, r) ∧
    quiet (s.core c) st = true ∧ r.actx = none ∧ (s.core c).mode = .u ∧ r.cause < 0xB1 ∧ r.cause ≠ 0xA0 :=
  ⟨tRaised badOp id, 0, .ctl, badOp, by decide +kernel⟩
theorem wit_CellsSavedAndRestored_monitor : ∃ (s : State) (c : Nat) (st : Strand) (r : Trap), (s.core c).raised = some (st, r) ∧
    quiet (s.core c) st = true ∧ r.actx = none ∧ (s.core c).mode = .s ∧ r.cause < 256 ∧ r.cause ≠ 0xA0 ∧ r.cause ≠ 0xB2 ∧
    memOk ((s.core c).monvec &&& 0x000FFFFFFFFFFFFC).toNat = true :=
  ⟨tRaised badOp (fun k => { k with mode := .s, monvec := 0x10000080 }), 0, .ctl, badOp, by decide +kernel⟩
theorem wit_CellsSavedAndRestored_checkstop : ∃ (s : State) (c : Nat) (st : Strand) (r : Trap), (s.core c).raised = some (st, r) ∧
    quiet (s.core c) st = true ∧ r.actx = none ∧ r.cause = 0xB2 ∧ (s.core c).live = false :=
  ⟨tRaised ⟨0xB2, 0, 0, none, none⟩ (fun k => { k with live := false }), 0, .ctl, ⟨0xB2, 0, 0, none, none⟩, by decide +kernel⟩

theorem imgD_nil (off : Nat) : imgD [] off = 0 := by
  have h : mgets (0 : Byte) [] off 8 = List.replicate 8 0 := rfl
  unfold imgD
  rw [h]
  decide
/-- A saved cell that waits at the Dealer, and the four of a gang iteration. -/
def aPlace (g : Option Nat) : Place := { dev := 0, ctx := 0, src := 0, image := 0x10000, img := [], core := 5, any := false, entry := false, gang := g, launch := 7, ordinal := 3, asked := 0, got := [] }
def tPlace : State := { tU with places := [aPlace none] }
theorem wit_CellsSavedAndRestored_place : ∃ (s : State) (k c : Nat) (p : Place), s.places[k]? = some p ∧ cancelling s p.launch = false ∧
    p.gang = none ∧ p.entry = false ∧ p.asked = 0 ∧ p.got = [] ∧ coreOf s k p = some c ∧ (savedOf p.img).tiles = [] ∧ (savedOf p.img).ends = [] ∧ (savedOf p.img).ops = [] ∧
    (savedOf p.img).owed = [] ∧ (∀ i, i < 63 → imgD p.img (0xC08 + 8 * i) = 0) := by
  refine ⟨tPlace, 0, 5, aPlace none, ?_, ?_, ?_, ?_, ?_, ?_, ?_, ?_,
    ?_, ?_, ?_, fun _ _ => imgD_nil _⟩ <;> decide +kernel
def gangMember (q : Nat) : Place := { aPlace (some q) with any := true }
def fourPlaces : List Place := (List.range 4).map gangMember
def firstPlace : Place := gangMember 0
def tGang4 : State := { tU with places := fourPlaces }
/-- The Dealer without the four. -/
def tGangStart : State := { tGang4 with
  places := tGang4.places.filter (fun q => !(q.gang.isSome && q.launch = 7 && q.ordinal = 3))
  gangTo := tGang4.gangTo.filter (fun g => !(g.1 = 7 && g.2.1 = 3)) }
def tBuilt : State := opt tGang4 (buildAll ((coresOf 1).zip fourPlaces) tGangStart)
theorem wit_CellsSavedAndRestored_gang : ∃ (s s0 s1 : State) (k cl : Nat) (p : Place) (ps : List Place), (s.places[k]? = some p ∧
    p.gang.isSome = true ∧ cancelling s p.launch = false ∧ gangPlaces s p = some ps ∧ gangCluster s p ps = some cl ∧
    (∀ x ∈ ps, (savedOf x.img).ends = [] ∧ x.asked = 0 ∧ x.got = [] ∧ x.entry = false) ∧ p.launch = 7 ∧ p.ordinal = 3) ∧
    s0 = { s with places := s.places.filter (fun q => !(q.gang.isSome && q.launch = 7 && q.ordinal = 3))
                  gangTo := s.gangTo.filter (fun g => !(g.1 = 7 && g.2.1 = 3)) } ∧
    buildAll ((coresOf cl).zip ps) s0 = some s1 := by
  refine ⟨tGang4, tGangStart, tBuilt, 0, 1, firstPlace, fourPlaces, ?_, rfl,
    opt_eq tGang4 (buildAll ((coresOf 1).zip fourPlaces) tGangStart) ?_⟩ <;> decide +kernel

/-- Core 0's next turn, and what stands before it. -/
def tTurn (st : Strand) (s : State) : State := { s with agenda := [.issue 0 st 0] }
def inTurn (s : State) : State := { s with agenda := [] }.turn 0 ((s.agenda.head?.bind (fun t => match t with | .issue _ st _ => some st | _ => none)).getD .ctl) 0
/-- What a fetch there brings. -/
def fetched (s : State) : Option Instr × State := got (none, s) (fetchInstr (inTurn s))
theorem fetched_eq (s : State) (i : Option Instr) (h : isOk (fetchInstr (inTurn s)) = true) (e : (fetched s).1 = i) :
    fetchInstr (inTurn s) = .ok (i, (fetched s).2) := by
  rw [← e]; exact got_eq (none, s) _ h
/-- Words at 0x1000, which a strand of core 0 is to run. -/
def tWord (st : Strand) (l : List Nat) (s : State) : State :=
  tTurn st { s.modCore 0 (fun k => k.modStrand st (fun x => { x with pc := 0x1000 })) with
    mem := msets memDefault s.mem 0x20201000 (l.flatMap (leBytes 8)) }
def aLoad : LoadOp := ⟨22, 0x20202000, 8, ⟨.rlx, .core, .normal⟩, []⟩
def tLoadOut : State := tWord .ctl [0x0E958D00] (tC (fun k => { k with loads := [aLoad] }))
theorem wit_StepRunsDecoded_runs : ∃ (s s1 : State) (i : Instr), s.agenda = [.issue 0 .ctl 0] ∧ mayIssue (inTurn s) = true ∧
    fetchInstr (inTurn s) = .ok (some i, s1) ∧ waitsLoads s1 i = false := by
  refine ⟨tWord .ctl [0x0E958D00] tU, _, .add 41 22 13, rfl, ?_, fetched_eq _ _ ?_ ?_, ?_⟩ <;> decide +kernel
theorem wit_StepRunsDecoded_waits : ∃ (s s1 : State) (i : Instr), s.agenda = [.issue 0 .ctl 0] ∧ mayIssue (inTurn s) = true ∧
    fetchInstr (inTurn s) = .ok (some i, s1) ∧ waitsLoads s1 i = true := by
  refine ⟨tLoadOut, _, .add 41 22 13, rfl, ?_, fetched_eq _ _ ?_ ?_, ?_⟩ <;> decide +kernel
def tAgain : State := tWord .exe [0] (tLs { leaseHeld with again := true })
theorem wit_StepRunsDecoded_lease : ∃ (s s1 : State) (i : Instr), s.agenda = [.issue 0 .exe 0] ∧ mayIssue (inTurn s) = true ∧
    fetchInstr (inTurn s) = .ok (some i, s1) ∧ s1.me.lease.again = true := by
  refine ⟨tAgain, _, .nopWide c0, rfl, ?_, fetched_eq _ _ ?_ ?_, ?_⟩ <;> decide +kernel
theorem wit_StepRunsDecoded_illegal : ∃ (s s1 : State), s.agenda = [.issue 0 .emi 0] ∧ mayIssue (inTurn s) = true ∧
    fetchInstr (inTurn s) = .ok (none, s1) := by
  refine ⟨tWord .emi [0xFF00000000000000] tU, _, rfl, ?_, fetched_eq _ _ ?_ ?_⟩ <;> decide +kernel
theorem wit_StepRunsDecoded_fault : ∃ (s : State) (e : Nat) (va : W64), s.agenda = [.issue 0 .ctl 0] ∧ mayIssue (inTurn s) = true ∧
    fetchInstr (inTurn s) = .error (e, va) :=
  ⟨tTurn .ctl (tC (fun k => { k with ctl := { k.ctl with pc := 0x400000 } })), 0x20, 0x400000, rfl, by decide +kernel⟩
theorem wit_StepRunsDecoded_idle : ∃ s : State, s.agenda = [.issue 5 .ctl 0] ∧ mayIssue ({ s with agenda := [] }.turn 5 .ctl 0) = false :=
  ⟨{ tU with agenda := [.issue 5 .ctl 0] }, rfl, by decide +kernel⟩
def turnTr (s : State) (va : Nat) : Tr := got ⟨0, false, none⟩ (xlate (inTurn s) 0 0 .u va false true)
theorem tr_eq (s : State) (va : Nat) (h : isOk (xlate (inTurn s) 0 0 .u va false true) = true) :
    xlate (inTurn s) 0 0 .u va false true = .ok (turnTr s va) := got_eq _ _ h
theorem wit_StepRunsDecoded_ctl : ∃ (s : State) (i : Instr) (tr : Tr), s.agenda = [.issue 0 .ctl 0] ∧
    mayIssue (inTurn s) = true ∧ (s.core 0).ctl.loop = none ∧ (s.core 0).loads = [] ∧ fld (s.core 0).ctl.pc 52 12 = 0 ∧
    (s.core 0).ctl.pc.toNat < 0xE000000000000 ∧ xlate (inTurn s) 0 0 .u (s.core 0).ctl.pc.toNat false true = .ok tr ∧
    s.bad tr.pa 4 = false ∧ decodeCtl (BitVec.ofNat 32 (leNat (mgets memDefault s.mem tr.pa 4))) = some i := by
  refine ⟨tWord .ctl [0x0E958D00] tU, .add 41 22 13, _, rfl, ?_, ?_, ?_, ?_, ?_, tr_eq _ _ ?_, ?_⟩ <;> decide +kernel
/-- EXE at MDRAIN's two dwords. -/
def tTwoDw : State := tWord .exe [0xA5AA4D2C4B6525C0, 0x0001550000000000] tU
theorem wit_StepRunsDecoded_two : ∃ (s : State) (i : Instr) (tr tr2 : Tr), let x := (s.core 0).strand .exe
    let word := BitVec.ofNat 64 (leNat (mgets memDefault s.mem tr.pa 8))
    s.agenda = [.issue 0 .exe 0] ∧ mayIssue (inTurn s) = true ∧ x.loop = none ∧ x.rep = none ∧ (s.core 0).lease.again = false ∧
    fld x.pc 52 12 = 0 ∧ x.pc.toNat < 0xE000000000000 ∧ fld (x.pc + 8) 52 12 = 0 ∧ (x.pc + 8).toNat < 0xE000000000000 ∧
    xlate (inTurn s) 0 0 .u x.pc.toNat false true = .ok tr ∧ xlate (inTurn s) 0 0 .u (x.pc + 8).toNat false true = .ok tr2 ∧
    s.bad tr.pa 8 = false ∧ s.bad tr2.pa 8 = false ∧ firstOfTwo .exe word = true ∧
    decodeWide .exe word (BitVec.ofNat 64 (leNat (mgets memDefault s.mem tr2.pa 8))) = some i := by
  refine ⟨tTwoDw, .mdrain ⟨5, 2⟩ (.store 10) .l16 true false true (some 21) 300 150 101 75, _, _, rfl, ?_, ?_, ?_, ?_, ?_, ?_,
    ?_, ?_, tr_eq _ _ ?_, tr_eq _ _ ?_, ?_⟩ <;> decide +kernel
def tOneDw : State := tWord .fet [0x29A8015055E6F000] tU
theorem wit_StepRunsDecoded_one : ∃ (s : State) (i : Instr) (tr : Tr), let x := (s.core 0).strand .fet
    let word := BitVec.ofNat 64 (leNat (mgets memDefault s.mem tr.pa 8))
    s.agenda = [.issue 0 .fet 0] ∧ mayIssue (inTurn s) = true ∧ x.loop = none ∧ x.rep = none ∧ fld x.pc 52 12 = 0 ∧
    x.pc.toNat < 0xE000000000000 ∧ xlate (inTurn s) 0 0 .u x.pc.toNat false true = .ok tr ∧ s.bad tr.pa 8 = false ∧
    firstOfTwo .fet word = false ∧ decodeWide .fet word 0 = some i := by
  refine ⟨tOneDw, .pref ⟨5, 2⟩ 21 0xABCDE, _, rfl, ?_, ?_, ?_, ?_, ?_, tr_eq _ _ ?_, ?_⟩ <;> decide +kernel
theorem wit_StepRunsDecoded_event : ∃ (s : State) (e : Instr), isEvent e = true ∧ e.wf = true ∧ inner e = false ∧
    (s.tripped = false ∨ afterTrip e = true) := ⟨{ tU with tripped := true }, .thermWarn, by decide⟩
theorem wit_StepRunsDecoded_none : isEvent .nop = false := by decide

/-! ### Words, one for every constructor with an encoding -/

/-- CTL words from R43 to R46 and the entries: the opcode, the fields at 41, 22 and 13, the function code. -/
theorem test_words_ctl_0 : decodeCtl 0x00000000 = some (.nop) ∧
    decodeCtl 0x00000001 = some (.halt) ∧
    decodeCtl 0x00000002 = some (.yield) ∧
    decodeCtl 0x00000003 = some (.wfe) ∧
    decodeCtl 0x00003F04 = some (.trap 63) ∧
    decodeCtl 0x00000005 = some (.eret) ∧
    decodeCtl 0x02127E06 = some (.psave 33 9 62) ∧
    decodeCtl 0x0222BD07 = some (.prest 34 10 61) ∧
    decodeCtl 0x0002E108 = some (.tlbi 11 33) ∧
    decodeCtl 0x02333C09 = some (.keyrev 35 12 60) ∧
    decodeCtl 0x0000000A = some (.icflush) ∧
    decodeCtl 0x0240000B = some (.slipr 36) ∧
    decodeCtl 0x0253400C = some (.preempt 37 13) ∧
    decodeCtl 0x06600047 = some (.csrr 38 0x047) ∧
    decodeCtl 0x0809C101 = some (.csrw 39 0x101) ∧
    decodeCtl 0x0E958D00 = some (.add 41 22 13) ∧
    decodeCtl 0x0E958D01 = some (.sub 41 22 13) ∧
    decodeCtl 0x0E958D02 = some (.mul 41 22 13) ∧
    decodeCtl 0x0E958D03 = some (.mulh 41 22 13) ∧
    decodeCtl 0x0E958D04 = some (.mulhn 41 22 13) := by decide +kernel
theorem test_words_ctl_1 : decodeCtl 0x0E958D05 = some (.div 41 22 13) ∧
    decodeCtl 0x0E958D06 = some (.divn 41 22 13) ∧
    decodeCtl 0x0E958D07 = some (.rem 41 22 13) ∧
    decodeCtl 0x0E958D08 = some (.remn 41 22 13) ∧
    decodeCtl 0x0E958D10 = some (.and 41 22 13) ∧
    decodeCtl 0x0E958D11 = some (.or 41 22 13) ∧
    decodeCtl 0x0E958D12 = some (.xor 41 22 13) ∧
    decodeCtl 0x0E958D13 = some (.andn 41 22 13) ∧
    decodeCtl 0x0E958D14 = some (.shl 41 22 13) ∧
    decodeCtl 0x0E958D15 = some (.shr 41 22 13) ∧
    decodeCtl 0x0E958D16 = some (.sra 41 22 13) ∧
    decodeCtl 0x0E958D17 = some (.rot 41 22 13) ∧
    decodeCtl 0x0E958D18 = some (.min 41 22 13) ∧
    decodeCtl 0x0E958D19 = some (.max 41 22 13) ∧
    decodeCtl 0x0E958D1A = some (.minn 41 22 13) ∧
    decodeCtl 0x0E958D1B = some (.maxn 41 22 13) ∧
    decodeCtl 0x0E958020 = some (.clz 41 22) ∧
    decodeCtl 0x0E958021 = some (.ctz 41 22) ∧
    decodeCtl 0x0E958022 = some (.popc 41 22) ∧
    decodeCtl 0x0E958023 = some (.bswap 41 22) := by decide +kernel
theorem test_words_ctl_2 : decodeCtl 0x1295AA5B = some (.addi 41 22 0x2A5B) ∧
    decodeCtl 0x1695AA5B = some (.andi 41 22 0x2A5B) ∧
    decodeCtl 0x1A95AA5B = some (.ori 41 22 0x2A5B) ∧
    decodeCtl 0x1E95AA5B = some (.xori 41 22 0x2A5B) ∧
    decodeCtl 0x2295802D = some (.shli 41 22 45) ∧
    decodeCtl 0x2695802D = some (.shri 41 22 45) ∧
    decodeCtl 0x2A95802D = some (.srai 41 22 45) ∧
    decodeCtl 0x2E95AA5B = some (.muli 41 22 0x2A5B) ∧
    decodeCtl 0x3299ABCD = some (.li 41 0x9ABCD) ∧
    decodeCtl 0x3698BEEF = some (.lik 41 2 0xBEEF) ∧
    decodeCtl 0x3AA56B40 = some (.cmp 5 .gtn 22 45) ∧
    decodeCtl 0x3F096ABC = some (.cmpi 6 .lt 22 0xABC) ∧
    decodeCtl 0x40108400 = some (.pand 1 2 4) ∧
    decodeCtl 0x40108401 = some (.por 1 2 4) ∧
    decodeCtl 0x40108402 = some (.pxor 1 2 4) ∧
    decodeCtl 0x40108403 = some (.pandn 1 2 4) ∧
    decodeCtl 0x40318004 = some (.pnot 3 6) ∧
    decodeCtl 0x407A7A05 = some (.pfrom 7 41 58) ∧
    decodeCtl 0x42914006 = some (.pto 41 5) ∧
    decodeCtl 0x46958D0D = some (.sel 41 22 13 true 5) := by decide +kernel
theorem test_words_ctl_3 : decodeCtl 0x4A958DEE = some (.lea 41 22 13 0x1D 6) ∧
    decodeCtl 0x4EAABCDE = some (.br 5 0x2ABCDE) ∧
    decodeCtl 0x4F412345 = some (.brn 6 0x12345) ∧
    decodeCtl 0x52ABCDEF = some (.call 0x2ABCDEF) ∧
    decodeCtl 0x54058000 = some (.jr 22) ∧
    decodeCtl 0x54000001 = some (.ret) ∧
    decodeCtl 0x5405C002 = some (.callr 23) ∧
    decodeCtl 0x5805802D = some (.loop 22 45) ∧
    decodeCtl 0x5E95AAF1 = some (.lds 41 22 0xABC .h) ∧
    decodeCtl 0x62A5D696 = some (.sts 42 23 0x5A5 .w) ∧
    decodeCtl 0x66958D36 = some (.atom .minn true 41 22 13) ∧
    decodeCtl 0x6A958D20 = some (.cas false 41 22 13) ∧
    decodeCtl 0x6E958000 = some (.ldfe 41 22) ∧
    decodeCtl 0x6E958001 = some (.ldf 41 22) ∧
    decodeCtl 0x6C058D02 = some (.stfe 22 13) ∧
    decodeCtl 0x6C058D03 = some (.stf 22 13) ∧
    decodeCtl 0x6E958004 = some (.feprobe 41 22) ∧
    decodeCtl 0x70000014 = some (.fence .rel .sys) ∧
    decodeCtl 0x74000002 = some (.tkpush 2) ∧
    decodeCtl 0x74058005 = some (.tkpushv 22 1) := by decide +kernel
theorem test_words_ctl_4 : decodeCtl 0x74000008 = some (.tkpop 0) ∧
    decodeCtl 0x7690000E = some (.tkpopv 41 2) ∧
    decodeCtl 0x76900011 = some (.tkcnt 41 1) ∧
    decodeCtl 0x7A900003 = some (.tlread 41 .sq) ∧
    decodeCtl 0x78058005 = some (.tlwait .mx 22) ∧
    decodeCtl 0x7865800A = some (.tlwaitp 6 .ea 22) ∧
    decodeCtl 0x7C000004 = some (.dbar 4) ∧
    decodeCtl 0x82958000 = some (.launch 41 22) ∧
    decodeCtl 0x82958001 = some (.lstat 41 22) ∧
    decodeCtl 0x82958002 = some (.lcancel 41 22) ∧
    decodeCtl 0x80000003 = some (.done) ∧
    decodeCtl 0x86958D0B = some (.talloc 41 22 13 .n8) ∧
    decodeCtl 0x8A958000 = some (.dup 41 22) ∧
    decodeCtl 0x88058001 = some (.drop 22) ∧
    decodeCtl 0x8A958002 = some (.tcount 41 22) ∧
    decodeCtl 0x8A958003 = some (.tinfo 41 22) ∧
    decodeCtl 0x8A958D04 = some (.tlde 41 22 13) ∧
    decodeCtl 0x8A959505 = some (.hmov 41 22 true 5) ∧
    decodeCtl 0x88058006 = some (.hnull 22) ∧
    decodeCtl 0x8A958D07 = some (.hcmp 41 22 13) := by decide +kernel
theorem test_words_ctl_5 : decodeCtl 0x8A958008 = some (.hget 41 22) ∧
    decodeCtl 0x8A958009 = some (.hput 41 22) ∧
    decodeCtl 0x8A95800A = some (.uniq 41 22) ∧
    decodeCtl 0x8E958DBA = some (.upde 41 22 13 46 .h) ∧
    decodeCtl 0x92958D00 = some (.sopen 41 22 13) ∧
    decodeCtl 0x90058D01 = some (.spush 22 13 .blocking) ∧
    decodeCtl 0x90758DD2 = some (.spushh 7 22 13 (.nb 5)) ∧
    decodeCtl 0x929580E3 = some (.spop 41 22 (.nb 6)) ∧
    decodeCtl 0x92958804 = some (.spoph 41 22 8 .blocking) ∧
    decodeCtl 0x92958005 = some (.sstat 41 22) ∧
    decodeCtl 0x90058006 = some (.sclose 22) ∧
    decodeCtl 0x96958000 = some (.gopen 41 22) ∧
    decodeCtl 0x94058001 = some (.gseal 22) ∧
    decodeCtl 0x94058002 = some (.gwait 22) ∧
    decodeCtl 0x96958003 = some (.racq 41 22) ∧
    decodeCtl 0x94058004 = some (.rrel 22) ∧
    decodeCtl 0xF9C40000 = some (.mod .ar .sys .keep) := by decide +kernel
/-- Wide words from R47 to R54 and the entries, POP 5 and PUSH 2. -/
theorem test_words_wide_0 : decodeWide .fet 0x00A8000000000000 0x0000000000000000 = some (.nopWide ⟨5, 2⟩) ∧
    decodeWide .exe 0x01AAAAE800000000 0x0000000000000000 = some (.aadd ⟨5, 2⟩ 21 10 29) ∧
    decodeWide .exe 0x02AAAAE800000000 0x0000000000000000 = some (.asub ⟨5, 2⟩ 21 10 29) ∧
    decodeWide .exe 0x04AAAAE800000000 0x0000000000000000 = some (.amul ⟨5, 2⟩ 21 10 29) ∧
    decodeWide .exe 0x07AAAAE800000000 0x0000000000000000 = some (.aand ⟨5, 2⟩ 21 10 29) ∧
    decodeWide .emi 0x03AAAA044D5E6F78 0x0000000000000000 = some (.aaddi ⟨5, 2⟩ 21 10 0x89ABCDEF) ∧
    decodeWide .fet 0x05AAAAE800000000 0x0000000000000000 = some (.ashl ⟨5, 2⟩ 21 10 (.reg 29)) ∧
    decodeWide .fet 0x06AAAA000000016B 0x0000000000000000 = some (.ashr ⟨5, 2⟩ 21 10 (.imm 45) true) ∧
    decodeWide .exe 0x08AAA0044D5E6F78 0x0000000000000000 = some (.ali ⟨5, 2⟩ 21 0x89ABCDEF) ∧
    decodeWide .exe 0x09AAA003B2A19080 0x0000000000000000 = some (.alih ⟨5, 2⟩ 21 0x76543210) ∧
    decodeWide .emi 0x0AAAAAB9ABCD0000 0x0000000000000000 = some (.abr ⟨5, 2⟩ 21 10 .bc 0x9ABCD) ∧
    decodeWide .emi 0x0BA80009ABCD0000 0x0000000000000000 = some (.aj ⟨5, 2⟩ 0x9ABCD) ∧
    decodeWide .fet 0x0C02B00000000000 0x0000000000000000 = some (.aloop 21 64) ∧
    decodeWide .exe 0x0DA8000000000000 0x0000000000000000 = some (.aend ⟨5, 2⟩) ∧
    decodeWide .exe 0x0E52AA0000000003 0x0000000000000000 = some (.tkv ⟨2, 4⟩ 21 10 true true) ∧
    decodeWide .fet 0x0FAAA00000000218 0x0000000000000000 = some (.acsrr ⟨5, 2⟩ 21 0x043) ∧
    decodeWide .emi 0x10A80A0000000008 0x0000000000000000 = some (.acsrw ⟨5, 2⟩ 10 0x001) ∧
    decodeWide .exe 0x1103F1F280000000 0x0000000000000000 = some (.rep ⟨0, 0⟩ 63 1 15 2 8) ∧
    decodeWide .emi 0x1201160000000000 0x0000000000000000 = some (.modWide .rel .clu .bypass) ∧
    decodeWide .fet 0x13A80A0000000002 0x0000000000000000 = some (.tlwaitWide ⟨5, 2⟩ .ea 10) := by decide +kernel
theorem test_words_wide_1 : decodeWide .fet 0x20A8535555E6F400 0x0000000000000000 = some (.ldt ⟨5, 2⟩ .i6 41 21 10 0xABCDE) ∧
    decodeWide .fet 0x21AA595555E6F080 0x0000000000000000 = some (.ldv ⟨5, 2⟩ .b16 300 21 10 0xABCDE) ∧
    decodeWide .fet 0x22AAFF55091A2D80 0x0000000000000000 = some (.ldva ⟨5, 2⟩ .n8 383 21 10 0x12345) ∧
    decodeWide .fet 0x23AA58290259A586 0x0000000000000000 = some (.ldvt ⟨5, 2⟩ .i6 300 41 0x1A5 0x12C .stack true) ∧
    decodeWide .fet 0x24AA589600002B15 0x0000000000000000 = some (.gath ⟨5, 2⟩ .i16 5 300 150 21) ∧
    decodeWide .fet 0x25AA58960A82B180 0x0000000000000000 = some (.btgath ⟨5, 2⟩ .l8 6 300 150 21 10) ∧
    decodeWide .fet 0x26A8015055E6F000 0x0000000000000000 = some (.cec ⟨5, 2⟩ 21 0xABCDE) ∧
    decodeWide .fet 0x27A80160091A2800 0x0000000000000000 = some (.cedup ⟨5, 2⟩ 22 0x12345) ∧
    decodeWide .fet 0x28A8535055E6F000 0x0000000000000000 = some (.cecol ⟨5, 2⟩ 41 21 0xABCDE) ∧
    decodeWide .fet 0x29A8015055E6F000 0x0000000000000000 = some (.pref ⟨5, 2⟩ 21 0xABCDE) ∧
    decodeWide .fet 0x2AAA95AA00000000 0x0000000000000000 = some (.rrot ⟨5, 2⟩ 41 22 21) ∧
    decodeWide .fet 0x2BA8058000000000 0x0000000000000000 = some (.gwaitf ⟨5, 2⟩ 22) ∧
    decodeWide .fet 0x2CAA582900000F00 0x0000000000000000 = some (.spopv ⟨5, 2⟩ 300 41 15) ∧
    decodeWide .fet 0x2DA80B5055E6F000 0x0000000000000000 = some (.ldk ⟨5, 2⟩ 5 21 0xABCDE) ∧
    decodeWide .exe 0x50AA589625802A81 0x0000000000000000 = some (.vadd ⟨5, 2⟩ .i32 5 true 300 150 75) ∧
    decodeWide .exe 0x51AA589625802C81 0x0000000000000000 = some (.vsub ⟨5, 2⟩ .n32 5 true 300 150 75) ∧
    decodeWide .exe 0x52AA589625802A81 0x0000000000000000 = some (.vmul ⟨5, 2⟩ .i32 5 true 300 150 75) ∧
    decodeWide .exe 0x53AA589625897000 0x0000000000000000 = some (.vfma ⟨5, 2⟩ .f32 6 false 300 150 75 37) ∧
    decodeWide .exe 0x54AA589625897480 0x0000000000000000 = some (.vfnma ⟨5, 2⟩ .n32 6 false 300 150 75 37) ∧
    decodeWide .exe 0x55AA589625803000 0x0000000000000000 = some (.vmin ⟨5, 2⟩ .f32 6 300 150 75) := by decide +kernel
theorem test_words_wide_2 : decodeWide .exe 0x56AA589625803480 0x0000000000000000 = some (.vmax ⟨5, 2⟩ .n32 6 300 150 75) ∧
    decodeWide .exe 0x57AA589600003281 0x0000000000000000 = some (.vabs ⟨5, 2⟩ .i32 6 true 300 150) ∧
    decodeWide .exe 0x58AA589600003281 0x0000000000000000 = some (.vneg ⟨5, 2⟩ .i32 6 true 300 150) ∧
    decodeWide .exe 0x59AA589600003000 0x0000000000000000 = some (.vrcp ⟨5, 2⟩ 6 300 150) ∧
    decodeWide .exe 0x5AAA589600003000 0x0000000000000000 = some (.vrsq ⟨5, 2⟩ 6 300 150) ∧
    decodeWide .exe 0x5BAA589600003000 0x0000000000000000 = some (.vexp2 ⟨5, 2⟩ 6 300 150) ∧
    decodeWide .exe 0x5CAA589600003000 0x0000000000000000 = some (.vlog2 ⟨5, 2⟩ 6 300 150) ∧
    decodeWide .exe 0x5DA80E9625803006 0x0000000000000000 = some (.vcmp ⟨5, 2⟩ .f32 .un 6 7 150 75) ∧
    decodeWide .exe 0x5EAA589625803000 0x0000000000000000 = some (.vsel ⟨5, 2⟩ 6 300 150 75) ∧
    decodeWide .exe 0x5FAA589600003000 0x0000000000000000 = some (.vmov ⟨5, 2⟩ 6 300 150) ∧
    decodeWide .exe 0x60AA589625803000 0x0000000000000000 = some (.vand ⟨5, 2⟩ 6 300 150 75) ∧
    decodeWide .exe 0x61AA589625803000 0x0000000000000000 = some (.vor ⟨5, 2⟩ 6 300 150 75) ∧
    decodeWide .exe 0x62AA589625803000 0x0000000000000000 = some (.vxor ⟨5, 2⟩ 6 300 150 75) ∧
    decodeWide .exe 0x63AA589625803000 0x0000000000000000 = some (.vshl ⟨5, 2⟩ 6 300 150 (.reg 75)) ∧
    decodeWide .exe 0x64AA589600003035 0x0000000000000000 = some (.vshr ⟨5, 2⟩ 6 300 150 (.imm 21)) ∧
    decodeWide .exe 0x65AA58960000302A 0x0000000000000000 = some (.vsra ⟨5, 2⟩ 6 300 150 (.imm 10)) ∧
    decodeWide .exe 0x66AA580089ABCD01 0x0000000000000000 = some (.vmovi ⟨5, 2⟩ 300 (.imm 0x89ABCD)) ∧
    decodeWide .exe 0x67AA581589ABCD00 0x0000000000000000 = some (.viota ⟨5, 2⟩ 300 21 0x89ABCD) ∧
    decodeWide .exe 0x68AA589600003411 0x0000000000000000 = some (.vcvt ⟨5, 2⟩ .i6 .b16 6 true 300 150) ∧
    decodeWide .exe 0x69AA589600003201 0x0000000000000000 = some (.vlcvt ⟨5, 2⟩ .l16 6 true 300 150) := by decide +kernel
theorem test_words_wide_3 : decodeWide .exe 0x6AAA589600003180 0x0000000000000000 = some (.vlexp ⟨5, 2⟩ .l8 6 300 150) ∧
    decodeWide .exe 0x6BAA589625803181 0x0000000000000000 = some (.vlmul ⟨5, 2⟩ .l8 6 true 300 150 75) ∧
    decodeWide .exe 0x6CAA589600000401 0x0000000000000000 = some (.vpack6 ⟨5, 2⟩ true 300 150) ∧
    decodeWide .exe 0x6DAA589600000400 0x0000000000000000 = some (.vunpk6 ⟨5, 2⟩ 300 150) ∧
    decodeWide .exe 0x6EAA589600003280 0x0000000000000000 = some (.vcmpr ⟨5, 2⟩ .i32 6 300 150) ∧
    decodeWide .exe 0x6FAA589600003000 0x0000000000000000 = some (.vexpd ⟨5, 2⟩ 6 300 150) ∧
    decodeWide .exe 0x70AA58960000302D 0x0000000000000000 = some (.vrotr ⟨5, 2⟩ 6 300 150 45) ∧
    decodeWide .exe 0x71AA58960000300D 0x0000000000000000 = some (.vrotc ⟨5, 2⟩ 6 300 150 13) ∧
    decodeWide .exe 0x72AA58960000302D 0x0000000000000000 = some (.vbcr ⟨5, 2⟩ 6 300 150 45) ∧
    decodeWide .exe 0x73AA58960000300D 0x0000000000000000 = some (.vbcc ⟨5, 2⟩ 6 300 150 13) ∧
    decodeWide .exe 0x74AA589600003285 0x0000000000000000 = some (.vredr ⟨5, 2⟩ .i32 .xor 6 300 150) ∧
    decodeWide .exe 0x75AA589600003001 0x0000000000000000 = some (.vredc ⟨5, 2⟩ .f32 .min 6 300 150) ∧
    decodeWide .exe 0x76AA58960000348A 0x0000000000000000 = some (.vscnr ⟨5, 2⟩ .n32 .max true 6 300 150) ∧
    decodeWide .exe 0x78A80C0501800003 0x0000000000000000 = some (.kop ⟨5, 2⟩ .andn 6 5 3) ∧
    decodeWide .exe 0x79A80C0000000001 0x0000000000000000 = some (.kmov ⟨5, 2⟩ 6 .ones) ∧
    decodeWide .exe 0x7AA8000000000B01 0x0000000000000000 = some (.blend ⟨5, 2⟩ 11 true) ∧
    decodeWide .exe 0x7BA82A9600036D01 0x0000000000000000 = some (.vtoa ⟨5, 2⟩ 21 150 13 45 true) ∧
    decodeWide .exe 0x7CAA581500036D00 0x0000000000000000 = some (.atov ⟨5, 2⟩ 300 21 13 45) ∧
    decodeWide .exe 0xA0A8200000000000 0x0000000000000000 = some (.mlease ⟨5, 2⟩ true) ∧
    decodeWide .exe 0xA1A8000000000000 0x0000000000000000 = some (.mrel ⟨5, 2⟩) := by decide +kernel
theorem test_words_wide_4 : decodeWide .exe 0xA2AA2D9625896250 0x2D5A56CA00000000 = some (.mma ⟨5, 2⟩ .e8 .l8 true false true (.bank 11) (.va 21) 300 150 75 37 101 41 22) ∧
    decodeWide .exe 0xA3AB5A962589625D 0x756A61CA58000000 = some (.mmag ⟨5, 2⟩ .b16 .l16 false true true (.va 29) 22 41 13 300 150 75 37 101 33 11) ∧
    decodeWide .exe 0xA4A8009625B284B0 0x0000000000000000 = some (.mzero ⟨5, 2⟩ 300 150 101 75) ∧
    decodeWide .exe 0xA5AA4D2C4B6525C0 0x0001550000000000 = some (.mdrain ⟨5, 2⟩ (.store 10) .l16 true false true (some 21) 300 150 101 75) ∧
    decodeWide .exe 0xA6AAA00000000001 0x0000000000000000 = some (.mstat ⟨5, 2⟩ 21 true) ∧
    decodeWide .exe 0xA7AAAA0000000001 0x0000000000000000 = some (.mrowp ⟨5, 2⟩ 21 (some 10)) ∧
    decodeWide .emi 0xC0A852050004B201 0x0000000000000000 = some (.stv ⟨5, 2⟩ .l16 true 41 150 10) ∧
    decodeWide .emi 0xC1A8535555E6F580 0x0000000000000000 = some (.stt ⟨5, 2⟩ .n8 41 21 10 0xABCDE) ∧
    decodeWide .emi 0xC2AA595555E6F401 0x0000000000000000 = some (.stva ⟨5, 2⟩ .i6 true 300 21 10 0xABCDE) ∧
    decodeWide .emi 0xC3A80096258033B5 0x0000000000000000 = some (.scat ⟨5, 2⟩ .i8 6 true 150 75 21) ∧
    decodeWide .emi 0xC4AA595555E6F083 0x0000000000000000 = some (.stred ⟨5, 2⟩ .b16 .max false 300 21 10 0xABCDE) ∧
    decodeWide .emi 0xC5AA582900000F00 0x0000000000000000 = some (.spushv ⟨5, 2⟩ 300 41 15) ∧
    decodeWide .emi 0xC6A80B5055E6F000 0x0000000000000000 = some (.stk ⟨5, 2⟩ 5 21 0xABCDE) := by decide +kernel

/-! ### Terms the checks refuse -/

/-- The CSR numbers, bit numbers, peers, barrier levels and window sizes out of range; H0 where a handle is produced. -/
theorem test_wf_ctl : ([.csrr 1 0x004, .acsrr c0 1 0x048, .csrw 1 0x002, .csrw 1 0x120, .acsrw c0 1 0x120,
    .cmpi 1 .bs 2 64, .cmpi 1 .bc 2 64, .tkpush 3, .tkpushv 1 3, .tkpop 3, .tkpopv 1 3, .tkcnt 1 3, .dbar 0, .dbar 5,
    .hmov 0 1 false 0, .hmov 1 1 true 8, .talloc 0 1 2 .f32, .dup 0 1, .uniq 0 1, .upde 0 1 2 3 .w, .hput 0 1, .gopen 0 1,
    .sopen 5 1 5, .sopen 0 1 5, .sopen 5 1 0, .spush 1 57 .blocking, .spushh 0 1 5 .blocking, .spushh 9 1 5 .blocking,
    .spushh 8 1 57 (.nb 1), .spop 0 1 .blocking, .spop 57 1 (.nb 1), .spoph 0 1 2 .blocking, .spoph 5 1 0 .blocking,
    .spoph 5 1 9 .blocking, .spoph 57 1 8 .blocking] : List Instr).all (fun i => !i.wf) = true := by decide

/-- RECV needs one pop and SEND a push; the fields of an absent half are zero; the wide handles and V registers. -/
theorem test_wf_fetch : ([.tkv ⟨0, 1⟩ 1 0 false true, .tkv ⟨3, 1⟩ 1 0 false true, .tkv ⟨1, 0⟩ 0 1 true false,
    .tkv ⟨1, 1⟩ 1 1 true false, .tkv ⟨1, 1⟩ 1 1 false true, .ldt c0 .f32 0 1 2 0, .rrot c0 0 1 2, .ldv c0 .f32 384 1 2 0,
    .ldva c0 .f32 384 1 2 0, .ldvt c0 .i6 384 1 0 0 .direct false, .ldvt c0 .i8 0 1 0 0 .direct true,
    .gath c0 .f32 1 384 0 1, .gath c0 .f32 1 0 384 1, .gath c0 .i6 1 0 0 1, .btgath c0 .f32 1 384 0 1 1,
    .btgath c0 .f32 1 0 384 1 1, .btgath c0 .i6 1 0 0 1 1, .btgath c0 .f32 1 0 0 1 0, .btgath c0 .f32 1 0 0 1 31,
    .spopv c0 384 1 0, .spushv c0 384 1 0, .ldk c0 0 1 0] : List Instr).all (fun i => !i.wf) = true := by decide

/-- SAT off the integers, K0 as a destination, the un condition off F32, types the entries do not take, V registers. -/
theorem test_wf_vector : ([.vadd c0 .f32 1 true 0 0 0, .vadd c0 .f32 1 false 384 0 0, .vsub c0 .f32 1 false 0 384 0,
    .vmul c0 .f32 1 false 0 0 384, .vfma c0 .f32 1 true 0 0 0 0, .vfnma c0 .f32 1 false 0 0 0 384, .vmin c0 .f32 1 384 0 0,
    .vmax c0 .f32 1 0 0 384, .vabs c0 .f32 1 true 0 0, .vneg c0 .i32 1 false 384 0, .vrcp c0 1 384 0, .vrsq c0 1 0 384,
    .vexp2 c0 1 384 0, .vlog2 c0 1 0 384, .vcmp c0 .f32 .eq 1 0 0 0, .vcmp c0 .i32 .un 1 1 0 0, .vcmp c0 .i32 .eq 1 1 384 0,
    .vsel c0 1 384 0 0, .vmov c0 1 0 384, .vand c0 1 384 0 0, .vor c0 1 0 384 0, .vxor c0 1 0 0 384, .vshl c0 1 384 0 (.imm 0),
    .vshr c0 1 0 0 (.reg 384), .vsra c0 1 0 384 (.imm 0), .vmovi c0 384 (.imm 0), .viota c0 384 1 0, .vcvt c0 .l8 .f32 1 false 0 0,
    .vcvt c0 .f32 .l16 1 false 0 0, .vcvt c0 .f32 .i8 1 true 0 0, .vcvt c0 .i8 .f32 1 false 384 0, .vlcvt c0 .l8 1 false 384 0,
    .vlexp c0 .l8 1 384 0, .vlmul c0 .l8 1 false 384 0 0, .vpack6 c0 false 384 0, .vunpk6 c0 384 0, .vcmpr c0 .n32 1 0 0,
    .vcmpr c0 .f32 0 0 0, .vexpd c0 1 384 0, .vrotr c0 1 384 0 1, .vbcr c0 1 0 384 1, .vrotc c0 1 384 0 1, .vbcc c0 1 0 384 1,
    .vredr c0 .f32 .and 1 0 0, .vredc c0 .f32 .xor 1 0 0, .vscnr c0 .i32 .and false 1 0 0, .kop c0 .and 0 1 1, .kop c0 .not 1 1 1,
    .kmov c0 0 .ones, .blend c0 12 true, .vtoa c0 1 384 0 0 true, .atov c0 384 1 0 0] : List Instr).all (fun i => !i.wf) = true := by
  decide

/-- The matrix operands: address pairs, banks, scales that are absent, the windows of a group; the stores' types and options. -/
theorem test_wf_matrix : ([.mma c0 .b16 .b16 false false false (.va 0) (.va 1) 0 0 0 0 0 0 0,
    .mma c0 .b16 .b16 false false false (.va 1) (.va 31) 0 0 0 0 0 0 0, .mma c0 .b16 .b16 false false false (.bank 12) (.va 1) 0 0 0 0 0 0 0,
    .mma c0 .b16 .b16 false false false (.va 1) (.va 1) 0 0 0 0 0 1 0, .mmag c0 .b16 .b16 false false false (.va 1) 50 1 14 0 0 0 0 0 0 0,
    .mmag c0 .b16 .b16 false false false (.va 1) 5 1 1 0 0 0 0 0 0 1, .mmag c0 .b16 .b16 false false true (.va 1) 5 1 1 0 0 0 0 0 0 63,
    .mdrain c0 (.vregs 384) .f32 false false false none 0 0 0 0, .mdrain c0 (.vregs 383) .f32 false false false none 16 0 0 0,
    .mdrain c0 (.tile 0) .f32 false false false none 0 0 0 0, .mdrain c0 (.add 1) .e8 false false false none 0 0 0 0,
    .mdrain c0 (.store 1) .i32 false false false none 0 0 0 0, .stv c0 .f32 false 0 0 1, .stv c0 .f32 false 1 384 1,
    .stva c0 .f32 false 384 1 2 0, .scat c0 .i6 1 false 0 0 1, .scat c0 .f32 1 false 384 0 1, .stred c0 .i6 .store false 0 1 2 0,
    .stred c0 .i8 .add false 0 1 2 0, .stred c0 .i32 .add true 0 1 2 0, .stred c0 .f32 .store false 384 1 2 0] : List Instr).all
      (fun i => !i.wf) = true := by decide

/-- Events that name units the device has not. -/
theorem test_wf_events : ([.trapEntry 128, .stopPress 0 256, .stopPress 128 0, .dispatch 2, .dieCopyUpdate 2 0, .budgetHold 2 0 0,
    .budgetHold 0 64 0, .budgetHold 0 0 8, .leaseGrant 32, .gangLeaseTimeout 32, .launchRecord 512, .contextEnable 512,
    .contextDisable 512, .lsOpen 512 0, .lsClose 512, .linkReplay 32, .linkUp 32 0, .deviceLost 256] : List Instr).all
      (fun i => !i.wf) = true := by decide

/-- A wide instruction is fetched by its own strand, and an event by none (R51). -/
theorem test_in_strand : (Instr.ldk c0 1 1 0).inStrand .exe = false ∧ (Instr.vmov c0 1 0 0).inStrand .fet = false ∧
    (Instr.stk c0 1 1 0).inStrand .fet = false ∧ (Instr.aend c0).inStrand .ctl = false ∧ (Instr.nop).inStrand .fet = false ∧
    (Instr.trapEntry 0).inStrand .ctl = false ∧ decodeWide .exe 0x2C00501100000300 0 = none ∧
    decodeWide .emi 0x5000000000000001 0 = none := by decide

/-- Words with a bit set that the encoding leaves 0 (R55), and an unlisted opcode. -/
theorem test_reserved_bits : decodeWide .exe 0x5000000000000001 0 = none ∧ decodeWide .exe 0x1800000000000000 0 = none ∧
    decodeCtl 0x00000100 = none ∧ decodeCtl 0xFFFFFFFF = none ∧ decodeCtl 0x0000000D = none ∧ decodeCtl 0x80000103 = none := by
  decide +kernel

/-! ### Worked numbers -/

/-- The worked conversions after R153. -/
theorem test_lns : (lns16 false (f32v 0x3F8CCCCD)).map l16c id = (0x0012, .none) ∧
    (lns16 false (f32v (b16Slot 0xC040))).map l16c id = (0x80CB, .none) ∧
    (lns8 false (e8v 0x3C)).map l8c id = (0x05, .none) ∧ (lns8 false (e8v 0x30)).map l8c id = (0x78, .none) ∧
    (lns8 true (e8v 0x7E)).map l8c id = (0x3F, .sat) := by decide +kernel
theorem test_lin : lin32 (l16v 0x0012) = 0x3F8D1B12 ∧ lin32 (l16v 0x80CB) = 0xC04020EF ∧ lin32 (lwiden (l8v 0x05)) = 0x3FC5672A ∧
    lin32 (lwiden (l8v 0x78)) = 0x3F000000 ∧ lin32 (lwiden (l8v 0x3F)) = 0x436AC0C7 := by decide +kernel
/-- The worked chunk after R176: 16.0 and three terms give 0x4181_2E23, and LOSS. -/
theorem test_chunk : chunkStep none [(l16v 0x000A, l16v 0x0005), (l16v 0xFFFA, l16v 0x7FFA), (l16v 0x5F94, l16v 0xFFFF)] 0x41800000 =
    (0x41812E23, 2) ∧ (chunkValue [(15, false), (-12, true), (-8301, true)]).1 = 0x3E17119F := by decide +kernel
/-- VEXP2 of 0.5 under RNE (R194). -/
theorem test_exp2 : (fExp2 .rne false (f32v 0x3F000000)).1 = 0x3FB504F3 := by decide +kernel
/-- The E8 grid of R154: 17 to 16, 464 to 448, 480 to NaN or the largest with SAT. -/
theorem test_nrw8 : (nrw8 .rne false (f32v 0x41880000)).code = 0x58 ∧ (nrw8 .rne false (f32v 0x43E80000)).code = 0x7E ∧
    (nrw8 .rne false (f32v 0x43F00000)).code = 0x7F ∧ (nrw8 .rne true (f32v 0xC3F00000)).code = 0xFE := by decide +kernel

/-! ### One instruction on a small state -/

/-- The register after one instruction. -/
def regAfter (i : Instr) (d : BitVec 6) (s : State) : W64 := (after i s).me.rS d
/-- R119: the shift amount is B's low six bits; divides by 0; MULHN is unsigned; the most negative number by −1. -/
theorem test_int : regAfter (.shl 3 1 2) 3 (tS [(1, 3), (2, 65)]) = 6 ∧ regAfter (.sra 3 1 2) 3 (tS [(1, 0x8000000000000000), (2, 63)]) =
    0xFFFFFFFFFFFFFFFF ∧ regAfter (.mulhn 3 1 1) 3 (tS [(1, 0xFFFFFFFFFFFFFFFF)]) = 0xFFFFFFFFFFFFFFFE ∧
    regAfter (.mulh 3 1 1) 3 (tS [(1, 0xFFFFFFFFFFFFFFFF)]) = 0 ∧
    regAfter (.rem 3 1 2) 3 (tS [(1, 0xFFFFFFFFFFFFFFF9), (2, 2)]) = 0xFFFFFFFFFFFFFFFF ∧
    regAfter (.addi 1 1 0x3FFF) 1 (tS [(1, 5)]) = 4 ∧ regAfter (.add 0 1 1) 0 (tS [(1, 5)]) = 0 ∧
    regAfter (.lik 1 3 0xBEEF) 1 (tS [(1, 7)]) = 0xBEEF000000000007 ∧ regAfter (.clz 3 1) 3 (tS [(1, 0)]) = 64 := by decide +kernel
/-- R131: LDS zero-extends and STS stores the low bytes, low byte at the lowest address, through the page at 0x2020_0000. -/
theorem test_lds : regAfter (.lds 3 1 2 .h) 3 { tS [(1, 0x1000)] with mem := msets memDefault tU.mem 0x20201004 [0xCD, 0xAB] } =
    0xABCD := by decide +kernel
/-- R133 and R159: STRAND reads as zero on CTL of cell place 0, and a write of FPC keeps bits 15 to 0. -/
theorem test_csr : regAfter (.csrr 5 0x002) 5 tU = 0 ∧ (after (.csrw 1 0x000) (tS [(1, 0xFFFFFFFF)])).me.ctl.fpc = 0xFFFF := by
  decide +kernel
/-- R126: a branch counts words from its own address. -/
theorem test_br : (after (.brn 1 0x3FFFFD) tU).me.ctl.pc = 0x1000 - 12 := by decide +kernel
/-- R316: TRAP in U mode is USER_TRAP, with n in TRAPINFO and the next word in TRAPPC. -/
theorem test_trap : (after (.trap 5) tU).me.mode = .s ∧ (after (.trap 5) tU).me.trappc = 0x1004 ∧
    (after (.trap 5) tU).me.trapinfo = 5 := by decide +kernel

end Sys2Proof.Tests
end

section
/-! PROOF. References to tiles in the H registers (O24). A frame for the body of a CTL instruction that leaves S and P
alone, the finish of such an instruction said once, the checks and counts of R95 to R105 on a live tile, and then one
theorem for each case of the statement. -/

namespace Sys2Proof.Machine

/-! ### The body of a CTL instruction and its finish -/

/-- What `f` hides of a core is neither S nor P nor CTL's strand. -/
structure ShowsCtl (f : Core → Core) : Prop where
  s : ∀ k, (f k).s = k.s
  p : ∀ k, (f k).p = k.p
  ctl : ∀ k, (f k).ctl = k.ctl
  restCtl : ∀ k, f k.restCtl = (f k).restCtl

theorem showsCtl_hideH : ShowsCtl Core.hideH := ⟨fun _ => rfl, fun _ => rfl, fun _ => rfl, fun _ => rfl⟩
theorem showsCtl_hideTiles : ShowsCtl Core.hideTiles := ⟨fun _ => rfl, fun _ => rfl, fun _ => rfl, fun _ => rfl⟩

/-- What a body changes lies within `Frame`, and the same core goes on issuing. -/
structure BodyFrame (g : State → State) (f : Core → Core) (s t : State) : Prop extends Frame g f s t where
  cur : t.cur = s.cur

/-- An instruction of CTL whose body ends in `s'`: it finishes there. -/
def Finishes (i : Instr) (s s' : State) : Prop := exec i s = .next (finishCtl s.cur.core false s.me.stepArm s')

/-- What the finish of an instruction keeps of what its body did to handles, records and messages. -/
structure FinishKeeps (s t : State) : Prop where
  handles : SameH s t
  folio : ∀ f, t.folio s.cur.core f = s.folio s.cur.core f
  msgs : t.msgs = s.msgs

theorem rest_msgs {s t : State} (h : t.rest = s.rest) : t.msgs = s.msgs := by
  have := congrArg State.msgs h; exact this
theorem rest_mem {s t : State} (h : t.rest = s.rest) : t.mem = s.mem := by
  have := congrArg State.mem h; exact this

section
variable {g : State → State} {f : Core → Core} {s s' : State}

theorem BodyFrame.refl (g : State → State) (f : Core → Core) (s : State) : BodyFrame g f s s :=
  ⟨⟨rfl, fun _ _ => rfl, rfl⟩, rfl⟩

/-- A change of the issuing core that `f` hides stays in the frame. -/
theorem BodyFrame.modCore (h : BodyFrame g f s s') {F : Core → Core} (hF : ∀ k, f (F k) = f k) :
    BodyFrame g f s (s'.modCore s.cur.core F) := by
  refine ⟨⟨h.rest, fun c hc => (State.core_modCore_ne _ _ _ _ hc).trans (h.cores c hc), ?_⟩, h.cur⟩
  have hme : (s'.modCore s.cur.core F).me = F s'.me := by
    rw [← h.cur]; exact State.core_modCore s' _ F
  rw [hme, hF, h.core]

theorem BodyFrame.wH (h : BodyFrame g f s s') (hF : ∀ k d v, f (Core.wH k d v) = f k) (d : BitVec 6) (v : W64) :
    BodyFrame g f s (s'.wH d v) := by
  have := h.modCore (F := fun k => k.wH d v) (fun k => hF k d v)
  rwa [← h.cur] at this

end

/-- The finish of an instruction leaves its core as the body did, but for the place where CTL stands. -/
theorem finishCtl_restCtl (s : State) : (finishCtl s.cur.core false false s).me.restCtl = s.me.restCtl := by
  obtain ⟨-, -, -, hme⟩ := finishCtl_view s false
  rw [hme]
  show ({ s.me with s := _, p := _, ctl := ((s.me.ctl.advance 4 4).clear).rest } : Core) = _
  rw [StrandSt.rest_clear, StrandSt.rest_advance]; rfl

theorem finishCtl_keeps (s : State) : FinishKeeps s (finishCtl s.cur.core false false s) := by
  obtain ⟨hrest, -, -, hme⟩ := finishCtl_view s false
  have hcur : (finishCtl s.cur.core false false s).cur = s.cur := rest_cur hrest
  refine ⟨fun r => ?_, fun i => ?_, rest_msgs hrest⟩
  · show Core.rH _ r = Core.rH _ r
    rw [hme]; rfl
  · have hfolio : (finishCtl s.cur.core false false s).me.folio = s.me.folio := by rw [hme]; rfl
    rw [State.me, hcur] at hfolio
    show mget _ _ i = mget _ _ i
    rw [hfolio]; rfl

section
variable {g : State → State} {f : Core → Core} {s s' : State}

/-- The finish of a body that stayed within a frame: S and P are as before, and CTL goes on to the next word. -/
theorem BodyFrame.finish (h : BodyFrame g f s s') (hf : ShowsCtl f) :
    let t := finishCtl s'.cur.core false false s'
    SameS s t ∧ SameP s t ∧ CtlRan g f s t := by
  obtain ⟨hrest, -, hcores, hme⟩ := finishCtl_view s' false
  have hS : s'.me.s = s.me.s := by rw [← hf.s, h.core, hf.s]
  have hP : s'.me.p = s.me.p := by rw [← hf.p, h.core, hf.p]
  have hctl : s'.me.ctl = s.me.ctl := by rw [← hf.ctl, h.core, hf.ctl]
  refine ⟨fun r => ?_, fun p => ?_, ⟨⟨(congrArg g hrest).trans h.rest, fun c hc => ?_, ?_⟩, ?_, ?_⟩⟩
  · show Core.rS _ r = Core.rS _ r
    rw [hme]; unfold Core.rS; rw [Core.modStrand_s, hS]
  · show Core.rP _ p = Core.rP _ p
    rw [hme]; unfold Core.rP; rw [Core.modStrand_p, hP]
  · exact (hcores c (by rwa [h.cur])).trans (h.cores c hc)
  · show f (Core.restCtl _) = f (Core.restCtl _)
    rw [finishCtl_restCtl, hf.restCtl, h.core, ← hf.restCtl]
  · rw [hme, ← hctl]; rfl
  · rw [hme, ← hctl]; rfl

/-- An instruction that finishes within a frame that hides neither S nor P nor CTL's place: CTL goes on to the next word,
and handles, records and messages are as the body left them. -/
theorem Finishes.ran {i : Instr} (hi : Finishes i s s') (hs : Steady s) (hf : ShowsCtl f) (h : BodyFrame g f s s') :
    ∃ t, exec i s = .next t ∧ FinishKeeps s' t ∧ SameS s t ∧ SameP s t ∧ CtlRan g f s t :=
  ⟨_, by rw [hi, hs, h.cur], finishCtl_keeps s', h.finish hf⟩

end

/-! ### Handles, records and messages under the operations of a body -/

theorem State.rH_zero (s : State) : s.rH 0 = 0 := by
  show Core.rH _ _ = _
  exact if_pos rfl

/-- A change of a core that leaves H alone. -/
theorem State.rH_modCore (s : State) (c : Nat) {F : Core → Core} (hF : ∀ k, (F k).h = k.h) : SameH s (s.modCore c F) := by
  intro r
  have hh : (s.modCore c F).me.h = s.me.h := by
    by_cases hc : s.cur.core = c
    · subst hc
      show ((s.modCore s.cur.core F).core s.cur.core).h = _
      rw [State.core_modCore, hF]; rfl
    · exact congrArg Core.h (State.core_modCore_ne s c _ F hc)
  show Core.rH _ r = Core.rH _ r
  unfold Core.rH
  rw [hh]

theorem State.rH_setFolio (s : State) (c f : Nat) (x : Folio) : SameH s (s.setFolio c f x) :=
  s.rH_modCore c (fun _ => rfl)
theorem State.rH_setGals (s : State) (c first n : Nat) (f : Gal → Gal) : SameH s (s.setGals c first n f) :=
  s.rH_modCore c (fun _ => rfl)

@[simp] theorem State.folio_setFolio (s : State) (c f : Nat) (x : Folio) : (s.setFolio c f x).folio c f = x := by
  simp [State.folio, State.setFolio]
@[simp] theorem State.folio_wH (s : State) (d : BitVec 6) (v : W64) (c f : Nat) : (s.wH d v).folio c f = s.folio c f := by
  show mget _ (((s.modCore s.cur.core _).core c).folio) f = _
  by_cases hc : c = s.cur.core
  · subst hc; rw [State.core_modCore, Core.wH_folio]; rfl
  · rw [State.core_modCore_ne _ _ _ _ hc]; rfl

theorem Core.hideH_wH (k : Core) (d : BitVec 6) (v : W64) : (k.wH d v).hideH = k.hideH := by
  unfold Core.wH; split <;> rfl
theorem Core.hideTiles_wH (k : Core) (d : BitVec 6) (v : W64) : (k.wH d v).hideTiles = k.hideTiles := by
  unfold Core.wH; split <;> rfl

theorem SameH.trans {s t u : State} (h : SameH s t) (g : SameH t u) : SameH s u := fun r => (g r).trans (h r)

/-- One register written after a body that left H alone. -/
theorem SameH.wroteH {s s' t : State} {d : BitVec 6} {v : W64} (h : SameH s s') (ht : SameH (s'.wH d v) t) :
    WroteH s t d v := fun r => by rw [ht r, State.rH_wH, h r]

/-- Two registers written one after the other. -/
theorem wroteH2_of_wH_wH {s t : State} {a d : BitVec 6} {v w : W64} (ht : SameH ((s.wH a v).wH d w) t) :
    WroteH2 s t a v d w := by
  intro r
  rw [ht r, State.rH_wH, State.rH_wH]
  by_cases h0 : r = 0
  · subst h0; simp only [ne_eq, not_true_eq_false, and_false, if_false, if_true, State.rH_zero]
  · simp only [ne_eq, h0, not_false_eq_true, and_true, if_false]

/-- The same register written twice holds what was written last. -/
theorem wroteH2_of_eq {s t : State} {a d : BitVec 6} {v w : W64} (h : d = a) (ht : SameH (s.wH d w) t) :
    WroteH2 s t a v d w := by
  subst h
  intro r
  rw [ht r, State.rH_wH]
  by_cases h0 : r = 0
  · subst h0; simp only [ne_eq, not_true_eq_false, and_false, if_false, if_true, State.rH_zero]
  · simp only [ne_eq, h0, not_false_eq_true, and_true, if_false]
    by_cases hd : r = d
    · rw [if_pos hd, if_pos hd]
    · rw [if_neg hd, if_neg hd, if_neg hd]

/-- A posted message is in no core. -/
theorem BodyFrame.post (f : Core → Core) (s : State) (m : Msg) :
    BodyFrame (fun x => { x with msgs := [] }) f s (s.post m) :=
  ⟨⟨rfl, fun _ _ => rfl, rfl⟩, rfl⟩

theorem BodyFrame.setFolio {g : State → State} {s s' : State} (h : BodyFrame g Core.hideTiles s s') (f : Nat) (x : Folio) :
    BodyFrame g Core.hideTiles s (s'.setFolio s.cur.core f x) := h.modCore (fun _ => rfl)
theorem BodyFrame.setGals {g : State → State} {s s' : State} (h : BodyFrame g Core.hideTiles s s') (first n : Nat)
    (f : Gal → Gal) : BodyFrame g Core.hideTiles s (s'.setGals s.cur.core first n f) := h.modCore (fun _ => rfl)

theorem CtlRan.sameBytes {f : Core → Core} {s t : State} (h : CtlRan id f s t) : SameBytes s t := by
  intro a
  rw [rest_mem h.rest]

/-! ### Checks of a handle that pass (R88, R89, R105) -/

theorem trapIf_false (s : State) (c : Nat) : trapIf s false c = .ok () := rfl
theorem orTrap_none (s : State) : orTrap s none = .ok () := rfl

theorem isNull_of_isTile {h : W64} (ht : isTile h = true) : isNull h = false := by
  simp only [isTile, isNull, decide_eq_true_eq, decide_eq_false_iff_not] at *; omega
theorem isEnd_of_isTile {h : W64} (ht : isTile h = true) : isEnd h = false := by
  simp only [isTile, isEnd, decide_eq_true_eq] at *; simp [ht]
theorem isNull_of_isEnd {h : W64} (he : isEnd h = true) : isNull h = false := by
  simp only [isEnd, isNull, Bool.or_eq_true, decide_eq_true_eq, decide_eq_false_iff_not] at *; omega

theorem handleKind_of_isTile {h : W64} (ht : isTile h = true) (hb : hBad h = false) : handleKind h = none := by
  simp [handleKind, isNull_of_isTile ht, ht, hb]

theorem atHome_of_here {s : State} {h : W64} (hh : homeHere s h = true) (hc : hCore h = s.cur.core) :
    atHome s h = true := by simp [atHome, hh, hc]
theorem atHome_of_away {s : State} {h : W64} (ha : hCore h ≠ s.cur.core ∨ homeHere s h = false) :
    atHome s h = false := by
  rcases ha with hc | hh
  · simp [atHome, hc]
  · simp [atHome, hh]

/-- The check of a tile that is live where it is homed at the issuing core, and that a home elsewhere checks itself. -/
theorem checkMine_ok {s : State} {h : W64} (ht : isTile h = true) (hb : hBad h = false)
    (hl : atHome s h = true → recordCheck s s.me.ctxOf h = none) : checkMine s h (handleKind h) = .ok () := by
  unfold checkMine
  rw [handleKind_of_isTile ht hb, orTrap_none]
  cases hat : atHome s h with
  | false => rfl
  | true => rw [hl hat, orTrap_none]; rfl

theorem TileHere.checkMine {s : State} {h : W64} (hh : TileHere s h) : checkMine s h (handleKind h) = .ok () :=
  checkMine_ok hh.tile hh.good (fun _ => hh.live)

theorem destFree_ok {s : State} {d : BitVec 6} {a : Option (BitVec 6)} (h : a = some d ∨ isNull (s.rH d) = true) :
    destFree s d a = .ok () := by
  have : (a != some d && !isNull (s.rH d)) = false := by rcases h with h | h <;> simp [h]
  rw [destFree, this, trapIf_false]

/-- The record of a live tile is in use, in the handle's generation. -/
theorem TileHere.record {s : State} {h : W64} (hh : TileHere s h) :
    (s.folio (hCore h) (hFolio h)).used = true ∧ (s.folio (hCore h) (hFolio h)).gen = hGen h := by
  have hl := hh.live
  unfold recordCheck at hl
  dsimp only at hl
  split at hl
  · cases hl
  · split at hl
    · cases hl
    · next hu => simpa using hu

/-! ### A reference given up (R93, R95, R96) -/

theorem freeTile_bodyFrame (s : State) (f : Nat) : BodyFrame id Core.hideTiles s (freeTile s.cur.core f s) :=
  ((BodyFrame.refl _ _ s).setGals _ _ _).setFolio _ _

theorem freeTile_sameH (s : State) (c f : Nat) : SameH s (freeTile c f s) :=
  (State.rH_setGals _ _ _ _ _).trans (State.rH_setFolio _ _ _ _)

/-- The record of a tile whose last reference goes is free, in the next generation. -/
theorem freeTile_folio (s : State) (c f : Nat) :
    (freeTile c f s).folio c f = { Folio.init with gen := ((s.folio c f).gen + 1) % 4096 } := by
  unfold freeTile; exact State.folio_setFolio _ _ _ _

theorem countDown_last {s : State} {c f n : Nat} (h : (s.folio c f).count ≤ n) : countDown c f n s = freeTile c f s :=
  if_pos h
theorem countDown_more {s : State} {c f n : Nat} (h : n < (s.folio c f).count) :
    countDown c f n s = s.setFolio c f { s.folio c f with count := (s.folio c f).count - n } :=
  if_neg (Nat.not_le.mpr h)

theorem countDown_bodyFrame (s : State) (f n : Nat) : BodyFrame id Core.hideTiles s (countDown s.cur.core f n s) := by
  rcases Nat.lt_or_ge n (s.folio s.cur.core f).count with h | h
  · rw [countDown_more h]; exact (BodyFrame.refl _ _ s).setFolio _ _
  · rw [countDown_last h]; exact freeTile_bodyFrame _ _

theorem countDown_sameH (s : State) (c f n : Nat) : SameH s (countDown c f n s) := by
  rcases Nat.lt_or_ge n (s.folio c f).count with h | h
  · rw [countDown_more h]; exact State.rH_setFolio _ _ _ _
  · rw [countDown_last h]; exact freeTile_sameH _ _ _

theorem counted_of_weight {h : W64} (hw : hWeight h = 0) : counted h = true := by simp [counted, hw]
theorem counted_of_proxy {h : W64} (hw : hWeight h ≠ 0) : counted h = false := by simp [counted, hw]

/-- A counted reference given up at its home lowers the count there. -/
theorem giveUp_here {s : State} {h : W64} {st : Strand} {sup : Bool} (hh : TileHere s h) (hc : hCore h = s.cur.core)
    (hw : hWeight h = 0) : giveUp s.cur.core st h sup s = countDown s.cur.core (hFolio h) 1 s := by
  obtain ⟨hu, hg⟩ := hh.record
  rw [hc] at hu hg
  simp [giveUp, counted_of_weight hw, hh.here, hc, hu, hg]

/-- Given up elsewhere, it is a message to its home. -/
theorem giveUp_away {s : State} {h : W64} {st : Strand} {sup : Bool} (hc : hCore h ≠ s.cur.core) (hw : hWeight h = 0) :
    giveUp s.cur.core st h sup s = s.post (.delta s.cur.core st h (-1) .drop s.cycle sup) := by
  simp [giveUp, counted_of_weight hw, hc]

/-! ### What each instruction's body does -/

section
variable {s : State} {d a : BitVec 6}

/-- DUP of a counted reference at its home counts one more there. -/
theorem dup_finishes_here (hh : TileHere s (s.rH a)) (hc : hCore (s.rH a) = s.cur.core) (hw : hWeight (s.rH a) = 0)
    (hd : isNull (s.rH d) = true) (hn : (s.folio s.cur.core (hFolio (s.rH a))).count < 2 ^ 24 - 1) :
    Finishes (.dup d a) s ((s.setFolio s.cur.core (hFolio (s.rH a)) { s.folio s.cur.core (hFolio (s.rH a)) with
      count := (s.folio s.cur.core (hFolio (s.rH a))).count + 1 }).wH d (s.rH a)) := by
  have hroom : decide (2 ^ 24 - 1 ≤ (s.folio s.cur.core (hFolio (s.rH a))).count) = false := by simpa using hn
  rw [Finishes, exec_dup]
  apply runCtl_ok
  simp only [isNull_of_isTile hh.tile, isEnd_of_isTile hh.tile, trapIf_false, hh.checkMine, destFree_ok (.inr hd), hw,
    counted_of_weight hw, atHome_of_here hh.here hc, hc, hroom]
  rfl

/-- DUP of a proxy halves the weight it stands for. -/
theorem dup_finishes_proxy (ht : isTile (s.rH a) = true) (hb : hBad (s.rH a) = false) (hw : 2 ≤ hWeight (s.rH a))
    (ha : hCore (s.rH a) ≠ s.cur.core ∨ homeHere s (s.rH a) = false) (hd : isNull (s.rH d) = true) :
    Finishes (.dup d a) s ((s.wH a (hSetWeight (s.rH a) (hWeight (s.rH a) - 1))).wH d
      (hSetWeight (s.rH a) (hWeight (s.rH a) - 1))) := by
  have hcheck : checkMine s (s.rH a) (handleKind (s.rH a)) = .ok () :=
    checkMine_ok ht hb (fun h => by simp [atHome_of_away ha] at h)
  have hone : hWeight (s.rH a) ≠ 1 := by omega
  rw [Finishes, exec_dup]
  apply runCtl_ok
  simp only [isNull_of_isTile ht, isEnd_of_isTile ht, trapIf_false, hcheck, destFree_ok (.inr hd), hone,
    counted_of_proxy (show hWeight (s.rH a) ≠ 0 by omega)]
  rfl

/-- DUP of a counted reference elsewhere sends its home a count. -/
theorem dup_finishes_away (hh : TileHere s (s.rH a)) (hc : hCore (s.rH a) ≠ s.cur.core) (hw : hWeight (s.rH a) = 0)
    (hd : isNull (s.rH d) = true) :
    Finishes (.dup d a) s
      ((s.post (.delta s.cur.core .ctl (s.rH a) 1 (.dup d) s.cycle (s.mode != .u))).wH d (s.rH a)) := by
  rw [Finishes, exec_dup]
  apply runCtl_ok
  simp only [isNull_of_isTile hh.tile, isEnd_of_isTile hh.tile, trapIf_false, hh.checkMine, destFree_ok (.inr hd), hw,
    counted_of_weight hw, atHome_of_away (.inl hc)]
  rfl

theorem letGoReg_tile (hh : TileHere s (s.rH a)) :
    letGoReg a s = .ok ((giveUp s.cur.core .ctl (s.rH a) (s.mode != .u) s).wH a 0) := by
  unfold letGoReg
  simp only [isEnd_of_isTile hh.tile, hh.checkMine]
  rfl

/-- DROP and HNULL of a live tile give its reference up. -/
theorem letGo_finishes {i : Instr} (hi : i ∈ [Instr.drop a, .hnull a]) (hh : TileHere s (s.rH a)) :
    Finishes i s ((giveUp s.cur.core .ctl (s.rH a) (s.mode != .u) s).wH a 0) := by
  have hnull := isNull_of_isTile hh.tile
  rw [List.mem_pair] at hi
  rcases hi with rfl | rfl
  · rw [Finishes, exec_drop]
    apply runCtl_ok
    simp only [hnull, trapIf_false, letGoReg_tile hh]
    rfl
  · rw [Finishes, exec_hnull]
    apply runCtl_ok
    simp only [hnull, letGoReg_tile hh]
    rfl

/-- HMOV leaves its source null and its destination with the handle, its rights narrowed; it moves any handle as it is
(log 84). -/
theorem hmov_finishes {restrict : Bool} {keep : BitVec 4} (hd : d = a ∨ isNull (s.rH d) = true) :
    Finishes (.hmov d a restrict keep) s ((if d = a then s else s.wH a 0).wH d
      (if restrict then hSetRights (s.rH a) (hRights (s.rH a) &&& keep.toNat) else s.rH a)) := by
  have hfree : destFree s d (some a) = .ok () := destFree_ok (hd.imp_left (fun h => by rw [h]))
  rw [Finishes, exec_hmov]
  apply runCtl_ok
  simp only [hfree]
  rfl

theorem hput_finishes (hm : s.mode ≠ .u) : Finishes (.hput d a) s (s.wH d (s.rS a)) := by
  have hp : needPriv s = .ok () := by
    rw [needPriv, beq_eq_false_iff_ne.mpr hm, trapIf_false]
  rw [Finishes, exec_hput]
  apply runCtl_ok
  simp only [hp]
  rfl

end

/-! ### The cases of the statement -/

section
variable {s : State} {d a : BitVec 6}

theorem dup_here (hh : TileHere s (s.rH a)) (hc : hCore (s.rH a) = s.cur.core) (hw : hWeight (s.rH a) = 0)
    (hd : isNull (s.rH d) = true) (hn : (s.folio s.cur.core (hFolio (s.rH a))).count < 2 ^ 24 - 1) (hs : Steady s) :
    ∃ t, exec (.dup d a) s = .next t ∧ WroteH s t d (s.rH a) ∧
      t.folio s.cur.core (hFolio (s.rH a)) = { s.folio s.cur.core (hFolio (s.rH a)) with
        count := (s.folio s.cur.core (hFolio (s.rH a))).count + 1 } ∧
      SameS s t ∧ SameP s t ∧ CtlRan id Core.hideTiles s t := by
  obtain ⟨t, ht, hk, hS, hP, hran⟩ := (dup_finishes_here hh hc hw hd hn).ran hs showsCtl_hideTiles
    (((BodyFrame.refl id _ s).setFolio _ _).wH Core.hideTiles_wH _ _)
  refine ⟨t, ht, (State.rH_setFolio s _ _ _).wroteH hk.handles, ?_, hS, hP, hran⟩
  exact (hk.folio _).trans (by rw [State.folio_wH]; exact State.folio_setFolio _ _ _ _)

theorem dup_proxy (ht : isTile (s.rH a) = true) (hb : hBad (s.rH a) = false) (hw : 2 ≤ hWeight (s.rH a))
    (ha : hCore (s.rH a) ≠ s.cur.core ∨ homeHere s (s.rH a) = false) (hd : isNull (s.rH d) = true) (hs : Steady s) :
    ∃ t, exec (.dup d a) s = .next t ∧
      WroteH2 s t a (hSetWeight (s.rH a) (hWeight (s.rH a) - 1)) d (hSetWeight (s.rH a) (hWeight (s.rH a) - 1)) ∧
      SameS s t ∧ SameP s t ∧ CtlRan id Core.hideH s t := by
  obtain ⟨t, hx, hk, hrest⟩ := (dup_finishes_proxy ht hb hw ha hd).ran hs showsCtl_hideH
    (((BodyFrame.refl id _ s).wH Core.hideH_wH _ _).wH Core.hideH_wH _ _)
  exact ⟨t, hx, wroteH2_of_wH_wH hk.handles, hrest⟩

theorem dup_away (hh : TileHere s (s.rH a)) (hc : hCore (s.rH a) ≠ s.cur.core) (hw : hWeight (s.rH a) = 0)
    (hd : isNull (s.rH d) = true) (hs : Steady s) :
    ∃ t, exec (.dup d a) s = .next t ∧ WroteH s t d (s.rH a) ∧
      t.msgs = s.msgs ++ [.delta s.cur.core .ctl (s.rH a) 1 (.dup d) s.cycle (s.mode != .u)] ∧
      SameS s t ∧ SameP s t ∧ CtlRan (fun x => { x with msgs := [] }) Core.hideH s t := by
  obtain ⟨t, hx, hk, hS, hP, hran⟩ := (dup_finishes_away hh hc hw hd).ran hs showsCtl_hideH
    ((BodyFrame.post _ s _).wH Core.hideH_wH _ _)
  exact ⟨t, hx, SameH.wroteH (fun _ => rfl) hk.handles, hk.msgs, hS, hP, hran⟩

theorem letGo_here {i : Instr} (hi : i ∈ [Instr.drop a, .hnull a]) (hh : TileHere s (s.rH a))
    (hc : hCore (s.rH a) = s.cur.core) (hw : hWeight (s.rH a) = 0) (hs : Steady s) :
    let x := s.folio s.cur.core (hFolio (s.rH a))
    ∃ t, exec i s = .next t ∧ WroteH s t a 0 ∧ SameS s t ∧ SameP s t ∧ SameBytes s t ∧
      (1 < x.count → t.folio s.cur.core (hFolio (s.rH a)) = { x with count := x.count - 1 }) ∧
      (x.count ≤ 1 → t.folio s.cur.core (hFolio (s.rH a)) = { Folio.init with gen := (x.gen + 1) % 4096 }) ∧
      CtlRan id Core.hideTiles s t := by
  have hfin := letGo_finishes hi hh
  rw [giveUp_here hh hc hw] at hfin
  have hframe := countDown_bodyFrame s (hFolio (s.rH a)) 1
  obtain ⟨t, hx, hk, hS, hP, hran⟩ := hfin.ran hs showsCtl_hideTiles (hframe.wH Core.hideTiles_wH _ _)
  have hfolio : t.folio s.cur.core (hFolio (s.rH a)) =
      (countDown s.cur.core (hFolio (s.rH a)) 1 s).folio s.cur.core (hFolio (s.rH a)) := by
    have h := hk.folio (hFolio (s.rH a))
    rwa [State.wH_cur, hframe.cur, State.folio_wH] at h
  refine ⟨t, hx, (countDown_sameH _ _ _ _).wroteH hk.handles, hS, hP, hran.sameBytes, fun hn => ?_, fun hn => ?_, hran⟩
  · rw [hfolio, countDown_more hn, State.folio_setFolio]
  · rw [hfolio, countDown_last hn, freeTile_folio]

theorem letGo_away {i : Instr} (hi : i ∈ [Instr.drop a, .hnull a]) (hh : TileHere s (s.rH a))
    (hc : hCore (s.rH a) ≠ s.cur.core) (hw : hWeight (s.rH a) = 0) (hs : Steady s) :
    ∃ t, exec i s = .next t ∧ WroteH s t a 0 ∧ SameS s t ∧ SameP s t ∧
      t.msgs = s.msgs ++ [.delta s.cur.core .ctl (s.rH a) (-1) .drop s.cycle (s.mode != .u)] ∧
      CtlRan (fun x => { x with msgs := [] }) Core.hideH s t := by
  have hfin := letGo_finishes hi hh
  rw [giveUp_away hc hw] at hfin
  obtain ⟨t, hx, hk, hS, hP, hran⟩ := hfin.ran hs showsCtl_hideH ((BodyFrame.post _ s _).wH Core.hideH_wH _ _)
  exact ⟨t, hx, SameH.wroteH (fun _ => rfl) hk.handles, hS, hP, hk.msgs, hran⟩

/-- HNULL of a null register does nothing; DROP of one is HANDLE_NULL (0x30). -/
theorem letGo_null (hn : isNull (s.rH a) = true) (hs : Steady s) :
    (∃ t, exec (.hnull a) s = .next t ∧ SameS s t ∧ SameP s t ∧ CtlNext s t ∧ CtlOnly s t) ∧
      exec (.drop a) s = .next (takeTrap s.cur.core .ctl ⟨0x30, 0, 0, none, none⟩ s) := by
  constructor
  · rw [exec_hnull]
    exact runCtl_regs s s _ (if_pos hn) hs rfl (fun _ _ => rfl) rfl rfl rfl
  · rw [exec_drop]
    apply runCtl_trap
    simp only [hn]
    rfl

/-- DROP and HNULL of a stream's end close it as SCLOSE does. -/
theorem letGo_end (he : isEnd (s.rH a) = true) (hb : hBad (s.rH a) = false) :
    exec (.drop a) s = exec (.sclose a) s ∧ exec (.hnull a) s = exec (.sclose a) s := by
  have hnull := isNull_of_isEnd he
  have hgo : letGoReg a s = (do pure ((← sclose (s.rH a) s).wH a 0)) := by
    unfold letGoReg; simp only [he, hb]; rfl
  constructor
  · rw [exec_drop, exec_sclose, execDrop, execSclose, runCtl, runCtl]
    simp only [hnull, trapIf_false, hgo]
    rfl
  · rw [exec_hnull, exec_sclose, execHnull, execSclose, runCtl, runCtl]
    simp only [hnull, hgo]
    rfl

theorem hmov_moves {restrict : Bool} {keep : BitVec 4} (hd : d = a ∨ isNull (s.rH d) = true) (hs : Steady s) :
    ∃ t, exec (.hmov d a restrict keep) s = .next t ∧
      WroteH2 s t a 0 d (if restrict then hSetRights (s.rH a) (hRights (s.rH a) &&& keep.toNat) else s.rH a) ∧
      SameS s t ∧ SameP s t ∧ CtlRan id Core.hideH s t := by
  have hfin := hmov_finishes (restrict := restrict) (keep := keep) hd
  by_cases h : d = a
  · rw [if_pos h] at hfin
    obtain ⟨t, hx, hk, hrest⟩ := hfin.ran hs showsCtl_hideH ((BodyFrame.refl id _ s).wH Core.hideH_wH _ _)
    exact ⟨t, hx, wroteH2_of_eq h hk.handles, hrest⟩
  · rw [if_neg h] at hfin
    obtain ⟨t, hx, hk, hrest⟩ := hfin.ran hs showsCtl_hideH
      (((BodyFrame.refl id _ s).wH Core.hideH_wH _ _).wH Core.hideH_wH _ _)
    exact ⟨t, hx, wroteH2_of_wH_wH hk.handles, hrest⟩

theorem hput_writes (hm : s.mode ≠ .u) (hs : Steady s) :
    ∃ t, exec (.hput d a) s = .next t ∧ WroteH s t d (s.rS a) ∧ SameS s t ∧ SameP s t ∧ CtlRan id Core.hideH s t := by
  obtain ⟨t, hx, hk, hrest⟩ := (hput_finishes hm).ran hs showsCtl_hideH
    ((BodyFrame.refl id _ s).wH Core.hideH_wH _ _)
  exact ⟨t, hx, SameH.wroteH (fun _ => rfl) hk.handles, hrest⟩

theorem hput_user (hm : s.mode = .u) :
    exec (.hput d a) s = .next (takeTrap s.cur.core .ctl ⟨0x02, 0, 0, none, none⟩ s) := by
  rw [exec_hput]
  apply runCtl_trap
  simp only [needPriv, hm]
  rfl

theorem hget_reads (hs : Steady s) :
    ∃ t, exec (.hget d a) s = .next t ∧ WroteS s t d (s.rH a) ∧ SameP s t ∧ CtlNext s t ∧ CtlOnly s t := by
  rw [exec_hget]; exact runCtl_wS s d _ _ rfl hs

theorem hcmp_compares {b : BitVec 6} (hs : Steady s) :
    ∃ t, exec (.hcmp d a b) s = .next t ∧ WroteS s t d (hcmpWord (s.rH a) (s.rH b)) ∧ SameP s t ∧ CtlNext s t ∧
      CtlOnly s t := by
  rw [exec_hcmp]; exact runCtl_wS s d _ _ rfl hs

end

/-- A word of three flags, bit by bit. -/
theorem getLsbD_flags (p q r : Bool) (n : Nat) :
    (w64 ((if p then 1 else 0) + (if q then 2 else 0) + (if r then 4 else 0))).getLsbD n =
      if n = 0 then p else if n = 1 then q else if n = 2 then r else false := by
  match n with
  | 0 => revert p q r; decide
  | 1 => revert p q r; decide
  | 2 => revert p q r; decide
  | n + 3 =>
    have hlt : (if p then 1 else 0) + (if q then 2 else 0) + (if r then 4 else 0) < 2 ^ (n + 3) :=
      Nat.lt_of_lt_of_le (m := 2 ^ 3) (by revert p q r; decide) (Nat.pow_le_pow_right (by decide) (by omega))
    simp [w64, BitVec.getLsbD_ofNat, Nat.testBit_lt_two_pow hlt]

/-- HCMP's bits (R113): the same word, the same tile or end, the same home. -/
theorem hcmpWord_bits (x y : W64) (n : Nat) : (hcmpWord x y).getLsbD n =
    (if n = 0 then decide (x = y)
     else if n = 1 then
       decide (hKind x = hKind y ∧ hDev x = hDev y ∧ hCore x = hCore y ∧ hFolio x = hFolio y ∧ hGen x = hGen y)
     else if n = 2 then decide (hDev x = hDev y ∧ hCore x = hCore y)
     else false) := by
  have hword : hcmpWord x y = w64 ((if decide (x = y) then 1 else 0) +
      (if decide (hKind x = hKind y ∧ hDev x = hDev y ∧ hCore x = hCore y ∧ hFolio x = hFolio y ∧ hGen x = hGen y)
        then 2 else 0) +
      (if decide (hDev x = hDev y ∧ hCore x = hCore y) then 4 else 0)) := by
    simp only [hcmpWord, Bool.and_eq_true, decide_eq_true_eq, and_assoc]
  rw [hword, getLsbD_flags]

/-- Settles O24: the cases of DUP, DROP, HNULL, HMOV, HGET, HCMP and HPUT, each by what its body does and the frame of
its finish. -/
theorem references : Obligations.References := by
  unfold Obligations.References
  refine ⟨fun s d a => dup_here, fun s d a => dup_proxy, fun s d a => dup_away, fun s a i => letGo_here,
    fun s a i => letGo_away, fun s a => letGo_null, fun s a => letGo_end, fun s d a restrict keep => hmov_moves,
    fun s d a b hs => ⟨hget_reads hs, hcmp_compares hs, fun hm => hput_writes hm hs⟩, fun s d a => hput_user,
    hcmpWord_bits⟩

end Sys2Proof.Machine
end

section
/-! PROOF. TRAP, HALT and the word that is no instruction (O17; R316, R318, R55). The entry into S mode said once for
every strand and cause, the state in which CTL stands at the next word (R310), and then one theorem for each case of the
statement. -/

namespace Sys2Proof.Machine

/-! ### Registers and words of a trap's entry -/

theorem vget_ofFn {α : Type} {n : Nat} (d : α) (f : Fin n → α) {i : Nat} (hi : i < n) :
    vget d (Vector.ofFn f) i = f ⟨i, hi⟩ := by
  simp [vget, hi]

/-- S0 to S55 stay where another set takes the place of S56 to S63. -/
theorem Core.rS_setUpper_low (k : Core) (u : Vector W64 8) {r : BitVec 6} (hr : r.toNat < 56) :
    (k.setUpper u).rS r = k.rS r := by
  unfold Core.rS Core.setUpper
  rw [vget_ofFn 0 _ r.isLt, if_pos hr]

/-- S56 to S63 read the set that has taken their place. -/
theorem Core.rS_setUpper_high (k : Core) (u : Vector W64 8) {r : BitVec 6} (hr : 56 ≤ r.toNat) :
    (k.setUpper u).rS r = vget 0 u (r.toNat - 56) := by
  have h0 : r ≠ 0 := by rintro rfl; exact absurd hr (by decide)
  unfold Core.rS Core.setUpper
  rw [if_neg h0, vget_ofFn 0 _ r.isLt, if_neg (Nat.not_lt.mpr hr)]

/-- A bit set in a word: that bit holds 1 and every other is as before. -/
theorem getLsbD_setBit_true (w : W64) {b : Nat} (hb : b < 64) (i : Nat) :
    (setBit w b true).getLsbD i = (i == b || w.getLsbD i) := by
  by_cases hw : w.getLsbD b = true
  · rw [setBit, if_pos hw]
    by_cases hi : i = b
    · subst hi; simp [hw]
    · simp [hi]
  · have hdisjoint : w &&& BitVec.twoPow 64 b = 0#64 := by
      ext j hj
      by_cases hjb : j = b
      · subst hjb; simpa [hj] using hw
      · simp [BitVec.getElem_twoPow, hjb]
    have hset : setBit w b true = w ||| BitVec.twoPow 64 b := by
      have htwo : w64 (2 ^ b) = BitVec.twoPow 64 b := BitVec.eq_of_toNat_eq (by simp [w64, BitVec.toNat_twoPow])
      rw [setBit, if_neg hw, if_pos rfl, htwo, BitVec.add_eq_or_of_and_eq_zero _ _ hdisjoint]
    rw [hset, BitVec.getLsbD_or, BitVec.getLsbD_twoPow, Bool.or_comm]
    simp [hb, eq_comm, Bool.beq_eq_decide_eq]

/-- The field of bits 14 to 2 of a word, in its place. -/
theorem getLsbD_field14_2 (w : W64) (i : Nat) :
    (w64 (w.toNat / 4 % 2 ^ 13 * 4)).getLsbD i = (2 ≤ i && i < 15 && w.getLsbD i) := by
  have hshift : w.toNat / 4 % 2 ^ 13 * 4 = w.toNat / 2 ^ 2 % 2 ^ 13 * 2 ^ 2 := rfl
  rw [w64, BitVec.getLsbD_ofNat, hshift, Nat.testBit_mul_two_pow, Nat.testBit_mod_two_pow, Nat.testBit_div_two_pow]
  by_cases hi : 2 ≤ i
  · have hfield : i - 2 < 13 ↔ i < 15 := by omega
    have hword : i < 15 → i < 64 := by omega
    rw [Nat.sub_add_cancel hi]
    by_cases h15 : i < 15
    · simp [hi, h15, hfield, hword h15, BitVec.getLsbD]
    · simp [h15, hfield]
  · simp [hi]

/-- SAVEDST after an entry from U mode (R309): LIVE set, the mode 0, bits 14 to 2 as before. -/
theorem getLsbD_savedst_entry (w : W64) (i : Nat) :
    (setBit (w64 (w.toNat / 4 % 2 ^ 13 * 4 + Mode.u.code)) stLIVE true).getLsbD i =
      (i == 15 || (2 ≤ i && i < 15 && w.getLsbD i)) := by
  rw [getLsbD_setBit_true _ (by decide), ← getLsbD_field14_2]
  rfl

/-! ### Entry into S mode (R307) -/

/-- A core whose strands all stand at an instruction boundary (R307 step 2). -/
def Core.atBoundary (k : Core) : Core :=
  { k with ctl := k.ctl.settle, fet := k.fet.settle, exe := k.exe.settle, emi := k.emi.settle, raised := none, btb := [] }

/-- A core at its boundaries, its strand `st` at `pc`. -/
def Core.stoppedAt (k : Core) (st : Strand) (pc : W64) : Core := k.atBoundary.modStrand st (fun x => { x with pc })

/-- A core after the entry of a trap into S mode. -/
def Core.enteredS (k : Core) (st : Strand) (t : Trap) : Core :=
  let pc := resumePc (k.strand st) t
  let x := k.stoppedAt st pc
  { x.setUpper k.shS with
    shS := x.upper, mode := .s, stepArm := false, heldS := ⟨x.ctl.pc, x.ctl.loop⟩
    trapcause := causeWord st x.mode t, trappc := pc, trapaddr := t.addr, trapinfo := t.info
    savedst := setBit (w64 (x.savedst.toNat / 4 % 2 ^ 13 * 4 + x.mode.code)) stLIVE true
    ctl := { x.ctl with pc := x.trapvec &&& 0x000FFFFFFFFFFFFC, loop := none } }

theorem stopStrands_core (c : Nat) (s : State) : (stopStrands c s).core c = (s.core c).atBoundary :=
  State.core_modCore s c Core.atBoundary

theorem stopStrands_core_ne {c d : Nat} (s : State) (h : d ≠ c) : (stopStrands c s).core d = s.core d :=
  State.core_modCore_ne s c d Core.atBoundary h

theorem enterS_core (c : Nat) (st : Strand) (t : Trap) (s : State) :
    (enterS c st t s).core c = (s.core c).enteredS st t := by
  unfold enterS
  rw [State.core_modCore, stopStrands_core]
  rfl

theorem enterS_core_ne {c d : Nat} (st : Strand) (t : Trap) (s : State) (h : d ≠ c) :
    (enterS c st t s).core d = s.core d :=
  (State.core_modCore_ne _ c d _ h).trans (stopStrands_core_ne s h)

/-- Of the device outside the cores, an entry withdraws what the core has parked. -/
theorem enterS_rest (c : Nat) (st : Strand) (t : Trap) (s : State) :
    { (enterS c st t s).rest with parks := [] } = { s.rest with parks := [] } := by
  unfold enterS stopStrands State.modCore State.setCore State.rest
  rfl

theorem Core.stoppedAt_ctl (k : Core) (st : Strand) (pc : W64) :
    (k.stoppedAt st pc).ctl.pc = (if st = .ctl then pc else k.ctl.settle.pc) ∧
      (k.stoppedAt st pc).ctl.loop = k.ctl.loop := by
  cases st <;> exact ⟨rfl, rfl⟩

theorem Core.stoppedAt_strand (k : Core) (st x : Strand) (pc : W64) :
    ((k.stoppedAt st pc).strand x).pc = if x = st then pc else (k.strand x).settle.pc := by
  by_cases h : x = st
  · subst h
    rw [if_pos rfl]; unfold Core.stoppedAt; rw [Core.strand_modStrand]
  · rw [if_neg h]; unfold Core.stoppedAt; rw [Core.strand_modStrand_ne _ _ _ _ h]
    cases x <;> rfl

/-- The entry exchanges S56 to S63 with the S-mode shadow set (R307). -/
theorem Core.enteredS_swapsUpper (k : Core) (st : Strand) (t : Trap) : SwapsUpper k (k.enteredS st t) Core.shS := by
  have hs : (k.stoppedAt st (resumePc (k.strand st) t)).s = k.s := Core.modStrand_s _ _ _
  refine ⟨fun r hr => ?_, fun r hr => ?_, fun i hi => ?_⟩
  · refine (Core.rS_setUpper_low (k.stoppedAt st _) k.shS hr).trans ?_
    unfold Core.rS; rw [hs]
  · exact Core.rS_setUpper_high (k.stoppedAt st _) k.shS hr
  · show vget 0 (Core.upper _) i = _
    unfold Core.upper; rw [vget_ofFn 0 _ hi, hs]

theorem Core.hideTrap_enteredS (k : Core) (st : Strand) (t : Trap) : (k.enteredS st t).hideTrap = k.hideTrap := by
  cases st <;> rfl

theorem causeWord_user (st : Strand) {cause : Nat} (h : cause < 256) (addr info : W64) (next : Option W64) :
    causeWord st .u ⟨cause, addr, info, next, none⟩ = BitVec.ofNat 64 (st.code * 1024 + cause) := by
  simp only [causeWord, Mode.code, w64, Nat.mod_eq_of_lt h, Nat.zero_mul, Nat.zero_add, Nat.add_zero, Nat.reducePow]

theorem enterS_entered {c : Nat} {st : Strand} {cause : Nat} {addr info : W64} {next : Option W64} {s : State}
    (hm : (s.core c).mode = .u) (hc : cause < 256) :
    EnteredS c st cause (next.getD ((s.core c).strand st).settle.pc) addr info s
      (enterS c st ⟨cause, addr, info, next, none⟩ s) := by
  have hcore := enterS_core c st ⟨cause, addr, info, next, none⟩ s
  have hmode : ∀ pc, ((s.core c).stoppedAt st pc).mode = .u := fun pc => (Core.modStrand_mode _ _ _).trans hm
  have hsave : ∀ pc, ((s.core c).stoppedAt st pc).savedst = (s.core c).savedst := fun pc => Core.modStrand_savedst _ _ _
  constructor
  case mode => rw [hcore]; rfl
  case cause => rw [hcore, ← causeWord_user st hc addr info next, ← hmode]; rfl
  case pc => rw [hcore]; rfl
  case addr => rw [hcore]; rfl
  case info => rw [hcore]; rfl
  case saved =>
    intro i
    rw [hcore, ← getLsbD_savedst_entry]
    show (setBit (w64 (_ / 4 % 2 ^ 13 * 4 + _)) stLIVE true).getLsbD i = _
    rw [hmode, hsave]
  case handler =>
    rw [hcore]
    show Core.trapvec (Core.stoppedAt _ _ _) &&& _ = _
    unfold Core.stoppedAt; rw [Core.modStrand_trapvec]; rfl
  case noLoop => rw [hcore]; rfl
  case held =>
    rw [hcore]
    obtain ⟨hpc, hloop⟩ := Core.stoppedAt_ctl (s.core c) st (next.getD ((s.core c).strand st).settle.pc)
    rw [← hpc, ← hloop]; rfl
  case wide =>
    intro x hx
    rw [hcore, ← Core.stoppedAt_strand]
    cases x
    case ctl => exact absurd rfl hx
    all_goals rfl
  case upper => rw [hcore]; exact Core.enteredS_swapsUpper _ _ _
  case rest => exact enterS_rest _ _ _ _
  case cores => exact fun c' hc' => enterS_core_ne _ _ _ hc'
  case core => rw [hcore]; exact Core.hideTrap_enteredS _ _ _

/-- A trap of a core in U mode that waits for nothing enters S mode at once (R305, R307). -/
theorem takeTrap_entered {c : Nat} {st : Strand} {cause : Nat} {addr info : W64} {next : Option W64} {s : State}
    (h : EntersNow s c st) (hc : cause < 0xB1) :
    EnteredS c st cause (next.getD ((s.core c).strand st).settle.pc) addr info s
      (takeTrap c st ⟨cause, addr, info, next, none⟩ s) := by
  obtain ⟨hu, hr, hq⟩ := h
  have hmon : toMonitor cause = false := by simp [toMonitor]; omega
  have htake : takeTrap c st ⟨cause, addr, info, next, none⟩ s = enterS c st ⟨cause, addr, info, next, none⟩ s := by
    simp only [takeTrap, hr, hq, enter, hu, hmon, Bool.false_eq_true, if_true, if_false]
  rw [htake]
  exact enterS_entered hu (by omega)

/-! ### CTL at the next word (R310, R36) -/

/-- The state in which CTL has gone on to the next word, out of its MOD word. -/
def State.atNext (s : State) : State := s.modMe (fun k => { k with ctl := { k.ctl.advance 4 4 with pre := none } })

@[simp] theorem State.me_atNext (s : State) :
    s.atNext.me = { s.me with ctl := { s.me.ctl.advance 4 4 with pre := none } } := State.me_modMe s _

theorem trapNext_eq {α : Type} (s : State) (cause : Nat) (info : W64) :
    (trapNext s cause info : Try α) = .error (.trap ⟨cause, 0, info, some (s.me.ctl.advance 4 4).pc, none⟩ s.atNext) := by
  show Except.error (Stop.trap ⟨cause, 0, info, some s.atNext.me.ctl.pc, none⟩ s.atNext) = _
  rw [State.me_atNext]

theorem sameS_atNext (s : State) : SameS s s.atNext := fun r => by
  show Core.rS s.atNext.me r = _
  rw [State.me_atNext]; rfl

theorem sameP_atNext (s : State) : SameP s s.atNext := fun p => by
  show Core.rP s.atNext.me p = _
  rw [State.me_atNext]; rfl

theorem ctlRan_atNext (s : State) : CtlRan id id s s.atNext := by
  refine ⟨⟨rfl, fun c hc => State.core_modCore_ne _ _ _ _ hc, ?_⟩, ?_, ?_⟩
  · show Core.restCtl s.atNext.me = Core.restCtl s.me
    rw [State.me_atNext]
    show ({ s.me with s := _, p := _, ctl := (s.me.ctl.advance 4 4).rest } : Core) = _
    rw [StrandSt.rest_advance]; rfl
  · rw [State.me_atNext]
  · rw [State.me_atNext]

/-- Where CTL stands does not matter to whether a trap of CTL is entered at once. -/
theorem EntersNow.atNext {s : State} (h : EntersNow s s.cur.core .ctl) : EntersNow s.atNext s.cur.core .ctl := by
  have hme : s.atNext.core s.cur.core = _ := s.me_atNext
  obtain ⟨hu, hr, hq⟩ := h
  exact ⟨by rw [hme]; exact hu, by rw [hme]; exact hr, by rw [hme]; exact hq⟩

/-- A CTL instruction that traps with the address of the next word, in U mode: it stands there when it enters S mode. -/
theorem trapNext_entered {s : State} {cause : Nat} {info : W64} (h : EntersNow s s.cur.core .ctl) (hc : cause < 0xB1) :
    EnteredS s.cur.core .ctl cause (s.me.ctl.advance 4 4).pc 0 info s.atNext
      (takeTrap s.cur.core .ctl ⟨cause, 0, info, some (s.me.ctl.advance 4 4).pc, none⟩ s.atNext) :=
  takeTrap_entered (next := some (s.me.ctl.advance 4 4).pc) h.atNext hc

/-! ### The instructions -/

/-- The cause of TRAP (R316): USER_TRAP, MON_CALL, FW_TRAP. -/
def trapCause : Mode → Nat | .u => 0x03 | .s => 0x08 | .m => 0x0B

theorem exec_trap_takeTrap (n : BitVec 6) (s : State) :
    exec (.trap n) s = .next (takeTrap s.cur.core .ctl
      ⟨trapCause s.me.mode, 0, n.setWidth 64, some (s.me.ctl.advance 4 4).pc, none⟩ s.atNext) := by
  rw [exec_trap]
  exact runCtl_trap (trapNext_eq _ _ _)

theorem exec_halt_takeTrap {s : State} (hm : s.me.mode ≠ .m) :
    exec .halt s = .next (takeTrap s.cur.core .ctl ⟨0x07, 0, 0, some (s.me.ctl.advance 4 4).pc, none⟩ s.atNext) := by
  rw [exec_halt]
  refine runCtl_trap ?_
  rw [if_neg (by simpa using hm)]
  exact trapNext_eq _ _ _

theorem exec_illegalEncoding_takeTrap (s : State) :
    exec .illegalEncoding s = .next (takeTrap s.cur.core s.cur.st ⟨0x00, 0, 0, none, none⟩ s) := rfl

/-- A core that HALT in M mode has stopped (R318). -/
def Core.halted (k : Core) : Core := { k with stopped := true, out := true }

/-- A core without whether it has stopped and left dispatch. -/
def Core.hideStop (k : Core) : Core := { k with stopped := false, out := false }

theorem showsCtl_hideStop : ShowsCtl Core.hideStop :=
  ⟨fun _ => rfl, fun _ => rfl, fun _ => rfl, fun _ => rfl⟩

theorem halt_finishes {s : State} (hm : s.me.mode = .m) : Finishes .halt s (s.modMe Core.halted) := by
  unfold Finishes
  rw [exec_halt]
  exact runCtl_ok (if_pos (by rw [hm]; rfl))

/-- HALT in M mode stops the core and takes it out of dispatch; CTL goes on to the next word (R318). -/
theorem halt_monitor {s : State} (hm : s.me.mode = .m) (hs : Steady s) :
    ∃ t, exec .halt s = .next t ∧ t.me.stopped = true ∧ t.me.out = true ∧ SameS s t ∧ SameP s t ∧
      CtlRan id Core.hideStop s t := by
  have hframe : BodyFrame id Core.hideStop s (s.modMe Core.halted) :=
    (BodyFrame.refl _ _ s).modCore (F := Core.halted) (fun _ => rfl)
  obtain ⟨hS, hP, hran⟩ := hframe.finish showsCtl_hideStop
  obtain ⟨-, -, -, hme⟩ := finishCtl_view (s.modMe Core.halted) false
  refine ⟨_, by rw [halt_finishes hm, hs, hframe.cur], ?_, ?_, hS, hP, hran⟩
  · rw [hme, Core.modStrand_stopped, State.me_modMe]; rfl
  · rw [hme, Core.modStrand_out, State.me_modMe]; rfl

/-- TRAP is none of the instructions of which R21 names the registers they depend on. -/
theorem ctlRegs_trap (n : BitVec 6) : ctlRegs (.trap n) = none := rfl

/-- Every outstanding load holds TRAP back (R316). -/
theorem waitsLoads_trap {s : State} (n : BitVec 6) (hst : s.cur.st = .ctl) (hl : s.me.loads ≠ []) :
    waitsLoads s (.trap n) = true := by
  have he : s.me.loads.isEmpty = false := List.isEmpty_eq_false_iff.mpr hl
  simp only [waitsLoads, hst, he, ctlRegs_trap, bne_self_eq_false, Bool.or_self, Bool.false_eq_true, if_false]

/-- Settles O17: TRAP in each mode, TRAP and HALT in U mode, a word that is no instruction, and HALT in M mode. -/
theorem trapInstructions : Obligations.TrapInstructions := by
  unfold Obligations.TrapInstructions
  refine ⟨fun s n => ?_, fun s n => waitsLoads_trap n, fun s n _ h => ?_, fun s _ h => ?_, fun s h => ?_,
    fun s => halt_monitor⟩
  · refine ⟨s.atNext, exec_trap_takeTrap n s, ?_, sameS_atNext s, sameP_atNext s, rfl, (ctlRan_atNext s).cores⟩
    rw [State.me_atNext]
  · have hu : s.me.mode = .u := h.user
    refine ⟨s.atNext, _, exec_trap_takeTrap n s, ctlRan_atNext s, sameS_atNext s, sameP_atNext s, ?_⟩
    rw [hu]
    exact trapNext_entered h (by decide)
  · have hm : s.me.mode ≠ .m := by rw [State.me, h.user]; decide
    exact ⟨s.atNext, _, exec_halt_takeTrap hm, ctlRan_atNext s, sameS_atNext s, sameP_atNext s,
      trapNext_entered h (by decide)⟩
  · exact ⟨_, exec_illegalEncoding_takeTrap s, takeTrap_entered (cause := 0x00) (next := none) h (by decide)⟩

end Sys2Proof.Machine
end
